-- ==== Sys2Proof/Word.lean ====
section
/-! DEFINITION. The widths of the device and their plainest arithmetic (spec/00_scope.md R13 to R17). -/
namespace Sys2Proof

/-- A byte of memory. -/
abbrev Byte := BitVec 8

/-- The Sundial counter and every 64-bit register (R31, R480). -/
abbrev Word64 := BitVec 64

/-- Ceiling division; a zero divisor gives 0. -/
def ceilDiv (a b : Nat) : Nat := (a + b - 1) / b

/-- `a` rounded up to a multiple of `b`. -/
def roundUp (a b : Nat) : Nat := ceilDiv a b * b

/-- `a` rounded down to a multiple of `b`. -/
def roundDown (a b : Nat) : Nat := a / b * b

/-- Field of `n` bits of `w` whose lowest bit is bit `lo` (R13). -/
def bits (w lo n : Nat) : Nat := (w >>> lo) % 2 ^ n

/-- Bit `i` of `w`. -/
def bit (w i : Nat) : Bool := (w >>> i) % 2 == 1

/-- Field of `n` bits that starts `off` bytes and `lo` bits into a little-endian structure `w` (R14). -/
def fieldAt (w off lo n : Nat) : Nat := bits w (8 * off + lo) n

end Sys2Proof
end

