-- ==== Sys2Proof/Syntax.lean ====
section
/-! DEFINITION. The commands of the block: one constructor of `Instr` for each row of spec/opcode_table.json, in its order,
with the operands the row's rule gives the event. A command is a driver access, a transaction on a port, a pin or SMBus
event, or an event of the device's own time; the pending queue orders them. -/
namespace Sys2Proof

/-- Which half of a 64-bit register a driver write covers (R480). -/
inductive Half where
  | both
  | low
  | high
  deriving DecidableEq, Repr

/-- A driver write: the half covered and the value, each half in its own place. -/
structure RegVal where
  half : Half
  value : Word64
  deriving DecidableEq, Repr

/-- The three units that run Trellis rows (R203). -/
inductive TUnit where
  | copy
  | compute
  | store
  deriving DecidableEq, Repr

/-- A register of a host-class core that an access writes. -/
inductive CoreReg where
  | none
  | x (i : Nat)
  | f (i : Nat)
  | v (i : Nat)
  deriving DecidableEq, Repr

/-- The atomic memory operations of the A extension (R330). -/
inductive AmoOp where
  | swap
  | add
  | and
  | or
  | xor
  | min
  | max
  | minu
  | maxu
  deriving DecidableEq, Repr

/-- What a CSR instruction does with the register: write, set bits, clear bits. -/
inductive CsrOp where
  | write
  | set
  | clear
  deriving DecidableEq, Repr

/-- What a host-class core does in one step: an access at an address, sizes in bytes; or an access to its control and status
registers and a return from an exception, which set what its accesses are translated by (R332; log 10). -/
inductive CoreOp where
  | load (n : Nat) (signed : Bool) (rd : CoreReg)
  | store (n : Nat) (value : Nat)
  | fetch
  | amo (op : AmoOp) (n : Nat) (value : Nat) (rd : CoreReg)
  | lr (n : Nat) (rd : CoreReg)
  | sc (n : Nat) (value : Nat) (rd : CoreReg)
  | zero
  | csr (op : CsrOp) (num : Nat) (value : Nat) (rd : CoreReg)
  | sret
  deriving DecidableEq, Repr

/-- A transaction header (Table 12-4). -/
structure Hdr where
  kind : Nat
  directed : Bool
  host : Bool
  hostPort : Bool
  hops : Nat
  dst : Nat
  src : Nat
  tag : Nat
  w1 : Nat
  w2 : Nat
  w3 : Nat
  deriving DecidableEq, Repr

/-- What a read of a unit by patrol scrub finds (R72). -/
inductive EccResult where
  | clean
  | corrected
  | uncorrectable
  deriving DecidableEq, Repr

/-- What a receive lane finds in a training attempt (R460): the partner's lane that it hears, none where it cannot be brought up, and
whether P and N are inverted. -/
structure LaneFinding where
  partner : Option Nat
  inverted : Bool
  deriving DecidableEq, Repr

/-- A record of the Gatehouse flash partition whose tag can fail (R444): a log record by its `SEQ`, the dump, the escalation state,
service time, a copy of an anti-rollback counter and a firmware slot, each by image type. -/
inductive FlashRecord where
  | log (seq : Nat)
  | dump
  | escalation
  | service
  | counter (type : Nat) (second : Bool)
  | slot (type : Nat) (slotB : Bool)
  deriving DecidableEq, Repr

/-- What a cold boot finds in the module's flash and PUF (R442 to R444): the part record is read as it was written; the PUF's secret is
reconstructed; the flash records whose tags fail, with their byte offsets in the partition. -/
structure BootFinding where
  partOk : Bool
  pufOk : Bool
  tags : List (FlashRecord × Nat)
  deriving DecidableEq, Repr

/-- The commands of the block. -/
inductive Instr where
  | epochPublish (w : RegVal)
  | epochValidationEnd
  | epochCancel (w : RegVal)
  | scheduledWake (agent : Nat) (now : Word64)
  | wakeComplete (agent : Nat) (now : Word64)
  | agentStart (agent : Nat) (now : Word64)
  | startLate (agent : Nat) (now : Word64)
  | doneGateSignal (agent : Nat)
  | signalApply (agent : Nat) (k : Nat)
  | gateTimeout (agent : Nat) (now : Word64)
  | boundaryFault (agent : Nat)
  | fenceComplete (agent : Nat)
  | gateValue (gate : Nat) (w : RegVal)
  | gateSignal (gate : Nat) (w : RegVal)
  | nop (a : Nat)
  | halt (a : Nat)
  | fence (a : Nat)
  | wake (a : Nat)
  | gsig (a : Nat)
  | gwait (a : Nat)
  | tload (a : Nat)
  | tableSwap (a : Nat) (table : Nat)
  | dload (a : Nat)
  | ctxsave (a : Nat)
  | ctxload (a : Nat)
  | trdry (a : Nat)
  | mm (a : Nat)
  | mmc (a : Nat)
  | mmx (a : Nat)
  | conv (a : Nat)
  | convf (a : Nat)
  | attn (a : Nat)
  | attnb (a : Nat)
  | pscore (a : Nat)
  | kvexp (a : Nat)
  | vec (a : Nat)
  | row (a : Nat)
  | sfn (a : Nat)
  | sort (a : Nat)
  | rng (a : Nat)
  | pool (a : Nat)
  | resize (a : Nat)
  | copy (a : Nat)
  | trellisRowComplete (a : Nat) (unit : TUnit)
  | insnComplete (a : Nat) (k : Nat)
  | moverCopy (m : Nat)
  | promote (m : Nat)
  | evict (m : Nat)
  | alloc (m : Nat)
  | xserve (m : Nat)
  | moverGsig (m : Nat)
  | moverGwait (m : Nat)
  | moverFence (m : Nat)
  | moverEnd (m : Nat)
  | moverCopyComplete (m : Nat)
  | promotionCopyDone (m : Nat)
  | xserveTimeout (m : Nat) (now : Word64)
  | exportFrame (m : Nat)
  | sessionOpen
  | map
  | commit
  | truncate
  | sessionClose
  | coreAccess (core : Nat) (op : CoreOp) (addr : Nat)
  | cboClean (core : Nat) (addr : Nat)
  | cboFlush (core : Nat) (addr : Nat)
  | cboInval (core : Nat) (addr : Nat)
  | cacheWriteback (core : Nat) (addr : Nat)
  | coreGsig (core : Nat) (value : Word64)
  | coreWaitTarget (core : Nat) (value : Word64)
  | coreWaitStatus (core : Nat) (rd : CoreReg)
  | coreFence (core : Nat) (value : Word64)
  | coreFenceDone (core : Nat) (rd : CoreReg)
  | coreEcall (core : Nat)
  | coreClearWriteback (core : Nat)
  | codecOpen (c : Nat)
  | encFrame (c : Nat)
  | decFrame (c : Nat)
  | codecClose (c : Nat)
  | codecGsig (c : Nat)
  | codecGwait (c : Nat)
  | codecFence (c : Nat)
  | codecEnd (c : Nat)
  | frameComplete (c : Nat)
  | codecCtxBusy (c : Nat) (now : Word64)
  | stackTempReport (stack : Nat) (temp : Nat)
  | overtempStop (stack : Nat) (w : RegVal)
  | imbalanceSample (stack : Nat) (channel busiest total block : Nat)
  | patrolScrub (unit : Nat) (found : EccResult)
  | iceStripeRead (stripe : Nat) (bad : List Nat)
  | iceChannelFailed (channel : Nat)
  | objTableWrite (index : Nat) (word : Nat) (w : RegVal)
  | trainingComplete (p : Nat) (lanes : List LaneFinding) (partnerGens : List Nat) (now : Word64)
  | linkTrainRetry (p : Nat) (now : Word64)
  | neighbourTimeout (p : Nat) (now : Word64)
  | controlFlitTimer (p : Nat) (now : Word64)
  | trainReceive (p : Nat) (fecOk : Bool) (corrected : Nat) (ctrl : List Byte) (data : List Byte) (now : Word64)
  | write (p : Nat) (h : Hdr) (data : List Byte)
  | readReq (p : Nat) (h : Hdr)
  | readResp (p : Nat) (h : Hdr) (data : List Byte)
  | ack (p : Nat) (h : Hdr)
  | nack (p : Nat) (h : Hdr)
  | gsigTransaction (p : Nat) (h : Hdr)
  | exportTxn (p : Nat) (h : Hdr) (data : List Byte)
  | syncReq (p : Nat) (h : Hdr) (t2 t3 : Nat)
  | syncResp (p : Nat) (h : Hdr) (t4 : Nat)
  | neighbour (p : Nat) (h : Hdr)
  | syncPeriod (p : Nat) (t1 : Nat) (equalising : Bool)
  | linkTimeout (tag : Nat) (now : Word64)
  | lossOfSignal (p : Nat)
  | linkNodeId (w : RegVal)
  | routeEntryWrite (node : Nat) (value : BitVec 32)
  | linkPortConfig (p : Nat) (w : RegVal)
  | ppsEdge (now : Word64)
  | powerProfile (w : RegVal)
  | profileChange (now : Word64)
  | powerGate (agent : Nat) (now : Word64)
  | envelopeSample (now : Word64) (stackGBs : List Nat) (iceGBs : Nat)
  | inputPowerSample (watts : Nat) (now : Word64)
  | inputSag (mv : Nat) (now : Word64)
  | powerFail (mv : Nat) (now : Word64)
  | dieTempReport (die : Nat) (temp : Nat)
  | dieTrip (w : RegVal)
  | mowWindowStart (now : Word64)
  | mowWindowEnd (now : Word64)
  | mowForced (now : Word64)
  | mowConfig (w : RegVal)
  | mowPhase (w : RegVal)
  | progressTimeout (agent : Nat) (now : Word64)
  | gatehouseRestart (now : Word64)
  | arrayReset (a : Nat) (storeDone : Bool)
  | moverReset (m : Nat)
  | codecCoreReset (c : Nat)
  | hostCoreClusterReset
  | portReset (p : Nat)
  | channelRetrain (channel : Nat)
  | deviceWarmReset (cause : Nat) (dump : Bool)
  | deviceColdReset (cause : Nat)
  | resetComplete (domain : Nat) (target : Nat) (ok : Bool)
  | dumpCaptureComplete
  | logMirror (seq : Nat)
  | agentFaultClear (agent : Nat) (w : RegVal)
  | partRead
  | quote
  | extend
  | fwStage
  | fwVerify
  | fwActivate
  | fwCommit
  | debugUnlock
  | dumpRead
  | serviceClear
  | iceProvision
  | iceRelease
  | powerUp (slot : Nat) (mv : Nat)
  | softStart
  | powerGood
  | bootReady (found : BootFinding)
  | railGroupTimeout (group : Nat)
  | resetN (lowSamples : Nat)
  | mateNBreak
  | jtagReset
  | smbAlertResponse
  | status
  | inputMv
  | inputW
  | dieTempMax
  | stackTempMax
  | slot
  | serial
  | registerWrite (addr : Nat) (w : RegVal)
  | partnerDetection (p : Nat)
  | ppsEdgeLoss (now : Word64)
  | gatehouseRestartComplete
  | coreException (core : Nat) (cause : Nat) (tval : Word64)
  | insnOpcode (a : Nat)
  | moverOpcode (m : Nat)
  | codecOpcode (c : Nat)
  | mboxOpcode
  deriving DecidableEq, Repr

end Sys2Proof
end

