-- ==== Sys2Proof/Decode.lean ====
section
/-! DEFINITION. The command that a word spells by the bits of spec/opcode_table.json. The device has no instruction decoder of
its own for these rows, and no row of the table gives bits, so no word spells a command. The encodings of array
instructions, mover, codec, session and mailbox commands are read from memory by the commands that run them. -/
namespace Sys2Proof

/-- The rows of the table that give bits: how many bits, which bits are fixed, their values, and the command. -/
def tableRows : List (Nat × Nat × Nat × Instr) := []

/-- The command a word of `nbits` bits spells by the rows that give bits. -/
def decodeTableWord (nbits w : Nat) : Option Instr :=
  (tableRows.find? fun r => decide (r.1 = nbits) && decide (Nat.land w r.2.1 = r.2.2.1)).map fun r => r.2.2.2

end Sys2Proof
end

