-- ==== Sys2Proof/Config.lean ====
section
/-! DEFINITION. What the spec leaves open: free values, each an opaque constant that no proof can see into, applied to a
counter of the state or to the operands it depends on. Every constant is named by a row of notes/assumptions. -/
namespace Sys2Proof.Config

/-- A byte of memory the spec calls undefined (R63, R66, R82, R197, R424, R425), by the state's counter and the address
(log 4). -/
opaque undefByte : Nat → Nat → Byte

/-- Whether a read of an Icehouse unit that no provision has written comes marked poisoned (R82; log 4). -/
opaque undefPoison : Nat → Nat → Bool

/-- A bit or a register value the spec does not state, by the state's counter (log 14). -/
opaque freeBool : Nat → Bool

/-- A number the spec does not state, by the state's counter and the operands (log 14). -/
opaque freeNat : Nat → List Nat → Nat

/-- The 48 bytes of the secret that ROM reconstructs from the identity PUF (R443; log 9). -/
opaque pufSecret : Nat → Byte

/-- The number that makes a signature of a digest its own (FIPS 186-5; log 9). -/
opaque signNonce : List Byte → Nat

/-- The firmware root key and the part-record key held in the Gatehouse ROM (R442; log 9). -/
opaque firmwareRootKey : List Byte
opaque partRecordKey : List Byte

/-- The bytes of the part record written at manufacture (R441; log 9): its free fields. -/
opaque partByte : Nat → Byte

/-- The module serial of the part record (R441); the record holds it, and it is never 0 (log 9). -/
opaque serialRaw : Nat

/-- The bits that the spec leaves open between the fixed ones of a stream's headers, by a number of the place and the stream's fields
(R345; log 8). -/
opaque headerBits : Nat → List Nat → List Bool

/-- Types of a coded frame's other OBUs, with the bits of each before and after its tile information (R345, R349), by the stream's
fields and the records of its frames, this one last (log 8). -/
opaque codedObus : List Nat → List (List Nat) → List (Nat × List Bool × List Bool)

/-- The payload of an HEVC NAL unit of a frame (R345, R349), by the stream, the records of its frames and the NAL unit's type;
type 64 stands for a slice together with its header (log 8). -/
opaque codedNal : List Nat → List (List Nat) → Nat → List Byte

/-- A picture of a decoded unit: its size, whether it is a key frame or IRAP, and whether the bitstream carries film grain
parameters for it (R343, R361). -/
structure Picture where
  width : Nat
  height : Nat
  key : Bool
  grain : Bool
  deriving DecidableEq, Repr

/-- What a decode core reads in a unit (R343, R364): the coding that Table 11-1 and `OPEN` bound, whether the unit conforms and
the byte offset of the first failing element, whether it starts with a key frame or IRAP picture and carries the headers of a
random access point, its pictures in decode order, and how many more pictures it makes due for output. -/
structure UnitFacts where
  profile : Nat
  depth : Nat
  /-- 0 monochrome, 1 4:2:0, 2 4:2:2, 3 4:4:4 -/
  sampling : Nat
  highTier : Bool
  largeScaleTile : Bool
  level : Nat
  conforms : Bool
  failsAt : Nat
  key : Bool
  headers : Bool
  pictures : List Picture
  due : Nat
  deriving DecidableEq, Repr, Inhabited

/-- The reading of a unit by a decode core (R364), by the stream, its history and the unit's bytes (log 8). -/
opaque decodeUnit : List Nat → List (List Nat) → List Byte → UnitFacts

/-- The place in decode order of the picture of a display index (R364; log 8). -/
opaque displayOrder : List Nat → List (List Nat) → Nat → Nat

/-- A sample of a decoded picture before film grain (R349), by the stream, its history, the picture's display index and the
sample's place (log 8). -/
opaque decodedSample : List Nat → List (List Nat) → Nat → Nat → Nat

/-- The same sample after AV1 film grain synthesis (R343; log 8). -/
opaque grainSample : List Nat → List (List Nat) → Nat → Nat → Nat

/-- Luma samples per picture and per second of a level code that is no level of its standard (R344), by standard and code
(log 136). -/
opaque levelLimit : Nat → Nat → Nat × Nat

end Sys2Proof.Config
end

