-- ==== Sys2Proof/Machine/Codes.lean ====
section
/-! DEFINITION. The fault codes of Table 14-11 (R439), each under its name. -/
namespace Sys2Proof.Machine

/-- `DEVICE_OUT_OF_SERVICE`, kind R. -/
abbrev cDeviceOutOfService : Nat := 0x1001
/-- `EPOCH_BUSY`, kind R. -/
abbrev cEpochBusy : Nat := 0x1002
/-- `SUNDIAL_UNLOCKED`, kind R. -/
abbrev cSundialUnlocked : Nat := 0x1003
/-- `EPOCH_FORMAT`, kind R. -/
abbrev cEpochFormat : Nat := 0x1004
/-- `EPOCH_RESERVED`, kind R. -/
abbrev cEpochReserved : Nat := 0x1005
/-- `EPOCH_AGENT`, kind R. -/
abbrev cEpochAgent : Nat := 0x1006
/-- `EPOCH_ALIGN`, kind R. -/
abbrev cEpochAlign : Nat := 0x1007
/-- `EPOCH_STALE`, kind R. -/
abbrev cEpochStale : Nat := 0x1008
/-- `EPOCH_SLOT_BUSY`, kind R. -/
abbrev cEpochSlotBusy : Nat := 0x1009
/-- `START_LATE`, kind F, E. -/
abbrev cStartLate : Nat := 0x1010
/-- `GATE_RANGE`, kind F. -/
abbrev cGateRange : Nat := 0x2001
/-- `GATE_OPERAND`, kind F. -/
abbrev cGateOperand : Nat := 0x2002
/-- `GATE_TIMEOUT`, kind F. -/
abbrev cGateTimeout : Nat := 0x2003
/-- `GATE_REMOTE_DENIED`, kind F, E. -/
abbrev cGateRemoteDenied : Nat := 0x2004
/-- `INSN_FETCH`, kind F. -/
abbrev cInsnFetch : Nat := 0x3001
/-- `INSN_RESERVED`, kind F. -/
abbrev cInsnReserved : Nat := 0x3002
/-- `INSN_OPCODE`, kind F. -/
abbrev cInsnOpcode : Nat := 0x3003
/-- `INSN_OPERAND`, kind F. -/
abbrev cInsnOperand : Nat := 0x3004
/-- `INSN_FORMAT`, kind F. -/
abbrev cInsnFormat : Nat := 0x3005
/-- `DESC_EMPTY`, kind F. -/
abbrev cDescEmpty : Nat := 0x3010
/-- `DESC_TYPE`, kind F. -/
abbrev cDescType : Nat := 0x3011
/-- `DESC_RESERVED`, kind F. -/
abbrev cDescReserved : Nat := 0x3012
/-- `DESC_FORMAT`, kind F. -/
abbrev cDescFormat : Nat := 0x3013
/-- `DESC_ALIGN`, kind F. -/
abbrev cDescAlign : Nat := 0x3014
/-- `SHAPE_BOUND`, kind F. -/
abbrev cShapeBound : Nat := 0x3020
/-- `SHAPE_MISMATCH`, kind F. -/
abbrev cShapeMismatch : Nat := 0x3021
/-- `TILE_NO_FIT`, kind F. -/
abbrev cTileNoFit : Nat := 0x3022
/-- `SCALE_VALUE`, kind F. -/
abbrev cScaleValue : Nat := 0x3023
/-- `CTX_FORMAT`, kind F. -/
abbrev cCtxFormat : Nat := 0x3030
/-- `RNG_LANE_MISMATCH`, kind F. -/
abbrev cRngLaneMismatch : Nat := 0x3031
/-- `ADDR_UNMAPPED`, kind F, R. -/
abbrev cAddrUnmapped : Nat := 0x4001
/-- `ICE_WRITE`, kind F. -/
abbrev cIceWrite : Nat := 0x4002
/-- `MEM_POISON`, kind F, R. -/
abbrev cMemPoison : Nat := 0x4003
/-- `STACK_OVERTEMP`, kind F, R, D. -/
abbrev cStackOvertemp : Nat := 0x4004
/-- `OBJ_INVALID`, kind F. -/
abbrev cObjInvalid : Nat := 0x4010
/-- `OBJ_STALE`, kind F. -/
abbrev cObjStale : Nat := 0x4011
/-- `OBJ_BOUND`, kind F. -/
abbrev cObjBound : Nat := 0x4012
/-- `OBJ_NOT_RESIDENT`, kind F. -/
abbrev cObjNotResident : Nat := 0x4013
/-- `OBJ_READ_ONLY`, kind F. -/
abbrev cObjReadOnly : Nat := 0x4014
/-- `OBJ_EVICTING`, kind F. -/
abbrev cObjEvicting : Nat := 0x4015
/-- `OBJ_DAMAGED`, kind F. -/
abbrev cObjDamaged : Nat := 0x4016
/-- `OBJ_SALT`, kind F. -/
abbrev cObjSalt : Nat := 0x4017
/-- `STACK_EXTENT_BUSY`, kind F. -/
abbrev cStackExtentBusy : Nat := 0x4018
/-- `QUOTA_EXCEEDED`, kind F. -/
abbrev cQuotaExceeded : Nat := 0x4019
/-- `PROMOTION_ABORTED`, kind F, E. -/
abbrev cPromotionAborted : Nat := 0x401A
/-- `ICE_STRIPE_LOST`, kind F, E. -/
abbrev cIceStripeLost : Nat := 0x4020
/-- `STACK_CHANNEL_FAILED`, kind D. -/
abbrev cStackChannelFailed : Nat := 0x4021
/-- `MOVER_RESERVED`, kind F. -/
abbrev cMoverReserved : Nat := 0x5001
/-- `MOVER_OPCODE`, kind F. -/
abbrev cMoverOpcode : Nat := 0x5002
/-- `MOVER_OPERAND`, kind F. -/
abbrev cMoverOperand : Nat := 0x5003
/-- `XSERVE_TIMEOUT`, kind F. -/
abbrev cXserveTimeout : Nat := 0x5004
/-- `EXPORT_ABORTED`, kind F. -/
abbrev cExportAborted : Nat := 0x5005
/-- `MOVER_FETCH`, kind F. -/
abbrev cMoverFetch : Nat := 0x5006
/-- `SESSION_INVALID`, kind F. -/
abbrev cSessionInvalid : Nat := 0x6001
/-- `SESSION_STALE`, kind F, R. -/
abbrev cSessionStale : Nat := 0x6002
/-- `SESSION_RANGE`, kind F, R. -/
abbrev cSessionRange : Nat := 0x6003
/-- `BELVEDERE_ABSENT`, kind F. -/
abbrev cBelvedereAbsent : Nat := 0x6004
/-- `SESSION_FORMAT`, kind R. -/
abbrev cSessionFormat : Nat := 0x6010
/-- `PAGE_SEALED`, kind R. -/
abbrev cPageSealed : Nat := 0x6011
/-- `SESSION_PINNED`, kind R. -/
abbrev cSessionPinned : Nat := 0x6012
/-- `PAGE_UNMAPPED`, kind F, R. -/
abbrev cPageUnmapped : Nat := 0x6013
/-- `HOST_EXIT_STATUS`, kind F. -/
abbrev cHostExitStatus : Nat := 0x7001
/-- `HOST_TRAP`, kind F. -/
abbrev cHostTrap : Nat := 0x7002
/-- `HOST_LAUNCH`, kind F. -/
abbrev cHostLaunch : Nat := 0x7003
/-- `HOST_WRITEBACK_LOST`, kind F. -/
abbrev cHostWritebackLost : Nat := 0x7004
/-- `HOST_PORT_BUSY`, kind F. -/
abbrev cHostPortBusy : Nat := 0x7005
/-- `CODEC_OPCODE`, kind F. -/
abbrev cCodecOpcode : Nat := 0x8001
/-- `CODEC_RESERVED`, kind F. -/
abbrev cCodecReserved : Nat := 0x8002
/-- `CODEC_OPERAND`, kind F. -/
abbrev cCodecOperand : Nat := 0x8003
/-- `CODEC_CTX_STATE`, kind F. -/
abbrev cCodecCtxState : Nat := 0x8004
/-- `CODEC_CTX_BUSY`, kind F. -/
abbrev cCodecCtxBusy : Nat := 0x8005
/-- `CODEC_FRAME_ORDER`, kind F. -/
abbrev cCodecFrameOrder : Nat := 0x8006
/-- `CODEC_PROFILE`, kind F. -/
abbrev cCodecProfile : Nat := 0x8007
/-- `CODEC_OUT_FULL`, kind F. -/
abbrev cCodecOutFull : Nat := 0x8008
/-- `CODEC_UNSUPPORTED`, kind F. -/
abbrev cCodecUnsupported : Nat := 0x8009
/-- `CODEC_BITSTREAM`, kind F. -/
abbrev cCodecBitstream : Nat := 0x800A
/-- `CODEC_FETCH`, kind F. -/
abbrev cCodecFetch : Nat := 0x800B
/-- `LINK_LOST`, kind F, R. -/
abbrev cLinkLost : Nat := 0x9001
/-- `LINK_TIMEOUT`, kind F. -/
abbrev cLinkTimeout : Nat := 0x9002
/-- `ROUTE_NONE`, kind R. -/
abbrev cRouteNone : Nat := 0x9003
/-- `ROUTE_TTL`, kind R. -/
abbrev cRouteTtl : Nat := 0x9004
/-- `INPUT_POWER_FAIL`, kind D. -/
abbrev cInputPowerFail : Nat := 0xA001
/-- `INPUT_OVERLOAD`, kind D. -/
abbrev cInputOverload : Nat := 0xA002
/-- `POWER_CAP`, kind D. -/
abbrev cPowerCap : Nat := 0xA003
/-- `DIE_OVERTEMP`, kind F, D. -/
abbrev cDieOvertemp : Nat := 0xA004
/-- `PROGRESS_TIMEOUT`, kind F. -/
abbrev cProgressTimeout : Nat := 0xB001
/-- `AGENT_RESET`, kind F. -/
abbrev cAgentReset : Nat := 0xB002
/-- `WARM_RESET`, kind D. -/
abbrev cWarmReset : Nat := 0xB003
/-- `COLD_RESET`, kind D. -/
abbrev cColdReset : Nat := 0xB004
/-- `OUT_OF_SERVICE`, kind D. -/
abbrev cOutOfService : Nat := 0xB005
/-- `SERVICE_CLEARED`, kind D. -/
abbrev cServiceCleared : Nat := 0xB006
/-- `GATEHOUSE_RESTART`, kind D. -/
abbrev cGatehouseRestart : Nat := 0xB007
/-- `FLASH_TAG_FAIL`, kind D. -/
abbrev cFlashTagFail : Nat := 0xB008
/-- `CHANNEL_IMBALANCE`, kind E. -/
abbrev cChannelImbalance : Nat := 0xF001
/-- `ICE_CORRECTED`, kind E. -/
abbrev cIceCorrected : Nat := 0xF002
/-- `ICE_CHANNEL_FAILED`, kind E. -/
abbrev cIceChannelFailed : Nat := 0xF003
/-- `EXPORT_POISON`, kind E. -/
abbrev cExportPoison : Nat := 0xF004
/-- `LINK_UP`, kind E. -/
abbrev cLinkUp : Nat := 0xF005
/-- `LINK_DOWN`, kind E. -/
abbrev cLinkDown : Nat := 0xF006
/-- `LINK_TRAIN_FAILED`, kind E. -/
abbrev cLinkTrainFailed : Nat := 0xF007
/-- `LINK_DEGRADED`, kind E. -/
abbrev cLinkDegraded : Nat := 0xF008
/-- `INPUT_SAG`, kind E. -/
abbrev cInputSag : Nat := 0xF009
/-- `DIE_HOT`, kind E. -/
abbrev cDieHot : Nat := 0xF00A
/-- `MOW_FORCED`, kind E. -/
abbrev cMowForced : Nat := 0xF00B
/-- `CHANNEL_RETRAIN`, kind E. -/
abbrev cChannelRetrain : Nat := 0xF00C

end Sys2Proof.Machine
end

