-- ==== Sys2Proof/Machine/Sparse.lean ====
section
/-! DEFINITION. Tables with few entries away from their default: lists of (index, value) pairs in rising order of index.
Plain data, so that states can be compared and written out; every table of the device that is too large to list uses them. -/
namespace Sys2Proof.Machine

/-- The value listed at index `k`, if any. -/
def mapFind {α : Type} (k : Nat) : List (Nat × α) → Option α
  | [] => none
  | (j, v) :: m => if j = k then some v else mapFind k m

/-- The table with value `v` listed at index `k`, in rising order of index. -/
def mapPut {α : Type} (k : Nat) (v : α) : List (Nat × α) → List (Nat × α)
  | [] => [(k, v)]
  | (j, w) :: m => if k < j then (k, v) :: (j, w) :: m else if j = k then (k, v) :: m else (j, w) :: mapPut k v m

/-- The table with nothing listed at index `k`. -/
def mapErase {α : Type} (k : Nat) (m : List (Nat × α)) : List (Nat × α) := m.filter fun e => decide (e.1 ≠ k)

/-- Indices strictly rise. -/
def mapRising {α : Type} : List (Nat × α) → Bool
  | [] => true
  | [_] => true
  | (i, _) :: (j, w) :: m => decide (i < j) && mapRising ((j, w) :: m)

/-- The value at index `k`, or the default of that index. -/
def mapGet {α : Type} (dflt : Nat → α) (k : Nat) (m : List (Nat × α)) : α := (mapFind k m).getD (dflt k)

/-- The table with `f` applied to the value at index `k`. -/
def mapMod {α : Type} (dflt : Nat → α) (k : Nat) (f : α → α) (m : List (Nat × α)) : List (Nat × α) :=
  mapPut k (f (mapGet dflt k m)) m

/-- `f` applied to every listed value. -/
def mapAll {α : Type} (f : α → α) (m : List (Nat × α)) : List (Nat × α) := m.map fun e => (e.1, f e.2)

/-- A sorted list of numbers with `n` in it. -/
def setInsert (n : Nat) : List Nat → List Nat
  | [] => [n]
  | x :: l => if n < x then n :: x :: l else if n = x then x :: l else x :: setInsert n l

/-- The numbers 0 to `n` − 1, each mapped by `f`. -/
def tabulate {α : Type} (n : Nat) (f : Nat → α) : List α := (List.range n).map f

end Sys2Proof.Machine
end

