-- ==== Sys2Proof/Machine/State.lean ====
section
/-! DEFINITION. The state of the device: every register, memory, queue and mode the spec gives it, as plain data, in one
structure per part of the device, and the queue of waiting commands. State.reset is the module before power-up (R468). -/
namespace Sys2Proof.Machine

/-- The reasons a step can stop with a fault. The device's own faults are effects on State (R149, R434), so this type has
no constructor that a rule of the spec raises. -/
inductive Fault where
  /-- Raised by no command: the device reports its faults in State. Safe. -/
  | unreachable
  deriving DecidableEq, Repr

/-- The reasons a step can refuse a command. -/
inductive Refusal where
  /-- Raised by an arm of exec whose command has no meaning in the model yet. Safe: it claims nothing. -/
  | notModelled (mnemonic : String)
  deriving DecidableEq, Repr

/-- A machine's outcome of one command. -/
abbrev Result (σ : Type) := Host.Outcome σ Fault Refusal

/-! ## Records -/

/-- What a fault carries besides the agent's own fields (Table 03-19, Table 03-20). `tiles`: the output tiles of the Trellis that
the checks of an issue have fixed by then. -/
structure FaultInfo where
  code : Nat
  desc : Option Nat := none
  field : Nat := 0
  d0 : Nat := 0
  d1 : Nat := 0
  d2 : Nat := 0
  tiles : Nat := 0
  deriving DecidableEq, Repr

/-- A fault record (Table 03-19). -/
structure FaultRec where
  info : FaultInfo
  agent : Nat
  opcode : Nat
  epoch : BitVec 32
  sundial : Word64
  addr : Nat
  lastTile : Nat
  tileCount : Nat
  multi : Bool
  seq : BitVec 32
  deriving DecidableEq, Repr

/-- An error-log record (Table 14-6). `kind` is 1 F, 2 D, 3 E. -/
structure LogRec where
  seq : Word64
  sundial : Word64
  code : Nat
  source : Nat
  epoch : BitVec 32
  boot : Nat
  times : Nat
  kind : Nat
  multi : Bool
  addr : Nat
  lastTile : Nat
  d0 : Nat
  d1 : Nat
  d2 : Nat
  mirrored : Bool
  deriving DecidableEq, Repr

/-- An epoch record entry (Table 01-3). -/
structure EpochEntry where
  start : Word64
  program : Nat
  epoch : BitVec 32
  agent : Nat
  lateFault : Bool
  doneGate : Nat
  doneValid : Bool
  deriving DecidableEq, Repr

/-! ## Agents -/

/-- What an agent's program does (Table 17-4 RUN_STATE). `ending`: the program has ended and its global fence runs
(R35). -/
inductive Prog where
  | idle
  | running
  | ending
  | faulted
  | resetting
  deriving DecidableEq, Repr

/-- The gating of an agent's block (Table 13-4). -/
inductive Gating where
  | running
  | clockGated (since : Word64)
  | waking (since : Word64)
  | powerGated
  deriving DecidableEq, Repr

/-- A wait in force (R41, R44): its gate, target, time of issue, timeout in µs, acquire flag, place in the program and
address. `seen`: the counter as it was at the wait's expiry, where it has changed since (R45). -/
structure GateWait where
  gate : Nat
  target : BitVec 32
  issued : Word64
  timeout : Nat
  acquire : Bool
  place : Nat
  addr : Nat
  seen : Option (BitVec 32) := none
  deriving DecidableEq, Repr

/-- A signal issued and not yet applied (R37, R39, R50). `node`: the module named by a remote signal. `place`: the number
of instructions issued before it, whose effects a release waits for. `issued`: its Sundial time of issue (Table 03-20). `insn`: it is
an array's `GSIG`, an instruction that completes with it (Table 03-18), and no completion signal (R113). -/
structure Signal where
  gate : Nat
  inc : Nat
  release : Bool
  node : Option Nat
  place : Nat
  issued : Word64 := 0
  insn : Bool := false
  deriving DecidableEq, Repr

/-- A fence in force (R53): its scope of Table 01-5, its place in the program and its address. -/
structure FenceRun where
  scope : Nat
  place : Nat
  addr : Nat
  deriving DecidableEq, Repr

/-- One agent (Table 01-1): its slots, program, fault record, gating and the gate operations it has in force. `lastProgress`: the
Sundial time of its last progress event; `watchHeld`: ticks since then in which its watchdog was paused (R419); `heldAt`: when the
power ledger began to hold its next transition. -/
structure Agent where
  running : Option EpochEntry := none
  pending : Option EpochEntry := none
  curEpoch : Option (BitVec 32) := none
  prog : Prog := .idle
  ip : Nat := 0
  fault : Option FaultRec := none
  faultSeq : BitVec 32 := 0
  clearWanted : Bool := false
  gating : Gating := .powerGated
  wakeAt : Option Word64 := none
  heldWake : Bool := false
  awakeUntil : Option Word64 := none
  waits : List GateWait := []
  fences : List FenceRun := []
  signals : List Signal := []
  boundary : List FaultInfo := []
  gateTimeout : Nat := 100000
  progressLimit : Nat := 10000
  lastProgress : Word64 := 0
  watchLimit : Nat := 10000
  watchHeld : Nat := 0
  heldAt : Word64 := 0
  deriving DecidableEq, Repr

/-- The agent's default state: its reset value at power-up. -/
def Agent.initial : Agent := {}

/-- The epoch block (Table 17-3). `busy`: the address of the record in validation. -/
structure Epoch where
  busy : Option Nat := none
  cancels : List Nat := []
  accepted : Bool := false
  busyRefused : Bool := false
  entryIndex : Nat := 0
  faultCode : Nat := 0
  publishCount : BitVec 32 := 0
  cancelAgent : Nat := 0
  cancelResult : Nat := 0
  cancelCount : BitVec 32 := 0
  deriving DecidableEq, Repr

/-- A gate (Table 17-6). -/
structure Gate where
  value : BitVec 32 := 0
  remote : Bool := false
  deriving DecidableEq, Repr

/-! ## Memory -/

/-- A run of blocks in the block table with the same entry (R64): owned, `ro` and `salt` as written at placement. -/
structure Extent where
  first : Nat
  count : Nat
  ro : Bool
  salt : Nat
  object : Nat
  deriving DecidableEq, Repr

/-- One stack (Table 02-6) with what its die keeps to decide the next step (R70, R74, R75). -/
structure Stack where
  temp : Nat := 0
  step : Nat := 0
  overtemp : Bool := false
  stopped : Bool := false
  imbalance : Bool := false
  hotChannel : Nat := 0
  hotBlock : Nat := 0
  ceCount : Nat := 0
  coolReports : Nat := 0
  unbalanced : Nat := 0
  armed : Bool := true
  deriving DecidableEq, Repr

/-- Stack memory, local stores, the Icehouse and the stacks' own registers. `cells` lists written bytes only: a byte not
listed is undefined (R63, R66, R82). `iceWritten`: the stripes that a provision has written and no release has (R82); `charged`: for
each provisioned object's index, the domain and the units charged (R491). -/
structure Mem where
  cells : List Host.Cell := []
  poison : List Nat := []
  extents : List Extent := []
  stackTab : List (Nat × Stack) := []
  retraining : List Nat := []
  retrainFails : List (Nat × Nat) := []
  lostStripes : List Nat := []
  iceFailed : List Nat := []
  iceWritten : List Nat := []
  charged : List (Nat × Nat × Nat) := []
  deriving DecidableEq, Repr

/-! ## Objects and quotas -/

/-- STATE of an object (Table 02-7). -/
inductive ObjState where
  | absent
  | promoting
  | resident
  | evicting
  | retaining
  deriving DecidableEq, Repr

/-- What completes a placement command: the outcome record's address and the signal, if any (Table 02-12). -/
structure Report where
  agent : Nat
  handle : Nat
  status : Nat
  signal : Option (Nat × Nat)
  deriving DecidableEq, Repr

/-- An object-table entry (Table 02-7), with the evictions held on it and the promotions that joined its copy. -/
structure Obj where
  valid : Bool := false
  kind : Bool := false
  damaged : Bool := false
  st : ObjState := .absent
  gen : Nat := 0
  salt : Nat := 0
  owner : Nat := 0
  charge : Nat := 0
  pins : Nat := 0
  size : Nat := 0
  base : Nat := 0
  stripe : Nat := 0
  held : List Report := []
  joined : List Report := []
  deriving DecidableEq, Repr

/-- A quota domain (Table 02-8). -/
structure Quota where
  stackLimit : Nat := 0
  stackUsed : Nat := 0
  iceLimit : Nat := 0
  iceUsed : Nat := 0
  deriving DecidableEq, Repr

/-- The object table, the window status and the quotas. -/
structure Objects where
  objs : List (Nat × Obj) := []
  rejected : Bool := false
  lastIndex : Nat := 0
  quotas : List (Nat × Quota) := []
  deriving DecidableEq, Repr

/-! ## Arrays -/

/-- A descriptor-table entry: 64 bytes as a number, and the mark of R95 or R96: the fault its users take, and the handle of the
object that it is about. -/
structure DescEntry where
  word : Nat := 0
  mark : Option (Nat × Nat) := none
  deriving DecidableEq, Repr

/-- A scale as an instruction captured it (R125): the descriptor and the device addresses of its vectors. -/
structure ScaleUse where
  word : Nat
  rowAddr : Nat
  chAddr : Nat
  deriving DecidableEq, Repr

/-- An operand as an instruction captured it at issue (R124): its slot's place in the word, the entry, the descriptor,
the run-time extents, the device address of OFFSET, and its scale. `base` − `addr` gives the address in the object. -/
structure Operand where
  slot : Nat
  index : Nat
  word : Nat
  ext : List Nat
  base : Nat
  scale : Option ScaleUse
  deriving DecidableEq, Repr

/-- A session record as an instruction captured it at issue (R262). -/
structure Session where
  valid : Bool := false
  gen : Nat := 0
  pins : Nat := 0
  pmBase : Nat := 0
  pagesPerLayer : Nat := 0
  layers : Nat := 0
  sink : Nat := 0
  window : Nat := 0
  len : Nat := 0
  sealLen : Nat := 0
  cache : Nat := 0
  belv : Nat := 0
  belvOff : Nat := 0
  latent : Nat := 0
  rope : Nat := 0
  fmt : Nat := 0
  slotBytes : Nat := 0
  pageBytes : Nat := 0
  deriving DecidableEq, Repr

/-- What an instruction keeps of an output row whose tiles are not all stored: its status word (R230), the values that
enter its statistics, and the values of its own-row record, of the real and of the imaginary part (R248). -/
structure RowAcc where
  flags : Nat := 0
  vals : List Nat := []
  own : List Nat := []
  ownIm : List Nat := []
  deriving DecidableEq, Repr

/-- One accumulator set of the accumulator memory: FP32 value, compensation, integer value and status bits (R176, R184). -/
structure Acc where
  v : Nat := 0
  lo : Nat := 0
  i : Int := 0
  flags : Nat := 0
  deriving DecidableEq, Repr

/-- A finished output tile in the store buffer (R184): the place of its instruction, its index, and the values to be stored as
bit address, width and pattern. -/
structure TileBuf where
  place : Nat
  tile : Nat
  stores : List (Nat × Nat × Nat)
  deriving DecidableEq, Repr

/-- What a bank of the cells' weight registers holds (R185, R186): the place of the instruction whose tile it is, the part of B
(Tables 05-9, 05-10) or the layer, the tile's reduction base and column base, and the elements by cell row and column; a cell not
listed holds +0. At reset the registers hold +0 (log 146). -/
structure WeightTile where
  place : Nat := 0
  part : Nat := 0
  k0 : Nat := 0
  n0 : Nat := 0
  cells : List (List Nat) := []
  deriving DecidableEq, Repr

/-- An instruction an array has issued and not completed (R124, R142): its number in the program, address and 32 bytes,
what it captured, and how far its Trellis has run. `chains`: its operation chains by the place of their slot. `layers`: the
layer list of a CONVF. `engine`: the engine of a CONV, 1 the cells and 2 the vector engine (R295). `session`: the session it
pins. `rows`: what it keeps of each output row not yet whole. `drawn`: output positions whose draws it has made, of a CONVF its
output tiles (R315). `half0`: the window half of its step 0 (R198). `lanes0`: the lanes as a CONVF found them at its first
draw, from which each of its tiles takes its words (R315). `issued`: its Sundial time of issue (Table 03-20). -/
structure Flight where
  place : Nat
  addr : Nat
  word : Nat
  noop : Bool
  ops : List Operand
  chains : List (Nat × Nat)
  layers : List Nat
  engine : Nat
  winBase : Nat
  winSize : Nat
  sr : Nat
  session : Option (Nat × Session)
  copyDone : Nat
  computeDone : Nat
  storeDone : Nat
  tile : Nat
  loaded : Bool
  posted : Bool
  rows : List (Nat × RowAcc)
  drawn : Nat
  half0 : Nat := 0
  lanes0 : List (Nat × Word64) := []
  issued : Word64 := 0
  deriving DecidableEq, Repr

/-- A pin a replaced entry still holds until its readers have ended (R123). -/
structure OldPin where
  object : Nat
  readers : List Nat
  deriving DecidableEq, Repr

/-- One array: its descriptor table, instructions in flight, tables, lanes and registers. A bank not listed at an index holds its
reset content there (Table 06-12). `paused`, `pausedAt`: the power ledger holds its compute rows, since when; `pausing`: it holds
them from the next compute-row boundary on (R410, R419). `bridge`: the descriptor-table entries written since the last compute
instruction issued, while only instructions that R143 lets lie between two compute instructions have issued after it. `window`:
first unit and length of the Trellis window while a program's sequencer has it (R197). `accs`: the accumulator memory, by column
and row of the output tile in progress; `buffer`: the store buffer; `active`, `shadow`: the weight tiles of the cells' registers
(R184 to R186, R191). -/
structure ArrayState where
  descs : List (Nat × DescEntry) := []
  oldPins : List OldPin := []
  flights : List Flight := []
  place : Nat := 0
  banks : List (Nat × List Nat) := []
  lanes : List (Nat × Word64) := []
  lkLive : Bool := false
  lkPoly : Nat := 0
  keyBase : Word64 := 0x9E3779B97F4A7C15#64
  keyPoly : Nat := 0
  tileH : Nat := 256
  tileW : Nat := 256
  tkSet : Bool := false
  unseeded : Bool := false
  zeroReplaced : Bool := false
  sr : Nat := 12
  winBase : Nat := 0
  winSize : Nat := 0x78
  flags : Nat := 0
  flaggedRows : Nat := 0
  paused : Bool := false
  pausing : Bool := false
  pausedAt : Word64 := 0
  bridge : Option (List Nat) := none
  window : Option (Nat × Nat) := none
  accs : List (Nat × Nat × List Acc) := []
  buffer : List TileBuf := []
  active : WeightTile := {}
  shadow : WeightTile := {}
  deriving DecidableEq, Repr

/-! ## Sessions -/

/-- A page-map entry (Table 07-2). -/
structure PageEntry where
  frame : Nat := 0
  valid : Bool := false
  deriving DecidableEq, Repr

/-- A host transaction that waits at its host port: a write to the full session command port, or one that came after it (R258,
R480). -/
structure HeldTxn where
  port : Nat
  hdr : Hdr
  data : List Byte
  deriving DecidableEq, Repr

/-- Session records, the page map and the command port with its 64-byte commands. `waiting`: host transactions that wait for it. -/
structure Sessions where
  recs : List (Nat × Session) := []
  pages : List (Nat × PageEntry) := []
  port : List Nat := []
  waiting : List HeldTxn := []
  deriving DecidableEq, Repr

/-! ## Movers -/

/-- The command a mover has in execution (R98). -/
inductive MoverCmd where
  | copy (addr : Nat) (word : Nat) (src dst : Nat) (pins : List Nat)
  | promote (addr : Nat) (report : Report) (object : Nat)
  | zero (addr : Nat) (report : Report) (object : Nat)
  | xserve (addr : Nat) (left : Nat) (since : Word64) (timeout : Nat)
  deriving DecidableEq, Repr

/-- An export job posted to a mover (R282), with the frames transmitted; `port`: the port of the one route its frames take
(R397); `under`: a frame of it is in transmission. -/
structure ExportJob where
  array : Nat
  place : Nat
  session : Nat
  snap : Session
  layer : Nat
  first : Nat
  count : Nat
  node : Nat
  stream : Nat
  last : Bool
  sent : Nat
  port : Option Nat
  under : Bool
  deriving DecidableEq, Repr

/-- One mover. `since`: the Sundial time at which its command started (Table 03-20). -/
structure Mover where
  cmd : Option MoverCmd := none
  since : Word64 := 0
  jobs : List ExportJob := []
  deriving DecidableEq, Repr

/-! ## Host-class cores -/

/-- A cache line of a core or of the L3 (R331, R336): `owner` is the core that last wrote it, `owned` whether its block was
owned when the line was taken for writing (R335), `wiped` the bytes of a poisoned line that stores have overwritten (R336). -/
structure Line where
  data : List Byte := []
  dirty : Bool := false
  poisoned : Bool := false
  owner : Nat := 0
  owned : Bool := false
  wiped : Word64 := 0
  deriving DecidableEq, Repr

/-- A write of a core that has not performed: a session command of 64 bytes (R334), or a store to its own port behind one (R339). -/
inductive CoreStore where
  | session (v : Nat)
  | port (off v : Nat)
  deriving DecidableEq, Repr

/-- One host-class core (R330, R332, R340) and its port (Table 10-3): the registers of RV64GCV, the floating-point and vector control
and status registers, the registers of S-mode, whether it runs in U-mode; `lines`: its L2; `l1i` and `l1d`: the lines that its L1
caches hold, latest first (Table 10-1); `place`: the number of its stores to the session command port and to its own port so far;
`stores`: those that have not performed, with their places (R334, R339). -/
structure HostCore where
  pc : Word64 := 0
  x : List (Nat × Word64) := []
  f : List (Nat × Word64) := []
  v : List (Nat × BitVec 512) := []
  fcsr : Word64 := 0
  vl : Word64 := 0
  vtype : Word64 := 0x8000000000000000#64
  vstart : Word64 := 0
  vcsr : Word64 := 0
  user : Bool := false
  satp : Word64 := 0
  stvec : Word64 := 0
  sstatus : Word64 := 0
  sie : Word64 := 0
  scounteren : Word64 := 0
  senvcfg : Word64 := 0
  sscratch : Word64 := 0
  sepc : Word64 := 0
  scause : Word64 := 0
  stval : Word64 := 0
  lines : List (Nat × Line) := []
  l1i : List Nat := []
  l1d : List Nat := []
  place : Nat := 0
  stores : List (Nat × CoreStore) := []
  reservation : Option Nat := none
  waitGate : Nat := 0
  waitTimeout : Nat := 0
  waitState : Nat := 0
  fenceDone : Nat := 0
  interrupt : Bool := false
  clearing : Bool := false
  deriving DecidableEq, Repr

/-- The cluster: its cores, the shared L3 and whether its reset is in progress. -/
structure Cluster where
  cores : List (Nat × HostCore) := []
  l3 : List (Nat × Line) := []
  deriving DecidableEq, Repr

/-! ## Codec -/

/-- STATE of a stream context (Table 11-2). -/
inductive CtxState where
  | free
  | open_
  | active
  deriving DecidableEq, Repr

/-- A source frame held for a mini-GOP (R363): its command, its regions of interest and the object it pins. -/
structure HeldFrame where
  cmd : Nat
  regions : List Nat
  object : Nat
  mark : Option Nat
  deriving DecidableEq, Repr

/-- A stream context (Table 11-2) with what R349 lets it carry: its `OPEN` (the index of the pool's object, then the
command), the records of its frame commands, its rate control (R366), the frames since the last key frame, held sources
(R363), and the pictures decoded, in decode order, with the numbers due and shown (R364). -/
structure Ctx where
  st : CtxState := .free
  decode : Bool := false
  hevc : Bool := false
  needRap : Bool := false
  leanBound : Bool := false
  core : Nat := 0
  nextFrame : BitVec 32 := 0
  opened : List Nat := []
  poolMark : Option Nat := none
  history : List (List Nat) := []
  held : List HeldFrame := []
  started : Bool := false
  k : Nat := 0
  full : Nat := 0
  bitsPrev : Nat := 0
  prevIntra : Bool := false
  q : Nat := 0
  sinceKey : Nat := 0
  pictures : List Config.Picture := []
  due : Nat := 0
  shown : Nat := 0
  deriving DecidableEq, Repr

/-- A codec core: the frame command in execution with its context, pins, the pinned objects marked since it started with the code
(R95, R96) and its regions of interest, whether its completion binds the context to the core (R350), when it began to wait for its
context with the timeout then in force, and its last context (R347, R348). -/
structure CodecCore where
  cmd : Option (Nat × Nat) := none
  pins : List Nat := []
  marks : List (Nat × Nat) := []
  regions : List Nat := []
  binds : Bool := false
  waitSince : Option (Word64 × Nat) := none
  lastCtx : Option Nat := none
  deriving DecidableEq, Repr

/-- The six codec cores and 64 contexts. -/
structure Codec where
  cores : List (Nat × CodecCore) := []
  ctxs : List (Nat × Ctx) := []
  deriving DecidableEq, Repr

/-! ## Link and Sundial -/

/-- STATE of a port (Table 12-8). -/
inductive PortState where
  | down
  | training
  | up
  | partnerOos
  deriving DecidableEq, Repr

/-- A transaction given to a port to send, with the bytes it carries and their places in its data. `flow` is its stream
(R369): the agent that sent it, 0x100 for a message or answer of the module, 0x200 + p for transit from port p, 0x300 + m for a
frame of mover m. -/
structure Txn where
  hdr : Hdr
  data : List (Nat × Byte)
  flow : Nat := 0x100
  deriving DecidableEq, Repr

/-- A train sent and not yet acknowledged, as its bytes: the control flit, then the data flits (R372, R373). -/
structure SentTrain where
  seq : Nat
  bytes : List Byte
  deriving DecidableEq, Repr

/-- The latest advertisement received on a port (R388, R391). -/
structure Advert where
  serial : Nat
  distance : Nat
  locked : Bool
  pps : Bool
  age : Nat
  deriving DecidableEq, Repr

/-- One port: its registers (Table 12-8), training, link layer and Sundial exchange. `limit`: `MAX_GEN` as the training in
progress took it (R371); `offset` is the partner's offset in units of 1/32 tick (R389); `turn`: class 2 goes before class 0 in the
next train (R375); `pWindow`: the partner was in a window as last learned (R414); `lastFlow`: for each class, the stream whose
data its last train carried (R369); `resend`: the trains that a NAK asks for again; `sent`: the bytes of the train sent last
(R373); `starved`: when class 2 began to wait for credit, and the link timeout then in force (R397, R418); `ingress`: for directed
requests forwarded on the port, what tells each from the others, and the port by which it came (R380). -/
structure Port where
  maxGen : Nat := 3
  asymTrim : Nat := 0
  st : PortState := .down
  gen : Nat := 0
  los : Bool := false
  degraded : Bool := false
  pathDelay : Nat := 0
  corrected : Nat := 0
  replays : Nat := 0
  discards : Nat := 0
  pSerial : Nat := 0
  pNode : Nat := 0
  pNodeValid : Bool := false
  pOos : Bool := false
  pPort : Nat := 0
  pGen : Nat := 0
  limit : Nat := 0
  tryGen : Nat := 0
  fails : Nat := 0
  downSince : Word64 := 0
  upSince : Word64 := 0
  met : Bool := false
  txSeq : Nat := 0
  rxSeq : Nat := 0
  nak : Bool := false
  unacked : List SentTrain := []
  resend : List SentTrain := []
  sent : List Byte := []
  credits : List Nat := [0, 0, 0, 0]
  freed : List Nat := [0, 0, 0, 0]
  windowStart : Word64 := 0
  windowTrains : Nat := 0
  windowReplays : Nat := 0
  out : List Txn := []
  ingress : List (List Nat × Nat) := []
  adv : Option Advert := none
  offset : Option Int := none
  t1 : Option Nat := none
  equalising : Bool := false
  pWindow : Bool := false
  turn : Bool := false
  lastFlow : List Nat := [0, 0, 0, 0]
  starved : Option (Word64 × Nat) := none
  deriving DecidableEq, Repr

/-- A routing-table entry (Table 12-6). -/
structure Route where
  port : Nat := 0
  valid : Bool := false
  altPort : Nat := 0
  altValid : Bool := false
  deriving DecidableEq, Repr

/-- A transaction of this module that awaits its response (R377). `kind` is its type of Table 12-5; `gate` and `issued`
serve R48. -/
structure Pending where
  agent : Nat
  kind : Nat
  port : Nat
  node : Nat
  gate : Nat
  inc : Nat
  handle : Nat
  off : Nat
  len : Nat
  issued : Word64
  sentAt : Word64
  limit : Nat
  place : Nat
  deriving DecidableEq, Repr

/-- Ports, node ID, routing table and transactions in flight by tag. `waiting`: transactions that wait for a free tag or for
a routing change (R377, R381). `holds`: for a node whose entry changed, the tags that left under the old entry. `stale`: the
tags whose transaction ended without a response, oldest first (R377). -/
structure Link where
  ports : List (Nat × Port) := []
  nodeId : Nat := 0
  nodeValid : Bool := false
  nodeRejected : Bool := false
  routes : List (Nat × Route) := []
  pending : List (Nat × Pending) := []
  waiting : List (Pending × Txn) := []
  holds : List (Nat × List Nat) := []
  stale : List Nat := []
  deriving DecidableEq, Repr

/-- STATE of the Sundial (Table 12-9). -/
inductive SunState where
  | free
  | acquiring
  | locked
  deriving DecidableEq, Repr

/-- The Sundial's registers (Table 12-9) and what its election and steering keep (R388 to R395): the elected master's serial
when it is not this module's own, the periods without a change of it with whether it changed in this one, the consecutive good
exchanges, and the slew: its correction in ticks a second, the oscillator ticks for which it still holds (none: until it changes), and
the part of a tick that it has gathered. `stepTicks`: the ticks by which steps have moved the counter (R392). -/
structure Sundial where
  st : SunState := .free
  depth : Nat := 0
  parent : Nat := 0
  best : Option Nat := none
  ppsValid : Bool := false
  stepped : Bool := false
  lockLost : Bool := false
  settle : Nat := 16
  ppsEn : Bool := false
  stable : Nat := 0
  changed : Bool := false
  good : Nat := 0
  slew : Int := 0
  slewLeft : Option Nat := none
  slewPart : Int := 0
  stepTicks : Int := 0
  lastPps : Option Word64 := none
  ppsGood : Nat := 0
  deriving DecidableEq, Repr

/-! ## Power, recovery, Gatehouse, pins -/

/-- The power block (Table 13-7), the ledger (R410), die temperatures (R412) and mowing windows (R413 to R415). `envelope` is in
units of 0.1 mW; `added`: what transitions admitted since its sample have added; `history` lists the moments at which it changed
in the last 100 ms, latest first; `calibrating`: the channels in recalibration. `sagSince`: since when the input lies in its
present band outside 40 V to 60 V; `sagRaised`: `INPUT_SAG` was raised in this excursion (R399). -/
structure Power where
  lean : Bool := false
  leanActive : Bool := false
  profileRejected : Bool := false
  idleHold : Nat := 20
  envelope : Nat := 0
  peak : Nat := 0
  added : Nat := 0
  inputW : Nat := 0
  capHold : Bool := false
  powerCap : Bool := false
  sagFlag : Bool := false
  inputMv : Nat := 0
  mowEn : Bool := true
  mowRejected : Bool := false
  mowLength : Nat := 20
  mowPeriod : Nat := 10000
  mowPhase : Word64 := 0
  inWindow : Bool := false
  forced : Bool := false
  lateness : Word64 := 0
  windowEnd : Word64 := 0
  lastWindow : Option Word64 := none
  calibrating : List Nat := []
  temps : List (Nat × Nat) := []
  trip : List Nat := []
  tripped : List Nat := []
  hot : List Nat := []
  overSince : Option Word64 := none
  history : List (Nat × Nat) := []
  holdSince : Option Word64 := none
  holdTime : Nat := 0
  holdArrays : Nat := 0
  capLogged : Bool := false
  overload : Option Word64 := none
  sagSince : Option Word64 := none
  sagRaised : Bool := false
  deriving DecidableEq, Repr

/-- A reset in progress: its domain of Table 14-3 and its target. -/
structure ResetRun where
  domain : Nat
  target : Nat
  deriving DecidableEq, Repr

/-- Recovery registers (Table 14-9), log, dump and escalation. -/
structure Recovery where
  linkTimeout : Nat := 500
  limit : Nat := 3
  windowS : Nat := 600
  oos : Bool := false
  cycled : Bool := false
  events : List Nat := []
  service : Nat := 0
  log : List LogRec := []
  nextSeq : Word64 := 0
  dumpValid : Bool := false
  dumpLs : Bool := false
  skipped : Nat := 0
  dumpKib : Nat := 0
  dump : List (Nat × Byte) := []
  dumping : Option (Nat × Bool) := none
  resets : List ResetRun := []
  expired : List (Nat × Word64) := []
  deriving DecidableEq, Repr

/-- A firmware slot (R445 to R447): the bytes staged, whether R446 was found to hold of its image, and that image's `SVN`.
`place`: which slot of the partition it is; `factory`: the type of the image that it left manufacture with, 0 for none. -/
structure FwSlot where
  bytes : List (Nat × Byte) := []
  valid : Bool := false
  svn : Nat := 0
  place : Nat := 0
  factory : Nat := 0
  deriving DecidableEq, Repr

/-- A copy of an anti-rollback counter (R454): its value and its sequence number. -/
structure CounterCopy where
  value : Nat := 1
  seq : Nat := 0
  deriving DecidableEq, Repr

/-- One image type in the partition (R447, R454): its slots, the active one, the slot in trial and whether it has booted, and the two
copies of its anti-rollback counter, none for one whose tag has failed. A module leaves manufacture with an image in slot A (log 9). -/
structure FwType where
  a : FwSlot := {}
  b : FwSlot := {}
  activeB : Bool := false
  trialB : Option Bool := none
  trialBooted : Bool := false
  first : Option CounterCopy := some { seq := 1 }
  second : Option CounterCopy := some {}
  deriving DecidableEq, Repr

/-- What a type booted at this power-up (R449, R453, R456): its slot, whether in trial, and the digest recorded. -/
structure Booted where
  slotB : Bool
  trial : Bool
  digest : List Byte
  deriving DecidableEq, Repr

/-- A mailbox command taken and not finished (R489). -/
structure MboxCmd where
  code : Nat
  tag : Nat
  args : Nat
  deriving DecidableEq, Repr

/-- The Gatehouse (Table 15-6, Table 17-7). `booted`: what each image type booted at this power-up. -/
structure Gatehouse where
  stage : Nat := 0
  halted : Bool := false
  reason : Nat := 0
  fellBack : Nat := 0
  identity : Bool := false
  debugOpen : Bool := false
  ready : Bool := false
  restarting : Bool := false
  boots : Nat := 0
  warms : Nat := 0
  cmd : Option MboxCmd := none
  rejected : Bool := false
  status : Nat := 0
  tag : Nat := 0
  resultBytes : Nat := 0
  request : List (Nat × Byte) := []
  response : List (Nat × Byte) := []
  mr : List (Nat × List Byte) := []
  fw : List (Nat × FwType) := []
  booted : List (Nat × Booted) := []
  deriving DecidableEq, Repr

/-- Where the module is in its power-up (R468 to R472). -/
inductive PowerPhase where
  | off
  | slotDelay
  | softStart
  | on
  | failed
  deriving DecidableEq, Repr

/-- The rails of Table 13-2; those that each die or stack has of its own are one. -/
inductive Rail where
  | vin
  | vaon
  | vflash
  | vstkp
  | vstkc
  | vstkq
  | vmem
  | vnand
  | vnandq
  | vio
  | vls
  | vcore
  | vsera
  | vserh
  deriving DecidableEq, Repr

/-- The states of the test access port's controller (IEEE 1149.1, R465). -/
inductive TapState where
  | testLogicReset
  | runTestIdle
  | selectDr
  | captureDr
  | shiftDr
  | exit1Dr
  | pauseDr
  | exit2Dr
  | updateDr
  | selectIr
  | captureIr
  | shiftIr
  | exit1Ir
  | pauseIr
  | exit2Ir
  | updateIr
  deriving DecidableEq, Repr

/-- Pins, the input stage, SMBus and JTAG (16 R461 to R472). `resetLow`: `RESET_N` is low; `mated`: `MATE_N` is low. `pendingCause`:
the cause a cold reset logs at the next power-up (R439). `smbReply`: the bytes of the last SMBus read's answer, its PEC last; none:
not acknowledged. `rails`: the rails in regulation, in the order in which they rose; `tap`: the test access port. -/
structure Pins where
  phase : PowerPhase := .off
  slotCode : Nat := 0
  resetLow : Bool := false
  mated : Bool := false
  pgood : Bool := false
  pendingCause : Nat := 0
  smbReply : Option (List Byte) := none
  rails : List Rail := []
  tap : TapState := .testLogicReset
  deriving DecidableEq, Repr

/-- The state of the device and the queue of waiting commands. -/
structure State where
  pending : List Instr := []
  free : Nat := 0
  sundial : Word64 := 0
  agents : List (Nat × Agent) := []
  epoch : Epoch := {}
  gates : List (Nat × Gate) := []
  mem : Mem := {}
  objects : Objects := {}
  arrays : List (Nat × ArrayState) := []
  sessions : Sessions := {}
  movers : List (Nat × Mover) := []
  cluster : Cluster := {}
  codec : Codec := {}
  link : Link := {}
  sun : Sundial := {}
  power : Power := {}
  recovery : Recovery := {}
  gatehouse : Gatehouse := {}
  pins : Pins := {}
  deriving DecidableEq, Repr

/-- The module before instant A (R468): off, nothing in its queue, every register at the reset value of its table, memory
with nothing listed. -/
def State.reset : State := {}

end Sys2Proof.Machine
end

