-- ==== Sys2Proof/Machine/Ops.lean ====
section
/-! DEFINITION. Named operations over the state that every part of the device uses: access to the tables, time, the error
log, gates and waits, and the order and release conditions of signals. -/
namespace Sys2Proof

/-- The write covers the low half of the register. -/
def RegVal.hasLow (w : RegVal) : Bool := decide (w.half ≠ .high)
/-- The write covers the high half of the register. -/
def RegVal.hasHigh (w : RegVal) : Bool := decide (w.half ≠ .low)
/-- Field of the written value. -/
def RegVal.fld (w : RegVal) (lo n : Nat) : Nat := bits w.value.toNat lo n

end Sys2Proof

namespace Sys2Proof.Machine

/-! ## Numbers and places -/

/-- Agents 0 to 191 are array sequencers (Table 01-1). -/
def isArray (i : Nat) : Bool := decide (i < 192)
/-- Agents 192 to 207 are host-class cores. -/
def isCore (i : Nat) : Bool := decide (192 ≤ i) && decide (i < 208)
/-- Agents 208 to 223 are movers. -/
def isMover (i : Nat) : Bool := decide (208 ≤ i) && decide (i < 224)
/-- Agents 224 to 229 are codec cores. -/
def isCodec (i : Nat) : Bool := decide (224 ≤ i) && decide (i < 230)

/-- The wake latency of an agent's block in ticks (Table 13-4). -/
def wakeLatency (i : Nat) : Nat := if isMover i then 4000 else 8000

/-- Ticks in one microsecond (R31: 0.25 ns each). -/
def usTicks (us : Nat) : Nat := us * 4000

/-! ## Tables -/

/-- The reset state of array `a` (R317, R328): only `LK_POLY` depends on the array. -/
def arrayInitial (a : Nat) : ArrayState := { lkPoly := a % 16 }

/-- The reset state of port `p` (Table 12-8): host ports have no GL3. -/
def portInitial (p : Nat) : Port := { maxGen := if p < 12 then 3 else 2 }

def State.agent (s : State) (i : Nat) : Agent := mapGet (fun _ => Agent.initial) i s.agents
def State.modAgent (s : State) (i : Nat) (f : Agent → Agent) : State :=
  { s with agents := mapMod (fun _ => Agent.initial) i f s.agents }
def State.gate (s : State) (g : Nat) : Gate := mapGet (fun _ => {}) g s.gates
def State.modGate (s : State) (g : Nat) (f : Gate → Gate) : State :=
  { s with gates := mapMod (fun _ => {}) g f s.gates }
def State.array (s : State) (a : Nat) : ArrayState := mapGet arrayInitial a s.arrays
def State.modArray (s : State) (a : Nat) (f : ArrayState → ArrayState) : State :=
  { s with arrays := mapMod arrayInitial a f s.arrays }
def State.mover (s : State) (m : Nat) : Mover := mapGet (fun _ => {}) m s.movers
def State.modMover (s : State) (m : Nat) (f : Mover → Mover) : State :=
  { s with movers := mapMod (fun _ => {}) m f s.movers }
def State.stack (s : State) (k : Nat) : Stack := mapGet (fun _ => {}) k s.mem.stackTab
def State.modStack (s : State) (k : Nat) (f : Stack → Stack) : State :=
  { s with mem := { s.mem with stackTab := mapMod (fun _ => {}) k f s.mem.stackTab } }
def State.obj (s : State) (i : Nat) : Obj := mapGet (fun _ => {}) i s.objects.objs
def State.modObj (s : State) (i : Nat) (f : Obj → Obj) : State :=
  { s with objects := { s.objects with objs := mapMod (fun _ => {}) i f s.objects.objs } }
def State.quota (s : State) (d : Nat) : Quota := mapGet (fun _ => {}) d s.objects.quotas
def State.modQuota (s : State) (d : Nat) (f : Quota → Quota) : State :=
  { s with objects := { s.objects with quotas := mapMod (fun _ => {}) d f s.objects.quotas } }
def State.session (s : State) (i : Nat) : Session := mapGet (fun _ => {}) i s.sessions.recs
def State.modSession (s : State) (i : Nat) (f : Session → Session) : State :=
  { s with sessions := { s.sessions with recs := mapMod (fun _ => {}) i f s.sessions.recs } }
def State.page (s : State) (e : Nat) : PageEntry := mapGet (fun _ => {}) e s.sessions.pages
def State.core (s : State) (i : Nat) : HostCore := mapGet (fun _ => {}) i s.cluster.cores
def State.modCore (s : State) (i : Nat) (f : HostCore → HostCore) : State :=
  { s with cluster := { s.cluster with cores := mapMod (fun _ => {}) i f s.cluster.cores } }
def State.codecCore (s : State) (c : Nat) : CodecCore := mapGet (fun _ => {}) c s.codec.cores
def State.modCodecCore (s : State) (c : Nat) (f : CodecCore → CodecCore) : State :=
  { s with codec := { s.codec with cores := mapMod (fun _ => {}) c f s.codec.cores } }
def State.ctx (s : State) (c : Nat) : Ctx := mapGet (fun _ => {}) c s.codec.ctxs
def State.modCtx (s : State) (c : Nat) (f : Ctx → Ctx) : State :=
  { s with codec := { s.codec with ctxs := mapMod (fun _ => {}) c f s.codec.ctxs } }
def State.port (s : State) (p : Nat) : Port := mapGet portInitial p s.link.ports
def State.modPort (s : State) (p : Nat) (f : Port → Port) : State :=
  { s with link := { s.link with ports := mapMod portInitial p f s.link.ports } }
def State.route (s : State) (n : Nat) : Route := mapGet (fun _ => {}) n s.link.routes
/-- An image type as the module left manufacture: an image in slot A (log 9). -/
def fwFactory (t : Nat) : FwType := { a := { valid := true, svn := 1, place := 2 * t, factory := t }, b := { place := 2 * t + 1 } }

def State.fwType (s : State) (t : Nat) : FwType := mapGet fwFactory t s.gatehouse.fw
def State.modFw (s : State) (t : Nat) (f : FwType → FwType) : State :=
  { s with gatehouse := { s.gatehouse with fw := mapMod fwFactory t f s.gatehouse.fw } }

/-- The next free value is a fresh one (log 4). -/
def State.fresh (s : State) : State := { s with free := s.free + 1 }

/-! ## Time -/

/-- The Gatehouse and its registers answer: the always-on domain is up (16 R468). -/
def State.alwaysOn (s : State) : Bool := decide (s.pins.phase = .on)

/-- A slew that holds for some ticks more has used `n` of them (R392). -/
def Sundial.passed (u : Sundial) (n : Nat) : Sundial :=
  match u.slewLeft with
  | some k => if k ≤ n then { u with slew := 0, slewLeft := none } else { u with slewLeft := some (k - n) }
  | none => u

/-- The Sundial reads `now`: the slew in force has acted in the time between (log 3). -/
def State.atTime (s : State) (now : Word64) : State :=
  { s with sundial := now, sun := s.sun.passed (now.toNat - s.sundial.toNat) }

/-- An event of the device's time comes when the Sundial reads `now`: the state at that reading, or none when the Sundial
has already passed it (log 3). -/
def State.at? (s : State) (now : Word64) : Option State :=
  if s.sundial.toNat ≤ now.toNat then some (s.atTime now) else none

/-- Ticks of a period of 50 µs, and of one second: the parts of a tick in which a slew is gathered (R392, R395). -/
def slewPeriod : Nat := 200000
def secondTicks : Nat := 4000000000

/-- The Sundial counts one tick of the module's oscillator, with the slew in force (R392, R395, Table 13-3). -/
def State.tick (s : State) : State :=
  if s.alwaysOn then
    let part := s.sun.slewPart + secondTicks + s.sun.slew
    { s with sundial := s.sundial + BitVec.ofInt 64 (part.fdiv secondTicks),
             sun := { s.sun.passed 1 with slewPart := part.fmod secondTicks } }
  else s

/-- Ticks from `t` to the Sundial's reading. -/
def State.since (s : State) (t : Word64) : Nat := s.sundial.toNat - t.toNat

/-! ## Service -/

/-- The fast domains run: boot is complete and the module is in service (R432, R448, R450). -/
def State.inService (s : State) : Bool :=
  s.alwaysOn && s.gatehouse.ready && !s.gatehouse.halted && !s.recovery.oos

/-- A device-wide reset holds the fast domains (R428, R436). -/
def State.warmResetting (s : State) : Bool :=
  s.recovery.dumping.isSome || s.recovery.resets.any fun r => decide (r.domain = 7)

/-- Agents run (R432, R436). -/
def State.agentsRun (s : State) : Bool := s.inService && !s.warmResetting

/-- Some agent has a running or pending epoch entry (R378, R407, R413, R491). -/
def State.anyEntry (s : State) : Bool := s.agents.any fun e => e.2.running.isSome || e.2.pending.isSome

/-! ## Error log (R434) -/

/-- The log source of an agent, and of the other sources of Table 14-7. -/
def srcAgent (i : Nat) : Nat := i
def srcChannel (c : Nat) : Nat := 0x1000 + c
def srcStack (k : Nat) : Nat := 0x2000 + k
def srcMemDie (d : Nat) : Nat := 0x3000 + d
def srcDie (d : Nat) : Nat := 0x4000 + d
def srcPort (p : Nat) : Nat := 0x5000 + p
def srcIceChannel (c : Nat) : Nat := 0x6000 + c
def srcDevice : Nat := 0x7000
def srcPower : Nat := 0x8000
def srcSessionPort : Nat := 0x9000
def srcIceGroup (q : Nat) : Nat := 0xA000 + q

/-- The epoch of a log source's running program, 0 when none (Table 14-6). -/
def State.sourceEpoch (s : State) (source : Nat) : BitVec 32 :=
  if source < 230 then match (s.agent source).running with
    | some e => e.epoch
    | none => 0
  else 0

/-- A new record at the head of the log; the ring keeps the latest 4,096 (R434). -/
def State.logRecord (s : State) (code source kind : Nat) (multi : Bool) (addr lastTile d0 d1 d2 : Nat) : State :=
  let r : LogRec :=
    { seq := s.recovery.nextSeq, sundial := s.sundial, code := code, source := source, epoch := s.sourceEpoch source,
      boot := s.gatehouse.boots, times := 1, kind := kind, multi := multi, addr := addr, lastTile := lastTile,
      d0 := d0, d1 := d1, d2 := d2, mirrored := false }
  { s with recovery := { s.recovery with
      log := (r :: s.recovery.log).take 4096, nextSeq := s.recovery.nextSeq + 1 } }

/-- A device fault, kind D (R439). -/
def State.logDevice (s : State) (code source d0 d1 d2 : Nat) : State :=
  s.logRecord code source 2 false 0 0xFFFFFFFF d0 d1 d2

/-- The first record of the log with this code and source takes the repetition, if it was begun less than 1 s ago, which is since the
last power-up: the counter starts again there. -/
def coalesce (now boot code source : Nat) : List LogRec → Option (List LogRec)
  | [] => none
  | r :: l =>
    if r.code = code ∧ r.source = source ∧ r.kind = 3 then
      if now < r.sundial.toNat + secondTicks ∧ r.boot = boot then some ({ r with times := min 65535 (r.times + 1) } :: l) else none
    else match coalesce now boot code source l with
      | some l' => some (r :: l')
      | none => none

/-- An advisory event, kind E: it coalesces with a record of the same code and source begun less than 1 s earlier, but for
`ICE_STRIPE_LOST` (R434, R80). -/
def State.logEvent (s : State) (code source addr d0 d1 d2 : Nat) : State :=
  match (if code = cIceStripeLost then none else coalesce s.sundial.toNat s.gatehouse.boots code source s.recovery.log) with
  | some l => { s with recovery := { s.recovery with log := l } }
  | none => s.logRecord code source 3 false addr 0xFFFFFFFF d0 d1 d2

/-! ## Gates (R37 to R51) -/

/-- The device has 131,072 gates. -/
def gateCount : Nat := 131072

/-- The counter has reached the target (R41): (counter − target) mod 2^32 is at most 2^31 − 1. -/
def reached (counter target : BitVec 32) : Bool := decide ((counter - target).toNat < 2 ^ 31)

/-- The tick at which a wait's timeout expires has passed: no later change of the counter completes it (R45). -/
def GateWait.lapsed (w : GateWait) (now : Word64) : Bool := decide (w.issued.toNat + usTicks w.timeout < now.toNat)

/-- A wait ends when its gate has reached its target, at the tick of its expiry at the latest (R41, R45). -/
def GateWait.ended (w : GateWait) (now : Word64) (g : Nat) (v : BitVec 32) : Bool :=
  decide (w.gate = g) && reached v w.target && !w.lapsed now

/-- A wait that has expired keeps the value that its gate's counter had then (R45). -/
def GateWait.note (w : GateWait) (now : Word64) (g : Nat) (old : BitVec 32) : GateWait :=
  if w.gate = g ∧ w.lapsed now then { w with seen := some (w.seen.getD old) } else w

/-- Every wait on gate `g` is judged against its new value `v`; the waits whose condition holds in time complete (R41, R45,
R51), which is a progress event (R419). -/
def Agent.judge (now : Word64) (g : Nat) (old v : BitVec 32) (a : Agent) : Agent :=
  let left := (a.waits.filter fun w => !(w.ended now g v)).map fun w => w.note now g old
  if a.waits.any fun w => w.ended now g v then
    { a with waits := left, lastProgress := now, watchLimit := a.progressLimit, watchHeld := 0 }
  else { a with waits := left }

/-- A core port's wait that completes makes `STATE` 2 and asserts the interrupt (R339). -/
def State.judgeCores (g : Nat) (v : BitVec 32) (s : State) : State :=
  { s with cluster := { s.cluster with cores := s.cluster.cores.map fun e =>
      if (s.agent (192 + e.1)).waits.any (fun w => w.ended s.sundial g v)
      then (e.1, { e.2 with waitState := 2, interrupt := true }) else e } }

/-- A gate's counter changes and its waiters are judged. -/
def State.setGateValue (s : State) (g : Nat) (v : BitVec 32) : State :=
  let s1 := s.modGate g fun x => { x with value := v }
  let s2 := s1.judgeCores g v
  { s2 with agents := mapAll (Agent.judge s.sundial g (s.gate g).value v) s2.agents }

/-- One signal: the increment is added modulo 2^32 as one indivisible update (R37, R38). -/
def State.signalGate (s : State) (g inc : Nat) : State :=
  s.setGateValue g ((s.gate g).value + BitVec.ofNat 32 inc)

/-- Every access of the agent issued before `place` is complete at device scope (Table 01-5): an array has no earlier
instruction in flight, a core no earlier store that has not performed (R334); a mover or codec core starts a gate operation only when
its earlier command has ended. -/
def State.deviceDone (s : State) (i place : Nat) : Bool :=
  if isArray i then (s.array i).flights.all fun f => decide (place ≤ f.place)
  else if isCore i then (s.core (i - 192)).stores.all fun e => decide (place ≤ e.1)
  else true

/-- Some transaction of the agent issued up to `place` awaits its response or waits to be sent, among those `p` picks. -/
def State.awaits (s : State) (i place : Nat) (p : Pending → Bool) : Bool :=
  let f (e : Pending) : Bool := decide (e.agent = i) && decide (e.place ≤ place) && p e
  s.link.pending.any (fun e => f e.2) || s.link.waiting.any (fun e => f e.1)

/-- No earlier write of the agent to module `node` awaits its acknowledgement (R50). -/
def State.writesAcked (s : State) (i node place : Nat) : Bool :=
  !s.awaits i place fun e => decide (e.kind = 1) && decide (e.node = node)

/-- No earlier write or read of the agent awaits a response (Table 01-5, Link). -/
def State.linkDone (s : State) (i place : Nat) : Bool := !s.awaits i place fun e => decide (e.kind ≠ 6)

/-- No earlier remote signal of the agent awaits confirmation, and none waits to be sent (Table 01-5, Global). -/
def State.signalsConfirmed (s : State) (i place : Nat) : Bool :=
  (!s.awaits i place fun e => decide (e.kind = 6))
    && (s.agent i).signals.all fun g => !(g.node.isSome && decide (g.place ≤ place))

/-- A `COPY` of an array to another module's memory (R140). -/
def Flight.remote (f : Flight) : Bool := decide (f.word % 256 = 0x30) && bit f.word 10 && !f.noop

/-- Every remote `COPY` of an array issued before `place` has sent its writes (R53, R140). -/
def State.copiesSent (s : State) (i place : Nat) : Bool :=
  !isArray i || (s.array i).flights.all fun f => decide (place ≤ f.place) || !f.remote

/-- The condition of a fence scope over the accesses before `place` (Table 01-5); a core's accesses to local stores perform at once. -/
def State.fenceHolds (s : State) (i scope place : Nat) : Bool :=
  match scope with
  | 0 => isCore i || s.deviceDone i place
  | 1 => s.deviceDone i place
  | 2 => s.copiesSent i place && s.linkDone i place
  | _ => s.deviceDone i place && s.linkDone i place && s.signalsConfirmed i place

/-- The module whose gate a signal changes: none for this module, however the signal names it (R40, R49, R379). -/
def State.signalNode (s : State) (g : Signal) : Option Nat :=
  match g.node with
  | some n => if s.link.nodeValid ∧ n = s.link.nodeId then none else some n
  | none => none

/-- No wait of the agent before `place` is in force: its later gate operations come after it (R40, R42, R45). A wait of a core's port
does not stop the core (R339). -/
def State.waitsOver (s : State) (i place : Nat) : Bool := isCore i || (s.agent i).waits.all fun w => decide (place ≤ w.place)

/-- The condition under which a queued signal is applied or sent (R39, R40, R49, R50). -/
def State.signalReady (s : State) (i : Nat) (g : Signal) : Bool :=
  (!g.release || (s.deviceDone i g.place && match g.node with
    | some n => s.writesAcked i n g.place
    | none => true))
  && s.waitsOver i g.place
  && (s.agent i).signals.all fun h => !(decide (s.signalNode h = s.signalNode g) && decide (h.place < g.place))

/-- A signal joins the agent's queue, to be applied when its condition holds. -/
def State.queueSignal (s : State) (i : Nat) (g : Signal) : State :=
  s.modAgent i fun a => { a with signals := a.signals ++ [{ g with issued := s.sundial }] }

/-- A local signal without release is applied at once, unless an earlier signal of the agent to this module is still queued or
an earlier wait is in force (R39, R40, R45); every other signal is queued. -/
def State.issueSignal (s : State) (i : Nat) (g : Signal) : State :=
  if !g.release && g.node.isNone && s.waitsOver i g.place && (s.agent i).signals.all (fun h => (s.signalNode h).isSome) then
    s.signalGate g.gate g.inc
  else s.queueSignal i g

/-- A wait whose condition holds at issue completes at once; any other is in force until its gate reaches its target or
its timeout expires (R41, R44). A timeout of 0 takes the agent's default (R44, R418). -/
def State.issueWait (s : State) (i gate : Nat) (target : BitVec 32) (timeout : Nat) (acquire : Bool)
    (place addr : Nat) : State :=
  if reached (s.gate gate).value target then s
  else s.modAgent i fun a => { a with waits := a.waits ++ [
    { gate := gate, target := target, issued := s.sundial, timeout := if timeout = 0 then a.gateTimeout else timeout,
      acquire := acquire, place := place, addr := addr }] }

/-! ## Progress (R419) -/

/-- A progress event of agent `i`: its watchdog restarts and takes the limit then in force (R418, R419). -/
def State.progress (s : State) (i : Nat) : State :=
  s.modAgent i fun a => { a with lastProgress := s.sundial, watchLimit := a.progressLimit, watchHeld := 0 }

/-- The agent's watchdog was paused from `t` until `now` (R419). -/
def Agent.pausedFrom (t now : Word64) (a : Agent) : Agent :=
  { a with watchHeld := a.watchHeld + (now.toNat - max t.toNat a.lastProgress.toNat) }

/-- The power ledger holds the agent's next transition no longer (R410). -/
def Agent.unheld (now : Word64) (a : Agent) : Agent := if a.heldWake then { a.pausedFrom a.heldAt now with heldWake := false } else a

end Sys2Proof.Machine
end

