-- ==== Sys2Proof/Machine/MemOps.lean ====
section
/-! DEFINITION. The address map (R17, R62), bytes and poison of the memory tiers (R63, R66, R72, R82), the block table and
its hash (R64, R65), and the checks R62 and R64 of an access. -/
namespace Sys2Proof.Machine

/-! ## Address map -/

def stackTop : Nat := 0x10000000000
def lsBase : Nat := 0x10000000000
def lsBytes : Nat := 0x800000
def lsTop : Nat := lsBase + 192 * lsBytes
def iceBase : Nat := 0x400000000000
def iceTop : Nat := 0x600000000000
def controlBase : Nat := 0xFF0000000000
def controlTop : Nat := 0x1000000000000
/-- The session command port (Table 17-1). -/
def sessionPortAddr : Nat := 0xFF0000600000

/-- What a device address reaches (Table 02-2). -/
inductive Region where
  | stack
  | local_
  | ice
  | control
  | unmapped
  deriving DecidableEq, Repr

def regionOf (a : Nat) : Region :=
  if a < stackTop then .stack
  else if a < lsTop then .local_
  else if a < iceBase then .unmapped
  else if a < iceTop then .ice
  else if a < controlBase then .unmapped
  else if a < controlTop then .control
  else .unmapped

/-- The address of offset `off` in the local store of array `a`. -/
def lsAddr (a off : Nat) : Nat := lsBase + a * lsBytes + off

/-! ## Bytes -/

/-- The byte listed at an address; none where nothing has been written since it became undefined. -/
def Mem.byte? (m : Mem) (a : Nat) : Option Byte := mapFind a m.cells

/-- The byte lies in a Trellis window that an array's sequencer has: undefined at every moment (R197). -/
def State.windowed (s : State) (a : Nat) : Bool :=
  decide (regionOf a = .local_) && match (s.array ((a - lsBase) / lsBytes)).window with
    | some (b, n) => decide (b ≤ (a - lsBase) % lsBytes / 65536) && decide ((a - lsBase) % lsBytes / 65536 < b + n)
    | none => false

/-- What a read of one byte gives: the byte written, or a free value (log 4). -/
def State.rdByte (s : State) (a : Nat) : Byte :=
  if s.windowed a then Config.undefByte s.free a else (s.mem.byte? a).getD (Config.undefByte s.free a)

/-- `n` bytes from an address, lowest first. -/
def State.rdBytes (s : State) (a n : Nat) : List Byte := tabulate n fun i => s.rdByte (a + i)

/-- A little-endian number from bytes (R14). -/
def leNat : List Byte → Nat
  | [] => 0
  | b :: l => b.toNat + 256 * leNat l

/-- The `n` little-endian bytes of a number. -/
def leBytes (n w : Nat) : List Byte := tabulate n fun i => BitVec.ofNat 8 (w >>> (8 * i))

/-- The little-endian number of `n` bytes at an address. -/
def State.rdNat (s : State) (a n : Nat) : Nat := leNat (s.rdBytes a n)

/-- Bytes with their addresses, from a first address on. -/
def placed (a : Nat) (bs : List Byte) : List (Nat × Byte) :=
  match bs with
  | [] => []
  | b :: l => (a, b) :: placed (a + 1) l

/-- The units of 64 bytes that a set of bytes covers whole: those whose 64 addresses are all among them. -/
def wholeUnits (w : List (Nat × Byte)) : List Nat :=
  (w.filter fun e => decide (e.1 % 64 = 0) && (List.range 64).all fun i => w.any fun x => decide (x.1 = e.1 + i)).map
    fun e => e.1 / 64

/-- Bytes are written to memory as one instruction's, command's or store row's gathered stores: a unit that they cover
whole loses its poison, any other keeps it (R72). -/
def Mem.write (m : Mem) (w : List (Nat × Byte)) : Mem :=
  { m with cells := w.foldl (fun c e => mapPut e.1 e.2 c) m.cells,
           poison := if m.poison = [] then [] else m.poison.filter fun u => !(wholeUnits w).contains u }

def State.wr (s : State) (w : List (Nat × Byte)) : State := { s with mem := s.mem.write w }

/-- `n` bytes of a number are written at an address. -/
def State.wrNat (s : State) (a n w : Nat) : State := s.wr (placed a (leBytes n w))

/-- The bytes from `a` to `a + n − 1` become undefined; a poisoned unit stays so, since no write covers it (R72). -/
def Mem.undefine (m : Mem) (a n : Nat) : Mem :=
  { m with cells := m.cells.filter fun e => decide (e.1 < a) || decide (a + n ≤ e.1) }

/-- The units from address `a` to `a + n − 1` lose their poison marks: whole stripes of the Icehouse, written anew or released
(R82, R491). -/
def Mem.unmark (m : Mem) (a n : Nat) : Mem :=
  { m with poison := m.poison.filter fun u => decide (64 * u < a) || decide (a + n ≤ 64 * u) }

def State.undefine (s : State) (a n : Nat) : State := { s.fresh with mem := s.mem.undefine a n }

/-- A unit is marked poisoned. -/
def State.mark (s : State) (u : Nat) : State := { s with mem := { s.mem with poison := setInsert u s.mem.poison } }

/-- The stripe of an Icehouse address (R78). -/
def stripeOf (a : Nat) : Nat := (a - iceBase) / 262144

/-- A unit reads as poisoned (R72, R73, R80, R82): marked, in a lost stripe, or in a stripe that no provision has written, which the
spec lets come marked. -/
def State.unitPoisoned (s : State) (u : Nat) : Bool :=
  s.mem.poison.contains u
  || (decide (regionOf (64 * u) = .ice)
      && (s.mem.lostStripes.contains (stripeOf (64 * u))
          || (!s.mem.iceWritten.contains (stripeOf (64 * u)) && Config.undefPoison s.free u)))

/-- The units of 64 bytes that `n` bytes from an address touch. -/
def unitsOf (a n : Nat) : List Nat := if n = 0 then [] else tabulate ((a + n - 1) / 64 - a / 64 + 1) fun i => a / 64 + i

/-- The first poisoned unit that a range touches, as its address. -/
def State.poisonIn (s : State) (a n : Nat) : Option Nat :=
  ((unitsOf a n).find? fun u => s.unitPoisoned u).map fun u => 64 * u

/-! ## Block table and channel map -/

/-- The block-table run that holds a block; none for an unowned block (R64). -/
def Mem.extentAt (m : Mem) (b : Nat) : Option Extent :=
  m.extents.find? fun e => decide (e.first ≤ b) && decide (b < e.first + e.count)

/-- The block table entry as Table 14-8 lays it out: SALT, RO, OWNED. -/
def Mem.blockEntry (m : Mem) (b : Nat) : Nat :=
  match m.extentAt b with
  | some e => e.salt + (if e.ro then 4096 else 0) + 8192
  | none => 0

/-- Rotation of a 21-bit value left by `n` places (R65). -/
def rotl21 (x n : Nat) : Nat := ((x <<< n) ||| (x >>> (21 - n))) % 2 ^ 21

/-- Stack, channel, and row of a stack address under a salt (R65). -/
def stackMap (salt a : Nat) : Nat × Nat × Nat :=
  let g := bits a 9 31
  let row := bits g 10 21
  let fold3 := Nat.xor (bits row 0 3) (Nat.xor (bits row 3 3) (Nat.xor (bits row 6 3) (Nat.xor (bits row 9 3)
    (Nat.xor (bits row 12 3) (Nat.xor (bits row 15 3) (bits row 18 3))))))
  let r := rotl21 row (bits salt 7 5)
  let fold7 := Nat.xor (bits r 0 7) (Nat.xor (bits r 7 7) (bits r 14 7))
  (Nat.xor (bits g 7 3) fold3, Nat.xor (bits g 0 7) (Nat.xor fold7 (bits salt 0 7)), row)

/-- The salt of the block that contains a stack address. -/
def Mem.saltAt (m : Mem) (a : Nat) : Nat :=
  match m.extentAt (a / 65536) with
  | some e => e.salt
  | none => 0

/-- The device channel of a stack address (R65). -/
def Mem.channelOf (m : Mem) (a : Nat) : Nat :=
  let r := stackMap (m.saltAt a) a
  128 * r.1 + r.2.1

/-- The stack of a stack address; it uses no salt (R65). -/
def stackOf (a : Nat) : Nat := (stackMap 0 a).1

/-- Some stack has stopped at step 3 (R75). -/
def Mem.anyStopped (m : Mem) : Bool := m.stackTab.any fun e => e.2.stopped

/-- The first stack-memory granule of a range that lies in a stopped stack. -/
def State.stoppedIn (s : State) (a n : Nat) : Option Nat :=
  if !s.mem.anyStopped || n = 0 then none
  else (tabulate ((a + n - 1) / 512 - a / 512 + 1) fun i => a / 512 + i).find?
    (fun g => decide (512 * g < stackTop) && (s.stack (stackOf (512 * g))).stopped) |>.map fun g => 512 * g

/-! ## Channels that hold their requests (R414, R426, R427) -/

/-- The channels that retrain, those that have failed, and those that a mowing window recalibrates. -/
def State.heldChannels (s : State) : List Nat := s.mem.retraining ++ s.power.calibrating

/-- An access to `n` bytes at an address meets a channel that holds its requests: it does not perform before the channel goes on. -/
def State.heldIn (s : State) (a n : Nat) : Bool :=
  decide (s.heldChannels ≠ []) && decide (n ≠ 0) && (List.range ((a + n - 1) / 512 - a / 512 + 1)).any fun i =>
    decide (512 * (a / 512 + i) < stackTop) && s.heldChannels.contains (s.mem.channelOf (512 * (a / 512 + i)))

/-- The same of several ranges, each an address and a length. -/
def State.heldRuns (s : State) (l : List (Nat × Nat)) : Bool := decide (s.heldChannels ≠ []) && l.any fun e => s.heldIn e.1 e.2

/-! ## Checks of an access by address (R62, R64, R75) -/

/-- The first address of a range that no region of Table 02-2 serves for this kind of access, with the code of R62. -/
def checkMapped (a n : Nat) (write : Bool) : Option FaultInfo :=
  let bad (x : Nat) : Option FaultInfo :=
    match regionOf x with
    | .unmapped => some { code := cAddrUnmapped, d1 := x }
    | .control => if write && decide (a = sessionPortAddr) && decide (n = 64) then none
                  else some { code := cAddrUnmapped, d1 := x }
    | .ice => if write then some { code := cIceWrite } else none
    | _ => none
  if n = 0 then none else
    -- regions are intervals: a range leaves them at its ends or at a region's first address within it
    ([a, lsTop, iceBase, iceTop, controlBase, sessionPortAddr + 64, controlTop, a + n - 1].filter
      fun x => decide (a ≤ x) && decide (x < a + n)).findSome? bad

/-- The first block of a range with `RO` set (R64). -/
def State.roIn (s : State) (a n : Nat) : Option Nat :=
  if n = 0 then none else
    (s.mem.extents.find? fun e => e.ro && decide (e.first * 65536 < a + n) && decide (a < (e.first + e.count) * 65536)).map
      fun e => max a (e.first * 65536)

/-- A write by raw address, made when its command completes, meets a block that has become read-only since it started (R64). -/
def State.roWritten (s : State) (places : List (Nat × Nat)) : Option FaultInfo :=
  let last := places.foldl (fun m e => max m (e.1 + e.2)) 0 - 1
  places.findSome? fun e => (s.roIn e.1 e.2).map fun x => { code := cObjReadOnly, d1 := x, d2 := last }

/-- R64 and R75 on the blocks of a range: a write to a read-only block, then any access to a stopped stack. -/
def State.checkBlocks (s : State) (handle a n : Nat) (write : Bool) : Option FaultInfo :=
  match if write then s.roIn a n else none with
  | some x => some { code := cObjReadOnly, d0 := handle, d1 := if handle = 0 then x else x - a, d2 := a + n - 1 }
  | none => (s.stoppedIn a n).map fun _ => { code := cStackOvertemp }

end Sys2Proof.Machine
end

