-- ==== Sys2Proof/Machine/ObjOps.lean ====
section
/-! DEFINITION. Objects: handles and the checks of an access through one (R83, R86), pins (R87, R94), quota (R88 to R90),
placement and the transitions of Table 02-9 that pins and aborted promotions cause (R91, R92, R95, R96). -/
namespace Sys2Proof.Machine

/-- The entry index of a handle (R83). -/
def handleIndex (h : Nat) : Nat := h % 0x100000
/-- The generation of a handle (R83). -/
def handleGen (h : Nat) : Nat := bits h 20 4

/-- The object is reached at its stack address (R86). -/
def ObjState.reachable : ObjState → Bool
  | .resident | .evicting | .retaining => true
  | _ => false

/-- Blocks of an object's extent (R105). -/
def Obj.blocks (o : Obj) : Nat := ceilDiv o.size 65536

/-- Stripes of an object's Icehouse extent (R491). -/
def Obj.stripes (o : Obj) : Nat := ceilDiv o.size 262144

/-- The code of R83 for a handle, if it fails. -/
def State.handleFault (s : State) (h : Nat) : Option Nat :=
  let o := s.obj (handleIndex h)
  if handleIndex h = 0 ∨ o.valid = false then some cObjInvalid
  else if o.gen ≠ handleGen h then some cObjStale
  else none

/-- R64 then R86 of an access through a handle to the bytes `off` to `off + n − 1`; the device address of the first byte
when it passes (R86, R146). -/
def State.checkObj (s : State) (h off n : Nat) (write : Bool) : Except FaultInfo Nat :=
  let info (code first : Nat) : FaultInfo := { code := code, d0 := h, d1 := first, d2 := off + n - 1 }
  match s.handleFault h with
  | some c => .error (info c off)
  | none =>
    let o := s.obj (handleIndex h)
    let addr := o.base * 65536 + off
    let inside := min n (o.size - off)
    match if o.st.reachable then s.checkBlocks h addr inside write else none with
    | some f => .error (if f.code = cObjReadOnly then info cObjReadOnly (off + f.d1) else f)
    | none =>
      if o.size < off + n then .error (info cObjBound (max off o.size))
      else if !o.st.reachable then .error (info cObjNotResident off)
      else if write && o.kind then .error (info cObjReadOnly off)
      else .ok addr

/-- R62 and R64 of an access by raw address. -/
def State.checkRaw (s : State) (a n : Nat) (write : Bool) : Except FaultInfo Nat :=
  match checkMapped a n write with
  | some f => .error f
  | none => match s.checkBlocks 0 a n write with
    | some f => .error f
    | none => .ok a

/-- R62, R64 and R86 of an access named by a handle and an offset; a handle of 0 makes the offset an address. -/
def State.checkAccess (s : State) (h off n : Nat) (write : Bool) : Except FaultInfo Nat :=
  if h = 0 then s.checkRaw off n write else s.checkObj h off n write

/-- The device address of an offset through a handle, unchecked (R86). -/
def State.addrOf (s : State) (h off : Nat) : Nat :=
  if h = 0 then off else (s.obj (handleIndex h)).base * 65536 + off

/-! ## Reports and quota -/

/-- Outcome codes (R105). -/
def outDone : Nat := 1
def outJoined : Nat := 2
def outSuperseded : Nat := 3
def outNoop : Nat := 4
def outAborted : Nat := 5

/-- Why the outcome record of a placement cannot be written when it completes (R64, R75). -/
def State.reportFault (s : State) (r : Report) : Option FaultInfo :=
  if r.status = 0 then none else s.checkBlocks 0 r.status 8 true

/-- A placement command completes: its outcome record is written, and its gate signalled unless it was aborted (R105).
`queued`: the signal waits its turn in the mover's own order; a held eviction's or joined promotion's is applied by the
memory-side die at once. A record that R64 or R75 refuses is not written (log 69). -/
def State.report (s : State) (r : Report) (outcome : Nat) (queued : Bool) : State :=
  let s1 := if r.status = 0 ∨ (s.reportFault r).isSome then s else s.wrNat r.status 8 (outcome + r.handle * 256)
  if outcome = outAborted then s1 else match r.signal with
    | none => s1
    | some (g, inc) =>
      if queued then s1.queueSignal r.agent { gate := g, inc := inc, release := true, node := none, place := 0 }
      else s1.signalGate g inc

/-- A list of reports completes with one outcome. -/
def State.reports (s : State) (outcome : Nat) (l : List Report) : State :=
  l.foldl (fun s r => s.report r outcome false) s

/-- The charge of a placed object leaves its domain (R88). -/
def State.uncharge (s : State) (o : Obj) : State :=
  s.modQuota o.charge fun q => { q with stackUsed := q.stackUsed - o.blocks }

/-- An object's charge enters domain `d` (R88). -/
def State.chargeTo (s : State) (d : Nat) (o : Obj) : State :=
  s.modQuota d fun q => { q with stackUsed := q.stackUsed + o.blocks }

/-! ## Extents -/

/-- The extent of object `i` is freed: its blocks are unowned with salt 0, and their bytes undefined (R66). -/
def State.freeExtent (s : State) (i : Nat) : State :=
  let o := s.obj i
  let s1 := s.undefine (o.base * 65536) (o.blocks * 65536)
  { s1 with mem := { s1.mem with extents := s1.mem.extents.filter fun e => decide (e.object ≠ i) } }

/-- Object `i` leaves stack memory: ABSENT, extent freed, charge removed (Table 02-9). -/
def State.makeAbsent (s : State) (i : Nat) : State :=
  let o := s.obj i
  ((s.freeExtent i).uncharge o).modObj i fun o => { o with st := .absent }

/-- An extent is reserved for object `i` at block `base`: block salts and `RO` written, bytes undefined, the domain
charged and recorded (R66, Table 02-9). -/
def State.placeExtent (s : State) (i base domain : Nat) (st : ObjState) : State :=
  let o := s.obj i
  let s1 := s.undefine (base * 65536) (o.blocks * 65536)
  let s2 := { s1 with mem := { s1.mem with extents :=
    { first := base, count := o.blocks, ro := o.kind, salt := o.salt, object := i } :: s1.mem.extents } }
  (s2.chargeTo domain o).modObj i fun o => { o with st := st, base := base, charge := domain }

/-- Some owned block lies in the extent. -/
def State.extentBusy (s : State) (base n : Nat) : Bool :=
  s.mem.extents.any fun e => decide (e.first < base + n) && decide (base < e.first + e.count)

/-! ## Pins (R87, R92, R94) -/

/-- A pin is taken on object `i`. -/
def State.takePin (s : State) (i : Nat) : State := s.modObj i fun o => { o with pins := o.pins + 1 }

/-- The transitions that `PIN_COUNT` = 0 causes (Table 02-9): an EVICTING object leaves stack memory and its held
evictions complete with DONE; a RETAINING one becomes RESIDENT and they complete with SUPERSEDED. -/
def State.pinsGone (s : State) (i : Nat) : State :=
  let o := s.obj i
  if o.pins ≠ 0 then s
  else match o.st with
    | .evicting => ((s.makeAbsent i).modObj i fun o => { o with held := [] }).reports outDone o.held
    | .retaining =>
      (s.modObj i fun o => { o with st := .resident, held := [] }).reports outSuperseded o.held
    | _ => s

/-- A pin on object `i` is released. -/
def State.releasePin (s : State) (i : Nat) : State := (s.modObj i fun o => { o with pins := o.pins - 1 }).pinsGone i

def State.releasePins (s : State) (l : List Nat) : State := l.foldl State.releasePin s
def State.takePins (s : State) (l : List Nat) : State := l.foldl State.takePin s

/-- The first of the handles that a holder names that may take no pin (R83, R87, R94). No access is made: `DETAIL1` and `DETAIL2`
are 0 (DESIGN CHOICE, log 129). -/
def State.pinFault (s : State) (handles : List Nat) : Option FaultInfo :=
  handles.findSome? fun h => match s.handleFault h with
    | some c => some { code := c, d0 := h }
    | none => if (s.obj (handleIndex h)).st = .evicting then some { code := cObjEvicting, d0 := h } else none

/-- The objects that a session's `KVEXP` job pins, each once (R87, R282). -/
def Session.objects (r : Session) : List Nat :=
  (([r.cache, r.belv].filter fun h => decide (h ≠ 0)).map handleIndex).eraseDups

/-! ## Descriptors' handles -/

/-- The handles a descriptor names: HANDLE of a tensor, ROW_HANDLE and CH_HANDLE of a scale, once each (R123). -/
def descHandles (w : Nat) : List Nat :=
  let l := match bits w 0 4 with
    | 1 => [fieldAt w 4 0 24]
    | 2 => [fieldAt w 8 0 24, fieldAt w 24 0 24]
    | _ => []
  (l.filter fun h => decide (h ≠ 0)).eraseDups

/-- The objects a descriptor pins. -/
def descObjects (w : Nat) : List Nat := ((descHandles w).map handleIndex).eraseDups

/-! ## Aborted promotions (R95, R96) -/

/-- Every pinned descriptor and codec reference of object `i` is marked with the code its users take. -/
def State.markAborted (s : State) (i code : Nat) : State :=
  let markDesc (e : DescEntry) : DescEntry :=
    match (descHandles e.word).find? fun h => decide (handleIndex h = i) with
    | some h => { e with mark := some (code, h) }
    | none => e
  let markHeld (f : HeldFrame) : HeldFrame := if f.object = i then { f with mark := some code } else f
  let markCtx (c : Ctx) : Ctx :=
    { c with held := c.held.map markHeld,
             poolMark := if decide (c.st ≠ .free) && decide (c.opened.head? = some i) then some code else c.poolMark }
  let markCore (c : CodecCore) : CodecCore := if c.pins.contains i then { c with marks := mapPut i code c.marks } else c
  { s with arrays := mapAll (fun a => { a with descs := mapAll markDesc a.descs }) s.arrays,
           codec := { s.codec with ctxs := mapAll markCtx s.codec.ctxs, cores := mapAll markCore s.codec.cores } }

/-- The promotion of object `i` ends without its copy: ABSENT, charge refunded, joined promotions ABORTED, held evictions
NOOP, references marked; `event`: whether `PROMOTION_ABORTED` is logged (R95, R96). -/
def State.abortPromotion (s : State) (i code : Nat) (event : Bool) : State :=
  let o := s.obj i
  let s1 := (s.makeAbsent i).modObj i fun o => { o with held := [], joined := [] }
  let s2 := (s1.reports outAborted o.joined).reports outNoop o.held
  let s3 := s2.markAborted i code
  if event then s3.logEvent cPromotionAborted (srcMemDie (i % 8)) 0 (i + o.gen * 0x100000) 0 0 else s3

/-- The promotion's copy has finished (Table 02-9): RETAINING while evictions are held and pins remain, otherwise RESIDENT
with the held evictions complete; then the joined promotions complete. The promoting command itself is reported by its
mover. -/
def State.promotionDone (s : State) (i : Nat) : State :=
  let o := s.obj i
  let s1 := if o.held ≠ [] ∧ 0 < o.pins then s.modObj i fun o => { o with st := .retaining, joined := [] }
    else (s.modObj i fun o => { o with st := .resident, held := [], joined := [] }).reports outSuperseded
      o.held
  s1.reports outJoined o.joined

end Sys2Proof.Machine
end

