-- ==== Sys2Proof/Machine/Faults.lean ====
section
/-! DEFINITION. A fault stops an agent (R149 to R153, R341, R425): its record, the log, and what ends with its program. -/
namespace Sys2Proof.Machine

/-- The fault is recorded: the first one writes the record, a later one sets its `MULTI`; each reaches the log (R152,
R434). -/
def State.recordFault (s : State) (i : Nat) (f : FaultInfo) (op addr lastTile tileCount : Nat) : State :=
  let multi := (s.agent i).fault.isSome
  let s1 := s.logRecord f.code (srcAgent i) 1 multi addr lastTile f.d0 f.d1 f.d2
  s1.modAgent i fun a => match a.fault with
    | some r => { a with fault := some { r with multi := true } }
    | none =>
      let r : FaultRec :=
        { info := f, agent := i, opcode := op, epoch := s.sourceEpoch i, sundial := s.sundial, addr := addr,
          lastTile := lastTile, tileCount := tileCount, multi := false, seq := a.faultSeq + 1 }
      { a with faultSeq := a.faultSeq + 1, fault := some r }

/-- The agent stops in state FAULTED: nothing of its program after `place` goes on. Its block gates its clock
(Table 13-4). -/
def Agent.stop (now : Word64) (place : Nat) (a : Agent) : Agent :=
  { a with prog := .faulted, fences := [], gating := .clockGated now,
           waits := a.waits.filter fun w => decide (w.place < place),
           signals := a.signals.filter fun g => decide (g.place < place) }

/-! ## The module cap at transitions (R410) -/

/-- The envelope would pass 2,800 W with `d` units of 0.1 mW more. -/
def State.overCap (s : State) (d : Nat) : Bool := decide (28000000 < s.power.envelope + s.power.added + d)

/-- A transition that adds `d` to the envelope is admitted. -/
def State.addPower (s : State) (d : Nat) : State := { s with power := { s.power with added := s.power.added + d } }

/-- A core runs its program. -/
def State.coreBusy (s : State) (k : Nat) : Bool :=
  match (s.agent (192 + k)).gating with
  | .running => decide ((s.agent (192 + k)).prog = .running ∨ (s.agent (192 + k)).prog = .ending)
  | _ => false

/-- The power that the wake of agent `i`'s block adds, in units of 0.1 mW: a power-gated array draws 0.6 W, a waking one 4.0 W, 0.5 W
less in Lean; every other block draws the same as it wakes (R408, Table 13-5). -/
def State.wakePower (s : State) (i : Nat) : Nat := if isArray i then (if s.power.leanActive then 29000 else 34000) else 0

/-- The power that a core's start adds: its own 4.0 W in place of 0.1 W, and 6.0 W of the L3 and core cluster with the first core to
run (Table 13-5). -/
def State.corePower (s : State) : Nat := 39000 + if (List.range 16).any s.coreBusy then 0 else 60000

/-- A transition is held: the hold is in force, and is logged once per epoch, from where its record counts the arrays paused and the
hold time. -/
def State.heldByCap (s : State) : State :=
  if s.power.capLogged then { s with power := { s.power with
    capHold := true, powerCap := true, holdSince := some (s.power.holdSince.getD s.sundial) } }
  else ({ s with power := { s.power with
    capHold := true, powerCap := true, capLogged := true, holdSince := some s.sundial, holdTime := 0,
    holdArrays := 0 } }).logDevice cPowerCap srcPower 0 0 0

/-- A wake or a start of agent `i` is held. -/
def State.holdStart (s : State) (i : Nat) : State :=
  (s.modAgent i fun a => { a with heldWake := true, heldAt := if a.heldWake then a.heldAt else s.sundial }).heldByCap

/-- Agent `i` starts what adds `d` to the envelope and leads to `t`, unless that would pass 2,800 W: then it is held. -/
def State.startOr (s : State) (i d : Nat) (t : State) : State :=
  if s.overCap d then s.holdStart i else (t.modAgent i (Agent.unheld s.sundial)).addPower d

/-! ## Arrays -/

/-- A flight ends: the session it pins is released (R263). -/
def State.endFlight (s : State) (f : Flight) : State :=
  match f.session with
  | some (i, _) => s.modSession i fun r => { r with pins := r.pins - 1 }
  | none => s

/-- Replaced entries' pins whose readers have all ended are released (R123). -/
def State.settlePins (s : State) (a : Nat) : State :=
  let live := (s.array a).flights.map (·.place)
  let done := (s.array a).oldPins.filter fun p => p.readers.all fun r => !live.contains r
  let s1 := s.modArray a fun x => { x with oldPins := x.oldPins.filter fun p => !(p.readers.all fun r => !live.contains r) }
  s1.releasePins (done.map (·.object))

/-- The jobs of mover `m` become `jobs`; an `XSERVE` that has none left begins to wait for one (R106). -/
def State.setJobs (s : State) (m : Nat) (jobs : List ExportJob) : State :=
  let await (c : MoverCmd) : MoverCmd := match c with
    | .xserve addr left _ timeout => .xserve addr left s.sundial timeout
    | c => c
  s.modMover m fun x => { x with cmd := if jobs = [] then x.cmd.map await else x.cmd, jobs := jobs }

/-- The objects that a job pins (R282). -/
def ExportJob.pins (j : ExportJob) : List Nat := j.snap.objects

/-- The objects that a `KVEXP` in flight pins (R87, R94). -/
def Flight.exportPins (f : Flight) : List Nat :=
  match f.session with
  | some (_, r) => if f.word % 256 = 0x23 then r.objects else []
  | none => []

/-- A flight of array `a` ends without completing. A `KVEXP`'s job that has not begun is withdrawn; one under way keeps the
session's pin and runs to its end on its mover (R424), and one that its mover has just ended releases it itself (R284). -/
def State.abandonFlight (a : Nat) (s : State) (f : Flight) : State :=
  let m := fieldAt f.word 0xA 8 4
  let mine (j : ExportJob) : Bool := decide (j.array = a) && decide (j.place = f.place)
  match if f.posted then (s.mover m).jobs.find? mine else none with
  | none => if f.posted then s else (s.releasePins f.exportPins).endFlight f
  | some j =>
    if j.sent = 0 ∧ !j.under then ((s.setJobs m ((s.mover m).jobs.filter fun k => !mine k)).releasePins j.pins).endFlight f
    else s

/-- The Trellis window of array `a` is its sequencer's no more: its bytes are undefined until they are written (R197). -/
def State.dropWindow (s : State) (a : Nat) : State :=
  match (s.array a).window with
  | some w => (s.undefine (lsAddr a (w.1 * 65536)) (w.2 * 65536)).modArray a fun x => { x with window := none }
  | none => s

/-- The program of array `a` has ended: while instructions of it are left the array runs on; with none left it gives up its
window (R197) and gates its clock (Table 13-4). -/
def State.settleArray (s : State) (a : Nat) : State :=
  if (s.agent a).prog = .running ∨ (s.agent a).prog = .ending then s
  else if (s.array a).flights ≠ [] then s.modAgent a fun g => { g with
    gating := match g.gating with
      | .clockGated _ => .running
      | t => t }
  else (s.dropWindow a).modAgent a fun g => { g with
    gating := match g.gating with
      | .running => .clockGated s.sundial
      | t => t }

/-- The flights of array `a` at or after `place` are dropped. -/
def State.dropFlights (s : State) (a place : Nat) : State :=
  let dropped := (s.array a).flights.filter fun f => decide (place ≤ f.place)
  let s1 := s.modArray a fun x => { x with
    flights := x.flights.filter fun f => decide (f.place < place), buffer := x.buffer.filter fun b => decide (b.place < place) }
  (dropped.foldl (State.abandonFlight a) s1).settlePins a

/-- The output tiles completed by an instruction in flight, as `LAST_TILE`. -/
def Flight.lastTile (f : Flight) : Nat := if f.tile = 0 then 0xFFFFFFFF else f.tile - 1

/-- Array `a` faults at the instruction at `addr` with opcode `op` and place `place` (R149): instructions before it run
on, it and those after it end. -/
def State.faultArray (s : State) (a : Nat) (f : FaultInfo) (op addr place lastTile tileCount : Nat) : State :=
  let s1 := s.recordFault a f op addr lastTile tileCount
  ((s1.modAgent a (Agent.stop s1.sundial place)).dropFlights a place).settleArray a

/-- The oldest wait or fence in force of agent `i`: its place and its address. -/
def State.oldestHeld (s : State) (i : Nat) : Option (Nat × Nat) :=
  let held := (s.agent i).waits.map (fun w => (w.place, w.addr)) ++ (s.agent i).fences.map (fun f => (f.place, f.addr))
  held.foldl (fun b e => match b with
    | some x => if e.1 < x.1 then some e else b
    | none => some e) none

/-- The address of the wait or fence in force of agent `i`; with none, of what it issues next; 0 without a program. -/
def State.heldAddr (s : State) (i : Nat) : Nat := match s.oldestHeld i with
  | some h => h.2
  | none => if (s.agent i).running.isSome then (s.agent i).ip else 0

/-! ## Export jobs (R284) -/

/-- The parts of a job's frame that have not left its port are withdrawn. -/
def State.dropFrame (s : State) (m : Nat) (j : ExportJob) : State :=
  match if j.under then j.port else none with
  | some p => s.modPort p fun q => { q with out := q.out.filter fun t => decide (t.flow ≠ 0x300 + m) }
  | none => s

/-- A job ends early: no more of it is sent, its pins and its session's are released, and its `KVEXP` faults with
`EXPORT_ABORTED`. -/
def State.endJob (m code : Nat) (s : State) (j : ExportJob) : State :=
  let s1 := ((s.dropFrame m j).releasePins j.pins).modSession j.session fun r => { r with pins := r.pins - 1 }
  match if isArray j.array then (s1.array j.array).flights.find? fun f => decide (f.place = j.place) else none with
  | none => s1
  | some fl => s1.faultArray j.array
      { code := cExportAborted, d0 := m, d1 := j.sent + j.count * 2 ^ 32, d2 := code } 0x23 fl.addr j.place 0xFFFFFFFF 0

/-- Every job of mover `m` ends early with the code that ended it. -/
def State.endJobs (s : State) (m code : Nat) : State :=
  let jobs := (s.mover m).jobs
  jobs.foldl (State.endJob m code) (s.setJobs m [])

/-! ## Movers, codec cores, host-class cores -/

/-- The pins of a mover's command in execution. -/
def MoverCmd.pins : MoverCmd → List Nat
  | .copy _ _ _ _ p => p
  | _ => []

/-- Mover `m` faults at the command at `addr`: its command ends, its pins are released and its jobs end (R284, R425). -/
def State.faultMover (s : State) (m : Nat) (f : FaultInfo) (op addr : Nat) : State :=
  let s1 := s.recordFault (208 + m) f op addr 0xFFFFFFFF 0
  let pins := match (s1.mover m).cmd with
    | some c => c.pins
    | none => []
  let s2 := (s1.modAgent (208 + m) (Agent.stop s1.sundial 0)).modMover m fun x => { x with cmd := none }
  (s2.releasePins pins).endJobs m f.code

/-- Codec core `c`'s command ends without effect: its pins are released and its context returns to OPEN (R347, R352). -/
def State.endCodecCmd (s : State) (c : Nat) : State :=
  let k := s.codecCore c
  let s1 := match k.cmd with
    | some (_, ctx) => s.modCtx ctx fun x => if x.st = CtxState.active then { x with st := .open_ } else x
    | none => s
  (s1.modCodecCore c fun k => { k with cmd := none, pins := [], marks := [], waitSince := none }).releasePins k.pins

def State.faultCodec (s : State) (c : Nat) (f : FaultInfo) (op addr : Nat) : State :=
  let s1 := s.recordFault (224 + c) f op addr 0xFFFFFFFF 0
  (s1.modAgent (224 + c) (Agent.stop s1.sundial 0)).endCodecCmd c

/-- A host-class core stops at its pc (R341); its port's wait ends. -/
def State.faultCore (s : State) (k : Nat) (f : FaultInfo) : State :=
  let s1 := s.recordFault (192 + k) f 0 (s.core k).pc.toNat 0xFFFFFFFF 0
  (s1.modAgent (192 + k) (Agent.stop s1.sundial 0)).modCore k fun c =>
    { c with waitState := if c.waitState = 1 then 0 else c.waitState, reservation := none }

/-- An agent faults between its instructions or commands: the record names the one that would have started next
(Table 03-19, R48, R140, R425). -/
def State.faultAgent (s : State) (i : Nat) (f : FaultInfo) : State :=
  let ip := (s.agent i).ip
  let op := (s.rdByte ip).toNat
  if isArray i then s.faultArray i f op ip (s.array i).place 0xFFFFFFFF 0
  else if isCore i then s.faultCore (i - 192) f
  else if isMover i then s.faultMover (i - 208) f op ip
  else s.faultCodec (i - 224) f op ip

/-- A fault the agent takes at its next boundary (R48, R140). -/
def State.addBoundary (s : State) (i : Nat) (f : FaultInfo) : State :=
  s.modAgent i fun a => { a with boundary := a.boundary ++ [f] }

end Sys2Proof.Machine
end

