-- ==== Sys2Proof/Machine/Num.lean ====
section
/-! DEFINITION. Number formats, their exact values, rounding and the FP32 arithmetic (spec/04_number_formats_and_rounding.md). -/
namespace Sys2Proof.Machine

/-- The exact value an encoding denotes (R155, R156): a NaN, a signed infinity, or
`(-1)^neg × num / den × 2^exp`; `num = 0` is a zero with its sign. `den` is 1 except for quotients. -/
inductive Val where
  | nan
  | inf (neg : Bool)
  | fin (neg : Bool) (num den : Nat) (exp : Int)
  deriving DecidableEq, Repr

/-- Layout of a floating-point format (Table 04-2). -/
structure FloatFmt where
  /-- exponent bits -/
  w : Nat
  /-- mantissa bits -/
  p : Nat
  /-- exponent bias -/
  bias : Nat
  /-- the top exponent field denotes infinities and NaN (E5M2, FP16, BF16, FP32) -/
  hasInf : Bool
  /-- E4M3: the top exponent field is finite but for the all-ones mantissa -/
  topFinite : Bool
  deriving DecidableEq, Repr

def fE4M3 : FloatFmt := ⟨4, 3, 7, false, true⟩
def fE5M2 : FloatFmt := ⟨5, 2, 15, true, false⟩
def fFP16 : FloatFmt := ⟨5, 10, 15, true, false⟩
def fBF16 : FloatFmt := ⟨8, 7, 127, true, false⟩
def fFP32 : FloatFmt := ⟨8, 23, 127, true, false⟩
def fER24 : FloatFmt := ⟨12, 11, 2047, false, false⟩
def fER40 : FloatFmt := ⟨12, 27, 2047, false, false⟩

/-- Total bits of a floating format. -/
def FloatFmt.size (f : FloatFmt) : Nat := 1 + f.w + f.p

/-- Pattern of the largest finite magnitude (Table 04-3). -/
def FloatFmt.maxPat (f : FloatFmt) : Nat :=
  if f.topFinite then 2 ^ (f.w + f.p) - 2 else (2 ^ f.w - 1) * 2 ^ f.p - 1

/-- The canonical NaN (Table 04-3), always with sign 0. -/
def FloatFmt.nanPat (f : FloatFmt) : Nat :=
  if f.topFinite then 2 ^ (f.w + f.p) - 1
  else (2 ^ f.w - 1) * 2 ^ f.p + 2 ^ (f.p - 1)

/-- Pattern of a signed infinity; only where `hasInf`. -/
def FloatFmt.infPat (f : FloatFmt) (neg : Bool) : Nat :=
  (if neg then 2 ^ (f.w + f.p) else 0) + (2 ^ f.w - 1) * 2 ^ f.p

/-- Pattern of a signed zero. -/
def FloatFmt.zeroPat (f : FloatFmt) (neg : Bool) : Nat := if neg then 2 ^ (f.w + f.p) else 0

/-- Value of an encoding (R155, Table 04-2). -/
def decodeFloat (f : FloatFmt) (x : Nat) : Val :=
  let neg := bit x (f.w + f.p)
  let e := bits x f.p f.w
  let m := bits x 0 f.p
  if e = 2 ^ f.w - 1 ∧ ¬ f.topFinite then
    if f.hasInf ∧ m = 0 then .inf neg else .nan
  else if f.topFinite ∧ e = 2 ^ f.w - 1 ∧ m = 2 ^ f.p - 1 then .nan
  else if e = 0 then .fin neg m 1 (1 - (f.bias : Int) - f.p)
  else .fin neg (2 ^ f.p + m) 1 ((e : Int) - f.bias - f.p)

/-- Rounding modes 0 to 6 of Table 04-5; the stochastic modes carry their draw `u` of `n` bits (R170). -/
inductive Rnd where
  | rne | rna | rtz | rup | rdn
  | sr (n u : Nat)
  deriving DecidableEq, Repr

/-- `floor (log2 (num / den × 2^exp))` for a positive value. -/
def log2Floor (num den : Nat) (exp : Int) : Int :=
  let k : Int := (Nat.log2 num : Int) - Nat.log2 den
  -- the estimate is right or one too high
  let ok := if 0 ≤ k then den <<< k.toNat ≤ num else den ≤ num <<< (-k).toNat
  (if ok then k else k - 1) + exp

/-- `num / den × 2^exp` in units of `2^q`: whole part, remainder and divisor. -/
def scaleTo (num den : Nat) (exp q : Int) : Nat × Nat × Nat :=
  let sh := exp - q
  let n := if 0 ≤ sh then num <<< sh.toNat else num
  let d := if 0 ≤ sh then den else den <<< (-sh).toNat
  (n / d, n % d, d)

/-- Whether the whole part `t` moves up one unit, given the remainder `r` of divisor `d` (Table 04-5, R170). -/
def roundsUp (mode : Rnd) (neg : Bool) (t r d : Nat) : Bool :=
  match mode with
  | .rne => decide (d < 2 * r) || (decide (2 * r = d) && t % 2 == 1)
  | .rna => decide (d ≤ 2 * r)
  | .rtz => false
  | .rup => decide (r ≠ 0) && !neg
  | .rdn => decide (r ≠ 0) && neg
  | .sr n u => decide (2 ^ n ≤ r * 2 ^ n / d + u)

/-- A positive value rounded once to precision `p` with least quantum `2^qmin` (R164 step 3, R170):
the result is `t × 2^q`. -/
def roundMag (p : Nat) (qmin : Int) (mode : Rnd) (neg : Bool) (num den : Nat) (exp : Int) :
    Nat × Int :=
  let q := max (log2Floor num den exp - p) qmin
  let (t, r, d) := scaleTo num den exp q
  (if roundsUp mode neg t r d then t + 1 else t, q)

/-- Least quantum exponent of a format: the subnormal spacing. -/
def FloatFmt.qmin (f : FloatFmt) : Int := 1 - (f.bias : Int) - f.p

/-- The pattern, without sign, of `t × 2^q` as `roundMag` gives it; a value above the largest
finite magnitude gives `none`. -/
def packMag (f : FloatFmt) (t : Nat) (q : Int) : Option Nat :=
  -- `t` is below 2^(p+1), or equals it after a carry
  let (t, q) := if t = 2 ^ (f.p + 1) then (2 ^ f.p, q + 1) else (t, q)
  let pat := if t < 2 ^ f.p then t
             else ((q - f.qmin).toNat + 1) * 2 ^ f.p + (t - 2 ^ f.p)
  if pat ≤ f.maxPat then some pat else none

/-- What a rounding reports besides its pattern: whether a finite value saturated (R165). -/
structure Rounded where
  pat : Nat
  sat : Bool
  deriving DecidableEq, Repr

def withSign (f : FloatFmt) (neg : Bool) (pat : Nat) : Nat :=
  if neg then 2 ^ (f.w + f.p) + pat else pat

/-- Conversion of an exact value into a floating format (R164, R165, Table 04-4). -/
def convFloat (f : FloatFmt) (mode : Rnd) (v : Val) : Rounded :=
  match v with
  | .nan => ⟨f.nanPat, false⟩
  | .inf neg => ⟨if f.hasInf then f.infPat neg else withSign f neg f.maxPat, false⟩
  | .fin neg num den exp =>
    if num = 0 then ⟨f.zeroPat neg, false⟩
    else
      let (t, q) := roundMag f.p f.qmin mode neg num den exp
      match packMag f t q with
      | some pat => ⟨withSign f neg pat, false⟩
      | none => ⟨withSign f neg f.maxPat, true⟩

/-- IEEE 754 rounding of an internal result: to nearest, ties to even, overflow to infinity (R162);
a format without infinity saturates. -/
def arith (f : FloatFmt) (v : Val) : Nat :=
  match v with
  | .fin neg num den exp =>
    if num = 0 then f.zeroPat neg
    else
      let (t, q) := roundMag f.p f.qmin .rne neg num den exp
      match packMag f t q with
      | some pat => withSign f neg pat
      | none => if f.hasInf then f.infPat neg else withSign f neg f.maxPat
  | _ => (convFloat f .rne v).pat

/-! ### Exact arithmetic on values -/

def Val.neg : Val → Val
  | .nan => .nan
  | .inf s => .inf (!s)
  | .fin s n d e => .fin (!s) n d e

def Val.abs : Val → Val
  | .nan => .nan
  | .inf _ => .inf false
  | .fin _ n d e => .fin false n d e

def Val.isNan : Val → Bool
  | .nan => true
  | _ => false

def Val.isZero : Val → Bool
  | .fin _ n _ _ => n == 0
  | _ => false

def Val.isNeg : Val → Bool
  | .nan => false
  | .inf s => s
  | .fin s _ _ _ => s

/-- Signed numerator of a finite value over `den × 2^-(low)` where `low ≤ exp`. -/
def signedAt (neg : Bool) (num : Nat) (exp low : Int) : Int :=
  let m : Int := (num <<< (exp - low).toNat : Nat)
  if neg then -m else m

/-- Exact sum (R163: a sum of exact zeros is +0 unless every term is −0; an exact cancellation is +0). -/
def Val.add (a b : Val) : Val :=
  match a, b with
  | .nan, _ => .nan
  | _, .nan => .nan
  | .inf s, .inf t => if s = t then .inf s else .nan
  | .inf s, _ => .inf s
  | _, .inf t => .inf t
  | .fin s n d e, .fin t m c f =>
    if n = 0 ∧ m = 0 then .fin (s && t) 0 1 0
    else
      let low := min e f
      let r : Int := signedAt s n e low * (c : Int) + signedAt t m f low * (d : Int)
      .fin (decide (r < 0)) r.natAbs (d * c) low

/-- Exact product. -/
def Val.mul (a b : Val) : Val :=
  match a, b with
  | .nan, _ => .nan
  | _, .nan => .nan
  | .inf s, .inf t => .inf (s != t)
  | .inf s, .fin t m _ _ => if m = 0 then .nan else .inf (s != t)
  | .fin s n _ _, .inf t => if n = 0 then .nan else .inf (s != t)
  | .fin s n d e, .fin t m c f => .fin (s != t) (n * m) (d * c) (e + f)

/-- Exact quotient, with the special cases of IEEE 754. -/
def Val.div (a b : Val) : Val :=
  match a, b with
  | .nan, _ => .nan
  | _, .nan => .nan
  | .inf _, .inf _ => .nan
  | .inf s, .fin t _ _ _ => .inf (s != t)
  | .fin s _ _ _, .inf t => .fin (s != t) 0 1 0
  | .fin s n d e, .fin t m c f =>
    if m = 0 then (if n = 0 then .nan else .inf (s != t))
    else .fin (s != t) (n * c) (d * m) (e - f)

/-- Product by an exact power of two. -/
def Val.scale2 (k : Int) : Val → Val
  | .fin s n d e => .fin s n d (e + k)
  | v => v

def Val.ofInt (i : Int) : Val := .fin (decide (i < 0)) i.natAbs 1 0
def Val.ofNat (n : Nat) : Val := .fin false n 1 0

/-- `a < b` of two finite or infinite values; zeros of either sign are equal. -/
def Val.lt (a b : Val) : Bool :=
  match a, b with
  | .nan, _ => false
  | _, .nan => false
  | .inf s, .inf t => s && !t
  | .inf s, _ => s
  | _, .inf t => !t
  | .fin s n d e, .fin t m c f =>
    let low := min e f
    decide (signedAt s n e low * (c : Int) < signedAt t m f low * (d : Int))

def Val.le (a b : Val) : Bool := !a.isNan && !b.isNan && !(b.lt a)

/-! ### FP32 operations (R162), on 32-bit patterns -/

def val32 (x : Nat) : Val := decodeFloat fFP32 x

def add32 (a b : Nat) : Nat := arith fFP32 ((val32 a).add (val32 b))
def neg32 (a : Nat) : Nat := a ^^^ 0x80000000
def sub32 (a b : Nat) : Nat := arith fFP32 ((val32 a).add (val32 b).neg)
def mul32 (a b : Nat) : Nat := arith fFP32 ((val32 a).mul (val32 b))
def fma32 (a b c : Nat) : Nat := arith fFP32 (((val32 a).mul (val32 b)).add (val32 c))
def div32 (a b : Nat) : Nat := arith fFP32 ((val32 a).div (val32 b))

/-- Canonical NaN, one and the infinities of FP32 (Table 04-3). -/
def nan32 : Nat := 0x7FC00000
def one32 : Nat := 0x3F800000
def two32 : Nat := 0x40000000
def half32 : Nat := 0x3F000000
def inf32 : Nat := 0x7F800000
def negInf32 : Nat := 0xFF800000
def negZero32 : Nat := 0x80000000

def isNan32 (x : Nat) : Bool := (val32 x).isNan
def isFinite32 (x : Nat) : Bool := bits x 23 8 != 255
def lt32 (a b : Nat) : Bool := (val32 a).lt (val32 b)
def le32 (a b : Nat) : Bool := (val32 a).le (val32 b)
def ofNat32 (n : Nat) : Nat := arith fFP32 (.ofNat n)
def ofInt32 (i : Int) : Nat := arith fFP32 (.ofInt i)

/-- Result of an operation: a NaN becomes the canonical NaN (R156), others pass. -/
def canon32 (x : Nat) : Nat := if isNan32 x then nan32 else x

/-- `MAX` of R216: +0 is greater than −0, any NaN operand gives the canonical NaN. -/
def max32 (a b : Nat) : Nat :=
  if isNan32 a || isNan32 b then nan32
  else if lt32 a b then b
  else if lt32 b a then a
  else if bit a 31 then b else a

/-- `MIN` of R216. -/
def min32 (a b : Nat) : Nat :=
  if isNan32 a || isNan32 b then nan32
  else if lt32 a b then a
  else if lt32 b a then b
  else if bit a 31 then a else b

/-- `floor` of a finite FP32 value. -/
def floor32 (x : Nat) : Int :=
  match val32 x with
  | .fin s n d e =>
    let (t, r, _) := scaleTo n d e 0
    if s then (if r = 0 then -(t : Int) else -(t : Int) - 1) else t
  | _ => 0

/-- IEEE 754 square root of an FP32 value. -/
def sqrt32 (x : Nat) : Nat :=
  match val32 x with
  | .nan => nan32
  | .inf s => if s then nan32 else inf32
  | .fin s n _ e =>
    if n = 0 then x else if s then nan32
    else
      -- widen to an even exponent and 64 fraction bits; the sticky bit keeps the rounding exact
      let e2 := (e - 128) / 2
      let m := n <<< (e - 2 * e2).toNat
      let r := Nat.sqrt m
      arith fFP32 (.fin false (2 * r + (if r * r = m then 0 else 1)) 1 (e2 - 1))

/-- `two_sum` of R176: the rounded sum and its exact error; the error is +0 when the sum is an infinity or NaN. -/
def twoSum (x y : Nat) : Nat × Nat :=
  let s := add32 x y
  if isFinite32 s then
    (s, arith fFP32 (((val32 x).add (val32 y)).add (val32 s).neg))
  else (s, 0)

/-- `two_prod` of R226: the rounded product and the exact error `fma32(d, d, −fl(d × d))`. -/
def twoProd (x y : Nat) : Nat × Nat :=
  let p := mul32 x y
  (p, fma32 x y (neg32 p))

/-! ### Integer destinations (R158, R165, Table 04-4) -/

/-- A value rounded to an integer under `mode`, then saturated to `lo..hi`; NaN gives 0. -/
def convInt (lo hi : Int) (mode : Rnd) (v : Val) : Int × Bool :=
  match v with
  | .nan => (0, false)
  | .inf s => (if s then lo else hi, false)
  | .fin s n d e =>
    let (t, r, c) := scaleTo n d e 0
    let m : Int := ((if roundsUp mode s t r c then t + 1 else t : Nat) : Int)
    let i := if s then -m else m
    if i < lo then (lo, true) else if hi < i then (hi, true) else (i, false)

/-! ### Element formats by code (R154, Table 04-1) -/

/-- Element formats 0 to 10. -/
inductive Fmt where
  | bit | e4m3 | e5m2 | int4 | int8 | uint8 | fp16 | bf16 | fp32 | pair | er24
  deriving DecidableEq, Repr

def Fmt.ofCode : Nat → Option Fmt
  | 0 => some .bit | 1 => some .e4m3 | 2 => some .e5m2 | 3 => some .int4 | 4 => some .int8
  | 5 => some .uint8 | 6 => some .fp16 | 7 => some .bf16 | 8 => some .fp32 | 9 => some .pair
  | 10 => some .er24 | _ => none

/-- Element size in bits. -/
def Fmt.bits : Fmt → Nat
  | .bit => 1 | .e4m3 => 8 | .e5m2 => 8 | .int4 => 4 | .int8 => 8 | .uint8 => 8 | .fp16 => 16
  | .bf16 => 16 | .fp32 => 32 | .pair => 32 | .er24 => 24

def Fmt.float? : Fmt → Option FloatFmt
  | .e4m3 => some fE4M3 | .e5m2 => some fE5M2 | .fp16 => some fFP16 | .bf16 => some fBF16
  | .fp32 => some fFP32 | .er24 => some fER24 | _ => none

def Fmt.isFloat (f : Fmt) : Bool := f.float?.isSome || f == .pair

def Fmt.isInt : Fmt → Bool
  | .int4 => true | .int8 => true | .uint8 => true | _ => false

/-- Two's complement value of the low `n` bits. -/
def signedOf (n x : Nat) : Int := if bit x (n - 1) then (x : Int) - 2 ^ n else x

/-- Exact value of an element pattern (R155, R158, R159: a pair is the exact sum of its halves). -/
def valOf (f : Fmt) (x : Nat) : Val :=
  match f with
  | .bit => .ofNat (x % 2)
  | .int4 => .ofInt (signedOf 4 (x % 16))
  | .int8 => .ofInt (signedOf 8 (x % 256))
  | .uint8 => .ofNat (x % 256)
  | .pair => (decodeFloat fBF16 (bits x 0 16)).add (decodeFloat fBF16 (bits x 16 16))
  | .e4m3 => decodeFloat fE4M3 x
  | .e5m2 => decodeFloat fE5M2 x
  | .fp16 => decodeFloat fFP16 x
  | .bf16 => decodeFloat fBF16 x
  | .fp32 => decodeFloat fFP32 x
  | .er24 => decodeFloat fER24 x

/-- Conversion into a BF16 pair: ignores the mode (R166, Table 04-4). -/
def convPair (v : Val) : Rounded :=
  let hi := convFloat fBF16 .rne v
  match decodeFloat fBF16 hi.pat with
  | .fin s n d e =>
    if n = 0 || hi.sat then hi
    else
      let lo := convFloat fBF16 .rne (v.add (Val.fin s n d e).neg)
      ⟨hi.pat + lo.pat * 2 ^ 16, false⟩
  | _ => hi

/-- Conversion of an exact value into any element format (R164 to R168). -/
def conv (f : Fmt) (mode : Rnd) (v : Val) : Rounded :=
  match f with
  | .pair => convPair v
  | .int4 => let (i, s) := convInt (-8) 7 mode v; ⟨(i % 16).toNat, s⟩
  | .int8 => let (i, s) := convInt (-128) 127 mode v; ⟨(i % 256).toNat, s⟩
  | .uint8 => let (i, s) := convInt 0 255 mode v; ⟨i.toNat, s⟩
  | .bit => ⟨if v.isZero then 0 else 1, false⟩
  | .e4m3 => convFloat fE4M3 mode v
  | .e5m2 => convFloat fE5M2 mode v
  | .fp16 => convFloat fFP16 mode v
  | .bf16 => convFloat fBF16 mode v
  | .fp32 => convFloat fFP32 mode v
  | .er24 => convFloat fER24 mode v

/-- Conversion of an element pattern between formats (R164). -/
def convPat (src dst : Fmt) (mode : Rnd) (x : Nat) : Rounded := conv dst mode (valOf src x)

/-- An element's real value as FP32 under `RNE` (R217: arguments are converted by R164). -/
def toFp32 (f : Fmt) (x : Nat) : Nat := (convPat f .fp32 .rne x).pat

/-- Rounding mode of a code of Table 04-5 without a draw; codes 5 and 6 draw (R171), 7 is invalid. -/
def Rnd.ofCode : Nat → Option Rnd
  | 0 => some .rne | 1 => some .rna | 2 => some .rtz | 3 => some .rup | 4 => some .rdn | _ => none

/-- Whether a rounding code is stochastic (Table 04-5). -/
def rndStochastic (c : Nat) : Bool := c == 5 || c == 6

/-- Rounding mode of a code, with the 64-bit word of the element's draw and the array's `SR_BITS` (R171). -/
def rndOf (code n word : Nat) : Rnd :=
  match Rnd.ofCode code with
  | some m => m
  | none => .sr n (bits word (64 - n) n)

/-- The deterministic mode an intermediate uses: `RND`, or `RNE` when `RND` is stochastic (R250). -/
def rndPlain (code : Nat) : Rnd := (Rnd.ofCode code).getD .rne

end Sys2Proof.Machine
end

