-- ==== Sys2Proof/Machine/Flags.lean ====
section
/-! DEFINITION. Row status words and `ARRAY_ROW_STATUS` (R230, R231), and what a value or a conversion adds to them. -/
namespace Sys2Proof.Machine

/-- Bits of a row status word (Table 06-8). -/
abbrev stScoreRange : Nat := 1
abbrev stEmptyRow : Nat := 2
abbrev stAccSat : Nat := 4
abbrev stNanSeen : Nat := 8
abbrev stStoreSat : Nat := 16
abbrev stScaleLoss : Nat := 32

/-- A condition's bit. -/
def flagIf (b : Bool) (f : Nat) : Nat := if b then f else 0

/-- The union of two status words. -/
def orFlags (a b : Nat) : Nat := a ||| b

/-- What an FP32 value adds: `NAN_SEEN` when it is a NaN. -/
def nanFlag (x : Nat) : Nat := flagIf (isNan32 x) stNanSeen

/-- A row status word is formed (R231). -/
def ArrayState.formRow (x : ArrayState) (w : Nat) : ArrayState :=
  if w = 0 then x else { x with flags := orFlags x.flags w, flaggedRows := min 0xFFFFFFFF (x.flaggedRows + 1) }

/-- The words of several rows are formed. -/
def ArrayState.formRows (x : ArrayState) (l : List Nat) : ArrayState := l.foldl ArrayState.formRow x

/-- `FLAGS` of `ARRAY_ROW_STATUS` gathers a bit that no row's word carries (R277, R308). -/
def ArrayState.setFlags (x : ArrayState) (w : Nat) : ArrayState := { x with flags := orFlags x.flags w }

/-- `ARRAY_ROW_STATUS` as it reads (Table 06-9). -/
def ArrayState.rowStatus (x : ArrayState) : Nat := x.flags + x.flaggedRows * 2 ^ 32

/-- A driver write of `ARRAY_ROW_STATUS` (Table 06-9). -/
def ArrayState.writeRowStatus (x : ArrayState) (w : RegVal) : ArrayState :=
  { x with flags := if w.hasLow then x.flags &&& (63 - w.fld 0 6) else x.flags,
           flaggedRows := if w.hasHigh then w.fld 32 32 else x.flaggedRows }

/-- `ARRAY_RNG_STATUS` as it reads (Table 09-5). -/
def ArrayState.rngStatus (x : ArrayState) : Nat :=
  x.unseeded.toNat + 2 * x.zeroReplaced.toNat + 4 * x.lkLive.toNat + 8 * x.tkSet.toNat + 16 * x.lkPoly + 256 * x.keyPoly

/-- A driver write of `ARRAY_RNG_STATUS` (Table 09-5). -/
def ArrayState.writeRngStatus (x : ArrayState) (w : RegVal) : ArrayState :=
  if w.hasLow then
    { x with unseeded := x.unseeded && !bit w.value.toNat 0, zeroReplaced := x.zeroReplaced && !bit w.value.toNat 1 }
  else x

end Sys2Proof.Machine
end

