-- ==== Sys2Proof/Machine/Operands.lean ====
section
/-! DEFINITION. Instruction words and descriptors of the arrays (03 R111 to R121, 06 R215): their fields, the operand slots
and reserved fields of every opcode, the capture of operands at issue, and how their elements are addressed, read and
written. -/
namespace Sys2Proof.Machine

/-! ## Opcodes (Table 03-2) -/

abbrev opNop : Nat := 0x00
abbrev opHalt : Nat := 0x01
abbrev opFence : Nat := 0x02
abbrev opWake : Nat := 0x03
abbrev opGsig : Nat := 0x04
abbrev opGwait : Nat := 0x05
abbrev opTload : Nat := 0x06
abbrev opDload : Nat := 0x07
abbrev opCtxsave : Nat := 0x08
abbrev opCtxload : Nat := 0x09
abbrev opTrdry : Nat := 0x0A
abbrev opMm : Nat := 0x10
abbrev opMmc : Nat := 0x11
abbrev opMmx : Nat := 0x12
abbrev opConv : Nat := 0x18
abbrev opConvf : Nat := 0x19
abbrev opAttn : Nat := 0x20
abbrev opAttnb : Nat := 0x21
abbrev opPscore : Nat := 0x22
abbrev opKvexp : Nat := 0x23
abbrev opVec : Nat := 0x28
abbrev opRow : Nat := 0x29
abbrev opSfn : Nat := 0x2A
abbrev opSort : Nat := 0x2B
abbrev opRng : Nat := 0x2C
abbrev opPool : Nat := 0x2D
abbrev opResize : Nat := 0x2E
abbrev opCopy : Nat := 0x30

/-- The opcode is in Table 03-2. -/
def opKnown (op : Nat) : Bool :=
  decide (op ≤ 0x0A) || [0x10, 0x11, 0x12, 0x18, 0x19, 0x20, 0x21, 0x22, 0x23, 0x28, 0x29, 0x2A, 0x2B, 0x2C, 0x2D, 0x2E,
    0x30].contains op

/-- A compute or copy instruction. -/
def opCompute (op : Nat) : Bool := decide (0x10 ≤ op) && opKnown op

/-- The opcodes of class compute in Table 03-2: a program's first takes the Trellis window (R197). -/
def opTakesWindow (op : Nat) : Bool := opCompute op && op != opCopy

/-- The opcode of an instruction word. -/
def opOf (w : Nat) : Nat := w % 256
/-- `MOD` of an instruction word, its bit `i`. -/
def modBit (w i : Nat) : Bool := bit w (8 + i)
/-- `RND` of an instruction word. -/
def rndOfWord (w : Nat) : Nat := fieldAt w 1 4 3
/-- `START_TILE` of an instruction word. -/
def startTile (w : Nat) : Nat := fieldAt w 0x1C 0 32
/-- The 16-bit field at a byte offset. -/
def half16 (w off : Nat) : Nat := fieldAt w off 0 16
/-- `USE` of the slot at a byte offset. -/
def slotUse (w off : Nat) : Bool := bit (half16 w off) 15
/-- `INDEX` of the slot at a byte offset. -/
def slotIndex (w off : Nat) : Nat := half16 w off % 4096

/-! ## Descriptors -/

def dType (w : Nat) : Nat := bits w 0 4
def tLayout (w : Nat) : Nat := bits w 4 4
def tFmtCode (w : Nat) : Nat := fieldAt w 1 0 4
def tFmt (w : Nat) : Fmt := (Fmt.ofCode (tFmtCode w)).getD .bit
def tRank (w : Nat) : Nat := fieldAt w 1 4 3
def tDyn (w i : Nat) : Bool := bit (fieldAt w 2 0 4) i
def tHandle (w : Nat) : Nat := fieldAt w 4 0 24
def tOffset (w : Nat) : Nat := fieldAt w 8 0 48
def tDim (w i : Nat) : Nat := fieldAt w (0x10 + 4 * i) 0 32
def tStride (w i : Nat) : Nat := if i = 0 then 0 else fieldAt w (0x18 + 8 * i) 0 48
def tDynOff (w : Nat) : Nat := fieldAt w 0x38 0 23
def tScaleIdx (w : Nat) : Nat := fieldAt w 0x3C 0 12
def tScaleEn (w : Nat) : Bool := bit w (8 * 0x3C + 15)

def sGran (w : Nat) : Nat := bits w 4 4
def sFmt (w : Nat) : Fmt := (Fmt.ofCode (fieldAt w 1 0 4)).getD .fp32
def sTensor (w : Nat) : Nat := fieldAt w 4 0 32
def sRowHandle (w : Nat) : Nat := fieldAt w 8 0 24
def sRowOffset (w : Nat) : Nat := fieldAt w 0x10 0 48
def sChHandle (w : Nat) : Nat := fieldAt w 0x18 0 24
def sChOffset (w : Nat) : Nat := fieldAt w 0x20 0 48
/-- The scale has a row vector. -/
def sHasRow (w : Nat) : Bool := sGran w == 1 || sGran w == 3
/-- The scale has a channel vector. -/
def sHasCh (w : Nat) : Bool := sGran w == 2 || sGran w == 3

def cLen (w : Nat) : Nat := fieldAt w 1 0 4
def cCompat (w : Nat) : Bool := bit w 12
def cQrnd (w : Nat) : Nat := fieldAt w 2 0 3
def cVkind (w j : Nat) : Nat := fieldAt w 3 (2 * j) 2
def cK (w j : Nat) : Nat := fieldAt w (4 + 4 * j) 0 32
def cOp (w i : Nat) : Nat := fieldAt w (0x1C + 4 * i) 0 6
def cArg (w i : Nat) : Nat := fieldAt w (0x1C + 4 * i) 8 4
def cArg2 (w i : Nat) : Nat := fieldAt w (0x1C + 4 * i) 12 4

/-- `ROUNDFMT`, whose `ARG` is a format and not an argument code. -/
abbrev chRoundfmt : Nat := 0x0D

/-- Some operation below `LEN` has an argument of this code. -/
def cUses (w code : Nat) : Bool :=
  (List.range (min 9 (cLen w))).any fun i =>
    (decide (cOp w i ≠ chRoundfmt) && decide (cArg w i = code)) || decide (cArg2 w i = code)

/-! ## Operand slots -/

/-- The operand slots of an opcode: byte offset, the `DTYPE` it must name, whether it is required (Tables 03-10a to 03-17).
`ROW` and `ATTN` require more by their own rules. -/
def slotSpec (op : Nat) : List (Nat × Nat × Bool) :=
  if op = opTload then [(8, 1, false)]
  else if op = opMm then
    [(8, 1, true), (0xA, 1, true), (0xC, 1, true), (0xE, 1, false), (0x10, 1, false), (0x12, 3, false), (0x14, 3, false),
     (0x16, 1, false), (0x18, 1, false), (0x1A, 1, false)]
  else if op = opMmc then
    [(8, 1, true), (0xA, 1, true), (0xC, 1, true), (0xE, 1, true), (0x10, 1, true), (0x12, 1, true), (0x14, 3, false),
     (0x16, 1, false)]
  else if op = opMmx then
    [(8, 1, true), (0xA, 1, true), (0xC, 1, true), (0xE, 1, false), (0x10, 1, false), (0x12, 1, false), (0x14, 3, false),
     (0x16, 1, false)]
  else if op = opConv then
    [(8, 1, true), (0xA, 1, true), (0xC, 1, true), (0xE, 1, false), (0x10, 3, false), (0x12, 3, false), (0x14, 1, false)]
  else if op = opConvf then [(8, 1, true), (0xA, 1, true)]
  else if op = opAttn then
    [(8, 1, true), (0xA, 1, true), (0xC, 1, false), (0xE, 1, false), (0x10, 1, false), (0x12, 1, false), (0x14, 3, false)]
  else if op = opAttnb then
    [(8, 1, true), (0xA, 1, true), (0xC, 1, true), (0xE, 1, true), (0x10, 1, true), (0x12, 1, true), (0x14, 1, true),
     (0x16, 1, true), (0x18, 1, true), (0x1A, 1, true)]
  else if op = opPscore then [(8, 1, true), (0xA, 1, true)]
  else if op = opVec then
    [(8, 1, true), (0xA, 1, false), (0xC, 1, false), (0xE, 1, true), (0x10, 3, false), (0x12, 1, false)]
  else if op = opRow then
    [(8, 1, true), (0xA, 1, false), (0xC, 1, false), (0xE, 1, false), (0x10, 3, false), (0x12, 1, false)]
  else if op = opSfn then [(8, 1, true), (0xA, 1, true)]
  else if op = opSort then [(8, 1, true), (0xA, 1, false), (0xC, 1, false), (0xE, 1, false)]
  else if op = opRng then [(8, 1, true)]
  else if op = opPool ∨ op = opResize ∨ op = opCopy then [(8, 1, true), (0xA, 1, true)]
  else []

/-- Reserved 16-bit cells from one offset to another. -/
def rsvCells (lo hi : Nat) : List (Nat × Nat × Nat) := (List.range ((hi - lo) / 2 + 1)).map fun i => (lo + 2 * i, 0, 16)

/-- Reserved fields of an opcode outside its slots: byte offset, lowest bit, width (Tables 03-7 and 03-10a to 03-17). -/
def rsvSpec (op : Nat) : List (Nat × Nat × Nat) :=
  let h : Nat × Nat × Nat := (4, 18, 14)
  if op = opNop ∨ op = opHalt then [(1, 0, 248)]
  else if op = opFence then [(1, 2, 6), (2, 0, 240)]
  else if op = opWake then [(1, 0, 8), (4, 0, 32), (0x10, 0, 128)]
  else if op = opGsig then [(1, 2, 6), (4, 17, 15), (8, 14, 18), (0xC, 0, 160)]
  else if op = opGwait then [(1, 1, 7), (2, 0, 16), (4, 17, 15), (0xC, 24, 8), (0x10, 0, 128)]
  else if op = opTload then [(1, 4, 4), (2, 0, 48), (0xA, 0, 176)]
  else if op = opDload then [(1, 0, 8), (2, 12, 4), (4, 13, 19), (8, 24, 40), (0x10, 48, 16), (0x18, 0, 64)]
  else if op = opCtxsave ∨ op = opCtxload then [(1, 1, 7), (2, 0, 48), (8, 24, 40), (0x10, 48, 16), (0x18, 0, 64)]
  else if op = opTrdry then [(1, 0, 56), (8, 23, 9), (0xC, 23, 9), (0x14, 0, 96)]
  else if op = opMm ∨ op = opConv then [(1, 7, 1), h]
  else if op = opMmc then [(1, 3, 1), (1, 7, 1), h] ++ rsvCells 0x18 0x1A
  else if op = opMmx then [(1, 7, 1), h] ++ rsvCells 0x18 0x1A
  else if op = opConvf then [(1, 1, 3), (1, 7, 1), h, (0xC, 23, 9), (0x10, 4, 12), (0x12, 0, 80)]
  else if op = opAttn then [(1, 7, 1), h, (0x16, 14, 2), (0x1A, 8, 8)]
  else if op = opAttnb then [(1, 1, 2), (1, 7, 1), h]
  else if op = opPscore then [(1, 1, 3), (1, 7, 1), h, (0xC, 14, 2), (0xE, 8, 8)] ++ rsvCells 0x12 0x1A ++ [(0x1C, 0, 32)]
  else if op = opKvexp then [(1, 1, 7), h, (8, 14, 2), (0xA, 12, 4), (0xE, 14, 2), (0x1C, 0, 32)]
  else if op = opVec then [(1, 1, 3), (1, 7, 1), h] ++ rsvCells 0x14 0x1A ++ [(0x1C, 0, 32)]
  else if op = opRow then [(1, 2, 2), (1, 7, 1), h, (0x14, 8, 8)] ++ rsvCells 0x16 0x1A ++ [(0x1C, 0, 32)]
  else if op = opSfn then [(1, 7, 1), h] ++ rsvCells 0x0C 0x1A ++ [(0x1C, 0, 32)]
  else if op = opSort then [(1, 2, 6), h] ++ rsvCells 0x14 0x1A ++ [(0x1C, 0, 32)]
  else if op = opRng then [(1, 7, 1), h, (0xA, 4, 12), (0xC, 0, 16), (0xE, 0, 16), (0x1C, 0, 32)]
  else if op = opPool then [(1, 2, 2), (1, 7, 1), h] ++ rsvCells 0x10 0x1A ++ [(0x1C, 0, 32)]
  else if op = opResize then [(1, 2, 2), (1, 7, 1), h] ++ rsvCells 0x0C 0x1A ++ [(0x1C, 0, 32)]
  else if op = opCopy then [(1, 3, 1), (1, 7, 1), h, (0xC, 14, 2), (0x12, 0, 112)]
  else []

/-- The lowest byte offset among the reserved fields that are not zero (R112, R114). -/
def rsvFault (op w : Nat) : Option Nat :=
  let all : List (Nat × Nat × Nat) := rsvSpec op ++ (slotSpec op).map fun e => (e.1, 12, 3)
  let l := all.filter fun f => decide (fieldAt w f.1 f.2.1 f.2.2 ≠ 0)
  match l with
  | [] => none
  | f :: l => some (l.foldl (fun m e => min m e.1) f.1)

/-- A slot that names an operand: its place (log 18), the byte offset that a record gives for it, its layer in a `CONVF`, its
entry and the `DTYPE` it must name. -/
structure Slot where
  id : Nat
  field : Nat
  layer : Nat
  index : Nat
  kind : Nat
  deriving DecidableEq, Repr

/-- The place of a slot in a layer record of a `CONVF`. -/
def layerSlot (l off : Nat) : Nat := 0x100 * (l + 1) + off
/-- The place of a vector slot of a chain named at place `parent`. -/
def chainSlot (parent j : Nat) : Nat := 0x10000 * (parent + 1) + 0x14 + 2 * j

/-- The operands an instruction word names, in slot order. -/
def wordSlots (op w : Nat) : List Slot :=
  (slotSpec op).filterMap fun e =>
    if slotUse w e.1 then some { id := e.1, field := e.1, layer := 0, index := slotIndex w e.1, kind := e.2.1 } else none

/-- The operands a layer record names: `W`, `BIAS`, `EPI` (Table 08-2). -/
def layerSlots (l w : Nat) : List Slot :=
  [(0, 1), (2, 1), (4, 3)].filterMap fun e =>
    if slotUse w e.1 then
      some { id := layerSlot l e.1, field := 0x0C, layer := l, index := slotIndex w e.1, kind := e.2 }
    else none

/-- The operands of the layers of a `CONVF`. -/
def layersSlots : Nat → List Nat → List Slot
  | _, [] => []
  | l, w :: ws => layerSlots l w ++ layersSlots (l + 1) ws

/-- The vector slots a chain names. -/
def chainSlots (sl : Slot) (w : Nat) : List Slot :=
  (List.range 4).filterMap fun j =>
    if slotUse w (0x14 + 2 * j) then
      some { id := chainSlot sl.id j, field := sl.field, layer := sl.layer, index := slotIndex w (0x14 + 2 * j), kind := 1 }
    else none

/-! ## Capture (R120, R124, R125) -/

/-- The entry at an index of array `a`'s descriptor table. -/
def State.desc (s : State) (a i : Nat) : DescEntry := mapGet (fun _ => {}) i (s.array a).descs

/-- The address of the shape word of dimension `i`. -/
def shapeAddr (a w i : Nat) : Nat := lsAddr a (tDynOff w + 4 * i)

/-- The run-time extent of dimension `i` (R120). -/
def State.extent (s : State) (a w i : Nat) : Nat := if tDyn w i then s.rdNat (shapeAddr a w i) 4 else tDim w i

/-- An operand as the instruction captures it. -/
def State.captureOp (s : State) (a : Nat) (sl : Slot) : Operand :=
  let w := (s.desc a sl.index).word
  let sc := (s.desc a (tScaleIdx w)).word
  { slot := sl.id, index := sl.index, word := w, ext := tabulate 4 (s.extent a w), base := s.addrOf (tHandle w) (tOffset w),
    scale := if tScaleEn w then
        some { word := sc, rowAddr := s.addrOf (sRowHandle sc) (sRowOffset sc), chAddr := s.addrOf (sChHandle sc) (sChOffset sc) }
      else none }

def Operand.e (o : Operand) (i : Nat) : Nat := o.ext.getD i 1
def Operand.fmt (o : Operand) : Fmt := tFmt o.word
def Operand.layout (o : Operand) : Nat := tLayout o.word
def Operand.stride (o : Operand) (i : Nat) : Nat := tStride o.word i
/-- The number of rows: index tuples (i1, i2, i3). -/
def Operand.rows (o : Operand) : Nat := o.e 1 * o.e 2 * o.e 3
/-- The number of elements. -/
def Operand.size (o : Operand) : Nat := o.e 0 * o.rows
/-- The granularity of its scale; none without one. -/
def Operand.gran (o : Operand) : Option Nat := o.scale.map fun c => sGran c.word
/-- It carries a scale. -/
def Operand.scaled (o : Operand) : Bool := o.scale.isSome

/-- The byte offset that a record gives for a slot's place. -/
def slotField (id : Nat) : Nat :=
  let p := if id < 0x10000 then id else id / 0x10000 - 1
  if p < 0x100 then p else 0x0C
/-- The layer of a slot's place. -/
def slotLayer (id : Nat) : Nat :=
  let p := if id < 0x10000 then id else id / 0x10000 - 1
  if p < 0x100 then 0 else p / 0x100 - 1

def Flight.op? (f : Flight) (slot : Nat) : Option Operand := f.ops.find? fun o => decide (o.slot = slot)
def Flight.hasOp (f : Flight) (slot : Nat) : Bool := (f.op? slot).isSome
/-- An operand that stands for one an instruction does not name; its extents are 1. -/
def noOperand : Operand := { slot := 0xFFFF, index := 0, word := 0, ext := [], base := 0, scale := none }
def Flight.op (f : Flight) (slot : Nat) : Operand := (f.op? slot).getD noOperand
/-- The chain at a place. -/
def Flight.chain? (f : Flight) (slot : Nat) : Option Nat := mapFind slot f.chains
def Flight.code (f : Flight) : Nat := opOf f.word
def Flight.rnd (f : Flight) : Nat := rndOfWord f.word
/-- The layer record `l` of a `CONVF`. -/
def Flight.layer (f : Flight) (l : Nat) : Nat := f.layers.getD l 0

/-! ## Elements (R118, R188, R288, R158) -/

/-- Element size of a format in bytes, rounded up. -/
def Fmt.bytes (f : Fmt) : Nat := ceilDiv f.bits 8

/-- The bit address of an element: eight times its byte address, and its place in the byte. -/
def Operand.bitPos (o : Operand) (i0 i1 i2 i3 : Nat) : Nat :=
  match o.layout with
  | 1 => 8 * (o.base + i3 * o.stride 3 + i0 / 32 * o.stride 2 + i2 * o.stride 1) + (32 * i1 + i0 % 32) * o.fmt.bits
  | 2 => 8 * (o.base + i0 * o.stride 1) + (i1 + i0 % 128) * o.fmt.bits
  | _ => 8 * (o.base + i3 * o.stride 3 + i2 * o.stride 2 + i1 * o.stride 1) + i0 * o.fmt.bits

/-- The bytes from OFFSET to the end of the last byte required (R148, R188, R288). -/
def Operand.span (o : Operand) : Nat :=
  let last := (o.e 1 - 1) * o.stride 1 + (o.e 2 - 1) * o.stride 2 + (o.e 3 - 1) * o.stride 3
  match o.layout with
  | 1 =>
    let blocks := ceilDiv (o.e 0) 32
    let tail := max ((blocks - 1) * o.stride 2 + (o.e 0 - 32 * (blocks - 1)) * o.fmt.bytes)
      (if 1 < blocks then (blocks - 2) * o.stride 2 + 32 * o.fmt.bytes else 0)
    (o.e 3 - 1) * o.stride 3 + (o.e 2 - 1) * o.stride 1 + 32 * (o.e 1 - 1) * o.fmt.bytes + tail
  | 2 => (o.e 0 - 1) * o.stride 1 + (o.e 1 + (o.e 0 - 1) % 128) * o.fmt.bytes
  | _ => last + ceilDiv (o.e 0 * o.fmt.bits) 8

/-- The pattern of an element. -/
def State.rdElem (s : State) (o : Operand) (i0 i1 i2 i3 : Nat) : Nat :=
  let p := o.bitPos i0 i1 i2 i3
  bits (s.rdNat (p / 8) o.fmt.bytes) (p % 8) o.fmt.bits

/-- The bytes an element lies in: first address and count. -/
def Operand.place (o : Operand) (i0 i1 i2 i3 : Nat) : Nat × Nat := (o.bitPos i0 i1 i2 i3 / 8, o.fmt.bytes)

/-- The bytes of an element pattern of a format of whole bytes. -/
def Operand.bytesOf (o : Operand) (i0 i1 i2 i3 pat : Nat) : List (Nat × Byte) :=
  placed (o.bitPos i0 i1 i2 i3 / 8) (leBytes o.fmt.bytes pat)

/-- The index of a row (R121). -/
def Operand.rowIndex (o : Operand) (i1 i2 i3 : Nat) : Nat := i1 + o.e 1 * (i2 + o.e 2 * i3)

/-- The row tuple of a row index. -/
def Operand.rowTuple (o : Operand) (r : Nat) : Nat × Nat × Nat :=
  (r % o.e 1, r / o.e 1 % o.e 2, r / (o.e 1 * o.e 2))

/-- Bit `i` of a mask: a `BITS` tensor's row bit. -/
def State.maskBit (s : State) (o : Option Operand) (i : Nat) : Bool :=
  match o with
  | none => true
  | some m => s.rdElem m i 0 0 0 == 1

/-! ## Scales (R180, R182) -/

/-- An element of a scale vector, as its bits. -/
def State.scaleBits (s : State) (c : ScaleUse) (addr i : Nat) : Nat :=
  s.rdNat (addr + i * (sFmt c.word).bytes) (sFmt c.word).bytes

/-- The factor of an element at row index `r` and channel `ch`, in FP32 (R180). -/
def State.factorAt (s : State) (c : ScaleUse) (r ch : Nat) : Nat :=
  let g := sTensor c.word
  let g := if sHasRow c.word then mul32 g (toFp32 (sFmt c.word) (s.scaleBits c c.rowAddr r)) else g
  if sHasCh c.word then mul32 g (toFp32 (sFmt c.word) (s.scaleBits c c.chAddr ch)) else g

/-- The factor of an operand's element; 1 without a scale. -/
def State.factor (s : State) (o : Operand) (r ch : Nat) : Nat :=
  match o.scale with
  | none => one32
  | some c => s.factorAt c r ch

/-- The real value of an element (R180). -/
def State.realVal (s : State) (o : Operand) (i0 i1 i2 i3 : Nat) : Val :=
  let v := valOf o.fmt (s.rdElem o i0 i1 i2 i3)
  match o.scale with
  | none => v
  | some c => v.mul (val32 (s.factorAt c (o.rowIndex i1 i2 i3) i0))

/-- The real value of an element, converted to FP32 under `RNE` (R164, R217; log 19). -/
def State.real32 (s : State) (o : Operand) (i0 i1 i2 i3 : Nat) : Nat :=
  (conv .fp32 .rne (s.realVal o i0 i1 i2 i3)).pat

/-- A scale vector element that faults (R182). -/
def badScale (x : Nat) : Bool := !isFinite32 x || bit x 31 || decide (x = 0)

/-- The first bad or poisoned element of a scale vector among the given indices. -/
def State.scaleFaultIn (s : State) (o : Operand) (c : ScaleUse) (addr handle : Nat) (idx : List Nat) : Option FaultInfo :=
  idx.findSome? fun i =>
    match s.poisonIn (addr + i * (sFmt c.word).bytes) (sFmt c.word).bytes with
    | some p => some { code := cMemPoison, desc := some (tScaleIdx o.word), field := slotField o.slot, d1 := p }
    | none =>
      let b := s.scaleBits c addr i
      if badScale (toFp32 (sFmt c.word) b) then
        some { code := cScaleValue, desc := some (tScaleIdx o.word), field := slotField o.slot, d0 := i, d1 := handle, d2 := b }
      else none

/-- R182 on the scale vectors of an operand, over the given rows and channels. -/
def State.scaleFault (s : State) (o : Operand) (rows chans : List Nat) : Option FaultInfo :=
  match o.scale with
  | none => none
  | some c =>
    let r := if sHasRow c.word then s.scaleFaultIn o c c.rowAddr (sRowHandle c.word) rows else none
    if r.isSome then r else if sHasCh c.word then s.scaleFaultIn o c c.chAddr (sChHandle c.word) chans else none

/-- The first poisoned unit among the bytes of the elements listed, as a compute step's fault (Table 02-4). -/
def State.poisonAmong (s : State) (o : Operand) (l : List (Nat × Nat)) : Option FaultInfo :=
  if s.mem.poison = [] && s.mem.lostStripes = [] && !(decide (regionOf o.base = .ice)) then none
  else l.findSome? fun e => (s.poisonIn e.1 e.2).map fun p =>
    { code := cMemPoison, desc := some o.index, field := slotField o.slot, d1 := p }

/-! ## Session records of an instruction -/

/-- The session fields of `ATTN`, `PSCORE` and `KVEXP`: index, `GEN` and `LAYER` (Table 03-15). -/
def sessionFields (w : Nat) : Nat × Nat × Nat :=
  let op := opOf w
  if op = opAttn then (fieldAt w 0x16 0 14, fieldAt w 0x1A 0 8, half16 w 0x18)
  else if op = opPscore then (fieldAt w 0xC 0 14, fieldAt w 0xE 0 8, half16 w 0x10)
  else (fieldAt w 8 0 14, fieldAt w 0xA 0 8, half16 w 0xC)

/-- The instruction names a session. -/
def opSession (op : Nat) : Bool := op == opAttn || op == opPscore || op == opKvexp

end Sys2Proof.Machine
end

