-- ==== Sys2Proof/Machine/Issue.lean ====
section
/-! DEFINITION. The issue checks of Table 03-10, orders 1 to 11 (03 R112 to R148, and each opcode's own chapter), as one
function of the state and the instruction word: what an instruction captures, or the first fault. -/
namespace Sys2Proof.Machine

/-- The first fault of a list of checks. -/
def firstFault (l : List (Option FaultInfo)) : Option FaultInfo := l.findSome? id

/-- A fault about a field of the instruction. -/
def fieldFault (code field layer : Nat) : FaultInfo := { code := code, field := field, d2 := layer }

/-! ## Order 3: fields and required slots -/

/-- The fields of an opcode that are out of range, as byte offset and condition (R114 and the opcode's chapter). -/
def fieldChecks (op w : Nat) : List (Nat × Bool) :=
  let inc := half16 w 2
  let en := bit w (8 * 4 + 17)
  let rnd := rndOfWord w
  let hdr : List (Nat × Bool) :=
    [(2, en == decide (inc = 0)), (4, !en && decide (fieldAt w 4 0 17 ≠ 0))]
  let rndBad : List (Nat × Bool) := [(1, decide (rnd = 7))]
  let pos (x : Nat) : Bool := isFinite32 x && !bit x 31 && decide (x ≠ 0)
  let nib (off k : Nat) : Nat := fieldAt w off (4 * k) 4
  if opCompute op = false then []
  else if op = opConv then
    hdr ++ rndBad ++ [(1, decide (fieldAt w 1 2 2 = 3)), (0x16, (List.range 4).any fun k => decide (nib 0x16 k = 0)),
      (0x1A, decide (half16 w 0x1A = 0))]
  else if op = opConvf then
    -- a list whose last record passes the end of the local store is out of range too (log 121)
    hdr ++ rndBad ++ [(0x0C, decide (fieldAt w 0xC 0 23 % 64 ≠ 0 ∨ lsBytes < fieldAt w 0xC 0 23 + 64 * nib 0x10 0)),
      (0x0C, decide (nib 0x10 0 = 0 ∨ 8 < nib 0x10 0))]
  else if op = opAttn then
    hdr ++ rndBad ++ [(0x0C, modBit w 1 && !slotUse w 0xC), (0x0E, modBit w 1 && !slotUse w 0xE),
      (0x10, modBit w 2 != slotUse w 0x10), (0x1C, !pos (fieldAt w 0x1C 0 32))]
  else if op = opPscore then hdr ++ [(1, decide (rnd ≠ 0))]
  else if op = opKvexp then hdr
  else if op = opRow then
    let fn := fieldAt w 0x14 0 8
    hdr ++ rndBad ++ [(1, modBit w 1 && decide (fn ≠ 2 ∧ fn ≠ 3)),
      (0x0A, if fn = 0 then slotUse w 0xA else !slotUse w 0xA), (0x0C, decide (fn = 1) && !slotUse w 0xC),
      (0x0E, decide (fn = 0) && !slotUse w 0xE),
      (0x10, if fn = 0 ∨ fn = 3 then slotUse w 0x10 else decide (fn = 1 ∨ fn = 2) && !slotUse w 0x10),
      (0x14, decide (5 < fn))]
  else if op = opSfn then hdr ++ rndBad ++ [(1, modBit w 0 && decide (fieldAt w 1 1 3 ≠ 1 ∧ fieldAt w 1 1 3 ≠ 2))]
  else if op = opSort then
    let k := fieldAt w 0x10 0 32
    hdr ++ [(0x0E, slotUse w 0xA && !slotUse w 0xE), (0x10, modBit w 1 == decide (k = 0))]
  else if op = opRng then
    let dist := fieldAt w 1 0 2
    let tk := modBit w 2
    let rs := modBit w 3
    let h := half16 w 0x18
    let v := half16 w 0x1A
    let poly := decide (fieldAt w 0xA 0 4 ≠ 0)
    hdr ++ [(1, decide (5 ≤ rnd) || (decide (dist = 0) && decide (rnd ≠ 0))),
      (0x0A, poly && !(tk && rs)), (0x10, !rs && decide (fieldAt w 0x10 0 64 ≠ 0)),
      (0x18, if tk && rs then decide (h = 0 ∨ v = 0 ∨ 65536 < h * v) else decide (h ≠ 0 ∨ v ≠ 0))]
  else if op = opPool then
    hdr ++ rndBad ++ [(1, decide (fieldAt w 1 0 2 = 3)), (0x0C, (List.range 4).any fun k => decide (nib 0xC k = 0)),
      (0x0E, decide (nib 0xC 0 ≤ nib 0xE 0 ∨ nib 0xC 0 ≤ nib 0xE 1 ∨ nib 0xC 1 ≤ nib 0xE 2 ∨ nib 0xC 1 ≤ nib 0xE 3))]
  else if op = opCopy then
    let skew := modBit w 1
    hdr ++ [(1, decide (5 ≤ rnd)), (0x0C, !modBit w 2 && decide (fieldAt w 0xC 0 14 ≠ 0)),
      (0x0E, !skew && decide (half16 w 0xE ≠ 0)), (0x10, skew == decide (half16 w 0x10 = 0))]
  else hdr ++ rndBad

/-- Slots with `USE` = 0 that hold an index, or that are required (R112). -/
def slotChecks (op w : Nat) : List (Nat × Bool) :=
  (slotSpec op).map fun e => (e.1, !slotUse w e.1 && (e.2.2 || decide (slotIndex w e.1 ≠ 0)))

/-- The lowest field that is out of range. -/
def lowestBad (l : List (Nat × Bool)) : Option Nat :=
  l.foldl (fun m e => if e.2 then some (match m with | some x => min x e.1 | none => e.1) else m) none

/-- The slot that argument code 9, 10 or 11 names in a chain of this opcode: 0 names one the opcode does not have, none when
the opcode has no such input at all (Table 06-4, R219). -/
def argSlot (op code : Nat) : Option Nat :=
  if code = 9 then
    if op = opMm then some 0xE else if op = opMmx then some 0x12 else if op = opConv then some 0x14
    else if op = opVec then some 0xA else if op = opMmc then some 0 else none
  else if code = 10 then (if op = opVec then some 0xC else none)
  else if op = opRow then some 0xC else none

/-- A chain of the instruction names an operand that is absent (R219). -/
def chainAbsent (op w chain : Nat) : Bool :=
  [9, 10, 11].any (fun c => cUses chain c && match argSlot op c with
    | some sl => !slotUse w sl
    | none => false)
  || (List.range 4).any fun j => cUses chain (5 + j) && !slotUse chain (0x14 + 2 * j)

/-! ## `CONVF` layer records (Table 08-2, R298) -/

/-- The reserved fields of a layer record that are not zero. -/
def layerReserved (w : Nat) : Bool :=
  decide (fieldAt w 0xC 2 6 ≠ 0 ∨ fieldAt w 0xE 3 5 ≠ 0 ∨ fieldAt w 0xF 0 8 ≠ 0 ∨ bits w 192 320 ≠ 0)
  || [0, 2, 4].any (fun o => decide (fieldAt w o 12 3 ≠ 0))

/-- Formats of `C` in Table 03-12. -/
def fmtC (c : Nat) : Bool := [1, 2, 4, 5, 6, 7, 8, 9].contains c

/-- A field of a layer record is out of range (R298). -/
def layerRange (l n w : Nat) : Bool :=
  let scale := fieldAt w 0x10 0 32
  let last := decide (l + 1 = n)
  (List.range 4).any (fun k => decide (fieldAt w 6 (4 * k) 4 = 0)) || decide (half16 w 0xA = 0)
  || decide (fieldAt w 0xC 0 2 = 3) || decide (5 ≤ fieldAt w 0xE 0 3)
  || decide (l ≠ 0 ∧ fieldAt w 0x14 0 32 ≠ 0)
  || [0, 2, 4].any (fun o => !slotUse w o && decide (slotIndex w o ≠ 0)) || !slotUse w 0
  || (if last then decide (fieldAt w 0xD 4 4 ≠ 0 ∨ fieldAt w 0xE 0 3 ≠ 0 ∨ scale ≠ 0)
      else !fmtC (fieldAt w 0xD 4 4) || decide (fieldAt w 0xD 4 4 = 9)
        || (decide (scale ≠ 0) && (!isFinite32 scale || bit scale 31)))

/-- The layer records of a `CONVF`, read at issue; none where `LIST_OFF` or `LAYERS` is out of range. -/
def State.readLayers (s : State) (a w : Nat) : List Nat :=
  let n := fieldAt w 0x10 0 4
  let off := fieldAt w 0xC 0 23
  if opOf w = opConvf ∧ 1 ≤ n ∧ n ≤ 8 ∧ off % 64 = 0 ∧ off + 64 * n ≤ lsBytes then
    tabulate n fun l => s.rdNat (lsAddr a (off + 64 * l)) 64
  else []

/-- The layer index and record of the first layer that a condition holds of. -/
def findLayer (p : Nat → Nat → Bool) : Nat → List Nat → Option Nat
  | _, [] => none
  | l, w :: ws => if p l w then some l else findLayer p (l + 1) ws

/-! ## Orders 4 to 8 -/

/-- The chains an instruction names whose entries are chains, by the place of their slot. -/
def State.namedChains (s : State) (a : Nat) (sl : List Slot) : List (Nat × Nat) :=
  sl.filterMap fun e =>
    let w := (s.desc a e.index).word
    if e.kind = 3 ∧ dType w = 3 then some (e.id, w) else none

/-- Every slot an instruction names: its own, its layers', then its chains' (R146). -/
def State.allSlots (s : State) (a w : Nat) (layers : List Nat) : List Slot :=
  let own := wordSlots (opOf w) w ++ layersSlots 0 layers
  own ++ own.flatMap fun e =>
    let c := (s.desc a e.index).word
    if e.kind = 3 ∧ dType c = 3 then chainSlots e c else []

/-- A fault about a slot's entry. -/
def slotFault (sl : Slot) (code index d0 : Nat) : FaultInfo :=
  { code := code, desc := some index, field := sl.field, d0 := d0, d2 := sl.layer }

/-- Orders 4 to 6 over the slots. -/
def State.entryChecks (s : State) (a : Nat) (sls : List Slot) : Option FaultInfo :=
  let scaleOf (sl : Slot) : Option Nat :=
    let w := (s.desc a sl.index).word
    if sl.kind = 1 ∧ tScaleEn w then some (tScaleIdx w) else none
  -- Table 03-20: `PROMOTION_ABORTED` gives the handle alone, `OBJ_DAMAGED` no detail; R298 adds its layer at its own orders only
  let marked (sl : Slot) (i : Nat) : Option FaultInfo :=
    (s.desc a i).mark.map fun c =>
      { slotFault sl c.1 i (if c.1 = cPromotionAborted then c.2 else 0) with d2 := 0 }
  firstFault [
    sls.findSome? fun sl => if dType (s.desc a sl.index).word = 0 then some (slotFault sl cDescEmpty sl.index 0) else none,
    sls.findSome? fun sl =>
      if dType (s.desc a sl.index).word ≠ sl.kind then some (slotFault sl cDescType sl.index sl.index)
      else match scaleOf sl with
        | some i => if dType (s.desc a i).word ≠ 2 then some (slotFault sl cDescType i i) else none
        | none => none,
    sls.findSome? fun sl => match marked sl sl.index with
      | some f => some f
      | none => match scaleOf sl with
        | some i => marked sl i
        | none => none]

/-- Order 7 on an operand: a poisoned shape word, or an extent above its bound. -/
def State.boundCheck (s : State) (a : Nat) (o : Operand) : Option FaultInfo :=
  (List.range 4).findSome? fun i =>
    if tDyn o.word i then
      match s.poisonIn (shapeAddr a o.word i) 4 with
      | some p => some { code := cMemPoison, desc := some o.index, field := slotField o.slot, d1 := p }
      | none => if tDim o.word i < o.e i then
          some { code := cShapeBound, desc := some o.index, field := slotField o.slot, d0 := i, d1 := o.e i,
                 d2 := tDim o.word i }
        else none
    else none

/-! ## Order 9: sessions and shapes -/

/-- The session's fault at issue (Table 07-6). Which page `DETAIL2` of a `SESSION_RANGE` names where the layer is out of range, or
several pages are, the spec does not say (DESIGN CHOICE, log 152). -/
def State.sessionFault (s : State) (w : Nat) : Option FaultInfo :=
  let f := sessionFields w
  let r := s.session f.1
  let op := opOf w
  let np := ceilDiv r.len 64
  let cand := (np - r.window) - r.sink
  let first := fieldAt w 0x10 0 32
  let count := fieldAt w 0x14 0 32
  let mk (code d2 : Nat) : FaultInfo := { code := code, d0 := f.1, d1 := f.2.2, d2 := d2 }
  if r.valid = false then some { code := cSessionInvalid, d0 := f.1, d1 := f.2.1, d2 := r.gen }
  else if r.gen ≠ f.2.1 then some { code := cSessionStale, d0 := f.1, d1 := f.2.1, d2 := r.gen }
  else if r.layers ≤ f.2.2 then some (mk cSessionRange (if op = opPscore then cand else if op = opKvexp then first else 0))
  else if op = opPscore ∧ r.belv = 0 then some (mk cBelvedereAbsent 0)
  else if op = opPscore ∧ 65536 < cand then some (mk cSessionRange cand)
  else if op = opKvexp ∧ np < first + count then some (mk cSessionRange (max first np))
  else if op = opKvexp then
    let entry := r.pmBase + f.2.2 * r.pagesPerLayer
    ((List.range count).find? fun i => !(s.page (entry + first + i)).valid).map fun i => mk cPageUnmapped (first + i)
  else none

/-- A comparison of a run-time extent: slot, dimension, the extent it must equal. -/
abbrev ShapeEq := Nat × Nat × Nat

/-- The four extents of an operand as requirements on another. -/
def sameShape (slot : Nat) (o : Operand) : List ShapeEq := tabulate 4 fun i => (slot, i, o.e i)

/-- Output extent of a window (R289); none where the numerator is below 0. -/
def convOut (n u padLo padHi dil k stride : Nat) : Option Nat :=
  if u * n + padLo + padHi < dil * (k - 1) + 1 then none
  else some ((u * n + padLo + padHi - dil * (k - 1) - 1) / stride + 1)

/-- The upsampling factor of a layer record. -/
def layerUp (w : Nat) : Nat := 2 ^ fieldAt w 0xC 0 2

/-- A convolution's geometry: strides, dilations and pads in the order H, W, top, bottom, left, right, groups, upsampling. -/
structure Geom where
  strideH : Nat
  strideW : Nat
  dilH : Nat
  dilW : Nat
  padT : Nat
  padB : Nat
  padL : Nat
  padR : Nat
  groups : Nat
  up : Nat
  deriving DecidableEq, Repr

/-- Geometry from the two nibble fields at byte offsets `a` and `b` and `GROUPS` at `g`. -/
def geomAt (w a b g up : Nat) : Geom :=
  { strideH := fieldAt w a 0 4, strideW := fieldAt w a 4 4, dilH := fieldAt w a 8 4, dilW := fieldAt w a 12 4,
    padT := fieldAt w b 0 4, padB := fieldAt w b 4 4, padL := fieldAt w b 8 4, padR := fieldAt w b 12 4,
    groups := half16 w g, up := up }

/-- The extents (c, x, y, n) of a layer's input or output. -/
abbrev Ext4 := Nat × Nat × Nat × Nat

def Operand.ext4 (o : Operand) : Ext4 := (o.e 0, o.e 1, o.e 2, o.e 3)

/-- The output width of a layer (R289). -/
def Geom.outX (g : Geom) (x wt : Ext4) : Option Nat := convOut x.2.1 g.up g.padL g.padR g.dilW wt.2.2.1 g.strideW

/-- The output extents of a layer with weights `wt` (Cout, Cg, KW, KH) (R289). -/
def Geom.out (g : Geom) (x wt : Ext4) : Option Ext4 :=
  match g.outX x wt, convOut x.2.2.1 g.up g.padT g.padB g.dilH wt.2.2.2 g.strideH with
  | some ow, some oh => some (wt.1, ow, oh, x.2.2.2)
  | _, _ => none

/-- The requirements of R289 on a layer: none where the output extents do not exist. `xs` names the input's slot for a
record, `ws` the weights'. -/
def convEqs (g : Geom) (xs ws : Nat) (wt : Ext4) : List ShapeEq :=
  [(xs, 0, g.groups * wt.2.1), (ws, 0, wt.1 / g.groups * g.groups)]

/-- A window of R289 whose numerator is below 0: the dimension of `X` that fails, width before height; no extent is compared, and
the record gives 0 (log 122). -/
def noWindow (g : Geom) (x wt : Ext4) : List ShapeEq := [(8, if (g.outX x wt).isNone then 1 else 2, 0)]

/-- Requirements on a slot that holds a tensor of extents `t`. -/
def ext4Eqs (slot : Nat) (t : Ext4) : List ShapeEq := [(slot, 0, t.1), (slot, 1, t.2.1), (slot, 2, t.2.2.1), (slot, 3, t.2.2.2)]

/-- The extents of each layer's input in turn and the output of the last; none where one does not exist (R289, R297). -/
def Flight.layerExts (f : Flight) : Nat → List Nat → Ext4 → Option (List Ext4)
  | _, [], x => some [x]
  | l, w :: ws, x =>
    match (geomAt w 6 8 0xA (layerUp w)).out x (f.op (layerSlot l 0)).ext4 with
    | some y => (f.layerExts (l + 1) ws y).map fun t => x :: t
    | none => none

/-- Geometry of a `CONV`. -/
def convGeom (w : Nat) : Geom := geomAt w 0x16 0x18 0x1A 1

/-- A failed comparison as a fault: the dimension, its extent and the extent it was compared with. -/
def Flight.shapeFault (f : Flight) (slot dim want : Nat) : FaultInfo :=
  let o := f.op slot
  { code := cShapeMismatch, desc := some o.index, field := slotField slot, d0 := dim, d1 := o.e dim,
    d2 := if slotField slot = 0x0C ∧ f.code = opConvf then slotLayer slot else want }

/-- The first comparison that fails among the operands the instruction names. -/
def Flight.shapeCheck (f : Flight) (l : List ShapeEq) : Option FaultInfo :=
  l.findSome? fun e => match f.op? e.1 with
    | none => none
    | some o => if o.e e.2.1 = e.2.2 then none else some (f.shapeFault e.1 e.2.1 e.2.2)

/-- The channel extent, row count and extents that a chain's vector slots must have (Tables 06-5, 06-6; R272, R292). -/
def Flight.chainShape (f : Flight) (slot : Nat) : Nat × Nat × Ext4 :=
  let of (t : Ext4) : Nat × Nat × Ext4 := (t.1, t.2.1 * t.2.2.1 * t.2.2.2, t)
  let op := f.code
  if op = opMm ∧ slot = 0x12 then of (f.op 8).ext4
  else if op = opMmc then of (f.op 0x10).ext4
  else if op = opMm ∨ op = opMmx then of (f.op 0xC).ext4
  else if op = opConv then of (f.op (if slot = 0x10 then 8 else 0xC)).ext4
  else if op = opConvf then of (((f.layerExts 0 f.layers (f.op 8).ext4).getD []).getD (slotLayer slot + 1) (0, 0, 0, 0))
  else if op = opAttn then of (f.op 0xA).ext4
  else of (f.op 8).ext4

/-- Comparisons of a chain's vector slots. -/
def Flight.chainEqs (f : Flight) (slot chain : Nat) : List ShapeEq :=
  let sh := f.chainShape slot
  (List.range 4).flatMap fun j =>
    let v := chainSlot slot j
    match cVkind chain j with
    | 0 => [(v, 0, sh.1), (v, 1, 1), (v, 2, 1), (v, 3, 1)]
    | 1 => [(v, 0, sh.2.1), (v, 1, 1), (v, 2, 1), (v, 3, 1)]
    | 2 => [(v, 0, 8), (v, 1, sh.2.1), (v, 2, 1), (v, 3, 1)]
    | _ => ext4Eqs v sh.2.2

/-- The rank that an operand shape table gives a slot. -/
def tableRank (op slot : Nat) : Nat :=
  if op = opMm then (if slot = 0x10 ∨ slot = 0x16 then 1 else 2)
  else if op = opMmx ∨ op = opMmc then (if slot = 0x16 ∨ (op = opMmx ∧ slot = 0x10) then 1 else 2)
  else if op = opConv then (if slot = 0xE then 1 else 4)
  else if op = opConvf then (if 0x100 ≤ slot ∧ slot % 0x100 = 2 then 1 else 4)
  else if op = opAttnb then (if slot = 0x1A then 1 else 2)
  else if op = opAttn ∨ op = opPscore ∨ op = opSort then 2
  else if (op = opVec ∨ op = opRow) ∧ slot = 0x12 then 1
  else if op = opRow ∧ (slot = 0xC ∨ slot = 0xE) then 2
  else 4

/-- Every dimension that its table does not list has extent 1 (R133). -/
def Flight.extraDims (f : Flight) : List ShapeEq :=
  f.ops.flatMap fun o =>
    if 0x10000 ≤ o.slot then []
    else ((List.range 4).filter fun i => decide (tableRank f.code o.slot ≤ i)).map fun i => (o.slot, i, 1)

/-- Comparisons of an opcode's operands, in slot order. -/
def Flight.opEqs (f : Flight) (r : Session) : List ShapeEq :=
  let op := f.code
  let w := f.word
  let x := f.op 8
  let k := x.e 0
  let m := x.e 1
  let mat (slot c r : Nat) : List ShapeEq := [(slot, 0, c), (slot, 1, r)]
  if op = opMm then
    let n := (f.op 0xA).e 0
    [(0xA, 1, k)] ++ mat 0xC n m ++ mat 0xE n m ++ [(0x10, 0, n), (0x16, 0, m)] ++ mat 0x18 8 m ++ mat 0x1A n m
  else if op = opMmc then
    let n := (f.op 0xC).e 0
    mat 0xA k m ++ [(0xC, 1, k)] ++ mat 0xE n k ++ mat 0x10 n m ++ mat 0x12 n m ++ [(0x16, 0, m)]
  else if op = opMmx then
    let n := (f.op 0xA).e 0
    [(0xA, 1, k)] ++ mat 0xC n m ++ mat 0xE n m ++ [(0x10, 0, n)] ++ mat 0x12 n m ++ [(0x16, 0, m)]
  else if op = opConv then
    let wt := (f.op 0xA).ext4
    match (convGeom w).out x.ext4 wt with
    | none => convEqs (convGeom w) 8 0xA wt ++ noWindow (convGeom w) x.ext4 wt
    | some y => convEqs (convGeom w) 8 0xA wt ++ ext4Eqs 0xC y ++ [(0xE, 0, y.1)] ++ ext4Eqs 0x14 y
  else if op = opAttn then
    let dv := (f.op 0xA).e 0
    let dh := k - r.rope
    let walkDims : List ShapeEq :=
      if modBit w 1 then mat 0xC r.latent dh ++ mat 0xE dv r.latent
      else (if f.hasOp 0xC then mat 0xC dh r.latent else [(8, 0, r.latent + r.rope)])
        ++ (if f.hasOp 0xE then mat 0xE dv r.latent else [(0xA, 0, r.latent)])
    (if k ≤ r.rope then [(8, 0, r.rope + 1)] else []) ++ [(0xA, 1, m)] ++ walkDims
      ++ [(0x10, 0, 2)] ++ (if 4096 < (f.op 0x10).e 1 then [(0x10, 1, 4096)] else []) ++ mat 0x12 2 m
  else if op = opAttnb then
    let n := (f.op 0xA).e 1
    let dv := (f.op 0xC).e 0
    [(0xA, 0, k), (0xC, 1, n)] ++ mat 0xE dv m ++ mat 0x10 dv m ++ mat 0x12 2 m ++ mat 0x14 k m ++ mat 0x16 k n
      ++ mat 0x18 dv n ++ [(0x1A, 0, m)]
  else if op = opPscore then
    [(8, 0, 64)] ++ (if 256 < m then [(8, 1, 256)] else []) ++ [(0xA, 0, 2)]
      ++ (if 4096 < (f.op 0xA).e 1 then [(0xA, 1, 4096)] else [])
  else if op = opVec then sameShape 0xA x ++ sameShape 0xC x ++ sameShape 0xE x ++ [(0x12, 0, x.rows)]
  else if op = opRow then
    let one := decide (4 ≤ fieldAt w 0x14 0 8)
    [(0xA, 0, if one then 1 else k), (0xA, 1, x.e 1), (0xA, 2, x.e 2), (0xA, 3, x.e 3)] ++ mat 0xC 8 x.rows
      ++ mat 0xE 8 x.rows ++ [(0x12, 0, x.rows)]
  else if op = opSfn then sameShape 0xA x
  else if op = opSort then
    let z := if modBit w 1 then fieldAt w 0x10 0 32 else k
    (if 65536 < k then [(8, 0, 65536)] else []) ++ mat 0xA k m ++ mat 0xC z m ++ mat 0xE z m
  else if op = opPool then
    let g : Geom := { geomAt w 0xC 0xE 0 1 with strideH := fieldAt w 0xC 8 4, strideW := fieldAt w 0xC 12 4, dilH := 1, dilW := 1 }
    match g.out x.ext4 (k, 1, fieldAt w 0xC 4 4, fieldAt w 0xC 0 4) with
    | none => noWindow g x.ext4 (k, 1, fieldAt w 0xC 4 4, fieldAt w 0xC 0 4)
    | some y => ext4Eqs 0xA y
  else if op = opResize then [(0xA, 0, k), (0xA, 3, x.e 3)]
  else if op = opCopy then
    if modBit w 0 then [(0xA, 0, m), (0xA, 1, k), (0xA, 2, x.e 2), (0xA, 3, x.e 3)] else sameShape 0xA x
  else []

/-- Comparisons of the layers of a `CONVF` and of its output (R298), by layer. -/
def Flight.layerCheck (f : Flight) : Option FaultInfo :=
  let rec go (l : Nat) (ws : List Nat) (x : Ext4) : Option FaultInfo :=
    match ws with
    | [] => (f.shapeCheck (ext4Eqs 0xA x)).map fun e => { e with field := 0x0C, d2 := l - 1 }
    | w :: ws =>
      let g := geomAt w 6 8 0xA (layerUp w)
      let wt := (f.op (layerSlot l 0)).ext4
      let bad (dim : Nat) : FaultInfo := { f.shapeFault (layerSlot l 0) dim 0 with d2 := l }
      if x.1 ≠ g.groups * wt.2.1 then some (bad 1)
      else if wt.1 % g.groups ≠ 0 then some (bad 0)
      else match g.out x wt with
        | none => some (bad (if (g.outX x wt).isNone then 2 else 3))
        | some y =>
          match f.shapeCheck [(layerSlot l 2, 0, wt.1)] with
          | some e => some e
          | none => go (l + 1) ws y
  go 0 f.layers (f.op 8).ext4

/-- Order 9 but for the session: the opcode's comparisons, its chains', then the dimensions its table does not list. -/
def Flight.shapes (f : Flight) (r : Session) : Option FaultInfo :=
  let ls := match f.session with
    | some (_, r) => r.len
    | none => 0
  let causal := (f.code == opAttn || f.code == opAttnb) && modBit f.word 3
  let keys := if f.code = opAttn then ls else (f.op 0xA).e 1
  firstFault [
    f.shapeCheck (f.opEqs r),
    if f.code = opConvf then f.layerCheck else none,
    if causal && decide (keys < (f.op 8).e 1) then some (f.shapeFault 8 1 keys) else none,
    f.shapeCheck (f.chains.flatMap fun c => f.chainEqs c.1 c.2),
    f.shapeCheck f.extraDims]

end Sys2Proof.Machine
end

