-- ==== Sys2Proof/Machine/Checks.lean ====
section
/-! DEFINITION. Orders 10 and 11 of Table 03-10 and the whole of orders 1 to 11: the format combinations, layouts, scales and
chain arguments that each opcode accepts (R134, R176, R177, R181, R187, R206, R219, R232 to R235, R267, R276, R279, R287,
R292, R298, R307, R321, R139), and the access checks of operands and scale vectors (R146). -/
namespace Sys2Proof.Machine

/-! ## Order 10 -/

/-- A format fault about an operand. -/
def Flight.fmtFault (f : Flight) (slot : Nat) : FaultInfo :=
  { code := cInsnFormat, desc := (f.op? slot).map (·.index), field := slotField slot, d2 := slotLayer slot }

/-- A format fault that the layer list of a `CONVF` shows about its input: `FIELD_OFF` names `LIST_OFF`, the layer is 0 (R298). -/
def Flight.listFault (f : Flight) : FaultInfo := { f.fmtFault 8 with field := 0x0C }

/-- The first condition that holds, as a format fault about its slot. -/
def Flight.fmtChecks (f : Flight) (l : List (Nat × Bool)) : Option FaultInfo :=
  l.findSome? fun e => if e.2 then some (f.fmtFault e.1) else none

/-- The named operand's condition; false when it is absent. -/
def Flight.ofOp (f : Flight) (slot : Nat) (p : Operand → Bool) : Bool :=
  match f.op? slot with
  | some o => p o
  | none => false

/-- The format code of a named operand. -/
def Flight.fc (f : Flight) (slot : Nat) : Nat := tFmtCode (f.op slot).word

/-- A pair of Table 03-12. -/
def pairOk (a b : Nat) : Bool :=
  ((a == 1 || a == 2) && (b == 1 || b == 2)) || (a == 4 && b == 4) || ((a == 4 || a == 1 || a == 2) && b == 3)
    || (a == 7 && b == 7) || (a == 6 && b == 6)

/-- Both operands of a product are integer formats (04, integer mode). -/
def intPair (a b : Nat) : Bool := a == 4 && (b == 4 || b == 3)

/-- A scale whose granularity is not among those allowed. -/
def badGran (ok : List Nat) (o : Operand) : Bool :=
  match o.gran with
  | none => false
  | some g => !ok.contains g

/-- Layout other than those allowed. -/
def badLayout (ok : List Nat) (o : Operand) : Bool := !ok.contains o.layout

/-- The argument codes 9 to 12 that a chain's context permits (Table 06-6, R272, R292). -/
def argsOk (op slot fn : Nat) : List Nat :=
  if op = opMm ∧ slot = 0x12 then []
  else if op = opMm ∨ op = opMmc ∨ op = opMmx then [9, 12]
  else if op = opConv then (if slot = 0x12 then [9] else [])
  else if op = opVec then [9, 10]
  else if op = opRow then (if fn = 1 then [11] else if fn = 2 then [12] else [])
  else []

/-- Chain arguments outside their context, and vector slots of statistics that are not FP32 (R219, Table 06-5). -/
def Flight.chainFmt (f : Flight) : Option FaultInfo :=
  f.chains.findSome? fun c =>
    let ok := argsOk f.code c.1 (fieldAt f.word 0x14 0 8)
    if [9, 10, 11, 12].any fun k => cUses c.2 k && !ok.contains k then
      some { code := cInsnFormat, field := slotField c.1, d2 := slotLayer c.1 }
    else (List.range 4).findSome? fun j =>
      let v := chainSlot c.1 j
      if f.ofOp v (fun o => (cVkind c.2 j == 2 && tFmtCode o.word != 8) || o.layout == 2) then some (f.fmtFault v) else none

/-- The slots at which a `FEED` tensor is accepted (R188). -/
def feedSlots (op : Nat) : List Nat :=
  if op = opMm ∨ op = opMmx then [8] else if op = opMmc then [8, 0xA] else []

/-- Checks that the three matrix products share, given their slots (R134, R176, R177, R181, R187). -/
def Flight.matFmt (f : Flight) (as bs cs : List Nat) (res bias clo stat : Nat) : List (Nat × Bool) :=
  let accum := modBit f.word 1
  let comp := f.code ≠ opMmc ∧ modBit f.word 2
  let has := f.hasOp
  let c0 := cs.headD 0
  let pair := f.fc c0
  let chains := f.chains.any fun c => decide (c.1 < 0x100)
  as.map (fun a => (a, f.ofOp a (badLayout [0, 2]) || f.ofOp a (badGran [0, 1])))
  ++ bs.map (fun b => (b, f.ofOp b (badLayout [0]) || f.ofOp b (badGran [0, 2])))
  ++ cs.map (fun c => (c, f.ofOp c (badLayout [0]) || !fmtC (f.fc c)))
  ++ [(res, f.ofOp res (badLayout [0])), (bias, f.ofOp bias (·.scaled)), (0x16, f.ofOp 0x16 (badLayout [3]) || f.ofOp 0x16 (·.scaled))]
  ++ (if clo = 0 then [] else [(clo, f.ofOp clo (badLayout [0]) || f.ofOp clo (·.scaled))])
  ++ (if stat = 0 then [] else
      [(stat, f.ofOp stat (·.scaled) || f.ofOp stat (fun o => tFmtCode o.word != 8) || (modBit f.word 3 != has stat))])
  ++ cs.map (fun c => (c, accum && (f.fc c != 8 && f.fc c != 9)))
  ++ [(c0, accum && ((as ++ bs ++ cs).any fun o => f.ofOp o (·.scaled)))]
  ++ (if f.code = opMmc then [] else
      [(c0, decide comp && !((pair == 9 && !has clo) || (pair == 8 && has clo && f.fc clo == 8))),
       (clo, decide (¬comp) && has clo),
       (c0, decide comp && (chains || f.ops.any (·.scaled) || (f.code == opMm && modBit f.word 3)))])

/-- Order 10 for each opcode, as conditions on its slots. A channel-granular scale on the input of a `ROW` function that reduces
dimension 0 is accepted: DESIGN CHOICE (log 130). -/
def Flight.opFmt (f : Flight) (r : Session) : List (Nat × Bool) :=
  let op := f.code
  let w := f.word
  let fc := f.fc
  let has := f.hasOp
  let scaledAny (l : List Nat) : List (Nat × Bool) := l.map fun o => (o, f.ofOp o (·.scaled))
  let is (l : List Nat) (slot : Nat) : Nat × Bool := (slot, has slot && !l.contains (fc slot))
  if op = opMm then
    [(0xA, !pairOk (fc 8) (fc 0xA))] ++ f.matFmt [8] [0xA] [0xC] 0xE 0x10 0x1A 0x18
      ++ [(0xC, modBit w 2 && intPair (fc 8) (fc 0xA))]
  else if op = opMmc then
    ([(8, 0xC), (8, 0xE), (0xA, 0xC), (0xA, 0xE)].map fun p => (p.2, !pairOk (fc p.1) (fc p.2) || fc p.2 == 3))
      ++ f.matFmt [8, 0xA] [0xC, 0xE] [0x10, 0x12] 0 0 0 0 ++ [(8, modBit w 2 && intPair (fc 8) (fc 0xC))]
  else if op = opMmx then
    [is [8] 8, is [8] 0xA, is [8, 9] 0xC] ++ f.matFmt [8] [0xA] [0xC] 0x12 0x10 0xE 0
  else if op = opConv then
    [(0xA, !pairOk (fc 8) (fc 0xA)), (0xC, !fmtC (fc 0xC)), (8, f.ofOp 8 (badLayout [0, 1])),
     (0xA, f.ofOp 0xA (badLayout [0])), (0xC, f.ofOp 0xC (badLayout [0, 1])), (0x14, f.ofOp 0x14 (badLayout [0, 1])),
     (8, f.ofOp 8 (badGran [0])), (0xA, f.ofOp 0xA (badGran [0, 2]))] ++ scaledAny [0xE, 0x14]
      ++ [(0xC, modBit w 1 && (!(fc 0xC == 8 || fc 0xC == 9) || [8, 0xA, 0xC].any fun o => f.ofOp o (·.scaled)))]
  else if op = opConvf then
    [(8, f.ofOp 8 (badLayout [0, 1])), (0xA, f.ofOp 0xA (badLayout [0, 1])), (0xA, !fmtC (fc 0xA))]
      ++ (List.range f.layers.length).flatMap fun l =>
        let wt := layerSlot l 0
        [(wt, !pairOk (fieldAt (f.layer l) 0xD 0 4) (fc wt)), (wt, f.ofOp wt (badLayout [0])),
         (wt, f.ofOp wt (badGran [0, 2])), (layerSlot l 2, f.ofOp (layerSlot l 2) (·.scaled))]
  else if op = opAttn then
    let qf := if r.fmt = 6 then 6 else 7
    [is [qf] 8, is [r.fmt] 0xC, is [r.fmt] 0xE, (0xC, f.ofOp 0xC (badLayout [0])), (0xE, f.ofOp 0xE (badLayout [0])),
     (8, (modBit w 1 || !has 0xC) && decide (r.fmt ≠ qf)), (0xA, !fmtC (fc 0xA) || fc 0xA == 9), is [8] 0x10, is [8] 0x12]
      ++ scaledAny [8, 0xC, 0xE, 0x10, 0x12]
  else if op = opAttnb then
    [is [6, 7] 8] ++ ([0xA, 0xC, 0xE, 0x10].map fun s => is [fc 8] s) ++ [is [8] 0x12] ++ ([0x14, 0x16, 0x18].map (is [6, 7, 8]))
      ++ [(0x1A, f.ofOp 0x1A (badLayout [3]))] ++ scaledAny [8, 0xA, 0xC, 0xE, 0x10, 0x12, 0x1A]
  else if op = opPscore then [is [7] 8, is [8] 0xA] ++ scaledAny [8, 0xA]
  else if op = opVec then [(0x12, f.ofOp 0x12 (badLayout [3]))] ++ scaledAny [0x12]
  else if op = opRow then [(0x12, f.ofOp 0x12 (badLayout [3])), is [8] 0xC, is [8] 0xE] ++ scaledAny [0xC, 0xE, 0x12]
  else if op = opSort then
    [is [8, 10] 8, is [fc 8] 0xC, is [8, 9] 0xA, is [8, 9] 0xE] ++ scaledAny [8, 0xA, 0xC, 0xE]
  else if op = opRng then
    let dist := fieldAt w 1 0 2
    [(8, f.ofOp 8 (badLayout [0, 1])), (8, decide (dist = 0) && (!([1, 2, 4, 5, 6, 7, 8].contains (fc 8)) || f.ofOp 8 (·.scaled))),
     (8, decide (dist ≠ 0) && (!fmtC (fc 8) || fc 8 == 9))]
  else if op = opPool ∨ op = opResize then [(8, f.ofOp 8 (badLayout [0, 1])), (0xA, f.ofOp 0xA (badLayout [0, 1]))]
  else if op = opCopy then
    [(8, f.ofOp 8 (·.scaled) || f.ofOp 8 (badLayout [0])), (0xA, f.ofOp 0xA (·.scaled) || f.ofOp 0xA (badLayout [0])),
     (8, modBit w 0 && (fc 8 == 3 || fc 0xA == 3))]
  else []

/-- Order 10. -/
def Flight.formats (f : Flight) (r : Session) : Option FaultInfo :=
  firstFault [
    if f.code = opConvf ∧ (fieldAt (f.layer 0) 0xD 0 4 ≠ f.fc 8 ∨ f.ofOp 8 (badGran [0])) then some f.listFault else none,
    f.ops.findSome? fun o => if o.layout = 2 ∧ ¬(feedSlots f.code).contains o.slot then some (f.fmtFault o.slot) else none,
    f.fmtChecks (f.opFmt r),
    f.chainFmt]

/-- `UPK` and `UPV` of an `ATTN` lie in its array's own local store, outside the Trellis window (R267; log 120). -/
def Flight.upStore (f : Flight) (a : Nat) : Option FaultInfo :=
  let w0 := lsAddr a (f.winBase * 65536)
  if f.code ≠ opAttn then none
  else f.fmtChecks ([0xC, 0xE].map fun sl => (sl, f.ofOp sl fun o =>
    decide (o.base < lsAddr a 0 ∨ lsAddr a 0 + lsBytes < o.base + o.span)
      || (decide (o.base < w0 + f.winSize * 65536) && decide (w0 < o.base + o.span))))

/-! ## Order 11 -/

/-- The slots an opcode writes. -/
def outSlots (op : Nat) : List Nat :=
  if op = opMm then [0xC, 0x18, 0x1A] else if op = opMmc then [0x10, 0x12] else if op = opMmx then [0xC, 0xE]
  else if op = opConv then [0xC] else if op = opConvf then [0xA] else if op = opAttn then [0xA, 0x12]
  else if op = opAttnb then [0x14, 0x16, 0x18] else if op = opPscore then [0xA] else if op = opVec then [0xE]
  else if op = opRow then [0xA, 0xE] else if op = opSfn then [0xA] else if op = opSort then [0xC, 0xE]
  else if op = opRng then [8] else if op = opPool ∨ op = opResize ∨ op = opCopy then [0xA] else []

/-- R62, R64 and R86 on an operand, then on its scale vectors (log 20). The bytes that a skewed `COPY` moves on past R148's span of
`DST` are not checked: DESIGN CHOICE (log 128). -/
def State.accessOp (s : State) (f : Flight) (o : Operand) : Option FaultInfo :=
  let wr := (outSlots f.code).contains o.slot
  let remote := f.code == opCopy && o.slot == 0xA && modBit f.word 2
  let chk (h off n : Nat) (write : Bool) (idx : Nat) : Option FaultInfo :=
    match s.checkAccess h off n write with
    | .ok _ => none
    | .error e => some { e with desc := some idx, field := slotField o.slot }
  if remote then none else
    firstFault [
      chk (tHandle o.word) (tOffset o.word) o.span wr o.index,
      match o.scale with
      | none => none
      | some c => firstFault [
          if sHasRow c.word then chk (sRowHandle c.word) (sRowOffset c.word) (o.rows * (sFmt c.word).bytes) false (tScaleIdx o.word)
          else none,
          if sHasCh c.word then chk (sChHandle c.word) (sChOffset c.word) (o.e 0 * (sFmt c.word).bytes) false (tScaleIdx o.word)
          else none]]

/-- Order 11 over the operands in slot order (R146). -/
def State.accesses (s : State) (f : Flight) : Option FaultInfo := f.ops.findSome? (s.accessOp f)

/-! ## Orders 1 to 8 -/

/-- The first poisoned unit of a control structure in the array's own local store (Table 02-4). -/
def State.lsPoison (s : State) (a off n field : Nat) : Option FaultInfo :=
  (s.poisonIn (lsAddr a off) n).map fun p => { code := cMemPoison, field := field, d1 := p }

/-- What an instruction captures at issue, before any check. -/
def State.capture (s : State) (a place addr w : Nat) : Flight :=
  let layers := s.readLayers a w
  let slots := s.allSlots a w layers
  let x := s.array a
  { place := place, addr := addr, word := w, noop := false,
    ops := (slots.filter fun sl => decide (sl.kind = 1)).map (s.captureOp a),
    chains := s.namedChains a slots, layers := layers, engine := 0, winBase := x.winBase, winSize := x.winSize, sr := x.sr,
    session := none, copyDone := 0, computeDone := 0, storeDone := 0, tile := 0, loaded := false, posted := false,
    rows := [], drawn := 0 }

/-- Orders 1 to 3 of a compute or copy instruction; the list of a `CONVF` is read first (R136). -/
def State.fieldOrders (s : State) (a w : Nat) (f : Flight) : Option FaultInfo :=
  let op := opOf w
  let n := f.layers.length
  firstFault [
    if n = 0 then none else s.lsPoison a (fieldAt w 0xC 0 23) (64 * n) 0x0C,
    (rsvFault op w).map fun o => fieldFault cInsnReserved o 0,
    (findLayer (fun _ r => layerReserved r) 0 f.layers).map fun l => fieldFault cInsnReserved 0x0C l,
    (lowestBad (fieldChecks op w ++ slotChecks op w)).map fun o => fieldFault cInsnOperand o 0,
    (findLayer (fun l r => layerRange l n r) 0 f.layers).map fun l => fieldFault cInsnOperand 0x0C l,
    f.chains.findSome? fun c =>
      if chainAbsent op w c.2 then some (fieldFault cInsnOperand (slotField c.1) (slotLayer c.1)) else none]

/-- Order 8: a run-time extent of 0 (R147); `PAGE_COUNT` 0 of a `KVEXP` (R282). -/
def Flight.zeroExtent (f : Flight) : Bool :=
  f.ops.any (fun o => o.ext.any fun e => decide (e = 0)) || (f.code == opKvexp && decide (fieldAt f.word 0x14 0 32 = 0))

end Sys2Proof.Machine
end

