-- ==== Sys2Proof/Machine/Trellis.lean ====
section
/-! DEFINITION. The Trellis (05 R195 to R207, 08 R291 to R304): the tile-choice rules, T2 steps and the rows of each
instruction that has them, and order 12 of Table 03-10. -/
namespace Sys2Proof.Machine

/-- A row of a Trellis but for its duration (Table 05-7). `tile`: the output tile that a store row completes. -/
structure TRow where
  kind : Nat
  part : Nat
  half : Nat
  step : Nat
  m0 : Nat
  n0 : Nat
  k0 : Nat
  mExt : Nat
  nExt : Nat
  kExt : Nat
  tile : Nat
  deriving DecidableEq, Repr

/-- The unit that runs a row: copy, compute or store (R203, R303). -/
def TRow.unit (r : TRow) : TUnit :=
  if r.kind ≤ 3 ∨ r.kind = 6 ∨ r.kind = 7 then .copy else if r.kind = 5 ∨ r.kind = 9 then .store else .compute

/-! ## The tile-choice rule (R200, R201) -/

/-- The parameters of R200; sizes in half-bytes, so that INT4 is exact. -/
structure TileParams where
  m : Nat
  n : Nat
  k : Nat
  pa : Nat
  pb : Nat
  sa2 : Nat
  sb2 : Nat
  in2 : Nat
  cap : Nat
  half : Nat
  deriving DecidableEq, Repr

/-- The row pitch in the window. -/
def tilePitch (mt sa2 : Nat) : Nat :=
  let p := roundUp ((mt + 127) * sa2 / 2) 64
  if p / 64 % 2 = 0 then p + 64 else p

def TileParams.perK (t : TileParams) (mt nt : Nat) : Nat := t.pa * tilePitch mt t.sa2 + t.pb * nt * t.sb2 / 2
def TileParams.fixed (t : TileParams) (mt nt : Nat) : Nat := mt * nt * t.in2 / 2

def TileParams.fitK (t : TileParams) (mt nt : Nat) : Nat :=
  if t.half ≤ t.fixed mt nt then 0
  else min (roundUp t.k 128) (roundDown ((t.half - t.fixed mt nt) / t.perK mt nt) 128)

/-- The best of the four widths: rows, columns and cost. -/
def TileParams.best (t : TileParams) : Nat × Nat :=
  let mr := roundUp t.m 16
  let nr := roundUp t.n 128
  let kr := roundUp t.k 128
  let r := [128, 256, 512, 1024].foldl (fun (b : Option (Nat × Nat × Nat)) nt =>
    if nr < nt ∧ 128 < nt then b
    else
      let mt := min mr (t.cap / nt)
      let cost := t.pa * t.sa2 * mr * kr * ceilDiv nr nt + t.pb * t.sb2 * nr * kr * ceilDiv mr mt
      match b with
      | none => some (mt, nt, cost)
      | some (_, _, c) => if cost < c then some (mt, nt, cost) else b) none
  match r with
  | some (mt, nt, _) => (mt, nt)
  | none => (16, 128)

/-- The tiles shrink until they fit; the bytes of the smallest tile when none does. -/
def TileParams.shrink (t : TileParams) : Nat → Nat → Nat → Except Nat (Nat × Nat × Nat)
  | 0, _, _ => .error (t.fixed 16 128 + 128 * t.perK 16 128)
  | fuel + 1, mt, nt =>
    let kt := t.fitK mt nt
    if 128 ≤ kt then .ok (mt, nt, kt)
    else if 16 < mt then t.shrink fuel (roundUp (mt / 2) 16) nt
    else if 128 < nt then t.shrink fuel mt (nt / 2)
    else .error (t.fixed 16 128 + 128 * t.perK 16 128)

def TileParams.choose (t : TileParams) : Except Nat (Nat × Nat × Nat) := t.shrink 32 t.best.1 t.best.2

/-! ## Matrix products and CONV on the cells as tile grids -/

/-- Element size of a named operand in half-bytes; 0 when absent. -/
def Flight.size2 (f : Flight) (slot : Nat) : Nat := if f.hasOp slot then (f.op slot).fmt.bits / 4 else 0

/-- The passes of Table 05-11, the parts of A and B, and the accumulator sets of Table 05-2. -/
structure Form where
  pa : Nat
  pb : Nat
  sets : Nat
  cap : Nat
  passes : Nat
  deriving DecidableEq, Repr

def Flight.form (f : Flight) : Form :=
  let w := f.word
  if f.code = opMmc then
    if modBit w 2 then { pa := 3, pb := 3, sets := 4, cap := 32768, passes := 3 }
    else { pa := 2, pb := 2, sets := 2, cap := 65536, passes := 4 }
  else
    let comp := (f.code = opMm ∨ f.code = opMmx) ∧ modBit w 2
    let p := if f.code = opMmx then (if modBit w 3 then 3 else 2) else 1
    { pa := p, pb := p, sets := if comp then 2 else 1, cap := if comp then 65536 else 131072,
      passes := if f.code = opMmx then (if modBit w 3 then 6 else 3) else 1 }

/-- The convolution of a layer on the cells (R291, R293): group sets of `b` groups. -/
structure ConvPlan where
  b : Nat
  kt : Nat
  go : Nat
  cg : Nat
  taps : Nat
  groups : Nat
  cout : Nat
  rows : Nat
  deriving DecidableEq, Repr

/-- The partition of R291 for a layer with input `x`, weights `wt` (Cout, Cg, KW, KH) and output `y`. -/
def convPlan (g : Geom) (wt y : Ext4) : ConvPlan :=
  let go := wt.1 / g.groups
  let big := max wt.2.1 go
  let b := if g.groups = 1 ∨ 64 < big then 1 else 128 / big
  { b := b, kt := 128 / b, go := go, cg := wt.2.1, taps := wt.2.2.1 * wt.2.2.2, groups := g.groups, cout := wt.1,
    rows := y.2.1 * y.2.2.1 * y.2.2.2 }

/-- Reduction indices of a group. -/
def ConvPlan.red (p : ConvPlan) : Nat := p.cg * p.taps
/-- Reduction tiles. -/
def ConvPlan.redTiles (p : ConvPlan) : Nat := ceilDiv p.red p.kt
/-- Group sets. -/
def ConvPlan.sets (p : ConvPlan) : Nat := ceilDiv p.groups p.b
/-- Columns of group set `i`. -/
def ConvPlan.cols (p : ConvPlan) (i : Nat) : Nat := min p.b (p.groups - i * p.b) * p.go

/-- The plan of a `CONV`. -/
def Flight.conv (f : Flight) : ConvPlan := convPlan (convGeom f.word) (f.op 0xA).ext4 (f.op 0xC).ext4

/-- The tile rule's parameters of a matrix product or a `CONV` on the cells. -/
def Flight.tileParams (f : Flight) : TileParams :=
  let w := f.word
  let fm := f.form
  let half := f.winSize * 32768
  let accum := modBit w 1
  if f.code = opConv then
    let p := f.conv
    { m := p.rows, n := p.cols 0, k := 128 * p.redTiles, pa := 1, pb := 1, sa2 := f.size2 8, sb2 := f.size2 0xA,
      in2 := (if accum then f.size2 0xC else 0) + f.size2 0x14, cap := fm.cap, half := half }
  else
    let mmc := f.code = opMmc
    let c := if mmc then 0x10 else 0xC
    let clo := if f.code = opMm then 0x1A else if f.code = opMmx then 0xE else 0
    let res := if f.code = opMm then 0xE else if f.code = opMmx then 0x12 else 0
    let in2 := (if accum then f.size2 c + (if f.hasOp clo then 8 else 0) else 0) + f.size2 res
    let b := f.op (if mmc then 0xC else 0xA)
    { m := (f.op 8).e 1, n := b.e 0, k := (f.op 8).e 0, pa := fm.pa, pb := fm.pb,
      sa2 := if f.code = opMmx then 4 else f.size2 8,
      sb2 := if f.code = opMmx then 4 else f.size2 (if mmc then 0xC else 0xA),
      in2 := if mmc then 2 * in2 else in2, cap := fm.cap, half := half }

/-- The tile of a matrix product or a `CONV` on the cells; (16, 128, 128) where none fits. -/
def Flight.tiling (f : Flight) : Nat × Nat × Nat :=
  match f.tileParams.choose with
  | .ok t => t
  | .error _ => (16, 128, 128)

/-- The epilogue of a product names its own row's statistics. -/
def Flight.ownRow (f : Flight) : Bool :=
  (f.code == opMm || f.code == opMmc || f.code == opMmx) && match f.chain? 0x14 with
    | some w => cUses w 12
    | none => false

/-- A grid of output tiles: tile sizes, counts along m, n and k, group sets, and whether its rows run two passes (R248). -/
structure Grid where
  mt : Nat
  nt : Nat
  kt : Nat
  m : Nat
  n : Nat
  k : Nat
  nm : Nat
  nn : Nat
  nk : Nat
  sets : Nat
  two : Bool
  deriving DecidableEq, Repr

def Flight.grid (f : Flight) : Grid :=
  let p := f.tileParams
  let t := f.tiling
  { mt := t.1, nt := t.2.1, kt := t.2.2, m := p.m, n := p.n, k := p.k, nm := ceilDiv p.m t.1, nn := ceilDiv p.n t.2.1,
    nk := ceilDiv p.k t.2.2, sets := if f.code = opConv then f.conv.sets else 1, two := f.ownRow && decide (t.2.1 < p.n) }

/-- Output tiles of a grid (R202, R293). -/
def Grid.tiles (g : Grid) : Nat := g.sets * g.nm * g.nn
/-- Passes of each row of tiles. -/
def Grid.passes (g : Grid) : Nat := if g.two then 2 else 1
/-- T2 steps of the full instruction. -/
def Grid.steps (g : Grid) : Nat := g.tiles * g.passes * g.nk

/-- A T2 step: its index, group set, tile coordinates, reduction step, pass (1 stores) and output tile. -/
structure Step2 where
  idx : Nat
  set : Nat
  m2 : Nat
  n2 : Nat
  k2 : Nat
  stores : Bool
  tile : Nat
  deriving DecidableEq, Repr

def Grid.stepAt (g : Grid) (i : Nat) : Step2 :=
  let k2 := i % g.nk
  let r := i / g.nk
  let n2 := r % g.nn
  let pass := r / g.nn % g.passes
  let row := r / (g.nn * g.passes)
  { idx := i, set := row / g.nm, m2 := row % g.nm, n2 := n2, k2 := k2, stores := decide (pass + 1 = g.passes),
    tile := row * g.nn + n2 }

/-- The T2 steps performed from output tile `t0` on: a row of tiles with two passes runs its first pass whole (log 25). -/
def Grid.from (g : Grid) (t0 : Nat) : List Step2 :=
  ((List.range g.steps).map g.stepAt).filter fun s => decide (t0 / g.nn * g.nn ≤ s.tile) && (!s.stores || decide (t0 ≤ s.tile))

/-! ## Rows of a grid (R198, R199) -/

/-- What a half of the window holds: the index ranges of the A, B and input parts copied into it last. -/
structure Held where
  a : Option (Nat × Nat × Nat)
  b : Option (Nat × Nat × Nat)
  deriving DecidableEq, Repr

/-- Input parts copied at the first reduction step of a tile (Table 05-8). -/
def Flight.inParts (f : Flight) : List Nat :=
  let accum := modBit f.word 1
  let clo := if f.code = opMm then 0x1A else if f.code = opMmx then 0xE else 0
  let res := if f.code = opMm then 0xE else if f.code = opMmx then 0x12 else if f.code = opConv then 0x14 else 0
  (if accum then [0] else []) ++ (if accum && f.code == opMmc then [1] else [])
    ++ (if accum && f.hasOp clo then [2] else []) ++ (if f.hasOp res then [3] else [])

/-- The rows of one step, given what its half holds. The spec gives the extents that a row does not concern as 0; the first index of
such a dimension is 0 too (log 124). -/
def Flight.stepRows (f : Flight) (g : Grid) (s : Step2) (h : Held) : List TRow × Held :=
  let fm := f.form
  let cols := if f.code = opConv then f.conv.cols s.set else g.n
  let base := if f.code = opConv then s.set * f.conv.b * f.conv.go else 0
  let m0 := s.m2 * g.mt
  let n0 := s.n2 * g.nt
  let k0 := s.k2 * g.kt
  let mE := min g.mt (g.m - m0)
  let nE := min g.nt (cols - n0)
  let kE := min g.kt (g.k - k0)
  let row (kind part mE nE kE : Nat) : TRow :=
    { kind := kind, part := part, half := (s.idx + f.half0) % 2, step := s.idx, m0 := if mE = 0 then 0 else m0,
      n0 := if nE = 0 then 0 else base + n0, k0 := if kE = 0 then 0 else k0, mExt := mE, nExt := nE, kExt := kE,
      tile := s.tile }
  let aKey := (s.set, s.m2, s.k2)
  let bKey := (s.set, s.n2, s.k2)
  let aRows := if h.a = some aKey then [] else (List.range fm.pa).map fun p => row 1 p mE 0 kE
  let bRows := if h.b = some bKey then [] else (List.range fm.pb).map fun p => row 2 p 0 nE kE
  let inRows := if s.k2 = 0 ∧ s.stores then f.inParts.map fun p => row 3 p mE nE 0 else []
  let storeRow := if s.stores ∧ s.k2 + 1 = g.nk then [row 5 0 mE nE 0] else []
  (aRows ++ bRows ++ inRows ++ [row 4 0 mE nE kE] ++ storeRow, { a := some aKey, b := some bKey })

def Flight.rowsOf (f : Flight) (g : Grid) : List Step2 → Held → Held → List TRow
  | [], _, _ => []
  | s :: ss, h0, h1 =>
    if s.idx % 2 = 0 then let r := f.stepRows g s h0
      r.1 ++ f.rowsOf g ss r.2 h1
    else let r := f.stepRows g s h1
      r.1 ++ f.rowsOf g ss h0 r.2

/-! ## Convolution geometry (R290, R291) -/

/-- The channels, columns, rows and images of an index; the pixel number of R293. -/
def pixelOf (y : Ext4) (m : Nat) : Nat × Nat × Nat := (m % y.2.1, m / y.2.1 % y.2.2.1, m / (y.2.1 * y.2.2.1))

/-- The input coordinate of a tap along one axis; none where it is padding (R290). -/
def tapAt (o stride pad k dil u n : Nat) : Option Nat :=
  let p := o * stride + k * dil
  if p < pad ∨ u * n ≤ p - pad then none else some ((p - pad) / u)

/-- The reduction indices of an output element at (x, y): for each k, its tap (kh, kw), group channel and input position. -/
def convTaps (g : Geom) (x wt : Ext4) (ox oy : Nat) : List (Nat × Nat × Nat × Option (Nat × Nat)) :=
  (List.range (wt.2.1 * wt.2.2.1 * wt.2.2.2)).map fun k =>
    let ci := k % wt.2.1
    let kw := k / wt.2.1 % wt.2.2.1
    let kh := k / (wt.2.1 * wt.2.2.1)
    let at_ := match tapAt oy g.strideH g.padT kh g.dilH g.up x.2.2.1, tapAt ox g.strideW g.padL kw g.dilW g.up x.2.1 with
      | some py, some px => some (px, py)
      | _, _ => none
    (kh, kw, ci, at_)

/-! ## CONVF tiles (R300 to R302) -/

/-- A run of rows or columns: first and last, the last below the first where it is empty. -/
abbrev Run := Nat × Int

/-- Pixels of a run. -/
def Run.len (r : Run) : Nat := (r.2 + 1 - r.1).toNat

/-- Input run of an output run, clipped to the input (R300). `n` is the input extent. -/
def backRun (stride pad dil k u n : Nat) (o : Run) : Run :=
  let hi : Int := o.2 * stride + (dil * (k - 1) : Nat) - pad
  ((o.1 * stride - pad) / u, min hi ((u * n : Nat) - 1) / (u : Int))

/-- Input run length without the two clipping steps (R301): of `len` outputs from coordinate 0. -/
def backLen (stride pad dil k u : Nat) (first : Int) (len : Nat) : Int × Nat :=
  let lo : Int := first * stride - pad
  let hi : Int := (first + len - 1) * stride - pad + dil * (k - 1)
  let a := lo / (u : Int)
  let b := hi / (u : Int)
  (a, (b - a + 1).toNat)

/-- Kernel extents (KW, KH), Cg and Cout of layer `l`. -/
def Flight.layerWt (f : Flight) (l : Nat) : Ext4 := (f.op (layerSlot l 0)).ext4
def Flight.layerGeom (f : Flight) (l : Nat) : Geom := geomAt (f.layer l) 6 8 0xA (layerUp (f.layer l))
/-- Extents of the input of layer `l`; of the output of the last for `l` = `LAYERS`. -/
def Flight.extsOf (f : Flight) (l : Nat) : Ext4 := ((f.layerExts 0 f.layers (f.op 8).ext4).getD []).getD l (0, 0, 0, 0)

/-- The clipped output regions of the layers for a tile, from the last back to layer 0, then the region of `X`: rows and
columns. -/
def Flight.regions (f : Flight) : Nat → Run → Run → List (Run × Run)
  | 0, r, c => [(r, c)]
  | l + 1, r, c =>
    let g := f.layerGeom l
    let wt := f.layerWt l
    let x := f.extsOf l
    f.regions l (backRun g.strideH g.padT g.dilH wt.2.2.2 g.up x.2.2.1 r) (backRun g.strideW g.padL g.dilW wt.2.2.1 g.up x.2.1 c)
      ++ [(r, c)]

/-- Bytes of an element of `ACT_FMT` of layer `l`. -/
def Flight.actBytes (f : Flight) (l : Nat) : Nat := ((Fmt.ofCode (fieldAt (f.layer l) 0xD 0 4)).getD .bit).bytes

/-- The footprint of R301 for side `t`, backwards over the layers: the largest pair, and pixels of in[0]. -/
def Flight.footprint (f : Flight) : Nat → Int → Nat → Int → Nat → Nat → Nat
  | 0, _, hr, _, hc, best => best + hr * hc * roundUp (f.extsOf 0).1 32 * f.actBytes 0
  | l + 1, fr, hr, fc, hc, best =>
    let g := f.layerGeom l
    let wt := f.layerWt l
    let r := backLen g.strideH g.padT g.dilH wt.2.2.2 g.up fr hr
    let c := backLen g.strideW g.padL g.dilW wt.2.2.1 g.up fc hc
    let out := if l + 1 < f.layers.length then hr * hc * roundUp (f.extsOf (l + 1)).1 32 * f.actBytes (l + 1) else 0
    let pair := r.2 * c.2 * roundUp (f.extsOf l).1 32 * f.actBytes l + out
    f.footprint l r.1 r.2 c.1 c.2 (max best pair)

/-- The tile of R301: (th, tw), or the bytes of t = 8. -/
def Flight.convfTile (f : Flight) : Except Nat (Nat × Nat) :=
  let n := f.layers.length
  let y := f.extsOf n
  let avail := f.winSize * 65536 - 1048576
  let foot (t : Nat) : Nat := f.footprint n 0 (min t y.2.2.1) 0 (min t y.2.1) 0
  match [512, 256, 128, 64, 32, 16, 8].find? fun t => decide (foot t ≤ avail) with
  | some t => .ok (min t y.2.2.1, min t y.2.1)
  | none => .error (foot 8)

def Flight.spatial (f : Flight) : Nat × Nat :=
  match f.convfTile with
  | .ok t => t
  | .error _ => (8, 8)

/-- Spatial tile `i`: image, rows and columns of the last layer's output (R302). -/
def Flight.spatialTile (f : Flight) (i : Nat) : Nat × Run × Run :=
  let y := f.extsOf f.layers.length
  let t := f.spatial
  let nx := ceilDiv y.2.1 t.2
  let ny := ceilDiv y.2.2.1 t.1
  let tx := i % nx
  let ty := i / nx % ny
  (i / (nx * ny), (ty * t.1, (min ((ty + 1) * t.1) y.2.2.1 : Nat) - 1), (tx * t.2, (min ((tx + 1) * t.2) y.2.1 : Nat) - 1))

/-- Spatial tiles of a `CONVF`. -/
def Flight.spatialCount (f : Flight) : Nat :=
  let y := f.extsOf f.layers.length
  let t := f.spatial
  y.2.2.2 * ceilDiv y.2.2.1 t.1 * ceilDiv y.2.1 t.2

/-- One past the last spatial tile to run (`TILE_LIMIT`). -/
def Flight.spatialEnd (f : Flight) : Nat :=
  let lim := fieldAt (f.layer 0) 0x14 0 32
  if lim = 0 then f.spatialCount else min f.spatialCount (startTile f.word + lim)

/-- The rows of spatial tile `i` (R303, Table 08-3). -/
def Flight.spatialRows (f : Flight) (i : Nat) : List TRow :=
  let t := f.spatialTile i
  let n := f.layers.length
  let regs := f.regions n t.2.1 t.2.2
  let reg (j : Nat) : Run × Run := regs.getD j ((0, 0), (0, 0))
  let row (kind part k0 kE : Nat) (r : Run × Run) (img : Bool) : TRow :=
    { kind := kind, part := part, half := (i + f.half0) % 2, step := i, m0 := r.1.1, n0 := r.2.1, k0 := if img then t.1 else k0,
      mExt := Run.len r.1, nExt := Run.len r.2, kExt := kE, tile := i }
  let weights (l : Nat) : TRow :=
    let wt := f.layerWt l
    { row 7 l 0 (ceilDiv (wt.1 * wt.2.1 * wt.2.2.1 * wt.2.2.2 * (f.op (layerSlot l 0)).fmt.bits) 8) ((0, 0), (0, 0)) false with
      mExt := 0, nExt := 0 }
  [row 6 0 0 0 (reg 0) true] ++ ((List.range n).flatMap fun l => [weights l, row 8 l 0 0 (reg (l + 1)) false])
    ++ [row 9 0 0 0 (reg n) false]

/-! ## Rows of an instruction -/

/-- The instruction has Trellis rows that complete one by one (R203, R294, R303). -/
def Flight.hasRows (f : Flight) : Bool := [opMm, opMmc, opMmx, opConv, opConvf].contains f.code

/-- Output tiles of the instruction's Trellis; 0 for one without (Table 03-19). A `PSCORE` has Trellis rows (Table 07-10), and no rule
counts their tiles: 0 (DESIGN CHOICE, log 16). -/
def Flight.tileCount (f : Flight) : Nat :=
  if f.code = opConv ∧ f.engine = 2 then (f.op 0xC).e 2 * (f.op 0xC).e 3
  else if f.code = opConvf then f.spatialCount
  else if f.hasRows then f.grid.tiles
  else if f.code = opAttn ∨ f.code = opAttnb then 1
  else 0

/-- The rows of the Trellis performed from an output tile, in order. -/
def Flight.rowsFrom (f : Flight) (t0 : Nat) : List TRow :=
  if f.code = opConv ∧ f.engine = 2 then
    let y := f.op 0xC
    ((List.range f.tileCount).filter fun t => decide (t0 ≤ t)).map fun t =>
      { kind := 15, part := 0, half := 0, step := t, m0 := t % y.e 2, n0 := 0, k0 := t / y.e 2, mExt := y.e 1, nExt := y.e 0,
        kExt := 0, tile := t }
  else if f.code = opConvf then
    ((List.range f.spatialEnd).filter fun t => decide (t0 ≤ t)).flatMap f.spatialRows
  else if f.hasRows then let g := f.grid
    f.rowsOf g (g.from t0) { a := none, b := none } { a := none, b := none }
  else []

/-- The rows that an issued instruction performs. -/
def Flight.trellis (f : Flight) : List TRow := if f.noop then [] else f.rowsFrom (startTile f.word)

/-- The rows of one unit. -/
def Flight.unitRows (f : Flight) (u : TUnit) : List TRow := f.trellis.filter fun r => decide (r.unit = u)

/-- The slot of the chain that an instruction applies to its output. -/
def Flight.outChain (f : Flight) : Nat :=
  if f.code = opConvf then layerSlot (f.layers.length - 1) 4
  else if f.code = opMm ∨ f.code = opMmc ∨ f.code = opMmx ∨ f.code = opAttn then 0x14
  else if f.code = opConv then 0x12 else 0x10

/-- The instruction has a `START_TILE`. -/
def opStarts (op : Nat) : Bool := op == opMm || op == opMmc || op == opMmx || op == opConv || op == opConvf

/-! ## Order 12 (R201, R233, R274, R301) -/

/-- `TILE_NO_FIT`. -/
def noFit (need avail : Nat) : FaultInfo := { code := cTileNoFit, d0 := need, d1 := avail }

def Flight.tileFault (f : Flight) (r : Session) : Option FaultInfo :=
  let w := f.word
  if (f.code = opMm ∨ f.code = opMmc ∨ f.code = opMmx) ∨ (f.code = opConv ∧ f.engine ≠ 2) then
    match f.tileParams.choose with
    | .ok _ => none
    | .error n => some (noFit n f.tileParams.half)
  else if f.code = opConvf then
    match f.convfTile with
    | .ok _ => none
    | .error n => some (noFit n (f.winSize * 65536 - 1048576))
  else if f.code = opRow then
    let need := 64 * (f.op 8).e 0
    let fn := fieldAt w 0x14 0 8
    if (fn = 2 ∨ fn = 3) ∧ modBit w 1 = false ∧ f.winSize * 32768 < need then some (noFit need (f.winSize * 32768)) else none
  else if f.code = opAttn then
    let mq := (f.op 8).e 1
    let dv := (f.op 0xA).e 0
    if modBit w 1 then
      if 131072 < mq * r.latent then some (noFit (mq * r.latent) 131072)
      else if 131072 < r.latent * dv then some (noFit (r.latent * dv) 131072) else none
    else if 131072 < mq * dv then some (noFit (mq * dv) 131072) else none
  else none

/-- The slots of a `MM` whose extents and formats its tile rule reads (Table 05-5). -/
def Flight.tileSlots (f : Flight) : List Nat := [8, 0xA, 0xE] ++ if modBit f.word 1 then [0xC, 0x1A] else []

/-- `START_TILE` within a row of tiles of a `MM` with `RSTAT` (R229): judged at order 3 where the entries of the slots that the tile
rule reads give the tiles (log 21). -/
def Flight.rstatStart (f : Flight) : Bool :=
  f.code == opMm && modBit f.word 3 && f.hasOp 8 && f.hasOp 0xA
    && (f.ops.all fun o => !f.tileSlots.contains o.slot || decide (dType o.word = 1))
    && decide ((f.op 8).e 0 ≠ 0 ∧ (f.op 8).e 1 ≠ 0 ∧ (f.op 0xA).e 0 ≠ 0) && (match f.tileParams.choose with | .ok _ => true | .error _ => false)
    && decide (startTile f.word < f.grid.tiles) && decide (startTile f.word % f.grid.nn ≠ 0)

/-! ## Orders 1 to 7 -/

/-- Orders 1 to 7: what the instruction captured, or the first fault. A run-time extent that no rule bounds before order 3 is
read for `K` of `SORT` and for `START_TILE` with `RSTAT` (R229; log 21). -/
def State.orders1to7 (s : State) (a place addr w : Nat) : Except FaultInfo Flight :=
  let f := s.capture a place addr w
  let sortK := opOf w == opSort && modBit w 1 && decide (dType (f.op 8).word = 1) && decide ((f.op 8).e 0 ≠ 0)
    && decide ((f.op 8).e 0 < fieldAt w 0x10 0 32)
  match firstFault [
    s.fieldOrders a w f,
    if sortK then some (fieldFault cInsnOperand 0x10 0) else none,
    if f.rstatStart then some (fieldFault cInsnOperand 0x1C 0) else none,
    s.entryChecks a (s.allSlots a w f.layers),
    f.ops.findSome? (s.boundCheck a)] with
  | some e => .error e
  | none => .ok f

end Sys2Proof.Machine
end

