-- ==== Sys2Proof/Machine/Rng.lean ====
section
/-! DEFINITION. The random-number lanes (09 R309 to R319, R325 to R329): the generator, jumps, seeding, and the words that
lane-keyed and tile-keyed streams give. -/
namespace Sys2Proof.Machine

/-! ## The generator -/

/-- One step: the state times x modulo the polynomial (R309). -/
def lfsrStep (taps s : Nat) : Nat :=
  let t := 2 * s % 2 ^ 64
  if 2 ^ 63 ≤ s then Nat.xor t taps else t

def gfMulAux (taps : Nat) : Nat → Nat → Nat → Nat → Nat
  | 0, _, _, acc => acc
  | n + 1, a, b, acc => gfMulAux taps n (lfsrStep taps a) (b / 2) (if b % 2 = 1 then Nat.xor acc a else acc)

/-- Product of two states modulo the polynomial. -/
def gfMul (taps a b : Nat) : Nat := gfMulAux taps 64 a b 0

def gfPowAux (taps : Nat) : Nat → Nat → Nat → Nat → Nat
  | 0, _, _, acc => acc
  | k + 1, sq, n, acc => gfPowAux taps k (gfMul taps sq sq) (n / 2) (if n % 2 = 1 then gfMul taps acc sq else acc)

/-- x^n modulo the polynomial, as the product of the stored powers of the set bits of n mod (2^64 − 1) (R312). -/
def gfPowX (taps n : Nat) : Nat := gfPowAux taps 64 2 (n % (2 ^ 64 - 1)) 1

/-- The state after `n` steps (R312). -/
def gfJump (taps s n : Nat) : Nat := gfMul taps s (gfPowX taps n)

/-- The polynomial ROM: `TAPS` of the minimal polynomials of α^k (Table 09-1). -/
def romTaps : List Nat :=
  [0x000000000000001B, 0xB000000000000001, 0x008040402020041B, 0x002080080100705B, 0x000421004E71ADBB, 0x004832402965F50B,
   0x0100048C8881B19B, 0x00222A2C9B3A555B] ++
  [0x0111110312911B2B, 0x0848E75EBE11C10B, 0x2480C6EEFF1D5187, 0x0245974FA1164833, 0x100865F10500474F, 0x021CF561C9124467,
   0x0009823E5610C22F, 0xAA19A349272E82EB]

def tapsOf (i : Nat) : Nat := romTaps.getD (i % 16) 0x1B

/-- Z of R313. -/
def seedZ : Nat := 0x9E3779B97F4A7C15

/-! ## Streams of an array -/

def ArrayState.lane (x : ArrayState) (l : Nat) : Nat := (mapGet (fun _ => 0#64) l x.lanes).toNat

/-- Lane `l` of array `a` starts here from base `b` (R314). -/
def laneStart (a b l : Nat) : Nat := gfJump (tapsOf (a % 16)) b (2 ^ 56 * (a / 16) + 2 ^ 48 * l)

/-- The lane-keyed stream of array `a` is seeded (R313, R314). -/
def ArrayState.seedLanes (x : ArrayState) (a seed : Nat) : ArrayState :=
  { x with
    lanes := tabulate 256 fun l => (l, BitVec.ofNat 64 (laneStart a (if seed = 0 then seedZ else seed) l)),
    lkLive := true, lkPoly := a % 16, zeroReplaced := x.zeroReplaced || decide (seed = 0) }

/-- A `RNG` with `RESEED` and `TILE_KEYED` sets the tile key (R317). -/
def ArrayState.setKey (x : ArrayState) (seed poly h w : Nat) : ArrayState :=
  { x with
    keyBase := BitVec.ofNat 64 (if seed = 0 then seedZ else seed), keyPoly := poly, tileH := h, tileW := w, tkSet := true,
    zeroReplaced := x.zeroReplaced || decide (seed = 0) }

/-- A use of a stream that no seed has set: seeded as if with 0, with the status bits of R313 and R317. A tile key restored with
`TK_SET` 0 has no seed either: its draws start from Z. -/
def ArrayState.useStream (x : ArrayState) (a : Nat) (laneKeyed : Bool) : ArrayState :=
  if laneKeyed then
    if x.lkLive then x else { (x.seedLanes a 0) with unseeded := true }
  else if x.tkSet then x else { x with keyBase := BitVec.ofNat 64 seedZ, unseeded := true, zeroReplaced := true }

/-- Active lanes of every array (R214, R407). -/
def State.lanesActive (s : State) : Nat := if s.power.leanActive then 128 else 256

/-- Word `j` of the element at position `k` of an instruction, when each element takes `d` words and the lanes stand where
position `k0` begins: lane k mod L delivers its words to its elements in turn (R315). -/
def ArrayState.laneWord (x : ArrayState) (lanes k0 k d j : Nat) : Nat :=
  let l := k % lanes
  let first := k0 + (l + lanes - k0 % lanes) % lanes
  gfJump (tapsOf x.lkPoly) (x.lane l) (64 * ((k - first) / lanes * d + j + 1))

/-- The lanes after positions `k0` to `k0 + n − 1` have taken `d` words each (R315, R316). -/
def ArrayState.advance (x : ArrayState) (lanes k0 n d : Nat) : ArrayState :=
  if d = 0 ∨ n = 0 then x else
    let count (l : Nat) : Nat := (n + (lanes - 1) - (l + lanes - k0 % lanes) % lanes) / lanes
    { x with lanes := tabulate 256 fun l =>
        (l, BitVec.ofNat 64 (if l < lanes then gfJump (tapsOf x.lkPoly) (x.lane l) (64 * d * count l) else x.lane l)) }

/-- The word of draw `d` of the element at row `pr` and column `pc` (R319). -/
def ArrayState.tileWord (x : ArrayState) (pr pc d : Nat) : Nat :=
  let t := (pr / x.tileH % 2 ^ 19) * 2 ^ 19 + (pc / x.tileW % 2 ^ 19)
  let j := (pr % x.tileH) * x.tileW + pc % x.tileW
  gfJump (tapsOf x.keyPoly) x.keyBase.toNat (2 ^ 26 * t + 64 * (65536 * d + j + 1))

end Sys2Proof.Machine
end

