-- ==== Sys2Proof/Machine/Trans.lean ====
section
/-! DEFINITION. The functions the manual rounds once from their exact values: exponential, logarithm, reciprocal square root,
cosine, hyperbolic tangent, logistic and the inverse normal distribution (04 R162, 06 R216, R235 to R238, R242 to R247, 09
R322, R323). Each is enclosed between two rationals that integer arithmetic gives, at a precision that grows until both ends
round alike (log 7). -/
namespace Sys2Proof.Machine

/-! ## Fixed-point enclosures: a pair of integers in units of 2^−P -/

/-- A number in units of 2^(k − P) as a value. -/
def fixVal (p : Nat) (k v : Int) : Val := .fin (decide (v < 0)) v.natAbs 1 (k - (p : Int))

/-- Product in units of 2^−P, rounded down. -/
def fixMul (p : Nat) (a b : Int) : Int := (a * b) / (2 ^ p : Int)

/-- A rational with a power-of-two factor in units of 2^−P, rounded down. -/
def fixOf (p : Nat) (neg : Bool) (num den : Nat) (exp : Int) : Int :=
  let e := exp + p
  let m : Int := if 0 ≤ e then (num * 2 ^ e.toNat / den : Nat) else (num / (den * 2 ^ (-e).toNat) : Nat)
  if neg then -m - 1 else m

/-- The first precision at which both ends of the enclosure round alike. -/
def settle (rnd : Val → Nat) (f : Nat → Val × Val) : List Nat → Nat
  | [] => 0
  | [p] => rnd (f p).1
  | p :: ps => let r := f p
    if rnd r.1 = rnd r.2 then rnd r.1 else settle rnd f ps

/-- The precisions tried. -/
def precisions : List Nat := [96, 192, 400]

/-- Σ z^(2i+1) / (2i+1) with alternating signs when `alt`: `zz` is z², `t` the running power. -/
def oddSeries (p : Nat) (alt : Bool) (zz : Int) : Nat → Nat → Int → Int → Int
  | 0, _, _, acc => acc
  | n + 1, i, t, acc =>
    let term := t / ((2 * i + 1 : Nat) : Int)
    oddSeries p alt zz n (i + 1) (fixMul p t zz) (if alt && i % 2 == 1 then acc - term else acc + term)

/-- artanh z for a small z, in units of 2^−P. -/
def fixAtanh (p : Nat) (z : Int) : Int := oddSeries p false (fixMul p z z) (p / 2 + 8) 0 z 0
/-- arctan z for a small z. -/
def fixAtan (p : Nat) (z : Int) : Int := oddSeries p true (fixMul p z z) (p / 2 + 8) 0 z 0

/-- ln 2. -/
def fixLn2 (p : Nat) : Int := 2 * fixAtanh p ((2 ^ p : Int) / 3)
/-- π. -/
def fixPi (p : Nat) : Int := 16 * fixAtan p ((2 ^ p : Int) / 5) - 4 * fixAtan p ((2 ^ p : Int) / 239)

/-- Σ r^i / i!. -/
def expSeries (p : Nat) (r : Int) : Nat → Nat → Int → Int → Int
  | 0, _, _, acc => acc
  | n + 1, i, t, acc => expSeries p r n (i + 1) (fixMul p t r / ((i + 1 : Nat) : Int)) (acc + t)

/-- e^x for a rational |x| below 2^13, as two ends in units of 2^(k − P) and k. -/
def expEnds (p : Nat) (neg : Bool) (num den : Nat) (exp : Int) : Int × Int × Int :=
  let q := p + 32
  let x := fixOf q neg num den exp
  let l := fixLn2 q
  let k := (2 * x + l) / (2 * l)
  let r := x - k * l
  let t := expSeries q r (q / 2 + 16) 0 (2 ^ q : Int) 0
  let err : Int := 2 ^ 28
  ((t - err) / 2 ^ 32, (t + err) / 2 ^ 32 + 1, k)

/-- ln of a positive rational, as two ends in units of 2^−P. -/
def lnEnds (p : Nat) (num den : Nat) (exp : Int) : Int × Int :=
  let q := p + 32
  let e := log2Floor num den exp
  let m := fixOf q false num den (exp - e)
  let one : Int := 2 ^ q
  let (m, e) := if 3 * one < 2 * m then (m / 2, e + 1) else (m, e)
  let z := (m - one) * one / (m + one)
  let v := 2 * fixAtanh q z + e * fixLn2 q
  let err : Int := 2 ^ 24
  ((v - err) / 2 ^ 32, (v + err) / 2 ^ 32 + 1)

/-! ## Exponentials -/

/-- Magnitude of a value is at least 2^12. -/
def Val.isLarge : Val → Bool
  | .fin _ n d e => decide (0 < n) && decide (12 ≤ log2Floor n d e)
  | _ => false

/-- The enclosure of e^x at a precision. -/
def expVal (v : Val) (p : Nat) : Val × Val :=
  match v with
  | .fin s n d e => let r := expEnds p s n d e
    (fixVal p r.2.2 r.1, fixVal p r.2.2 r.2.1)
  | v => (v, v)

/-- e^x rounded once by `rnd`; `big` beyond every format, `+0` below. -/
def expBy (rnd : Val → Nat) (v : Val) : Nat :=
  match v with
  | .nan => rnd .nan
  | .inf s => rnd (if s then .fin false 0 1 0 else .inf false)
  | .fin s n d e =>
    if n = 0 then rnd (.ofNat 1)
    else if Val.isLarge (.fin s n d e) then rnd (if s then .fin false 0 1 0 else .fin false 1 1 100000)
    else settle rnd (expVal (.fin s n d e)) precisions

/-- exp32 (R216). -/
def exp32 (x : Nat) : Nat := expBy (arith fFP32) (val32 x)

/-- e^x − 1 rounded once to FP32, for x ≥ 0 (R236). -/
def expm132 (x : Nat) : Nat :=
  match val32 x with
  | .fin s n d e =>
    if n = 0 then 0
    else settle (arith fFP32) (fun p =>
      let r := expEnds p s n d e
      let f (t : Int) : Val := (fixVal p r.2.2 t).add (.ofInt (-1))
      (f r.1, f r.2.1)) precisions
  | v => arith fFP32 v

/-- The exponential of a score in ER24, and whether e^s exceeded its largest finite value (R242). -/
def expER24 (x : Nat) : Nat × Bool :=
  match val32 x with
  | .nan => (fER24.nanPat, false)
  | v => let r (w : Val) : Nat :=
           (convFloat fER24 .rne w).pat + (if (decodeFloat fER24 fER24.maxPat).lt w then 2 ^ 24 else 0)
    let c := expBy r v
    (c % 2 ^ 24, decide (2 ^ 24 ≤ c) || decide (v = .inf false))

/-- e^x in ER40, and whether it saturated (R235). -/
def expER40 (v : Val) : Nat × Bool :=
  let r (w : Val) : Nat := let c := convFloat fER40 .rne w
    c.pat + (if c.sat then 2 ^ 40 else 0)
  let c := expBy r v
  (c % 2 ^ 40, decide (2 ^ 40 ≤ c) || decide (v = .inf false))

/-! ## Logarithm, roots, cosine -/

/-- The natural logarithm of a value rounded once to FP32 (R235, R246). -/
def lnVal32 (v : Val) : Nat :=
  match v with
  | .nan => nan32
  | .inf s => if s then nan32 else inf32
  | .fin s n d e =>
    if n = 0 then negInf32
    else if s then nan32
    else if (Val.fin false n d e).le (.ofNat 1) && (Val.ofNat 1).le (.fin false n d e) then 0
    else settle (arith fFP32) (fun p =>
      let r := lnEnds p n d e
      (fixVal p 0 r.1, fixVal p 0 r.2)) precisions

def ln32 (x : Nat) : Nat := lnVal32 (val32 x)

/-- Integer square root, rounded down, bit by bit. -/
def isqrtAux (n : Nat) : Nat → Nat → Nat
  | 0, r => r
  | k + 1, r => let t := r + 2 ^ k
    isqrtAux n k (if t * t ≤ n then t else r)
def isqrt (n : Nat) : Nat := isqrtAux n (n.log2 / 2 + 1) 0

/-- rsqrt32 (R216): 1/√x rounded once to FP32. -/
def rsqrt32 (x : Nat) : Nat :=
  match val32 x with
  | .nan => nan32
  | .inf s => if s then nan32 else 0
  | .fin s n _ e =>
    if n = 0 then (if s then negInf32 else inf32)
    else if s then nan32
    else
      let odd := e % 2 ≠ 0
      let m := if odd then 2 * n else n
      let h := (if odd then e - 1 else e) / 2
      let q := isqrt (2 ^ 256 / m)
      let hi := if q * q * m = 2 ^ 256 then q else q + 1
      settle (arith fFP32) (fun _ => (.fin false q 1 (-128 - h), .fin false hi 1 (-128 - h))) [0, 1]

/-- Σ (−1)^i θ^(2i) / (2i)!. -/
def cosSeries (p : Nat) (tt : Int) : Nat → Nat → Int → Int → Int
  | 0, _, _, acc => acc
  | n + 1, i, t, acc =>
    cosSeries p tt n (i + 1) (fixMul p t tt / (((2 * i + 1) * (2 * i + 2) : Nat) : Int))
      (if i % 2 = 1 then acc - t else acc + t)

/-- cos(2πu) rounded once to FP32, for u = k × 2^−24 (R322). -/
def cos2pi (k : Nat) : Nat :=
  let u := min k (2 ^ 24 - k)
  let neg := decide (2 ^ 22 < u)
  let w := if neg then 2 ^ 23 - u else u
  if w = 2 ^ 22 then 0
  else if w = 0 then (if neg then neg32 one32 else one32)
  else settle (arith fFP32) (fun p =>
    let q := p + 32
    let th := 2 * fixPi q * (w : Int) / 2 ^ 24
    let c := cosSeries q (fixMul q th th) (q / 4 + 16) 0 (2 ^ q) 0
    let err : Int := 2 ^ 24
    let s : Int := if neg then -1 else 1
    (fixVal p 0 (s * ((c - err) / 2 ^ 32)), fixVal p 0 (s * ((c + err) / 2 ^ 32 + 1)))) precisions

/-! ## tanh and logistic -/

/-- tanh in native mode (R236). -/
def tanh32 (x : Nat) : Nat :=
  if isNan32 x then nan32
  else
    let a := bits x 0 31
    let y := if le32 0x42300000 a then one32 else
      let em := expm132 (mul32 two32 a)
      div32 em (add32 em two32)
    y + (if bit x 31 then 0x80000000 else 0)

/-- logistic in native mode (R236). -/
def logistic32 (x : Nat) : Nat :=
  if isNan32 x then nan32
  else if le32 0 x then div32 one32 (add32 one32 (exp32 (neg32 x)))
  else let e := exp32 x
    div32 e (add32 e one32)

/-- (e^y − 1) / (e^y + 1) or e^y / (e^y + 1) at y = i / den, rounded once to FP32. -/
def romFun (isTanh : Bool) (i den : Nat) : Nat :=
  if i = 0 then (if isTanh then 0 else half32)
  else settle (arith fFP32) (fun p =>
    let r := expVal (.fin false (if isTanh then 2 * i else i) den 0) p
    let f (v : Val) : Val := (if isTanh then v.add (.ofInt (-1)) else v).div (v.add (.ofInt 1))
    (f r.1, f r.2)) precisions

/-- The ROM entry of segment `i` (R237): c0, c1, c2. -/
def romEntry (isTanh : Bool) (i : Nat) : Nat × Nat × Nat :=
  let w := if isTanh then 32 else 16
  let y0 := romFun isTanh (2 * i) (2 * w)
  let y1 := romFun isTanh (2 * i + 1) (2 * w)
  let y2 := romFun isTanh (2 * i + 2) (2 * w)
  let four : Nat := 0x40800000
  let y14 := mul32 four y1
  (y0, sub32 (sub32 y14 (mul32 0x40400000 y0)) y2, add32 (sub32 (mul32 two32 y0) y14) (mul32 two32 y2))

/-- tanh and logistic in compatibility mode (R237). -/
def compat32 (isTanh : Bool) (x : Nat) : Nat :=
  if isNan32 x then nan32
  else
    let a := bits x 0 31
    let w := if isTanh then 0x42000000 else 0x41800000
    let top := if isTanh then 0x41000000 else 0x41800000
    let y := if le32 top a then one32 else
      let u := mul32 a w
      let i := (floor32 u).toNat
      let t := sub32 u (ofNat32 i)
      let c := romEntry isTanh i
      fma32 (fma32 c.2.2 t c.2.1) t c.1
    if isTanh then y + (if bit x 31 then 0x80000000 else 0)
    else if le32 0 x then y else sub32 one32 y

/-! ## Inverse normal distribution (R323) -/

/-- Σ (−1)^i x^(2i+1) / (2^i i! (2i+1)). -/
def phiSeries (p : Nat) (xx : Int) : Nat → Nat → Int → Int → Int
  | 0, _, _, acc => acc
  | n + 1, i, t, acc =>
    let term := t / ((2 * i + 1 : Nat) : Int)
    phiSeries p xx n (i + 1) (fixMul p t xx / ((2 * (i + 1) : Nat) : Int)) (if i % 2 = 1 then acc - term else acc + term)

/-- (Φ(x) − 1/2) × √(2π) in units of 2^−P. -/
def phiAt (p : Nat) (x : Int) : Int := phiSeries p (fixMul p x x) (p / 2 + 64) 0 x 0

/-- The greatest x of 2^bits steps at which the series stays at or below a target. -/
def phiSearch (p : Nat) (target : Int) : Nat → Int → Int
  | 0, x => x
  | n + 1, x => let y := x + (2 ^ n : Int)
    phiSearch p target n (if phiAt p y ≤ target then y else x)

/-- q(k) for a probability m / 4096 above one half, in units of 2^−P, within 2^24 units. -/
def quantile (p m : Nat) : Int :=
  let root : Int := (isqrt (2 * (fixPi p).toNat * 2 ^ p) : Nat)
  phiSearch p (root * ((m : Int) - 2048) / 4096) (p + 3) 0

/-- q(k) of R323 in units of 2^−P: the numerator over 4,096 is clamped to half a step from each end. -/
def quantileAt (p k : Nat) : Int :=
  let m := max 1 (min (2 * k) 4095)
  if m < 2048 then - quantile p (4096 - m) else if m = 2048 then 0 else quantile p m

/-- c0[k] of the standard table. -/
def stdC0 (k : Nat) : Nat :=
  if k = 1024 then 0
  else settle (arith fFP32) (fun p => let q := quantileAt (p + 32) k
    (fixVal (p + 32) 0 (q - 2 ^ 28), fixVal (p + 32) 0 (q + 2 ^ 28))) [96, 128]

/-- c1[k] of the standard table. -/
def stdC1 (k : Nat) : Nat :=
  settle (arith fFP32) (fun p => let q := quantileAt (p + 32) (k + 1) - quantileAt (p + 32) k
    (fixVal (p + 32) 0 (q - 2 ^ 29), fixVal (p + 32) 0 (q + 2 ^ 29))) [96, 128]

end Sys2Proof.Machine
end

