-- ==== Sys2Proof/Machine/Vector.lean ====
section
/-! DEFINITION. The vector engine (06 R214 to R252): draws of stochastic rounding (R171, R172, R315 to R319), operation
chains, row statistics, the soft maximum, special functions and the tail of R183; and the results of `VEC`, `ROW`, `SFN` and
`RNG`. -/
namespace Sys2Proof.Machine

/-- An element's index (i0, i1, i2, i3). -/
abbrev Idx := Nat × Nat × Nat × Nat

def Operand.bitAt (o : Operand) (i : Idx) : Nat := o.bitPos i.1 i.2.1 i.2.2.1 i.2.2.2
def Operand.rowOf (o : Operand) (i : Idx) : Nat := o.rowIndex i.2.1 i.2.2.1 i.2.2.2
def State.elemAt (s : State) (o : Operand) (i : Idx) : Nat := s.rdElem o i.1 i.2.1 i.2.2.1 i.2.2.2
def State.realAt (s : State) (o : Operand) (i : Idx) : Nat := s.real32 o i.1 i.2.1 i.2.2.1 i.2.2.2
def Operand.placeAt (o : Operand) (i : Idx) : Nat × Nat := (o.bitAt i / 8, o.fmt.bytes)

/-- The elements of row `r`. -/
def Operand.rowIdx (o : Operand) (r : Nat) : List Idx := tabulate (o.e 0) fun i => (i, o.rowTuple r)

/-! ## Writes -/

/-- Values to be stored: bit address, width and pattern. -/
abbrev Stores := List (Nat × Nat × Nat)

/-- The bytes that stored values write over bytes that read as `was`; a value narrower than a byte changes its own bits only. -/
def storesOver (was : Nat → Byte) (l : Stores) : List (Nat × Byte) :=
  l.foldl (fun acc e =>
    if e.2.1 < 8 then
      let a := e.1 / 8
      let sh := e.1 % 8
      let old := ((mapFind a acc).getD (was a)).toNat
      let keep := old - bits old sh e.2.1 * 2 ^ sh
      mapPut a (BitVec.ofNat 8 (keep + e.2.2 % 2 ^ e.2.1 * 2 ^ sh)) acc
    else (placed (e.1 / 8) (leBytes (e.2.1 / 8) e.2.2)).foldl (fun acc p => mapPut p.1 p.2 acc) acc) []

/-- The bytes that stored values write in this module's memory. -/
def State.storeBytes (s : State) (l : Stores) : List (Nat × Byte) := storesOver s.rdByte l

/-! ## Draws -/

/-- What draws of an instruction need: the array, its active lanes, `SR_BITS`, the position at which the lanes stand, the
lane-keyed draws of each position, those that a position makes before the part at hand, and what a draw whose place the spec does
not give depends on (R55). -/
structure DrawCtx where
  arr : ArrayState
  lanes : Nat
  sr : Nat
  k0 : Nat
  d : Nat
  off : Nat := 0
  free : List Nat
  deriving DecidableEq, Repr

/-- Row and column of an element for a tile-keyed draw (R318). -/
def Operand.drawPos (o : Operand) (i : Idx) : Nat × Nat :=
  let unit := if o.fmt = .int4 then 4 else 8
  let p := (o.bitAt i + 8 * tOffset o.word - 8 * o.base) / unit
  let pitch := if 2 ≤ tRank o.word then o.stride 1 * 8 / unit else 0
  let size := if o.fmt = .int4 then 1 else o.fmt.bytes
  if 0 < pitch then (p / pitch, p % pitch / size) else (0, p / size)

/-- The rounding of code `code` with the draw of an element: lane draw `jl` at position `k`, or draw `jt` of its place in
tensor `o`. A lane-keyed draw at a position that the spec does not order is free (log 22). -/
def DrawCtx.rnd (c : DrawCtx) (code : Nat) (k : Option Nat) (o : Operand) (i : Idx) (jl jt : Nat) : Rnd :=
  if code = 5 then
    match k with
    | some k => rndOf code c.sr (c.arr.laneWord c.lanes c.k0 k c.d (c.off + jl))
    | none => rndOf code c.sr (Config.freeNat 0 (c.free ++ [o.slot, i.1, i.2.1, i.2.2.1, i.2.2.2, c.off + jl]) % 2 ^ 64)
  else if code = 6 then
    let p := o.drawPos i
    rndOf code c.sr (c.arr.tileWord p.1 p.2 jt)
  else rndOf code c.sr 0

/-- The number of `ROUNDFMT` operations of a chain. -/
def cRounds (w : Nat) : Nat := ((List.range (min 9 (cLen w))).filter fun i => decide (cOp w i = chRoundfmt)).length

/-- Draws that a chain makes before its element's store: lane-keyed, and all (R220). -/
def chainDraws (w : Option Nat) : Nat × Nat :=
  match w with
  | none => (0, 0)
  | some w => (if cQrnd w = 5 then cRounds w else 0, if 5 ≤ cQrnd w then cRounds w else 0)

/-- The lane-keyed draws of each output element: its chain's, then its store's (R172). -/
def laneDraws (chain : Option Nat) (rnd : Nat) : Nat := (chainDraws chain).1 + (if rnd = 5 then 1 else 0)

/-! ## Tables -/

/-- Entry `i` of a bank: 0 and 1 the active and shadow banks of table 0, and so on (Table 06-12). -/
def ArrayState.bankEntry (x : ArrayState) (b i : Nat) : Nat :=
  match mapFind b x.banks with
  | some l => l.getD i 0
  | none => if 2 ≤ b then 0 else if i % 2 = 0 then stdC0 (i / 2) else stdC1 (i / 2)

/-- A user table evaluated at x (R238); a zeroed table gives +0 for every x that is not NaN (R239). Where u is NaN though x is not, the
pseudocode gives no result: the canonical NaN (DESIGN CHOICE, log 150). -/
def ArrayState.userTable (x : ArrayState) (t v : Nat) : Nat :=
  let e (i : Nat) : Nat := x.bankEntry (2 * t) i
  if isNan32 v then nan32
  else
    let u := mul32 (sub32 v (e 0)) (e 1)
    if isNan32 u then (if (List.range 2048).all fun i => e i == 0 then 0 else nan32)
    else if lt32 u 0 then canon32 (e 2)
    else if le32 (ofNat32 511) u then canon32 (e 3)
    else
      let i := (floor32 u).toNat
      let t := sub32 u (ofNat32 i)
      let c (j : Nat) : Nat := e (4 + 4 * i + j)
      fma32 (fma32 (fma32 (c 3) t (c 2)) t (c 1)) t (c 0)

/-! ## Chains (R215 to R222) -/

/-- c1 and c2 of `GELU_TANH`: the FP32 values nearest to √(2/π) and 0.044715. -/
def geluC1 : Nat := 0x3F4C422A
def geluC2 : Nat := 0x3D372713

/-- One operation on v (Table 06-3): the result and the status bits it adds. `a`, `b` are its arguments, `st` its record. -/
def chainOp (x : ArrayState) (w i v a b : Nat) (st : Nat × Nat) (r : Rnd) : Nat × Nat :=
  let tanh (y : Nat) : Nat := if cCompat w then compat32 true y else tanh32 y
  let logistic (y : Nat) : Nat := if cCompat w then compat32 false y else logistic32 y
  match cOp w i with
  | 0x01 => (add32 v a, 0)
  | 0x02 => (mul32 v a, 0)
  | 0x03 => (fma32 v a b, 0)
  | 0x04 => (max32 v a, 0)
  | 0x05 => (min32 v a, 0)
  | 0x06 => (if isNan32 v then nan32 else if lt32 0 v then v else 0, 0)
  | 0x07 => (mul32 (sub32 v st.1) (rsqrt32 (add32 st.2 a)), 0)
  | 0x08 => (tanh v, 0)
  | 0x09 => (logistic v, 0)
  | 0x0A => (mul32 v (logistic v), 0)
  | 0x0B =>
    let u := mul32 v v
    let y := fma32 (mul32 geluC2 u) v v
    (mul32 (mul32 half32 v) (add32 one32 (tanh (mul32 geluC1 y))), 0)
  | 0x0C => (exp32 v, 0)
  | 0x0D =>
    let g := (Fmt.ofCode (cArg w i)).getD .fp32
    let c := conv g r (val32 v)
    (toFp32 g c.pat, flagIf c.sat stStoreSat)
  | 0x0E => (x.userTable 1 v, 0)
  | _ => (x.userTable 2 v, 0)

/-- The operations from position `i` on, `n` of them; `jr` counts `ROUNDFMT` operations. -/
def chainFrom (x : ArrayState) (w : Nat) (arg : Nat → Nat) (st : Nat → Nat × Nat) (rnd : Nat → Rnd) :
    Nat → Nat → Nat → Nat → Nat → Nat × Nat
  | 0, _, _, v, fl => (v, fl)
  | n + 1, i, jr, v, fl =>
    let isR := decide (cOp w i = chRoundfmt)
    let r := chainOp x w i v (arg (cArg w i)) (arg (cArg2 w i)) (st (cArg2 w i)) (rnd jr)
    chainFrom x w arg st rnd n (i + 1) (if isR then jr + 1 else jr) r.1 (orFlags fl (orFlags r.2 (nanFlag r.1)))

/-- The position of the first operation that names code 12; `LEN` when none does. -/
def firstOwn (w : Nat) : Nat :=
  ((List.range (min 9 (cLen w))).find? fun i => decide (cOp w i ≠ chRoundfmt ∧ cArg w i = 12) || decide (cArg2 w i = 12)).getD
    (min 9 (cLen w))

/-- An argument's FP32 value for an element at index `i`, the chain lying at slot place `slot` (Tables 06-4, 06-5); `row` is the
element's row index. -/
def State.chainArg (s : State) (f : Flight) (slot w : Nat) (i : Idx) (row code : Nat) : Nat :=
  if code = 0 then 0
  else if code ≤ 4 then cK w (code - 1)
  else if code ≤ 8 then
    let o := f.op (chainSlot slot (code - 5))
    match cVkind w (code - 5) with
    | 0 => s.realAt o (i.1, 0, 0, 0)
    | 1 => s.realAt o (row, 0, 0, 0)
    | 2 => 0
    | _ => s.realAt o i
  else match argSlot f.code code with
    | some sl => s.realAt (f.op sl) i
    | none => 0

/-- The record an argument names for an element's row: `MEAN` and `VAR`. -/
def State.chainStat (s : State) (f : Flight) (slot : Nat) (own : Nat × Nat) (row code : Nat) : Nat × Nat :=
  let rec32 (o : Operand) : Nat × Nat := (s.rdElem o 0 row 0 0, s.rdElem o 1 row 0 0)
  if code = 12 then own
  else if code = 11 then rec32 (f.op 0xC)
  else if 5 ≤ code ∧ code ≤ 8 then rec32 (f.op (chainSlot slot (code - 5)))
  else (0, 0)

/-- A chain on v for an element at index `i` of tensor `o`, which also places its draws: `n` operations from position `i0` with
`jr` roundings before it. -/
def State.runChain (s : State) (x : ArrayState) (c : DrawCtx) (f : Flight) (slot w : Nat) (o : Operand) (i : Idx) (row : Nat)
    (k : Option Nat) (own : Nat × Nat) (n i0 v : Nat) : Nat × Nat :=
  let jr := ((List.range i0).filter fun p => decide (cOp w p = chRoundfmt)).length
  chainFrom x w (s.chainArg f slot w i row) (s.chainStat f slot own row) (fun j => c.rnd (cQrnd w) k o i j j) n i0 jr v 0

/-- The bytes of a chain's inputs for an element: its vector slots and second inputs, with their operands. -/
def Flight.chainPlaces (f : Flight) (slot w : Nat) (i : Idx) (row : Nat) : List (Operand × (Nat × Nat)) :=
  let v := (List.range 4).filterMap fun j => (f.op? (chainSlot slot j)).map fun o =>
    match cVkind w j with
    | 0 => (o, o.placeAt (i.1, 0, 0, 0))
    | 1 => (o, o.placeAt (row, 0, 0, 0))
    | 2 => (o, (o.bitAt (0, row, 0, 0) / 8, 8))
    | _ => (o, o.placeAt i)
  v ++ [9, 10].filterMap fun c =>
    if cUses w c then (argSlot f.code c).bind fun sl => (f.op? sl).map fun o => (o, o.placeAt i) else none

/-- The first poisoned unit among operands' bytes. -/
def State.poisonAt (s : State) (l : List (Operand × (Nat × Nat))) : Option FaultInfo :=
  l.findSome? fun e => s.poisonAmong e.1 [e.2]

/-! ## The tail (R183) -/

/-- The pattern stored for a value that is already the quotient. A destination of one bit has no conversion rule: its bit is
free, a function of the value, the rounding and the place (R55; log 23). -/
def Operand.storePat (o : Operand) (i : Idx) (r : Rnd) (v : Val) : Nat × Nat :=
  match o.fmt with
  | .bit => (Config.freeNat 0 [23, (convFloat fFP32 .rne v).pat, i.1, i.2.1, i.2.2.1, i.2.2.2] % 2, 0)
  | f =>
    let c := conv f r v
    (c.pat, orFlags (flagIf c.sat stStoreSat) (flagIf v.isNan stNanSeen))

/-- Division by the output's scale and conversion: pattern and status bits. -/
def State.tailPat (s : State) (o : Operand) (i : Idx) (r : Rnd) (v : Nat) : Nat × Nat :=
  let q := match o.scale with
    | none => v
    | some c => div32 v (s.factorAt c (o.rowOf i) i.1)
  o.storePat i r (val32 q)

/-- A value stored at an index of an operand. -/
def Operand.store (o : Operand) (i : Idx) (pat : Nat) : Nat × Nat × Nat := (o.bitAt i, o.fmt.bits, pat)

/-- An intermediate held in an output's format and scale (Table 06-13). -/
def State.faithful32 (s : State) (o : Operand) (i : Idx) (r : Rnd) (v : Nat) : Nat × Nat :=
  let g := s.factor o (o.rowOf i) i.1
  let c := conv o.fmt r (val32 (if o.scaled then div32 v g else v))
  let q := toFp32 o.fmt c.pat
  (if o.scaled then mul32 q g else q, flagIf c.sat stStoreSat)

/-! ## Row statistics (R225 to R228) -/

/-- Statistics of part of a row: count, compensated sum, chunk mean, squared deviations. -/
structure Stats where
  cnt : Nat
  sh : Nat
  sl : Nat
  mc : Nat
  qh : Nat
  ql : Nat
  deriving DecidableEq, Repr

/-- An exact rational rounded once to FP32. -/
def rne32 (v : Val) : Nat := arith fFP32 v

def compSum (l : List Nat) : Nat × Nat :=
  l.foldl (fun a x => let t := twoSum a.1 x
    (t.1, add32 a.2 t.2)) (0, 0)

def compSquares (mc : Nat) (l : List Nat) : Nat × Nat :=
  l.foldl (fun a x => let d := sub32 x mc
    let p := twoProd d d
    let t := twoSum a.1 p.1
    (t.1, add32 (add32 a.2 p.2) t.2)) (0, 0)

/-- (h + l) / n rounded once. -/
def meanOf (h l n : Nat) : Nat := rne32 (((val32 h).add (val32 l)).div (.ofNat n))

def chunkStats (l : List Nat) : Stats :=
  let sum := compSum l
  let mc := meanOf sum.1 sum.2 l.length
  let q := compSquares mc l
  { cnt := l.length, sh := sum.1, sl := sum.2, mc := mc, qh := q.1, ql := q.2 }

def Stats.merge (a b : Stats) : Stats :=
  let cnt := a.cnt + b.cnt
  let t := twoSum a.sh b.sh
  let d := sub32 b.mc a.mc
  let mc := add32 a.mc (mul32 d (rne32 ((Val.ofNat b.cnt).div (.ofNat cnt))))
  let sq := mul32 (mul32 d d) (rne32 ((Val.ofNat (a.cnt * b.cnt)).div (.ofNat cnt)))
  let q := twoSum a.qh b.qh
  let q2 := twoSum q.1 sq
  { cnt := cnt, sh := t.1, sl := add32 (add32 a.sl b.sl) t.2, mc := mc, qh := q2.1,
    ql := add32 (add32 (add32 a.ql b.ql) q.2) q2.2 }

/-- Statistics of a row's values, in chunks of 128; `n` bounds the chunks. -/
def rowStatsFrom : Nat → Option Stats → List Nat → Option Stats
  | 0, st, _ => st
  | n + 1, st, l =>
    if l = [] then st
    else
      let c := chunkStats (l.take 128)
      rowStatsFrom n (some (match st with | none => c | some a => a.merge c)) (l.drop 128)

def rowStats (l : List Nat) : Option Stats := rowStatsFrom (ceilDiv l.length 128) none l

/-- `MEAN` and `VAR` of a row's values (R226, R227). -/
def Stats.meanVar (t : Stats) : Nat × Nat := (t.mc, max32 0 (meanOf t.qh t.ql t.cnt))

/-- A NaN among the statistics of a row, its mean, variance and sums, arose (R230). -/
def statsFlag (t : Option Stats) : Nat := match t with
  | none => 0
  | some t => [t.mc, t.meanVar.2, t.sh, t.sl, t.qh, t.ql].foldl (fun n v => orFlags n (nanFlag v)) 0

/-- The eight words of a record (Table 06-7). -/
def recordWords (t : Option Stats) (status : Nat) : List Nat :=
  match t with
  | none => [0, 0, 0, 0, 0, 0, 0, status]
  | some t => [t.meanVar.1, t.meanVar.2, t.sh, t.sl, t.qh, t.ql, t.cnt, status]

/-- A record stored in row `r` of a statistics tensor. -/
def recordStores (o : Operand) (r : Nat) (ws : List Nat) : Stores :=
  (List.range 8).map fun j => o.store (j, r, 0, 0) (ws.getD j 0)

/-! ## Results of whole instructions -/

/-- What an instruction without Trellis rows does when it completes: values stored, the status word of each row written, and
bits set without a row. -/
structure VRes where
  stores : Stores := []
  rows : List Nat := []
  flags : Nat := 0
  deriving DecidableEq, Repr

def VRes.append (a b : VRes) : VRes :=
  { stores := a.stores ++ b.stores, rows := a.rows ++ b.rows, flags := orFlags a.flags b.flags }

/-- Rows that a mask keeps. -/
def State.keptRows (s : State) (f : Flight) (n : Nat) : List Nat :=
  (List.range n).filter fun r => s.maskBit (f.op? 0x12) r

/-- The status of a row and its stored elements from its elements' stores and flags. -/
def rowRes (l : List ((Nat × Nat × Nat) × Nat)) : VRes :=
  { stores := l.map (·.1), rows := [l.foldl (fun a e => orFlags a e.2) 0] }

/-- The linear index of an element (R315). -/
def Operand.linear (o : Operand) (i : Idx) : Nat := i.1 + o.e 0 * o.rowOf i

/-- The store code's rounding after a chain's draws. -/
def DrawCtx.storeRnd (c : DrawCtx) (f : Flight) (chain : Option Nat) (k : Option Nat) (o : Operand) (i : Idx) : Rnd :=
  let d := chainDraws chain
  c.rnd f.rnd k o i d.1 d.2

/-- What the lane-keyed draws without a place, and the lanes after them, depend on: the stream and the instruction. -/
def ArrayState.drawKey (x : ArrayState) (f : Flight) : List Nat := [x.lkPoly, x.lane 0, f.word]

/-- What a draw of code `code` without a place depends on beside its element: of a tile-keyed one the tile key alone (R55, R318,
R320), of a lane-keyed one the stream. -/
def ArrayState.streamKey (x : ArrayState) (code : Nat) : List Nat :=
  if code = 6 then [6, x.keyPoly, x.keyBase.toNat, x.tileH, x.tileW] else [5, x.lkPoly, x.lane 0]

/-- Draws of an instruction whose positions take the words of `chain` and of its store. -/
def State.drawCtx (s : State) (x : ArrayState) (f : Flight) (chain : Option Nat) : DrawCtx :=
  { arr := x, lanes := s.lanesActive, sr := f.sr, k0 := f.drawn, d := laneDraws chain f.rnd, free := 22 :: x.drawKey f }

/-- `VEC` (R232). -/
def State.vecRes (s : State) (x : ArrayState) (f : Flight) : VRes :=
  let xo := f.op 8
  let out := f.op 0xE
  let chain := f.chain? 0x10
  let c := s.drawCtx x f chain
  (s.keptRows f xo.rows).foldl (fun acc r =>
    acc.append (rowRes ((xo.rowIdx r).map fun i =>
      let k := some (out.linear i)
      let v := s.realAt xo i
      let y := match chain with
        | none => (v, 0)
        | some w => s.runChain x c f 0x10 w out i r k (0, 0) (min 9 (cLen w)) 0 v
      let p := s.tailPat out i (c.storeRnd f chain k out i) y.1
      (out.store i p.1, orFlags (nanFlag v) (orFlags y.2 p.2))))) {}

/-- Exponentials of a row's scores and their sum in ER40 (R242, R245, R247): patterns of p, D and status bits. -/
def softSum (l : List Nat) : List Nat × Nat × Nat :=
  l.foldl (fun a v =>
    let p := expER24 v
    let d := convFloat fER40 .rne ((decodeFloat fER40 a.2.1).add (decodeFloat fER24 p.1))
    (a.1 ++ [p.1], d.pat, orFlags a.2.2 (orFlags (flagIf (p.2 || d.sat) stScoreRange) (nanFlag v)))) ([], 0, 0)

/-- The exact quotient rounded once into ER40, then converted to FP32 under `RNE` (R246, R247). -/
def quot40 (a d : Val) : Nat :=
  (convFloat fFP32 .rne (decodeFloat fER40 (convFloat fER40 .rne (a.div d)).pat)).pat

/-- A `ROW` whose function applies no chain: one that it names is ignored (log 49). -/
def Flight.ignoresChain (f : Flight) : Bool := f.code == opRow && decide (4 ≤ fieldAt f.word 0x14 0 8)

/-- The chain that a `ROW` applies. -/
def Flight.rowChain (f : Flight) : Option Nat := if f.ignoresChain then none else f.chain? 0x10

/-- `ROW` (R233, R247, R248) on row `r`. -/
def State.rowFn (s : State) (x : ArrayState) (f : Flight) (c : DrawCtx) (r : Nat) : VRes :=
  let xo := f.op 8
  let out := f.op 0xA
  let fn := fieldAt f.word 0x14 0 8
  let chain := f.chain? 0x10
  let idx := xo.rowIdx r
  let vals := idx.map fun i => s.realAt xo i
  let inNan := vals.foldl (fun a v => orFlags a (nanFlag v)) 0
  let st := rowStats vals
  let withRecord (v : VRes) (ws : Nat → List Nat) : VRes :=
    let status := v.rows.headD 0
    match f.op? 0xE with
    | some o => { v with stores := v.stores ++ recordStores o r (ws status) }
    | none => v
  let one (v : Nat) : VRes :=
    let i : Idx := (0, out.rowTuple r)
    let p := s.tailPat out i (c.storeRnd f none (some (out.linear i)) out i) v
    { stores := [out.store i p.1], rows := [orFlags inNan p.2] }
  let chained (stats : Nat × Nat) (faith : Bool) : VRes :=
    rowRes ((idx.zip vals).map fun e =>
      let i := e.1
      let k := some (out.linear i)
      let v := if faith then s.faithful32 out i (rndPlain f.rnd) e.2 else (e.2, 0)
      let y := match chain with
        | none => v
        | some w => s.runChain x c f 0x10 w out i r k stats (min 9 (cLen w)) 0 v.1
      let p := s.tailPat out i (c.storeRnd f chain k out i) y.1
      (out.store i p.1, orFlags (nanFlag e.2) (orFlags v.2 (orFlags y.2 p.2))))
  if fn = 0 then withRecord { rows := [orFlags inNan (statsFlag st)] } (recordWords st)
  else if fn = 1 then chained (0, 0) false
  else if fn = 2 then
    let body := chained (match st with | some t => t.meanVar | none => (0, 0)) (modBit f.word 0)
    withRecord { body with rows := [orFlags (body.rows.headD 0) (statsFlag st)] } (recordWords st)
  else if fn = 3 then
    let p := softSum vals
    let d := decodeFloat fER40 p.2.1
    let empty := d.isZero
    let body := rowRes ((idx.zip p.1).map fun e =>
      let v := if empty then 0 else quot40 (decodeFloat fER24 e.2) d
      let q := s.tailPat out e.1 (c.storeRnd f none (some (out.linear e.1)) out e.1) v
      (out.store e.1 q.1, q.2))
    let status := orFlags (body.rows.headD 0) (orFlags p.2.2 (flagIf empty stEmptyRow))
    withRecord { body with rows := [status] } fun w =>
      [if empty then negInf32 else lnVal32 d, 0, 0, 0, 0, 0, vals.length, w]
  else if fn = 4 then one (match st with | some t => add32 t.sh t.sl | none => 0)
  else one (vals.foldl max32 negInf32)

def State.rowRes' (s : State) (x : ArrayState) (f : Flight) : VRes :=
  let c := s.drawCtx x f f.rowChain
  (s.keptRows f (f.op 8).rows).foldl (fun acc r => acc.append (s.rowFn x f c r)) {}

/-- A special function at x as an exact value, and status bits (R235); `EXP` gives its ER40 value (log 24). -/
def sfnVal (x : ArrayState) (fn : Nat) (compat : Bool) (v : Nat) : Val × Nat :=
  match fn with
  | 0 => let p := expER40 (val32 v)
    (decodeFloat fER40 p.1, flagIf p.2 stStoreSat)
  | 1 => (val32 (if compat then compat32 true v else tanh32 v), 0)
  | 2 => (val32 (if compat then compat32 false v else logistic32 v), 0)
  | 3 => (val32 (rsqrt32 v), 0)
  | 4 => (val32 (ln32 v), 0)
  | 5 => (val32 (div32 one32 v), 0)
  | 6 => (val32 (x.userTable 1 v), 0)
  | _ => (val32 (x.userTable 2 v), 0)

/-- `SFN` (R235). -/
def State.sfnRes (s : State) (x : ArrayState) (f : Flight) : VRes :=
  let xo := f.op 8
  let out := f.op 0xA
  let c := s.drawCtx x f none
  (List.range xo.rows).foldl (fun acc r =>
    acc.append (rowRes ((xo.rowIdx r).map fun i =>
      let v := s.realAt xo i
      let y := sfnVal x (fieldAt f.word 1 1 3) (modBit f.word 0) v
      let rnd := c.storeRnd f none (some (out.linear i)) out i
      let p := if out.scaled then s.tailPat out i rnd (convFloat fFP32 .rne y.1).pat else out.storePat i rnd y.1
      (out.store i p.1, orFlags (orFlags (nanFlag v) (flagIf y.1.isNan stNanSeen)) (orFlags y.2 p.2))))) {}

/-! ## RNG (R321, R322) -/

/-- 2^−24 and 2^−21 times an integer, exact in FP32. -/
def scaled24 (n : Nat) : Nat := arith fFP32 (.fin false n 1 (-24))

/-- The value of a distribution from its words: an FP32 pattern (Table 09-3). -/
def distVal (x : ArrayState) (dist w0 w1 : Nat) : Nat :=
  if dist = 1 then scaled24 (bits w0 40 24)
  else if dist = 2 then
    let k := bits w0 53 11
    let fr := arith fFP32 (.fin false (bits w0 32 21) 1 (-21))
    fma32 fr (x.bankEntry 0 (2 * k + 1)) (x.bankEntry 0 (2 * k))
  else
    let u1 := scaled24 (bits w0 40 24 + 1)
    mul32 (sqrt32 (mul32 0xC0000000 (ln32 u1))) (cos2pi (bits w1 40 24))

/-- Words that each element of a distribution takes. -/
def distWords (dist : Nat) : Nat := if dist = 3 then 2 else 1

/-- `RNG` fills `OUT`. -/
def State.rngRes (s : State) (x : ArrayState) (f : Flight) : VRes :=
  let out := f.op 8
  let dist := fieldAt f.word 1 0 2
  let tk := modBit f.word 2
  let d := distWords dist
  (List.range out.rows).foldl (fun acc r =>
    acc.append (rowRes ((out.rowIdx r).map fun i =>
      let word (j : Nat) : Nat :=
        if tk then let p := out.drawPos i
          x.tileWord p.1 p.2 j
        else x.laneWord s.lanesActive 0 (out.linear i) d j
      if dist = 0 then (out.store i (bits (word 0) (64 - out.fmt.bits) out.fmt.bits), 0)
      else
        let v := distVal x dist (word 0) (if dist = 3 then word 1 else 0)
        let p := s.tailPat out i (rndPlain f.rnd) v
        (out.store i p.1, orFlags (nanFlag v) p.2)))) {}

end Sys2Proof.Machine
end

