-- ==== Sys2Proof/Machine/Matrix.lean ====
section
/-! DEFINITION. The matrix products `MM`, `MMC` and `MMX` (04 R174 to R183, 05 R185 to R207): the reduction of each element,
the output path, and what a compute row and a store row of their Trellis do. -/
namespace Sys2Proof.Machine

/-! ## Reduction (R174 to R176, R192) -/

/-- The sum that a column of cells forms over a reduction tile of `kt` positions; positions past the operands are fed +0. -/
def colSum (kt : Nat) (l : List (Nat × Nat)) : Nat :=
  let s := l.foldl (fun s p => fma32 p.1 p.2 s) 0
  if l.length < kt then fma32 0 0 s else s

/-- A compensated column sum. -/
def colPair (kt : Nat) (l : List (Nat × Nat)) : Nat × Nat :=
  let step (h : Nat × Nat) (p : Nat) : Nat × Nat := let t := twoSum h.1 p
    (t.1, add32 h.2 t.2)
  let s := l.foldl (fun h p => step h (mul32 p.1 p.2)) (0, 0)
  if l.length < kt then step s 0 else s

/-- A 32-bit accumulator's update: the value and whether it saturated. -/
def satAdd (a b : Int) : Int × Bool :=
  let r := a + b
  if r < -(2 ^ 31) then (-(2 ^ 31), true) else if 2 ^ 31 - 1 < r then (2 ^ 31 - 1, true) else (r, false)

/-- An integer column sum and whether an update saturated. -/
def colInt (l : List (Int × Int)) : Int × Bool :=
  l.foldl (fun s p => let t := satAdd s.1 (p.1 * p.2)
    (t.1, s.2 || t.2)) (0, false)

/-- A stream of a reduction tile: part of A, part of B, negated or not, accumulator set (Tables 05-9, 05-10). -/
abbrev StreamSpec := Nat × Nat × Bool × Nat

def Flight.streamSpecs (f : Flight) : List StreamSpec :=
  let w := f.word
  if f.code = opMmc then
    if modBit w 2 then [(0, 0, false, 0), (1, 1, false, 1), (2, 2, false, 2)]
    else [(0, 0, false, 0), (1, 0, false, 1), (1, 1, true, 0), (0, 1, false, 1)]
  else if f.code = opMmx then
    (if modBit w 3 then [(0, 2), (1, 1), (0, 1), (2, 0), (1, 0), (0, 0)] else [(0, 1), (1, 0), (0, 0)]).map
      fun p => (p.1, p.2, false, 0)
  else [(0, 0, false, 0)]

/-- How the cells work: float, compensated or integer mode. -/
inductive CellMode where
  | float
  | comp
  | int
  deriving DecidableEq, Repr

/-- A stream's sum enters its set. -/
def Acc.enter (mode : CellMode) (kt : Nat) (neg : Bool) (fmtA fmtB : Fmt) (l : List (Nat × Nat)) (a : Acc) : Acc :=
  match mode with
  | .float =>
    let s := colSum kt (l.map fun p => (if neg then neg32 (toFp32 fmtA p.1) else toFp32 fmtA p.1, toFp32 fmtB p.2))
    { a with v := add32 a.v s }
  | .comp =>
    let s := colPair kt (l.map fun p => (toFp32 fmtA p.1, toFp32 fmtB p.2))
    let t := twoSum a.v s.1
    { a with v := t.1, lo := add32 (add32 a.lo s.2) t.2 }
  | .int =>
    let num (f : Fmt) (x : Nat) : Int := match f with
      | .int4 => signedOf 4 x
      | .uint8 => x
      | _ => signedOf 8 x
    let s := colInt (l.map fun p => (if neg then - num fmtA p.1 else num fmtA p.1, num fmtB p.2))
    let t := satAdd a.i s.1
    { a with i := t.1, flags := orFlags a.flags (flagIf (s.2 || t.2) stAccSat) }

/-- The accumulators of one output element after the reduction tiles of `kt` indices that `as` and `bs` hold, in increasing
order, streams in order (R192). -/
def reduce (mode : CellMode) (kt : Nat) (specs : List StreamSpec) (fmtA fmtB : Fmt) (as bs : List (List Nat)) (init : List Acc) :
    List Acc :=
  let k := (as.headD []).length
  (List.range (ceilDiv k kt)).foldl (fun sets t =>
    specs.foldl (fun sets sp =>
      let cut (l : List Nat) : List Nat := (l.drop (t * kt)).take kt
      let pairs := (cut (as.getD sp.1 [])).zip (cut (bs.getD sp.2.1 []))
      sets.modify sp.2.2.2 (Acc.enter mode kt sp.2.2.1 fmtA fmtB pairs)) sets) init

/-! ## Operands of a product -/

/-- The cells' mode (04). -/
def Flight.cellMode (f : Flight) : CellMode :=
  let b := if f.code = opMmc then 0xC else 0xA
  if f.code ≠ opMmc ∧ f.code ≠ opConv ∧ f.code ≠ opConvf ∧ modBit f.word 2 then .comp
  else if intPair (f.fc 8) (f.fc b) then .int else .float

/-- BF16 pieces of an FP32 operand, as FP32 values (R179). -/
def bf16Piece (x : Nat) : Nat := toFp32 .bf16 (convFloat fBF16 .rne (val32 x)).pat
def pieces (x : Nat) : List Nat :=
  if isFinite32 x then
    let x0 := bf16Piece x
    let r := sub32 x x0
    let x1 := bf16Piece r
    [x0, x1, bf16Piece (sub32 r x1)]
  else [canon32 x, 0, 0]

/-- The fed A elements of row `m` at the reduction indices `ks`, by part, and the status bits of its prologue (R222). -/
def State.aParts (s : State) (x : ArrayState) (c : DrawCtx) (f : Flight) (ks : List Nat) (m : Nat) : List (List Nat) × Nat :=
  let a := f.op 8
  let raw (o : Operand) : List Nat := ks.map fun k => s.rdElem o k m 0 0
  if f.code = opMmc then
    let re := raw a
    let im := raw (f.op 0xA)
    let sum := (re.zip im).map fun p => (conv a.fmt .rne ((valOf a.fmt p.1).add (valOf (f.op 0xA).fmt p.2))).pat
    -- each part enters in its own format; parts are given in the format of A_RE as FP32 where they differ
    ([re.map (toFp32 a.fmt), im.map (toFp32 (f.op 0xA).fmt), sum.map (toFp32 a.fmt)], 0)
  else if f.code = opMmx then
    let ps := (raw a).map pieces
    ((List.range 3).map fun p => ps.map fun l => l.getD p 0, 0)
  else match f.chain? 0x12 with
    | none => ([raw a], 0)
    | some w =>
      let row := ks.map fun k =>
        let i : Idx := (k, m, 0, 0)
        let y := s.runChain x c f 0x12 w a i m none (0, 0) (min 9 (cLen w)) 0 (s.realAt a i)
        let v := if a.scaled then div32 y.1 (s.factor a m k) else y.1
        ((conv a.fmt .rne (val32 v)).pat, orFlags y.2 (nanFlag v))
      ([row.map (·.1)], row.foldl (fun n e => orFlags n e.2) 0)

/-- The B elements of column `n` at the reduction indices `ks`, by part. -/
def State.bParts (s : State) (f : Flight) (ks : List Nat) (n : Nat) : List (List Nat) :=
  let b := f.op (if f.code = opMmc then 0xC else 0xA)
  let raw (o : Operand) : List Nat := ks.map fun k => s.rdElem o n k 0 0
  if f.code = opMmc then
    let im := f.op 0xE
    let sum := ((raw b).zip (raw im)).map fun p => (conv b.fmt .rne ((valOf b.fmt p.1).add (valOf im.fmt p.2))).pat
    [(raw b).map (toFp32 b.fmt), (raw im).map (toFp32 im.fmt), sum.map (toFp32 b.fmt)]
  else if f.code = opMmx then
    let ps := (raw b).map pieces
    (List.range 3).map fun p => ps.map fun l => l.getD p 0
  else [raw b]

/-- The formats in which `aParts` and `bParts` give elements: those of `MMC` and `MMX` are FP32 patterns, but for integers. -/
def Flight.partFmts (f : Flight) : Fmt × Fmt :=
  if f.code = opMm then ((f.op 8).fmt, (f.op 0xA).fmt) else (.fp32, .fp32)

/-- An integer-mode `MMC` takes its elements as patterns. -/
def State.intParts (s : State) (f : Flight) (slots : List Nat) (row : Bool) (ks : List Nat) (j : Nat) : List (List Nat) :=
  slots.map fun sl => let o := f.op sl
    ks.map fun k => if row then s.rdElem o k j 0 0 else s.rdElem o j k 0 0

/-- An accumulator started from an element of C (R177). -/
def State.accFrom (s : State) (f : Flight) (slot : Nat) (i : Idx) : Acc :=
  let o := f.op slot
  let v := valOf o.fmt (s.elemAt o i)
  match f.cellMode with
  | .int =>
    match v with
    | .nan => { i := 0, flags := stNanSeen }
    | _ => let c := convInt (-(2 ^ 31)) (2 ^ 31 - 1) .rne v
      { i := c.1, flags := flagIf (c.2 || decide (v = .inf true) || decide (v = .inf false)) stAccSat }
  | .comp =>
    if o.fmt = .pair then let p := s.elemAt o i
      { v := toFp32 .bf16 (bits p 0 16), lo := toFp32 .bf16 (bits p 16 16) }
    else { v := s.elemAt o i, lo := match f.op? (if f.code = opMm then 0x1A else 0xE) with
      | some l => s.elemAt l i
      | none => 0 }
  | .float => { v := arith fFP32 v }

/-- The accumulators with which output element (n, m) starts: 0, or `C` with `ACCUM` (R177, R190). -/
def State.accStart (s : State) (f : Flight) (n m : Nat) : List Acc :=
  let i : Idx := (n, m, 0, 0)
  let accum := modBit f.word 1
  let start (slot : Nat) : Acc := if accum then s.accFrom f slot i else {}
  if f.code = opMmc then (if modBit f.word 2 then [{}, {}, {}] else [start 0x10, start 0x12]) else [start 0xC]

/-- The accumulators `init` of an output element after a compute row's reduction tiles (R190, R192). -/
def Flight.matAcc (f : Flight) (as bs : List (List Nat)) (init : List Acc) : List Acc :=
  let fm := if f.cellMode = .int then ((f.op 8).fmt, (f.op (if f.code = opMmc then 0xC else 0xA)).fmt) else f.partFmts
  reduce f.cellMode 128 f.streamSpecs fm.1 fm.2 as bs init

/-! ## Output path (R183, R221, R250, R251) -/

/-- The value that leaves an accumulator. -/
def Acc.out (mode : CellMode) (a : Acc) : Nat := match mode with
  | .int => ofInt32 a.i
  | _ => a.v

/-- The scale uses of the parts of an operand agree, so that one factor serves them (log 28). -/
def Flight.sameScale (f : Flight) (a b : Nat) : Bool := decide ((f.op a).scale = (f.op b).scale)

/-- What the bits of an accumulator are. -/
def Acc.key (a : Acc) : List Nat := [a.v, a.lo, a.i.toNat, (-a.i).toNat]

/-- The factors g_a and g_b of the scales of the slots `l`, as bits. -/
def State.factorKey (s : State) (f : Flight) (n m : Nat) (l : List Nat) : List Nat :=
  l.flatMap fun sl => match f.op? sl with
    | some o => [s.factor o m n]
    | none => []

/-- The value of part `p` of an output element after the factor of R183, and status bits. R206 applies R183 to `GAUSS` = 1 from the
epilogue onward: no factor. The spec gives `GAUSS` = 0 no factor where its parts' scales differ, and no start of the three sets of
`GAUSS` = 1 from C: that value is free, a function of what the element depends on (R55; log 28). -/
def State.partVal (s : State) (f : Flight) (accs : List Acc) (n m p : Nat) : Nat × Nat :=
  let mode := f.cellMode
  let at_ (j : Nat) : Acc := accs.getD j {}
  let flags := accs.foldl (fun x a => orFlags x a.flags) 0
  let v :=
    if f.code = opMmc ∧ modBit f.word 2 then
      let pp := (at_ 0).v
      let q := (at_ 1).v
      if p = 0 then sub32 pp q else sub32 (sub32 (at_ 2).v pp) q
    else (at_ p).out mode
  let a := f.op 8
  let b := f.op (if f.code = opMmc then 0xC else 0xA)
  let fl := if f.code = opMmc then (at_ p).flags else flags
  let gauss := decide (f.code = opMmc) && modBit f.word 2
  let unsure := decide (f.code = opMmc)
    && (if modBit f.word 2 then modBit f.word 1 else !f.sameScale 8 0xA || !f.sameScale 0xC 0xE)
  if unsure then
    let c : List Nat := if gauss then [0x10, 0x12].map fun sl => s.elemAt (f.op sl) (n, m, 0, 0) else []
    (Config.freeNat 0 ([28, p, v] ++ accs.flatMap Acc.key ++ s.factorKey f n m [8, 0xA, 0xC, 0xE] ++ c) % 2 ^ 32, fl)
  else if !gauss && (a.scaled || b.scaled) then (mul32 v (mul32 (s.factor a m 0) (s.factor b 0 n)), fl)
  else (v, fl)

/-- The slots of the epilogue, bias and residual, and of the outputs. -/
def Flight.outPath (f : Flight) : Nat × Nat × Nat × List Nat :=
  if f.code = opMmc then (0x14, 0, 0, [0x10, 0x12])
  else if f.code = opMm then (0x14, 0x10, 0xE, [0xC])
  else if f.code = opMmx then (0x14, 0x10, 0x12, [0xC])
  else (0x12, 0xE, 0x14, [0xC])

/-- The epilogue's input: after `BIAS`, held in the output's format in storage-faithful mode when the chain has operations. -/
def State.epiIn (s : State) (f : Flight) (out : Operand) (i : Idx) (v : Nat) : Nat × Nat :=
  let p := f.outPath
  let b := match f.op? p.2.1 with
    | some o => add32 v (s.realAt o (i.1, 0, 0, 0))
    | none => v
  let len := match f.chain? p.1 with
    | some w => min 9 (cLen w)
    | none => 0
  if modBit f.word 0 && decide (1 ≤ len) then s.faithful32 out i (rndPlain f.rnd) b else (b, 0)

/-- The epilogue from position `i0` on, then `RES` unless code 9 names it (R221): the FP32 value and status bits. -/
def State.epiFrom (s : State) (x : ArrayState) (c : DrawCtx) (f : Flight) (out : Operand) (i : Idx) (k : Option Nat)
    (own : Nat × Nat) (i0 v : Nat) : Nat × Nat :=
  let p := f.outPath
  let y := match f.chain? p.1 with
    | none => (v, 0)
    | some w => s.runChain x c f p.1 w out i (out.rowOf i) k own (min 9 (cLen w) - i0) i0 v
  let named := match f.chain? p.1 with
    | some w => cUses w 9
    | none => false
  match f.op? p.2.2.1 with
  | some o => if named then y else (add32 y.1 (s.realAt o i), y.2)
  | none => y

/-- The value that enters own-row statistics: at the first operation that names code 12, or the epilogue's input in
storage-faithful mode (Table 06-13). -/
def State.ownVal (s : State) (x : ArrayState) (c : DrawCtx) (f : Flight) (out : Operand) (i : Idx) (k : Option Nat) (v : Nat) :
    Nat :=
  if modBit f.word 0 then v
  else match f.chain? f.outPath.1 with
    | none => v
    | some w => (s.runChain x c f f.outPath.1 w out i (out.rowOf i) k (0, 0) (firstOwn w) 0 v).1

/-- A compensated element's stores: `BIAS` and `RES` join the pair, then `C` and `CLO` (R176). -/
def State.compStores (s : State) (f : Flight) (a : Acc) (i : Idx) : Stores × Nat :=
  let p := f.outPath
  let join (a : Nat × Nat) (slot : Nat) : Nat × Nat := match f.op? slot with
    | some o => let t := twoSum a.1 (s.realAt o (if slot = p.2.1 then (i.1, 0, 0, 0) else i))
      (t.1, add32 a.2 t.2)
    | none => a
  let h := join (join (a.v, a.lo) p.2.1) p.2.2.1
  let c := f.op 0xC
  if c.fmt = .pair then
    let v := (val32 h.1).add (val32 h.2)
    let r := convPair v
    ([c.store i r.pat], orFlags (flagIf r.sat stStoreSat) (flagIf v.isNan stNanSeen))
  else
    let t := twoSum h.1 h.2
    let clo := f.op (if f.code = opMm then 0x1A else 0xE)
    ([c.store i t.1, clo.store i t.2], nanFlag t.1)

/-! ## Tiles -/

/-- Draws are made in one of the stochastic modes (R172); a compensated store makes none. -/
def Flight.usesCode (f : Flight) (code : Nat) : Bool :=
  (decide (f.rnd = code) && (decide (f.cellMode ≠ .comp) || !(f.code == opMm || f.code == opMmx)) && f.code != opSort
      && f.code != opKvexp && f.code != opCopy && f.code != opRng && !(f.code == opRow && decide (fieldAt f.word 0x14 0 8 = 0)))
    || (!f.ignoresChain && f.chains.any fun c => decide (cQrnd c.2 = code ∧ 0 < cRounds c.2))
    || (f.code == opRng && decide (modBit f.word 2 = decide (code = 6)))

/-- Some chain other than the output's draws lane-keyed words, whose order among the store's the spec does not give: every
lane-keyed draw of the instruction, and the lanes after it, are free (log 22). -/
def Flight.looseLanes (f : Flight) : Bool :=
  f.chains.any fun c => decide (c.1 ≠ f.outChain ∧ cQrnd c.2 = 5 ∧ 0 < cRounds c.2)

/-- Streams that the instruction draws from and that no seed has set are seeded (R313, R317). -/
def Flight.seedStreams (f : Flight) (a : Nat) (x : ArrayState) : ArrayState :=
  let x1 := if f.usesCode 5 then x.useStream a true else x
  if f.usesCode 6 then x1.useStream a false else x1

/-- The rows m of a tile that a mask keeps. -/
def State.tileRows (s : State) (f : Flight) (m0 mE : Nat) : List Nat :=
  ((List.range mE).map (m0 + ·)).filter fun m => s.maskBit (f.op? 0x16) m

/-- What a tile gives: values stored, and for each row its status, statistic values and own-row values. -/
structure TileRes where
  stores : Stores := []
  rows : List (Nat × RowAcc) := []
  deriving DecidableEq, Repr

/-- The draws of part `p` of a product's tile. Each position of an `MMC` takes the words of both parts one after the other; which
part goes first the spec does not say (log 22). -/
def State.matCtx (s : State) (x : ArrayState) (f : Flight) (p : Nat) : DrawCtx :=
  let c := s.drawCtx x f (f.chain? f.outPath.1)
  if f.code = opMmc then { c with d := 2 * c.d, off := if decide (p = 1) = Config.freeBool 0x315 then 0 else c.d } else c

/-- The operands of row `m` and column `n` as the cells take them at the reduction indices `ks`. -/
def State.feedA (s : State) (x : ArrayState) (c : DrawCtx) (f : Flight) (ks : List Nat) (m : Nat) : List (List Nat) × Nat :=
  if f.cellMode = .int ∧ f.code = opMmc then (s.intParts f [8, 0xA] true ks m, 0) else s.aParts x c f ks m
def State.feedB (s : State) (f : Flight) (ks : List Nat) (n : Nat) : List (List Nat) :=
  if f.cellMode = .int ∧ f.code = opMmc then s.intParts f [0xC, 0xE] false ks n else s.bParts f ks n

/-- The accumulators of an output tile, by column and row. -/
abbrev TileAccs := List (Nat × Nat × List Acc)

/-- The accumulators of column `n` and row `m`. -/
def accsAt (l : TileAccs) (n m : Nat) : List Acc :=
  ((l.find? fun e => decide (e.1 = n) && decide (e.2.1 = m)).map (·.2.2)).getD []

/-- The accumulators of its output tile after compute row `r`, and the status bits of each row's prologue (R190 to R192). -/
def State.matSum (s : State) (x : ArrayState) (f : Flight) (r : TRow) : TileAccs × List (Nat × RowAcc) :=
  let ks := (List.range r.kExt).map (r.k0 + ·)
  let bs := (List.range r.nExt).map fun j => (r.n0 + j, s.feedB f ks (r.n0 + j))
  let rows := (s.tileRows f r.m0 r.mExt).map fun m =>
    let a := s.feedA x (s.matCtx x f 0) f ks m
    (bs.map fun b => (b.1, m, f.matAcc a.1 b.2 (if r.k0 = 0 then s.accStart f b.1 m else accsAt x.accs b.1 m)),
      (m, ({ flags := a.2 } : RowAcc)))
  (rows.flatMap (·.1), rows.map (·.2))

/-- The own-row values of a tile of the first of two passes, of each part in its own format (R248, R251). A lane-keyed `ROUNDFMT`
before code 12 takes a free word here: the pass consumes no draw (log 22). -/
def State.matFirst (s : State) (x : ArrayState) (f : Flight) (r : TRow) (accs : TileAccs) : List (Nat × RowAcc) :=
  let own (p m : Nat) : List Nat := (List.range r.nExt).map fun j =>
    let out := f.op (f.outPath.2.2.2.getD p 0xC)
    let n := r.n0 + j
    let i : Idx := (n, m, 0, 0)
    s.ownVal x (s.matCtx x f p) f out i none (s.epiIn f out i (s.partVal f (accsAt accs n m) n m p).1).1
  (s.tileRows f r.m0 r.mExt).map fun m => (m, { own := own 0 m, ownIm := if f.code = opMmc then own 1 m else [] })

/-- The output path of a tile: `own` and `ownIm` of `prev` are the own-row values gathered by a first pass. -/
def State.matTile (s : State) (x : ArrayState) (f : Flight) (g : Grid) (r : TRow) (prev : List (Nat × RowAcc)) (accs : TileAccs) :
    TileRes :=
  let mode := f.cellMode
  let outs := f.outPath.2.2.2
  let rows := (s.tileRows f r.m0 r.mExt).map fun m =>
    let ins := (List.range r.nExt).map fun j => (r.n0 + j, accsAt accs (r.n0 + j) m)
    if mode = .comp then
      let l := ins.map fun e => s.compStores f (e.2.getD 0 {}) (e.1, m, 0, 0)
      (m, (l.flatMap (·.1), ({ flags := l.foldl (fun n e => orFlags n e.2) 0 } : RowAcc)))
    else
      let parts := (List.range outs.length).map fun p =>
        let c := s.matCtx x f p
        let out := f.op (outs.getD p 0xC)
        let pre := ins.map fun e =>
          let i : Idx := (e.1, m, 0, 0)
          let v := s.partVal f e.2 e.1 m p
          let k : Option Nat := if f.looseLanes then none else some (f.drawn + (m - r.m0) * g.nt + (e.1 - r.n0))
          let q := s.epiIn f out i v.1
          (i, k, q.1, orFlags v.2 (orFlags (nanFlag v.1) q.2))
        let own :=
          if f.ownRow = false then none
          else rowStats (if g.two then (match mapFind m prev with | some t => if p = 0 then t.own else t.ownIm | none => [])
              else pre.map fun e => s.ownVal x c f out e.1 e.2.1 e.2.2.1)
        let stats := (own.map Stats.meanVar).getD (0, 0)
        pre.map fun e =>
          let y := s.epiFrom x c f out e.1 e.2.1 stats 0 e.2.2.1
          let t := s.tailPat out e.1 (c.storeRnd f (f.chain? f.outPath.1) e.2.1 out e.1) y.1
          let stat := if modBit f.word 0 then (conv .fp32 .rne (let v := valOf out.fmt t.1
              if out.scaled then v.mul (val32 (s.factor out (out.rowOf e.1) e.1.1)) else v)).pat else y.1
          (out.store e.1 t.1, orFlags e.2.2.2 (orFlags (statsFlag own) (orFlags y.2 (orFlags (nanFlag y.1) t.2))), stat)
      let all := parts.flatten
      (m, (all.map (·.1), { flags := all.foldl (fun n e => orFlags n e.2.1) 0, vals := all.map (·.2.2) }))
  { stores := rows.flatMap fun e => e.2.1, rows := rows.map fun e => (e.1, e.2.2) }

/-- Row accumulators joined: status bits united, values in the order of the tiles. -/
def joinRows (old new : List (Nat × RowAcc)) : List (Nat × RowAcc) :=
  new.foldl (fun m e => mapMod (fun _ => {}) e.1 (fun a =>
    { flags := orFlags a.flags e.2.flags, vals := a.vals ++ e.2.vals, own := a.own ++ e.2.own, ownIm := a.ownIm ++ e.2.ownIm }) m)
    old

/-! ## Faults of a compute row (Table 02-4, R182, R194) -/

/-- The bytes of A that a compute row's cells take for row `m`. -/
def Flight.aPlaces (f : Flight) (k0 kE m : Nat) : List (Operand × (Nat × Nat)) :=
  (if f.code = opMmc then [8, 0xA] else [8]).flatMap fun sl => let o := f.op sl
    (List.range kE).map fun k => (o, o.placeAt (k0 + k, m, 0, 0))

/-- The first poisoned unit or bad scale that a compute row depends on: of row scales, those of the rows that the mask keeps
(DEDUCED, log 151). -/
def State.matFault (s : State) (f : Flight) (r : TRow) (last : Bool) : Option FaultInfo :=
  let rows := s.tileRows f r.m0 r.mExt
  let cols := (List.range r.nExt).map (r.n0 + ·)
  let p := f.outPath
  let bSlots := if f.code = opMmc then [0xC, 0xE] else [0xA]
  let clean := s.mem.poison = [] && s.mem.lostStripes = []
    && !(f.ops.any fun o => decide (regionOf o.base = .ice))
  let ins : List (Operand × (Nat × Nat)) := if clean then [] else
    (match f.op? 0x16 with
      | some o => ((List.range r.mExt).map fun i => (o, o.placeAt (r.m0 + i, 0, 0, 0)))
      | none => [])
    ++ rows.flatMap (fun m => f.aPlaces r.k0 r.kExt m
      ++ (match f.chain? 0x12 with
          | some w => if f.code = opMm then (List.range r.kExt).flatMap fun k =>
              f.chainPlaces 0x12 w (r.k0 + k, m, 0, 0) m else []
          | none => []))
    ++ (if rows = [] then [] else bSlots.flatMap fun sl => let o := f.op sl
        cols.flatMap fun n => (List.range r.kExt).map fun k => (o, o.placeAt (n, r.k0 + k, 0, 0)))
    ++ (if last then rows.flatMap fun m => cols.flatMap fun n =>
        let i : Idx := (n, m, 0, 0)
        (if modBit f.word 1 then (p.2.2.2 ++ [if f.code = opMm then 0x1A else 0xE]).filterMap fun sl =>
            if f.code = opMmc ∧ sl = 0xE then none else (f.op? sl).map fun o => (o, o.placeAt i) else [])
        ++ ([p.2.1].filterMap fun sl => (f.op? sl).map fun o => (o, o.placeAt (n, 0, 0, 0)))
        ++ ([p.2.2.1].filterMap fun sl => (f.op? sl).map fun o => (o, o.placeAt i))
        ++ (match f.chain? p.1 with | some w => f.chainPlaces p.1 w i m | none => [])
      else [])
  let scales := if last then f.ops.filter (fun o => o.scaled) else []
  firstFault [
    s.poisonAt ins,
    scales.findSome? fun o =>
      if o.slot = 8 ∨ (o.slot = 0xA ∧ f.code = opMmc) then s.scaleFault o rows []
      else if bSlots.contains o.slot then s.scaleFault o [] cols
      else if 0x10000 ≤ o.slot then s.scaleFault o (List.range o.rows) (List.range (o.e 0))
      else s.scaleFault o rows cols]

end Sys2Proof.Machine
end

