-- ==== Sys2Proof/Machine/LinkOps.lean ====
section
/-! DEFINITION. Transactions of this module (R374 to R381): routing, tags, sending, what a memory write or a signal does at
its destination, and what an outcome does to the agent that sent it (R48, R140, R376). -/
namespace Sys2Proof.Machine

/-- Transaction types (Table 12-5). -/
def tWrite : Nat := 1
def tReadReq : Nat := 2
def tReadResp : Nat := 3
def tAck : Nat := 4
def tNack : Nat := 5
def tGsig : Nat := 6
def tExport : Nat := 7
def tSyncReq : Nat := 8
def tSyncResp : Nat := 9
def tNeighbour : Nat := 10

/-- A header with every field 0 but its type; `HOPS` is 31 at the origin (Table 12-4). -/
def hdrOf (kind : Nat) : Hdr :=
  { kind := kind, directed := false, host := false, hostPort := false, hops := 31, dst := 0, src := 0, tag := 0,
    w1 := 0, w2 := 0, w3 := 0 }

/-- A transaction is handed to port `p` to send. -/
def State.send (s : State) (p : Nat) (t : Txn) : State := s.modPort p fun q => { q with out := q.out ++ [t] }

/-- The port is UP with a partner in service (R379, R386). -/
def State.usable (s : State) (p : Nat) : Bool := decide ((s.port p).st = .up)

/-- The port of steps 2 and 3 of R379, or the code of step 4. -/
def State.routePort (s : State) (n : Nat) : Except Nat Nat :=
  let r := s.route n
  if r.valid && s.usable r.port then .ok r.port
  else if r.altValid && s.usable r.altPort then .ok r.altPort
  else if r.valid || r.altValid then .error cLinkLost
  else .error cRouteNone

/-! ## At the destination (R46, R47, R62, R64, R83, R86, R376) -/

/-- The access of a transaction to this module's memory, with the code it is refused with. -/
def State.targetAccess (s : State) (w1 w2 n : Nat) (write : Bool) : Except Nat Nat :=
  let h := bits w2 40 24
  let a := bits w1 0 48
  if h = 0 ∧ regionOf a = .control then .error cAddrUnmapped
  else match s.checkAccess h a n write with
    | .error f => .error f.code
    | .ok x => if write && decide (regionOf x = .control) then .error cAddrUnmapped else .ok x

/-- A memory write is applied at its destination, whole or not at all. -/
def State.applyWrite (s : State) (w1 w2 n : Nat) (data : List (Nat × Byte)) : Except Nat State :=
  match s.targetAccess w1 w2 n true with
  | .error c => .error c
  | .ok a => .ok (s.wr (data.map fun e => (a + e.1, e.2)))

/-- A remote signal is applied once, or denied while the gate's `GATE_REMOTE_ENABLE` is 0, which the module records
(R46, R47). -/
def State.applyRemoteSignal (s : State) (gate inc : Nat) : Except Nat State :=
  if (s.gate gate).remote then .ok (s.signalGate gate inc) else .error cGateRemoteDenied

/-- The record a target module writes for a denied signal (R46). -/
def State.logDenied (s : State) (source gate inc node : Nat) : State :=
  s.logEvent cGateRemoteDenied source 0 gate node inc

/-! ## Outcomes at the sender (R48, R140, R376, R377) -/

/-- What the sender faults with at its next boundary. `away`: the operation went to another module, whose response carries a code
only, so that the details name the whole range that was sent (log 118). -/
def Pending.fault (p : Pending) (code : Nat) (away : Bool) : FaultInfo :=
  if code = cLinkLost then
    { code := code, d0 := if p.kind = tGsig then p.gate else 0x1FFFF, d1 := p.node, d2 := p.issued.toNat }
  else if code = cGateRemoteDenied then { code := code, d0 := p.gate, d1 := p.node, d2 := p.inc }
  else if 0x4010 ≤ code ∧ code ≤ 0x4015 then { code := code, d0 := p.handle, d1 := p.off, d2 := p.off + p.len - 1 }
  else if code = cAddrUnmapped then { code := code, d1 := p.off, d2 := if away then p.node else 0 }
  else { code := code }

/-- A transaction of an agent ends without confirmation or refused: the agent takes the code at its next boundary. -/
def State.failTxn (s : State) (p : Pending) (code : Nat) : State :=
  s.addBoundary p.agent (p.fault code (!(s.link.nodeValid && decide (p.node = s.link.nodeId))))

/-- The lowest number that a list does not hold. -/
def freeTag (used : List Nat) : Nat := ((List.range used.length).find? fun t => !used.contains t).getD used.length

/-- The tag of a new transaction: the lowest that no transaction has and whose late response cannot come, or else the one whose
transaction ended first (R377; log 139). -/
def State.nextTag (s : State) : Nat :=
  let t := freeTag (s.link.pending.map (·.1) ++ s.link.stale)
  if t < 65536 then t else s.link.stale.getD 0 0

/-- A transaction toward `node` must wait: every tag is in use, an earlier one waits, or a changed route still has
transactions out (R377, R381). -/
def State.mustWait (s : State) (node : Nat) : Bool :=
  decide (65536 ≤ s.link.pending.length)
  || s.link.waiting.any (fun e => decide (e.1.node = node))
  || s.link.holds.any (fun e => decide (e.1 = node))

/-- An operation on the module's own node is delivered within the module, by the rules of a destination (R379). -/
def State.deliverHere (s : State) (p : Pending) (t : Txn) : State :=
  match if p.kind = tGsig then s.applyRemoteSignal p.gate p.inc
        else s.applyWrite t.hdr.w1 t.hdr.w2 p.len t.data with
  | .ok s1 => s1
  | .error c =>
    let s1 := if p.kind = tGsig then s.logDenied (srcAgent p.agent) p.gate p.inc p.node else s
    s1.failTxn p c

/-- A transaction leaves on a port with a tag of its own. -/
def State.sendTagged (s : State) (p : Pending) (t : Txn) : State :=
  match s.routePort p.node with
  | .error c => s.failTxn p c
  | .ok port =>
    let tag := s.nextTag
    let q := { p with port := port, sentAt := s.sundial, limit := s.recovery.linkTimeout }
    let s1 := { s with link := { s.link with pending := mapPut tag q s.link.pending, stale := s.link.stale.erase tag } }
    s1.send port { t with flow := p.agent, hdr := { t.hdr with tag := tag, dst := p.node, src := s.link.nodeId } }

/-- An agent's remote write or signal starts (R48, R103, R140, R378): a module without a valid node ID originates none. -/
def State.originate (s : State) (p : Pending) (t : Txn) : State :=
  if !s.link.nodeValid then s.failTxn p cRouteNone
  else if p.node = s.link.nodeId then s.deliverHere p t
  else if s.mustWait p.node then { s with link := { s.link with waiting := s.link.waiting ++ [(p, t)] } }
  else s.sendTagged p t

/-- The waiting transactions that can go, go in their order. -/
def State.pump (s : State) : State :=
  let w := s.link.waiting
  w.foldl (fun s e => s.originate e.1 e.2) { s with link := { s.link with waiting := [] } }

/-- A tag is free again; a route change that waited for it may take effect (R381). -/
def State.closeTag (s : State) (tag : Nat) : State :=
  let holds := (s.link.holds.map fun e => (e.1, e.2.filter fun t => decide (t ≠ tag))).filter fun e => decide (e.2 ≠ [])
  ({ s with link := { s.link with pending := mapErase tag s.link.pending, holds := holds } }).pump

/-- A response has come for a tag whose transaction ended before: it is discarded, and the tag is free (R377). -/
def State.lateResponse (s : State) (tag : Nat) : State := { s with link := { s.link with stale := s.link.stale.erase tag } }

/-- The transaction of a tag ends with an outcome: confirmed, or failed with a code (R376, R377, R385). -/
def State.endTxn (s : State) (tag : Nat) (code : Option Nat) : State :=
  match mapFind tag s.link.pending with
  | none => s
  | some p =>
    let s1 := s.closeTag tag
    match code with
    | none => s1
    | some c => s1.failTxn p c

/-- The transaction of a tag ends without a response (R377, R385): a late response to its tag is not another's. -/
def State.loseTxn (s : State) (tag code : Nat) : State :=
  let lost := if (mapFind tag s.link.pending).isSome then [tag] else []
  ({ s with link := { s.link with stale := s.link.stale ++ lost } }).endTxn tag (some code)

/-- A remote signal of agent `i` is sent (R48, R50). -/
def State.sendSignal (s : State) (i : Nat) (g : Signal) (node : Nat) : State :=
  let p : Pending :=
    { agent := i, kind := tGsig, port := 0, node := node, gate := g.gate, inc := g.inc, handle := 0, off := 0, len := 0,
      issued := g.issued, sentAt := s.sundial, limit := 0, place := g.place }
  s.originate p { hdr := { hdrOf tGsig with w1 := g.gate, w2 := g.inc }, data := [] }

/-- The 4 KiB-aligned blocks of the destination that a remote copy's bytes lie in (R377), each with its bytes. -/
def splitBlocks (data : List (Nat × Byte)) : List (Nat × List (Nat × Byte)) :=
  let blocks := (data.map fun e => e.1 / 4096).eraseDups
  blocks.map fun b => (b, data.filter fun e => decide (e.1 / 4096 = b))

/-- The lowest and highest place of a list of bytes. -/
def spanOf (data : List (Nat × Byte)) : Nat × Nat :=
  data.foldl (fun r e => (min r.1 e.1, max r.2 e.1)) (match data with | e :: _ => (e.1, e.1) | [] => (0, 0))

/-- A remote copy: its agent, the module and object it writes, its place in the program and its time of issue. -/
structure RemoteEnd where
  agent : Nat
  node : Nat
  handle : Nat
  place : Nat
  issued : Word64
  deriving DecidableEq, Repr

/-- The transaction that carries the bytes `b` of one 4 KiB block, as the sender keeps it. -/
def State.writeTxn (s : State) (e : RemoteEnd) (b : List (Nat × Byte)) : Pending :=
  let span := spanOf b
  { agent := e.agent, kind := tWrite, port := 0, node := e.node, gate := 0, inc := 0, handle := e.handle, off := span.1,
    len := span.2 - span.1 + 1, issued := e.issued, sentAt := s.sundial, limit := 0, place := e.place }

/-- A copy writes bytes on another module: one `WRITE` for each 4 KiB block, in rising order of first use (R103, R140, R377).
Places are byte offsets in the object, or addresses. -/
def State.sendWrites (s : State) (e : RemoteEnd) (data : List (Nat × Byte)) : State :=
  (splitBlocks data).foldl (fun s b =>
    let p := s.writeTxn e b.2
    let first := p.off / 64 * 64
    let units := (p.off + p.len - 1) / 64 - p.off / 64 + 1
    s.originate p
      { hdr := { hdrOf tWrite with w1 := first, w2 := units + e.handle * 2 ^ 40 }, data := b.2.map fun x => (x.1 - first, x.2) }) s

/-- The first block of a copy whose bytes pass the 48 bits of an offset or address (R62, R86, R140): its transaction and the code. -/
def State.blockPast (s : State) (e : RemoteEnd) (data : List (Nat × Byte)) : Option (Pending × Nat) :=
  (splitBlocks data).findSome? fun b =>
    let p := s.writeTxn e b.2
    if 2 ^ 48 < p.off + p.len then some (p, if e.handle = 0 then cAddrUnmapped else cObjBound) else none

/-- The first block of a copy to this module's own node that the checks of a destination refuse: its transaction and the code
(R140, R379). -/
def State.blockRefused (s : State) (e : RemoteEnd) (data : List (Nat × Byte)) : Option (Pending × Nat) :=
  (splitBlocks data).findSome? fun b =>
    let p := s.writeTxn e b.2
    match s.targetAccess p.off (e.handle * 2 ^ 40) p.len true with
    | .error c => some (p, c)
    | .ok _ => none

end Sys2Proof.Machine
end

