-- ==== Sys2Proof/Machine/Image.lean ====
section
/-! DEFINITION. The strided copy that movers and arrays share (R101, R139), pooling, resize and sorting (08 R305 to R308). -/
namespace Sys2Proof.Machine

/-! ## The copy of R101 -/

/-- The parameters of a copy: device addresses of the first elements, formats, extents, strides and skew. -/
structure CopySpec where
  src : Nat
  dst : Nat
  srcFmt : Fmt
  dstFmt : Fmt
  d0 : Nat
  d1 : Nat
  d2 : Nat
  d3 : Nat
  srcS : List Nat
  dstS : List Nat
  transpose : Bool
  skew : Bool
  step : Nat
  period : Nat
  rnd : Nat
  deriving DecidableEq, Repr

/-- Elements of the copy. -/
def CopySpec.count (c : CopySpec) : Nat := c.d0 * c.d1 * c.d2 * c.d3

/-- The index of element `n` in the order of R101. -/
def CopySpec.index (c : CopySpec) (n : Nat) : Idx :=
  (n % c.d0, n / c.d0 % c.d1, n / (c.d0 * c.d1) % c.d2, n / (c.d0 * c.d1 * c.d2))

/-- Bit address of an element's source. -/
def CopySpec.srcBit (c : CopySpec) (i : Idx) : Nat :=
  8 * (c.src + i.2.2.2 * c.srcS.getD 2 0 + i.2.2.1 * c.srcS.getD 1 0 + i.2.1 * c.srcS.getD 0 0) + i.1 * c.srcFmt.bits

/-- Bit address of an element's destination. -/
def CopySpec.dstBit (c : CopySpec) (i : Idx) : Nat :=
  let j1 := if c.transpose then i.1 else i.2.1
  let j0 := if c.transpose then i.2.1 else i.1
  let shift := if c.skew then j1 % c.period * c.step else 0
  8 * (c.dst + i.2.2.2 * c.dstS.getD 2 0 + i.2.2.1 * c.dstS.getD 1 0 + j1 * c.dstS.getD 0 0) + (j0 + shift) * c.dstFmt.bits

/-- The values a copy stores: each element read, converted and placed. -/
def State.copyStores (s : State) (c : CopySpec) : Stores :=
  (List.range c.count).map fun n =>
    let i := c.index n
    let p := c.srcBit i
    let v := bits (s.rdNat (p / 8) c.srcFmt.bytes) (p % 8) c.srcFmt.bits
    (c.dstBit i, c.dstFmt.bits, (convPat c.srcFmt c.dstFmt (rndPlain c.rnd) v).pat)

/-- The status words of a copy's destination rows (R230): a NaN entered, a conversion saturated. -/
def State.copyRowFlags (s : State) (c : CopySpec) : List Nat :=
  let rows := if c.transpose then c.d0 else c.d1
  let cols := if c.transpose then c.d1 else c.d0
  (List.range (rows * c.d2 * c.d3)).map fun r =>
    (List.range cols).foldl (fun n j =>
      let t := (r / rows % c.d2, r / (rows * c.d2))
      let p := c.srcBit (if c.transpose then (r % rows, j, t) else (j, r % rows, t))
      let v := bits (s.rdNat (p / 8) c.srcFmt.bytes) (p % 8) c.srcFmt.bits
      orFlags n (orFlags (flagIf (valOf c.srcFmt v).isNan stNanSeen)
        (flagIf (convPat c.srcFmt c.dstFmt (rndPlain c.rnd) v).sat stStoreSat))) 0

/-- The destination units that receive a byte of a poisoned unit (Table 02-4). -/
def State.copyPoison (s : State) (c : CopySpec) : List Nat :=
  if s.mem.poison = [] && s.mem.lostStripes = [] && !(decide (regionOf c.src = .ice)) then []
  else (List.range c.count).flatMap fun n =>
    let i := c.index n
    let p := c.srcBit i / 8
    let q := c.dstBit i / 8
    if (s.poisonIn p c.srcFmt.bytes).isSome then unitsOf q c.dstFmt.bytes else []

/-- A span of the elements a copy reads or writes: the largest end, less the base. -/
def CopySpec.spans (c : CopySpec) : Nat × Nat :=
  if c.count = 0 then (0, 0) else
    let last : Idx := (c.d0 - 1, c.d1 - 1, c.d2 - 1, c.d3 - 1)
    let rows := if c.transpose then c.d0 else c.d1
    let cols := if c.transpose then c.d1 else c.d0
    let inner := (c.d3 - 1) * c.dstS.getD 2 0 + (c.d2 - 1) * c.dstS.getD 1 0
    -- a skew makes the end of each destination row its own
    let rowEnd (r : Nat) : Nat :=
      r * c.dstS.getD 0 0 + ceilDiv ((cols + (if c.skew then r % c.period * c.step else 0)) * c.dstFmt.bits) 8
    let ends := if c.skew then (List.range rows).foldl (fun m r => max m (rowEnd r)) 0 else rowEnd (rows - 1)
    (ceilDiv (c.srcBit last + c.srcFmt.bits) 8 - c.src, inner + ends)

/-- Gathered bytes are written, whole units clear their poison, and the listed units become poisoned (R72, R73). -/
def State.wrPoison (s : State) (w : List (Nat × Byte)) (units : List Nat) : State :=
  units.foldl State.mark (s.wr w)

/-- A copy whose destination is a module's memory, `dst` being the byte offset in its object, or an address (R103, R140, R377,
R379). A copy past the 48 bits of an offset or address writes nothing. On the module's own node every block is checked before any
byte is written, and poison goes with the data (R73, R101, R102). In a byte of another module of which the copy writes half, the
other half is a free value (log 62). -/
def State.copyAway (s : State) (e : RemoteEnd) (c : CopySpec) : State :=
  let l := s.copyStores c
  let away := storesOver (Config.undefByte s.free) l
  match s.blockPast e away with
  | some (p, code) => s.failTxn p code
  | none =>
    if s.link.nodeValid ∧ e.node = s.link.nodeId then
      match s.blockRefused e (storesOver s.rdByte l) with
      | some (p, code) => s.failTxn p code
      | none =>
        let here := { c with dst := s.addrOf e.handle c.dst }
        s.wrPoison (s.storeBytes (s.copyStores here)) (s.copyPoison here)
    else s.sendWrites e away

/-- The copy of an array `COPY` (R139). -/
def Flight.copySpec (f : Flight) : CopySpec :=
  let a := f.op 8
  let b := f.op 0xA
  { src := a.base, dst := b.base, srcFmt := a.fmt, dstFmt := b.fmt, d0 := a.e 0, d1 := a.e 1, d2 := a.e 2, d3 := a.e 3,
    srcS := [a.stride 1, a.stride 2, a.stride 3], dstS := [b.stride 1, b.stride 2, b.stride 3],
    transpose := modBit f.word 0, skew := modBit f.word 1, step := half16 f.word 0xE, period := half16 f.word 0x10,
    rnd := f.rnd }

/-! ## POOL (R305) -/

/-- The geometry of a `POOL`. -/
def poolGeom (w : Nat) : Geom :=
  { geomAt w 0xC 0xE 0 1 with strideH := fieldAt w 0xC 8 4, strideW := fieldAt w 0xC 12 4, dilH := 1, dilW := 1 }

/-- The window positions of an output element in row-major order: the input index, or none outside. -/
def poolWindow (w : Nat) (xo : Operand) (i : Idx) : List (Option Idx) :=
  let g := poolGeom w
  (List.range (fieldAt w 0xC 0 4)).flatMap fun kh => (List.range (fieldAt w 0xC 4 4)).map fun kw =>
    let y := i.2.2.1 * g.strideH + kh
    let x := i.2.1 * g.strideW + kw
    if y < g.padT ∨ x < g.padL ∨ xo.e 2 + g.padT ≤ y ∨ xo.e 1 + g.padL ≤ x then none
    else some (i.1, x - g.padL, y - g.padT, i.2.2.2)

/-- A pooled value. -/
def State.poolVal (s : State) (kind : Nat) (xo : Operand) (win : List (Option Idx)) : Nat :=
  let ins := win.filterMap id
  if kind = 0 then (ins.map (s.realAt xo)).foldl max32 negInf32
  else if kind = 1 then
    div32 (win.foldl (fun a p => add32 a (match p with | some j => s.realAt xo j | none => 0)) 0) (ofNat32 win.length)
  else div32 (ins.foldl (fun a j => add32 a (s.realAt xo j)) 0) (ofNat32 ins.length)

/-- `POOL`. -/
def State.poolRes (s : State) (x : ArrayState) (f : Flight) : VRes :=
  let xo := f.op 8
  let out := f.op 0xA
  let c := s.drawCtx x f none
  (List.range out.rows).foldl (fun acc r =>
    acc.append (rowRes ((out.rowIdx r).map fun i =>
      let v := s.poolVal (fieldAt f.word 1 0 2) xo (poolWindow f.word xo i)
      let p := s.tailPat out i (c.storeRnd f none (some (out.linear i)) out i) v
      (out.store i p.1, orFlags (nanFlag v) p.2)))) {}

/-! ## RESIZE (R306) -/

/-- The source coordinate of output coordinate `p` on an axis of input extent `a` and output extent `z`. -/
def resizeCoord (align : Bool) (p a z : Nat) : Nat :=
  let t :=
    if align then (if z = 1 then 0 else mul32 (ofNat32 p) (div32 (ofNat32 (a - 1)) (ofNat32 (z - 1))))
    else sub32 (mul32 (add32 (ofNat32 p) half32) (div32 (ofNat32 a) (ofNat32 z))) half32
  min32 (max32 t 0) (ofNat32 (a - 1))

/-- A resized value. -/
def State.resizeVal (s : State) (w : Nat) (xo out : Operand) (i : Idx) : Nat :=
  let sx := resizeCoord (modBit w 1) i.2.1 (xo.e 1) (out.e 1)
  let sy := resizeCoord (modBit w 1) i.2.2.1 (xo.e 2) (out.e 2)
  let at_ (x y : Nat) : Nat := s.realAt xo (i.1, x, y, i.2.2.2)
  if modBit w 0 = false then at_ (floor32 (add32 sx half32)).toNat (floor32 (add32 sy half32)).toNat
  else
    let x0 := (floor32 sx).toNat
    let y0 := (floor32 sy).toNat
    let x1 := min (x0 + 1) (xo.e 1 - 1)
    let y1 := min (y0 + 1) (xo.e 2 - 1)
    let fx := sub32 sx (ofNat32 x0)
    let fy := sub32 sy (ofNat32 y0)
    let row (y : Nat) : Nat := fma32 fx (sub32 (at_ x1 y) (at_ x0 y)) (at_ x0 y)
    fma32 fy (sub32 (row y1) (row y0)) (row y0)

/-- The elements of `X` that an output element of a `RESIZE` reads. -/
def resizeReads (w : Nat) (xo out : Operand) (i : Idx) : List Idx :=
  let sx := resizeCoord (modBit w 1) i.2.1 (xo.e 1) (out.e 1)
  let sy := resizeCoord (modBit w 1) i.2.2.1 (xo.e 2) (out.e 2)
  if modBit w 0 = false then [(i.1, (floor32 (add32 sx half32)).toNat, (floor32 (add32 sy half32)).toNat, i.2.2.2)]
  else
    let x0 := (floor32 sx).toNat
    let y0 := (floor32 sy).toNat
    [y0, min (y0 + 1) (xo.e 2 - 1)].flatMap fun y => [x0, min (x0 + 1) (xo.e 1 - 1)].map fun x => (i.1, x, y, i.2.2.2)

/-- `RESIZE`. -/
def State.resizeRes (s : State) (x : ArrayState) (f : Flight) : VRes :=
  let xo := f.op 8
  let out := f.op 0xA
  let c := s.drawCtx x f none
  (List.range out.rows).foldl (fun acc r =>
    acc.append (rowRes ((out.rowIdx r).map fun i =>
      let v := s.resizeVal f.word xo out i
      let p := s.tailPat out i (c.storeRnd f none (some (out.linear i)) out i) v
      (out.store i p.1, orFlags (nanFlag v) p.2)))) {}

/-! ## SORT (R307, R308) -/

/-- Key `a` comes before key `b` of a later index in the chosen direction; +0 ranks above −0. -/
def keyBefore (desc : Bool) (a b : Val) : Bool :=
  let less (x y : Val) : Bool := x.lt y || (x.isZero && y.isZero && x.isNeg && !y.isNeg)
  if a.isNan then false else if b.isNan then true else if desc then less b a else less a b

/-- An entry takes its place after every entry that it does not come before. -/
def sortInsert (desc : Bool) (e : Val × Nat) : List (Val × Nat) → List (Val × Nat)
  | [] => [e]
  | h :: t => if keyBefore desc e.1 h.1 then e :: h :: t else h :: sortInsert desc e t

/-- The full order of a row's keys: values with their original indices (R308). -/
def sortKeys (desc : Bool) (l : List Val) : List (Val × Nat) :=
  (l.zip (List.range l.length)).foldl (fun acc e => sortInsert desc e acc) []

/-- `SORT`. -/
def State.sortRes (s : State) (f : Flight) : VRes :=
  let ko := f.op 8
  (List.range (ko.e 1)).foldl (fun acc r =>
    let keys := (List.range (ko.e 0)).map fun i => valOf ko.fmt (s.rdElem ko i r 0 0)
    let order := sortKeys (modBit f.word 0) keys
    let n := if modBit f.word 1 then fieldAt f.word 0x10 0 32 else ko.e 0
    let top := (order.take n).zip (List.range n)
    let keyStores := match f.op? 0xC with
      | none => []
      | some o => top.map fun e => o.store (e.2, r, 0, 0) (conv o.fmt .rne e.1.1).pat
    let payStores := match f.op? 0xE with
      | none => []
      | some o => top.map fun e => o.store (e.2, r, 0, 0) (match f.op? 0xA with
          | some p => s.rdElem p e.1.2 r 0 0
          | none => e.1.2)
    acc.append { stores := keyStores ++ payStores, rows := [flagIf (keys.any (·.isNan)) stNanSeen] }) {}

end Sys2Proof.Machine
end

