-- ==== Sys2Proof/Machine/Timing.lean ====
section
/-! DEFINITION. Nominal times of array instructions as `TRDRY` shows them and as `CONV` chooses its engine by them (R69, R108,
R141, R208, R209, R223, R224, R234, R275, R278, R283, R295, R303, R308, R324). Times are whole numbers of a unit of which
every rate of the spec is a whole multiple. -/
namespace Sys2Proof.Machine

/-- Units in one cycle of the 3.0 GHz clock: 2^8 · 3^2 · 5^2 · 7 · 11 · 13 · 19 · 23. -/
def tUnit : Nat := 121136400 * 16 * 13
/-- Whole cycles. -/
def cyc (n : Nat) : Nat := n * tUnit
/-- Bytes at a rate in GB/s. -/
def atRate (bytes gbs : Nat) : Nat := bytes * 3 * tUnit / gbs
/-- A time rounded up to whole cycles. -/
def toCycles (t : Nat) : Nat := ceilDiv t tUnit
/-- A count of work per `l` lanes, in cycles. -/
def perLane (n l : Nat) : Nat := n * tUnit / l

/-! ## Ranges of bytes -/

/-- Runs of bytes: address and length; a run that starts where the last one ends joins it. -/
def joinRuns (l : List (Nat × Nat)) : List (Nat × Nat) :=
  (l.foldl (fun (acc : List (Nat × Nat)) e => match acc with
    | (a, n) :: rest => if a + n = e.1 then (a, n + e.2) :: rest else e :: acc
    | [] => [e]) []).reverse

def runBytes (l : List (Nat × Nat)) : Nat := l.foldl (fun n e => n + e.2) 0

/-- A run put in its place among runs in the order of their addresses. -/
def insertRun (e : Nat × Nat) : List (Nat × Nat) → List (Nat × Nat)
  | [] => [e]
  | x :: l => if e.1 ≤ x.1 then e :: x :: l else x :: insertRun e l

/-- The bytes of runs that may overlap, each once. -/
def unionRuns (l : List (Nat × Nat)) : List (Nat × Nat) :=
  ((l.foldr insertRun []).foldl (fun (acc : List (Nat × Nat)) e => match acc with
    | (a, n) :: rest => if e.1 ≤ a + n then (a, max n (e.1 + e.2 - a)) :: rest else e :: acc
    | [] => [e]) []).reverse

/-! ## Stack time (R67 to R69) -/

/-- Units of time for `b` bytes on a channel at an efficiency in percent. -/
def chanTime (b e : Nat) : Nat := 15 * b * (tUnit / e)

/-- The efficiency of the smallest aligned block that holds `n` units from unit `u` of a granule. -/
def blockEff (u n : Nat) (wr : Bool) : Nat :=
  if n = 1 then (if wr then 22 else 25)
  else if u / 2 = (u + n - 1) / 2 then (if wr then 36 else 40)
  else if u / 4 = (u + n - 1) / 4 then (if wr then 55 else 60)
  else if wr then 76 else 80

/-- Time on its channel of a read piece within one granule: address and length. -/
def readPiece (a n : Nat) : Nat :=
  let u := a % 512 / 64
  let k := (a % 512 + n - 1) / 64 + 1 - u
  chanTime (64 * k) (blockEff u k false)

/-- Time on its channel of a write piece within one granule: partial units by a read and a write, whole units as one run. -/
def writePiece (a n : Nat) : Nat :=
  let lo := a % 512
  let hi := lo + n
  let w0 := ceilDiv lo 64
  let w1 := hi / 64
  let touched := (hi - 1) / 64 + 1 - lo / 64
  let whole := w1 - w0
  (touched - whole) * (chanTime 64 25 + chanTime 64 22) + (if whole = 0 then 0 else chanTime (64 * whole) (blockEff w0 whole true))

/-- The class of a run of whole granules. -/
def runEff (bytes : Nat) (wr : Bool) : Nat :=
  if 65536 ≤ bytes then (if wr then 88 else 92) else if 4096 ≤ bytes then (if wr then 84 else 88) else if wr then 76 else 80

/-- The pieces of a run of stack bytes: granule address and time on its channel. -/
def runPieces (wr : Bool) (e : Nat × Nat) : List (Nat × Nat) :=
  if e.2 = 0 then [] else
    let a := e.1
    let b := e.1 + e.2
    let piece (x n : Nat) : Nat := if wr then writePiece x n else readPiece x n
    let g0 := ceilDiv a 512
    let g1 := b / 512
    if g1 ≤ g0 ∧ a / 512 = (b - 1) / 512 then [(a, if e.2 = 512 then chanTime 512 (runEff 512 wr) else piece a e.2)]
    else
      let whole := g1 - g0
      (if a % 512 = 0 then [] else [(a, piece a (512 - a % 512))])
        ++ (tabulate whole fun i => (512 * (g0 + i), chanTime 512 (runEff (512 * whole) wr)))
        ++ (if b % 512 = 0 then [] else [(512 * g1, piece (512 * g1) (b % 512))])

/-- The stack time of runs (R69): the largest sum over the channels. -/
def State.stackTime (s : State) (wr : Bool) (runs : List (Nat × Nat)) : Nat :=
  let m := (runs.flatMap (runPieces wr)).foldl
    (fun (m : List (Nat × Nat)) p => mapMod (fun _ => 0) (s.mem.channelOf p.1) (· + p.2) m) []
  m.foldl (fun t e => max t e.2) 0

/-- The local-store time of runs: 192 GB/s for each bank touched (R63, R108; log 26). -/
def localTime (runs : List (Nat × Nat)) : Nat :=
  let banks := (runs.flatMap fun e => tabulate (min 64 ((e.1 + e.2 - 1) / 64 - e.1 / 64 + 1)) fun i =>
    (e.1 - lsBase) / lsBytes * 64 + (e.1 / 64 + i) % 64).eraseDups
  if banks = [] then 0 else atRate (runBytes runs) 192 / banks.length

/-- The largest of the terms of the memories that runs lie in (R208, R234). -/
def State.memTime (s : State) (wr : Bool) (runs : List (Nat × Nat)) : Nat :=
  let of (r : Region) : List (Nat × Nat) := runs.filter fun e => decide (regionOf e.1 = r) && decide (e.2 ≠ 0)
  max (s.stackTime wr (of .stack)) (max (localTime (of .local_)) (atRate (runBytes (of .ice)) 230))

/-- The two terms of a `CONVF`'s copies and stores: bytes at 256 GB/s and stack time (R303). -/
def State.tileTime (s : State) (wr : Bool) (runs : List (Nat × Nat)) : Nat :=
  max (atRate (runBytes runs) 256) (s.stackTime wr (runs.filter fun e => decide (regionOf e.1 = .stack)))

/-- Runs at an engine rate or slower where their memories need more. -/
def State.moveTime (s : State) (wr : Bool) (rate : Nat) (runs : List (Nat × Nat)) : Nat :=
  max (atRate (runBytes runs) rate) (s.memTime wr runs)

/-! ## Runs of operands -/

/-- The bytes of elements i0 = `a` to `a + n − 1` of a row. -/
def Operand.rowRun (o : Operand) (a n i1 i2 i3 : Nat) : Nat × Nat :=
  let p := o.bitPos a i1 i2 i3
  (p / 8, ceilDiv (p % 8 + n * o.fmt.bits) 8)

/-- The bytes of a block of an image or matrix: i0 from `a`, rows `b`, columns `c`, image `d`. -/
def Operand.blockRuns (o : Operand) (a na b nb c nc d : Nat) : List (Nat × Nat) :=
  joinRuns ((List.range nc).flatMap fun j => (List.range nb).flatMap fun i =>
    if o.layout = 1 then
      (List.range (ceilDiv (a + na) 32 - a / 32)).map fun q =>
        let lo := max a (32 * (a / 32 + q))
        o.rowRun lo (min (a + na) (32 * (a / 32 + q + 1)) - lo) (b + i) (c + j) d
    else [o.rowRun a na (b + i) (c + j) d])

/-- Every byte of an operand. -/
def Operand.allRuns (o : Operand) : List (Nat × Nat) :=
  joinRuns ((List.range (o.e 3)).flatMap fun d => o.blockRuns 0 (o.e 0) 0 (o.e 1) 0 (o.e 2) d)

/-- A tile of a `FEED` operand: reduction indices from `k0`, rows from `m0`. -/
def Operand.feedRuns (o : Operand) (k0 nk m0 nm : Nat) : List (Nat × Nat) :=
  joinRuns ((List.range nk).map fun i => let p := o.bitPos (k0 + i) m0 0 0
    (p / 8, nm * o.fmt.bytes))

/-- A tile of A: reduction indices from `k0`, rows from `m0`. -/
def Operand.aRuns (o : Operand) (k0 nk m0 nm : Nat) : List (Nat × Nat) :=
  if o.layout = 2 then o.feedRuns k0 nk m0 nm else o.blockRuns k0 nk m0 nm 0 1 0

/-- The taps of a `CONV` whose reduction indices lie in a row's range of K, each with its first group channel and their number: a
reduction tile of 128 indices of K holds `kt` of each group (R291, R293). -/
def Flight.convKTaps (f : Flight) (r : TRow) : List (Nat × Nat × Nat) :=
  let p := f.conv
  let lo := p.kt * (r.k0 / 128)
  let hi := min p.red (p.kt * ceilDiv (r.k0 + r.kExt) 128)
  (List.range p.taps).filterMap fun t =>
    let a := max lo (t * p.cg)
    let b := min hi ((t + 1) * p.cg)
    if a < b then some (t, a - t * p.cg, b - a) else none

/-- The input run of a range of output coordinates at tap `k` along one axis: first and number of inputs, padding left out (R290). -/
def tapRun (lo hi stride pad k dil n : Nat) : Nat × Nat :=
  let b := hi * stride + k * dil
  if b < pad then (0, 0)
  else
    let first := lo * stride + k * dil - pad
    (first, min (b - pad + 1) n - first)

/-- The input that a `COPY_A` row of a `CONV` covers, each byte once: for each tap of its range of K, the region that the row's
pixels read there (R290, R293; log 125). -/
def Flight.convRegion (f : Flight) (r : TRow) : List (Nat × Nat) :=
  let p := f.conv
  let x := f.op 8
  let y := f.op 0xC
  let g := convGeom f.word
  let kw := (f.op 0xA).e 2
  let set := r.tile / (f.grid.nm * f.grid.nn)
  let m1 := r.m0 + r.mExt - 1
  let px := y.e 1 * y.e 2
  unionRuns ((List.range (m1 / px + 1 - r.m0 / px)).flatMap fun j =>
    let d := r.m0 / px + j
    let lo := max r.m0 (d * px) - d * px
    let hi := min m1 ((d + 1) * px - 1) - d * px
    let one := decide (lo / y.e 1 = hi / y.e 1)
    (f.convKTaps r).flatMap fun t =>
      let rows := tapRun (lo / y.e 1) (hi / y.e 1) g.strideH g.padT (t.1 / kw) g.dilH (x.e 2)
      let cols := tapRun (if one then lo % y.e 1 else 0) (if one then hi % y.e 1 else y.e 1 - 1) g.strideW g.padL (t.1 % kw) g.dilW
        (x.e 1)
      (List.range (min p.b (p.groups - set * p.b))).flatMap fun i =>
        x.blockRuns ((set * p.b + i) * p.cg + t.2.1) t.2.2 cols.1 cols.2 rows.1 rows.2 d)

/-! ## Costs (R216, R223) -/

def opCost (op : Nat) : Nat :=
  match op with
  | 0x07 => 2 | 0x08 => 4 | 0x09 => 4 | 0x0A => 5 | 0x0B => 7 | 0x0C => 4 | 0x0E => 4 | 0x0F => 4 | _ => 1

/-- The cost of a chain's operations. -/
def chainCost (c : Option Nat) : Nat :=
  match c with
  | none => 0
  | some w => (List.range (min 9 (cLen w))).foldl (fun n i => n + opCost (cOp w i)) 0

/-- The rate factor of a format: 1 for 8-bit operands, 2 for 16-bit. -/
def rateOf (fmt : Fmt) : Nat := if fmt.bits ≤ 8 then 1 else 2

/-- p and e of R223. The scale of one of `C_RE` and `C_IM` counts for both output parts of an `MMC` (log 148). -/
def Flight.loads (f : Flight) : Nat × Nat :=
  let op := f.code
  let one (b : Bool) : Nat := b.toNat
  let scaled (l : List Nat) : Bool := l.any fun o => (f.op o).scaled
  if op = opMmc then
    (0, 2 * (chainCost (f.chain? 0x14) + one (scaled [8, 0xA, 0xC, 0xE]) + one (scaled [0x10, 0x12])
      + (if f.ownRow then 3 else 0)))
  else if op = opConv then
    (chainCost (f.chain? 0x10) + (if (f.chain? 0x10).isSome && scaled [8] then 2 else 0),
     chainCost (f.chain? 0x12) + one (scaled [8, 0xA]) + one (f.hasOp 0xE) + one (f.hasOp 0x14) + one (scaled [0xC]))
  else
    let mm := op = opMm
    let res := if mm then 0xE else 0x12
    let rstat := mm ∧ modBit f.word 3
    (if mm then chainCost (f.chain? 0x12) + (if (f.chain? 0x12).isSome && scaled [8] then 2 else 0) else 0,
     chainCost (f.chain? 0x14) + one (scaled [8, 0xA]) + one (f.hasOp 0x10) + one (f.hasOp res) + one (scaled [0xC])
       + (if rstat then 3 else 0) + (if f.ownRow ∧ ¬rstat then 3 else 0))

/-- A compute row's cycles after the vector-rate stall (R224): load p + 128 e / k against the budget c L / 128. -/
def stalled (cycles p e k c lanes : Nat) : Nat :=
  let num := (p * k + 128 * e) * 128
  let den := k * c * lanes
  if den < num then ceilDiv (cycles * num) den else cycles

/-! ## Row durations (R208) -/

/-- Streams on each weight tile of a form (Tables 05-9, 05-10). -/
def Flight.streams (f : Flight) : List Nat :=
  let w := f.word
  if f.code = opMmc then (if modBit w 2 then [1, 1, 1] else [2, 2])
  else if f.code = opMmx then (if modBit w 3 then [1, 2, 3] else [1, 2])
  else [1]

/-- The A operands that a copy row's part reads, and the B operands. -/
def Flight.partOps (f : Flight) (a : Bool) (part : Nat) : List Operand :=
  if f.code = opMmc then
    let re := f.op (if a then 8 else 0xC)
    let im := f.op (if a then 0xA else 0xE)
    if part = 0 then [re] else if part = 1 then [im] else [re, im]
  else [f.op (if a then 8 else 0xA)]

/-- Runs that a copy row reads. -/
def Flight.copyRuns (f : Flight) (r : TRow) : List (Nat × Nat) :=
  if r.kind = 1 then
    if f.code = opConv then f.convRegion r
    else
      let mask := match f.op? 0x16 with
        | some m => if r.part = 0 then [m.rowRun r.m0 r.mExt 0 0 0] else []
        | none => []
      (f.partOps true r.part).flatMap (fun o => o.aRuns r.k0 r.kExt r.m0 r.mExt) ++ mask
  else if r.kind = 2 then
    if f.code = opConv then
      let w := f.op 0xA
      joinRuns ((f.convKTaps r).flatMap fun t => w.blockRuns r.n0 r.nExt t.2.1 t.2.2 (t.1 % w.e 2) 1 (t.1 / w.e 2))
    else (f.partOps false r.part).flatMap fun o => o.blockRuns r.n0 r.nExt r.k0 r.kExt 0 1 0
  else if r.kind = 3 then
    let c := if f.code = opMmc then 0x10 else 0xC
    let slot := if r.part = 0 then c else if r.part = 1 then 0x12 else if r.part = 2 then (if f.code = opMm then 0x1A else 0xE)
      else if f.code = opMm then 0xE else if f.code = opMmx then 0x12 else 0x14
    let o := f.op slot
    if f.code = opConv then
      joinRuns ((List.range r.mExt).flatMap fun i => let t := o.rowTuple (r.m0 + i)
        o.blockRuns r.n0 r.nExt t.1 1 t.2.1 1 t.2.2)
    else o.blockRuns r.n0 r.nExt r.m0 r.mExt 0 1 0
  else if r.kind = 6 then
    let x := f.op 8
    x.blockRuns 0 (x.e 0) r.n0 r.nExt r.m0 r.mExt r.k0
  else (f.op (layerSlot r.part 0)).allRuns

/-- Runs that a store row writes. -/
def Flight.storeRuns (f : Flight) (r : TRow) : List (Nat × Nat) :=
  if r.kind = 9 then
    let t := f.spatialTile r.step
    let y := f.op 0xA
    y.blockRuns 0 (y.e 0) r.n0 r.nExt r.m0 r.mExt t.1
  else if f.code = opConv then
    let y := f.op 0xC
    joinRuns ((List.range r.mExt).flatMap fun i => let t := y.rowTuple (r.m0 + i)
      y.blockRuns r.n0 r.nExt t.1 1 t.2.1 1 t.2.2)
  else
    let outs := if f.code = opMmc then [0x10, 0x12] else if f.code = opMm then [0xC, 0x1A] else [0xC, 0xE]
    let stat := match f.op? 0x18 with
      | some o => if f.code = opMm ∧ r.n0 + r.nExt = f.grid.n then o.blockRuns 0 8 r.m0 r.mExt 0 1 0 else []
      | none => []
    outs.flatMap (fun sl => match f.op? sl with
      | some o => o.blockRuns r.n0 r.nExt r.m0 r.mExt 0 1 0
      | none => []) ++ stat

/-- Cycles of a layer on the cells for `pixels` outputs (R303). -/
def layerCycles (p : ConvPlan) (c pixels : Nat) : Nat :=
  let chunks := ceilDiv pixels 1024
  let per := (List.range chunks).foldl (fun n i => n + max (roundUp (min 1024 (pixels - 1024 * i)) 16 * c) 128) 0
  ceilDiv p.groups p.b * ceilDiv (p.b * p.go) 128 * p.redTiles * per

/-- The plan of layer `l` of a `CONVF`. -/
def Flight.layerPlan (f : Flight) (l : Nat) : ConvPlan := convPlan (f.layerGeom l) (f.layerWt l) (f.extsOf (l + 1))

/-- e of a `CONVF` layer by R223. -/
def Flight.layerLoad (f : Flight) (l : Nat) : Nat :=
  let n := f.layers.length
  let wt := f.op (layerSlot l 0)
  chainCost (f.chain? (layerSlot l 4)) + (wt.scaled || (decide (l = 0) && (f.op 8).scaled)).toNat
    + (f.hasOp (layerSlot l 2)).toNat + (decide (l + 1 = n) && (f.op 0xA).scaled).toNat

/-- The duration of a row in cycles; none for a row that the spec gives no duration. -/
def State.rowCycles (s : State) (f : Flight) (r : TRow) : Option Nat :=
  let lanes := s.lanesActive
  match r.kind with
  | 4 =>
    let c := if f.code = opMmx then 2 else rateOf (f.op 8).fmt
    let g := ceilDiv r.mExt 16
    let tile := f.streams.foldl (fun n k => n + max (k * g * 16 * c) 128) 0
    let base := ceilDiv r.nExt 128 * ceilDiv r.kExt 128 * tile
    let l := f.loads
    let k := if f.code = opConv then f.conv.red else f.form.passes * (f.op 8).e 0
    some (stalled base l.1 l.2 k c lanes)
  | 5 => some (toCycles (s.moveTime true 256 (f.storeRuns r)))
  | 6 | 7 => some (toCycles (s.tileTime false (f.copyRuns r)))
  | 9 => some (toCycles (s.tileTime true (f.storeRuns r)))
  | 8 =>
    let p := f.layerPlan r.part
    let c := rateOf ((Fmt.ofCode (fieldAt (f.layer r.part) 0xD 0 4)).getD .bit)
    some (stalled (layerCycles p c (r.mExt * r.nExt)) 0 (f.layerLoad r.part) p.red c lanes + 256)
  | 10 | 11 | 12 | 13 | 14 | 15 => none
  | _ =>
    if r.kind = 1 ∧ f.code = opConv then
      some (toCycles (max (atRate (r.mExt * r.kExt * (f.op 8).fmt.bytes) 256) (s.memTime false (f.copyRuns r))))
    else some (toCycles (s.moveTime false 256 (f.copyRuns r)))

/-! ## R209 -/

/-- The sum of the durations of rows. -/
def State.sumCycles (s : State) (f : Flight) (l : List TRow) : Nat := l.foldl (fun n r => n + (s.rowCycles f r).getD 0) 0

/-- What a step takes for each unit: copies, compute rows, stores. -/
abbrev StepCost := Nat × Nat × Nat

/-- The recurrence of R209 on the steps in order: fill, total and drain. -/
def r209 (l : List StepCost) : Nat × Nat × Nat :=
  let at_ (i : Nat) : StepCost := l.getD i (0, 0, 0)
  let fill := (at_ 0).1 + 128
  let t := (List.range l.length).foldl (fun t i =>
    t + max (at_ i).2.1 (max (at_ (i + 1)).1 (if i = 0 then 0 else (at_ (i - 1)).2.2))) fill
  let drain := 128 + (at_ (l.length - 1)).2.2
  (fill, t + drain, drain)

/-- The steps of a list of rows, each with its rows. -/
def stepsOf (rows : List TRow) : List (List TRow) :=
  (rows.map (·.step)).eraseDups.map fun t => rows.filter fun r => decide (r.step = t)

/-- The costs of the steps of a Trellis; a `CONVF` copies a tile's input and weights together (R208, R303). -/
def State.stepCosts (s : State) (f : Flight) (rows : List TRow) : List StepCost :=
  (stepsOf rows).map fun l =>
    let of (u : TUnit) : List TRow := l.filter fun r => decide (r.unit = u)
    (if f.code = opConvf then toCycles (s.tileTime false ((of .copy).flatMap f.copyRuns)) else s.sumCycles f (of .copy),
     s.sumCycles f (of .compute), s.sumCycles f (of .store))

/-- The R209 time of a product, or of a `CONV` on the cells summed over its group sets: its fill is the first set's, its drain the
last set's (log 149). -/
def State.cellTime (s : State) (f : Flight) (t0 : Nat) : Nat × Nat × Nat :=
  let rows := f.rowsFrom t0
  if f.code = opConv then
    let per := f.grid.nm * f.grid.nn
    let parts := (List.range f.conv.sets).filterMap fun i =>
      let l := rows.filter fun r => decide (r.tile / per = i)
      if l = [] then none else some (r209 (s.stepCosts f l))
    ((parts.headD (0, 0, 0)).1, parts.foldl (fun n p => n + p.2.1) 0, (parts.getLastD (0, 0, 0)).2.2)
  else r209 (s.stepCosts f rows)

/-! ## Instructions without R209 -/

/-- Random tiles that the elements of a tensor for which `keep` holds touch on a grid. -/
def tilesTouched (o : Operand) (keep : Idx → Bool) (h w : Nat) : Nat :=
  ((List.range o.rows).flatMap fun r => ((o.rowIdx r).filter keep).map fun i => let p := o.drawPos i
    (p.1 / h, p.2 / w)).eraseDups.length

/-- The output tile of a `CONV` that holds output element `i` (R293, R294). -/
def Flight.convTileOf (f : Flight) (i : Idx) : Nat :=
  let y := f.op 0xC
  if f.engine = 2 then i.2.2.2 * y.e 2 + i.2.2.1
  else
    let p := f.conv
    let g := f.grid
    let set := i.1 / (p.b * p.go)
    (set * g.nm + y.rowOf i / g.mt) * g.nn + (i.1 - set * p.b * p.go) / g.nt

/-- The rows of an instruction's Trellis that are performed process element `i` of the tensor in a slot: of an output, its tile is not
before `START_TILE`, nor past `TILE_LIMIT`; of `A` or `X`, a tile that takes the element is not (R151, R202). -/
def Flight.performs (f : Flight) (slot : Nat) (i : Idx) : Bool :=
  let t0 := startTile f.word
  if f.code = opConvf then
    let y := f.extsOf f.layers.length
    let t := f.spatial
    let k := (i.2.2.2 * ceilDiv y.2.2.1 t.1 + i.2.2.1 / t.1) * ceilDiv y.2.1 t.2 + i.2.1 / t.2
    decide (t0 ≤ k) && decide (k < f.spatialEnd)
  else if f.code = opConv then
    if slot ≠ 8 then decide (t0 ≤ f.convTileOf i)
    else
      let p := f.conv
      let y := f.op 0xC
      (List.range (y.e 2)).any fun oy => (List.range (y.e 1)).any fun ox =>
        ((convTaps (convGeom f.word) (f.op 8).ext4 (f.op 0xA).ext4 ox oy).any fun t => decide (t.2.2.2 = some (i.2.1, i.2.2.1)))
          && (List.range p.go).any fun o => decide (t0 ≤ f.convTileOf (i.1 / p.cg * p.go + o, ox, oy, i.2.2.2))
  else if opStarts f.code then
    let g := f.grid
    if slot = 8 then decide (t0 < (i.2.1 / g.mt + 1) * g.nn) else decide (t0 ≤ i.2.1 / g.mt * g.nn + i.1 / g.nt)
  else true

/-- The tensors in which an instruction's tile-keyed draws have their positions: the outputs that it rounds, and `A` or `X` for a
prologue (R172, R318). Those of a `CONVF` layer before the last have a place in none (log 22). -/
def Flight.drawTensors (f : Flight) : List Nat :=
  let op := f.code
  let prologue := if op = opMm then 0x12 else if op = opConv then 0x10 else 0
  let draws (c : Nat × Nat) : Bool :=
    decide (cQrnd c.2 = 6 ∧ 0 < cRounds c.2) && !f.ignoresChain && (decide (op ≠ opConvf) || decide (c.1 = f.outChain))
  let outs :=
    if op = opMm ∨ op = opMmx then (if modBit f.word 2 then [] else [0xC])
    else if op = opRow then (if fieldAt f.word 0x14 0 8 = 0 then [] else [0xA])
    else if op = opAttn then [0xA]
    else if op = opSort ∨ op = opPscore ∨ op = opCopy then [] else outSlots op
  (if f.rnd = 6 || f.chains.any (fun c => decide (c.1 ≠ prologue) && draws c) then outs else [])
    ++ (if f.chains.any fun c => decide (c.1 = prologue) && draws c then [8] else [])

/-- Cycles that tile starts add outside `RNG` (R324). -/
def ArrayState.tileStarts (x : ArrayState) (f : Flight) : Nat :=
  if x.tileH * x.tileW < 12288 then
    48 * f.drawTensors.foldl (fun n sl => n + (match f.op? sl with
      | some o => tilesTouched o (f.performs sl) x.tileH x.tileW
      | none => 0)) 0
  else 0

/-- The inputs among an instruction's own slots. -/
def Flight.inputRuns (f : Flight) : List (Nat × Nat) :=
  (f.ops.filter fun o => decide (o.slot < 0x100) && !(outSlots f.code).contains o.slot).flatMap Operand.allRuns

def Flight.outputRuns (f : Flight) : List (Nat × Nat) := (outSlots f.code).flatMap fun o => match f.op? o with
  | some o => o.allRuns
  | none => []

/-- R234: 0.10 µs plus the largest of a lane time, the reads and the writes. -/
def State.r234 (s : State) (f : Flight) (lane : Nat) (twice : Bool) : Nat :=
  let reads := s.moveTime false 256 (if twice then f.inputRuns ++ f.inputRuns else f.inputRuns)
  cyc 300 + max lane (max reads (s.moveTime true 256 f.outputRuns))

/-- Compare-exchanges of a bitonic network on n entries (R308, R278). -/
def bitonic (n : Nat) : Nat :=
  let k := if n ≤ 1 then 0 else (n - 1).log2 + 1
  2 ^ k / 2 * k * (k + 1) / 2

/-- The payload rate of a port in GB/s (Table 12-2). -/
def portRate (p gen : Nat) : Nat :=
  if gen = 3 then 100 else if gen = 2 then (if p < 12 then 52 else 104) else if p < 12 then 26 else 52

/-- The payload rate toward a node: that of the port its route takes, and of a GL3 port where no route is usable (log 26). -/
def State.nodeRate (s : State) (n : Nat) : Nat :=
  match s.routePort n with
  | .ok p => portRate p (s.port p).gen
  | .error _ => 100

/-- The runs of a copy's two ends. -/
def CopySpec.runs (c : CopySpec) : List (Nat × Nat) × List (Nat × Nat) :=
  let e := (List.range c.count).map c.index
  (joinRuns (e.map fun i => (c.srcBit i / 8, c.srcFmt.bytes)), joinRuns (e.map fun i => (c.dstBit i / 8, c.dstFmt.bytes)))

/-- R141. -/
def State.copyTime (s : State) (f : Flight) : Nat :=
  let c := f.copySpec
  let slow := c.transpose || c.skew || decide (c.srcFmt ≠ c.dstFmt)
  let r := c.runs
  let link := if modBit f.word 2 then atRate (runBytes r.2) (s.nodeRate (fieldAt f.word 0xC 0 14)) else 0
  let dst := if modBit f.word 2 then 0 else s.memTime true r.2
  cyc 1200 + max (atRate (c.count * c.dstFmt.bits / 8) (if slow then 64 else 128)) (max (s.memTime false r.1) (max dst link))

/-- The pages that a selective or whole walk of an `ATTN` reads (R269), from the record it captured. -/
def State.walkPages (s : State) (f : Flight) (r : Session) : List Nat :=
  let np := ceilDiv r.len 64
  if modBit f.word 2 = false then List.range np
  else
    let p := f.op 0x10
    let named := (List.range (p.e 1)).map fun i => s.rdElem p 1 i 0 0
    (List.range np).filter fun j => decide (j < r.sink) || decide (np - r.window ≤ j) || named.contains j

/-- Keys of the walked pages: positions below the snapshot, in increasing order. -/
def walkKeys (r : Session) (pages : List Nat) : List Nat :=
  pages.flatMap fun j => (List.range (min 64 (r.len - 64 * j))).map fun t => 64 * j + t

/-- The offset of a frame's page in the cache object (R256). -/
def State.pageOff (s : State) (r : Session) (layer j : Nat) : Nat :=
  (s.page (r.pmBase + layer * r.pagesPerLayer + j)).frame * r.pageBytes

/-- R275 for the walked pages `pages`. -/
def State.attnTime (s : State) (f : Flight) (r : Session) (pages : List Nat) : Nat :=
  let w := f.word
  let nk := (walkKeys r pages).length
  let nt := ceilDiv nk 128
  let mq := (f.op 8).e 1
  let mr := roundUp mq 16
  let dh := (f.op 8).e 0 - r.rope
  let dv := (f.op 0xA).e 0
  let layer := half16 w 0x18
  let la := s.lanesActive
  let t128 (a : Nat) : Nat := ceilDiv a 128
  let byRows (tiles : Nat) : Nat := tiles * max (mr * 2) 128
  let keyTiles (per : Nat) : Nat :=
    (List.range nt).foldl (fun n i => n + per * max (roundUp (min 128 (nk - 128 * i)) 16 * 2) 128) 0
  let twice := if modBit w 0 then 2 else 1
  let cell := if modBit w 1 then
      byRows (t128 r.latent * t128 dh) + twice * byRows (nt * t128 (r.latent + r.rope)) + byRows (nt * t128 r.latent)
        + byRows (t128 dv * t128 r.latent)
    else (if f.hasOp 0xC then twice * keyTiles (t128 dh * t128 r.latent) else 0)
      + (if f.hasOp 0xE then twice * keyTiles (t128 dv * t128 r.latent) else 0)
      + twice * byRows (nt * t128 (dh + r.rope)) + byRows (nt * t128 dv)
  let e := chainCost (f.chain? 0x14) + (f.op 0xA).scaled.toNat
  let vector := twice * (perLane (6 * mr * nk) la + (if (f.chain? 0x14).isSome then perLane (e * mq * dv) la else 0))
  let base := (s.obj (handleIndex r.cache)).base * 65536
  let runs := pages.map fun j => (base + s.pageOff r layer j, min 64 (r.len - 64 * j) * r.slotBytes)
  let walk := twice * s.stackTime false runs
  cyc 1200 + max (cyc cell) (max vector walk) + atRate (runBytes f.outputRuns) 256

/-- Candidate pages of a `PSCORE` (R276). -/
def candidates (r : Session) : List Nat :=
  let np := ceilDiv r.len 64
  (List.range np).filter fun j => decide (r.sink ≤ j) && decide (j + r.window < np)

/-- The offset of a page's summary in the Belvedere object (R257). -/
def summaryOff (r : Session) (layer j : Nat) : Nat := r.belvOff + (layer * r.pagesPerLayer + j) * 128

/-- The `select` term of R278 for `nc` candidates. -/
def selectTime (nc : Nat) : Nat := if nc = 0 then 0 else bitonic nc * tUnit / 64

/-- R278. -/
def State.pscoreTime (s : State) (f : Flight) (r : Session) : Nat :=
  let nc := (candidates r).length
  let g := (f.op 8).e 1
  let base := (s.obj (handleIndex r.belv)).base * 65536
  let read := s.stackTime false [(base + summaryOff r (half16 f.word 0x10) ((candidates r).headD 0), 128 * nc)]
  cyc 1200 + max (cyc (ceilDiv nc 128 * max (roundUp g 16 * 2) 128)) (max (perLane (g * nc) s.lanesActive) read)
    + selectTime nc

/-- The `MM` of shape M × N × K that times one product of an `ATTNB`, its operands in the format of `Q` (R281). -/
def Flight.asMm (f : Flight) (m n k : Nat) : Flight :=
  let q := f.op 8
  let mat (slot c r : Nat) : Operand := { q with slot := slot, ext := [c, r, 1, 1], scale := none }
  { f with word := opMm, ops := [mat 8 k m, mat 0xA n k, mat 0xC n m], chains := [] }

/-- A row's duration by the terms that do not depend on where its bytes lie (R208). -/
def State.engineCycles (s : State) (f : Flight) (r : TRow) : Nat :=
  let bytes (n : Nat) : Nat := toCycles (atRate (n * (f.op 8).fmt.bytes) 256)
  if r.kind = 1 then bytes (r.mExt * r.kExt) else if r.kind = 2 then bytes (r.nExt * r.kExt)
  else if r.kind = 5 then bytes (r.mExt * r.nExt) else (s.rowCycles f r).getD 0

/-- What an instruction's free values are keyed by: its word and its operands. -/
def Flight.key (f : Flight) : List Nat := f.word :: f.ops.flatMap fun o => o.word :: o.base :: o.ext

/-- R281: the five products of Table 07-12 as one sequence of steps with no bubble (R210). Where their operands lie the spec does not
say: the time that their memories add is free (log 27). -/
def State.attnbTime (s : State) (f : Flight) : Nat :=
  let m := (f.op 8).e 1
  let d := (f.op 8).e 0
  let n := (f.op 0xA).e 1
  let dv := (f.op 0xC).e 0
  let steps := [(m, n, d), (m, n, dv), (n, dv, m), (n, d, m), (m, d, n)].flatMap fun p =>
    let g := f.asMm p.1 p.2.1 p.2.2
    (stepsOf (g.rowsFrom 0)).map fun l =>
      let sum (u : TUnit) : Nat := (l.filter fun r => decide (r.unit = u)).foldl (fun t r => t + s.engineCycles g r) 0
      (sum .copy, sum .compute, sum .store)
  cyc 1200 + max (cyc ((r209 steps).2.1 + Config.freeNat 0 (0x281 :: f.key))) (perLane (8 * roundUp m 16 * n) s.lanesActive)

/-- The bytes of a frame's payload (R285). -/
def frameTokens (r : Session) (j : Nat) : Nat := min 64 (r.len - 64 * j)
def framePayload (r : Session) (j : Nat) : Nat := frameTokens r j * r.slotBytes + (if r.belv = 0 then 0 else 128)

/-- R283 for a job. -/
def State.exportTime (s : State) (f : Flight) (r : Session) : Nat :=
  let w := f.word
  let base := (s.obj (handleIndex r.cache)).base * 65536
  let rate := s.nodeRate (fieldAt w 0xE 0 14)
  (List.range (fieldAt w 0x14 0 32)).foldl (fun t i =>
    let j := fieldAt w 0x10 0 32 + i
    let bytes := 64 + framePayload r j
    t + max (atRate bytes 256) (max (s.stackTime false [(base + s.pageOff r (half16 w 0xC) j, frameTokens r j * r.slotBytes)])
      (atRate bytes rate))) (cyc 1200)

/-- The vector engine's time of a `CONV` (R295). -/
def State.vconvTime (s : State) (f : Flight) : Nat :=
  let p := f.conv
  let y := f.op 0xC
  cyc 1200 + max (perLane (p.rows * p.cout * (p.red + f.loads.2)) s.lanesActive)
    (max (s.moveTime false 256 ((f.op 8).allRuns ++ (f.op 0xA).allRuns)) (s.moveTime true 256 y.allRuns))

/-- The engine of a `CONV` (R295). -/
def State.convEngine (s : State) (f : Flight) : Nat :=
  let e := fieldAt f.word 1 2 2
  if e ≠ 0 then e
  else if (match f.tileParams.choose with | .ok _ => false | .error _ => true) then 1
  else if s.vconvTime f < cyc (s.cellTime f 0).2.1 then 2 else 1

/-- The nominal time of an instruction in cycles, with its fill and drain where R209 gives them. That of an `ATTN` with `SELECT` hangs
on the bytes of `PAGES`, which a dry run does not read (R131): free (log 27). -/
def State.nominal (s : State) (a : Nat) (f : Flight) (r : Session) : Option (Nat × Option (Nat × Nat)) :=
  let x := s.array a
  let w := f.word
  let la := s.lanesActive
  let plain (t : Nat) : Option (Nat × Option (Nat × Nat)) := some (toCycles t, none)
  let starts := cyc (x.tileStarts f)
  let elems := (f.op 8).size
  let op := f.code
  if op = opConv ∧ f.engine = 2 then plain (s.vconvTime f + starts)
  else if f.hasRows then
    let t := s.cellTime f (startTile w)
    some (t.2.1 + x.tileStarts f, some (t.1, t.2.2))
  else if op = opAttn then
    if modBit w 2 then some (Config.freeNat 0 (0x131 :: r.len :: f.key) % 2 ^ 64, none)
    else plain (s.attnTime f r (List.range (ceilDiv r.len 64)) + starts)
  else if op = opAttnb then plain (s.attnbTime f + starts)
  else if op = opPscore then plain (s.pscoreTime f r)
  else if op = opKvexp then plain (s.exportTime f r)
  else if op = opVec then plain (s.r234 f (perLane (elems * max 1 (chainCost (f.chain? 0x10))) la) false + starts)
  else if op = opRow then
    let fn := fieldAt w 0x14 0 8
    let c := chainCost (f.chain? 0x10)
    let cost := if fn = 0 then 3 else if fn = 1 then max 1 c else if fn = 2 then 3 + c else if fn = 3 then 6
      else if fn = 4 then 2 else 1
    plain (s.r234 f (perLane (elems * cost) la) (modBit w 1) + starts)
  else if op = opSfn then plain (s.r234 f (elems * tUnit / 64) false + starts)
  else if op = opSort then
    let k := f.op 8
    let row (r : Nat) : Nat :=
      let io (l : List Nat) : List (Nat × Nat) := l.filterMap fun sl => (f.op? sl).map fun o => o.rowRun 0 (o.e 0) r 0 0
      max (bitonic (k.e 0) * tUnit / 64) (max (s.moveTime false 256 (io [8, 0xA])) (s.moveTime true 256 (io [0xC, 0xE])))
    plain ((List.range (k.e 1)).foldl (fun t r => t + row r) (cyc 300))
  else if op = opRng then
    let dist := fieldAt w 1 0 2
    let cost := if dist = 3 then 12 else if dist = 2 then 4 else 1
    let grid := if modBit w 3 then (half16 w 0x18, half16 w 0x1A) else (x.tileH, x.tileW)
    let tiles := if modBit w 2 then tilesTouched (f.op 8) (fun _ => true) grid.1 grid.2 else 0
    plain (cyc 300 + max (perLane (elems * cost) la + cyc (48 * tiles)) (s.moveTime true 256 f.outputRuns))
  else if op = opPool then
    let cost := fieldAt w 0xC 0 4 * fieldAt w 0xC 4 4 + (if fieldAt w 1 0 2 = 0 then 0 else 1)
    plain (s.r234 f (perLane ((f.op 0xA).size * cost) la) false + starts)
  else if op = opResize then
    plain (s.r234 f (perLane ((f.op 0xA).size * (if modBit w 0 then 6 else 1)) la) false + starts)
  else if op = opCopy then plain (s.copyTime f)
  else none

end Sys2Proof.Machine
end

