-- ==== Sys2Proof/Machine/Attention.lean ====
section
/-! DEFINITION. Attention (07 R265 to R280, 06 R242 to R246): the walk and its checks, the results of `ATTN`, `ATTNB` and
`PSCORE`. -/
namespace Sys2Proof.Machine

/-- A dot product by R174, in reduction tiles of 128: the patterns of two vectors and their formats. -/
def dot (fa fb : Fmt) (a b : List Nat) : Nat :=
  ((reduce .float 128 [(0, 0, false, 0)] fa fb [a] [b] [{}]).headD {}).v

/-- An FP32 value rounded into a format under `RNE`: its pattern. -/
def narrow (g : Fmt) (v : Nat) : Nat := (conv g .rne (val32 v)).pat

/-! ## The walk (R256, R265, R269, R270) -/

/-- The fault of an access to a session's object, with no descriptor to name. -/
def State.sessionAccess (s : State) (handle off n : Nat) : Option FaultInfo :=
  match s.checkObj handle off n false with
  | .error e => some e
  | .ok a => (s.poisonIn a n).map fun p => { code := cMemPoison, d1 := p }

/-- The first fault of a walk: an unmapped page before its slots, then an access to its slots. -/
def State.walkFault (s : State) (f : Flight) (idx : Nat) (r : Session) : Option FaultInfo :=
  let layer := half16 f.word 0x18
  (s.walkPages f r).findSome? fun j =>
    if (s.page (r.pmBase + layer * r.pagesPerLayer + j)).valid then
      s.sessionAccess r.cache (s.pageOff r layer j) (min 64 (r.len - 64 * j) * r.slotBytes)
    else some { code := cPageUnmapped, d0 := idx, d1 := layer, d2 := j }

/-- The latent of the token at a position, and its positional key, as patterns (R256). -/
def State.slotOf (s : State) (r : Session) (layer pos : Nat) : List Nat × List Nat :=
  let fmt := (Fmt.ofCode r.fmt).getD .bf16
  let a := s.addrOf r.cache (s.pageOff r layer (pos / 64) + pos % 64 * r.slotBytes)
  (tabulate r.latent fun i => s.rdNat (a + i * fmt.bytes) fmt.bytes,
   tabulate r.rope fun i => s.rdNat (a + r.latent * fmt.bytes + 2 * i) 2)

/-! ## One row of an `ATTN` (R242 to R246, R268, R271, R272) -/

/-- The feed format of R243 for a value operand. -/
def feedFmt (v : Fmt) : Fmt := match v with
  | .fp16 => .fp16
  | .e4m3 => .e4m3
  | .e5m2 => .e4m3
  | _ => .bf16

/-- What a row keeps between reduction tiles: row exponent, numerators, denominator, status bits. -/
structure RowRun where
  e : Option Int := none
  acc : List Nat
  d : Nat := 0
  flags : Nat := 0
  deriving DecidableEq, Repr

/-- The exponential of a score in ER24 as a value; +0 for a masked key. -/
def scoreExp (v : Option Nat) : Nat × Nat :=
  match v with
  | none => (0, 0)
  | some v => let p := expER24 v
    (p.1, orFlags (flagIf p.2 stScoreRange) (nanFlag v))

/-- The exponent of a tile's largest exponential; none when all are +0. -/
def tileExp (ps : List Nat) : Option Int :=
  ps.foldl (fun m p => match decodeFloat fER24 p with
    | .fin _ n d e => if n = 0 then m else
        let l := log2Floor n d e
        some (match m with | none => l | some k => max k l)
    | _ => m) none

/-- A running correction: the value times 2^k, k ≤ 0, and whether it lost non-zero bits (R244). -/
def correct (k : Int) (v : Nat) : Nat × Bool :=
  let exact := (val32 v).scale2 k
  let y := arith fFP32 exact
  (y, exact.lt (val32 y) || (val32 y).lt exact)

/-- One reduction tile of a row: the scores of its keys, none for a masked key, and their values by column (R243 to R245). -/
def RowRun.tile (vf : Fmt) (g : RowRun) (scores : List (Option Nat)) (vals : List (List Nat)) : RowRun :=
  let ex := scores.map scoreExp
  let ps := ex.map (·.1)
  let e := match g.e, tileExp ps with
    | some a, some b => some (max a b)
    | none, b => b
    | a, none => a
  let rise : Int := match g.e, e with
    | some a, some b => a - b
    | _, _ => 0
  let up := e.getD 0
  let ff := feedFmt vf
  let m := ps.map fun p => (conv ff .rne ((decodeFloat fER24 p).scale2 (-up))).pat
  let kept := g.acc.map (correct rise)
  let acc := (List.range kept.length).map fun i =>
    add32 ((kept.getD i (0, false)).1)
      (colSum 128 ((m.zip vals).map fun e => (toFp32 ff e.1, toFp32 vf (e.2.getD i 0))))
  let d := m.foldl (fun a m => let c := convFloat fER40 .rne ((decodeFloat fER40 a.1).add ((valOf ff m).scale2 up))
    (c.pat, a.2 || c.sat)) (g.d, false)
  { e := e, acc := acc, d := d.1,
    flags := orFlags (ex.foldl (fun n p => orFlags n p.2) g.flags)
      (orFlags (flagIf (kept.any (·.2)) stScaleLoss) (flagIf d.2 stScoreRange)) }

/-- The lists of `n` consecutive members. -/
def chunks {α : Type} (n : Nat) (l : List α) : List (List α) :=
  (List.range (ceilDiv l.length n)).map fun i => (l.drop (i * n)).take n

/-- A row over all its reduction tiles. -/
def RowRun.all (vf : Fmt) (width : Nat) (scores : List (Option Nat)) (vals : List (List Nat)) : RowRun :=
  ((chunks 128 scores).zip (chunks 128 vals)).foldl (fun g t => g.tile vf t.1 t.2) { acc := List.replicate width 0 }

/-- The weighted sums of the second pass of storage-faithful mode (R250, R272): each p / D in the value-operand format. -/
def faithSums (vf : Fmt) (rnd : Rnd) (width d : Nat) (scores : List (Option Nat)) (vals : List (List Nat)) : List Nat :=
  let w := scores.map fun v =>
    (conv vf rnd (val32 (quot40 (decodeFloat fER24 (scoreExp v).1) (decodeFloat fER40 d)))).pat
  tabulate width fun i => dot vf vf w (vals.map fun v => v.getD i 0)

/-- A walked key as the score and value products take it: the vector dotted with the query row, and the value row. -/
def State.attnKey (s : State) (f : Flight) (r : Session) (pos : Nat) : List Nat × List Nat :=
  let lf := (Fmt.ofCode r.fmt).getD .bf16
  let qf := (f.op 8).fmt
  let c := s.slotOf r (half16 f.word 0x18) pos
  let up (slot : Nat) : List Nat :=
    let u := f.op slot
    tabulate (u.e 0) fun i => narrow qf (dot lf u.fmt c.1 (tabulate (u.e 1) fun l => s.rdElem u i l 0 0))
  if modBit f.word 1 then (c.1 ++ c.2, c.1)
  else
    ((if f.hasOp 0xC then up 0xC else c.1) ++ c.2,
     if f.hasOp 0xE then up 0xE else c.1.map fun x => (convPat lf qf .rne x).pat)

/-- The format in which a key's value row stands (R272). -/
def Flight.attnValFmt (f : Flight) (r : Session) : Fmt :=
  if modBit f.word 1 then (Fmt.ofCode r.fmt).getD .bf16 else (f.op 8).fmt

/-- The query row that the scores take (R268). -/
def State.attnQuery (s : State) (f : Flight) (r : Session) (m : Nat) : List Nat :=
  let q := f.op 8
  let row := tabulate (q.e 0) fun i => s.rdElem q i m 0 0
  if modBit f.word 1 then
    let u := f.op 0xC
    let dh := q.e 0 - r.rope
    tabulate r.latent (fun l => narrow q.fmt (dot q.fmt u.fmt (row.take dh) (tabulate dh fun i => s.rdElem u l i 0 0)))
      ++ row.drop dh
  else row

/-- Row `m` of an `ATTN`: its stored elements, `LSE` record and status word. -/
def State.attnRow (s : State) (x : ArrayState) (c : DrawCtx) (f : Flight) (r : Session) (keys : List Nat)
    (kv : List (List Nat × List Nat)) (m : Nat) : VRes :=
  let w := f.word
  let q := f.op 8
  let out := f.op 0xA
  let vf := f.attnValFmt r
  let lf := (Fmt.ofCode r.fmt).getD .bf16
  let query := s.attnQuery f r m
  let kf := if modBit w 1 || !f.hasOp 0xC then lf else q.fmt
  -- the positional key has the format of Q; the latent part of a key may have LAT_FMT, which then equals it (R267)
  let scores := (keys.zip kv).map fun e =>
    if modBit w 3 && decide (r.len + m < e.1 + q.e 1) then none
    else some (mul32 (dot q.fmt kf query e.2.1) (fieldAt w 0x1C 0 32))
  let vals := kv.map (·.2)
  let width := if modBit w 1 then r.latent else out.e 0
  let run := RowRun.all vf width scores vals
  let d := decodeFloat fER40 run.d
  let empty := d.isZero
  let up := run.e.getD 0
  let norm :=
    if empty then List.replicate width 0
    else if modBit w 0 then faithSums vf (rndPlain f.rnd) width run.d scores vals
    else run.acc.map fun a => quot40 ((val32 a).scale2 up) d
  let vec :=
    if modBit w 1 then
      let u := f.op 0xE
      let lat := norm.map (narrow q.fmt)
      tabulate (out.e 0) fun i => dot q.fmt u.fmt lat (tabulate r.latent fun l => s.rdElem u i l 0 0)
    else norm
  let body := rowRes ((List.range (out.e 0)).map fun i =>
    let idx : Idx := (i, m, 0, 0)
    let k := some (out.linear idx)
    let v := vec.getD i 0
    let len := ((f.chain? 0x14).map fun ch => min 9 (cLen ch)).getD 0
    -- storage-faithful mode holds the second product in the output's format and scale before the chain (R250, Table 06-13)
    let h := if modBit w 0 && decide (1 ≤ len) then s.faithful32 out idx (rndPlain f.rnd) v else (v, 0)
    let y := match f.chain? 0x14 with
      | none => h
      | some ch => s.runChain x c f 0x14 ch out idx m k (0, 0) len 0 h.1
    let p := s.tailPat out idx (c.storeRnd f (f.chain? 0x14) k out idx) y.1
    (out.store idx p.1, orFlags (nanFlag v) (orFlags h.2 (orFlags y.2 p.2))))
  let status := orFlags (body.rows.headD 0) (orFlags run.flags (flagIf empty stEmptyRow))
  { stores := body.stores ++ (match f.op? 0x12 with
      | some o => [o.store (0, m, 0, 0) (if empty then negInf32 else lnVal32 d), o.store (1, m, 0, 0) status]
      | none => []),
    rows := [status] }

/-- `ATTN`: every row of `O` and `LSE`. -/
def State.attnRes (s : State) (x : ArrayState) (f : Flight) (r : Session) : VRes :=
  let c := s.drawCtx x f (f.chain? 0x14)
  let keys := walkKeys r (s.walkPages f r)
  let kv := keys.map (s.attnKey f r)
  (List.range ((f.op 8).e 1)).foldl (fun acc m => acc.append (s.attnRow x c f r keys kv m)) {}

/-! ## PSCORE (R276, R277) -/

/-- The summary of a page as BF16 patterns. -/
def State.summary (s : State) (r : Session) (layer j : Nat) : List Nat :=
  let a := s.addrOf r.belv (summaryOff r layer j)
  tabulate 64 fun i => s.rdNat (a + 2 * i) 2

/-- The first fault of the summaries a `PSCORE` reads (R265). -/
def State.summaryFault (s : State) (f : Flight) (r : Session) : Option FaultInfo :=
  (candidates r).findSome? fun j => s.sessionAccess r.belv (summaryOff r (half16 f.word 0x10) j) 128

/-- A candidate enters a list ordered by descending score, equal scores and NaN in increasing ordinal. -/
def insertScore (e : Nat × Nat) : List (Nat × Nat) → List (Nat × Nat)
  | [] => [e]
  | h :: t => if isNan32 h.1 && !isNan32 e.1 || lt32 h.1 e.1 then e :: h :: t else h :: insertScore e t

/-- `PSCORE`. -/
def State.pscoreRes (s : State) (f : Flight) (r : Session) : VRes :=
  let q := f.op 8
  let out := f.op 0xA
  let rows := tabulate (q.e 1) fun g => tabulate 64 fun i => s.rdElem q i g 0 0
  let scored := (candidates r).map fun j =>
    let sm := s.summary r (half16 f.word 0x10) j
    let dots := rows.map fun row => dot .bf16 .bf16 row sm
    (dots.tail.foldl max32 (canon32 (dots.headD 0)), j)
  let sorted := scored.foldl (fun l e => insertScore e l) []
  { stores := (List.range (out.e 1)).flatMap fun i =>
      let e := sorted.getD i (negInf32, 0xFFFFFFFF)
      [out.store (0, i, 0, 0) e.1, out.store (1, i, 0, 0) e.2],
    flags := if scored.any fun e => isNan32 e.1 then stNanSeen else 0 }

/-! ## ATTNB (R279, R280) -/

/-- The patterns of row `m` of a tensor of rank 2. -/
def State.rowPats (s : State) (o : Operand) (m : Nat) : List Nat := tabulate (o.e 0) fun i => s.rdElem o i m 0 0

/-- p and ds of query `m` and key `n` as FP32 values. -/
def State.attnbCell (s : State) (f : Flight) (m n lnD delta : Nat) : Nat × Nat :=
  let q := f.op 8
  let scale := fieldAt f.word 0x1C 0 32
  let x := mul32 (dot q.fmt q.fmt (s.rowPats q m) (s.rowPats (f.op 0xA) n)) scale
  let e := exp32 (sub32 x lnD)
  let p := if modBit f.word 0 then toFp32 (f.op 0xC).fmt (narrow (f.op 0xC).fmt e) else e
  let dp := dot q.fmt q.fmt (s.rowPats (f.op 0x10) m) (s.rowPats (f.op 0xC) n)
  (p, mul32 (mul32 p (sub32 dp delta)) scale)

/-- The feed values pf and dsf of every query row, by key (R280). -/
def State.attnbFeeds (s : State) (f : Flight) (m : Nat) : List (Nat × Nat) :=
  let q := f.op 8
  let nk := (f.op 0xA).e 1
  let mq := q.e 1
  let lse := f.op 0x12
  let live := s.maskBit (f.op? 0x1A) m && !bit (s.rdElem lse 1 m 0 0) 1
  let od := (s.rowPats (f.op 0xE) m).map (toFp32 q.fmt)
  let dd := (s.rowPats (f.op 0x10) m).map (toFp32 q.fmt)
  let delta := (dd.zip od).foldl (fun a p => fma32 p.1 p.2 a) 0
  tabulate nk fun n =>
    if live && !(modBit f.word 3 && decide (nk + m < n + mq)) then
      let c := s.attnbCell f m n (s.rdElem lse 0 m 0 0) delta
      (narrow q.fmt c.1, narrow q.fmt c.2)
    else (0, 0)

/-- A row of an output of `ATTNB`, each element a sum by R174 that the tail of R183 stores. -/
def State.attnbRow (s : State) (c : DrawCtx) (f : Flight) (out : Operand) (row : Nat) (v : Nat → Nat) : VRes :=
  rowRes ((List.range (out.e 0)).map fun i =>
    let idx : Idx := (i, row, 0, 0)
    let y := v i
    let p := s.tailPat out idx (c.storeRnd f none none out idx) y
    (out.store idx p.1, orFlags (nanFlag y) p.2))

/-- `ATTNB`: the order in which its three outputs draw is not stated (log 22). -/
def State.attnbRes (s : State) (x : ArrayState) (f : Flight) : VRes :=
  let c := s.drawCtx x f none
  let q := f.op 8
  let k := f.op 0xA
  let qf := q.fmt
  let ms := List.range (q.e 1)
  let feeds := ms.map (s.attnbFeeds f)
  let pf (n : Nat) : List Nat := feeds.map fun l => (l.getD n (0, 0)).1
  let ds (n : Nat) : List Nat := feeds.map fun l => (l.getD n (0, 0)).2
  let column (o : Operand) (i : Nat) (rows : List Nat) : List Nat := rows.map fun m => s.rdElem o i m 0 0
  let kept := ms.filter fun m => s.maskBit (f.op? 0x1A) m
  let dq := kept.map fun m => s.attnbRow c f (f.op 0x14) m fun i =>
    if bit (s.rdElem (f.op 0x12) 1 m 0 0) 1 then 0 else dot qf qf ((feeds.getD m []).map (·.2)) (column k i (List.range (k.e 1)))
  let dk := (List.range (k.e 1)).map fun n => s.attnbRow c f (f.op 0x16) n fun i => dot qf qf (ds n) (column q i ms)
  let dv := (List.range (k.e 1)).map fun n => s.attnbRow c f (f.op 0x18) n fun i =>
    dot qf qf (pf n) (column (f.op 0x10) i ms)
  (dq ++ dk ++ dv).foldl VRes.append {}

end Sys2Proof.Machine
end

