-- ==== Sys2Proof/Machine/Conv.lean ====
section
/-! DEFINITION. Convolution (08 R287 to R304): the reduction of an output element, and what a compute row, a `VCONV` row and a
tile of `CONVF` do. -/
namespace Sys2Proof.Machine

/-! ## One output element (R290, R291, R294) -/

/-- The weight of output channel `o` at a tap. -/
def State.weightAt (s : State) (w : Operand) (o kh kw ci : Nat) : Nat := s.rdElem w o ci kw kh

/-- The value the cells take for an element of `X`, by the prologue of R222, with its status bits. -/
def State.convX (s : State) (x : ArrayState) (c : DrawCtx) (f : Flight) (i : Idx) : Nat × Nat :=
  let o := f.op 8
  match f.chain? 0x10 with
  | none => (s.elemAt o i, 0)
  | some w =>
    let y := s.runChain x c f 0x10 w o i (o.rowOf i) none (0, 0) (min 9 (cLen w)) 0 (s.realAt o i)
    let v := if o.scaled then div32 y.1 (s.factor o (o.rowOf i) i.1) else y.1
    ((conv o.fmt .rne (val32 v)).pat, orFlags y.2 (nanFlag v))

/-- The accumulator `a` of output element `i` of a `CONV` after the reduction indices `lo` to `hi` − 1, and the status bits of
its prologue. -/
def State.convAcc (s : State) (x : ArrayState) (c : DrawCtx) (f : Flight) (lo hi : Nat) (i : Idx) (a : Acc) : Acc × Nat :=
  let p := f.conv
  let w := f.op 0xA
  let xo := f.op 8
  let taps := ((convTaps (convGeom f.word) xo.ext4 w.ext4 i.2.1 i.2.2.1).drop lo).take (hi - lo)
  let chan := i.1 / p.go * p.cg
  let as := taps.map fun t => match t.2.2.2 with
    | some q => s.convX x c f (chan + t.2.2.1, q.1, q.2, i.2.2.2)
    | none => (0, 0)
  let bs := taps.map fun t => s.weightAt w i.1 t.1 t.2.1 t.2.2.1
  ((reduce f.cellMode p.kt [(0, 0, false, 0)] xo.fmt w.fmt [as.map (·.1)] [bs] [a]).headD {},
    as.foldl (fun n e => orFlags n e.2) 0)

/-- The accumulator with which output element `i` of a `CONV` starts (R177). -/
def State.convStart (s : State) (f : Flight) (i : Idx) : Acc := if modBit f.word 1 then s.accFrom f 0xC i else {}

/-- An output element of a `CONV` from its accumulator: its store and status bits (R183, R221). -/
def State.convElem (s : State) (x : ArrayState) (c : DrawCtx) (f : Flight) (k : Option Nat) (i : Idx) (a : Acc) :
    (Nat × Nat × Nat) × Nat :=
  let out := f.op 0xC
  let v := s.partVal f [a] i.1 0 0
  let q := s.epiIn f out i v.1
  let y := s.epiFrom x c f out i k (0, 0) 0 q.1
  let t := s.tailPat out i (c.storeRnd f (f.chain? 0x12) k out i) y.1
  (out.store i t.1, orFlags v.2 (orFlags (nanFlag v.1) (orFlags q.2 (orFlags y.2 (orFlags (nanFlag y.1) t.2)))))

/-! ## Tiles of a `CONV` -/

/-- A row of elements as a tile's part: the values stored and the row's status. -/
def tileRow (m : Nat) (l : List ((Nat × Nat × Nat) × Nat)) : Stores × (Nat × RowAcc) :=
  (l.map (·.1), (m, { flags := l.foldl (fun n e => orFlags n e.2) 0 }))

def joinTile (l : List (Stores × (Nat × RowAcc))) : TileRes :=
  { stores := l.flatMap (·.1), rows := l.map (·.2) }

/-- The draws of a `CONV`. -/
def State.convCtx (s : State) (x : ArrayState) (f : Flight) : DrawCtx := s.drawCtx x f (f.chain? 0x12)

/-- The accumulators of its output tile after compute row `r` of a `CONV` on the cells, and the status bits of each row's prologue
(R291, R293); `K0` and `K_EXT` count 128 for each reduction tile. -/
def State.convSum (s : State) (x : ArrayState) (f : Flight) (r : TRow) : TileAccs × List (Nat × RowAcc) :=
  let y := (f.op 0xC).ext4
  let rows := (List.range r.mExt).map fun j =>
    let m := r.m0 + j
    let l := (List.range r.nExt).map fun e =>
      let n := r.n0 + e
      let i : Idx := (n, pixelOf y m)
      let a := if r.k0 = 0 then s.convStart f i else (accsAt x.accs n m).headD {}
      let v := s.convAcc x (s.convCtx x f) f (r.k0 / 128 * f.conv.kt) ((r.k0 + r.kExt) / 128 * f.conv.kt) i a
      ((n, m, [v.1]), v.2)
    (l.map (·.1), (m, ({ flags := l.foldl (fun n e => orFlags n e.2) 0 } : RowAcc)))
  (rows.flatMap (·.1), rows.map (·.2))

/-- The output path of a tile of a `CONV` on the cells (R293). -/
def State.convTile (s : State) (x : ArrayState) (f : Flight) (g : Grid) (r : TRow) (accs : TileAccs) : TileRes :=
  let c := s.convCtx x f
  let y := (f.op 0xC).ext4
  joinTile ((List.range r.mExt).map fun j =>
    let m := r.m0 + j
    tileRow m ((List.range r.nExt).map fun e =>
      s.convElem x c f (if f.looseLanes then none else some (f.drawn + j * g.nt + e)) (r.n0 + e, pixelOf y m)
        ((accsAt accs (r.n0 + e) m).headD {})))

/-- An output tile of a `CONV` on the vector engine: one image row, all channels (R294). -/
def State.vconvTile (s : State) (x : ArrayState) (f : Flight) (r : TRow) : TileRes :=
  let c := s.convCtx x f
  let y := (f.op 0xC).ext4
  joinTile ((List.range y.2.1).map fun px =>
    tileRow (px + y.2.1 * r.tile) ((List.range y.1).map fun o =>
      let i : Idx := (o, px, r.m0, r.k0)
      let a := s.convAcc x c f 0 f.conv.red i (s.convStart f i)
      let e := s.convElem x c f (if f.looseLanes then none else some (f.drawn + o + y.1 * px)) i a.1
      (e.1, orFlags a.2 e.2)))

/-! ## Faults of a `CONV`'s compute steps (Table 02-4, R182) -/

/-- The bytes that the reduction of output element `i` reads, for the reduction indices `lo` to `hi` − 1. -/
def Flight.convPlaces (f : Flight) (xs ws slot : Nat) (g : Geom) (p : ConvPlan) (lo hi : Nat) (i : Idx) :
    List (Operand × (Nat × Nat)) :=
  let xo := f.op xs
  let w := f.op ws
  let chan := i.1 / p.go * p.cg
  (((convTaps g xo.ext4 w.ext4 i.2.1 i.2.2.1).drop lo).take (hi - lo)).flatMap fun t =>
    (w, w.placeAt (i.1, t.2.2.1, t.2.1, t.1)) :: (match t.2.2.2 with
      | some q =>
        let j : Idx := (chan + t.2.2.1, q.1, q.2, i.2.2.2)
        (xo, xo.placeAt j) :: (match f.chain? slot with
          | some c => f.chainPlaces slot c j (xo.rowOf j)
          | none => [])
      | none => [])

/-- The bytes that the output path of element `i` reads. -/
def Flight.convOutPlaces (f : Flight) (i : Idx) : List (Operand × (Nat × Nat)) :=
  let out := f.op 0xC
  (if modBit f.word 1 then [(out, out.placeAt i)] else [])
    ++ ([0xE].filterMap fun sl => (f.op? sl).map fun o => (o, o.placeAt (i.1, 0, 0, 0)))
    ++ ([0x14].filterMap fun sl => (f.op? sl).map fun o => (o, o.placeAt i))
    ++ (match f.chain? 0x12 with | some w => f.chainPlaces 0x12 w i (out.rowOf i) | none => [])

/-- The first poisoned unit or bad scale that the elements `is` depend on, over reduction indices `lo` to `hi` − 1. -/
def State.convFault (s : State) (f : Flight) (is : List Idx) (lo hi : Nat) (last : Bool) : Option FaultInfo :=
  let clean := s.mem.poison = [] && s.mem.lostStripes = []
    && !(f.ops.any fun o => decide (regionOf o.base = .ice))
  let out := f.op 0xC
  firstFault [
    if clean then none else
      s.poisonAt (is.flatMap fun i => f.convPlaces 8 0xA 0x10 (convGeom f.word) f.conv lo hi i
        ++ (if last then f.convOutPlaces i else [])),
    if last then
      (f.ops.filter (·.scaled)).findSome? fun o =>
        if o.slot = 0xA then s.scaleFault o [] ((is.map (·.1)).eraseDups)
        else if o.slot = 0xC then s.scaleFault o ((is.map out.rowOf).eraseDups) ((is.map (·.1)).eraseDups)
        else s.scaleFault o (List.range o.rows) (List.range (o.e 0))
    else none]

/-- The fault of a compute row of a `CONV` on the cells, or of a `VCONV` row. -/
def State.convRowFault (s : State) (f : Flight) (r : TRow) (last : Bool) : Option FaultInfo :=
  let y := (f.op 0xC).ext4
  if r.kind = 15 then
    s.convFault f ((List.range y.2.1).flatMap fun px => (List.range y.1).map fun o => (o, px, r.m0, r.k0)) 0 f.conv.red true
  else
    let is := (List.range r.mExt).flatMap fun j => (List.range r.nExt).map fun e => (r.n0 + e, pixelOf y (r.m0 + j))
    s.convFault f is (r.k0 / 128 * f.conv.kt) ((r.k0 + r.kExt) / 128 * f.conv.kt) last

/-! ## CONVF (R297 to R303) -/

/-- The activations of a region: its rows and columns, channels, and patterns with the status bits of the elements that they
depend on, channels innermost. -/
structure Region2 where
  rows : Run
  cols : Run
  chans : Nat
  pats : List (Nat × Nat)
  deriving DecidableEq, Repr

def Region2.get (g : Region2) (c x y : Nat) : Nat × Nat :=
  g.pats.getD (((y - g.rows.1) * g.cols.len + (x - g.cols.1)) * g.chans + c) (0, 0)

/-- The input region of a tile in image `n`. -/
def State.haloIn (s : State) (f : Flight) (n : Nat) (reg : Run × Run) : Region2 :=
  let o := f.op 8
  { rows := reg.1, cols := reg.2, chans := o.e 0,
    pats := (List.range reg.1.len).flatMap fun j => (List.range reg.2.len).flatMap fun i =>
      (List.range (o.e 0)).map fun c => (s.rdElem o c (reg.2.1 + i) (reg.1.1 + j) n, 0) }

/-- The format in which layer `l` takes its activations, and the stored format of its output. -/
def Flight.actFmt (f : Flight) (l : Nat) : Fmt := (Fmt.ofCode (fieldAt (f.layer l) 0xD 0 4)).getD .bit
def Flight.midFmt (f : Flight) (l : Nat) : Fmt := (Fmt.ofCode (fieldAt (f.layer l) 0xD 4 4)).getD .fp32

/-- A value held in a layer's stored format and scale (R299), and whether the conversion saturated. -/
def Flight.midHold (f : Flight) (l v : Nat) : Nat × Nat :=
  let sc := fieldAt (f.layer l) 0x10 0 32
  let c := Sys2Proof.Machine.conv (f.midFmt l) (rndPlain (fieldAt (f.layer l) 0xE 0 3)) (val32 (if sc = 0 then v else div32 v sc))
  let q := toFp32 (f.midFmt l) c.pat
  (if sc = 0 then q else mul32 q sc, flagIf c.sat stStoreSat)

/-- The accumulator of an element of layer `l`, then its value after the factors and `BIAS` (R183, R221), with the status bits of
every layer's elements that it depends on (R175, R230). -/
def State.layerVal (s : State) (f : Flight) (l : Nat) (inp : Region2) (i : Idx) : Nat × Nat :=
  let g := f.layerGeom l
  let w := f.op (layerSlot l 0)
  let wt := w.ext4
  let x := f.extsOf l
  let p := convPlan g wt (f.extsOf (l + 1))
  let taps := convTaps g x wt i.2.1 i.2.2.1
  let chan := i.1 / p.go * p.cg
  let as := taps.map fun t => match t.2.2.2 with
    | some q => inp.get (chan + t.2.2.1) q.1 q.2
    | none => (0, 0)
  let bs := taps.map fun t => s.weightAt w i.1 t.1 t.2.1 t.2.2.1
  let mode : CellMode := if intPair (fieldAt (f.layer l) 0xD 0 4) (f.fc (layerSlot l 0)) then .int else .float
  let a := (reduce mode p.kt [(0, 0, false, 0)] (f.actFmt l) w.fmt [as.map (·.1)] [bs] [{}]).headD {}
  let v := a.out mode
  let xScaled := decide (l = 0) && (f.op 8).scaled
  let v := if xScaled || w.scaled then
      mul32 v (mul32 (if l = 0 then s.factor (f.op 8) 0 0 else one32) (s.factor w 0 i.1))
    else v
  let b := match f.op? (layerSlot l 2) with
    | some o => add32 v (s.realAt o (i.1, 0, 0, 0))
    | none => v
  (b, as.foldl (fun n e => orFlags n e.2) (orFlags a.flags (nanFlag v)))

/-- The epilogue of layer `l`; the drawn values of a layer before the last belong to no tensor, so that R318 gives them no word:
each is a free function of its stream and of the element's place in the layer (R55, R56, R320; log 22). -/
def State.layerEpi (s : State) (x : ArrayState) (c : DrawCtx) (f : Flight) (l : Nat) (last : Bool) (k : Option Nat) (i : Idx)
    (v : Nat) : Nat × Nat :=
  let slot := layerSlot l 4
  match f.chain? slot with
  | none => (v, 0)
  | some w =>
    let y := f.extsOf (l + 1)
    let row := i.2.1 + y.2.1 * (i.2.2.1 + y.2.2.1 * i.2.2.2)
    let n := min 9 (cLen w)
    if last then s.runChain x c f slot w (f.op 0xA) i row k (0, 0) n 0 v
    else
      let rnd (j : Nat) : Rnd :=
        rndOf (cQrnd w) c.sr (Config.freeNat 0 (22 :: x.streamKey (cQrnd w) ++ [l, i.1, i.2.1, i.2.2.1, i.2.2.2, j]) % 2 ^ 64)
      chainFrom x w (s.chainArg f slot w i row) (s.chainStat f slot (0, 0) row) rnd n 0 0 v 0

/-- The epilogue's input in storage-faithful mode: held in the layer's stored format when the chain has operations
(Table 06-13, R250, R299; log 29). -/
def State.layerIn (s : State) (f : Flight) (l : Nat) (last : Bool) (i : Idx) (v : Nat) : Nat × Nat :=
  let ops := match f.chain? (layerSlot l 4) with
    | some w => decide (1 ≤ min 9 (cLen w))
    | none => false
  if modBit f.word 0 && ops then
    if last then s.faithful32 (f.op 0xA) i (rndPlain f.rnd) v else f.midHold l v
  else (v, 0)

/-- The output region of a layer before the last, as the next layer takes it (R299). -/
def State.layerOut (s : State) (x : ArrayState) (c : DrawCtx) (f : Flight) (l n : Nat) (reg : Run × Run) (inp : Region2) :
    Region2 :=
  let chans := (f.layerWt l).1
  { rows := reg.1, cols := reg.2, chans := chans,
    pats := (List.range reg.1.len).flatMap fun j => (List.range reg.2.len).flatMap fun i =>
      (List.range chans).map fun o =>
        let idx : Idx := (o, reg.2.1 + i, reg.1.1 + j, n)
        let a := s.layerVal f l inp idx
        let v := s.layerIn f l false idx a.1
        let y := s.layerEpi x c f l false none idx v.1
        let h := if modBit f.word 0 then f.midHold l y.1 else (y.1, 0)
        let p := conv (f.actFmt (l + 1)) .rne (val32 h.1)
        (p.pat, orFlags (orFlags a.2 v.2) (orFlags (orFlags y.2 (nanFlag y.1)) h.2)) }

/-- The input of layer `l` for a tile: the regions of the layers before it, in turn. -/
def State.layerInput (s : State) (x : ArrayState) (c : DrawCtx) (f : Flight) (n : Nat) (regs : List (Run × Run)) :
    Nat → Region2
  | 0 => s.haloIn f n (regs.getD 0 ((0, 0), (0, 0)))
  | l + 1 => s.layerOut x c f l n (regs.getD (l + 1) ((0, 0), (0, 0))) (s.layerInput x c f n regs l)

/-- The last layer's chain gives the store's draws. -/
def Flight.lastChain (f : Flight) : Option Nat := f.chain? f.outChain

/-- Pixels of the spatial tile `t` that come before pixel (x, y) of image `n` in the linear order of `Y`. -/
def pixelsBefore (t : Nat × Run × Run) (n x y : Nat) : Nat :=
  if t.1 < n then t.2.1.len * t.2.2.len
  else if n < t.1 then 0
  else min t.2.1.len (y - t.2.1.1) * t.2.2.len
    + (if t.2.1.1 ≤ y ∧ y < t.2.1.1 + t.2.1.len then min t.2.2.len (x - t.2.2.1) else 0)

/-- The position of an element of `Y` among those that the instruction produces, in the linear order of `Y` (R315). -/
def Flight.convfPos (f : Flight) (i : Idx) : Nat :=
  i.1 + (f.op 0xA).e 0 * ((List.range (f.spatialEnd - startTile f.word)).foldl (fun n t =>
    n + pixelsBefore (f.spatialTile (startTile f.word + t)) i.2.2.2 i.2.1 i.2.2.1) 0)

/-- The positions of the elements of spatial tile `tile`. -/
def Flight.convfTilePos (f : Flight) (tile : Nat) : List Nat :=
  let t := f.spatialTile tile
  (List.range t.2.1.len).flatMap fun j => (List.range t.2.2.len).flatMap fun e =>
    (List.range ((f.op 0xA).e 0)).map fun o => f.convfPos (o, t.2.2.1 + e, t.2.1.1 + j, t.1)

/-- An output tile of a `CONVF`: the last layer stores into `Y` under `RND` (R299). The lanes of `x` stand where the instruction's
first draw found them. -/
def State.convfTile' (s : State) (x : ArrayState) (f : Flight) (tile : Nat) : TileRes :=
  let c := { s.drawCtx x f f.lastChain with k0 := 0 }
  let t := f.spatialTile tile
  let last := f.layers.length - 1
  let regs := f.regions f.layers.length t.2.1 t.2.2
  let inp := s.layerInput x c f t.1 regs last
  let out := f.op 0xA
  joinTile ((List.range t.2.1.len).flatMap fun j => (List.range t.2.2.len).map fun e =>
    let row := t.2.2.1 + e + out.e 1 * (t.2.1.1 + j + out.e 2 * t.1)
    tileRow row ((List.range (out.e 0)).map fun o =>
      let i : Idx := (o, t.2.2.1 + e, t.2.1.1 + j, t.1)
      let k := if f.looseLanes then none else some (f.convfPos i)
      let v := s.layerVal f last inp i
      let q := s.layerIn f last true i v.1
      let y := s.layerEpi x c f last true k i q.1
      let p := s.tailPat out i (c.storeRnd f f.lastChain k out i) y.1
      (out.store i p.1, orFlags v.2 (orFlags q.2 (orFlags y.2 (orFlags (nanFlag y.1) p.2))))))

/-- The first poisoned unit or bad scale that `LAYER` row `r` depends on. -/
def State.layerFault (s : State) (f : Flight) (r : TRow) : Option FaultInfo :=
  let l := r.part
  let t := f.spatialTile r.tile
  let w := f.op (layerSlot l 0)
  let x := f.op 8
  let y := f.extsOf (l + 1)
  let regs := f.regions f.layers.length t.2.1 t.2.2
  let reg := regs.getD 0 ((0, 0), (0, 0))
  let last := decide (l + 1 = f.layers.length)
  let out := f.op 0xA
  let places (o : Operand) : List (Operand × (Nat × Nat)) :=
    (List.range o.rows).flatMap fun n => (o.rowIdx n).map fun i => (o, o.placeAt i)
  let pix := (List.range r.mExt).flatMap fun j => (List.range r.nExt).map fun e => (r.n0 + e, r.m0 + j)
  firstFault [
    if l = 0 then s.poisonAt ((List.range reg.1.len).flatMap fun j => (List.range reg.2.len).flatMap fun e =>
        (List.range (x.e 0)).map fun c => (x, x.placeAt (c, reg.2.1 + e, reg.1.1 + j, t.1)))
    else none,
    s.poisonAt (places w),
    s.poisonAt (match f.op? (layerSlot l 2) with | some o => places o | none => []),
    match f.chain? (layerSlot l 4) with
    | some c => s.poisonAt (pix.flatMap fun p => (List.range y.1).flatMap fun o =>
        f.chainPlaces (layerSlot l 4) c (o, p.1, p.2, t.1) (p.1 + y.2.1 * (p.2 + y.2.2.1 * t.1)))
    | none => none,
    s.scaleFault w [] (List.range (w.e 0)),
    (f.ops.filter fun o => o.scaled && decide (0x10000 ≤ o.slot) && decide (o.slot / 0x10000 - 1 = layerSlot l 4)).findSome?
      fun o => s.scaleFault o (List.range o.rows) (List.range (o.e 0)),
    if last then s.scaleFault out (pix.map fun p => out.rowIndex p.1 p.2 t.1) (List.range (out.e 0)) else none]

end Sys2Proof.Machine
end

