-- ==== Sys2Proof/Machine/Loading.lean ====
section
/-! DEFINITION. What an array loads and saves: descriptors (03 R116 to R125, 06 R218, 05 R188, 08 R288), table banks (06 R239 to
R241) and the context image (03 R129, R130, 09 R325 to R327). -/
namespace Sys2Proof.Machine

/-! ## Checks of a descriptor (Table 03-8, orders 3 to 8) -/

/-- The lowest byte offset among conditions that hold. -/
def lowestOff (l : List (Nat × Bool)) : Option Nat := lowestBad l

/-- Fields of a 64-byte word that must be 0, as conditions: byte offset, lowest bit, width. -/
def zeroFields (w : Nat) (l : List (Nat × Nat × Nat)) : List (Nat × Bool) :=
  l.map fun e => (e.1, decide (fieldAt w e.1 e.2.1 e.2.2 ≠ 0))

/-- Reserved fields of an entry (Tables 03-4, 03-6, 06-1, 06-2; R218). -/
def descReserved (w : Nat) : List (Nat × Bool) :=
  match dType w with
  | 1 => zeroFields w [(1, 7, 1), (2, 4, 12), (4, 24, 8), (8, 48, 16), (0x20, 48, 16), (0x28, 48, 16), (0x30, 48, 16),
      (0x38, 23, 9), (0x3C, 12, 3), (0x3C, 16, 16)]
  | 2 => zeroFields w [(1, 4, 4), (2, 0, 16), (8, 24, 40), (0x10, 48, 16), (0x18, 24, 40), (0x20, 48, 16), (0x28, 0, 192)]
  | 3 =>
    let n := min 9 (cLen w)
    zeroFields w [(0, 4, 4), (1, 5, 3), (2, 3, 5)]
      ++ (List.range 4).map (fun j => (0x14 + 2 * j, decide (fieldAt w (0x14 + 2 * j) 12 3 ≠ 0)
            || (!slotUse w (0x14 + 2 * j) && decide (half16 w (0x14 + 2 * j) ≠ 0))))
      ++ (List.range 4).map (fun j => (3, !slotUse w (0x14 + 2 * j) && decide (cVkind w j ≠ 0)))
      ++ (List.range 9).map fun i =>
          (0x1C + 4 * i, if i < n then decide (fieldAt w (0x1C + 4 * i) 6 2 ≠ 0 ∨ fieldAt w (0x1C + 4 * i) 16 16 ≠ 0)
            else decide (fieldAt w (0x1C + 4 * i) 0 32 ≠ 0))
  | _ => []

/-- An argument's kind: none, constant, value or statistics (Table 06-4). -/
def argIsValue (w c : Nat) : Bool :=
  decide (1 ≤ c ∧ c ≤ 10) && !(decide (5 ≤ c ∧ c ≤ 8) && cVkind w (c - 5) == 2)
def argIsStat (w c : Nat) : Bool := c == 11 || c == 12 || (decide (5 ≤ c ∧ c ≤ 8) && cVkind w (c - 5) == 2)

/-- An operation word fails R218. -/
def opBad (w i : Nat) : Bool :=
  let a := cArg w i
  let b := cArg2 w i
  match cOp w i with
  | 0x01 | 0x02 | 0x04 | 0x05 => !argIsValue w a || decide (b ≠ 0)
  | 0x03 => !argIsValue w a || !argIsValue w b
  | 0x07 => !decide (1 ≤ a ∧ a ≤ 4) || !argIsStat w b
  | 0x0D => !decide (1 ≤ a ∧ a ≤ 10) || decide (b ≠ 0)
  | 0x06 | 0x08 | 0x09 | 0x0A | 0x0B | 0x0C | 0x0E | 0x0F => decide (a ≠ 0 ∨ b ≠ 0)
  | _ => true

/-- Fields that fail with `DESC_FORMAT` (R118, R119, R188, R288, Table 03-6, R218). -/
def descFormat (w : Nat) : List (Nat × Bool) :=
  match dType w with
  | 1 =>
    let fmt := tFmtCode w
    let lay := tLayout w
    let rank := tRank w
    let dims := List.range 4
    [(0, decide (4 ≤ lay)), (1, decide (11 ≤ fmt)), (1, decide (rank = 0 ∨ 4 < rank)),
     (1, decide (lay = 3 ∧ fmt ≠ 0) || decide (lay ≠ 3 ∧ fmt = 0)),
     (1, decide (lay = 2 ∧ rank ≠ 2)), (1, decide (lay = 1) && decide (rank ≠ 4 ∨ fmt = 0 ∨ fmt = 3 ∨ fmt = 10)),
     (2, decide (fmt = 3) && tDyn w 0), (0x10, decide (fmt = 3 ∧ tDim w 0 % 2 = 1))]
      ++ dims.map (fun i => (0x10 + 4 * i, decide (tDim w i = 0) || (decide (rank ≤ i) && decide (tDim w i ≠ 1))))
      ++ dims.map fun i => (0x18 + 8 * i, decide (1 ≤ i ∧ rank ≤ i) && decide (tStride w i ≠ 0))
  | 2 =>
    let f := fieldAt w 1 0 4
    [(0, decide (4 ≤ sGran w)), (1, !(f == 6 || f == 7 || f == 8)), (4, badScale (sTensor w)),
     (8, !sHasRow w && decide (sRowHandle w ≠ 0)), (0x10, !sHasRow w && decide (sRowOffset w ≠ 0)),
     (0x18, !sHasCh w && decide (sChHandle w ≠ 0)), (0x20, !sHasCh w && decide (sChOffset w ≠ 0))]
  | 3 =>
    [(1, decide (9 < cLen w)), (2, decide (cQrnd w = 7))]
      ++ (List.range (min 9 (cLen w))).map fun i => (0x1C + 4 * i, opBad w i)
  | _ => []

/-- Fields that fail with `DESC_ALIGN` (R119, R188, R288). -/
def descAlign (w : Nat) : List (Nat × Bool) :=
  if dType w ≠ 1 then []
  else
    let fmt := tFmt w
    let size := if fmt = .int4 ∨ fmt = .bit then 1 else fmt.bytes
    let unit := if tLayout w = 1 then 32 * size else size
    let strides := [(0x20, tStride w 1), (0x28, tStride w 2), (0x30, tStride w 3)]
    [(8, decide (tOffset w % unit ≠ 0)), (8, decide (tLayout w = 2 ∧ tOffset w % 64 ≠ 0)),
     (0x20, decide (tLayout w = 2) && decide (tStride w 1 % 64 ≠ 0 ∨ tStride w 1 < ceilDiv ((tDim w 1 + 127) * fmt.bits) 8)),
     (0x38, decide (tDynOff w % 16 ≠ 0))]
      ++ strides.map fun e => (e.1, decide (e.2 % unit ≠ 0))

/-- The first fault of a descriptor `w` that would fill entry `i`. A handle's fault names the handle; no access gives it DETAIL1 or
DETAIL2: DESIGN CHOICE (log 129). -/
def State.descFault (s : State) (i w : Nat) : Option FaultInfo :=
  let mk (code : Nat) (l : List (Nat × Bool)) : Option FaultInfo :=
    (lowestOff l).map fun o => { code := code, desc := some i, d0 := i, d1 := o }
  let handle (p : Nat → Bool) (code : Nat) : Option FaultInfo :=
    ((descHandles w).find? p).map fun h => { code := code, desc := some i, d0 := h }
  firstFault [
    mk cDescType [(0, decide (4 ≤ dType w) || (decide (dType w = 0) && decide (w ≠ 0)))],
    mk cDescReserved (descReserved w),
    mk cDescFormat (descFormat w),
    mk cDescAlign (descAlign w),
    handle (fun h => s.handleFault h = some cObjInvalid) cObjInvalid,
    handle (fun h => s.handleFault h = some cObjStale) cObjStale,
    handle (fun h => decide ((s.obj (handleIndex h)).st = .evicting)) cObjEvicting]

/-! ## Replacing entries (R123) -/

/-- An instruction in flight read entry `i` of its array's table. -/
def Flight.reads (f : Flight) (i : Nat) : Bool :=
  f.ops.any fun o => decide (o.index = i) || (o.scaled && decide (tScaleIdx o.word = i))

/-- Entry `i` of array `a` becomes `w`: its pins are taken, and those of the replaced entry wait for its readers. -/
def State.setDesc (s : State) (a i w : Nat) : State :=
  let old := (s.desc a i).word
  let readers := ((s.array a).flights.filter fun f => f.reads i).map (·.place)
  let s1 := s.takePins (descObjects w)
  let s2 := s1.modArray a fun x => { x with
    descs := if w = 0 then mapErase i x.descs else mapPut i { word := w, mark := none } x.descs,
    oldPins := x.oldPins ++ (descObjects old).map fun o => { object := o, readers := readers } }
  s2.settlePins a

/-- Entries from `i` on are replaced in turn. -/
def State.setDescs (s : State) (a : Nat) : Nat → List Nat → State
  | _, [] => s
  | i, w :: ws => (s.setDesc a i w).setDescs a (i + 1) ws

/-- The first fault of the descriptors that fill entries from `i` on. -/
def State.descsFault (s : State) : Nat → List Nat → Option FaultInfo
  | _, [] => none
  | i, w :: ws => match s.descFault i w with
    | some f => some f
    | none => s.descsFault (i + 1) ws

/-- 64-byte words at an address. -/
def State.words64 (s : State) (a n : Nat) : List Nat := tabulate n fun i => s.rdNat (a + 64 * i) 64

/-- `DLOAD` (R122): its first fault, or the state with its entries written. -/
def State.dload (s : State) (a w : Nat) : Except FaultInfo State :=
  let first := fieldAt w 2 0 12
  let count := fieldAt w 4 0 13
  let h := fieldAt w 8 0 24
  let off := fieldAt w 0x10 0 48
  if count = 0 ∨ 4096 < first + count then .error (fieldFault cInsnOperand 4 0)
  else if off % 64 ≠ 0 then .error (fieldFault cInsnOperand 0x10 0)
  else match s.checkAccess h off (64 * count) false with
    | .error e => .error { e with field := 8 }
    | .ok addr => match s.poisonIn addr (64 * count) with
      | some p => .error { code := cMemPoison, field := 8, d1 := p }
      | none =>
        let ws := s.words64 addr count
        match s.descsFault first ws with
        | some e => .error e
        | none => .ok (s.setDescs a first ws)

/-! ## Tables (R239 to R241) -/

/-- Entries of a table. -/
def tableLen (t : Nat) : Nat := if t = 0 then 4096 else 2048

/-- The instruction uses table `t`: 0 the normal table, 1 and 2 the user tables. -/
def Flight.usesTable (f : Flight) (t : Nat) : Bool :=
  !f.noop && ((f.code == opRng && t == 0 && fieldAt f.word 1 0 2 == 2)
    || (f.code == opSfn && t != 0 && fieldAt f.word 1 1 3 == 5 + t)
    || (t != 0 && f.chains.any fun c => (List.range (min 9 (cLen c.2))).any fun i => cOp c.2 i == 0x0D + t))

/-- A bank's whole content: its entries as they read. -/
def ArrayState.bankAll (x : ArrayState) (b : Nat) : List Nat := tabulate (tableLen (b / 2)) fun i => x.bankEntry b i

/-- Table `t`'s banks exchange roles. -/
def ArrayState.swapBanks (x : ArrayState) (t : Nat) : ArrayState :=
  let old := x.bankAll (2 * t)
  { x with banks := mapPut (2 * t + 1) old (mapPut (2 * t) (x.bankAll (2 * t + 1)) x.banks) }

/-! ## Context image (Table 03-9, R241, Table 09-4) -/

/-- Length of an image. -/
def ctxBytes (withLs : Bool) : Nat := 0x53000 + (if withLs then lsBytes else 0)

/-- Fields of a structure packed at their offsets: byte offset, lowest bit, width, value. -/
def packed (l : List (Nat × Nat × Nat × Nat)) : Nat :=
  l.foldl (fun n e => n + e.2.2.2 % 2 ^ e.2.2.1 * 2 ^ (8 * e.1 + e.2.1)) 0

/-- The order of the banks in the table section and their offsets. -/
def bankOffsets : List (Nat × Nat) := [(0, 0), (2, 0x4000), (4, 0x6000), (1, 0x8000), (3, 0xC000), (5, 0xE000)]

/-- The image of array `a` as bytes with their offsets (R129, R325). -/
def State.ctxImage (s : State) (a : Nat) (withLs : Bool) : List (Nat × Byte) :=
  let x := s.array a
  let lanes := s.lanesActive
  let epoch := match (s.agent a).running with
    | some e => e.epoch.toNat
    | none => 0
  let header := packed [(0, 0, 16, 1), (2, 0, 1, withLs.toNat), (4, 0, 16, lanes), (8, 0, 8, a), (0xC, 0, 32, epoch),
    (0x10, 0, 64, s.sundial.toNat)]
  let lane := packed [(0, 0, 8, 1), (0, 8, 1, x.lkLive.toNat), (0, 9, 1, x.tkSet.toNat), (0, 16, 4, x.lkPoly),
    (0, 20, 4, x.keyPoly), (8, 0, 64, x.keyBase.toNat), (0x10, 0, 16, x.tileH), (0x10, 16, 16, x.tileW)]
  placed 0 (leBytes 4096 header)
    ++ ((List.range 4096).flatMap fun i => placed (0x1000 + 64 * i) (leBytes 64 (s.desc a i).word))
    ++ (bankOffsets.flatMap fun b => placed (0x41000 + b.2) ((x.bankAll b.1).flatMap fun e => leBytes 4 e))
    ++ placed 0x51000 (leBytes 0x100 lane)
    ++ ((List.range 256).flatMap fun l => placed (0x51100 + 8 * l) (leBytes 8 (if l < lanes then x.lane l else 0)))
    ++ placed 0x51900 (leBytes 0x1700 0)
    ++ (if withLs then placed 0x53000 (s.rdBytes (lsAddr a 0) lsBytes) else [])

/-- The image's units that carry the marks of the local store's poisoned units, for an image at address `addr` (R73). -/
def State.ctxPoison (s : State) (a addr : Nat) (withLs : Bool) : List Nat :=
  let u0 := lsAddr a 0 / 64
  if withLs then
    (s.mem.poison.filter fun u => decide (u0 ≤ u ∧ u < u0 + lsBytes / 64)).map fun u => (addr + 0x53000) / 64 + (u - u0)
  else []

/-- The fault of the lane-state section at address `b` of an image saved under `lanes` lanes (R326). -/
def State.laneFault (s : State) (b lanes : Nat) : Option FaultInfo :=
  let n (off k : Nat) : Nat := s.rdNat (b + off) k
  let live := bit (n 0 8) 8
  let states := tabulate 256 fun l => n (0x100 + 8 * l) 8
  let size := n 0x10 2 * n 0x12 2
  let bad := decide (n 0 1 ≠ 1 ∨ bits (n 0 8) 10 6 ≠ 0 ∨ bits (n 0 8) 24 40 ≠ 0 ∨ n 0x14 4 ≠ 0 ∨ n 0x18 0xE8 ≠ 0
      ∨ n 0x900 0x1700 ≠ 0 ∨ size = 0 ∨ 65536 < size)
    || (if live then (states.take lanes).any fun x => decide (x = 0) else states.any fun x => decide (x ≠ 0))
  if bad then some { code := cCtxFormat }
  else if live ∧ lanes ≠ s.lanesActive then some { code := cRngLaneMismatch, d0 := lanes, d1 := s.lanesActive }
  else none

/-- The first fault of an image at address `b` (R130). -/
def State.ctxFault (s : State) (b : Nat) (withLs : Bool) : Option FaultInfo :=
  let n (off k : Nat) : Nat := s.rdNat (b + off) k
  let lanes := n 4 2
  firstFault [
    if n 0 2 ≠ 1 ∨ n 2 2 ≠ withLs.toNat ∨ ¬(lanes = 128 ∨ lanes = 256) ∨ n 6 2 ≠ 0 ∨ n 9 3 ≠ 0 ∨ n 0x18 0xFE8 ≠ 0 then
      some { code := cCtxFormat }
    else none,
    s.descsFault 0 (s.words64 (b + 0x1000) 4096),
    s.laneFault (b + 0x51000) lanes]

/-- An image at address `b` takes effect on array `a` (R130, R325). -/
def State.ctxApply (s : State) (a b : Nat) (withLs : Bool) : State :=
  let n (off k : Nat) : Nat := s.rdNat (b + off) k
  let bank (e : Nat × Nat) : Nat × List Nat := (e.1, tabulate (tableLen (e.1 / 2)) fun i => n (0x41000 + e.2 + 4 * i) 4)
  let v := n 0x51000 8
  let live := bit v 8
  let ls := if withLs then placed (lsAddr a 0) (s.rdBytes (b + 0x53000) lsBytes) else []
  let lanes := if live then tabulate (n 4 2) fun l => (l, BitVec.ofNat 64 (n (0x51100 + 8 * l) 8)) else []
  let banks := bankOffsets.foldl (fun m e => mapPut (bank e).1 (bank e).2 m) []
  let s1 := s.setDescs a 0 (s.words64 (b + 0x1000) 4096)
  (s1.modArray a fun x => { x with
    banks := banks, lanes := lanes, lkLive := live, tkSet := bit v 9, lkPoly := bits v 16 4, keyPoly := bits v 20 4,
    keyBase := BitVec.ofNat 64 (n 0x51008 8), tileH := n 0x51010 2, tileW := n 0x51012 2 }).wr ls

end Sys2Proof.Machine
end

