-- ==== Sys2Proof/Machine/HostCore.lean ====
section
/-! DEFINITION. The host-class cores (10 R330 to R341): launch, physical accesses and caches, cache operations, the core
port, exit and exceptions. A core's own instructions are RISC-V's; a command names the access or event one of them
causes (log 10). -/
namespace Sys2Proof.Machine

/-- The outcome every command of the model has: a next state (log 17). -/
abbrev Outcome := Host.Outcome State Fault Refusal

/-- The core's program runs, and no wait of its port has lapsed, which stops it (R45, R339). -/
def State.coreRuns (s : State) (k : Nat) : Bool :=
  s.agentsRun && decide (k < 16) && decide ((s.agent (192 + k)).prog = .running)
    && (s.agent (192 + k)).waits.all fun w => !w.lapsed s.sundial

/-! ## Registers -/

def HostCore.getX (c : HostCore) (i : Nat) : Word64 := if i = 0 then 0 else (mapFind i c.x).getD 0

/-- Integer register 0 discards writes. -/
def HostCore.setX (c : HostCore) (i : Nat) (w : Word64) : HostCore := if i = 0 then c else { c with x := mapPut i w c.x }

/-- An access of `n` bytes writes its register: integers extended, floating-point values NaN-boxed to 64 bits. -/
def HostCore.setReg (c : HostCore) (rd : CoreReg) (n : Nat) (signed : Bool) (w : Nat) : HostCore :=
  match rd with
  | .none => c
  | .x i =>
    let v := w % 2 ^ (8 * n)
    c.setX i (if signed && decide (2 ^ (8 * n - 1) ≤ v) then BitVec.ofNat 64 (v + 2 ^ 64 - 2 ^ (8 * n))
      else BitVec.ofNat 64 v)
  | .f i => { c with f := mapPut i (BitVec.ofNat 64 (w % 2 ^ (8 * n) + 2 ^ 64 - 2 ^ (8 * n))) c.f }
  | .v i => { c with v := mapPut i (BitVec.ofNat 512 w) c.v }

/-! ## Launch (R337, R340, Table 10-4) -/

/-- The launch block's first failing field, as its byte offset. -/
def launchFault (w : Nat) : Option Nat :=
  let entry := fieldAt w 0 0 48
  let top := fieldAt w 8 0 48
  if fieldAt w 0 48 16 ≠ 0 ∨ entry % 4 ≠ 0 ∨ regionOf entry ≠ .stack then some 0
  else if fieldAt w 8 48 16 ≠ 0 ∨ top % 16 ≠ 0 ∨ regionOf top ≠ .stack then some 8
  else if bits w 192 320 ≠ 0 then some 24
  else none

/-- A core's program starts: L1 and L2 hold no line, the launch block is read, and every register is set (R337, R340). -/
def State.launchCore (s : State) (k : Nat) (e : EpochEntry) : State :=
  let s1 := s.modCore k fun c =>
    { c with lines := [], l1i := [], l1d := [], reservation := none, waitState := 0, interrupt := false }
  match s1.poisonIn e.program 64 with
  | some a => s1.faultCore k { code := cMemPoison, d1 := a }
  | none => match s1.stoppedIn e.program 64 with
    | some _ => s1.faultCore k { code := cStackOvertemp }
    | none =>
      let w := s1.rdNat e.program 64
      match launchFault w with
      | some off => s1.faultCore k { code := cHostLaunch, d1 := e.program, d2 := off }
      | none => s1.modCore k fun c => { c with
          pc := BitVec.ofNat 64 (fieldAt w 0 0 48),
          x := [(2, BitVec.ofNat 64 (fieldAt w 8 0 48)), (10, BitVec.ofNat 64 (fieldAt w 16 0 64)),
                (11, BitVec.ofNat 64 k), (12, BitVec.ofNat 64 e.epoch.toNat)],
          f := [], v := [], satp := 0, user := false }

/-! ## Caches (R331, R335, R336) -/

/-- The line of an address. -/
def lineOf (a : Nat) : Nat := a / 64

/-- A line as memory holds it. -/
def State.memLine (s : State) (l : Nat) : Line :=
  { data := s.rdBytes (64 * l) 64, poisoned := s.unitPoisoned l }

/-- A dirty copy of a line in some other core's caches. -/
def State.dirtyElsewhere (s : State) (k l : Nat) : Option (Nat × Line) :=
  (s.cluster.cores.filterMap fun e => if e.1 = k then none else match mapFind l e.2.lines with
    | some x => if x.dirty then some (e.1, x) else none
    | none => none).head?

/-- A line as the coherent caches give it to core `k`: its own copy, another core's dirty copy, the L3's, or memory's. -/
def State.seenLine (s : State) (k l : Nat) : Line :=
  match mapFind l (s.core k).lines with
  | some x => x
  | none => match s.dirtyElsewhere k l with
    | some (_, x) => x
    | none => match mapFind l s.cluster.l3 with
      | some x => x
      | none => s.memLine l

/-! ### Residency (Table 10-1) -/

/-- Lines of 64 bytes in an L1 cache, an L2 cache and the L3. -/
def l1Lines : Nat := 1024
def l2Lines : Nat := 32768
def l3Lines : Nat := 524288

/-- A line in an L1 cache becomes its latest; in a full one the line that leaves is free (log 133). -/
def l1Touch (free l : Nat) (c : List Nat) : List Nat :=
  let c1 := c.filter fun x => decide (x ≠ l)
  l :: (if l1Lines ≤ c1.length then c1.eraseIdx (free % c1.length) else c1)

/-- An access of core `k` to line `l` of its L2 goes through its L1 instruction or data cache. -/
def State.throughL1 (s : State) (k l : Nat) (code : Bool) : State :=
  let free := Config.freeNat s.free [0x331, k, l]
  s.modCore k fun c => if code then { c with l1i := l1Touch free l c.l1i } else { c with l1d := l1Touch free l c.l1d }

/-- A line leaves a core's L2, and with it its L1 caches, which the L2 includes. -/
def HostCore.dropLine (c : HostCore) (l : Nat) : HostCore :=
  { c with lines := mapErase l c.lines, l1i := c.l1i.filter (fun x => decide (x ≠ l)), l1d := c.l1d.filter fun x => decide (x ≠ l) }

/-- A line's block has become read-only or unowned since it was taken for writing (R335). -/
def State.lineLost (s : State) (l : Nat) (x : Line) : Bool :=
  match s.mem.extentAt (64 * l / 65536) with
  | some e => e.ro
  | none => x.owned

/-- A dirty line is written back; one whose block became read-only or unowned is discarded and the core that wrote it faults (R335). -/
def State.writeBack (s : State) (l : Nat) (x : Line) : State :=
  let a := 64 * l
  if s.lineLost l x then s.faultCore x.owner { code := cHostWritebackLost, d1 := a }
  else
    let s1 := s.wr (placed a x.data)
    if x.poisoned then s1.mark l else s1

/-- A line enters the L3. In a full one another line leaves first: a clean one while there is one, which one is free, else a dirty one,
which is written back; when its stack has stopped, the core that wrote it faults and the line is lost (log 133). -/
def State.intoL3 (s : State) (l : Nat) (x : Line) : State :=
  let others : List (Nat × Line) := s.cluster.l3.filter fun e => decide (e.1 ≠ l)
  let clean := others.filter fun e => !e.2.dirty
  let pool := if clean = [] then others else clean
  let e := pool.getD (Config.freeNat s.free [0x333, l] % pool.length) (l, x)
  let s1 := if others.length < l3Lines then s
    else
      let s2 : State := if !e.2.dirty then s
        else if (s.stoppedIn (64 * e.1) 64).isSome then s.faultCore e.2.owner { code := cStackOvertemp } else s.writeBack e.1 e.2
      { s2 with cluster := { s2.cluster with l3 := mapErase e.1 s2.cluster.l3 } }
  { s1 with cluster := { s1.cluster with l3 := mapPut l x s1.cluster.l3 } }

/-- Line `l` may enter core `k`'s L2: from a full one another line leaves, which one is free; a dirty one moves to the L3. -/
def State.roomL2 (s : State) (k l : Nat) : State :=
  let others : List (Nat × Line) := (s.core k).lines.filter fun e => decide (e.1 ≠ l)
  if others.length < l2Lines then s
  else
    let e := others.getD (Config.freeNat s.free [0x332, k, l] % others.length) (l, {})
    let s1 := s.modCore k fun c => c.dropLine e.1
    if e.2.dirty then s1.intoL3 e.1 e.2 else s1

/-- A line for reading enters the core's caches; another core's dirty copy moves to the L3, still to be written back. -/
def State.fillRead (s : State) (k l : Nat) (code : Bool) : State :=
  match mapFind l (s.core k).lines with
  | some _ => s.throughL1 k l code
  | none =>
    let x := s.seenLine k l
    let s1 := match s.dirtyElsewhere k l with
      | some (j, y) => (s.modCore j fun c => { c with lines := mapPut l { y with dirty := false } c.lines }).intoL3 l y
      | none => if (mapFind l s.cluster.l3).isSome then s else s.intoL3 l x
    ((s1.roomL2 k l).modCore k fun c => { c with lines := mapPut l { x with dirty := false } c.lines }).throughL1 k l code

/-- A line is taken for writing: every other copy goes, and reservations on it end. -/
def State.takeWrite (s : State) (k l : Nat) (x : Line) : State :=
  let s1 := s.roomL2 k l
  let others : List (Nat × HostCore) := s1.cluster.cores.map fun e => if e.1 = k then e else
    (e.1, { e.2.dropLine l with reservation := if e.2.reservation = some l then none else e.2.reservation })
  let s2 : State := { s1 with cluster := {
    l3 := mapErase l s1.cluster.l3, cores := mapPut k { s1.core k with lines := mapPut l x (s1.core k).lines } others } }
  s2.throughL1 k l false

/-- Bytes of a line replaced by those given with their addresses. -/
def patchLine (l : Nat) (data : List Byte) (w : List (Nat × Byte)) : List Byte :=
  tabulate 64 fun i => ((w.find? fun e => decide (e.1 = 64 * l + i)).map (·.2)).getD (data.getD i 0)

/-- The bytes of line `l` that a store covers, as a mask. -/
def storeMask (l : Nat) (w : List (Nat × Byte)) : Word64 :=
  w.foldl (fun m e => if e.1 / 64 = l then m ||| ((1 : Word64) <<< (e.1 % 64)) else m) 0

/-- A store into cached stack memory, line by line; the poison of a line goes once stores have overwritten all of it (R336). -/
def State.cachedStore (s : State) (k : Nat) (w : List (Nat × Byte)) : State :=
  ((w.map fun e => lineOf e.1).eraseDups).foldl (fun s l =>
    let x := s.seenLine k l
    let owned := if x.dirty then x.owned else (s.mem.extentAt (64 * l / 65536)).isSome
    let wiped := x.wiped ||| storeMask l w
    let poisoned := x.poisoned && decide (wiped ≠ BitVec.allOnes 64)
    let y : Line :=
      { data := patchLine l x.data w, dirty := true, poisoned := poisoned, owner := k, owned := owned,
        wiped := if poisoned then wiped else 0 }
    s.takeWrite k l y) s

/-- The dirty copy of a line in core `k`'s own caches, or of an L3 line that it last wrote (R340, R341). -/
def State.dirtyOf (s : State) (k l : Nat) : Option Line :=
  let l3 := match mapFind l s.cluster.l3 with
    | some x => if x.dirty && decide (x.owner = k) then some x else none
    | none => none
  match mapFind l (s.core k).lines with
  | some x => if x.dirty then some x else l3
  | none => l3

/-- The dirty copy of a line in another core's caches or in the L3. -/
def State.sharedDirty (s : State) (k l : Nat) : Option Line :=
  match s.dirtyElsewhere k l with
  | some (_, x) => some x
  | none => match mapFind l s.cluster.l3 with
    | some x => if x.dirty then some x else none
    | none => none

/-- The dirty copy of a line in the coherent caches: core `k`'s, another core's or the L3's (R331, R338). -/
def State.dirtyAnywhere (s : State) (k l : Nat) : Option Line :=
  match mapFind l (s.core k).lines with
  | some x => if x.dirty then some x else s.sharedDirty k l
  | none => s.sharedDirty k l

/-- A line leaves every cache of core `k` and the L3 (R338); the clean copies of other cores go with it, so that the caches stay
coherent (R331; log 133). -/
def State.dropCopies (s : State) (k l : Nat) : State :=
  let goes (e : Nat × HostCore) : Bool := decide (e.1 = k) || !((mapFind l e.2.lines).map (·.dirty)).getD false
  { s with cluster := {
      cores := s.cluster.cores.map fun e => if goes e then (e.1, e.2.dropLine l) else e,
      l3 := mapErase l s.cluster.l3 } }

/-- Every copy of a line in the coherent caches is clean, or goes when `drop` holds. -/
def State.settleLine (s : State) (l : Nat) (drop : Bool) : State :=
  let clean (m : List (Nat × Line)) : List (Nat × Line) := match mapFind l m with
    | some x => mapPut l { x with dirty := false } m
    | none => m
  { s with cluster := {
      cores := s.cluster.cores.map fun e => (e.1, if drop then e.2.dropLine l else { e.2 with lines := clean e.2.lines }),
      l3 := if drop then mapErase l s.cluster.l3 else clean s.cluster.l3 } }

/-- The dirty copy `x` of a line, if there is one, is written back for core `k`, and the line's copies settle. -/
def State.washLine (s : State) (k l : Nat) (x : Option Line) (drop : Bool) : State :=
  match x with
  | none => s.settleLine l drop
  | some x =>
    match s.stoppedIn (64 * l) 64 with
    | some _ => s.faultCore k { code := cStackOvertemp }
    | none => (s.writeBack l x).settleLine l (drop || s.lineLost l x)

/-- A dirty copy of a line in the coherent caches is written back, and the line's copies settle (R338). -/
def State.cleanLine (s : State) (k l : Nat) (drop : Bool) : State := s.washLine k l (s.dirtyAnywhere k l) drop

/-- Every dirty line of the core's L1 and L2, and every dirty L3 line it last wrote (R340, R341). -/
def State.dirtyLines (s : State) (k : Nat) : List Nat :=
  ((s.core k).lines.filterMap fun e => if e.2.dirty then some e.1 else none) ++
  (s.cluster.l3.filterMap fun e => if e.2.dirty && decide (e.2.owner = k) then some e.1 else none)

def State.cleanAll (s : State) (k : Nat) : State :=
  (s.dirtyLines k).foldl (fun s l => s.washLine k l (s.dirtyOf k l) false) s

/-! ## Core port (R339, Table 10-3) -/

def portBase (k : Nat) : Nat := 0xFF0004000000 + 0x1000 * k

/-- A write to `CORE_GSIG` at a place of the core's program: a signal with the semantics of R37 to R50. -/
def State.coreGsig (s : State) (k place v : Nat) : State :=
  let gate := bits v 0 17
  let inc := bits v 32 16
  let node := bits v 48 14
  let remote := bit v 18
  let bad : FaultInfo := { code := cGateOperand, d0 := gate, d1 := node, d2 := inc }
  if bits v 19 13 ≠ 0 ∨ bits v 62 2 ≠ 0 ∨ inc = 0 ∨ (remote = false ∧ node ≠ 0) then s.faultCore k bad
  else s.issueSignal (192 + k)
    { gate := gate, inc := inc, release := bit v 17, node := if remote then some node else none, place := place }

/-- A write to `CORE_WAIT`. -/
def State.coreWait (s : State) (k : Nat) (v : Nat) : State :=
  if bits v 17 15 ≠ 0 ∨ bits v 56 8 ≠ 0 then
    s.faultCore k { code := cGateOperand, d0 := bits v 0 17 }
  else s.modCore k fun c => { c with waitGate := bits v 0 17, waitTimeout := bits v 32 24 }

/-- A write to `CORE_WAIT_TARGET` arms the wait, or faults while one is pending. -/
def State.coreWaitTarget (s : State) (k place v : Nat) : State :=
  let c := s.core k
  if bits v 32 32 ≠ 0 then s.faultCore k { code := cGateOperand, d0 := c.waitGate }
  else if c.waitState = 1 then s.faultCore k { code := cHostPortBusy, d1 := 0x10 }
  else if reached (s.gate c.waitGate).value (BitVec.ofNat 32 v) then
    s.modCore k fun c => { c with waitState := 2, interrupt := true }
  else (s.modCore k fun c => { c with waitState := 1 }).issueWait (192 + k) c.waitGate (BitVec.ofNat 32 v) c.waitTimeout
    false place c.pc.toNat

/-- A write to `CORE_FENCE` starts a fence. -/
def State.coreFence (s : State) (k place v : Nat) : State :=
  if bits v 2 62 ≠ 0 then s.faultCore k { code := cGateOperand }
  else s.modAgent (192 + k) fun a =>
    { a with fences := a.fences ++ [{ scope := bits v 0 2, place := place, addr := (s.core k).pc.toNat }] }

/-- The effect of a store to the core's own port. RO fields and unused offsets ignore it; reserved bits are 0 (Table 10-3). -/
def State.portStore (s : State) (k place off v : Nat) : State :=
  match off with
  | 0x18 | 0x28 => if bits v 2 62 ≠ 0 then s.faultCore k { code := cGateOperand } else s
  | 0x00 => s.coreGsig k place v
  | 0x08 => s.coreWait k v
  | 0x10 => s.coreWaitTarget k place v
  | 0x20 => s.coreFence k place v
  | _ => s

/-- A store of core `k` takes the next place in its program. -/
def State.nextPlace (s : State) (k : Nat) : State := s.modCore k fun c => { c with place := c.place + 1 }

/-- A store waits behind the earlier ones of the core. -/
def State.holdStore (s : State) (k : Nat) (v : CoreStore) : State :=
  (s.nextPlace k).modCore k fun c => { c with stores := c.stores ++ [((s.core k).place, v)] }

/-- A store of a core to its own port takes effect once every earlier store of the core has performed, as if a RISC-V fence stood
between them (R339; log 155). -/
def State.corePort (s : State) (k off v : Nat) : State :=
  if (s.core k).stores = [] then (s.nextPlace k).portStore k (s.core k).place off v else s.holdStore k (.port off v)

/-- A store of the core to its own port has not taken effect: a read of the port waits for it. -/
def HostCore.portHeld (c : HostCore) : Bool :=
  c.stores.any fun e => match e.2 with
    | .port _ _ => true
    | .session _ => false

/-- A read of `CORE_WAIT_STATUS`: it ends the interrupt, and one that returns 2 sets the status to 0. -/
def State.coreStatusRead (s : State) (k : Nat) (rd : CoreReg) : State :=
  let st := (s.core k).waitState
  s.modCore k fun c => { (c.setReg rd 8 false st) with
    waitState := if st = 2 then 0 else st, interrupt := false }

/-- A read of `CORE_FENCE_DONE`, once no fence of the core runs. -/
def State.coreFenceRead (s : State) (k : Nat) (rd : CoreReg) : State :=
  s.modCore k fun c => c.setReg rd 8 false c.fenceDone

/-- A load from the core's own port; none while it stalls: behind a store to the port, or a read of `CORE_FENCE_DONE` behind a fence. -/
def State.portLoad (s : State) (k off : Nat) (rd : CoreReg) : Option State :=
  let c := s.core k
  if c.portHeld then none else match off with
  | 0x08 => some (s.modCore k fun c => c.setReg rd 8 false (c.waitGate + c.waitTimeout * 2 ^ 32))
  | 0x18 => some (s.coreStatusRead k rd)
  | 0x28 => if (s.agent (192 + k)).fences = [] then some (s.coreFenceRead k rd) else none
  | _ => some (s.modCore k fun _ => c.setReg rd 8 false 0)

/-! ## Accesses (R333 to R336) -/

/-- The causes of a refused access, by RISC-V's numbers. -/
def accessCause : CoreOp → Nat
  | .load .. | .lr .. => 5
  | .fetch => 1
  | _ => 7

/-- The bytes an access covers. -/
def opBytes : CoreOp → Nat
  | .load n _ _ | .store n _ | .amo _ n _ _ | .lr n _ | .sc n _ _ => n
  | .fetch => 4
  | .zero => 64
  | .csr .. | .sret => 0

/-- A value read as a signed number of `n` bytes. -/
def asInt (n w : Nat) : Int := if 2 ^ (8 * n - 1) ≤ w % 2 ^ (8 * n) then (w % 2 ^ (8 * n) : Int) - 2 ^ (8 * n)
  else (w % 2 ^ (8 * n) : Int)

/-- The result of an atomic operation. -/
def amoResult (op : AmoOp) (n old v : Nat) : Nat :=
  match op with
  | .swap => v % 2 ^ (8 * n)
  | .add => (old + v) % 2 ^ (8 * n)
  | .and => Nat.land old v
  | .or => Nat.lor old v
  | .xor => Nat.xor old v
  | .min => if asInt n old ≤ asInt n v then old else v
  | .max => if asInt n old ≤ asInt n v then v else old
  | .minu => min old v
  | .maxu => max old v

/-- The coherent value of cached bytes. -/
def State.cachedNat (s : State) (k a n : Nat) : Nat :=
  leNat (tabulate n fun i => (s.seenLine k (lineOf (a + i))).data.getD ((a + i) % 64) 0)

/-- The first poisoned line an access of the caches reads. -/
def State.poisonSeen (s : State) (k a n : Nat) : Option Nat :=
  ((unitsOf a n).find? fun l => (s.seenLine k l).poisoned).map fun l => max a (64 * l)

def State.fillAll (s : State) (k a n : Nat) (code : Bool) : State := (unitsOf a n).foldl (fun s l => s.fillRead k l code) s

/-- The first byte of an access in a line that it takes for writing, in a read-only block; a line that the core holds dirty was
checked when it was taken (R335). -/
def State.takeRefused (s : State) (k a n : Nat) : Option Nat :=
  (unitsOf a n).findSome? fun l =>
    if (match mapFind l (s.core k).lines with | some x => x.dirty | none => false) then none
    else (s.roIn (64 * l) 64).map fun _ => max a (64 * l)

/-- An access that Table 10-2 does not allow; the trap value is the address that the program gave. -/
def State.accessTrap (s : State) (k : Nat) (op : CoreOp) (va : Nat) : State :=
  s.faultCore k { code := cHostTrap, d0 := accessCause op, d1 := va }

/-- An access to cached memory that Table 10-2 allows. -/
def State.cachedAccess (s : State) (k : Nat) (op : CoreOp) (a : Nat) : State :=
  let n := opBytes op
  let reads := match op with
    | .store .. | .zero | .sc .. => none
    | _ => s.poisonSeen k a n
  let writes := match op with
    | .load .. | .fetch | .lr .. | .csr .. | .sret => false
    | .sc .. => decide ((s.core k).reservation = some (lineOf a))
    | _ => true
  match s.stoppedIn a n with
  | some _ => s.faultCore k { code := cStackOvertemp }
  | none => match reads with
    | some x => s.faultCore k { code := cMemPoison, d1 := x }
    | none => match if writes then s.takeRefused k a n else none with
      | some x => s.faultCore k { code := cObjReadOnly, d1 := x, d2 := a + n - 1 }
      | none => match op with
        | .load n sg rd => (s.modCore k fun c => c.setReg rd n sg (s.cachedNat k a n)).fillAll k a n false
        | .fetch => s.fillAll k a 4 true
        | .store n v => s.cachedStore k (placed a (leBytes n v))
        | .zero => s.cachedStore k (placed (64 * lineOf a) (leBytes 64 0))
        | .amo o n v rd =>
          let old := s.cachedNat k a n
          (s.modCore k fun c => c.setReg rd n true old).cachedStore k
            (placed a (leBytes n (amoResult o n old (v % 2 ^ (8 * n)))))
        | .lr n rd => (s.modCore k fun c => { (c.setReg rd n true (s.cachedNat k a n)) with
            reservation := some (lineOf a) }).fillAll k a n false
        | .sc n v rd =>
          if writes then
            (s.modCore k fun c => { (c.setReg rd 8 false 0) with reservation := none }).cachedStore k
              (placed a (leBytes n v))
          else s.modCore k fun c => { (c.setReg rd 8 false 1) with reservation := none }
        | .csr .. | .sret => s

/-- An access to the Icehouse window, which is cached read-only: loads alone (Table 10-2). -/
def State.iceAccess (s : State) (k : Nat) (op : CoreOp) (va a : Nat) : State :=
  match op with
  | .load .. => s.cachedAccess k op a
  | .store .. | .zero => s.faultCore k { code := cIceWrite }
  | _ => s.accessTrap k op va

/-- An access to a local store, never cached. -/
def State.localAccess (s : State) (k : Nat) (op : CoreOp) (va a : Nat) : State :=
  match op with
  | .load n sg rd => match s.poisonIn a n with
    | some x => s.faultCore k { code := cMemPoison, d1 := max a x }
    | none => s.modCore k fun c => c.setReg rd n sg (s.rdNat a n)
  | .store n v => s.wrNat a n v
  | .zero => s.wrNat (64 * lineOf a) 64 0
  | _ => s.accessTrap k op va

/-- A load or store whose first `m` bytes are the last of stack memory: those go through the caches, the rest to the local store
(Table 10-2). -/
def State.splitAccess (s : State) (k : Nat) (op : CoreOp) (va a m : Nat) : State :=
  if (s.stoppedIn a m).isSome then s.faultCore k { code := cStackOvertemp } else
  match op with
  | .load n sg rd => match (s.poisonSeen k a m).orElse fun _ => s.poisonIn stackTop (n - m) with
    | some x => s.faultCore k { code := cMemPoison, d1 := max a x }
    | none => (s.modCore k fun c => c.setReg rd n sg (s.cachedNat k a m + s.rdNat stackTop (n - m) * 2 ^ (8 * m))).fillAll k a m false
  | .store n v => match s.takeRefused k a m with
    | some x => s.faultCore k { code := cObjReadOnly, d1 := x, d2 := a + n - 1 }
    | none => (s.cachedStore k (placed a ((leBytes n v).take m))).wrNat stackTop (n - m) (v / 2 ^ (8 * m))
  | _ => s.accessTrap k op va

/-- A 64-byte session command joins the port (R258); none while the port is full. -/
def State.portWrite (s : State) (w : Nat) : Option State :=
  if s.sessions.port.length < 64 then
    some { s with sessions := { s.sessions with port := s.sessions.port ++ [w] } }
  else none

/-- A core's 64-byte store to the session command port: it performs when the port accepts it, and stays incomplete while the port is
full or an earlier one of the core waits (R334). -/
def State.sessionStore (s : State) (k v : Nat) : State :=
  if (s.core k).stores = [] then ((s.nextPlace k).portWrite v).getD (s.holdStore k (.session v)) else s.holdStore k (.session v)

/-- The core's stores that wait perform in their order, as far as the session port has room (R334); one to the core's own port takes
effect if the core still runs. -/
def State.drainStores (s : State) (k : Nat) : List (Nat × CoreStore) → State
  | [] => s
  | (place, v) :: rest =>
    let s1 := s.modCore k fun c => { c with stores := rest }
    match v with
    | .session w => match s1.portWrite w with
      | some t => t.drainStores k rest
      | none => s
    | .port off w => (if s1.coreRuns k then s1.portStore k place off w else s1).drainStores k rest

/-- The session port takes the incomplete stores of the cores while it has room, cores in order (R334; log 134). -/
def State.releaseStores (s : State) : State := (List.range 16).foldl (fun s k => s.drainStores k (s.core k).stores) s

/-- An access to control space: the core's own port, one 64-byte store to the session command port, nothing else (R333,
R334, R478). -/
def State.controlAccess (s : State) (k : Nat) (op : CoreOp) (a : Nat) : Option State :=
  let bad : State := s.faultCore k { code := cAddrUnmapped, d1 := a }
  if a = sessionPortAddr then match op with
    | .store 64 v => some (s.sessionStore k v)
    | _ => some bad
  else if portBase k ≤ a ∧ a < portBase k + 0x1000 ∧ a % 8 = 0 then match op with
    | .load 8 _ rd => s.portLoad k (a - portBase k) rd
    | .store 8 v => some (s.corePort k (a - portBase k) v)
    | _ => some bad
  else some bad

/-- The core's pc is the address that it fetches from (R341). -/
def State.fetching (s : State) (k : Nat) (op : CoreOp) (a : Nat) : State :=
  match op with
  | .fetch => s.modCore k fun c => { c with pc := BitVec.ofNat 64 a }
  | _ => s

/-- Some line that an access needs is in no cache, and a channel holds its fill (R414, R426). -/
def State.fillHeld (s : State) (k a n : Nat) : Bool :=
  decide (s.heldChannels ≠ []) && (List.range ((a + n - 1) / 64 - a / 64 + 1)).any fun i =>
    let l := a / 64 + i
    (mapFind l (s.core k).lines).isNone && (s.dirtyElsewhere k l).isNone && (mapFind l s.cluster.l3).isNone && s.heldIn (64 * l) 64

/-- An access of a core at device address `a`, by the region of its first byte (Table 10-2); none while it stalls. `va` is the address
that the program gave. -/
def State.accessAt (s : State) (k : Nat) (op : CoreOp) (va a : Nat) : Option State :=
  let n := opBytes op
  match regionOf a with
  | .control => s.controlAccess k op a
  | .unmapped => some (s.faultCore k { code := cAddrUnmapped, d1 := a })
  | r => match checkMapped a n false with
    | some f => some (s.faultCore k f)
    | none => if s.fillHeld k a n then none else some (match r with
      | .ice => s.iceAccess k op va a
      | .local_ => s.localAccess k op va a
      | _ => if a + n ≤ stackTop then s.cachedAccess k op a else s.splitAccess k op va a (stackTop - a))

/-- The first byte of an access: `cbo.zero` acts on the whole line. -/
def accessStart : CoreOp → Nat → Nat
  | .zero, a => 64 * lineOf a
  | _, a => a

/-! ## S-mode (R332; log 10) -/

/-- A core takes a delegated exception in S-mode, as the RISC-V privileged architecture gives it (log 10): `sepc`, `scause` and
`stval`; `SPP` and `SPIE` from the mode and `SIE`; the handler at `stvec`. -/
def HostCore.trap (c : HostCore) (cause : Nat) (tval : Word64) : HostCore :=
  { c with
    pc := BitVec.ofNat 64 (c.stvec.toNat / 4 * 4), user := false, sepc := c.pc, scause := BitVec.ofNat 64 cause, stval := tval,
    sstatus := (c.sstatus &&& ~~~0x122#64) ||| (if c.sstatus.getLsbD 1 then 0x20#64 else 0) ||| (if c.user then 0 else 0x100#64) }

/-- A synchronous exception: one that is not delegated, or that reaches S-mode while `stvec` is 0, faults the core with `HOST_TRAP`
(R332, R341); a delegated one goes to the program's own handler. -/
def State.takeException (s : State) (k cause : Nat) (tval : Word64) : State :=
  if cause = 1 ∨ cause = 5 ∨ cause = 7 ∨ cause = 9 ∨ (s.core k).stvec = 0#64 then
    s.faultCore k { code := cHostTrap, d0 := cause, d1 := tval.toNat, d2 := if cause = 9 then ((s.core k).getX 17).toNat else 0 }
  else s.modCore k fun c => c.trap cause tval

/-- The control and status registers that a program reaches, by number. -/
def HostCore.csr? (c : HostCore) (num : Nat) : Option Word64 :=
  match num with
  | 0x001 => some (c.fcsr &&& 0x1F)
  | 0x002 => some (c.fcsr >>> 5)
  | 0x003 => some c.fcsr
  | 0x008 => some c.vstart
  | 0x009 => some (c.vcsr &&& 1)
  | 0x00A => some (c.vcsr >>> 1)
  | 0x00F => some c.vcsr
  | 0xC20 => some c.vl
  | 0xC21 => some c.vtype
  | 0xC22 => some 64
  | 0x100 => some c.sstatus
  | 0x104 => some c.sie
  | 0x105 => some c.stvec
  | 0x106 => some c.scounteren
  | 0x10A => some c.senvcfg
  | 0x140 => some c.sscratch
  | 0x141 => some c.sepc
  | 0x142 => some c.scause
  | 0x143 => some c.stval
  | 0x144 => some (if c.interrupt then 0x200 else 0)
  | 0x180 => some c.satp
  | _ => none

/-- A write to a control and status register: fields that the architecture makes read-only keep their value, and `satp` takes Bare, Sv39
and Sv48 only. -/
def HostCore.setCsr (c : HostCore) (num : Nat) (v : Word64) : HostCore :=
  match num with
  | 0x001 => { c with fcsr := (c.fcsr &&& 0xE0) ||| (v &&& 0x1F) }
  | 0x002 => { c with fcsr := (c.fcsr &&& 0x1F) ||| ((v &&& 7) <<< 5) }
  | 0x003 => { c with fcsr := v &&& 0xFF }
  | 0x008 => { c with vstart := v &&& 0x1FF }
  | 0x009 => { c with vcsr := (c.vcsr &&& 6) ||| (v &&& 1) }
  | 0x00A => { c with vcsr := (c.vcsr &&& 1) ||| ((v &&& 3) <<< 1) }
  | 0x00F => { c with vcsr := v &&& 7 }
  | 0x100 => { c with sstatus := v &&& 0xC6722 }
  | 0x104 => { c with sie := v &&& 0x222 }
  | 0x105 => { c with stvec := v &&& ~~~2#64 }
  | 0x106 => { c with scounteren := v &&& 0xFFFFFFFF }
  | 0x10A => { c with senvcfg := v &&& 0xF1 }
  | 0x140 => { c with sscratch := v }
  | 0x141 => { c with sepc := v &&& ~~~1#64 }
  | 0x142 => { c with scause := v }
  | 0x143 => { c with stval := v }
  | 0x180 => if [0, 8, 9].contains (bits v.toNat 60 4) then { c with satp := v } else c
  | _ => c

/-- A CSR instruction writes its register unless it sets or clears no bit. -/
def csrWrites (op : CsrOp) (v : Word64) : Bool := decide (op = .write) || decide (v ≠ 0)

/-- The value that a CSR instruction leaves. -/
def csrApply (op : CsrOp) (old v : Word64) : Word64 :=
  match op with
  | .write => v
  | .set => old ||| v
  | .clear => old &&& ~~~v

/-- What a read of a control and status register gives. The counters (`cycle`, `time`, `instret` and the `hpmcounter`s) count what the
spec gives no number: free values, which U-mode reads where `scounteren` lets it (log 10). -/
def State.csrRead (s : State) (k num : Nat) : Option Word64 :=
  let c := s.core k
  if 0xC00 ≤ num ∧ num < 0xC20 then
    if c.user && !c.scounteren.getLsbD (num - 0xC00) then none else some (BitVec.ofNat 64 (Config.freeNat s.free [0x330, k, num]))
  else c.csr? num

/-- A CSR instruction: the old value goes to the register, the new one to the CSR. A number that no CSR has, one of S-mode used in
U-mode and a write to a read-only one are illegal instructions. -/
def State.coreCsr (s : State) (k : Nat) (op : CsrOp) (num : Nat) (v : Word64) (rd : CoreReg) : State :=
  let c := s.core k
  match s.csrRead k num with
  | none => s.takeException k 2 0
  | some old =>
    if (c.user && decide (bits num 8 2 = 1)) || (csrWrites op v && decide (bits num 10 2 = 3)) then s.takeException k 2 0
    else (s.modCore k fun c => (if csrWrites op v then c.setCsr num (csrApply op old v) else c).setReg rd 8 false old.toNat).fresh

/-- A return from an exception: the pc from `sepc`, the mode from `SPP`, `SIE` from `SPIE`. -/
def HostCore.sret (c : HostCore) : HostCore :=
  { c with
    pc := c.sepc, user := !c.sstatus.getLsbD 8,
    sstatus := (c.sstatus &&& ~~~0x102#64) ||| 0x20#64 ||| (if c.sstatus.getLsbD 5 then 2#64 else 0) }

/-! ### Translation -/

/-- The cause of a page fault of an access. -/
def pageCause : CoreOp → Nat
  | .fetch => 12
  | .load .. | .lr .. => 13
  | _ => 15

/-- Levels of the page table: Sv39 has 3, Sv48 has 4, Bare none. -/
def HostCore.levels (c : HostCore) : Nat :=
  match bits c.satp.toNat 60 4 with
  | 8 => 3
  | 9 => 4
  | _ => 0

/-- Why an address has no translation: a page fault, a refused access to a page table, or a fault of that access. -/
inductive NoPage where
  | page
  | access
  | fault (f : FaultInfo)
  deriving DecidableEq, Repr

/-- A page-table entry, read as a load of the core reads it (Table 10-2). -/
def State.pageEntry (s : State) (k a : Nat) : Except NoPage Nat :=
  match regionOf a with
  | .stack | .ice =>
    if (s.stoppedIn a 8).isSome then .error (.fault { code := cStackOvertemp })
    else match s.poisonSeen k a 8 with
      | some x => .error (.fault { code := cMemPoison, d1 := x })
      | none => .ok (s.cachedNat k a 8)
  | .local_ => match s.poisonIn a 8 with
    | some x => .error (.fault { code := cMemPoison, d1 := max a x })
    | none => .ok (s.rdNat a 8)
  | _ => .error .access

/-- A leaf entry permits the access in the core's mode; its A bit, and for a write its D bit, must be set. -/
def HostCore.permits (c : HostCore) (op : CoreOp) (e : Nat) : Bool :=
  let mode := if c.user then bit e 4 else !bit e 4 || (c.sstatus.getLsbD 18 && decide (op ≠ .fetch))
  mode && bit e 6 && match op with
    | .fetch => bit e 3
    | .load .. | .lr .. => bit e 1 || (c.sstatus.getLsbD 19 && bit e 3)
    | _ => bit e 2 && bit e 7

/-- The walk from the table at `base` with `n` levels left: the device address of `va`. -/
def State.walkPage (s : State) (k : Nat) (op : CoreOp) (va : Nat) : Nat → Nat → Except NoPage Nat
  | 0, _ => .error .page
  | n + 1, base =>
    match s.pageEntry k (base + 8 * bits va (12 + 9 * n) 9) with
    | .error e => .error e
    | .ok e =>
      let ppn := bits e 10 44
      if bit e 0 = false ∨ (bit e 1 = false ∧ bit e 2 = true) ∨ bits e 54 10 ≠ 0 then .error .page
      else if bit e 1 ∨ bit e 3 then
        if (s.core k).permits op e ∧ ppn % 2 ^ (9 * n) = 0 then .ok (ppn * 4096 + va % 2 ^ (12 + 9 * n)) else .error .page
      else s.walkPage k op va n (ppn * 4096)

/-- The device address of one byte of an access. -/
def State.pageOf (s : State) (k : Nat) (op : CoreOp) (va : Nat) : Except NoPage Nat :=
  let c := s.core k
  let top := 11 + 9 * c.levels
  if c.levels = 0 then .ok va
  else if bits va top (64 - top) ≠ 0 ∧ bits va top (64 - top) ≠ 2 ^ (64 - top) - 1 then .error .page
  else s.walkPage k op va c.levels (bits c.satp.toNat 0 44 * 4096)

/-- The device address of an access (R332): its first and its last byte are translated, and must lie in one run of memory. -/
def State.physical (s : State) (k : Nat) (op : CoreOp) (va : Nat) : Except NoPage Nat :=
  match s.pageOf k op va with
  | .error e => .error e
  | .ok a => match s.pageOf k op (va + opBytes op - 1) with
    | .error e => .error e
    | .ok z => if z + 1 = a + opBytes op then .ok a else .error .page

/-- An access of a core at the address that the program gives; none while it stalls. -/
def State.coreMem (s : State) (k : Nat) (op : CoreOp) (va : Nat) : Option State :=
  let s1 := s.fetching k op va
  match s.physical k op va with
  | .ok a => s1.accessAt k op va a
  | .error .page => some (s1.takeException k (pageCause op) (BitVec.ofNat 64 va))
  | .error .access => some (s1.accessTrap k op va)
  | .error (.fault f) => some (s1.faultCore k f)

/-- What a core does in one step; none while it stalls. -/
def State.coreAccess (s : State) (k : Nat) (op : CoreOp) (va : Nat) : Option State :=
  match op with
  | .csr o num v rd => some (s.coreCsr k o num (BitVec.ofNat 64 v) rd)
  | .sret => some (if (s.core k).user then s.takeException k 2 0 else s.modCore k HostCore.sret)
  | _ => s.coreMem k op (accessStart op va)

/-! ## Commands -/

/-- `CORE_ACCESS` (R332, R333): a load, store, fetch or atomic of core `k`, or an access to what translates them; one that stalls does
not perform yet. -/
def execCoreAccess (k : Nat) (op : CoreOp) (a : Nat) (s : State) : Outcome :=
  if s.coreRuns k then .next (((s.coreAccess k op a).map fun t => t.progress (192 + k)).getD s) else .next s

/-- A channel holds the write-back of a dirty line (R414, R426). -/
def State.washHeld (s : State) (k a : Nat) : Bool := (s.dirtyAnywhere k (lineOf a)).isSome && s.heldIn (64 * lineOf a) 64

/-- `CBO_CLEAN` (R338): a dirty line is written back to the memory-side die. -/
def execCboClean (k a : Nat) (s : State) : Outcome :=
  if s.coreRuns k && !s.washHeld k a then .next ((s.cleanLine k (lineOf a) false).progress (192 + k)) else .next s

/-- `CBO_FLUSH` (R338): a line is written back and removed from the coherent caches. -/
def execCboFlush (k a : Nat) (s : State) : Outcome :=
  if s.coreRuns k && !s.washHeld k a then .next ((s.cleanLine k (lineOf a) true).progress (192 + k)) else .next s

/-- `CBO_INVAL` (R338): a line goes from every cache of the core and from the L3, written back or not. -/
def execCboInval (k a : Nat) (s : State) : Outcome :=
  if s.coreRuns k then .next ((s.dropCopies k (lineOf a)).progress (192 + k)) else .next s

/-- `CACHE_WRITEBACK` (R335): the caches write back a dirty line of core `k` of their own accord. -/
def execCacheWriteback (k a : Nat) (s : State) : Outcome :=
  if s.agentsRun && decide (k < 16) && (s.dirtyOf k (lineOf a)).isSome && !s.heldIn (64 * lineOf a) 64 then
    .next (s.washLine k (lineOf a) (s.dirtyOf k (lineOf a)) false)
  else .next s

/-- `CORE_GSIG` (R339). -/
def execCoreGsig (k : Nat) (v : Word64) (s : State) : Outcome :=
  if s.coreRuns k then .next ((s.corePort k 0 v.toNat).progress (192 + k)) else .next s

/-- `CORE_WAIT_TARGET` (R339). -/
def execCoreWaitTarget (k : Nat) (v : Word64) (s : State) : Outcome :=
  if s.coreRuns k then .next ((s.corePort k 0x10 v.toNat).progress (192 + k)) else .next s

/-- `CORE_WAIT_STATUS` (R339). -/
def execCoreWaitStatus (k : Nat) (rd : CoreReg) (s : State) : Outcome :=
  if s.coreRuns k && !(s.core k).portHeld then .next ((s.coreStatusRead k rd).progress (192 + k)) else .next s

/-- `CORE_FENCE` (R339). -/
def execCoreFence (k : Nat) (v : Word64) (s : State) : Outcome :=
  if s.coreRuns k then .next ((s.corePort k 0x20 v.toNat).progress (192 + k)) else .next s

/-- `CORE_FENCE_DONE` (R339): the read returns once every fence written before it has completed. -/
def execCoreFenceDone (k : Nat) (rd : CoreReg) (s : State) : Outcome :=
  if s.coreRuns k && !(s.core k).portHeld && decide ((s.agent (192 + k)).fences = []) then
    .next ((s.coreFenceRead k rd).progress (192 + k))
  else .next s

/-- A channel holds the write-back of one of the core's dirty lines (R414, R426). -/
def State.linesHeld (s : State) (k : Nat) : Bool := s.heldRuns ((s.dirtyLines k).map fun l => (64 * l, 64))

/-- `CORE_ECALL` (R340): from S-mode with the exit code in a7 the core's dirty lines are written back and its global fence starts; any
other `ecall` from S-mode faults with `HOST_TRAP`, cause 9. One from U-mode is delegated (R332). -/
def execCoreEcall (k : Nat) (s : State) : Outcome :=
  if s.coreRuns k then
    if (s.core k).user then .next (s.takeException k 8 0)
    else if (s.core k).getX 17 = 0x4558#64 then
      if s.linesHeld k then .next s else
      let s1 := s.cleanAll k
      if (s1.agent (192 + k)).prog = Prog.running then
        .next ((s1.modAgent (192 + k) fun a => { a with
          prog := .ending, fences := a.fences ++ [{ scope := 3, place := (s1.core k).place, addr := (s1.core k).pc.toNat }]
          }).progress (192 + k))
      else .next s1
    else .next (s.takeException k 9 0)
  else .next s

/-- `CORE_CLEAR_WRITEBACK` (R341, R403): after its record is cleared, the core's dirty lines finish writing back and it becomes
idle, its clock gated from then on; a line lost on the way faults it again. -/
def execCoreClearWriteback (k : Nat) (s : State) : Outcome :=
  if s.agentsRun && (s.core k).clearing && !s.linesHeld k then
    let s1 := (s.cleanAll k).modCore k fun c => { c with clearing := false }
    if (s1.agent (192 + k)).fault.isSome then .next s1
    else .next (s1.modAgent (192 + k) fun a => { a with
      prog := .idle,
      gating := match a.gating with
        | .clockGated _ => .clockGated s.sundial
        | t => t })
  else .next s

/-- `CORE_EXCEPTION` (R332, R341): a synchronous exception. -/
def execCoreException (k cause : Nat) (tval : Word64) (s : State) : Outcome :=
  if s.coreRuns k then .next (s.takeException k cause tval) else .next s

end Sys2Proof.Machine
end

