-- ==== Sys2Proof/Machine/Schedule.lean ====
section
/-! DEFINITION. Schedules, time and gates (01 R24 to R53): publication and its checks, wakes and starts, the end of a
program, signals, timeouts, faults at a boundary, fences, the driver's gate writes and the clearing of a fault record. -/
namespace Sys2Proof.Machine

/-! ## Driver writes (R478, R480) -/

/-- A driver write reaches the blocks of the always-on domain through a host port (R398, R450, R478). -/
def State.driverReaches (s : State) : Bool :=
  s.alwaysOn && (s.gatehouse.ready || s.gatehouse.halted) && !s.warmResetting && !s.recovery.oos

/-- A driver write reaches the blocks of the fast domains, which are off while boot is halted (R450). -/
def State.driverReachesFast (s : State) : Bool := s.driverReaches && !s.gatehouse.halted

/-! ## Publication (R24 to R30, R482) -/

/-- A publication's result is recorded (R482). -/
def State.publishResult (s : State) (index code : Nat) : State :=
  { s with epoch := { s.epoch with
      busy := none, accepted := decide (code = 0), entryIndex := index, faultCode := code,
      publishCount := s.epoch.publishCount + 1 } }

/-- `EPOCH_PUBLISH` (R26, R27, R421, R482). -/
def State.publish (s : State) (a : Nat) : State :=
  if s.recovery.oos || !s.gatehouse.ready || s.gatehouse.halted then s.publishResult 0xFF cDeviceOutOfService
  else if s.epoch.busy.isSome then { s with epoch := { s.epoch with busyRefused := true } }
  else if s.gatehouse.restarting then s.publishResult 0xFF cEpochBusy
  else { s with epoch := { s.epoch with busy := some a } }

/-- The entry of a record whose bytes are `w` (Table 01-3). -/
def entryOf (w : Nat) : EpochEntry :=
  { start := BitVec.ofNat 64 (fieldAt w 0 0 64), program := fieldAt w 8 0 48, epoch := BitVec.ofNat 32 (fieldAt w 0x10 0 32),
    agent := fieldAt w 0x14 0 8, lateFault := bit (fieldAt w 0x15 0 8) 0, doneGate := fieldAt w 0x18 0 17,
    doneValid := bit (fieldAt w 0x18 0 32) 31 }

/-- A reserved field of an entry is non-zero (Table 01-3). -/
def entryReserved (w : Nat) : Bool :=
  decide (fieldAt w 8 48 16 ≠ 0 ∨ fieldAt w 0x15 1 7 ≠ 0 ∨ fieldAt w 0x16 0 16 ≠ 0 ∨ fieldAt w 0x18 17 14 ≠ 0 ∨
    fieldAt w 0x1C 0 32 ≠ 0)

/-- The code a unit of the record is refused with when it cannot be read (R27). DESIGN CHOICE (log 127): of a unit that is poisoned
and lies in a stopped stack, the poison is reported; R27 names both codes without an order. -/
def State.recordUnread (s : State) (a : Nat) : Option Nat :=
  if (s.poisonIn a 32).isSome then some cMemPoison
  else if (s.stoppedIn a 32).isSome then some cStackOvertemp
  else none

/-- `e` is later than the agent's current epoch number (R29). -/
def laterEpoch (e : BitVec 32) (cur : Option (BitVec 32)) : Bool :=
  match cur with
  | none => true
  | some f => decide (1 ≤ (e - f).toNat) && decide ((e - f).toNat < 2 ^ 31)

/-- Checks 5 to 9 of an entry whose bytes are `w`, the agents of the earlier entries being `seen` (Table 01-4). -/
def State.entryFault (s : State) (w : Nat) (seen : List Nat) : Option Nat :=
  let e := entryOf w
  let a := s.agent e.agent
  if entryReserved w then some cEpochReserved
  else if 229 < e.agent ∨ seen.contains e.agent then some cEpochAgent
  else if e.program % 64 ≠ 0 ∨ stackTop ≤ e.program then some cEpochAlign
  else if laterEpoch e.epoch a.curEpoch = false then some cEpochStale
  else if a.pending.isSome then some cEpochSlotBusy
  else none

/-- The entries of a record one at a time, in index order: the first failing entry and its code, or all of them. -/
def State.readEntries (s : State) (a : Nat) : Nat → Nat → List EpochEntry → Except (Nat × Nat) (List EpochEntry)
  | 0, _, acc => .ok acc
  | n + 1, i, acc =>
    let at_ := a + 32 + 32 * i
    match s.recordUnread at_ with
    | some c => .error (i, c)
    | none =>
      let w := s.rdNat at_ 32
      match s.entryFault w (acc.map (·.agent)) with
      | some c => .error (i, c)
      | none => s.readEntries a n (i + 1) (acc ++ [entryOf w])

/-- The checks of R27 in their order: the first failing entry with its code, or the entries. -/
def State.validate (s : State) (a : Nat) : Except (Nat × Nat) (List EpochEntry) :=
  if s.recovery.oos then .error (0xFF, cDeviceOutOfService)
  else if s.sun.st ≠ SunState.locked then .error (0xFF, cSundialUnlocked)
  else if a % 64 ≠ 0 ∨ stackTop < a + 32 then .error (0xFF, cEpochFormat)
  else match s.recordUnread a with
    | some c => .error (0xFF, c)
    | none =>
      let h := s.rdNat a 32
      let n := fieldAt h 2 0 16
      if fieldAt h 0 0 16 ≠ 2 ∨ n = 0 ∨ 230 < n ∨ stackTop < a + 32 + 32 * n then .error (0xFF, cEpochFormat)
      else if fieldAt h 4 0 32 ≠ 0 ∨ bits h 64 192 ≠ 0 then .error (0xFF, cEpochReserved)
      else s.readEntries a n 0 []

/-- The moment an entry's block begins its wake (R33). -/
def wakeMoment (now start : Word64) (i : Nat) : Word64 :=
  if start.toNat < now.toNat + wakeLatency i then now else BitVec.ofNat 64 (start.toNat - wakeLatency i)

/-- A block with nothing to run gates its clock (Table 13-4). -/
def Agent.rest (now : Word64) (a : Agent) : Agent :=
  if (a.prog = .idle ∨ a.prog = .faulted) ∧ a.gating = .running then { a with gating := .clockGated now } else a

/-- Agent `i` gates its clock when it has nothing to run: an array also has no instruction of an ended program left. -/
def State.restOf (s : State) (i : Nat) (a : Agent) : Agent :=
  if isArray i ∧ (s.array i).flights ≠ [] then a else a.rest s.sundial

/-- An entry is refused at its start (R34). -/
def State.refuseStart (s : State) (i : Nat) (e : EpochEntry) : State :=
  let had := (s.agent i).fault.isSome
  let info : FaultInfo := { code := cStartLate, d1 := s.sundial.toNat - e.start.toNat, d2 := e.start.toNat }
  let s1 := s.recordFault i info 0 e.program 0xFFFFFFFF 0
  s1.modAgent i fun a => s.restOf i { a with
    pending := none, wakeAt := none, prog := if a.prog = .idle then .faulted else a.prog,
    fault := if had then a.fault else a.fault.map fun r => { r with epoch := e.epoch } }

/-- An entry is refused when it is accepted or cleared too late, more than 1 µs after its start time (R34). -/
def EpochEntry.tooLate (e : EpochEntry) (now : Word64) : Bool := e.lateFault && decide (e.start.toNat + 4000 < now.toNat)

/-- An entry enters its agent's pending slot (R28, R29, R33, R34). -/
def State.acceptEntry (s : State) (e : EpochEntry) : State :=
  let s1 := s.modAgent e.agent fun a => { a with
    pending := some e, curEpoch := some e.epoch,
    wakeAt := some (match a.wakeAt with
      | some t => if t.toNat < (wakeMoment s.sundial e.start e.agent).toNat then t
        else wakeMoment s.sundial e.start e.agent
      | none => wakeMoment s.sundial e.start e.agent) }
  if e.tooLate s.sundial then s1.refuseStart e.agent e else s1

/-- The compute die of an array's agent has tripped and not resumed (R412). -/
def State.dieTripped (s : State) (i : Nat) : Bool := isArray i && s.power.tripped.contains (i / 24)

/-- The agent can start its pending entry: its slot is free, no record is held, its block runs and its die has not tripped
(R31, R149, R341, R412). -/
def State.canStart (s : State) (i : Nat) (e : EpochEntry) : Bool :=
  let a := s.agent i
  s.agentsRun && decide (a.prog = .idle) && a.fault.isNone && decide (e.start.toNat ≤ s.sundial.toNat)
    && !e.tooLate s.sundial && !s.dieTripped i
    && (match a.gating with
        | .running => true
        | .clockGated _ => true
        | _ => false)
    && decide ((s.array i).flights = [] ∨ isArray i = false)

/-- The start of agent `i`'s pending entry falls in this cycle: nothing holds it any longer. -/
def State.starting (s : State) (i : Nat) : Bool :=
  (s.agent i).pending.any (s.canStart i) && !(isCore i && s.overCap s.corePower)

/-- A cancel is applied (R30, R483): it withdraws the pending entry, unless its start falls in the same cycle. -/
def State.cancel (s : State) (i : Nat) : State :=
  let found := decide (i < 230) && (s.agent i).pending.isSome && !s.starting i
  let s1 := if found then s.modAgent i fun a => s.restOf i { a with
      pending := none, wakeAt := if a.awakeUntil.isSome then a.wakeAt else none } else s
  { s1 with epoch := { s1.epoch with
      cancelAgent := i, cancelResult := if found then 1 else 2, cancelCount := s1.epoch.cancelCount + 1 } }

/-- `EPOCH_PUBLISH` (R26, R482): a write of the whole register. -/
def execEpochPublish (w : RegVal) (s : State) : Outcome :=
  if s.alwaysOn && (s.gatehouse.ready || s.gatehouse.halted) && !s.warmResetting && decide (w.half = .both) then
    .next (s.publish (w.fld 0 48))
  else .next s

/-- The record in validation lies in a channel that holds its requests (R414, R426). -/
def State.recordHeld (s : State) (a : Nat) : Bool := s.heldIn a 32 || s.heldIn (a + 32) (32 * fieldAt (s.rdNat a 32) 2 0 16)

/-- `EPOCH_VALIDATION_END` (R26, R27, R483). -/
def execEpochValidationEnd (s : State) : Outcome :=
  match s.epoch.busy with
  | none => .next s
  | some a =>
    if s.alwaysOn && !s.warmResetting && !s.recordHeld a then
      let s1 := match s.validate a with
        | .error (i, c) => s.publishResult i c
        | .ok es =>
          let s0 := es.foldl State.acceptEntry (s.publishResult 0 0)
          { s0 with power := { s0.power with capLogged := false } }
      .next ((s.epoch.cancels.foldl State.cancel { s1 with epoch := { s1.epoch with cancels := [] } }))
    else .next s

/-- `EPOCH_CANCEL` (R30, R483): applied at once, or when a validation in progress ends. -/
def execEpochCancel (w : RegVal) (s : State) : Outcome :=
  if s.driverReaches && w.hasLow then
    let i := w.fld 0 8
    if s.epoch.busy.isSome then .next { s with epoch := { s.epoch with cancels := s.epoch.cancels ++ [i] } }
    else .next (s.cancel i)
  else .next s

/-! ## Wakes and starts (R31 to R36, R405) -/

/-- An entry waits in the pending slot of agent `i`, no fault record holds it back and its wake has come: the block runs until it
starts (R33). -/
def State.awaitsStart (s : State) (i : Nat) : Bool := match (s.agent i).pending with
  | some e => (s.agent i).fault.isNone && decide (e.start.toNat ≤ s.sundial.toNat + wakeLatency i)
  | none => false

/-- A cause of a wake reaches a block: a gated block wakes, and the ledger holds a wake that would pass 2,800 W (R405,
R410). -/
def State.wakeBlock (s : State) (i : Nat) : State :=
  match (s.agent i).gating with
  | .running => s
  | .waking _ => s
  | .clockGated _ => if s.awaitsStart i then s.modAgent i fun a => { a with gating := .running } else s
  | .powerGated =>
    if isArray i && s.overCap (s.wakePower i) then s.holdStart i
    else (s.modAgent i fun a => { a with gating := .waking s.sundial, heldWake := false }).addPower (s.wakePower i)

/-- `SCHEDULED_WAKE` (R33, R127, R405). -/
def execScheduledWake (i : Nat) (now : Word64) (s : State) : Outcome :=
  match s.at? now with
  | none => .next s
  | some s1 => match (s.agent i).wakeAt with
    | none => .next s
    | some t =>
      if s.agentsRun && ((s.agent i).pending.isSome || (s.agent i).awakeUntil.isSome) && decide (t.toNat ≤ now.toNat) && !s.dieTripped i then
        .next ((s1.wakeBlock i).modAgent i fun a => { a with wakeAt := match a.pending with
          | some e => if now.toNat + wakeLatency i < e.start.toNat then some (wakeMoment now e.start i) else none
          | none => none })
      else .next s

/-- `WAKE_COMPLETE` (R405): the block runs; one with no entry to start gates its clock at once (R406, Table 13-4). -/
def execWakeComplete (i : Nat) (now : Word64) (s : State) : Outcome :=
  match s.at? now with
  | none => .next s
  | some s1 => match (s.agent i).gating with
    | .waking _ =>
      if s.agentsRun then
        .next (s1.modAgent i fun a => { a with
          gating := if a.prog = .running ∨ a.prog = .ending ∨ s1.awaitsStart i then .running else .clockGated now })
      else .next s
    | _ => .next s

/-- One period of the agent's clock in ticks, rounded down: a start within it is on time (R31, Table 13-3). -/
def clockTicks (i : Nat) : Nat := if isMover i then 3 else if isCodec i then 2 else 1

/-- The entry moves to the running slot and its program starts (R28, R31, R419). -/
def State.startProgram (s : State) (i : Nat) (e : EpochEntry) : State :=
  let late := s.sundial.toNat - e.start.toNat
  let s1 := s.modAgent i fun a => { a with
    running := some e, pending := none, wakeAt := none, prog := .running, ip := e.program, gating := .running,
    lastProgress := s.sundial, watchLimit := a.progressLimit, watchHeld := 0 }
  let s2 := if clockTicks i < late then s1.logEvent cStartLate (srcAgent i) e.program 0 late e.start.toNat else s1
  if isCore i then s2.launchCore (i - 192) e else s2

/-- `AGENT_START` (R31, R34, R340). -/
def execAgentStart (i : Nat) (now : Word64) (s : State) : Outcome :=
  match s.at? now with
  | none => .next s
  | some s1 => match (s.agent i).pending with
    | none => .next s
    | some e =>
      if s1.canStart i e then
        if isCore i then .next (s1.startOr i s1.corePower (s1.startProgram i e)) else .next (s1.startProgram i e)
      else .next s

/-- `START_LATE` (R34): at `START_TIME` + 1 µs an entry with `LATE_FAULT` that has not started is refused. -/
def execStartLate (i : Nat) (now : Word64) (s : State) : Outcome :=
  match s.at? now with
  | none => .next s
  | some s1 => match (s.agent i).pending with
    | none => .next s
    | some e =>
      if s.agentsRun && e.lateFault && decide (e.start.toNat + 4000 ≤ now.toNat) then .next (s1.refuseStart i e)
      else .next s

/-! ## End of a program (R35, R36, R340) -/

/-- The program's end is complete but for its done signal: its global fence, its waits and its signals. -/
def State.endReady (s : State) (i : Nat) : Bool :=
  let a := s.agent i
  s.agentsRun && decide (a.prog = .ending) && decide (a.fences = []) && decide (a.signals = []) && decide (a.waits = [])
    && decide (a.boundary = [])

/-- The program has ended: the running slot empties and the block gates its clock (R36, R483). A record held from a refused
entry keeps the agent FAULTED. -/
def State.endProgram (s : State) (i : Nat) : State :=
  let s1 := s.modAgent i fun a => { a with
    running := none, prog := if a.fault.isSome then .faulted else .idle, gating := .clockGated s.sundial }
  if isArray i then s1.settleArray i else s1

/-- `DONE_GATE_SIGNAL` (R35): a core whose exit status is not 0 faults instead (R340). -/
def execDoneGateSignal (i : Nat) (s : State) : Outcome :=
  if s.endReady i then
    let status := ((s.core (i - 192)).getX 10).toNat
    if isCore i && decide (status ≠ 0) then .next (s.faultCore (i - 192) { code := cHostExitStatus, d1 := status })
    else match (s.agent i).running with
      | some e => .next (if e.doneValid then (s.endProgram i).signalGate e.doneGate 1 else s.endProgram i)
      | none => .next (s.endProgram i)
  else .next s

/-! ## Signals, waits, fences (R37 to R53) -/

/-- `SIGNAL_APPLY` (R38 to R40, R48 to R50): signal `k` of the agent's queue is applied or sent. -/
def execSignalApply (i k : Nat) (s : State) : Outcome :=
  match (s.agent i).signals[k]? with
  | none => .next s
  | some g =>
    let first := ((s.agent i).signals.take k).all fun h =>
      !(decide (s.signalNode h = s.signalNode g) && decide (h.place = g.place))
    if s.agentsRun && s.signalReady i g && first then
      let s1 := s.modAgent i fun a => { a with signals := a.signals.eraseIdx k }
      let s2 := match g.node with
        | none => s1.signalGate g.gate g.inc
        | some n => s1.sendSignal i g n
      .next (if isMover i || isCodec i then s2.progress i else s2)
    else .next s

/-- A wait's timeout has expired at the Sundial's reading (R45). -/
def GateWait.expired (w : GateWait) (now : Word64) : Bool := decide (usTicks w.timeout ≤ now.toNat - w.issued.toNat)

/-- The wait of agent `i` whose timeout expired first, where one has: one whose condition does not hold at the tick of its
expiry (R45). -/
def State.expiredWait (s : State) (i : Nat) (now : Word64) : Option GateWait :=
  let late := (s.agent i).waits.filter fun w => w.expired now && (w.lapsed now || !reached (s.gate w.gate).value w.target)
  late.find? fun w => late.all fun v => decide (w.issued.toNat + usTicks w.timeout ≤ v.issued.toNat + usTicks v.timeout)

/-- The counter of a wait's gate when its timeout expired (R45). -/
def State.valueAtExpiry (s : State) (w : GateWait) : BitVec 32 := w.seen.getD (s.gate w.gate).value

/-- An agent stops with `GATE_TIMEOUT` (R45, Table 03-20). -/
def State.timeoutFault (s : State) (i : Nat) (w : GateWait) : State :=
  let f : FaultInfo :=
    { code := cGateTimeout, d0 := w.gate, d1 := w.target.toNat + (s.valueAtExpiry w).toNat * 2 ^ 32, d2 := w.timeout }
  if isArray i then s.faultArray i f 0x05 w.addr w.place 0xFFFFFFFF 0
  else if isCore i then s.faultCore (i - 192) f
  else if isMover i then s.faultMover (i - 208) f 0x09 w.addr
  else s.faultCodec (i - 224) f 0x09 w.addr

/-- `GATE_TIMEOUT` (R44, R45). -/
def execGateTimeout (i : Nat) (now : Word64) (s : State) : Outcome :=
  match s.at? now with
  | none => .next s
  | some s1 => match s.expiredWait i now with
    | none => .next s
    | some w =>
      if s.agentsRun then
        .next ((s1.modAgent i fun a => { a with waits := a.waits.filter fun x => decide (x ≠ w) }).timeoutFault i w)
      else .next s

/-- The agent is between its instructions or commands: a mover or codec core has none in execution. -/
def State.atBoundary (s : State) (i : Nat) : Bool :=
  !(isMover i && (s.mover (i - 208)).cmd.isSome) && !(isCodec i && (s.codecCore (i - 224)).cmd.isSome)

/-- `BOUNDARY_FAULT` (R48, R140): the first asynchronous fault of the agent; one that already holds a record sets its
`MULTI` (R152). -/
def execBoundaryFault (i : Nat) (s : State) : Outcome :=
  match (s.agent i).boundary with
  | [] => .next s
  | f :: fs =>
    if s.agentsRun && s.atBoundary i then
      let s1 := s.modAgent i fun a => { a with boundary := fs }
      let p := (s.agent i).prog
      .next (if p = .faulted ∨ p = .resetting then
          (if isCore i then s1.recordFault i f 0 (s.core (i - 192)).pc.toNat 0xFFFFFFFF 0
          else s1.recordFault i f (s.rdByte (s.agent i).ip).toNat (s.agent i).ip 0xFFFFFFFF 0)
        else s1.faultAgent i f)
    else .next s

/-- `FENCE_COMPLETE` (R53, R339): the agent's first fence completes when its condition holds. -/
def execFenceComplete (i : Nat) (s : State) : Outcome :=
  match (s.agent i).fences with
  | [] => .next s
  | f :: fs =>
    if s.agentsRun && s.fenceHolds i f.scope f.place then
      let s1 := s.modAgent i fun a => { a with fences := fs }
      .next (if isCore i then s1.modCore (i - 192) fun c => { c with fenceDone := f.scope } else s1.progress i)
    else .next s

/-- `GATE_VALUE` (R51, R487): the half written takes its value; waiters judge a new counter. -/
def execGateValue (g : Nat) (w : RegVal) (s : State) : Outcome :=
  if s.driverReaches && decide (g < gateCount) then
    let s1 := if w.hasHigh then s.modGate g fun x => { x with remote := bit w.value.toNat 32 } else s
    .next (if w.hasLow then s1.setGateValue g (BitVec.ofNat 32 (w.fld 0 32)) else s1)
  else .next s

/-- `GATE_SIGNAL` (R487): a local signal without release; an increment of 0 is ignored. -/
def execGateSignal (g : Nat) (w : RegVal) (s : State) : Outcome :=
  if s.driverReaches && decide (g < gateCount) && w.hasLow && decide (w.fld 0 16 ≠ 0) then
    .next (s.signalGate g (w.fld 0 16))
  else .next s

/-! ## Clearing a fault record (R149, R341, R485) -/

/-- The record of agent `i` is cleared: the running slot empties unless its program still runs, a core first writes back its
dirty lines, and a pending entry schedules its wake again (R33). -/
def State.clearFault (s : State) (i : Nat) : State :=
  let s1 := s.modAgent i fun a =>
    let live := decide (a.prog = .running) || decide (a.prog = .ending)
    { a with
      fault := none, clearWanted := false, running := if live then a.running else none,
      prog := if live || isCore i then a.prog else .idle,
      wakeAt := a.pending.map fun e => wakeMoment s.sundial e.start i }
  if isCore i && decide ((s1.agent i).prog = .faulted) then s1.modCore (i - 192) fun c => { c with clearing := true }
  else s1

/-- `AGENT_FAULT_CLEAR` (R485). -/
def execAgentFaultClear (i : Nat) (w : RegVal) (s : State) : Outcome :=
  if s.driverReachesFast && decide (i < 230) && w.hasLow && bit w.value.toNat 0 && (s.agent i).fault.isSome then
    if (s.agent i).prog = .resetting then .next (s.modAgent i fun a => { a with clearWanted := true })
    else .next (s.clearFault i)
  else .next s

end Sys2Proof.Machine
end

