-- ==== Sys2Proof/Machine/Arrays.lean ====
section
/-! DEFINITION. The array sequencer (03 R109 to R148): fetch, the control instructions, the dry run of a Trellis, and the issue
of compute and copy instructions. -/
namespace Sys2Proof.Machine

/-! ## Turns of the instructions in flight (R143) -/

/-- The flight of a place changes. -/
def State.modFlight (s : State) (a place : Nat) (g : Flight → Flight) : State :=
  s.modArray a fun x => { x with flights := x.flights.map fun f => if f.place = place then g f else f }

/-- Rows of a unit that a flight has completed. -/
def Flight.done (f : Flight) : TUnit → Nat
  | .copy => f.copyDone
  | .compute => f.computeDone
  | .store => f.storeDone

/-- A unit's next row of a flight. -/
def Flight.next? (f : Flight) (u : TUnit) : Option TRow := (f.unitRows u)[f.done u]?

/-- A wait without acquire holds the compute steps and writes of the instruction at `place` (R42). -/
def State.waitHolds (s : State) (a place : Nat) : Bool := (s.agent a).waits.any fun w => decide (w.place < place)

/-- An instruction without Trellis rows that the next compute instruction waits for (R143); a no-op only when it reseeds
(R321). -/
def Flight.serial (f : Flight) : Bool :=
  opCompute f.code && !f.hasRows && f.code != opCopy && f.code != opKvexp
    && (!f.noop || (f.code == opRng && modBit f.word 3))

/-- Every compute instruction before `place` has ended its compute steps (R143). -/
def State.computeTurn (s : State) (a place : Nat) : Bool :=
  (s.array a).flights.all fun g => decide (place ≤ g.place) || (!g.serial && (g.next? .compute).isNone)

/-! ## Fetch and issue (R109, R142) -/

/-- The next slot of array `a`'s program, or the fault its fetch takes (R109). -/
def State.fetchSlot (s : State) (a : Nat) : Except FaultInfo Nat :=
  let ip := (s.agent a).ip
  if stackTop < ip + 32 then .error { code := cInsnFetch }
  else match s.stoppedIn ip 32 with
    | some _ => .error { code := cStackOvertemp }
    | none => match s.poisonIn ip 32 with
      | some x => .error { code := cMemPoison, d1 := x }
      | none => .ok (s.rdNat ip 32)

/-- The place of the oldest instruction of array `a` that has issued and not completed: the one in execution (R142; log 123). A
completion gate's signal that waits its turn belongs to an instruction that has completed (R113). -/
def State.oldestPlace (s : State) (a : Nat) : Option Nat :=
  let l := (s.array a).flights.map (·.place) ++ (s.agent a).waits.map (·.place)
    ++ ((s.agent a).signals.filter (·.insn)).map (·.place)
  l.foldl (fun b p => some (match b with
    | some q => min p q
    | none => p)) none

/-- The sequencer of array `a` may issue its next instruction (R42, R53, R129, R142, R48). -/
def State.arrayReady (s : State) (a : Nat) : Bool :=
  let g := s.agent a
  let x := s.array a
  s.agentsRun && decide (a < 192) && decide (g.prog = .running) && decide (g.boundary = []) && decide (g.fences = [])
    && !s.heldIn g.ip 32 && !(g.waits.any (·.acquire)) && !(x.flights.any fun f => f.code == opCtxsave || f.code == opCtxload)
    && (match s.oldestPlace a with
      | some p => decide (x.place ≤ p + 8)
      | none => true)

/-- The word of the slot that array `a` may issue. -/
def State.slotWord (s : State) (a : Nat) : Option Nat :=
  if s.arrayReady a then (match s.fetchSlot a with | .ok w => some w | .error _ => none) else none

/-- The entries that a `DLOAD` writes. -/
def dloadEntries (w : Nat) : List Nat := (List.range (fieldAt w 4 0 13)).map (fieldAt w 2 0 12 + ·)

/-- The compute instruction that array `a` issued last has begun its execution: it has completed, a row of it has, or its turn has
come (R143; log 56). -/
def State.lastBegan (s : State) (a : Nat) : Bool :=
  match ((s.array a).flights.filter fun g => g.code != opCopy && opCompute g.code).getLast? with
  | some p => decide (0 < p.copyDone + p.computeDone) || s.computeTurn a p.place
  | none => true

/-- The array's `bridge` once the instruction at its sequencer's address has issued (R143): an entry that a `DLOAD` writes counts
only where the compute instruction before it has begun by then. -/
def State.bridgeAfter (s : State) (a : Nat) : Option (List Nat) :=
  let b := (s.array a).bridge
  let w := s.rdNat (s.agent a).ip 32
  let op := opOf w
  if op = opNop ∨ op = opWake ∨ op = opCopy ∨ (op = opGsig ∧ !modBit w 0) then b
  else if op = opGwait then
    (if reached (s.gate (fieldAt w 4 0 17)).value (BitVec.ofNat 32 (fieldAt w 8 0 32)) then b else none)
  else if op = opDload then b.map (· ++ if s.lastBegan a then dloadEntries w else [])
  else if opCompute op then some [] else none

/-- The instruction at the sequencer's address has issued. -/
def State.advance (s : State) (a : Nat) : State :=
  (s.modArray a fun x => { x with place := x.place + 1, bridge := s.bridgeAfter a }).modAgent a fun g => { g with ip := g.ip + 32 }

/-- The instruction at the sequencer's address faults at issue (R146, R149; log 16). -/
def State.faultIssue (s : State) (a op : Nat) (f : FaultInfo) : State :=
  s.faultArray a f op (s.agent a).ip (s.array a).place 0xFFFFFFFF f.tiles

/-- A control instruction of opcode `op` issues: its reserved fields and its ranges are checked, then it acts. -/
def State.control (s : State) (a op : Nat) (bad : Nat → List (Nat × Bool)) (act : Nat → State) : Outcome :=
  match s.slotWord a with
  | none => .next s
  | some w =>
    if opOf w = op then
      match rsvFault op w with
      | some o => .next (s.faultIssue a op (fieldFault cInsnReserved o 0))
      | none => match lowestBad (bad w ++ slotChecks op w) with
        | some o => .next (s.faultIssue a op (fieldFault cInsnOperand o 0))
        | none => .next (act w)
    else .next s

/-- A control instruction that completes at its issue (R145). -/
def State.issued (s : State) (a : Nat) : State := (s.advance a).progress a

/-! ## Control instructions (R126 to R131) -/

/-- `NOP`. -/
def execNop (a : Nat) (s : State) : Outcome := s.control a opNop (fun _ => []) fun _ => s.issued a

/-- `HALT` ends the program: its global fence starts (R35). -/
def execHalt (a : Nat) (s : State) : Outcome :=
  s.control a opHalt (fun _ => []) fun _ =>
    ((s.modAgent a fun g => { g with prog := .ending, fences := g.fences ++ [{ scope := 3, place := (s.array a).place, addr := g.ip }]
      }).advance a).progress a

/-- `FENCE` (R53). -/
def execFence (a : Nat) (s : State) : Outcome :=
  s.control a opFence (fun _ => []) fun w =>
    (s.modAgent a fun g => { g with
      fences := g.fences ++ [{ scope := fieldAt w 1 0 2, place := (s.array a).place, addr := g.ip }] }).advance a

/-- A `WAKE` of agent `i` by `time` (R127, R405, R406). -/
def State.wakeAgent (s : State) (i time : Nat) : State :=
  let g := s.agent i
  let until_ := BitVec.ofNat 64 (time + usTicks s.power.idleHold)
  let keep (t : Option Word64) : Word64 := match t with
    | some x => if x.toNat < until_.toNat then until_ else x
    | none => until_
  match g.gating with
  | .running => s
  | _ =>
    let s1 := s.modAgent i fun g => { g with awakeUntil := some (keep g.awakeUntil) }
    if time < s.sundial.toNat + wakeLatency i then
      (match g.gating with
        | .powerGated => if s.dieTripped i then s1 else s1.wakeBlock i
        | _ => s1)
    else
      let t := BitVec.ofNat 64 (time - wakeLatency i)
      s1.modAgent i fun g => { g with wakeAt := some (match g.wakeAt with
        | some x => if x.toNat < t.toNat then x else t
        | none => t) }

/-- `WAKE`. -/
def execWake (a : Nat) (s : State) : Outcome :=
  s.control a opWake
    (fun w => [(2, decide (229 < fieldAt w 2 0 8)),
      (3, decide (229 < fieldAt w 3 0 8) || decide (fieldAt w 3 0 8 < fieldAt w 2 0 8))])
    fun w =>
      let first := fieldAt w 2 0 8
      let by_ := fieldAt w 8 0 64
      let time := if by_ = 0 then s.sundial.toNat else by_
      (((List.range (fieldAt w 3 0 8 + 1 - first)).foldl (fun s i => s.wakeAgent (first + i) time) s).issued a)

/-- `GSIG` (R37 to R40, R49, R50): it completes when it is applied (Table 03-18). -/
def execGsig (a : Nat) (s : State) : Outcome :=
  s.control a opGsig
    (fun w => [(2, decide (half16 w 2 = 0)), (8, !bit w 9 && decide (fieldAt w 8 0 14 ≠ 0))])
    fun w =>
      let g : Signal :=
        { gate := fieldAt w 4 0 17, inc := half16 w 2, release := modBit w 0,
          node := if modBit w 1 then some (fieldAt w 8 0 14) else none, place := (s.array a).place, insn := true }
      (s.issueSignal a g).issued a

/-- `GWAIT` (R41 to R44). -/
def execGwait (a : Nat) (s : State) : Outcome :=
  s.control a opGwait (fun _ => []) fun w =>
    let target := BitVec.ofNat 32 (fieldAt w 8 0 32)
    let s1 := (s.issueWait a (fieldAt w 4 0 17) target (fieldAt w 0xC 0 24) (modBit w 0) (s.array a).place (s.agent a).ip).advance a
    if reached (s.gate (fieldAt w 4 0 17)).value target then s1.progress a else s1

/-- A control instruction's flight: it completes later. -/
def State.launchPlain (s : State) (a w : Nat) (loaded : Bool) : State :=
  let f : Flight := { (s.capture a (s.array a).place (s.agent a).ip w) with loaded := loaded }
  (s.modArray a fun x => { x with flights := x.flights ++ [f] }).advance a

/-- The faults of a `TLOAD`'s operand: entries and bounds, then its form (R239), then its access. -/
def State.tloadFault (s : State) (a w : Nat) : Option FaultInfo :=
  match s.orders1to7 a (s.array a).place (s.agent a).ip w with
  | .error e => some e
  | .ok f => match f.op? 8 with
    | none => none
    | some o => firstFault [
        if o.layout ≠ 0 ∨ o.fmt ≠ .fp32 ∨ tRank o.word ≠ 1 ∨ o.e 0 ≠ tableLen (fieldAt w 1 0 3) then some (f.fmtFault 8)
        else none,
        s.accessOp f o]

/-- `TLOAD` (R128, R239, R240): it loads when it completes. -/
def execTload (a : Nat) (s : State) : Outcome :=
  s.control a opTload
    (fun w => [(1, decide (2 < fieldAt w 1 0 3)), (8, !modBit w 3 && !slotUse w 8)])
    fun w => match s.tloadFault a w with
      | some e => s.faultIssue a opTload e
      | none => s.launchPlain a w (!slotUse w 8)

/-- `DLOAD` (R122, R124): a fault writes no entry. -/
def execDload (a : Nat) (s : State) : Outcome :=
  s.control a opDload (fun _ => []) fun w =>
    if s.heldIn (s.addrOf (fieldAt w 8 0 24) (fieldAt w 0x10 0 48)) (64 * fieldAt w 4 0 13) then s else match s.dload a w with
    | .error e => s.faultIssue a opDload e
    | .ok s1 => s1.issued a

/-- `CTXSAVE` (R129): it issues, and writes its image when every earlier instruction has ended. -/
def execCtxsave (a : Nat) (s : State) : Outcome :=
  s.control a opCtxsave (fun w => [(0x10, decide (fieldAt w 0x10 0 48 % 4096 ≠ 0))]) fun w => s.launchPlain a w false

/-- `CTXLOAD` (R129, R130). -/
def execCtxload (a : Nat) (s : State) : Outcome :=
  s.control a opCtxload (fun w => [(0x10, decide (fieldAt w 0x10 0 48 % 4096 ≠ 0))]) fun w => s.launchPlain a w false

/-! ## Orders 1 to 12 (R146, R264, R151) -/

/-- The checks of an instruction at issue: its first fault and whether the session record was read by then (R262, R264), or what
it captured, as a no-op where R147 or R151 makes it one. -/
def State.checkIssue (s : State) (a place addr w : Nat) : Except (FaultInfo × Bool) Flight :=
  -- an `ATTN` or `ATTNB` has one output tile whatever it faults for (R150, R274, R281); the Trellis of another instruction is fixed
  -- once its shapes and formats are known and a tile fits (log 16)
  let one := if opOf w = opAttn ∨ opOf w = opAttnb then 1 else 0
  if !opKnown (opOf w) then .error ({ code := cInsnOpcode }, false)
  else match s.orders1to7 a place addr w with
    | .error e => .error ({ e with tiles := one }, false)
    | .ok f =>
      if f.zeroExtent then .ok { f with noop := true }
      else
        let has := opSession f.code
        let idx := (sessionFields w).1
        let r := s.session idx
        match if has then s.sessionFault w else none with
        | some e => .error ({ e with tiles := one }, false)
        | none =>
          let f1 := if has then { f with session := some (idx, { r with sealLen := r.len }) } else f
          match firstFault [f1.shapes r, f1.formats r, f1.upStore a] with
          | some e => .error ({ e with tiles := one }, has)
          | none =>
            let f2 := { f1 with engine := if f1.code = opConv then s.convEngine f1 else 1 }
            let tiles := if (f2.tileFault r).isNone then f2.tileCount else one
            match firstFault [s.accesses f2, if f2.code = opKvexp then s.pinFault ([r.cache, r.belv].filter fun h => decide (h ≠ 0))
              else none, f2.tileFault r] with
            | some e => .error ({ e with tiles := tiles }, has)
            | none =>
              if opStarts f2.code ∧ f2.tileCount ≤ startTile w then .ok { f2 with noop := true } else .ok f2

/-- The snapshot of a session's length at a pin (R262). -/
def State.sealSession (s : State) (w : Nat) : State :=
  s.modSession (sessionFields w).1 fun r => { r with sealLen := r.len }

/-- A `KVEXP` posts its job where its mover's queue has room; the job has the pins that it took at issue (R94, R282). An `XSERVE` that
waited for one waits no more (R106, R419). -/
def State.postExport (s : State) (a : Nat) (f : Flight) : State :=
  let w := f.word
  let m := fieldAt w 0xA 8 4
  match f.session with
  | none => s
  | some (idx, r) =>
    let job : ExportJob :=
      { array := a, place := f.place, session := idx, snap := r, layer := half16 w 0xC, first := fieldAt w 0x10 0 32,
        count := fieldAt w 0x14 0 32, node := fieldAt w 0xE 0 14, stream := fieldAt w 0x18 0 32, last := modBit w 0, sent := 0,
        port := none, under := false }
    let s1 := match (s.mover m).cmd, (s.mover m).jobs with
      | some (.xserve _ _ since _), [] => s.modAgent (208 + m) (Agent.pausedFrom since s.sundial)
      | _, _ => s
    (s1.modMover m fun x => { x with jobs := x.jobs ++ [job] }).modFlight a f.place fun g => { g with posted := true }

/-- The mover's export queue has room (R282). -/
def State.exportRoom (s : State) (f : Flight) : Bool := decide ((s.mover (fieldAt f.word 0xA 8 4)).jobs.length < 8)

/-- The Trellis window of array `a` becomes the one that an instruction captured; the bytes of one that it replaces stay undefined
until they are written (R197). -/
def State.takeWindow (s : State) (a : Nat) (f : Flight) : State :=
  let now := some (f.winBase, f.winSize)
  let s1 := match (s.array a).window with
    | some w => if some w = now then s else s.undefine (lsAddr a (w.1 * 65536)) (w.2 * 65536)
    | none => s
  s1.modArray a fun x => { x with window := now }

/-- The window half that step 0 of an instruction uses: where R143 holds for it and the compute instruction before it, the one
that the last step of that one does not use (R198). -/
def State.firstHalf (s : State) (a : Nat) (f : Flight) : Nat :=
  let x := s.array a
  match x.bridge, (x.flights.filter fun g => g.code != opCopy && opCompute g.code).getLast? with
  | some l, some p =>
    if (s.allSlots a f.word f.layers).any (fun sl => l.contains sl.index)
        || f.ops.any (fun o => o.scale.isSome && l.contains (tScaleIdx o.word)) then 0
    else match p.trellis.getLast? with
      | some r => (r.half + 1) % 2
      | none => 0
  | _, _ => 0

/-- An instruction that passed its checks is in flight; the session it names is pinned in the same step (R262), and a `KVEXP` takes
its pins (R94). From the first compute instruction of a program the Trellis window is the sequencer's (R197). -/
def State.launch (s : State) (a : Nat) (f : Flight) : State :=
  let s1 := match f.session with
    | some (i, _) => (s.modSession i fun r => { r with pins := r.pins + 1, sealLen := r.len }).takePins f.exportPins
    | none => s
  let f1 := { f with issued := s.sundial, half0 := s.firstHalf a f }
  let s2 := ((if opTakesWindow f.code then s1.takeWindow a f else s1).modArray a fun x => { x with flights := x.flights ++ [f1]
    }).advance a
  if f.code = opKvexp ∧ !f.noop ∧ (s.agent a).waits = [] ∧ s.exportRoom f then s2.postExport a f else s2

/-- The issue of a compute or copy instruction of opcode `op`; a fifth copy waits (R141). -/
def State.issueCompute (s : State) (a op : Nat) : Outcome :=
  match s.slotWord a with
  | none => .next s
  | some w =>
    if opOf w = op ∧ (op = opCopy → ((s.array a).flights.filter fun f => f.code == opCopy).length < 4) then
      match s.checkIssue a (s.array a).place (s.agent a).ip w with
      | .error (e, read) => .next ((if read then s.sealSession w else s).faultIssue a op e)
      | .ok f => .next (s.launch a f)
    else .next s

/-- `MM` issues (R132). -/
def execMm (a : Nat) (s : State) : Outcome := s.issueCompute a opMm
/-- `MMC` issues (R132). -/
def execMmc (a : Nat) (s : State) : Outcome := s.issueCompute a opMmc
/-- `MMX` issues (R132). -/
def execMmx (a : Nat) (s : State) : Outcome := s.issueCompute a opMmx
/-- `CONV` issues (R135). -/
def execConv (a : Nat) (s : State) : Outcome := s.issueCompute a opConv
/-- `CONVF` issues (R136). -/
def execConvf (a : Nat) (s : State) : Outcome := s.issueCompute a opConvf
/-- `ATTN` issues (R137). -/
def execAttn (a : Nat) (s : State) : Outcome := s.issueCompute a opAttn
/-- `ATTNB` issues (R137). -/
def execAttnb (a : Nat) (s : State) : Outcome := s.issueCompute a opAttnb
/-- `PSCORE` issues (R137). -/
def execPscore (a : Nat) (s : State) : Outcome := s.issueCompute a opPscore
/-- `KVEXP` issues (R137, R282). -/
def execKvexp (a : Nat) (s : State) : Outcome := s.issueCompute a opKvexp
/-- `VEC` issues (R138). -/
def execVec (a : Nat) (s : State) : Outcome := s.issueCompute a opVec
/-- `ROW` issues (R138). -/
def execRow (a : Nat) (s : State) : Outcome := s.issueCompute a opRow
/-- `SFN` issues (R138). -/
def execSfn (a : Nat) (s : State) : Outcome := s.issueCompute a opSfn
/-- `SORT` issues (R138). -/
def execSort (a : Nat) (s : State) : Outcome := s.issueCompute a opSort
/-- `RNG` issues (R138). -/
def execRng (a : Nat) (s : State) : Outcome := s.issueCompute a opRng
/-- `POOL` issues (R138). -/
def execPool (a : Nat) (s : State) : Outcome := s.issueCompute a opPool
/-- `RESIZE` issues (R138). -/
def execResize (a : Nat) (s : State) : Outcome := s.issueCompute a opResize
/-- `COPY` issues (R139). -/
def execCopy (a : Nat) (s : State) : Outcome := s.issueCompute a opCopy

/-- `INSN_OPCODE` (R109, R114): the sequencer's next slot cannot be fetched or holds no opcode of Table 03-2. -/
def execInsnOpcode (a : Nat) (s : State) : Outcome :=
  if s.arrayReady a then
    match s.fetchSlot a with
    | .error e => .next (s.faultIssue a (s.rdByte (s.agent a).ip).toNat e)
    | .ok w => if opKnown (opOf w) then .next s else .next (s.faultIssue a (opOf w) { code := cInsnOpcode })
  else .next s

/-! ## TRDRY (R131, R203, R204) -/

/-- The bytes of a Trellis row (Table 05-7); `i` is its place in the Trellis. A duration that no rule gives is free. -/
def State.rowBytes (s : State) (f : Flight) (i : Nat) (r : TRow) : List Byte :=
  leBytes 32 (packed [(0, 0, 4, r.kind), (0, 4, 1, r.half), (1, 0, 4, r.part), (4, 0, 32, r.step), (8, 0, 32, r.m0),
    (0xC, 0, 32, r.n0), (0x10, 0, 32, r.k0), (0x14, 0, 16, r.mExt), (0x16, 0, 16, r.nExt), (0x18, 0, 32, r.kExt),
    (0x1C, 0, 32, (s.rowCycles f r).getD (Config.freeNat 0 (0x7E :: i :: f.key)))])

/-- The fields of a header between `STEP_COUNT` and `MT` that an instruction's Trellis gives, where it gives them: `MT`, `NT`, `KT`,
`STEP_COUNT`, `TILE_COUNT`, `SETS`, `PA` and `PB`. -/
structure GridFields where
  mt : Option Nat := none
  nt : Option Nat := none
  kt : Option Nat := none
  steps : Option Nat := none
  tiles : Option Nat := none
  form : Option (Nat × Nat × Nat) := none

/-- The grid's fields of a header (Table 05-6, R202, R274, R281, R294). -/
def Flight.gridFields (f : Flight) : GridFields :=
  if (f.code = opConv ∧ f.engine = 2) ∨ f.code = opAttn ∨ f.code = opAttnb then { tiles := some f.tileCount }
  else if f.code = opConvf then
    { mt := some f.spatial.1, nt := some f.spatial.2, steps := some f.spatialCount, tiles := some f.spatialCount }
  else if f.hasRows then let g := f.grid
    { mt := some g.mt, nt := some g.nt, kt := some g.kt, steps := some g.steps, tiles := some g.tiles,
      form := some (f.form.sets, f.form.pa, f.form.pb) }
  else {}

/-- The grid's fields of the header of a no-op: all where `START_TILE` alone makes it one (R151, R202), else those that the form
alone gives (Tables 05-2, 05-5). -/
def Flight.noopFields (f : Flight) : GridFields :=
  if !f.zeroExtent then f.gridFields
  else if f.code = opMm ∨ f.code = opMmc ∨ f.code = opMmx ∨ (f.code = opConv ∧ fieldAt f.word 1 2 2 = 1) then
    { form := some (f.form.sets, f.form.pa, f.form.pb) }
  else {}

/-- The header (Table 05-6) of a dry run of instruction `w`: fault code and detail, rows, nominal time with fill and drain, the
grid's fields. A field that no rule fills for the instruction is free (log 27). -/
def State.header (s : State) (a w code detail rows : Nat) (nominal : Option Nat) (fd : Option (Nat × Nat)) (g : GridFields) :
    List Byte :=
  let fr (off n : Nat) (o : Option Nat) : Nat := o.getD (Config.freeNat 0 [0x7D, off, w, code] % 2 ^ n)
  leBytes 64 (packed [(0, 0, 16, 1), (2, 0, 16, code), (4, 0, 8, opOf w), (8, 0, 32, rows), (0xC, 0, 32, 64 + 32 * rows),
    (0x10, 0, 64, fr 0x10 64 nominal), (0x18, 0, 32, fr 0x18 32 (fd.map (·.1))), (0x1C, 0, 32, fr 0x1C 32 (fd.map (·.2))),
    (0x20, 0, 16, fr 0x20 16 g.mt), (0x22, 0, 16, fr 0x22 16 g.nt), (0x24, 0, 32, fr 0x24 32 g.kt),
    (0x28, 0, 32, fr 0x28 32 g.steps), (0x2C, 0, 32, fr 0x2C 32 g.tiles), (0x30, 0, 8, fr 0x30 8 (g.form.map (·.1))),
    (0x31, 0, 4, fr 0x31 4 (g.form.map (·.2.1))), (0x31, 4, 4, fr 0x31 5 (g.form.map (·.2.2))),
    (0x34, 0, 32, (s.array a).winSize * 32768), (0x38, 0, 32, detail)])

/-! ### Rows of the attention instructions (Table 07-10) -/

/-- The kinds and parts of rows that an attention instruction's Trellis may hold. -/
def Flight.attnKinds (f : Flight) : List (Nat × Nat) :=
  if f.code = opAttn then
    [(10, 0)] ++ (if !modBit f.word 1 && f.hasOp 0xC then [(11, 0)] else []) ++ (if !modBit f.word 1 && f.hasOp 0xE then [(11, 1)] else [])
      ++ [(12, 0), (13, 0)]
  else if f.code = opAttnb then (List.range 5).map fun p => (13, p)
  else [(12, 0), (14, 0)]

/-- A number from 0 to `n` − 1. -/
def pick (n x : Nat) : Nat := x % max 1 n

/-- Row `i` of an attention instruction's Trellis: a row of one of its kinds with the fields that Table 07-10 gives it. Which kinds
the rows have in which order, how they divide their operands, and their step and half, the spec does not say: free (log 27). So are
the pages and keys of an `ATTN` with `SELECT`, whose `PAGES` a dry run does not read (R131). -/
def Flight.dryRow (f : Flight) (r : Session) (i : Nat) : TRow :=
  let fr (k : Nat) : Nat := Config.freeNat 0 (0x275 :: k :: i :: f.key)
  let kind := f.attnKinds.getD (pick f.attnKinds.length (fr 0)) (13, 0)
  let select := decide (f.code = opAttn) && modBit f.word 2
  let rows := (f.op 8).e 1
  let m0 := pick rows (fr 1)
  let mE := if kind.1 = 12 ∨ kind.1 = 13 then 1 + pick (rows - m0) (fr 2) else 0
  let count := if f.code = opAttn then r.len else if f.code = opAttnb then (f.op 0xA).e 1 else (candidates r).length
  let t := pick (ceilDiv count 128) (fr 3)
  let j := pick (ceilDiv r.len 64) (fr 4)
  let n : Nat × Nat :=
    if kind.1 = 10 then (64 * j, min 64 (r.len - 64 * j))
    else if kind.1 = 14 then (0, count)
    else if select then (pick r.len (fr 7), 1 + pick 128 (fr 8))
    else (128 * t, min 128 (count - 128 * t))
  { kind := kind.1, part := kind.2, half := fr 5 % 2, step := fr 6, m0 := if mE = 0 then 0 else m0, n0 := n.1,
    k0 := if kind.1 = 10 then j else 0, mExt := mE, nExt := n.2, kExt := 0, tile := 0 }

/-- Its bytes: `SELECT` takes the time that R278 gives it. -/
def State.dryRowBytes (s : State) (f : Flight) (r : Session) (i : Nat) : List Byte :=
  let w := f.dryRow r i
  let b := s.rowBytes f i w
  if w.kind = 14 then b.take 28 ++ leBytes 4 (toCycles (selectTime (candidates r).length)) else b

/-- The output of a dry run of instruction `w` with capacity `cap`: header, and the whole rows that fit. The header of an instruction
that would fault has no row (R131), so `ROW_COUNT` 0 and `BYTES_REQUIRED` 64 (log 147). -/
def State.dryRun (s : State) (a w cap : Nat) : List Byte × List (List Byte) :=
  let op := opOf w
  let fault (e : FaultInfo) : List Byte × List (List Byte) := (s.header a w e.code e.d0 0 none none {}, [])
  if decide (op < 0x10) && opKnown op then fault { code := cInsnOpcode }
  else match s.checkIssue a (s.array a).place (s.agent a).ip w with
    | .error e => fault e.1
    | .ok f =>
      if f.noop then (s.header a w 0 0 0 (some 30) none f.noopFields, [])
      else
        let r := match f.session with
          | some (_, r) => r
          | none => {}
        let t := s.nominal a f r
        let fits := cap / 32 - 2
        if op = opAttn ∨ op = opAttnb ∨ op = opPscore then
          let n := Config.freeNat 0 (0x276 :: f.key) % 2 ^ 26
          (s.header a w 0 0 n (t.map (·.1)) none f.gridFields, (List.range (min n fits)).map (s.dryRowBytes f r))
        else
          let rows := f.rowsFrom (startTile w)
          (s.header a w 0 0 rows.length (t.map (·.1)) (t.bind (·.2)) f.gridFields,
           (rows.take fits).zipIdx.map fun e => s.rowBytes f e.2 e.1)

/-- What a dry run leaves at `out`: its header and its rows. -/
def State.trdryWrites (s : State) (out : Nat) (d : List Byte × List (List Byte)) : State :=
  (s.wr (placed out (d.1 ++ d.2.flatten))).fresh

/-- The capacity of a `TRDRY`'s output: `OUT_CAP`, but no byte past the end of the local store (log 126). -/
def outCap (w : Nat) : Nat := min (fieldAt w 0x10 0 32) (lsBytes - fieldAt w 0xC 0 23)

/-- What `TRDRY` does with the judgement `r` of the instruction `insn`: it writes its output at `out`, or faults for a poisoned
control structure (Table 02-4). -/
def State.trdryJudged (s : State) (a w out insn : Nat) (r : Except (FaultInfo × Bool) Flight) : State :=
  match r with
  | .error x =>
    if x.1.code = cMemPoison then s.faultIssue a opTrdry x.1
    else ((s.wr (placed out (s.dryRun a insn (outCap w)).1)).fresh).issued a
  | .ok _ => (s.trdryWrites out (s.dryRun a insn (outCap w))).issued a

/-- The judgement of the instruction that `TRDRY` names (R126): an instruction of another class than compute is not checked. -/
def State.trdryJudge (s : State) (a insn : Nat) : Except (FaultInfo × Bool) Flight :=
  if opCompute (opOf insn) then s.checkIssue a (s.array a).place (s.agent a).ip insn else .ok (s.capture a 0 0 insn)

/-- `TRDRY` with the first poisoned unit `x` of the control structure that it reads, where there is one. -/
def State.trdryFrom (s : State) (a w : Nat) (x : Option FaultInfo) : State :=
  match x with
  | some e => s.faultIssue a opTrdry e
  | none => s.trdryJudged a w (lsAddr a (fieldAt w 0xC 0 23)) (s.rdNat (lsAddr a (fieldAt w 8 0 23)) 32)
      (s.trdryJudge a (s.rdNat (lsAddr a (fieldAt w 8 0 23)) 32))

/-- `TRDRY` writes its output, or faults for its own fields and for a poisoned control structure (Table 02-4). -/
def State.trdry (s : State) (a w : Nat) : State := s.trdryFrom a w (s.lsPoison a (fieldAt w 8 0 23) 32 8)

/-- `TRDRY`: a write, held by a wait without acquire (R42). -/
def execTrdry (a : Nat) (s : State) : Outcome :=
  if (s.agent a).waits = [] then
    s.control a opTrdry
      (fun w => [(8, decide (fieldAt w 8 0 23 % 32 ≠ 0)), (0x0C, decide (fieldAt w 0xC 0 23 % 64 ≠ 0)),
        (0x10, decide (fieldAt w 0x10 0 32 % 64 ≠ 0 ∨ fieldAt w 0x10 0 32 < 64))])
      (s.trdry a)
  else .next s

end Sys2Proof.Machine
end

