-- ==== Sys2Proof/Machine/Rows.lean ====
section
/-! DEFINITION. What an array has in flight goes on (03 R113, R128, R129, R142, R143, R147, 05 R203, R209): Trellis rows complete,
table banks switch, and instructions complete. -/
namespace Sys2Proof.Machine

/-! ## Turns -/

/-- No earlier `TLOAD` has yet to switch a bank that the instruction uses (R240). -/
def State.bankReady (s : State) (a : Nat) (f : Flight) : Bool :=
  !((s.array a).flights.any fun g => decide (g.place < f.place) && g.code == opTload && modBit g.word 3
      && f.usesTable (fieldAt g.word 1 0 3))

/-! ## Rows (R203, R209) -/

/-- Rows of a unit before row `r` in the order of the Trellis: those of earlier steps, and those of its own step that its unit
waits for. -/
def Flight.before (f : Flight) (u : TUnit) (r : TRow) : Nat :=
  (((f.trellis.takeWhile fun q => decide (q ≠ r)).filter fun q => decide (q.unit = u))).length

/-- The next row of a unit whose conditions hold, with its flight. Copy rows run at most one step ahead of the compute rows;
a compute row needs the copy rows before it, and at most one store row before it may still run; a store row needs the compute
rows before it. -/
def State.nextRow (s : State) (a : Nat) (u : TUnit) : Option (Flight × TRow) :=
  match (s.array a).flights.find? fun f => (f.next? u).isSome with
  | none => none
  | some f =>
    match f.next? u with
    | none => none
    | some r =>
      let ahead := ((((f.unitRows .compute).drop f.computeDone).map (·.step)).eraseDups.filter fun t => decide (t < r.step)).length
      let ok := match u with
        | .copy => decide (ahead ≤ if s.computeTurn a f.place then 1 else 0)
        | .compute => s.computeTurn a f.place && s.bankReady a f && !s.waitHolds a f.place && !(s.array a).paused
            && decide (f.before .copy r ≤ f.copyDone) && decide (f.before .store r ≤ f.storeDone + 1)
        | .store => !s.waitHolds a f.place && decide (f.before .compute r ≤ f.computeDone)
      if ok then some (f, r) else none

/-- What the compute step of a row depends on: its first fault. -/
def State.rowFault (s : State) (f : Flight) (r : TRow) : Option FaultInfo :=
  if r.kind = 8 then s.layerFault f r
  else if r.kind = 15 then s.convRowFault f r true
  else
    let st := f.grid.stepAt r.step
    let last := decide (st.k2 + 1 = f.grid.nk)
    if f.code = opConv then s.convRowFault f r last else s.matFault f r last

/-- Bytes that a copy or instruction writes, with the units it marks: those at the session command port are one command
(R258). None while the port is full, or while a channel holds one of the writes (R414, R426). -/
def State.putBytes (s : State) (w : List (Nat × Byte)) (marks : List Nat) : Option State :=
  let port := w.filter fun e => decide (regionOf e.1 = .control)
  if s.heldRuns (w.map fun e => (e.1, 1)) then none
  else if port = [] then some (s.wrPoison w marks)
  else (s.wrPoison (w.filter fun e => decide (regionOf e.1 ≠ .control)) marks).portWrite (leNat (port.map (·.2)))

/-- The rows that the store of tile row `r` completes get their statistics and status words (R225 to R231). -/
def Flight.closeRows (f : Flight) (r : TRow) (rows : List (Nat × RowAcc)) : Stores × List Nat × List (Nat × RowAcc) :=
  let g := f.grid
  let last := f.code = opConvf ∨ r.kind = 15
    ∨ (let st := g.stepAt r.step; st.n2 + 1 = g.nn ∧ (f.code = opConv → st.set + 1 = g.sets))
  if last then
    let inTile (m : Nat) : Bool :=
      let q := pixelOf (f.op 0xA).ext4 m
      decide (q.2.2 = (f.spatialTile r.tile).1) && decide (r.m0 ≤ q.2.1 ∧ q.2.1 < r.m0 + r.mExt)
        && decide (r.n0 ≤ q.1 ∧ q.1 < r.n0 + r.nExt)
    let mine (m : Nat) : Bool :=
      if f.code = opConvf then inTile m else r.kind == 15 || (decide (r.m0 ≤ m) && decide (m < r.m0 + r.mExt))
    let kept := decide (f.code = opMm) && modBit f.word 3
    let done := (rows.filter fun e => mine e.1).map fun e =>
      let st := if kept then rowStats e.2.vals else none
      (e.1, st, orFlags e.2.flags (statsFlag st))
    let stats := match f.op? 0x18 with
      | some o => if kept then done.flatMap fun e => recordStores o e.1 (recordWords e.2.1 e.2.2) else []
      | none => []
    (stats, done.map fun e => e.2.2, rows.filter fun e => !mine e.1)
  else ([], [], rows)

/-- The lanes of an instruction's output: the slot whose element positions draw, and its words per position (R172, R315). -/
def Flight.lanePerElem (f : Flight) : Nat :=
  if f.code = opConvf then laneDraws f.lastChain f.rnd
  else if f.code = opMmc then 2 * laneDraws (f.chain? 0x14) f.rnd
  else if (f.code = opMm ∨ f.code = opMmx) ∧ f.cellMode = .comp then 0
  else if f.code = opMm ∨ f.code = opMmx then laneDraws (f.chain? 0x14) f.rnd
  else laneDraws (f.chain? 0x12) f.rnd

/-- The lanes of array `x` where no rule orders an instruction's lane-keyed draws: free (log 22). -/
def State.lanesFree (s : State) (f : Flight) (x : ArrayState) : ArrayState :=
  { x with lanes := tabulate 256 fun l =>
      (l, BitVec.ofNat 64 (if l < s.lanesActive then Config.freeNat 0 ([0x1A, l, f.drawn] ++ x.drawKey f) else x.lane l)) }

/-- The lanes after `n` positions of an instruction. -/
def State.lanesAfter (s : State) (f : Flight) (x : ArrayState) (n d : Nat) : ArrayState :=
  if f.looseLanes then s.lanesFree f x else x.advance s.lanesActive f.drawn n d

/-- The lanes after a spatial tile of a `CONVF`: each has made the draws of its own elements (R315, R316). -/
def State.convfLanes (s : State) (f : Flight) (x : ArrayState) (tile : Nat) : ArrayState :=
  if f.looseLanes then s.lanesFree f x
  else if f.lanePerElem = 0 then x
  else
    let l := (f.convfTilePos tile).map (· % s.lanesActive)
    { x with lanes := tabulate 256 fun i =>
        (i, BitVec.ofNat 64 (gfJump (tapsOf x.lkPoly) (x.lane i) (64 * f.lanePerElem * (l.filter (· == i)).length))) }

/-- What the tile of row `r` gives, by its opcode, from its accumulators. -/
def State.tileRes (s : State) (x : ArrayState) (f : Flight) (r : TRow) (accs : TileAccs) : TileRes :=
  if f.code = opConvf then s.convfTile' { x with lanes := f.lanes0 } f r.tile
  else if r.kind = 15 then s.vconvTile x f r
  else if f.code = opConv then s.convTile x f f.grid r accs
  else s.matTile x f f.grid r f.rows accs

/-- The instruction as its first draw finds the lanes (R315). -/
def Flight.atLanes (f : Flight) (x : ArrayState) : Flight :=
  if f.code = opConvf ∧ f.drawn = 0 then { f with lanes0 := x.lanes } else f

/-- The lanes after the output tile of row `r`, and what `drawn` counts then. -/
def State.tileDraws (s : State) (f : Flight) (x : ArrayState) (r : TRow) : ArrayState × Nat :=
  let n := if r.kind = 15 then r.mExt * r.nExt else f.grid.mt * f.grid.nt
  if f.code = opConvf then (s.convfLanes f x r.tile, f.drawn + 1) else (s.lanesAfter f x n f.lanePerElem, f.drawn + n)

/-- The output path takes the tile that compute row `r` ends: its values enter the store buffer, its draws are made, and its rows
take their status and statistic values (R184, R191, R315, R316). -/
def State.endTile (s : State) (a : Nat) (f : Flight) (r : TRow) (accs : TileAccs) : State :=
  let x := f.seedStreams a (s.array a)
  let f1 := f.atLanes x
  let res := s.tileRes x f1 r accs
  let d := s.tileDraws f1 x r
  (s.modArray a fun _ =>
    { d.1 with accs := [], buffer := x.buffer ++ [{ place := f.place, tile := r.tile, stores := res.stores }] }).modFlight a f.place
    fun g => { g with rows := joinRows g.rows res.rows, drawn := d.2, lanes0 := f1.lanes0 }

/-- The entry of the store buffer that holds the output tile of row `r`. -/
def TileBuf.holds (f : Flight) (r : TRow) (b : TileBuf) : Bool := decide (b.place = f.place) && decide (b.tile = r.tile)

/-- The bytes that a store row writes: its tile in the store buffer, and the statistics of the rows it completes. -/
def State.tileBytes (s : State) (a : Nat) (f : Flight) (r : TRow) : List (Nat × Byte) :=
  s.storeBytes (((s.array a).buffer.filter (TileBuf.holds f r)).flatMap (·.stores) ++ (f.closeRows r f.rows).1)

/-- The row stores its output tile from the store buffer: the tile's bytes, its rows' statistics and status words. None while a
write waits for the session command port. -/
def State.storeTile (s : State) (a : Nat) (f : Flight) (r : TRow) : Option State :=
  let c := f.closeRows r f.rows
  (s.putBytes (s.tileBytes a f r) []).map fun s1 =>
    ((s1.modArray a fun y => { (y.formRows c.2.1) with buffer := y.buffer.filter fun b => !TileBuf.holds f r b }).modFlight a f.place fun g =>
      { g with tile := r.tile + 1, rows := c.2.2 }).fresh

/-! ### The cells' weight registers (R185, R186, R199, R293) -/

/-- The parts of B of a form's weight tiles, in order (Tables 05-9, 05-10). -/
def Flight.weightParts (f : Flight) : List Nat := (f.streamSpecs.map (·.2.1)).eraseDups

/-- The elements of the weight tile of a convolution at reduction tile `t` and output channels `ns`: block-diagonal by group
(R293). -/
def State.convWeights (s : State) (w : Operand) (p : ConvPlan) (t : Nat) (ns : List Nat) : List (List Nat) :=
  (List.range 128).map fun r => ns.map fun n =>
    let k := t * p.kt + r % p.kt
    if r / p.kt = n / p.go % p.b ∧ k < p.red then
      s.weightAt w n (k / (p.cg * w.e 2)) (k / p.cg % w.e 2) (k % p.cg)
    else 0

/-- A weight tile of compute row `r` with its elements: part `part`, reduction base `k0`, column base `n0`. -/
def State.weightTile (s : State) (f : Flight) (r : TRow) (part k0 n0 : Nat) : WeightTile :=
  let ns := (List.range (min 128 (r.n0 + r.nExt - n0))).map (n0 + ·)
  { place := f.place, part := part, k0 := k0, n0 := n0,
    cells := if f.code = opConv then s.convWeights (f.op 0xA) f.conv (k0 / 128) ns
      else
        let ks := (List.range (min 128 (r.k0 + r.kExt - k0))).map (k0 + ·)
        let cols := ns.map fun n => (s.feedB f ks n).getD part []
        (List.range ks.length).map fun i => cols.map fun c => c.getD i 0 }

/-- The weight tile of layer `l` of a `CONVF` at reduction tile `t`, group set `set` and column block `nb`. -/
def State.layerWeights (s : State) (f : Flight) (l t set nb : Nat) : WeightTile :=
  let w := f.op (layerSlot l 0)
  let p := convPlan (f.layerGeom l) w.ext4 (f.extsOf (l + 1))
  let n0 := set * p.b * p.go + 128 * nb
  { place := f.place, part := l, k0 := 128 * t, n0 := n0,
    cells := s.convWeights w p t ((List.range (min 128 (p.cols set - 128 * nb))).map (n0 + ·)) }

/-- The first weight tile of a compute row on the cells, and its last (R199). -/
def State.firstWeights (s : State) (f : Flight) (r : TRow) : WeightTile :=
  if r.kind = 8 then s.layerWeights f r.part 0 0 0 else s.weightTile f r (f.weightParts.headD 0) r.k0 r.n0
def State.lastWeights (s : State) (f : Flight) (r : TRow) : WeightTile :=
  if r.kind = 8 then
    let p := convPlan (f.layerGeom r.part) (f.layerWt r.part) (f.extsOf (r.part + 1))
    s.layerWeights f r.part (p.redTiles - 1) (p.sets - 1) (ceilDiv (p.cols (p.sets - 1)) 128 - 1)
  else s.weightTile f r (f.weightParts.getLastD 0) (r.k0 + (ceilDiv r.kExt 128 - 1) * 128) (r.n0 + (ceilDiv r.nExt 128 - 1) * 128)

/-- The first weight tile of the next compute row goes into the shadow registers as soon as its copy rows are complete (R186),
whichever instruction the row belongs to. -/
def State.loadShadow (s : State) (a : Nat) : State :=
  match (s.array a).flights.find? fun g => (g.next? .compute).isSome with
  | some g => match g.next? .compute with
    | some r =>
      if r.kind ≠ 15 ∧ g.before .copy r ≤ g.copyDone ∧ s.computeTurn a g.place then
        s.modArray a fun x => { x with shadow := s.firstWeights g r }
      else s
    | none => s
  | none => s

/-- A compute row has ended: its last weight tile is active, and the bank that was active is the shadow (R186; log 146). -/
def State.turnWeights (s : State) (a : Nat) (f : Flight) (r : TRow) : State :=
  s.modArray a fun x => { x with active := s.lastWeights f r, shadow := x.active }

/-- The products of the attention instructions run on the cells in an order that no rule gives: what is left in the registers is
free (log 146). -/
def ArrayState.freeWeights (x : ArrayState) (f : Flight) : ArrayState :=
  let tile (b : Nat) : WeightTile :=
    { place := f.place, cells := tabulate 128 fun r => tabulate 128 fun c => Config.freeNat b (0x186 :: r :: c :: f.key) % 2 ^ 32 }
  if f.code = opAttn ∨ f.code = opAttnb ∨ f.code = opPscore then { x with active := tile 0, shadow := tile 1 } else x

/-- A compute row of a product or of a `CONV` on the cells: its streams enter the accumulators; with the last reduction tile the
output path takes the tile, or, in the first of two passes, the row's statistics take its values (R185 to R192, R248). -/
def State.computeTile (s : State) (a : Nat) (f : Flight) (r : TRow) : State :=
  let x := f.seedStreams a (s.array a)
  let st := f.grid.stepAt r.step
  let sum := if f.code = opConv then s.convSum x f r else s.matSum x f r
  let s1 := s.modArray a fun _ => { x with accs := sum.1 }
  let join (l : List (Nat × RowAcc)) (s : State) : State := s.modFlight a f.place fun g => { g with rows := joinRows g.rows l }
  let s2 := join sum.2 s1
  if st.k2 + 1 < f.grid.nk then s2
  else if st.stores then s2.endTile a { f with rows := joinRows f.rows sum.2 } r sum.1
  else join (s.matFirst x f r sum.1) s2

/-- A row's flight faults (R149, R151). -/
def State.faultFlight (s : State) (a : Nat) (f : Flight) (e : FaultInfo) : State :=
  s.faultArray a e f.code f.addr f.place f.lastTile f.tileCount

/-- A row completes. None while it waits for the session command port, or a channel holds what it reads or writes. -/
def State.completeRow (s : State) (a : Nat) (u : TUnit) (f : Flight) (r : TRow) : Option State :=
  let count (s : State) : State := (s.modFlight a f.place fun g => match u with
    | .copy => { g with copyDone := g.copyDone + 1 }
    | .compute => { g with computeDone := g.computeDone + 1 }
    | .store => { g with storeDone := g.storeDone + 1 }).progress a
  match u with
  | .copy => if s.heldRuns (f.copyRuns r) then none else some ((count s).loadShadow a)
  | .store => (s.storeTile a f r).map count
  | .compute =>
    match s.rowFault f r with
    | some e => some (s.faultFlight a f e)
    | none =>
      if r.kind = 15 then
        let s1 := s.endTile a f r []
        (((s1.array a).flights.find? fun g => decide (g.place = f.place)).bind fun g => s1.storeTile a g r).map count
      else if r.kind = 8 then
        some ((count ((if r.part + 1 = f.layers.length then s.endTile a f r [] else s).turnWeights a f r)).loadShadow a)
      else some ((count ((s.computeTile a f r).turnWeights a f r)).loadShadow a)

/-- Array `a` has come to a compute-row boundary: a pause that the ledger has asked for begins (R410). -/
def State.rowBoundary (s : State) (a : Nat) : State :=
  s.modArray a fun x => if x.pausing then { x with pausing := false, paused := true, pausedAt := s.sundial } else x

/-- `TRELLIS_ROW_COMPLETE` (R203, R209). -/
def execTrellisRowComplete (a : Nat) (u : TUnit) (s : State) : Outcome :=
  if s.agentsRun && decide (a < 192) then
    match s.nextRow a u with
    | some (f, r) => .next (match s.completeRow a u f r with
      | some t => if u = .compute then t.rowBoundary a else t
      | none => s)
    | none => .next s
  else .next s

/-! ## Completion (R113, R147) -/

/-- A flight ends normally: its pins are released and its completion gate is signalled with release (R113). A window that it
captured and that is the sequencer's no more stays undefined (R197). -/
def State.finish (s : State) (a : Nat) (f : Flight) : State :=
  let s0 := if opTakesWindow f.code && decide ((s.array a).window ≠ some (f.winBase, f.winSize)) then
      s.undefine (lsAddr a (f.winBase * 65536)) (f.winSize * 65536) else s
  let s1 := s0.modArray a fun x => { x with flights := x.flights.filter fun g => decide (g.place ≠ f.place) }
  let s2 := (((s1.endFlight f).settlePins a).settleArray a).progress a
  if opCompute f.code && bit f.word 49 then
    s2.issueSignal a { gate := fieldAt f.word 4 0 17, inc := half16 f.word 2, release := true, node := none, place := f.place }
  else s2

/-- Places of every element of an operand. -/
def Operand.allPlaces (o : Operand) : List (Operand × (Nat × Nat)) :=
  (List.range o.rows).flatMap fun r => (o.rowIdx r).map fun i => (o, o.placeAt i)

/-- The bytes that an instruction without Trellis rows reads through its slots and chains. -/
def State.readPlaces (s : State) (f : Flight) : List (Operand × (Nat × Nat)) :=
  let all (slots : List Nat) : List (Operand × (Nat × Nat)) :=
    slots.flatMap fun sl => match f.op? sl with | some o => o.allPlaces | none => []
  let x := f.op 8
  let chained (slot outSlot : Nat) (rows : List Nat) : List (Operand × (Nat × Nat)) := match f.chain? slot with
    | some w => rows.flatMap fun r => ((f.op outSlot).rowIdx r).flatMap fun i => f.chainPlaces slot w i r
    | none => []
  let code := f.code
  if code = opVec ∨ code = opRow then
    let kept := s.keptRows f x.rows
    all [0x12] ++ kept.flatMap (fun r => (x.rowIdx r).map fun i => (x, x.placeAt i))
      ++ (if f.ignoresChain then [] else chained 0x10 8 kept)
      ++ (match f.op? 0xC with
          | some o => if code = opRow ∧ fieldAt f.word 0x14 0 8 = 1 then
              kept.map fun r => (o, (o.bitAt (0, r, 0, 0) / 8, 8)) else []
          | none => [])
  else if code = opSfn then all [8]
  else if code = opSort then all [8, 0xA]
  else if code = opPool then
    (List.range (f.op 0xA).rows).flatMap fun r => ((f.op 0xA).rowIdx r).flatMap fun i =>
      ((poolWindow f.word x i).filterMap id).map fun j => (x, x.placeAt j)
  else if code = opResize then
    (List.range (f.op 0xA).rows).flatMap fun r => ((f.op 0xA).rowIdx r).flatMap fun i =>
      (resizeReads f.word x (f.op 0xA) i).map fun j => (x, x.placeAt j)
  else if code = opAttn then all [8, 0xC, 0xE, 0x10] ++ chained 0x14 0xA (List.range (f.op 0xA).rows)
  else if code = opAttnb then
    let kept := (List.range (x.e 1)).filter fun m => s.maskBit (f.op? 0x1A) m
    all [0x1A, 0xA, 0xC] ++ kept.flatMap fun m => [8, 0xE, 0x10, 0x12].flatMap fun sl =>
      ((f.op sl).rowIdx m).map fun i => (f.op sl, (f.op sl).placeAt i)
  else if code = opPscore then all [8]
  else []

/-- The ranges that an instruction without Trellis rows reads: its operands, and the pages or summaries of its session. -/
def State.readRuns (s : State) (f : Flight) : List (Nat × Nat) :=
  (s.readPlaces f).map (fun e => (e.2.1 / 8, ceilDiv (e.2.1 % 8 + e.2.2) 8)) ++ match f.session with
    | some (_, r) =>
      if f.code = opAttn then (s.walkPages f r).map fun j =>
        (s.addrOf r.cache (s.pageOff r (half16 f.word 0x18) j), frameTokens r j * r.slotBytes)
      else if f.code = opPscore then (candidates r).map fun j => (s.addrOf r.belv (summaryOff r (half16 f.word 0x10) j), 128)
      else []
    | none => []

/-- The first fault of an instruction without Trellis rows as it runs (Table 02-4, R182, R265, R270). Every element of a scale vector
is judged, a masked row's among them (DEDUCED, log 151). -/
def State.runFault (s : State) (f : Flight) : Option FaultInfo :=
  let walk := match f.session with
    | some (i, r) => if f.code = opAttn then s.walkFault f i r else if f.code = opPscore then s.summaryFault f r else none
    | none => none
  let clean := s.mem.poison = [] && s.mem.lostStripes = []
    && !(f.ops.any fun o => decide (regionOf o.base = .ice))
  firstFault [
    walk,
    if clean then none else s.poisonAt (s.readPlaces f),
    (f.ops.filter fun o => o.scaled && !(f.ignoresChain && decide (0x10000 ≤ o.slot))).findSome?
      fun o => s.scaleFault o (List.range o.rows) (List.range (o.e 0))]

/-- The result of an instruction without Trellis rows. -/
def State.runRes (s : State) (x : ArrayState) (f : Flight) : VRes :=
  let r := match f.session with
    | some (_, r) => r
    | none => {}
  let code := f.code
  if code = opVec then s.vecRes x f
  else if code = opRow then s.rowRes' x f
  else if code = opSfn then s.sfnRes x f
  else if code = opSort then s.sortRes f
  else if code = opRng then s.rngRes x f
  else if code = opPool then s.poolRes x f
  else if code = opResize then s.resizeRes x f
  else if code = opAttn then s.attnRes x f r
  else if code = opAttnb then s.attnbRes x f
  else s.pscoreRes f r

/-- A `RNG` with `RESEED` seeds its stream (R313, R317, R321). -/
def ArrayState.reseed (x : ArrayState) (a : Nat) (f : Flight) : ArrayState :=
  let w := f.word
  if f.code = opRng ∧ modBit w 3 then
    if modBit w 2 then x.setKey (fieldAt w 0x10 0 64) (fieldAt w 0xA 0 4) (half16 w 0x18) (half16 w 0x1A)
    else x.seedLanes a (fieldAt w 0x10 0 64)
  else x

/-- The elements that draw, and the lane-keyed words of each (R172, R315). -/
def Flight.runDraws (f : Flight) : Nat × Nat :=
  let code := f.code
  let size (l : List Nat) : Nat := l.foldl (fun n sl => n + match f.op? sl with | some o => o.size | none => 0) 0
  if code = opRng then ((f.op 8).size, if modBit f.word 2 then 0 else distWords (fieldAt f.word 1 0 2))
  else if code = opSort ∨ code = opPscore then (0, 0)
  else if code = opVec then (size [0xE], laneDraws (f.chain? 0x10) f.rnd)
  else if code = opRow then (size [0xA], laneDraws f.rowChain f.rnd)
  else if code = opAttn then (size [0xA], laneDraws (f.chain? 0x14) f.rnd)
  else if code = opAttnb then (size [0x14, 0x16, 0x18], laneDraws none f.rnd)
  else (size [0xA], laneDraws none f.rnd)

/-- An instruction without Trellis rows runs and completes. None while it waits for the session command port, or a channel holds what it
reads or writes. -/
def State.runWhole (s : State) (a : Nat) (f : Flight) : Option State :=
  if s.heldRuns (s.readRuns f) then none else match s.runFault f with
  | some e => some (s.faultFlight a f e)
  | none =>
    let x := f.seedStreams a ((s.array a).reseed a f)
    let res := s.runRes x f
    let d := f.runDraws
    let x1 := s.lanesAfter f x d.1 d.2
    (s.putBytes (s.storeBytes res.stores) []).map fun s1 =>
      ((s1.modArray a fun y => { (((x1.freeWeights f).formRows res.rows).setFlags res.flags) with flights := y.flights }).fresh).finish a f

/-- An array `COPY` completes: into this module's memory, or as writes to module `DST_NODE` (R139, R140). Each destination row
forms its status word (R230). -/
def State.runCopy (s : State) (a : Nat) (f : Flight) : Option State :=
  let c := f.copySpec
  let rows := s.copyRowFlags c
  let written :=
    if s.heldRuns c.runs.1 then none
    else if modBit f.word 2 then
      let d := (f.op 0xA).word
      some (s.copyAway { agent := a, node := fieldAt f.word 0xC 0 14, handle := tHandle d, place := f.place, issued := f.issued }
        { c with dst := tOffset d })
    else s.putBytes (s.storeBytes (s.copyStores c)) (s.copyPoison c)
  written.map fun s1 => ((s1.modArray a fun x => x.formRows rows).finish a f).fresh

/-- A `TLOAD` has loaded its image into the shadow bank; without `SWAP` it completes (R128, R240). -/
def State.runTload (s : State) (a : Nat) (f : Flight) : State :=
  let o := f.op 8
  match s.poisonIn o.base (4 * o.e 0) with
  | some p => s.faultFlight a f { code := cMemPoison, desc := some o.index, field := 8, d1 := p }
  | none =>
    let bank := tabulate (o.e 0) fun i => s.rdElem o i 0 0 0
    let s1 := (s.modArray a fun x => { x with banks := mapPut (2 * fieldAt f.word 1 0 3 + 1) bank x.banks }).fresh
    if modBit f.word 3 then s1.modFlight a f.place fun g => { g with loaded := true } else s1.finish a f

/-- `CTXSAVE` or `CTXLOAD` runs (R129, R130): an access fault, a poisoned or malformed image, or the image's effect. -/
def State.runContext (s : State) (a : Nat) (f : Flight) : State :=
  let w := f.word
  let ls := modBit w 0
  let save := f.code = opCtxsave
  match s.checkAccess (fieldAt w 8 0 24) (fieldAt w 0x10 0 48) (ctxBytes ls) save with
  | .error e => s.faultFlight a f { e with field := 8 }
  | .ok addr =>
    if save then
      ((s.wrPoison ((s.ctxImage a ls).map fun e => (addr + e.1, e.2)) (s.ctxPoison a addr ls)).finish a f).fresh
    else match s.poisonIn addr (ctxBytes ls) with
      | some p => s.faultFlight a f { code := cMemPoison, field := 8, d1 := p }
      | none => match s.ctxFault addr ls with
        | some e => s.faultFlight a f e
        | none => ((s.ctxApply a addr ls).finish a f).fresh

/-- Flight `f` of array `a` completes, or takes the next step that its completion needs; none while its conditions do not
hold. -/
def State.completeFlight (s : State) (a : Nat) (f : Flight) : Option State :=
  let held := s.waitHolds a f.place
  let code := f.code
  if code = opCtxsave ∨ code = opCtxload then
    if (s.array a).flights.all (fun g => decide (f.place ≤ g.place)) && !held
        && (s.agent a).signals.all (fun g => !g.insn || decide (f.place < g.place))
        && !s.heldIn (s.addrOf (fieldAt f.word 8 0 24) (fieldAt f.word 0x10 0 48)) (ctxBytes (modBit f.word 0)) then
      some (s.runContext a f) else none
  else if code = opTload then
    let earlier := (s.array a).flights.any fun g =>
      decide (g.place < f.place) && g.code == opTload && fieldAt g.word 1 0 3 == fieldAt f.word 1 0 3
    if f.loaded || earlier || s.heldIn (f.op 8).base (4 * (f.op 8).e 0) then none else some (s.runTload a f)
  else if held then none
  else if f.noop then
    if f.serial then
      (if s.computeTurn a f.place then some ((s.modArray a fun x => x.reseed a f).finish a f) else none)
    else some (s.finish a f)
  else if f.hasRows then
    if (f.next? .copy).isNone && (f.next? .compute).isNone && (f.next? .store).isNone then some (s.finish a f) else none
  else if code = opCopy then s.runCopy a f
  else if code = opKvexp then (if f.posted || !s.exportRoom f then none else some (s.postExport a f))
  else if s.computeTurn a f.place && s.bankReady a f && !(s.array a).paused then (s.runWhole a f).map fun t => t.rowBoundary a
  else none

/-- `INSN_COMPLETE` (R113, R147): flight `k` of array `a`. -/
def execInsnComplete (a k : Nat) (s : State) : Outcome :=
  if s.agentsRun && decide (a < 192) then
    match (s.array a).flights[k]? with
    | some f => .next ((s.completeFlight a f).getD s)
    | none => .next s
  else .next s

/-- `TABLE_SWAP` (R240): the banks switch once the load is complete and every earlier user has ended; the `TLOAD` completes. -/
def execTableSwap (a table : Nat) (s : State) : Outcome :=
  let fl := (s.array a).flights
  match fl.find? fun f => f.code == opTload && fieldAt f.word 1 0 3 == table with
  | none => .next s
  | some f =>
    if s.agentsRun && decide (a < 192) && f.loaded
        && !(fl.any fun g => decide (g.place < f.place) && g.usesTable table) then
      .next ((s.modArray a fun x => x.swapBanks table).finish a f)
    else .next s

end Sys2Proof.Machine
end

