-- ==== Sys2Proof/Machine/Movers.lean ====
section
/-! DEFINITION. Movers (02 R91 to R107, 07 R282 to R285): fetch and the checks of a command, copies, placement, export service
and the control commands. -/
namespace Sys2Proof.Machine

/-! ## Fetch and checks (R97) -/

def mvCopy : Nat := 0x01
def mvPromote : Nat := 0x02
def mvEvict : Nat := 0x03
def mvAlloc : Nat := 0x04
def mvXserve : Nat := 0x06
def mvGsig : Nat := 0x08
def mvGwait : Nat := 0x09
def mvFence : Nat := 0x0A
def mvEnd : Nat := 0x0F

/-- An opcode of Table 02-10. -/
def mvKnown (op : Nat) : Bool := [0x01, 0x02, 0x03, 0x04, 0x06, 0x08, 0x09, 0x0A, 0x0F].contains op

/-- Bytes of a command (Table 02-10). -/
def mvBytes (op : Nat) : Nat := if op = mvCopy then 128 else 64

/-- Bytes of a program's slots at an address cannot be read: outside stack memory, in a stopped stack, or poisoned. -/
def State.slotFault (s : State) (code a n : Nat) : Option FaultInfo :=
  if stackTop < a + n then some { code := code }
  else match s.stoppedIn a n with
    | some _ => some { code := cStackOvertemp }
    | none => (s.poisonIn a n).map fun x => { code := cMemPoison, d1 := x }

/-- A mover's or codec core's next command: the first slot, whose opcode gives the length, then all of it. -/
def State.fetchCmd (s : State) (i code first : Nat) (len : Nat → Nat) : Except FaultInfo Nat :=
  let ip := (s.agent i).ip
  match s.slotFault code ip first with
  | some f => .error f
  | none =>
    let n := len (s.rdByte ip).toNat
    match s.slotFault code ip n with
    | some f => .error f
    | none => .ok (s.rdNat ip n)

/-- Mover `m` may start its next command (R98, R42, R53, R108): none is in execution, no wait, fence or release signal of its
own is in force, and no fault waits at the boundary. -/
def State.moverReady (s : State) (m : Nat) : Bool :=
  let g := s.agent (208 + m)
  s.agentsRun && decide (m < 16) && decide (g.prog = .running) && decide (g.boundary = []) && decide (g.fences = [])
    && decide (g.waits = []) && !(g.signals.any (·.release)) && (s.mover m).cmd.isNone && !s.heldIn g.ip (mvBytes (s.rdByte g.ip).toNat)

/-- Reserved fields of a command: byte offset, bit, width (Tables 02-11 to 02-13). -/
def mvReserved (op : Nat) : List (Nat × Nat × Nat) :=
  if op = mvCopy then [(1, 4, 4), (3, 3, 5), (4, 24, 8), (8, 24, 8), (0xC, 14, 18), (0x10, 48, 16), (0x18, 48, 16),
    (0x30, 48, 16), (0x38, 48, 16), (0x40, 48, 16), (0x48, 48, 16), (0x50, 48, 16), (0x58, 48, 16), (0x64, 17, 15),
    (0x68, 16, 48), (0x70, 0, 128)]
  else if op = mvPromote ∨ op = mvEvict ∨ op = mvAlloc then [(1, 2, 6), (3, 0, 8), (4, 24, 8), (8, 24, 40), (0x10, 48, 16),
    (0x18, 17, 15), (0x1C, 16, 16), (0x20, 0, 256)]
  else if op = mvXserve then [(1, 0, 24), (8, 24, 8), (0xC, 0, 416)]
  else if op = mvGsig then [(1, 2, 6), (2, 0, 16), (4, 17, 15), (8, 14, 18), (0xC, 16, 16), (0x10, 0, 384)]
  else if op = mvGwait then [(1, 1, 7), (2, 0, 16), (4, 17, 15), (0xC, 24, 8), (0x10, 0, 384)]
  else if op = mvFence then [(1, 2, 6), (2, 0, 496)]
  else [(1, 0, 504)]

/-- The signal fields agree: an increment exactly when the gate is signalled. -/
def sigBad (en : Bool) (inc : Nat) : Bool := en == decide (inc = 0)

/-- Fields of a command outside their stated ranges, at their offsets (R97, R101, R105, R154, R168). -/
def mvBad (op w : Nat) : List (Nat × Bool) :=
  if op = mvCopy then
    let int4 := fieldAt w 2 0 4 = 3 ∨ fieldAt w 2 4 4 = 3
    let bad (f : Nat) : Bool := decide (f = 0 ∨ 10 < f)
    [(1, int4 && modBit w 0), (2, bad (fieldAt w 2 0 4) || bad (fieldAt w 2 4 4)), (3, decide (4 < fieldAt w 3 0 3)),
     (0xC, !modBit w 2 && decide (fieldAt w 0xC 0 14 ≠ 0)), (0x20, int4 && decide (fieldAt w 0x20 0 32 % 2 = 1)),
     (0x60, decide (fieldAt w 0x60 16 16 = 0)), (0x68, sigBad (modBit w 3) (half16 w 0x68))]
  else if op = mvPromote ∨ op = mvEvict ∨ op = mvAlloc then
    let status := fieldAt w 0x10 0 48
    [(1, decide (op ≠ mvAlloc) && modBit w 1), (8, decide (op = mvEvict) && decide (fieldAt w 8 0 24 ≠ 0)),
     (0x10, decide (status % 8 ≠ 0 ∨ stackTop ≤ status)), (0x1C, sigBad (modBit w 0) (half16 w 0x1C))]
  else if op = mvXserve then [(4, decide (fieldAt w 4 0 32 = 0))]
  else if op = mvGsig then
    [(8, !modBit w 1 && decide (fieldAt w 8 0 14 ≠ 0)), (0xC, decide (half16 w 0xC = 0))]
  else []

/-- The first non-zero reserved field of a list, by its offset. -/
def firstReserved (w : Nat) (l : List (Nat × Nat × Nat)) : Option Nat :=
  (l.find? fun e => decide (fieldAt w e.1 e.2.1 e.2.2 ≠ 0)).map (·.1)

/-- The fault of a command's own fields. -/
def mvFault (op w : Nat) : Option FaultInfo :=
  match firstReserved w (mvReserved op) with
  | some o => some (fieldFault cMoverReserved o 0)
  | none => (lowestBad (mvBad op w)).map fun o => fieldFault cMoverOperand o 0

/-- The command at the mover's address faults before it acts. -/
def State.faultCmd (s : State) (m op : Nat) (f : FaultInfo) : State := s.faultMover m f op (s.agent (208 + m)).ip

/-- The next command begins at the following slots. -/
def State.skipSlots (s : State) (i n : Nat) : State := s.modAgent i fun g => { g with ip := g.ip + n }

/-- A mover starts a command of opcode `op`: its fields are checked, then it acts with its slots passed; the start of one that
stays in execution can be held (R410). -/
def State.moverStart (s : State) (m op : Nat) (act : Nat → Nat → State → Except FaultInfo State) : Outcome :=
  if s.moverReady m then
    match s.fetchCmd (208 + m) cMoverFetch 64 mvBytes with
    | .error _ => .next s
    | .ok w =>
      if w % 256 = op then
        match mvFault op w with
        | some f => .next (s.faultCmd m op f)
        | none => match act w (s.agent (208 + m)).ip (s.skipSlots (208 + m) (mvBytes op)) with
          | .error f => .next (s.faultCmd m op f)
          | .ok s1 => .next (if (s1.mover m).cmd.isSome then s.startOr (208 + m) 40000 s1 else s1)
      else .next s
  else .next s

/-- A command of mover `m` is complete (R419). -/
def State.moverDone (s : State) (m : Nat) : State := s.progress (208 + m)

/-- A signal of a mover: `place` is 0, since a mover's earlier command has ended when the next one starts. -/
def State.cmdSignal (s : State) (i gate inc : Nat) (release : Bool) (node : Option Nat) : State :=
  s.issueSignal i { gate := gate, inc := inc, release := release, node := node, place := 0 }

/-! ## COPY (R100 to R103) -/

/-- The copy of a mover's `COPY` whose first elements lie at `src` and `dst`. -/
def mvCopySpec (w src dst : Nat) : CopySpec :=
  { src := src, dst := dst, srcFmt := (Fmt.ofCode (fieldAt w 2 0 4)).getD .fp32,
    dstFmt := (Fmt.ofCode (fieldAt w 2 4 4)).getD .fp32,
    d0 := fieldAt w 0x20 0 32, d1 := fieldAt w 0x24 0 32, d2 := fieldAt w 0x28 0 32, d3 := fieldAt w 0x2C 0 32,
    srcS := [fieldAt w 0x30 0 48, fieldAt w 0x38 0 48, fieldAt w 0x40 0 48],
    dstS := [fieldAt w 0x48 0 48, fieldAt w 0x50 0 48, fieldAt w 0x58 0 48],
    transpose := modBit w 0, skew := modBit w 1, step := half16 w 0x60, period := half16 w 0x62, rnd := fieldAt w 3 0 3 }

/-- Address and bytes of each element at one end of a copy, in the order of R101. -/
def CopySpec.places (c : CopySpec) (atSource : Bool) : List (Nat × Nat) :=
  (List.range c.count).map fun n =>
    if atSource then (c.srcBit (c.index n) / 8, c.srcFmt.bytes) else (c.dstBit (c.index n) / 8, c.dstFmt.bytes)

/-- The check of one end of a copy, element by element in the order of R101, before any write (R102; log 30): the device
address of its first element. The session command port takes one copy of exactly its 64 bytes (R258). -/
def State.checkEnd (s : State) (h off : Nat) (places : List (Nat × Nat)) (write : Bool) : Except FaultInfo Nat :=
  let last := places.foldl (fun m e => max m (e.1 + e.2)) 0 - 1
  let one (e : Nat × Nat) : Option FaultInfo := match s.checkAccess h e.1 e.2 write with
    | .error f => some (if f.code = cStackOvertemp ∨ f.code = cAddrUnmapped ∨ f.code = cIceWrite then f else { f with d2 := last })
    | .ok _ => none
  let port := decide (h = 0 ∧ off = sessionPortAddr ∧ last = off + 63) && write
    && decide ((places.foldl (fun n e => n + e.2) 0) = 64)
  match if port then none else places.findSome? one with
  | some f => .error f
  | none => .ok (s.addrOf h off)

/-- The check of a destination on another module, before any write: an element past the 48 bits of an offset or address (R62, R102). -/
def farEnd (h : Nat) (places : List (Nat × Nat)) : Option FaultInfo :=
  let last := places.foldl (fun m e => max m (e.1 + e.2)) 0 - 1
  (places.find? fun e => decide (2 ^ 48 < e.1 + e.2)).map fun e =>
    if h = 0 then { code := cAddrUnmapped, d1 := max e.1 (2 ^ 48) } else { code := cObjBound, d0 := h, d1 := e.1, d2 := last }

/-- `COPY` starts: its handles are pinned and its ends checked; with an extent of 0 it completes at once (R102). -/
def State.startCopy (s : State) (m w addr : Nat) : Except FaultInfo State :=
  let sh := fieldAt w 4 0 24
  let dh := fieldAt w 8 0 24
  let so := fieldAt w 0x10 0 48
  let do_ := fieldAt w 0x18 0 48
  let c := mvCopySpec w so do_
  let remote := modBit w 2
  if c.count = 0 then
    let s1 := if modBit w 3 then s.cmdSignal (208 + m) (fieldAt w 0x64 0 17) (half16 w 0x68) true none else s
    .ok (s1.moverDone m)
  else
    let handles := ((if remote then [sh] else [sh, dh]).filter fun h => decide (h ≠ 0)).eraseDups
    match s.pinFault handles with
    | some f => .error f
    | none => match s.checkEnd sh so (c.places true) false with
      | .error f => .error f
      | .ok src => match if remote then ((farEnd dh (c.places false)).map .error).getD (.ok do_)
            else s.checkEnd dh do_ (c.places false) true with
        | .error f => .error f
        | .ok dst =>
          let pins := (handles.map handleIndex).eraseDups
          .ok ((s.takePins pins).modMover m fun x => { x with cmd := some (.copy addr w src dst pins), since := s.sundial })

/-- `MOVER_COPY`: a mover starts `COPY`. -/
def execMoverCopy (m : Nat) (s : State) : Outcome := s.moverStart m mvCopy fun w addr s => s.startCopy m w addr

/-- A mover's copy has finished writing, or has sent its writes (R101, R103); none while it waits for the session port. -/
def State.copyDone (s : State) (m w src dst : Nat) (pins : List Nat) : Option State :=
  let c := mvCopySpec w src dst
  let written :=
    if modBit w 2 then some (s.copyAway
      { agent := 208 + m, node := fieldAt w 0xC 0 14, handle := fieldAt w 8 0 24, place := 0, issued := (s.mover m).since } c)
    else s.putBytes (s.storeBytes (s.copyStores c)) (s.copyPoison c)
  written.map fun s1 =>
    let s2 := ((s1.fresh.modMover m fun x => { x with cmd := none }).releasePins pins).moverDone m
    if modBit w 3 then s2.cmdSignal (208 + m) (fieldAt w 0x64 0 17) (half16 w 0x68) true none else s2

/-- The bytes `a` to `a + n − 1` become zeros. -/
def Mem.zero (mem : Mem) (a n : Nat) : Mem :=
  { mem with
    cells := (mem.cells.filter fun e => decide (e.1 < a)) ++ (tabulate n fun i => (a + i, (0 : Byte)))
      ++ (mem.cells.filter fun e => decide (a + n ≤ e.1)),
    poison := mem.poison.filter fun u => decide (64 * u < a) || decide (a + n ≤ 64 * u) }

/-- The command of mover `m` that placed an object has done its work: it reports and completes, or faults where R64 or R75 refuses
its outcome record (R105). -/
def State.placementDone (s : State) (m op addr : Nat) (r : Report) : State :=
  match s.reportFault r with
  | some f => s.faultMover m f op addr
  | none => ((s.modMover m fun x => { x with cmd := none }).report r outDone true).moverDone m

/-- An `ALLOC` with `ZERO` has written its extent, unless an eviction has freed it meanwhile (R105). -/
def State.zeroDone (s : State) (m addr : Nat) (r : Report) (object : Nat) : State :=
  let o := s.obj object
  let s1 := if o.st.reachable then { s with mem := s.mem.zero (o.base * 65536) (o.blocks * 65536) } else s
  s1.placementDone m mvAlloc addr r

/-- A raw destination of a `COPY` in this module that has become read-only (R64). -/
def State.copyRefused (s : State) (w src dst : Nat) : Option FaultInfo :=
  if modBit w 2 ∨ fieldAt w 8 0 24 ≠ 0 then none else s.roWritten ((mvCopySpec w src dst).places false)

/-- The ranges that the completion of a mover's command accesses, but for what a copy writes: a copy's source, a placement's extent and
its outcome record. -/
def State.moverRuns (s : State) : MoverCmd → List (Nat × Nat)
  | .copy _ w src dst _ => (mvCopySpec w src dst).places true
  | .promote _ r i => [((s.obj i).base * 65536, (s.obj i).size), (r.status, if r.status = 0 then 0 else 8)]
  | .zero _ r i => [((s.obj i).base * 65536, (s.obj i).blocks * 65536), (r.status, if r.status = 0 then 0 else 8)]
  | .xserve .. => []

/-- The command of mover `m` completes no access yet: a channel holds one of them (R414, R426). -/
def State.moverHeld (s : State) (m : Nat) : Bool := s.heldRuns (((s.mover m).cmd.map s.moverRuns).getD [])

/-- `MOVER_COPY_COMPLETE` (R64, R101, R102, R105). -/
def execMoverCopyComplete (m : Nat) (s : State) : Outcome :=
  if s.agentsRun && decide (m < 16) && !s.moverHeld m then
    match (s.mover m).cmd with
    | some (.copy addr w src dst pins) => match s.copyRefused w src dst with
      | some f => .next (s.faultMover m f mvCopy addr)
      | none => .next ((s.copyDone m w src dst pins).getD s)
    | some (.zero addr r object) => .next (s.zeroDone m addr r object)
    | _ => .next s
  else .next s

/-! ## Placement (R91 to R96, R104, R105) -/

/-- What completes a placement command. -/
def placeReport (m w : Nat) : Report :=
  { agent := 208 + m, handle := fieldAt w 4 0 24, status := fieldAt w 0x10 0 48,
    signal := if modBit w 0 then some (fieldAt w 0x18 0 17, half16 w 0x1C) else none }

/-- The outcome record's address cannot be written, or the handle names no object (R62, R64, R83). -/
def State.placeFault (s : State) (w : Nat) : Option FaultInfo :=
  let status := fieldAt w 0x10 0 48
  let h := fieldAt w 4 0 24
  match if status = 0 then none else s.checkBlocks 0 status 8 true with
  | some f => some f
  | none => (s.handleFault h).map fun c => { code := c, d0 := h }

/-- Why an ABSENT object cannot be placed for domain `d` at block `base` (R66, R75, R89, R96, R105, Table 02-9). -/
def State.extentFault (s : State) (h d base : Nat) : Option FaultInfo :=
  let o := s.obj (handleIndex h)
  if 0x1000000 < base + o.blocks then some (fieldFault cMoverOperand 8 0)
  else if o.damaged then some { code := cObjDamaged }
  else if 20 < o.salt / 128 then some { code := cObjSalt }
  else if s.extentBusy base o.blocks then some { code := cStackExtentBusy }
  else match s.stoppedIn (base * 65536) (o.blocks * 65536) with
    | some _ => some { code := cStackOvertemp }
    | none => if (s.quota d).stackLimit < (s.quota d).stackUsed + o.blocks then some { code := cQuotaExceeded } else none

/-- A placement command that completes at once. -/
def State.atOnce (s : State) (m w outcome : Nat) : State := (s.report (placeReport m w) outcome true).moverDone m

/-- An eviction is held on object `i`: superseded while the object is PROMOTING or RETAINING (R92). -/
def State.holdEvict (s : State) (m w i : Nat) (st : ObjState) : State :=
  (s.modObj i fun o => { o with st := st, held := o.held ++ [placeReport m w] }).moverDone m

/-- The charge of an object moves to domain `d` (R93). -/
def State.moveCharge (s : State) (o : Obj) (d : Nat) : State := if o.charge = d then s else (s.uncharge o).chargeTo d o

/-- A promotion of object `o`, entry `i`, of handle `h` into domain `d` at block `base`, by its state (Table 02-9). The charge
moves (R93) from EVICTING only, not where PROMOTING or RETAINING objects hold evictions: DESIGN CHOICE (log 131). -/
def State.promoteFrom (s : State) (m w addr h i d base : Nat) (o : Obj) : Except FaultInfo State :=
  if !o.kind then .error (fieldFault cMoverOperand 4 0)
  else match o.st with
    | .absent => match s.extentFault h d base with
      | some f => .error f
      | none => .ok ((s.placeExtent i base d .promoting).modMover m fun x =>
          { x with cmd := some (.promote addr (placeReport m w) i) })
    | .promoting => .ok ((s.modObj i fun o => { o with joined := o.joined ++ [placeReport m w] }).moverDone m)
    | .evicting =>
      -- R93: the charge moves to the domain whose promotion supersedes the eviction
      if o.charge ≠ d ∧ (s.quota d).stackLimit < (s.quota d).stackUsed + o.blocks then .error { code := cQuotaExceeded }
      else .ok (((s.moveCharge o d).modObj i fun o => { o with st := .retaining, charge := d }).atOnce m w outJoined)
    | _ => .ok (s.atOnce m w outJoined)

/-- `PROMOTE` by Table 02-9. -/
def State.promote (s : State) (m w addr : Nat) : Except FaultInfo State :=
  match s.placeFault w with
  | some f => .error f
  | none =>
    let h := fieldAt w 4 0 24
    s.promoteFrom m w addr h (handleIndex h) (fieldAt w 2 0 8) (fieldAt w 8 0 24) (s.obj (handleIndex h))

/-- `PROMOTE` starts. -/
def execPromote (m : Nat) (s : State) : Outcome := s.moverStart m mvPromote fun w addr s => s.promote m w addr

/-- `EVICT` by Table 02-9. -/
def State.evict (s : State) (m w : Nat) : Except FaultInfo State :=
  match s.placeFault w with
  | some f => .error f
  | none =>
    let i := handleIndex (fieldAt w 4 0 24)
    let o := s.obj i
    match o.st with
    | .absent => .ok (s.atOnce m w outNoop)
    | .promoting => .ok (s.holdEvict m w i .promoting)
    | .resident =>
      if o.pins = 0 then .ok ((s.makeAbsent i).atOnce m w outDone) else .ok (s.holdEvict m w i .evicting)
    | .evicting => .ok (s.holdEvict m w i .evicting)
    | .retaining => .ok (s.holdEvict m w i .retaining)

/-- `EVICT` starts. -/
def execEvict (m : Nat) (s : State) : Outcome := s.moverStart m mvEvict fun w _ s => s.evict m w

/-- An allocation for object `o`, entry `i`, of handle `h` in domain `d` at block `base`, by its state (Table 02-9). -/
def State.allocFrom (s : State) (m w addr h i d base : Nat) (o : Obj) : Except FaultInfo State :=
  if o.kind then .error (fieldFault cMoverOperand 4 0)
  else match o.st with
    | .absent => match s.extentFault h d base with
      | some f => .error f
      | none =>
        if modBit w 1 then .ok ((s.placeExtent i base d .resident).modMover m fun x =>
          { x with cmd := some (.zero addr (placeReport m w) i) })
        else .ok ((s.placeExtent i base d .resident).atOnce m w outDone)
    | .evicting => .error { code := cObjEvicting, d0 := h }
    | _ => .ok (s.atOnce m w outNoop)

/-- `ALLOC` by Table 02-9. -/
def State.alloc (s : State) (m w addr : Nat) : Except FaultInfo State :=
  match s.placeFault w with
  | some f => .error f
  | none =>
    let h := fieldAt w 4 0 24
    s.allocFrom m w addr h (handleIndex h) (fieldAt w 2 0 8) (fieldAt w 8 0 24) (s.obj (handleIndex h))

/-- `ALLOC` starts. -/
def execAlloc (m : Nat) (s : State) : Outcome := s.moverStart m mvAlloc fun w addr s => s.alloc m w addr

/-- The stripes of object `i` are copied to its extent: the bytes its provisions wrote, and its units' poison (R73, R95). -/
def State.copyStripes (s : State) (i : Nat) : State :=
  let o := s.obj i
  let from_ := iceBase + o.stripe * 262144
  let dst0 := o.base * 65536
  let cells := (s.mem.cells.filter fun e => decide (from_ ≤ e.1) && decide (e.1 < from_ + o.size)).map
    fun e => (dst0 + (e.1 - from_), e.2)
  let units := (List.range (ceilDiv o.size 64)).filter fun u => s.unitPoisoned (from_ / 64 + u)
  (s.wrPoison cells (units.map fun u => dst0 / 64 + u)).fresh

/-- `PROMOTION_COPY_DONE` (R91, R92). -/
def execPromotionCopyDone (m : Nat) (s : State) : Outcome :=
  if s.agentsRun && decide (m < 16) && !s.moverHeld m then
    match (s.mover m).cmd with
    | some (.promote addr r i) => .next (((s.copyStripes i).promotionDone i).placementDone m mvPromote addr r)
    | _ => .next s
  else .next s

/-! ## Control commands (R106, R107) -/

/-- `MOVER_GSIG` (R37 to R50). -/
def execMoverGsig (m : Nat) (s : State) : Outcome :=
  s.moverStart m mvGsig fun w _ s =>
    .ok ((s.cmdSignal (208 + m) (fieldAt w 4 0 17) (half16 w 0xC) (modBit w 0)
      (if modBit w 1 then some (fieldAt w 8 0 14) else none)).moverDone m)

/-- `MOVER_GWAIT` (R41 to R45): the mover starts nothing more until the wait completes. -/
def execMoverGwait (m : Nat) (s : State) : Outcome :=
  s.moverStart m mvGwait fun w addr s =>
    let target := BitVec.ofNat 32 (fieldAt w 8 0 32)
    let s1 := s.issueWait (208 + m) (fieldAt w 4 0 17) target (fieldAt w 0xC 0 24) (modBit w 0) 0 addr
    .ok (if reached (s.gate (fieldAt w 4 0 17)).value target then s1.moverDone m else s1)

/-- `MOVER_FENCE` (R53). -/
def execMoverFence (m : Nat) (s : State) : Outcome :=
  s.moverStart m mvFence fun w addr s =>
    .ok (s.modAgent (208 + m) fun g => { g with fences := g.fences ++ [{ scope := fieldAt w 1 0 2, place := 0, addr := addr }] })

/-- `MOVER_END` (R35, R97): the program's global fence starts. -/
def execMoverEnd (m : Nat) (s : State) : Outcome :=
  s.moverStart m mvEnd fun _ addr s =>
    .ok ((s.modAgent (208 + m) fun g => { g with
      prog := .ending, fences := g.fences ++ [{ scope := 3, place := 0, addr := addr }] }).moverDone m)

/-- `MOVER_OPCODE` (R97): the mover's next slots cannot be fetched or hold no opcode of Table 02-10. -/
def execMoverOpcode (m : Nat) (s : State) : Outcome :=
  if s.moverReady m then
    let op := (s.rdByte (s.agent (208 + m)).ip).toNat
    match s.fetchCmd (208 + m) cMoverFetch 64 mvBytes with
    | .error f => .next (s.faultCmd m op f)
    | .ok w => if mvKnown (w % 256) then .next s else .next (s.faultCmd m (w % 256) { code := cMoverOpcode })
  else .next s

/-! ## Export service (R106, R282 to R285, R397) -/

/-- `XSERVE` starts. -/
def execXserve (m : Nat) (s : State) : Outcome :=
  s.moverStart m mvXserve fun w addr s =>
    let t := fieldAt w 8 0 24
    let c : MoverCmd := .xserve addr (fieldAt w 4 0 32) s.sundial (if t = 0 then (s.agent (208 + m)).gateTimeout else t)
    .ok (s.modMover m fun x => { x with cmd := some c })

/-- One bit of the reflected CRC-32C (R285). -/
def crcBit (c : Nat) : Nat := if c % 2 = 1 then Nat.xor (c / 2) 0x82F63B78 else c / 2

/-- CRC-32C of a byte string (R285). -/
def crc32c (l : List Byte) : Nat :=
  Nat.xor 0xFFFFFFFF (l.foldl (fun c b => (List.range 8).foldl (fun c _ => crcBit c) (Nat.xor c b.toNat)) 0xFFFFFFFF)

/-- The addresses of the units that a frame's payload carries: the page's slots, then the summary (R285). -/
def State.frameUnits (s : State) (j : ExportJob) (page : Nat) : List Nat :=
  let r := j.snap
  let slots := s.addrOf r.cache (s.pageOff r j.layer page)
  let sum := s.addrOf r.belv (summaryOff r j.layer page)
  (tabulate (frameTokens r page * r.slotBytes / 64) fun u => slots + 64 * u)
    ++ (if r.belv = 0 then [] else [sum, sum + 64])

/-- A frame's bytes, and whether a poisoned unit went as zeros (R284, R285): a poisoned unit of the summary counts as one of the
page, and of units that a piece of 64 bytes straddles, that of its first byte decides (log 153). -/
def State.frame (s : State) (j : ExportJob) : List Byte × Bool :=
  let r := j.snap
  let page := j.first + j.sent
  let units := s.frameUnits j page
  let bad (u : Nat) : Bool := s.unitPoisoned (u / 64)
  let payload := units.flatMap fun u => if bad u then List.replicate 64 (0 : Byte) else s.rdBytes u 64
  let poison := units.any bad
  let flags := (if j.last ∧ j.sent + 1 = j.count then 1 else 0) + (if poison then 2 else 0) + (if r.belv = 0 then 0 else 4)
  let head := leBytes 60 (packed [(0, 0, 32, 0x31464543), (4, 0, 16, 1), (6, 0, 16, 64), (8, 0, 32, 64 + payload.length),
    (0xC, 0, 32, j.stream), (0x10, 0, 32, j.sent), (0x14, 0, 32, j.count), (0x18, 0, 14, s.link.nodeId),
    (0x1A, 0, 14, j.session), (0x1C, 0, 8, r.gen), (0x1D, 0, 3, flags), (0x1E, 0, 8, j.layer),
    (0x1F, 0, 8, frameTokens r page), (0x20, 0, 32, page), (0x24, 0, 16, r.latent), (0x26, 0, 8, r.rope),
    (0x27, 0, 4, r.fmt), (0x27, 4, 4, if r.fmt = 6 then 6 else 7), (0x28, 0, 16, r.slotBytes), (0x2C, 0, 32, payload.length),
    (0x30, 0, 64, s.sundial.toNat), (0x38, 0, 32, crc32c payload)])
  (head ++ leBytes 4 (crc32c head) ++ payload, poison)

/-- Mover `m` gives a frame to port `p` as `EXPORT` transactions of up to 4 KiB (R397). -/
def State.sendFrame (s : State) (m p : Nat) (j : ExportJob) (frame : List Byte) : State :=
  (List.range (ceilDiv frame.length 4096)).foldl (fun s k =>
    let part := (frame.drop (4096 * k)).take 4096
    let h : Hdr :=
      { hdrOf tExport with
        dst := j.node, src := s.link.nodeId, w1 := j.stream, w2 := ceilDiv part.length 64 + 4096 * k * 2 ^ 32 }
    s.send p { hdr := h, data := placed 0 part, flow := 0x300 + m }) s

/-- The port that a job's frames take (R397, R379): the one route of the job, or none on this module's own node. -/
def State.jobPort (s : State) (j : ExportJob) : Except Nat (Option Nat) :=
  if !s.link.nodeValid then .error cRouteNone
  else if j.node = s.link.nodeId then .ok none
  else match j.port with
    | some p => if s.usable p then .ok (some p) else .error cLinkLost
    | none => match s.routePort j.node with
      | .ok p => .ok (some p)
      | .error c => .error c

/-- The first refusal of a frame's reads, of the slots and then of the summary (R75, R86, R265). -/
def State.frameRefused (s : State) (j : ExportJob) : Option FaultInfo :=
  let r := j.snap
  let page := j.first + j.sent
  let read (h off n : Nat) : Option FaultInfo := match s.checkAccess h off n false with
    | .error f => some f
    | .ok _ => none
  firstFault [read r.cache (s.pageOff r j.layer page) (frameTokens r page * r.slotBytes),
    if r.belv = 0 then none else read r.belv (summaryOff r j.layer page) 128]

/-- A job ends as its last frame is sent: its pins are released and its `KVEXP` completes (R282). -/
def State.jobDone (s : State) (j : ExportJob) : State :=
  let s1 := s.releasePins j.pins
  match (s1.array j.array).flights.find? fun f => decide (f.place = j.place) with
  | some f => s1.finish j.array f
  | none => s1.modSession j.session fun r => { r with pins := r.pins - 1 }

/-- The mover has sent one frame of its `XSERVE`; the last one completes the command. -/
def State.servedFrame (s : State) (m addr left timeout : Nat) : State :=
  (s.modMover m fun x => { x with cmd := if left = 1 then none else some (.xserve addr (left - 1) s.sundial timeout) }).moverDone m

/-- The frame of mover `m`'s job has been transmitted; its last one ends the job (R282). -/
def State.frameSent (s : State) (m : Nat) : State :=
  match (s.mover m).cmd, (s.mover m).jobs with
  | some (.xserve addr left _ timeout), j :: rest =>
    let ends := decide (j.sent + 1 = j.count)
    let s1 := s.modMover m fun x => { x with
      jobs := if ends then rest else { j with sent := j.sent + 1, under := false } :: rest }
    (if ends then s1.jobDone j else s1).servedFrame m addr left timeout
  | _, _ => s

/-- The frames whose last part has left port `p` have been transmitted. -/
def State.settleFrames (s : State) (p : Nat) : State :=
  (List.range 16).foldl (fun s m => match (s.mover m).jobs with
    | j :: _ => if j.under ∧ j.port = some p ∧ !(s.port p).out.any (fun t => decide (t.flow = 0x300 + m)) then s.frameSent m else s
    | [] => s) s

/-- The next frame's page or summary lies in a channel that holds its requests (R414, R426). -/
def State.pageHeld (s : State) (j : ExportJob) : Bool := s.heldRuns ((s.frameUnits j (j.first + j.sent)).map fun u => (u, 64))

/-- A changed route toward the job's node waits for the transactions that left under the old entry (R381). -/
def State.jobHeld (s : State) (j : ExportJob) : Bool := j.port.isNone && s.link.holds.any fun e => decide (e.1 = j.node)

/-- `EXPORT_FRAME` (R282 to R285, R381, R397): the mover begins the next frame of its oldest job, once the frame before it has
been transmitted; a frame to this module's own node never leaves it. -/
def execExportFrame (m : Nat) (s : State) : Outcome :=
  if s.agentsRun && decide (m < 16) then
    match (s.mover m).cmd, (s.mover m).jobs with
    | some (.xserve addr _ _ _), j :: rest =>
      if j.under || s.jobHeld j || s.pageHeld j then .next s
      else match s.frameRefused j with
      | some f => .next (s.faultMover m f mvXserve addr)
      | none => match s.jobPort j with
        | .error c => .next (State.endJob m c (s.setJobs m rest) j)
        | .ok port =>
          let f := s.frame j
          let s1 := if f.2 then s.logEvent cExportPoison (srcAgent (208 + m)) 0 j.session j.layer (j.first + j.sent) else s
          let s2 := s1.fresh.modMover m fun x => { x with jobs := { j with port := port, under := port.isSome } :: rest }
          .next (match port with
            | some p => s2.sendFrame m p j f.1
            | none => s2.frameSent m)
    | _, _ => .next s
  else .next s

/-- `XSERVE_TIMEOUT` (R106). -/
def execXserveTimeout (m : Nat) (now : Word64) (s : State) : Outcome :=
  match s.at? now with
  | none => .next s
  | some s1 => match (s.mover m).cmd, (s.mover m).jobs with
    | some (.xserve addr _ since timeout), [] =>
      if s.agentsRun && decide (m < 16) && decide (usTicks timeout ≤ now.toNat - since.toNat) then
        .next (s1.faultMover m { code := cXserveTimeout } mvXserve addr)
      else .next s
    | _, _ => .next s

end Sys2Proof.Machine
end

