-- ==== Sys2Proof/Machine/Codecs.lean ====
section
/-! DEFINITION. The video codec (11 R343 to R367): fetch and the checks of a command, stream contexts, encode and decode frame
commands with rate control, and the control commands. Coded bytes and decoded samples are opaque functions (log 8). -/
namespace Sys2Proof.Machine

def cdOpen : Nat := 0x10
def cdEnc : Nat := 0x11
def cdDec : Nat := 0x12
def cdClose : Nat := 0x13

/-- Cores 4 and 5 decode. -/
def decodes (c : Nat) : Bool := decide (4 ≤ c)

/-- An opcode of Table 11-3 that core `c` executes. -/
def cdKnown (c op : Nat) : Bool :=
  [0x08, 0x09, 0x0A, 0x0F, 0x10, 0x13].contains op || op == (if decodes c then cdDec else cdEnc)

def cdBytes (op : Nat) : Nat := if op = cdOpen then 128 else 64

/-- Reserved fields of a command (Tables 02-13, 11-4, 11-5, R359). -/
def cdReserved (op : Nat) : List (Nat × Nat × Nat) :=
  if op = cdOpen then [(1, 6, 2), (2, 6, 2), (0x15, 0, 8), (0x24, 24, 8), (0x28, 48, 16), (0x30, 0, 64), (0x38, 17, 15),
    (0x3C, 16, 16), (0x40, 0, 512)]
  else if op = cdEnc then [(1, 3, 1), (1, 6, 2), (2, 6, 2), (3, 7, 1), (8, 24, 8), (0xC, 24, 8), (0x10, 48, 16),
    (0x18, 48, 16), (0x2C, 17, 15), (0x30, 48, 16), (0x38, 48, 16)]
  else if op = cdDec then [(1, 2, 6), (2, 6, 2), (3, 0, 8), (8, 24, 8), (0xC, 24, 8), (0x10, 48, 16), (0x18, 48, 16),
    (0x2C, 17, 15), (0x30, 0, 64), (0x38, 48, 16)]
  else if op = cdClose then [(1, 6, 2), (2, 6, 2), (3, 0, 424), (0x38, 17, 15), (0x3C, 16, 16)]
  else mvReserved op

/-! ## OPEN's fields (R344, R354 to R356) -/

def oWidth (w : Nat) : Nat := half16 w 4
def oHeight (w : Nat) : Nat := half16 w 6
def oHevc (w : Nat) : Bool := modBit w 1
def oDeep (w : Nat) : Bool := modBit w 2
/-- The highest quantiser of R355. -/
def oTop (w : Nat) : Nat := if oHevc w then 51 + (if oDeep w then 12 else 0) else 255
/-- The lowest quantiser of R355. -/
def oLow (w : Nat) : Nat := if oHevc w then 0 else 1
def oCq (w : Nat) : Nat := fieldAt w 0x10 0 8
def oQmax (w : Nat) : Nat := fieldAt w 0x11 0 8
def oInitQ (w : Nat) : Nat := fieldAt w 0x12 0 8
def oPeriod (w : Nat) : Nat := fieldAt w 0x13 0 8
def oReorder (w : Nat) : Bool := decide (fieldAt w 1 3 2 = 1)
/-- Frames of a mini-GOP; 1 under `LOW_DELAY`. -/
def oGop (w : Nat) : Nat := 2 ^ fieldAt w 0x14 0 8
def oKeyInt (w : Nat) : Nat := half16 w 0x16
def oRate (w : Nat) : Nat := fieldAt w 0x18 0 32
def oBuf (w : Nat) : Nat := fieldAt w 0x1C 0 32
def oFull (w : Nat) : Nat := fieldAt w 0x20 0 32
def oPool (w : Nat) : Nat := fieldAt w 0x24 0 24
def oPoolOff (w : Nat) : Nat := fieldAt w 0x28 0 48
/-- The drain d of R366. -/
def oDrain (w : Nat) : Nat := oRate w * fieldAt w 0xC 0 32 / fieldAt w 8 0 32

/-- Bytes of the pool (R356). -/
def poolBytes (decode : Bool) (w : Nat) : Nat :=
  let pb := oWidth w * oHeight w * 3 / 2 * (if oDeep w then 2 else 1)
  pb * (if decode then (if oHevc w then 17 else 10) else if oReorder w then 5 + oGop w else 5)

/-- Luma samples per picture and per second of the AV1 and HEVC levels (PRESUMED: the two standards' level tables; log 136). -/
def levelTable : List (Bool × Nat × Nat × Nat) :=
  [(false, 0, 147456, 4423680), (false, 1, 278784, 8363520), (false, 4, 665856, 19975680), (false, 5, 1065024, 31950720),
   (false, 8, 2359296, 70778880), (false, 9, 2359296, 141557760), (false, 12, 8912896, 267386880),
   (false, 13, 8912896, 534773760), (false, 14, 8912896, 1069547520), (false, 15, 8912896, 1069547520),
   (false, 16, 35651584, 1069547520), (false, 17, 35651584, 2139095040),
   (true, 30, 36864, 552960), (true, 60, 122880, 3686400), (true, 63, 245760, 7372800), (true, 90, 552960, 16588800),
   (true, 93, 983040, 33177600), (true, 120, 2228224, 66846720), (true, 123, 2228224, 133693440),
   (true, 150, 8912896, 267386880), (true, 153, 8912896, 534773760), (true, 156, 8912896, 1069547520),
   (true, 180, 35651584, 1069547520), (true, 183, 35651584, 2139095040), (true, 186, 35651584, 4278190080)]

/-- The sample limits of a level (R344). -/
def levelLimits (hevc : Bool) (code : Nat) : Nat × Nat :=
  match levelTable.find? fun e => e.1 == hevc && e.2.1 == code with
  | some e => e.2.2
  | none => Config.levelLimit hevc.toNat code

/-- Fields of `OPEN` outside their ranges, at their offsets (Table 11-4, R344, R354). -/
def openFields (decode : Bool) (w : Nat) : List (Nat × Bool) :=
  let lat := fieldAt w 1 3 2
  let wd := oWidth w
  let ht := oHeight w
  [(1, decide (1 < lat) || (decode && decide (lat ≠ 0))), (3, decide ((if oHevc w then 186 else 17) < fieldAt w 3 0 8)),
   (4, decide (wd % 2 = 1 ∨ wd < 16 ∨ 8192 < wd)), (6, decide (ht % 2 = 1 ∨ ht < 16 ∨ 4352 < ht)),
   (8, decide (fieldAt w 8 0 32 = 0)), (0xC, decide (fieldAt w 0xC 0 32 = 0)),
   (0x28, decide (oPoolOff w % 4096 ≠ 0)), (0x3C, sigBad (modBit w 0) (half16 w 0x3C))] ++
  (if decode then (List.range 20).map fun i => (0x10 + i, decide (fieldAt w (0x10 + i) 0 8 ≠ 0))
   else [(0x10, decide (oCq w < oLow w)), (0x13, decide (oPeriod w = 1)),
     (0x14, if oReorder w then decide (fieldAt w 0x14 0 8 = 0 ∨ 3 < fieldAt w 0x14 0 8) else decide (fieldAt w 0x14 0 8 ≠ 0))])

/-- The pool that an encode `OPEN` names is smaller than R356 requires. -/
def State.poolSmall (s : State) (w : Nat) : Bool :=
  let top := if oPool w = 0 then stackTop else (s.obj (handleIndex (oPool w))).size
  decide (top < oPoolOff w + poolBytes false w)

/-- The cases of R355. -/
def State.openBad (s : State) (w : Nat) : Bool :=
  let lim := levelLimits (oHevc w) (fieldAt w 3 0 8)
  let px := oWidth w * oHeight w
  decide (oInitQ w < oCq w ∨ oQmax w < oInitQ w ∨ oTop w < oQmax w)
  || (decide (oPeriod w ≠ 0) && (oReorder w || decide (oKeyInt w ≠ 0)))
  || (oReorder w && decide (oKeyInt w % oGop w ≠ 0))
  || (decide (oRate w = 0) && decide (oBuf w ≠ 0 ∨ oFull w ≠ 0))
  || (decide (oRate w ≠ 0) && decide (oBuf w < oFull w ∨ oBuf w < oDrain w))
  || decide (lim.1 < px ∨ lim.2 * fieldAt w 0xC 0 32 < px * fieldAt w 8 0 32)
  || s.poolSmall w

/-! ## Commands -/

/-- Fields of a frame command or `CLOSE` outside their ranges (Tables 11-4, 11-5, R359). -/
def frameFields (decode : Bool) (op w : Nat) : List (Nat × Bool) :=
  let report := fieldAt w 0x38 0 48
  let lat := fieldAt w 1 3 2
  if op = cdClose then [(1, decide (1 < lat) || (decode && decide (lat ≠ 0))), (0x3C, sigBad (modBit w 0) (half16 w 0x3C))]
  else [(0x26, sigBad (modBit w 0) (half16 w 0x26)), (0x38, decide (report % 32 ≠ 0 ∨ stackTop ≤ report))] ++
    (if op = cdEnc then
      let n := fieldAt w 3 0 7
      let roi := fieldAt w 0x30 0 48
      [(1, decide (fieldAt w 1 4 2 = 3)), (3, decide (64 < n)),
       (0x28, decide (fieldAt w 1 4 2 = 2) && decide (fieldAt w 0x28 0 32 ≠ 0)),
       (0x30, if n = 0 then decide (roi ≠ 0) else decide (roi % 8 ≠ 0 ∨ stackTop < roi + 8 * n))]
     else [])

/-- Core `c` may start its next command. -/
def State.codecReady (s : State) (c : Nat) : Bool :=
  let g := s.agent (224 + c)
  s.agentsRun && decide (c < 6) && decide (g.prog = .running) && decide (g.boundary = []) && decide (g.fences = [])
    && decide (g.waits = []) && !(g.signals.any (·.release)) && (s.codecCore c).cmd.isNone && !s.heldIn g.ip (cdBytes (s.rdByte g.ip).toNat)

/-- The command at the core's address faults before it acts. -/
def State.faultCdCmd (s : State) (c op : Nat) (f : FaultInfo) : State := s.faultCodec c f op (s.agent (224 + c)).ip

/-- Encode cores 1 to 3 execute nothing in the Lean profile (R350). -/
def State.coreUnpowered (s : State) (c : Nat) : Bool := s.power.leanActive && decide (1 ≤ c ∧ c ≤ 3)

/-- The fault of a command's own fields (R353). -/
def cdFault (c op w : Nat) : Option FaultInfo :=
  match firstReserved w (cdReserved op) with
  | some o => some (fieldFault cCodecReserved o 0)
  | none => (lowestBad (if op = cdOpen then openFields (decodes c) w
      else if op = cdEnc ∨ op = cdDec ∨ op = cdClose then frameFields (decodes c) op w else mvBad op w)).map
        fun o => fieldFault cCodecOperand o 0

/-- Core `c` waits for its context no longer: the wait has paused its watchdog (R419). -/
def State.ctxWaited (s : State) (c : Nat) : State :=
  match (s.codecCore c).waitSince with
  | some w => s.modAgent (224 + c) (Agent.pausedFrom w.1 s.sundial)
  | none => s

/-- Core `c` starts a command of opcode `op`: it is checked, then it acts with its slots passed; `none` holds it. -/
def State.codecStart (s : State) (c op : Nat) (act : Nat → Nat → State → Except FaultInfo (Option State)) : Outcome :=
  if s.codecReady c then
    match s.fetchCmd (224 + c) cCodecFetch 64 cdBytes with
    | .error _ => .next s
    | .ok w =>
      if w % 256 = op ∧ cdKnown c op then
        if s.coreUnpowered c then .next (s.faultCdCmd c op { code := cCodecProfile })
        else match cdFault c op w with
          | some f => .next (s.faultCdCmd c op f)
          | none =>
            let ip := (s.agent (224 + c)).ip
            match act w ip (((s.ctxWaited c).skipSlots (224 + c) (cdBytes op)).modCodecCore c fun k => { k with waitSince := none }) with
            | .error f => .next (s.faultCdCmd c op f)
            | .ok (some s1) => .next (if (s1.codecCore c).cmd.isSome then s.startOr (224 + c) 59000 s1 else s1)
            | .ok none => .next (s.modCodecCore c fun k => { k with
                waitSince := some (k.waitSince.getD (s.sundial, (s.agent (224 + c)).gateTimeout)) })
      else .next s
  else .next s

/-- A command of core `c` is complete, and signals its gate with release (R354, R361). -/
def State.codecDone (s : State) (c : Nat) (en : Bool) (gate inc : Nat) : State :=
  let s1 := s.progress (224 + c)
  if en then s1.cmdSignal (224 + c) gate inc true none else s1

/-- The field CTX of a command. -/
def ctxOf (w : Nat) : Nat := fieldAt w 2 0 6

/-- The `OPEN` of a context. -/
def Ctx.openWord (x : Ctx) : Nat := x.opened.getD 1 0

/-- `CODEC_OPEN` (R351, R353 to R356). -/
def execCodecOpen (c : Nat) (s : State) : Outcome :=
  s.codecStart c cdOpen fun w _ s =>
    let i := ctxOf w
    let handles := if oPool w = 0 then [] else [oPool w]
    if (s.ctx i).st ≠ CtxState.free then .error { code := cCodecCtxState }
    else match s.pinFault handles with
      | some f => .error f
      | none =>
        if !decodes c && s.openBad w then .error { code := cCodecOperand }
        else
          let x : Ctx :=
            { st := .open_, decode := decodes c, hevc := oHevc w, needRap := decodes c,
              opened := [handleIndex (oPool w), w] }
          .ok (some (((s.modCtx i fun _ => x).takePins (handles.map handleIndex)).codecDone c (modBit w 0)
            (fieldAt w 0x38 0 17) (half16 w 0x3C)))

/-- `CODEC_CLOSE` (R351, R359): the context is free; its pool's pin is released. -/
def execCodecClose (c : Nat) (s : State) : Outcome :=
  s.codecStart c cdClose fun w _ s =>
    let i := ctxOf w
    let x := s.ctx i
    if x.st = .free ∨ x.decode ≠ decodes c ∨ x.held ≠ [] then .error { code := cCodecCtxState }
    else if x.st = .active then .ok none
    else
      let pool := x.opened.getD 0 0
      .ok (some (((s.modCtx i fun _ => {}).releasePins (if pool = 0 then [] else [pool])).codecDone c (modBit w 0)
        (fieldAt w 0x38 0 17) (half16 w 0x3C)))

/-! ## Surfaces (R358) -/

/-- Rows of a semi-planar surface of a picture: offset in the surface's space and bytes. -/
def planeRows (off pitch delta e wd ht : Nat) : List (Nat × Nat) :=
  (List.range ht).map (fun y => (off + y * pitch, e * wd))
    ++ (List.range (ht / 2)).map fun y => (off + delta + y * pitch, e * wd)

/-- A component of the BT.709 conversion (R358): coefficients, the offset and the samples. -/
def bt709 (kr kg kb : Int) (offset r g b : Nat) : Nat := ((kr * r + kg * g + kb * b + 128) / 256 + offset).toNat

/-- The sample (x, y) of plane 0 luma, 1 Cb or 2 Cr of a source frame as the encoder codes it (R358). -/
def State.srcSample (s : State) (o w plane x y : Nat) : Nat :=
  let at_ (off n : Nat) : Nat := s.rdNat (s.addrOf (fieldAt w 8 0 24) (fieldAt w 0x10 0 48 + off)) n
  let row (y : Nat) : Nat := y * half16 w 0x24
  match fieldAt w 1 4 2 with
  | 2 =>
    let rgb (c x y : Nat) : Nat := at_ (row y + 3 * x + c) 1
    let mean (c : Nat) : Nat :=
      (rgb c (2 * x) (2 * y) + rgb c (2 * x + 1) (2 * y) + rgb c (2 * x) (2 * y + 1) + rgb c (2 * x + 1) (2 * y + 1) + 2) / 4
    let v := match plane with
      | 0 => bt709 47 157 16 16 (rgb 0 x y) (rgb 1 x y) (rgb 2 x y)
      | 1 => bt709 (-26) (-86) 112 128 (mean 0) (mean 1) (mean 2)
      | _ => bt709 112 (-102) (-10) 128 (mean 0) (mean 1) (mean 2)
    if oDeep o then 4 * v else v
  | f =>
    let e := 1 + f
    let off := if plane = 0 then row y + e * x
      else fieldAt w 0x28 0 32 + row y + 2 * e * x + (if plane = 2 then e else 0)
    at_ off e % (if f = 0 then 256 else 1024)

/-- The samples of a source frame, plane after plane, row after row. -/
def State.source (s : State) (o w : Nat) : List Nat :=
  (List.range 3).flatMap fun plane =>
    let n := if plane = 0 then 1 else 2
    (List.range (oHeight o / n)).flatMap fun y => (List.range (oWidth o / n)).map fun x => s.srcSample o w plane x y

/-- Rows of a source surface. -/
def srcRows (o w : Nat) : List (Nat × Nat) :=
  let off := fieldAt w 0x10 0 48
  let pitch := half16 w 0x24
  match fieldAt w 1 4 2 with
  | 2 => (List.range (oHeight o)).map fun y => (off + y * pitch, 3 * oWidth o)
  | f => planeRows off pitch (fieldAt w 0x28 0 32) (1 + f) (oWidth o) (oHeight o)

/-- The first fault of an access to rows through a handle (R352). -/
def State.checkRows (s : State) (h : Nat) (rows : List (Nat × Nat)) (write : Bool) : Option FaultInfo :=
  rows.findSome? fun r => match s.checkAccess h r.1 r.2 write with
    | .error f => some f
    | .ok _ => none

/-- Device addresses of rows. -/
def State.rowAddrs (s : State) (h : Nat) (rows : List (Nat × Nat)) : List (Nat × Nat) :=
  rows.map fun r => (s.addrOf h r.1, r.2)

/-- A poisoned unit in rows, as a fault. -/
def State.rowsPoison (s : State) (rows : List (Nat × Nat)) : Option FaultInfo :=
  rows.findSome? fun r => (s.poisonIn r.1 r.2).map fun x => { code := cMemPoison, d1 := x }

/-! ## Regions of interest (R360) -/

def State.roi (s : State) (w : Nat) : List Nat :=
  (List.range (fieldAt w 3 0 7)).map fun i => s.rdNat (fieldAt w 0x30 0 48 + 8 * i) 8

/-- The fault of a region table. -/
def State.roiFault (s : State) (o w : Nat) : Option FaultInfo :=
  let n := fieldAt w 3 0 7
  let a := fieldAt w 0x30 0 48
  if n = 0 then none
  else match s.stoppedIn a (8 * n), s.poisonIn a (8 * n) with
    | some _, _ => some { code := cStackOvertemp }
    | _, some x => some { code := cMemPoison, d1 := x }
    | _, _ => (s.roi w).findSome? fun e =>
      if bits e 40 24 ≠ 0 then some (fieldFault cCodecReserved 0x30 0)
      else if bits e 16 8 ≤ bits e 0 8 ∨ bits e 24 8 ≤ bits e 8 8 ∨ ceilDiv (oWidth o) 64 < bits e 16 8
        ∨ ceilDiv (oHeight o) 64 < bits e 24 8 then some (fieldFault cCodecOperand 0x30 0)
      else none

/-! ## Start of a frame command (R347, R350 to R352) -/

/-- Columns and rows of 64 × 64 units (R360). -/
def unitCols (o : Nat) : Nat := ceilDiv (oWidth o) 64
def unitRows (o : Nat) : Nat := ceilDiv (oHeight o) 64

/-- A region's entry contains the unit (x, y). -/
def regionHas (x y e : Nat) : Bool :=
  decide (bits e 0 8 ≤ x) && decide (x < bits e 16 8) && decide (bits e 8 8 ≤ y) && decide (y < bits e 24 8)

/-- A unit's quantiser (R360): the frame's with the offset of the lowest-indexed region that contains the unit. -/
def unitQuant (o q : Nat) (regions : List Nat) (x y : Nat) : Nat :=
  let off : Int := match regions.find? (regionHas x y) with
    | some e => (BitVec.ofNat 8 (bits e 32 8)).toInt
    | none => 0
  (max (oLow o : Int) (min (oTop o : Int) (q + off))).toNat

/-- The quantisers of a frame's units, row after row. -/
def unitQuants (o q : Nat) (regions : List Nat) : List Nat :=
  (List.range (unitRows o)).flatMap fun y => (List.range (unitCols o)).map fun x => unitQuant o q regions x y

/-- The frame of an `ENC_FRAME` is held for its mini-GOP (R363). -/
def holds (x : Ctx) (w : Nat) : Bool :=
  let o := x.openWord
  oReorder o && x.started && !modBit w 2 && decide (x.held.length + 1 < oGop o)

/-- A context's access to its pool (R351, R352). -/
def State.poolFault (s : State) (x : Ctx) : Option FaultInfo :=
  let o := x.openWord
  match s.checkAccess (oPool o) (oPoolOff o) (poolBytes x.decode o) true with
  | .error f => some f
  | .ok _ => none

/-- A report's address can be written (R352, R361). -/
def State.frameFault (s : State) (w : Nat) : Option FaultInfo :=
  let a := fieldAt w 0x38 0 48
  if a = 0 then none else s.checkBlocks 0 a 32 true

/-- The checks of a frame command on its context (R347, R351, R353). -/
def ctxFault (c : Nat) (x : Ctx) (w : Nat) : Option FaultInfo :=
  if x.st = .free ∨ x.decode ≠ decodes c then some { code := cCodecCtxState }
  else if x.st = .active then none
  else if BitVec.ofNat 32 (fieldAt w 4 0 32) ≠ x.nextFrame then some { code := cCodecFrameOrder }
  else x.poolMark.map fun code => { code := code, d0 := if code = cPromotionAborted then oPool x.openWord else 0 }

/-- A frame command starts on its context: its handles are pinned, and the context becomes ACTIVE. -/
def State.beginFrame (s : State) (c w : Nat) (pins : List Nat) : State :=
  ((s.modCtx (ctxOf w) fun x => { x with st := .active }).takePins pins).modCodecCore c fun k =>
    { k with cmd := some (w, ctxOf w), pins := pins }

/-- Objects that a frame command's handles pin. -/
def framePins (w : Nat) : List Nat :=
  (([fieldAt w 8 0 24, fieldAt w 0xC 0 24].filter fun h => decide (h ≠ 0)).map handleIndex).eraseDups

/-- The mark of a held source that this command codes (R351). -/
def heldMark (x : Ctx) : Option FaultInfo :=
  x.held.findSome? fun f => f.mark.map fun code =>
    { code := code, d0 := if code = cPromotionAborted then fieldAt f.cmd 8 0 24 else 0 }

/-- Checks of an `ENC_FRAME` on what it reads and writes (R352, R358, R360, R363): one that is held reads its regions alone,
and writes its report. -/
def State.encFault (s : State) (x : Ctx) (w : Nat) : Option FaultInfo :=
  let o := x.openWord
  let fmt := fieldAt w 1 4 2
  let hold := holds x w
  firstFault [
    if (fmt = 0 ∧ oDeep o) ∨ (fmt = 1 ∧ !oDeep o) then some (fieldFault cCodecOperand 1 0) else none,
    if modBit w 1 ∧ hold then some (fieldFault cCodecOperand 1 0) else none,
    s.roiFault o w,
    s.pinFault ([fieldAt w 8 0 24, fieldAt w 0xC 0 24].filter fun h => decide (h ≠ 0)),
    if hold then none else heldMark x,
    if hold then none else s.poolFault x,
    if hold then none else s.checkRows (fieldAt w 8 0 24) (srcRows o w) false,
    if hold then none else x.held.findSome? fun f => s.checkRows (fieldAt f.cmd 8 0 24) (srcRows o f.cmd) false,
    if hold then none else s.checkRows (fieldAt w 0xC 0 24) [(fieldAt w 0x18 0 48, fieldAt w 0x20 0 32)] true,
    s.frameFault w]

/-- In the Lean profile encode core 0 serves one context (R350). -/
def State.leanRefuses (s : State) (i : Nat) : Bool :=
  s.power.leanActive && !(s.ctx i).leanBound && s.codec.ctxs.any fun e => e.2.leanBound

/-- `ENC_FRAME` starts, or waits for its context (R347). -/
def execEncFrame (c : Nat) (s : State) : Outcome :=
  s.codecStart c cdEnc fun w _ s =>
    let i := ctxOf w
    let x := s.ctx i
    match ctxFault c x w with
    | some f => .error f
    | none =>
      if x.st = .active then .ok none
      else if s.leanRefuses i then .error { code := cCodecProfile }
      else match s.encFault x w with
        | some f => .error f
        | none =>
          let held := if holds x w ∧ fieldAt w 8 0 24 ≠ 0 then [handleIndex (fieldAt w 8 0 24)] else []
          .ok (some ((s.beginFrame c w (framePins w ++ held)).modCodecCore c fun k =>
            { k with regions := s.roi w, binds := s.power.leanActive }))

/-- Rows of a decoded picture's output surface (R359). -/
def outRows (x : Ctx) (w : Nat) (size : Nat × Nat) : List (Nat × Nat) :=
  planeRows (fieldAt w 0x18 0 48) (half16 w 0x24) (fieldAt w 0x28 0 32) (if oDeep x.openWord then 2 else 1) size.1 size.2

/-- The coding of a unit is outside Table 11-1 (R343), or outside R344 or what `OPEN` accepts (R354; log 8). -/
def unsupported (o : Nat) (u : Config.UnitFacts) : Bool :=
  (if oHevc o then !(u.profile == 1 && u.depth == 8 || u.profile == 2 && decide (u.depth = 8 ∨ u.depth = 10)) || u.highTier
      || decide (186 < u.level)
    else !(u.profile == 0 && decide (u.depth = 8 ∨ u.depth = 10)) || u.largeScaleTile || decide (17 < u.level))
  || decide (u.sampling ≠ 1) || decide (u.depth ≠ if oDeep o then 10 else 8) || decide (fieldAt o 3 0 8 < u.level)
  || u.pictures.any fun p => decide (p.width % 2 = 1 ∨ p.width < 16 ∨ oWidth o < p.width ∨ p.height % 2 = 1 ∨ p.height < 16
      ∨ oHeight o < p.height)

/-- The picture of a display index, among those decoded. -/
def shownPicture (x : Ctx) (hist : List (List Nat)) (made : List Config.Picture) (index : Nat) : Config.Picture :=
  made.getD (Config.displayOrder x.opened hist index % made.length) { width := 0, height := 0, key := false, grain := false }

/-- Checks of a `DEC_FRAME` on its input, where it reads any (R364), and on what it always writes (R352). -/
def State.decFault (s : State) (x : Ctx) (w : Nat) : Option FaultInfo :=
  firstFault [
    s.pinFault ([fieldAt w 8 0 24, fieldAt w 0xC 0 24].filter fun h => decide (h ≠ 0)),
    s.poolFault x,
    if fieldAt w 0x20 0 32 = 0 then none else s.checkRows (fieldAt w 8 0 24) [(fieldAt w 0x10 0 48, fieldAt w 0x20 0 32)] false,
    s.frameFault w]

/-- `DEC_FRAME` starts, or waits for its context (R347, R364). -/
def execDecFrame (c : Nat) (s : State) : Outcome :=
  s.codecStart c cdDec fun w _ s =>
    let x := s.ctx (ctxOf w)
    match ctxFault c x w with
    | some f => .error f
    | none =>
      if x.st = .active then .ok none
      else match s.decFault x w with
        | some f => .error f
        | none => .ok (some (s.beginFrame c w (framePins w)))

/-- `CODEC_CTX_BUSY` (R347). -/
def execCodecCtxBusy (c : Nat) (now : Word64) (s : State) : Outcome :=
  match s.at? now with
  | none => .next s
  | some s1 => match (s.codecCore c).waitSince with
    | none => .next s
    | some (since, timeout) =>
      let ip := (s.agent (224 + c)).ip
      if s.codecReady c && (s.ctx (ctxOf (s.rdNat ip 64))).st == .active
          && decide (usTicks timeout < now.toNat - since.toNat) then
        .next (s1.faultCdCmd c (s.rdByte ip).toNat { code := cCodecCtxBusy })
      else .next s

/-! ## Rate control (R366) -/

/-- shift(v, k' − k). -/
def rateShift (v kPrev k : Nat) : Nat := if k ≤ kPrev then v * 2 ^ (kPrev - k) else v / 2 ^ (k - kPrev)

/-- k, q and whether the quantiser is held at `QMAX`, for a frame of a context. -/
def rateStep (x : Ctx) (intra : Bool) : Nat × Nat × Bool :=
  let o := x.openWord
  let st := if oHevc o then 6 else 24
  if !x.started then ((oInitQ o - oCq o) / st, oInitQ o, false)
  else
    let kmax := ceilDiv (oQmax o - oCq o) st
    let b := if x.prevIntra && !intra then x.bitsPrev / 4 else x.bitsPrev
    let fits (k : Nat) : Bool := decide (x.full + rateShift b x.k k ≤ 7 * oBuf o / 8 + oDrain o)
    let r : Nat × Bool := if oRate o = 0 then (0, false) else match (List.range (kmax + 1)).find? fits with
      | some k => (k, false)
      | none => (kmax, true)
    (r.1, min (oQmax o) (oCq o + r.1 * st), r.2)

/-- A run of coded frames: the context so far, the bytes emitted, and the report's flags. -/
structure CodeRun where
  ctx : Ctx
  out : List Byte
  cap : Bool
  overflow : Bool
  deriving DecidableEq, Repr

/-- The band of the next frame under gradual refresh (R365); `sinceKey` counts the frames since the last key frame. -/
def refreshBand (x : Ctx) (key : Bool) : Option Nat :=
  if oPeriod x.openWord = 0 ∨ key then none else some (x.sinceKey % oPeriod x.openWord)

/-- Units of the sweep's dimension, and units of a band (R365). -/
def sweepUnits (o : Nat) : Nat := if modBit o 5 then unitRows o else unitCols o
def bandUnits (o : Nat) : Nat := ceilDiv (sweepUnits o) (oPeriod o)

/-- What a frame's band fixes (R365): its index, the units coded intra from the first to before the last, and the units that
end the clean area's prediction and the clean area itself. -/
def bandRecord (o : Nat) (band : Option Nat) : List Nat :=
  match band with
  | none => [0xFFFFFFFF, 0, 0, 0, 0]
  | some b =>
    let last := min (sweepUnits o) ((b + 1) * bandUnits o)
    [b, b * bandUnits o, last, b * bandUnits o, (b + 1) * bandUnits o]

/-- The fewest uniform tile columns within the 4,096-sample limit (R345): the width of a column in units doubles no further. -/
def tileCols : Nat → Nat → Nat → Nat
  | 0, _, n => n
  | fuel + 1, units, n => if ceilDiv units n ≤ 64 then ceilDiv units (ceilDiv units n) else tileCols fuel units (2 * n)

/-- What a coded frame is a function of beside `OPEN` and the frames before it (R349): its command's number and choices, its
quantiser, band and tile columns, its units' quantisers and its samples. -/
def frameRecord (x : Ctx) (w : Nat) (key : Bool) (q : Nat) (src regions : List Nat) : List Nat :=
  let o := x.openWord
  [fieldAt w 4 0 32, (modBit w 1).toNat, (modBit w 2).toNat, key.toNat, q, tileCols 8 (unitCols o) 1]
    ++ bandRecord o (refreshBand x key) ++ unitQuants o q regions ++ src

/-- A number in LEB128, as `obu_size` is. -/
def leb128 : Nat → Nat → List Byte
  | 0, _ => []
  | fuel + 1, n => if n < 128 then [BitVec.ofNat 8 n] else BitVec.ofNat 8 (128 + n % 128) :: leb128 fuel (n / 128)

/-- An OBU of the low-overhead format with `obu_has_size_field` = 1 (R345; log 8). -/
def obu (type : Nat) (payload : List Byte) : List Byte :=
  BitVec.ofNat 8 (type % 16 * 8 + 2) :: leb128 8 payload.length ++ payload

/-- A NAL unit of the Annex B byte stream with its 4-byte start code (R345; log 8). -/
def nal (type : Nat) (payload : List Byte) : List Byte :=
  [0, 0, 0, 1, BitVec.ofNat 8 (2 * type), 1] ++ payload

/-- Bits from the most significant on, as bytes; the last byte is filled with zeros. -/
def bitBytes : Nat → List Bool → List Byte
  | 0, _ => []
  | n + 1, l => if l = [] then [] else
    BitVec.ofNat 8 ((List.range 8).foldl (fun v i => 2 * v + ((l.drop i).headD false).toNat) 0) :: bitBytes n (l.drop 8)
def bytesOf (l : List Bool) : List Byte := bitBytes l.length l

/-- The `n` bits of a number, the most significant first. -/
def msbBits (n v : Nat) : List Bool := (List.range n).map fun i => bit v (n - 1 - i)

/-- Unsigned and signed Exp-Golomb codes: ue(v) of `v`, and se(v) of a `v` that is not negative. -/
def ueBits (v : Nat) : List Bool := let n := Nat.log2 (v + 1)
  List.replicate n false ++ msbBits (n + 1) (v + 1)
def seBits (v : Nat) : List Bool := ueBits (if v = 0 then 0 else 2 * v - 1)

/-- `rbsp_trailing_bits`, and AV1's `trailing_bits`: a one; the zeros fill the byte. -/
def trailed (l : List Bool) : List Byte := bytesOf (l ++ [true])

/-- The bytes of a NAL unit's payload: a byte 3 before every byte up to 3 that follows two zero bytes. -/
def emulated : Nat → List Byte → List Byte
  | _, [] => []
  | z, b :: l =>
    if z = 2 ∧ b.toNat ≤ 3 then 3 :: b :: emulated (if b = 0 then 1 else 0) l
    else b :: emulated (if b = 0 then z + 1 else 0) l

/-- The AV1 sequence header (R343, R345): profile 0, superblocks of 64 × 64, no super-resolution, the stream's bit depth, 4:2:0 and no
film grain; the other bits are open (log 8). -/
def sequenceHeader (opened : List Nat) : List Byte :=
  let gap (i : Nat) : List Bool := Config.headerBits i opened
  trailed ([false, false, false] ++ gap 0 ++ [false] ++ gap 1 ++ [false] ++ gap 2 ++ [oDeep (opened.getD 1 0), false] ++ gap 3 ++ [false])

/-- AV1's tile columns (R345): uniform spacing, with the fewest columns: no increment, where the syntax offers one. -/
def tileInfo (o : Nat) : List Bool := true :: if 1 < unitCols o ∧ tileCols 8 (unitCols o) 1 < unitCols o then [false] else []

/-- The payload of a frame's OBU: a frame header (types 3 and 6) that shows no existing frame holds the tile information. -/
def obuPayload (o : Nat) (p : Nat × List Bool × List Bool) : List Byte :=
  bytesOf (p.2.1 ++ (if (p.1 = 3 ∨ p.1 = 6) ∧ p.2.1.headD false = false then tileInfo o else []) ++ p.2.2)

/-- A temporal unit (R345): the temporal delimiter, at a key frame the sequence header, and the frame. -/
def av1Unit (opened : List Nat) (records : List (List Nat)) (key : Bool) : List Byte :=
  obu 2 [] ++ (if key then obu 1 (sequenceHeader opened) else [])
    ++ (Config.codedObus opened records).flatMap fun p => obu p.1 (obuPayload (opened.getD 1 0) p)

/-- The sequence parameter set (R343, R345): Main or Main 10, Main tier, the stream's level, 4:2:0 and bit depth, and CTUs of
64 × 64 from a smallest coding block that is open; the other bits are open (log 8). -/
def hevcSps (opened : List Nat) : List Byte :=
  let o := opened.getD 1 0
  let gap (i : Nat) : List Bool := Config.headerBits i opened
  let depth := ueBits (if oDeep o then 2 else 0)
  let small := Config.freeNat 0 (0x345 :: opened) % 4
  trailed ((msbBits 8 (Config.freeNat 1 (0x345 :: opened))) ++ [false, false, false] ++ msbBits 5 (if oDeep o then 2 else 1) ++ gap 4
    ++ msbBits 8 (fieldAt o 3 0 8) ++ gap 5 ++ ueBits 1 ++ gap 6 ++ depth ++ depth ++ gap 7 ++ ueBits small ++ ueBits (3 - small)
    ++ gap 8)

/-- The recovery point SEI of refresh cycles of `p` frames (R365): payload type 6 with `recovery_poc_cnt` = `p` − 1; its two flags are
open (log 8). -/
def hevcSei (p : Nat) : List Byte :=
  let l := seBits (p - 1) ++ [Config.freeBool 0x365, Config.freeBool 0x366]
  let body := if l.length % 8 = 0 then bytesOf l else trailed l
  [6, BitVec.ofNat 8 body.length] ++ body ++ [0x80]

/-- An access unit (R345, R362, R365): the delimiter, before an IRAP picture the parameter sets, where a refresh cycle begins
the recovery point SEI, and one slice, an IDR_N_LP at a key frame under `LOW_DELAY`. -/
def hevcUnit (opened : List Nat) (records : List (List Nat)) (key reorder recovers : Bool) : List Byte :=
  let part (t : Nat) : List Byte := nal t (Config.codedNal opened records t)
  part 35 ++ (if key then part 32 ++ nal 33 (emulated 0 (hevcSps opened)) ++ part 34 else [])
    ++ (if recovers then nal 39 (emulated 0 (hevcSei (oPeriod (opened.getD 1 0)))) else [])
    ++ (if key && !reorder then part 20 else [0, 0, 0, 1] ++ Config.codedNal opened records 64)

/-- The coded unit of a frame (R345, R349). -/
def codedUnit (x : Ctx) (records : List (List Nat)) (key : Bool) : List Byte :=
  let o := x.openWord
  if oHevc o then hevcUnit x.opened records key (oReorder o) (refreshBand x key == some 0) else av1Unit x.opened records key

/-- One frame is coded (R366): the command `w` that supplied it, its samples and regions. -/
def CodeRun.code (r : CodeRun) (w : Nat) (src : List Nat) (regions : List Nat) (key : Bool) : CodeRun :=
  let x := r.ctx
  let o := x.openWord
  let st := rateStep x key
  let entry := frameRecord x w key st.2.1 src regions
  let unit := codedUnit x (x.history ++ [entry]) key
  let n := 8 * unit.length
  let f0 := if x.started then x.full else oFull o
  let f := if oRate o = 0 then f0 else f0 + n - oDrain o
  let x1 : Ctx :=
    { x with started := true, k := st.1, q := st.2.1, full := f, bitsPrev := n, prevIntra := key,
             history := x.history ++ [entry], sinceKey := if key then 0 else x.sinceKey + 1 }
  { ctx := x1, out := r.out ++ unit, cap := r.cap || st.2.2, overflow := r.overflow || (decide (oRate o ≠ 0) && decide (oBuf o < f)) }

/-- The frames strictly between `lo` and `hi` in hierarchical order. -/
def hierarchy : Nat → Nat → Nat → List Nat
  | 0, _, _ => []
  | fuel + 1, lo, hi =>
    if hi ≤ lo + 1 then [] else
      let mid := (lo + hi) / 2
      mid :: (hierarchy fuel lo mid ++ hierarchy fuel mid hi)

/-- The frame that `w` supplies, coded as the anchor of its mini-GOP or alone, is a key frame (R362, R363). -/
def isKey (x : Ctx) (w : Nat) : Bool :=
  !x.started || modBit w 1
    || (decide (oKeyInt x.openWord ≠ 0) && decide (oKeyInt x.openWord ≤ x.sinceKey + 1 + x.held.length))

/-- The frames of a command that codes: its own with its regions, and under `REORDER` the held ones after their anchor. -/
def State.codeAll (s : State) (x : Ctx) (w : Nat) (regions : List Nat) : CodeRun :=
  let o := x.openWord
  let cmds := (x.held.map fun f => (f.cmd, f.regions)) ++ [(w, regions)]
  let order := cmds.length :: hierarchy cmds.length 0 cmds.length
  let key := isKey x w
  let r := order.foldl (fun (r : CodeRun) j =>
    let v := cmds.getD (j - 1) (w, regions)
    r.code v.1 (s.source o v.1) v.2 (key && decide (j = cmds.length)))
    { ctx := x, out := [], cap := false, overflow := false }
  -- frames are counted in display order: the anchor is the last of them
  { r with ctx := { r.ctx with sinceKey := if key then 0 else x.sinceKey + cmds.length } }

/-! ## Completion (R347, R361) -/

/-- The fault of a command in execution on core `c` that uses handle `h`, marked since it started (R95, R96, R351). -/
def State.markedInUse (s : State) (c h : Nat) : Option FaultInfo :=
  (mapFind (handleIndex h) (if h = 0 then [] else (s.codecCore c).marks)).map fun code =>
    { code := code, d0 := if code = cPromotionAborted then h else 0 }

/-- The report of Table 11-7. -/
def reportBytes (num type flags q bytes full index pending : Nat) : List Byte :=
  leBytes 32 (packed [(0, 0, 32, num), (4, 0, 8, type), (5, 0, 8, flags), (6, 0, 8, q), (8, 0, 32, bytes), (0xC, 0, 32, full),
    (0x10, 0, 32, index), (0x14, 0, 16, pending)])

/-- A frame command ends well: its report, the context's commit, its pins but `keep`, and its signal. -/
def State.endFrame (s : State) (c w : Nat) (x : Ctx) (keep : List Nat) (report : List Byte) : State :=
  let a := fieldAt w 0x38 0 48
  let s1 := if a = 0 then s else s.wr (placed a report)
  let pins := keep.foldl (fun l p => l.erase p) (s.codecCore c).pins
  let x1 : Ctx := { x with st := .open_, nextFrame := x.nextFrame + 1, core := if decodes c then c - 4 else c,
                           leanBound := x.leanBound || (s.codecCore c).binds }
  let s2 := (s1.modCtx (ctxOf w) fun y => { x1 with poolMark := y.poolMark }).modCodecCore c fun k =>
    { k with cmd := none, pins := [], marks := [], regions := [], binds := false, lastCtx := some (ctxOf w) }
  (s2.releasePins pins).codecDone c (modBit w 0) (fieldAt w 0x2C 0 17) (half16 w 0x26)

/-- A raw output buffer of an `ENC_FRAME` has become read-only (R64). -/
def State.outRefused (s : State) (w : Nat) : Option FaultInfo :=
  if fieldAt w 0xC 0 24 ≠ 0 then none else s.roWritten [(fieldAt w 0x18 0 48, fieldAt w 0x20 0 32)]

/-- The report of a frame command meets a block that has become read-only (R64). -/
def State.reportRefused (s : State) (w : Nat) : Option FaultInfo :=
  if fieldAt w 0x38 0 48 = 0 then none else s.roWritten [(fieldAt w 0x38 0 48, 32)]

/-- An `ENC_FRAME` completes. -/
def State.encDone (s : State) (c w : Nat) : State :=
  let x := s.ctx (ctxOf w)
  let o := x.openWord
  let num := fieldAt w 4 0 32
  if holds x w then
    let i := if fieldAt w 8 0 24 = 0 then 0 else handleIndex (fieldAt w 8 0 24)
    s.endFrame c w { x with held := x.held ++ [{ cmd := w, regions := (s.codecCore c).regions, object := i,
                                                  mark := mapFind i (s.codecCore c).marks }] } (if i = 0 then [] else [i])
      (reportBytes num 0 0 x.q 0 x.full 0xFFFFFFFF 0)
  else
    let srcs := (x.held.map (·.cmd) ++ [w]).flatMap fun v => s.rowAddrs (fieldAt v 8 0 24) (srcRows o v)
    match firstFault [s.rowsPoison srcs, s.outRefused w] with
    | some f => s.faultCodec c f cdEnc ((s.agent (224 + c)).ip - 64)
    | none =>
      let r := s.codeAll x w (s.codecCore c).regions
      let cap := fieldAt w 0x20 0 32
      if cap < r.out.length then s.faultCodec c { code := cCodecOutFull } cdEnc ((s.agent (224 + c)).ip - 64)
      else
        let out := s.addrOf (fieldAt w 0xC 0 24) (fieldAt w 0x18 0 48)
        let key := isKey x w
        let gop := oReorder o && x.started
        let band := if gop then none else refreshBand x key
        let ends := match band with
          | some b => decide (b + 1 = oPeriod o)
          | none => false
        let type := if gop then 3 else if key then 1 else 2
        let flags := (if r.cap then 1 else 0) + (if r.overflow then 2 else 0) + (if ends then 4 else 0)
        let s1 := (s.undefine out cap).wr (placed out r.out)
        let s2 := s1.undefine (s1.addrOf (oPool o) (oPoolOff o)) (poolBytes false o)
        let s3 := s2.endFrame c w { r.ctx with held := [] } []
          (reportBytes num type flags r.ctx.q r.out.length r.ctx.full (band.getD 0xFFFFFFFF) 0)
        s3.releasePins ((x.held.map (·.object)).filter fun i => decide (i ≠ 0))

/-- The bytes of a decoded picture at its output surface (R359, R364), with AV1 film grain where the bitstream carries it
(R343). -/
def State.pictureBytes (s : State) (x : Ctx) (hist : List (List Nat)) (w index : Nat) (p : Config.Picture) : List (Nat × Byte) :=
  let e := if oDeep x.openWord then 2 else 1
  let h := fieldAt w 0xC 0 24
  let rows := outRows x w (p.width, p.height)
  let sample := if p.grain && !oHevc x.openWord then Config.grainSample else Config.decodedSample
  (List.range rows.length).flatMap fun y =>
    let a := s.addrOf h (rows.getD y (0, 0)).1
    (List.range p.width).flatMap fun i =>
      let v := sample x.opened hist index (y * p.width + i)
      placed (a + e * i) (leBytes e (if e = 2 then v % 1024 else v % 256))

/-- A `DEC_FRAME` completes, or faults for its unit. -/
def State.decDone (s : State) (c w : Nat) : State :=
  let x := s.ctx (ctxOf w)
  let addr := (s.agent (224 + c)).ip - 64
  let n := fieldAt w 0x20 0 32
  let a := s.addrOf (fieldAt w 8 0 24) (fieldAt w 0x10 0 48)
  match if n = 0 then none else s.rowsPoison [(a, n)] with
  | some f => s.faultCodec c f cdDec addr
  | none =>
    let input := s.rdBytes a n
    let hist := x.history ++ [[fieldAt w 4 0 32, n, leNat input]]
    let u := Config.decodeUnit x.opened hist input
    if n ≠ 0 ∧ unsupported x.openWord u then s.faultCodec c { code := cCodecUnsupported } cdDec addr
    else if n ≠ 0 ∧ (!u.conforms ∨ (x.needRap ∧ !(u.key && u.headers))) then
      (s.modCtx (ctxOf w) fun x => { x with needRap := true }).faultCodec c
        { code := cCodecBitstream, d1 := u.failsAt } cdDec addr
    else
      let made := x.pictures ++ (if n = 0 then [] else u.pictures)
      let due := min made.length (x.due + (if n = 0 then 0 else u.due))
      let show_ := decide (x.shown < due) || (decide (n = 0) && decide (x.shown < made.length))
      let p := shownPicture x hist made x.shown
      match if show_ then firstFault [s.markedInUse c (fieldAt w 0xC 0 24),
          s.checkRows (fieldAt w 0xC 0 24) (outRows x w (p.width, p.height)) true] else none with
      | some f => s.faultCodec c f cdDec addr
      | none =>
        let s1 := if show_ then s.wr (s.pictureBytes x hist w x.shown p) else s
        let s2 := s1.undefine (s1.addrOf (oPool x.openWord) (oPoolOff x.openWord)) (poolBytes true x.openWord)
        let shown := if show_ then x.shown + 1 else x.shown
        let x1 : Ctx :=
          { x with history := hist, needRap := x.needRap && decide (n = 0), pictures := made, due := max due shown, shown := shown }
        let type := if show_ then (if p.key then 1 else 2) else 0
        s2.endFrame c w x1 [] (reportBytes (fieldAt w 4 0 32) type (if show_ then 8 else 0) 0 n 0
          (if show_ then x.shown else 0xFFFFFFFF) (made.length - shown))

/-- The ranges that a frame command reads and writes: the surfaces and the unit, its reference pool and its report (Table 11-5,
R356). -/
def State.frameRuns (s : State) (c w : Nat) : List (Nat × Nat) :=
  let x := s.ctx (ctxOf w)
  let o := x.openWord
  let report := fieldAt w 0x38 0 48
  let rows := if decodes c then
      s.rowAddrs (fieldAt w 0xC 0 24) (outRows x w (oWidth o, oHeight o))
        ++ [(s.addrOf (fieldAt w 8 0 24) (fieldAt w 0x10 0 48), fieldAt w 0x20 0 32)]
    else ((x.held.map (·.cmd) ++ [w]).flatMap fun v => s.rowAddrs (fieldAt v 8 0 24) (srcRows o v))
        ++ [(s.addrOf (fieldAt w 0xC 0 24) (fieldAt w 0x18 0 48), fieldAt w 0x20 0 32)]
  (s.addrOf (oPool o) (oPoolOff o), poolBytes (decodes c) o) :: (report, if report = 0 then 0 else 32) :: rows

/-- The frame command of core `c` completes no access yet: a channel holds one of them (R414, R426). -/
def State.frameHeld (s : State) (c : Nat) : Bool :=
  s.heldRuns (((s.codecCore c).cmd.map fun w => s.frameRuns c w.1).getD [])

/-- `FRAME_COMPLETE` (R361, R64). -/
def execFrameComplete (c : Nat) (s : State) : Outcome :=
  if s.agentsRun && decide (c < 6) && !s.frameHeld c then
    match (s.codecCore c).cmd with
    | some (w, _) => match s.reportRefused w with
      | some f => .next (s.faultCodec c f (if decodes c then cdDec else cdEnc) ((s.agent (224 + c)).ip - 64))
      | none => .next (if decodes c then s.decDone c w else s.encDone c w)
    | none => .next s
  else .next s

/-! ## Control commands (R353) -/

/-- `CODEC_GSIG` (R37 to R50). -/
def execCodecGsig (c : Nat) (s : State) : Outcome :=
  s.codecStart c mvGsig fun w _ s =>
    .ok (some ((s.cmdSignal (224 + c) (fieldAt w 4 0 17) (half16 w 0xC) (modBit w 0)
      (if modBit w 1 then some (fieldAt w 8 0 14) else none)).progress (224 + c)))

/-- `CODEC_GWAIT` (R41 to R45). -/
def execCodecGwait (c : Nat) (s : State) : Outcome :=
  s.codecStart c mvGwait fun w addr s =>
    let target := BitVec.ofNat 32 (fieldAt w 8 0 32)
    let s1 := s.issueWait (224 + c) (fieldAt w 4 0 17) target (fieldAt w 0xC 0 24) (modBit w 0) 0 addr
    .ok (some (if reached (s.gate (fieldAt w 4 0 17)).value target then s1.progress (224 + c) else s1))

/-- `CODEC_FENCE` (R53). -/
def execCodecFence (c : Nat) (s : State) : Outcome :=
  s.codecStart c mvFence fun w addr s =>
    .ok (some (s.modAgent (224 + c) fun g => { g with fences := g.fences ++ [{ scope := fieldAt w 1 0 2, place := 0, addr := addr }] }))

/-- `CODEC_END` (R35): the stream's global fence starts. -/
def execCodecEnd (c : Nat) (s : State) : Outcome :=
  s.codecStart c mvEnd fun _ addr s =>
    .ok (some ((s.modAgent (224 + c) fun g => { g with
      prog := .ending, fences := g.fences ++ [{ scope := 3, place := 0, addr := addr }] }).progress (224 + c)))

/-- `CODEC_OPCODE` (R350, R353): the core's next slots cannot be fetched or hold no opcode that it executes. -/
def execCodecOpcode (c : Nat) (s : State) : Outcome :=
  if s.codecReady c then
    let op := (s.rdByte (s.agent (224 + c)).ip).toNat
    match s.fetchCmd (224 + c) cCodecFetch 64 cdBytes with
    | .error f => .next (s.faultCdCmd c op f)
    | .ok w =>
      if cdKnown c (w % 256) then .next s
      else .next (s.faultCdCmd c (w % 256) { code := if s.coreUnpowered c then cCodecProfile else cCodecOpcode })
  else .next s

end Sys2Proof.Machine
end

