-- ==== Sys2Proof/Machine/Crypto.lean ====
section
/-! DEFINITION. The functions that R440 and R443 name by their standards (log 9): SHA-384 (FIPS 180-4), ECDSA on P-384 (FIPS 186-5),
HMAC-SHA-384 and HKDF-SHA-384 (RFC 5869). Byte strings are in the order of their standards. -/
namespace Sys2Proof.Machine

/-! ## Big-endian numbers -/

/-- A number from bytes, the most significant first. -/
def beNat (l : List Byte) : Nat := l.foldl (fun n b => 256 * n + b.toNat) 0

/-- The `n` bytes of a number, the most significant first. -/
def beBytes (n w : Nat) : List Byte := tabulate n fun i => BitVec.ofNat 8 (w >>> (8 * (n - 1 - i)))

/-! ## SHA-384 (FIPS 180-4) -/

/-- The constants of the 80 rounds. -/
def shaK : List Nat :=
  [0x428a2f98d728ae22, 0x7137449123ef65cd, 0xb5c0fbcfec4d3b2f,
   0xe9b5dba58189dbbc, 0x3956c25bf348b538, 0x59f111f1b605d019,
   0x923f82a4af194f9b, 0xab1c5ed5da6d8118, 0xd807aa98a3030242,
   0x12835b0145706fbe, 0x243185be4ee4b28c, 0x550c7dc3d5ffb4e2,
   0x72be5d74f27b896f, 0x80deb1fe3b1696b1, 0x9bdc06a725c71235,
   0xc19bf174cf692694, 0xe49b69c19ef14ad2, 0xefbe4786384f25e3,
   0x0fc19dc68b8cd5b5, 0x240ca1cc77ac9c65] ++
  [0x2de92c6f592b0275, 0x4a7484aa6ea6e483, 0x5cb0a9dcbd41fbd4,
   0x76f988da831153b5, 0x983e5152ee66dfab, 0xa831c66d2db43210,
   0xb00327c898fb213f, 0xbf597fc7beef0ee4, 0xc6e00bf33da88fc2,
   0xd5a79147930aa725, 0x06ca6351e003826f, 0x142929670a0e6e70,
   0x27b70a8546d22ffc, 0x2e1b21385c26c926, 0x4d2c6dfc5ac42aed,
   0x53380d139d95b3df, 0x650a73548baf63de, 0x766a0abb3c77b2a8,
   0x81c2c92e47edaee6, 0x92722c851482353b] ++
  [0xa2bfe8a14cf10364, 0xa81a664bbc423001, 0xc24b8b70d0f89791,
   0xc76c51a30654be30, 0xd192e819d6ef5218, 0xd69906245565a910,
   0xf40e35855771202a, 0x106aa07032bbd1b8, 0x19a4c116b8d2d0c8,
   0x1e376c085141ab53, 0x2748774cdf8eeb99, 0x34b0bcb5e19b48a8,
   0x391c0cb3c5c95a63, 0x4ed8aa4ae3418acb, 0x5b9cca4f7763e373,
   0x682e6ff3d6b2b8a3, 0x748f82ee5defb2fc, 0x78a5636f43172f60,
   0x84c87814a1f0ab72, 0x8cc702081a6439ec] ++
  [0x90befffa23631e28, 0xa4506cebde82bde9, 0xbef9a3f7b2c67915,
   0xc67178f2e372532b, 0xca273eceea26619c, 0xd186b8c721c0c207,
   0xeada7dd6cde0eb1e, 0xf57d4f7fee6ed178, 0x06f067aa72176fba,
   0x0a637dc5a2c898a6, 0x113f9804bef90dae, 0x1b710b35131c471b,
   0x28db77f523047d84, 0x32caab7b40c72493, 0x3c9ebe0a15c9bebc,
   0x431d67c49c100d4c, 0x4cc5d4becb3e42b6, 0x597f299cfc657e2a,
   0x5fcb6fab3ad6faec, 0x6c44198c4a475817]

/-- The initial hash value. -/
def shaInit : List Nat :=
  [0xcbbb9d5dc1059ed8, 0x629a292a367cd507, 0x9159015a3070dd17,
   0x152fecd8f70e5939, 0x67332667ffc00b31, 0x8eb44a8768581511,
   0xdb0c2e0d64f98fa7, 0x47b5481dbefa4fa4]

/-- Rotation of a 64-bit word to the right. -/
def rotr64 (x n : Nat) : Nat := ((x >>> n) ||| (x <<< (64 - n))) % 2 ^ 64

def shaSmall0 (x : Nat) : Nat := Nat.xor (rotr64 x 1) (Nat.xor (rotr64 x 8) (x >>> 7))
def shaSmall1 (x : Nat) : Nat := Nat.xor (rotr64 x 19) (Nat.xor (rotr64 x 61) (x >>> 6))
def shaBig0 (x : Nat) : Nat := Nat.xor (rotr64 x 28) (Nat.xor (rotr64 x 34) (rotr64 x 39))
def shaBig1 (x : Nat) : Nat := Nat.xor (rotr64 x 14) (Nat.xor (rotr64 x 18) (rotr64 x 41))

/-- The message schedule of a block, its last word first: `n` words more. -/
def shaSchedule : Nat → List Nat → List Nat
  | 0, w => w
  | n + 1, w =>
    shaSchedule n ((w.getD 15 0 + shaSmall0 (w.getD 14 0) + w.getD 6 0 + shaSmall1 (w.getD 1 0)) % 2 ^ 64 :: w)

/-- One round with the sum of its constant and its word. -/
def shaRound (v : List Nat) (kw : Nat) : List Nat :=
  match v with
  | [a, b, c, d, e, f, g, h] =>
    let t1 := h + shaBig1 e + Nat.xor (e &&& f) (Nat.xor e (2 ^ 64 - 1) &&& g) + kw
    let t2 := shaBig0 a + Nat.xor (a &&& b) (Nat.xor (a &&& c) (b &&& c))
    [(t1 + t2) % 2 ^ 64, a, b, c, (d + t1) % 2 ^ 64, e, f, g]
  | _ => v

/-- The hash value after one block of 16 words. -/
def shaBlock (h w : List Nat) : List Nat :=
  let words := (shaSchedule 64 w.reverse).reverse
  let v := (shaK.zip words).foldl (fun v e => shaRound v (e.1 + e.2)) h
  (h.zip v).map fun e => (e.1 + e.2) % 2 ^ 64

/-- The blocks of a padded message. -/
def shaBlocks (h : List Nat) : Nat → List Byte → List Nat
  | 0, _ => h
  | n + 1, m => shaBlocks (shaBlock h (tabulate 16 fun i => beNat ((m.drop (8 * i)).take 8))) n (m.drop 128)

/-- SHA-384 of a byte string. -/
@[irreducible] def sha384 (m : List Byte) : List Byte :=
  let n := m.length
  let zeros := (239 - n % 128) % 128
  let padded := m ++ 0x80 :: (List.replicate zeros 0 ++ beBytes 16 (8 * n))
  ((shaBlocks shaInit (padded.length / 128) padded).flatMap (beBytes 8)).take 48

/-! ## HMAC and HKDF (RFC 5869) -/

/-- HMAC-SHA-384. -/
def hmac384 (key m : List Byte) : List Byte :=
  let k := if 128 < key.length then sha384 key else key
  let pad (b : Byte) : List Byte := tabulate 128 fun i => k.getD i 0 ^^^ b
  sha384 (pad 0x5C ++ sha384 (pad 0x36 ++ m))

/-- The blocks of the expansion after `prev`, the next being block `i`. -/
def hkdfBlocks (prk info : List Byte) : Nat → Nat → List Byte → List Byte
  | 0, _, _ => []
  | n + 1, i, prev =>
    let t := hmac384 prk (prev ++ info ++ [BitVec.ofNat 8 i])
    t ++ hkdfBlocks prk info n (i + 1) t

/-- HKDF-SHA-384: `n` bytes. -/
@[irreducible] def hkdf384 (salt secret info : List Byte) (n : Nat) : List Byte :=
  (hkdfBlocks (hmac384 salt secret) info ((n + 47) / 48) 1 []).take n

/-! ## ECDSA on P-384 (FIPS 186-5) -/

/-- The field, the coefficient b, the base point and its order. -/
def p384 : Nat := 2 ^ 384 - 2 ^ 128 - 2 ^ 96 + 2 ^ 32 - 1
def p384b : Nat := 0xB3312FA7E23EE7E4988E056BE3F82D19181D9C6EFE8141120314088F5013875AC656398D8A2ED19D2A85C8EDD3EC2AEF
def p384x : Nat := 0xAA87CA22BE8B05378EB1C71EF320AD746E1D3B628BA79B9859F741E082542A385502F25DBF55296C3A545E3872760AB7
def p384y : Nat := 0x3617DE4A96262C6F5D9E98BF9292DC29F8F41DBD289A147CE9DA3113B5F0B8C00A60B1CE1D7E819D7A431D7C90EA0E5F
def p384n : Nat := 0xFFFFFFFFFFFFFFFFFFFFFFFFFFFFFFFFFFFFFFFFFFFFFFFFC7634D81F4372DDF581A0DB248B0A77AECEC196ACCC52973

/-- a − b in the field. -/
def subP (a b : Nat) : Nat := (a + (p384 - b % p384)) % p384

/-- A power modulo `m`, by the `n` low bits of the exponent. -/
def powMod (m : Nat) : Nat → Nat → Nat → Nat
  | 0, _, _ => 1
  | n + 1, b, e => (if e % 2 = 1 then b else 1) * powMod m n (b * b % m) (e / 2) % m

/-- The inverse modulo a 384-bit prime. -/
def invMod (m a : Nat) : Nat := powMod m 384 (a % m) (m - 2)

/-- A point in Jacobian coordinates; `z` = 0 is the point at infinity. -/
structure Point where
  x : Nat
  y : Nat
  z : Nat
  deriving DecidableEq, Repr

def Point.zero : Point := { x := 1, y := 1, z := 0 }

/-- Twice a point (a = −3). -/
def Point.double (p : Point) : Point :=
  if p.z = 0 ∨ p.y = 0 then Point.zero else
    let d := p.z * p.z % p384
    let g := p.y * p.y % p384
    let b := p.x * g % p384
    let a := 3 * (subP p.x d * (p.x + d)) % p384
    let x := subP (a * a % p384) (8 * b)
    { x := x, y := subP (a * subP (4 * b) x % p384) (8 * g * g), z := 2 * p.y * p.z % p384 }

/-- The sum of two points. -/
def Point.add (p q : Point) : Point :=
  if p.z = 0 then q else if q.z = 0 then p else
    let zz1 := p.z * p.z % p384
    let zz2 := q.z * q.z % p384
    let u1 := p.x * zz2 % p384
    let u2 := q.x * zz1 % p384
    let s1 := p.y * zz2 * q.z % p384
    let s2 := q.y * zz1 * p.z % p384
    let h := subP u2 u1
    let r := subP s2 s1
    if h = 0 then (if r = 0 then p.double else Point.zero) else
      let hh := h * h % p384
      let hhh := h * hh % p384
      let v := u1 * hh % p384
      let x := subP (r * r % p384) (hhh + 2 * v)
      { x := x, y := subP (r * subP v x % p384) (s1 * hhh), z := h * p.z * q.z % p384 }

/-- A multiple of a point, by the `n` low bits of the factor. -/
def Point.mul : Nat → Nat → Point → Point
  | 0, _, _ => Point.zero
  | n + 1, k, p => let rest := Point.mul n (k / 2) p.double
    if k % 2 = 1 then p.add rest else rest

/-- The two coordinates of a point. -/
def Point.affine (p : Point) : Nat × Nat :=
  let i := invMod p384 p.z
  (p.x * i * i % p384, p.y * i * i * i % p384)

def basePoint : Point := { x := p384x, y := p384y, z := 1 }

/-- The public key of a private key (R440): x, then y. -/
@[irreducible] def publicKey (d : Nat) : List Byte :=
  let a := (Point.mul 384 d basePoint).affine
  beBytes 48 a.1 ++ beBytes 48 a.2

/-- The signature verifies: public key, digest, signature (R440). -/
@[irreducible] def ecdsaVerify (key digest sig : List Byte) : Bool :=
  let x := beNat (key.take 48)
  let y := beNat ((key.drop 48).take 48)
  let r := beNat (sig.take 48)
  let t := beNat ((sig.drop 48).take 48)
  let w := invMod p384n t
  let e := beNat digest
  let q := (Point.mul 384 (e * w % p384n) basePoint).add (Point.mul 384 (r * w % p384n) { x := x, y := y, z := 1 })
  decide (key.length = 96) && decide (sig.length = 96) && decide (x < p384) && decide (y < p384)
    && decide (y * y % p384 = (x * x * x + (p384 - 3) * x + p384b) % p384)
    && decide (0 < r) && decide (r < p384n) && decide (0 < t) && decide (t < p384n)
    && decide (q.z ≠ 0) && decide (q.affine.1 % p384n = r)

/-- The signature of a digest under the private key `d` with the nonce `k`. -/
@[irreducible] def ecdsaSign (d k : Nat) (digest : List Byte) : List Byte :=
  let r := (Point.mul 384 k basePoint).affine.1 % p384n
  let t := invMod p384n k * (beNat digest + r * d) % p384n
  beBytes 48 r ++ beBytes 48 t

end Sys2Proof.Machine
end

