-- ==== Sys2Proof/Machine/Firmware.lean ====
section
/-! DEFINITION. What the module was made with and what its flash partition holds (15 R441 to R446, R454): the part record, the keys, the
firmware images and the anti-rollback counters. -/
namespace Sys2Proof.Machine

/-- 48 bytes of a byte string. -/
def bytes48 (l : List Byte) : List Byte := tabulate 48 fun i => l.getD i 0

/-- The module serial, never 0 (R441). -/
def serial : Nat := Config.serialRaw % (2 ^ 64 - 1) + 1

/-! ## Keys (R443) -/

/-- The secret of the identity PUF, and the salt of every key that is derived from it. -/
def pufSecret : List Byte := tabulate 48 Config.pufSecret
def keySalt : List Byte := beBytes 8 serial

/-- The identity private key d, and its public key. -/
def identityKey : Nat :=
  beNat (hkdf384 keySalt pufSecret ([0x4F, 0x4D, 0x32, 0x20, 0x69, 0x64, 0x65, 0x6E, 0x74, 0x69, 0x74, 0x79] : List Byte) 64)
    % (p384n - 1) + 1
def identityPub : List Byte := publicKey identityKey

/-- The flash authentication key, and the tag of a record of the partition under it (R444). -/
def flashKey : List Byte := hkdf384 keySalt pufSecret ([0x4F, 0x4D, 0x32, 0x20, 0x66, 0x6C, 0x61, 0x73, 0x68] : List Byte) 48
def flashTag (record : List Byte) : List Byte := hmac384 flashKey record

/-- A signature with the identity key. -/
def identitySign (digest : List Byte) : List Byte := ecdsaSign identityKey (Config.signNonce digest % (p384n - 1) + 1) digest

/-! ## Part record (R441, R442) -/

/-- A byte of the part record (Table 15-1): the fields that the manual fixes; any other byte is free (log 9). -/
def partByte (off : Nat) : Byte :=
  let certLen := Config.freeNat 0 [0x1860] % 1536 + 1
  let field (base n w : Nat) : Byte := (leBytes n w).getD (off - base) 0
  if off < 4 then field 0 4 0x31525050
  else if off < 6 then field 4 2 1
  else if off < 8 then 0
  else if off < 0x10 then field 8 8 serial
  else if off < 0x20 then BitVec.ofNat 8 (([0x45, 0x5A, 0x48, 0x2D, 0x4F, 0x4D, 0x32, 0x2D, 0x34, 0x38] : List Nat).getD (off - 0x10) 0)
  else if off < 0x28 then 0
  else if 0x1800 ≤ off ∧ off < 0x1860 then identityPub.getD (off - 0x1800) 0
  else if 0x1860 ≤ off ∧ off < 0x1862 then field 0x1860 2 certLen
  else if 0x1862 ≤ off ∧ off < 0x1880 then 0
  else if 0x1880 + certLen ≤ off ∧ off < 0x1E80 then 0
  else if 0x1E80 ≤ off ∧ off < 0x1EB0 then (sha384 Config.partRecordKey).getD (off - 0x1E80) 0
  else if 0x1EB0 ≤ off ∧ off < 0x1FA0 then 0
  else Config.partByte off

/-- The part record. -/
def partRecord : List Byte := tabulate 8192 partByte

/-- Bytes of the part record. -/
def partField (off n : Nat) : List Byte := tabulate n fun i => partByte (off + i)

/-- ROM accepts the part record (R442). -/
def recordAccepted : Bool :=
  decide (leNat (partField 0 4) = 0x31525050) && decide (leNat (partField 4 2) = 1)
    && decide (partField 0x1E80 48 = bytes48 (sha384 Config.partRecordKey))
    && ecdsaVerify Config.partRecordKey (sha384 (partField 0 0x1FA0)) (partField 0x1FA0 96)

/-- The identity key is accepted: d × G is `IDENTITY_PUB` (R443). -/
def identityAccepted : Bool := decide (identityPub = partField 0x1800 96)

/-! ## Firmware images (R445, R446) -/

/-- The largest body of a type (Table 15-3). -/
def bodyLimit (t : Nat) : Nat := if t = 1 then 0x200000 else if t = 3 then 0x400000 else 0x100000

/-- A byte of a slot that the manual does not fix (log 9). -/
def FwSlot.freeByte (x : FwSlot) (i : Nat) : Byte := BitVec.ofNat 8 (Config.freeNat 0 [0x445, x.place, i])

/-- The body length of the image that a slot left manufacture with. -/
def FwSlot.factoryBody (x : FwSlot) : Nat := Config.freeNat 0 [0x445, x.place] % (bodyLimit x.factory + 1)

/-- A byte of the image that a slot left manufacture with: its header is that of Table 15-2. -/
def FwSlot.factoryByte (x : FwSlot) (i : Nat) : Byte :=
  let field (base n w : Nat) : Byte := (leBytes n w).getD (i - base) 0
  if i < 4 then field 0 4 0x31574647
  else if i < 6 then field 4 2 1
  else if i < 8 then field 6 2 x.factory
  else if i < 0xC then field 8 4 1
  else if i < 0x10 then field 0xC 4 x.factoryBody
  else if i < 0x18 then x.freeByte i
  else if i < 0x40 then 0
  else if i < 0x70 then (sha384 (tabulate x.factoryBody fun j => x.freeByte (256 + j))).getD (i - 0x40) 0
  else if i < 0xA0 then 0
  else x.freeByte i

/-- A byte of a slot: staged, or of the image that it left manufacture with; with neither it is free (log 9). -/
def FwSlot.byte (x : FwSlot) (i : Nat) : Byte :=
  (mapFind i x.bytes).getD (if x.factory = 0 then x.freeByte i else x.factoryByte i)

/-- The 256 bytes of an image's header, and its digest m (R446). -/
def FwSlot.header (x : FwSlot) : List Byte := tabulate 256 x.byte
def FwSlot.digest (x : FwSlot) : List Byte := sha384 x.header

/-- The header fields of an image meet Table 15-2. -/
def FwSlot.formOk (x : FwSlot) (t : Nat) : Bool :=
  let h := leNat x.header
  decide (fieldAt h 0 0 32 = 0x31574647) && decide (fieldAt h 4 0 16 = 1) && decide (fieldAt h 6 0 8 = t)
    && decide (fieldAt h 7 0 8 = 0) && decide (fieldAt h 8 0 16 ≠ 0) && decide (fieldAt h 0xA 0 16 = 0)
    && decide (fieldAt h 0xC 0 32 ≤ bodyLimit t) && decide (fieldAt h 0x18 0 320 = 0) && decide (fieldAt h 0x70 0 384 = 0)

/-- `SVN` of an image. -/
def FwSlot.headerSvn (x : FwSlot) : Nat := fieldAt (leNat x.header) 8 0 16

/-- `SIGNATURE` verifies, and the body has the digest that the header names (R446). -/
def FwSlot.signed (x : FwSlot) : Bool :=
  let h := x.header
  let body := tabulate (fieldAt (leNat h) 0xC 0 32) fun i => x.byte (256 + i)
  ecdsaVerify Config.firmwareRootKey (sha384 (h.take 0xA0)) (h.drop 0xA0) && decide (bytes48 (sha384 body) = (h.drop 0x40).take 48)

/-- The slot holds nothing: no image from manufacture, and nothing staged. -/
def FwSlot.holdsNone (x : FwSlot) : Bool := decide (x.factory = 0) && x.bytes.isEmpty

/-- A slot whose tag has failed counts as absent (R444): nothing is in it until it is staged again. -/
def FwSlot.absent (x : FwSlot) : FwSlot := { place := x.place }

/-! ## Slots and counters of a type (R447, R454) -/

/-- A slot of a type. -/
def FwType.slot (t : FwType) (b : Bool) : FwSlot := if b then t.b else t.a
/-- A type with one slot changed. -/
def FwType.setSlot (t : FwType) (b : Bool) (x : FwSlot) : FwType := if b then { t with b := x } else { t with a := x }

/-- The copy of the counter in force: the valid one with the higher sequence number; with none, the counter's first value (log 9). -/
def FwType.inForce (t : FwType) : CounterCopy :=
  match t.first, t.second with
  | some x, some y => if x.seq < y.seq then y else x
  | some x, none => x
  | none, some y => y
  | none, none => {}

/-- The anti-rollback counter. -/
def FwType.counter (t : FwType) : Nat := t.inForce.value

/-- The second copy has the older sequence number. -/
def FwType.olderSecond (t : FwType) : Bool :=
  match t.first, t.second with
  | some x, some y => decide (y.seq ≤ x.seq)
  | none, _ => false
  | some _, none => true

/-- The counter rises to `n`: the older copy is written first, then the other, each with the next sequence number (log 9). -/
def FwType.raise (t : FwType) (n : Nat) : FwType :=
  if n ≤ t.counter then t
  else
    let older : CounterCopy := { value := n, seq := (t.inForce.seq + 1) % 2 ^ 32 }
    let other : CounterCopy := { value := n, seq := (t.inForce.seq + 2) % 2 ^ 32 }
    if t.olderSecond then { t with second := some older, first := some other } else { t with first := some older, second := some other }

/-! ## Rails (R450, R469; Table 13-2, Timing 16-2) -/

/-- The group of a rail in Timing 16-2; 0 for those that are up before power-good. -/
def Rail.group : Rail → Nat
  | .vin | .vaon | .vflash => 0
  | .vstkp => 1
  | .vstkc => 2
  | .vstkq => 3
  | .vmem | .vnand | .vnandq => 4
  | .vio | .vls => 5
  | .vcore => 6
  | .vsera | .vserh => 7

/-- The rails in the order of Timing 16-2. -/
def railOrder : List Rail :=
  [.vin, .vaon, .vflash, .vstkp, .vstkc, .vstkq, .vmem, .vnand, .vnandq, .vio, .vls, .vcore, .vsera, .vserh]

/-- The rails of the groups up to `g` are in regulation. -/
def State.railsUpTo (s : State) (g : Nat) : State :=
  { s with pins := { s.pins with rails := railOrder.filter fun r => decide (r.group ≤ g) } }

/-- The rails while boot is halted, and out of service: `VIO`, then `VSERA` and `VSERH`, every other group off (R432, R450). -/
def State.railsHalted (s : State) : State :=
  { s with pins := { s.pins with rails := [.vin, .vaon, .vflash, .vio, .vsera, .vserh] } }

end Sys2Proof.Machine
end

