-- ==== Sys2Proof/Machine/Layouts.lean ====
section
/-! DEFINITION. Structures as software reads them: fault records, epoch entries, agent status, log records, object entries,
session records, page-map entries and codec contexts, each as one little-endian number (R14), and registers that a dump holds too. -/
namespace Sys2Proof.Machine

/-- A fault record (Table 03-19), 64 bytes. -/
def FaultRec.word (r : FaultRec) : Nat :=
  packed [(0, 0, 16, r.info.code), (2, 0, 8, r.agent), (3, 0, 8, r.opcode), (4, 0, 32, r.epoch.toNat),
    (8, 0, 64, r.sundial.toNat), (0x10, 0, 48, r.addr), (0x18, 0, 32, r.lastTile), (0x1C, 0, 32, r.tileCount),
    (0x20, 0, 12, r.info.desc.getD 0), (0x20, 15, 1, r.info.desc.isSome.toNat), (0x22, 0, 8, r.info.field),
    (0x23, 0, 1, r.multi.toNat), (0x24, 0, 32, r.info.d0), (0x28, 0, 64, r.info.d1), (0x30, 0, 64, r.info.d2),
    (0x38, 0, 32, r.seq.toNat)]

/-- An epoch entry (Table 01-3), 32 bytes. -/
def EpochEntry.word (e : EpochEntry) : Nat :=
  packed [(0, 0, 64, e.start.toNat), (8, 0, 48, e.program), (0x10, 0, 32, e.epoch.toNat), (0x14, 0, 8, e.agent),
    (0x15, 0, 1, e.lateFault.toNat), (0x18, 0, 17, e.doneGate), (0x18, 31, 1, e.doneValid.toNat)]

/-- A slot: its entry, or zero when it is empty (Table 17-3). -/
def slotWordOf (e : Option EpochEntry) : Nat := (e.map EpochEntry.word).getD 0

/-- A record window: the record, or zero when none is held (Table 17-4). -/
def recordWordOf (r : Option FaultRec) : Nat := (r.map FaultRec.word).getD 0

/-- `RUN_STATE` (Table 17-4). -/
def Prog.code : Prog → Nat
  | .idle => 0
  | .running | .ending => 1
  | .faulted => 2
  | .resetting => 3

/-- `GATED`: clock-gated or power-gated. -/
def Gating.gated : Gating → Bool
  | .clockGated _ | .powerGated => true
  | .running | .waking _ => false

/-- `AGENT_STATUS` (Table 17-4). A block is gated from the end of boot stage 7 on (R403); before, the field has its reset value. -/
def State.agentStatus (s : State) (i : Nat) : Nat :=
  let a := s.agent i
  packed [(0, 0, 2, a.prog.code), (0, 2, 1, a.pending.isSome.toNat), (0, 3, 1, (decide (s.gatehouse.stage = 7) && a.gating.gated).toNat),
    (4, 0, 32, ((a.running.map fun e => e.epoch.toNat).getD 0))]

/-- A log record (Table 14-6), 64 bytes. -/
def LogRec.word (r : LogRec) : Nat :=
  packed [(0, 0, 64, r.seq.toNat), (8, 0, 64, r.sundial.toNat), (0x10, 0, 16, r.code), (0x12, 0, 16, r.source),
    (0x14, 0, 32, r.epoch.toNat), (0x18, 0, 32, r.boot), (0x1C, 0, 16, r.times), (0x1E, 0, 8, r.kind),
    (0x1F, 0, 1, r.multi.toNat), (0x20, 0, 48, r.addr), (0x28, 0, 32, r.lastTile), (0x2C, 0, 32, r.d0),
    (0x30, 0, 64, r.d1), (0x38, 0, 64, r.d2)]

/-- `STATE` of an object (Table 02-7). -/
def ObjState.code : ObjState → Nat
  | .absent => 0
  | .promoting => 1
  | .resident => 2
  | .evicting => 3
  | .retaining => 4

/-- An object-table entry (Table 02-7), 32 bytes. -/
def Obj.word (o : Obj) : Nat :=
  packed [(0, 0, 1, o.valid.toNat), (0, 1, 1, o.kind.toNat), (0, 2, 1, o.damaged.toNat), (0, 3, 3, o.st.code), (0, 6, 4, o.gen),
    (0, 10, 12, o.salt), (0, 22, 8, o.owner), (0, 30, 8, o.charge), (0, 38, 20, o.pins), (8, 0, 41, o.size),
    (0x10, 0, 24, o.base), (0x10, 24, 27, o.stripe), (0x18, 0, 16, o.held.length)]

/-- A session record (Table 07-1), 64 bytes. -/
def Session.word (r : Session) : Nat :=
  packed [(0, 0, 1, r.valid.toNat), (1, 0, 8, r.gen), (2, 0, 16, r.pins), (4, 0, 22, r.pmBase), (8, 0, 23, r.pagesPerLayer),
    (0xC, 0, 8, r.layers), (0xD, 0, 8, r.sink), (0xE, 0, 16, r.window), (0x10, 0, 32, r.len), (0x14, 0, 32, r.sealLen),
    (0x18, 0, 24, r.cache), (0x1C, 0, 24, r.belv), (0x20, 0, 48, r.belvOff), (0x28, 0, 16, r.latent), (0x2A, 0, 8, r.rope),
    (0x2B, 0, 4, r.fmt), (0x2C, 0, 16, r.slotBytes), (0x30, 0, 32, r.pageBytes)]

/-- A page-map entry (Table 07-2). -/
def PageEntry.word (e : PageEntry) : Nat := e.frame % 2 ^ 22 + (if e.valid then 2 ^ 31 else 0)

/-- `STATE` of a stream context (Table 11-2). -/
def CtxState.code : CtxState → Nat
  | .free => 0
  | .open_ => 1
  | .active => 2

/-- `CODEC_CTX_STATUS` (Table 11-2). -/
def Ctx.statusWord (x : Ctx) : Nat :=
  packed [(0, 0, 2, x.st.code), (0, 2, 1, x.decode.toNat), (0, 3, 1, x.hevc.toNat), (0, 4, 1, x.needRap.toNat),
    (0, 5, 1, x.leanBound.toNat), (1, 0, 3, x.core), (2, 0, 8, x.held.length), (4, 0, 32, x.nextFrame.toNat)]

/-- A routing-table entry (Table 12-6). -/
def Route.word (r : Route) : Nat := r.port + 16 * r.valid.toNat + 256 * r.altPort + 4096 * r.altValid.toNat

/-! ## Registers that a driver reads and a dump holds -/

/-- The temperature of a die as last reported. -/
def State.dieTemp (s : State) (die : Nat) : Nat := (mapFind die s.power.temps).getD 0

/-- `MOW_CONFIG` as it reads (Table 13-7). -/
def Power.mowWord (p : Power) : Nat := p.mowEn.toNat + 2 * p.mowRejected.toNat + 256 * p.mowLength + 65536 * p.mowPeriod

/-- Power block (Table 13-7). -/
def State.readPower (s : State) (off : Nat) : Nat :=
  let p := s.power
  match off with
  | 0x0 => packed [(0, 0, 1, p.lean.toNat), (0, 1, 1, p.leanActive.toNat), (0, 2, 1, p.profileRejected.toNat)]
  | 0x8 => p.idleHold
  | 0x10 => packed [(0, 0, 16, p.envelope / 10000), (2, 0, 16, p.peak), (4, 0, 16, p.inputW), (6, 0, 1, p.capHold.toNat),
      (6, 1, 1, p.powerCap.toNat), (6, 2, 1, p.sagFlag.toNat)]
  | 0x18 => p.inputMv
  | 0x20 => p.mowWord
  | 0x28 => p.mowPhase.toNat
  | 0x30 => p.inWindow.toNat + 2 * p.forced.toNat
  | 0x38 => p.lateness.toNat
  | 0x40 => packed ((List.range 8).map fun d => (d, 0, 8, s.dieTemp d))
  | 0x48 => p.trip.foldl (fun w d => Nat.lor w (2 ^ d)) 0
  | _ => 0

/-- The master serial that this module holds best. -/
def Sundial.master (u : Sundial) : Nat := u.best.getD serial

/-- `STATE` of a port (Table 12-8). -/
def PortState.code : PortState → Nat
  | .down => 0
  | .training => 1
  | .up => 2
  | .partnerOos => 3

/-- The registers of a port (Table 12-8). -/
def Port.read (q : Port) (off : Nat) : Nat :=
  match off with
  | 0x0 => packed [(0, 0, 2, q.maxGen), (2, 0, 16, q.asymTrim)]
  | 0x8 => packed [(0, 0, 2, q.st.code), (0, 2, 2, q.gen), (0, 4, 1, q.los.toNat), (0, 5, 1, q.degraded.toNat),
      (2, 0, 32, q.pathDelay)]
  | 0x10 => packed [(0, 0, 32, q.corrected), (4, 0, 16, q.replays), (6, 0, 16, q.discards)]
  | 0x18 => q.pSerial
  | 0x20 => packed [(0, 0, 14, q.pNode), (0, 14, 1, q.pNodeValid.toNat), (0, 15, 1, q.pOos.toNat), (0, 16, 4, q.pPort),
      (0, 20, 2, q.pGen)]
  | _ => 0

/-- `STATE` of the Sundial (Table 12-9). -/
def SunState.code : SunState → Nat
  | .free => 0
  | .acquiring => 1
  | .locked => 2

/-- This module is master (R390): it is in service, its best serial is its own, and it is settled (R386; log 140). -/
def State.isMaster (s : State) : Bool := s.sun.best.isNone && !s.recovery.oos && decide (s.sun.st ≠ .free)

/-- The Sundial's registers (Table 12-9), from 0x0808 on. -/
def State.readSundial (s : State) (off : Nat) : Nat :=
  let u := s.sun
  match off with
  | 0x808 => packed [(0, 0, 2, u.st.code), (0, 2, 1, s.isMaster.toNat), (0, 3, 5, u.depth),
      (1, 0, 4, if u.best.isNone then 0 else u.parent), (1, 4, 1, u.ppsValid.toNat), (1, 5, 1, u.stepped.toNat),
      (1, 6, 1, u.lockLost.toNat)]
  | 0x810 => u.master
  | 0x818 => u.settle + 64 * u.ppsEn.toNat
  | 0x820 => s.sundial.toNat
  | _ => 0

/-- Memory-control block (Table 02-6, R488). -/
def State.readMemory (s : State) (off : Nat) : Nat :=
  if off < 0x80 then
    let x := s.stack (off / 16)
    if off % 16 = 0 then packed [(0, 0, 8, x.temp), (1, 0, 2, x.step), (1, 2, 1, x.overtemp.toNat), (1, 3, 1, x.imbalance.toNat),
      (0, 12, 10, x.hotChannel), (0, 22, 24, x.hotBlock)]
    else x.ceCount
  else if off = 0x100 then s.objects.rejected.toNat + 4096 * s.objects.lastIndex
  else 0

/-- Quota block (Table 02-8). -/
def State.readQuota (s : State) (off : Nat) : Nat :=
  let q := s.quota (off / 32)
  match off % 32 with
  | 0 => q.stackLimit
  | 8 => q.stackUsed
  | 16 => q.iceLimit
  | _ => q.iceUsed

end Sys2Proof.Machine
end

