-- ==== Sys2Proof/Machine/Dump.lean ====
section
/-! DEFINITION. The crash dump (14 R436, Table 14-8). Where the manual gives a section's content and not the places in it, the model lays
it out (log 14). -/
namespace Sys2Proof.Machine

/-- A structure of `n` bytes at an offset, its non-zero bytes listed. -/
def dumped (off n w : Nat) : List (Nat × Byte) := (placed off (leBytes n w)).filter fun e => decide (e.2 ≠ 0)

/-- The arrays whose local stores are appended: those that hold records, lowest ID first, up to 15. -/
def State.dumpArrays (s : State) : List Nat :=
  if s.recovery.dumpLs then
    ((s.agents.filter fun e => isArray e.1 && e.2.fault.isSome).map (·.1)).take 15
  else []

/-- Length of a dump in KiB. -/
def dumpKib (stores : Nat) : Nat := 135168 + 8192 * stores

/-- The sections that hold agents' records and entries. -/
def State.dumpAgents (s : State) : List (Nat × Byte) :=
  s.agents.flatMap fun e =>
    dumped (0x1000 + 64 * e.1) 64 (recordWordOf e.2.fault) ++ dumped (0x5000 + 64 * e.1) 32 (slotWordOf e.2.running)
      ++ dumped (0x5020 + 64 * e.1) 32 (slotWordOf e.2.pending)

/-- Registers of 8 bytes from an offset on. -/
def dumpedRegs (off : Nat) (l : List Nat) : List (Nat × Byte) := l.zipIdx.flatMap fun e => dumped (off + 8 * e.2) 8 e.1

/-- The status of each agent, then the power, Sundial, link-port, stack-status and quota registers, each block as it is laid out in
control space (log 14). -/
def State.dumpRegs (s : State) : List (Nat × Byte) :=
  ((List.range 230).flatMap fun i => dumped (0x9000 + 64 * i) 8 (s.agentStatus i))
    ++ dumpedRegs 0xC980 ((List.range 10).map fun r => s.readPower (8 * r))
    ++ dumpedRegs 0xC9D0 ((List.range 4).map fun r => s.readSundial (0x808 + 8 * r))
    ++ ((List.range 14).flatMap fun p => dumpedRegs (0xC9F0 + 0x80 * p) ((List.range 5).map fun r => (s.port p).read (8 * r)))
    ++ dumpedRegs 0xD0F0 ((List.range 16).map fun r => s.readMemory (8 * r))
    ++ dumpedRegs 0xD170 ((List.range 1024).map fun r => s.readQuota (8 * r))

/-- The registers of the host-class cores, 8 KiB each: x, f, v, then `pc`, the vector and floating-point state, the mode and the
S-mode registers (log 14). -/
def State.dumpCores (s : State) : List (Nat × Byte) :=
  (List.range 16).flatMap fun k =>
    let c := s.core k
    let base := 0xE0000 + 8192 * k
    (c.x.flatMap fun e => dumped (base + 8 * e.1) 8 e.2.toNat)
      ++ (c.f.flatMap fun e => dumped (base + 0x100 + 8 * e.1) 8 e.2.toNat)
      ++ (c.v.flatMap fun e => dumped (base + 0x200 + 64 * e.1) 64 e.2.toNat)
      ++ dumpedRegs (base + 0xA00) [c.pc.toNat, c.fcsr.toNat, c.vl.toNat, c.vtype.toNat, c.vstart.toNat, c.vcsr.toNat, c.user.toNat,
        c.satp.toNat, c.stvec.toNat, c.sstatus.toNat, c.sie.toNat, c.scounteren.toNat, c.senvcfg.toNat, c.sscratch.toNat, c.sepc.toNat, c.scause.toNat, c.stval.toNat]

/-- The Trellis header of the oldest instruction in flight that has a Trellis, the rows in execution of the copy engine, the cells and
the store port, and the instructions issued, 32 bytes each (log 14). -/
def State.dumpTrellis (s : State) : List (Nat × Byte) :=
  s.arrays.flatMap fun e =>
    let base := 0x8200000 + 8192 * e.1
    let head := match e.2.flights.find? (·.hasRows) with
      | some f =>
        let t := s.nominal e.1 f {}
        s.header e.1 f.word 0 0 (f.rowsFrom (startTile f.word)).length (t.map (·.1)) (t.bind (·.2)) f.gridFields
      | none => []
    let row (i : Nat) (u : TUnit) : List (Nat × Byte) := match s.nextRow e.1 u with
      | some (f, r) => placed (base + 64 + 32 * i) (s.rowBytes f i r)
      | none => []
    ((placed base head ++ row 0 .copy ++ row 1 .compute ++ row 2 .store).filter fun b => decide (b.2 ≠ 0))
      ++ (e.2.flights.take 8).zipIdx.flatMap fun f => dumped (base + 160 + 32 * f.2) 32 f.1.word

/-- The codec contexts, 4 KiB each: `CODEC_CTX_STATUS`, then the command that opened the context (log 14). -/
def State.dumpCodec (s : State) : List (Nat × Byte) :=
  s.codec.ctxs.flatMap fun e =>
    dumped (0x8380000 + 4096 * e.1) 8 e.2.statusWord ++ dumped (0x8380040 + 4096 * e.1) 64 (e.2.opened.getD 1 0)

/-- The tables: routes, log, gates, sessions, page map, objects, block tables, descriptor tables. -/
def State.dumpTables (s : State) : List (Nat × Byte) :=
  (s.link.routes.flatMap fun e => dumped (0x10000 + 4 * e.1) 4 e.2.word)
    ++ (s.recovery.log.flatMap fun r => dumped (0x20000 + 64 * (r.seq.toNat % 4096)) 64 r.word)
    ++ (s.gates.flatMap fun e => dumped (0x60000 + 4 * e.1) 4 e.2.value.toNat)
    ++ (s.sessions.recs.flatMap fun e => dumped (0x100000 + 64 * e.1) 64 e.2.word)
    ++ (s.sessions.pages.flatMap fun e => dumped (0x200000 + 4 * e.1) 4 e.2.word)
    ++ (s.objects.objs.flatMap fun e => dumped (0x1200000 + 32 * e.1) 32 e.2.word)
    ++ (s.mem.extents.flatMap fun x => (List.range x.count).flatMap fun i =>
        dumped (0x3200000 + 2 * (x.first + i)) 2 (s.mem.blockEntry (x.first + i)))
    ++ (s.arrays.flatMap fun e => e.2.descs.flatMap fun d => dumped (0x5200000 + 262144 * e.1 + 64 * d.1) 64 d.2.word)

/-- The appended local stores. -/
def State.dumpStores (s : State) (arrays : List Nat) : List (Nat × Byte) :=
  arrays.zipIdx.flatMap fun e =>
    (s.mem.cells.filter fun c => decide (lsAddr e.1 0 ≤ c.1) && decide (c.1 < lsAddr e.1 0 + lsBytes)).map fun c =>
      (0x8400000 + lsBytes * e.2 + (c.1 - lsAddr e.1 0), c.2)

/-- The header. -/
def State.dumpHeader (s : State) (seq : Nat) (arrays : List Nat) : List (Nat × Byte) :=
  dumped 0 32 (packed [(0, 0, 16, 1), (8, 0, 64, seq), (0x10, 0, 64, s.sundial.toNat), (0x18, 0, 32, dumpKib arrays.length),
    (0x1C, 0, 8, arrays.length)]) ++ ((placed 0x20 (arrays.map (BitVec.ofNat 8))).filter fun e => decide (e.2 ≠ 0))

/-- The dump is held in its slot; `seq` names the log record that caused it. -/
def State.captureDump (s : State) (seq : Nat) : State :=
  let l := s.dumpArrays
  { s with recovery := { s.recovery with
      dumpValid := true, dumpKib := dumpKib l.length,
      dump := s.dumpHeader seq l ++ s.dumpAgents ++ s.dumpRegs ++ s.dumpCores ++ s.dumpTables ++ s.dumpTrellis ++ s.dumpCodec
        ++ s.dumpStores l } }

/-- Parts of a dump whose bytes no rule fixes: the inner state of codec contexts beyond what Table 11-2 and R343 name, and bytes
of local stores that nothing has written. -/
def dumpOpen (off : Nat) : Bool := decide (0x8400000 ≤ off) || (decide (0x8380000 ≤ off) && decide (0x80 ≤ off % 4096))

/-- A byte of the held dump. -/
def Recovery.dumpByte (r : Recovery) (off : Nat) : Byte :=
  match mapFind off r.dump with
  | some b => b
  | none => if dumpOpen off then
      BitVec.ofNat 8 (Config.freeNat (leNat (tabulate 8 fun i => (mapFind (8 + i) r.dump).getD 0)) [0x436, off]) else 0

end Sys2Proof.Machine
end

