-- ==== Sys2Proof/Machine/Ports.lean ====
section
/-! DEFINITION. Ports (12 R368 to R387): election of the Sundial master as ports come and go (R390), training, the link layer's
trains, loss of a partner, and the driver's writes to the link block. -/
namespace Sys2Proof.Machine

/-- The ports, by number. -/
def portNumbers : List Nat := List.range 14

/-! ## Election (R390, R391) -/

/-- An offer of R390: serial, distance, port. -/
def offerBelow (a b : Nat × Nat × Nat) : Bool :=
  decide (a.1 < b.1) || (decide (a.1 = b.1) && (decide (a.2.1 < b.2.1) || (decide (a.2.1 = b.2.1) && decide (a.2.2 < b.2.2))))

/-- The offers of partners in service whose distance is reachable. -/
def State.offers (s : State) : List (Nat × Nat × Nat) :=
  portNumbers.filterMap fun p => match (s.port p).adv with
    | some a => if (s.port p).st = .up ∧ a.distance + 1 < 31 then some (a.serial, a.distance + 1, p) else none
    | none => none

/-- The best advertisement is recomputed: this module's own serial at distance 0, or a better offer (R390). A module out of service is
never master, so that any offer is better than its own (R386). -/
def State.elect (s : State) : State :=
  let first := if s.recovery.oos then s.offers.headD (serial, 0, 0) else (serial, 0, 0)
  let b := s.offers.foldl (fun b o => if offerBelow o b then o else b) first
  let best := if b.1 = serial then none else some b.1
  let same := decide (best = s.sun.best) && decide (b.2.1 = s.sun.depth)
  { s with sun := { s.sun with
      best := best, depth := b.2.1, parent := b.2.2, stable := if same then s.sun.stable else 0,
      changed := s.sun.changed || !same } }

/-! ## Neighbour messages (R383) -/

/-- The `NEIGHBOUR` message of this module on port `p`. -/
def State.neighbourTxn (s : State) (p : Nat) : Txn :=
  let w2 := s.link.nodeId + (if s.link.nodeValid then 2 ^ 14 else 0) + p * 2 ^ 16 + (s.port p).gen * 2 ^ 20
    + (if s.recovery.oos then 2 ^ 22 else 0)
  { hdr := { hdrOf tNeighbour with w1 := serial, w2 := w2 }, data := [] }

/-- A port whose partner answers one-hop messages: UP, or with a partner out of service (R386). -/
def State.linked (s : State) (p : Nat) : Bool := decide ((s.port p).st = .up) || decide ((s.port p).st = .partnerOos)

/-- Every linked port sends a `NEIGHBOUR` message. -/
def State.announce (s : State) : State :=
  portNumbers.foldl (fun s p => if s.linked p then s.send p (s.neighbourTxn p) else s) s

/-! ## Loss of a partner (R385) -/

/-- A response that this module makes to a request with header `h` that arrived on port `p` (R379, R380). -/
def State.respond (s : State) (p : Nat) (h : Hdr) (kind w2 : Nat) (data : List (Nat × Byte)) : State :=
  let out := if 12 ≤ p ∨ h.directed ∨ !s.link.nodeValid then p else match s.routePort h.src with
    | .ok q => q
    | .error _ => p
  let r : Hdr :=
    { kind := kind, directed := h.directed, host := h.host, hostPort := h.hostPort, hops := 31, dst := h.src,
      src := s.link.nodeId, tag := h.tag, w1 := 0, w2 := w2, w3 := if h.directed then h.w3 else 0 }
  if s.linked out then s.send out { hdr := r, data := data } else s

/-- A `NACK`. -/
def State.nackTo (s : State) (p : Nat) (h : Hdr) (code : Nat) : State := s.respond p h tNack code []

/-- A request awaits a response (Table 12-5). -/
def isRequest (kind : Nat) : Bool := kind == tWrite || kind == tReadReq || kind == tGsig

/-- Export jobs whose route is port `p` end (R284). -/
def State.endPortJobs (s : State) (p code : Nat) : State :=
  (List.range 16).foldl (fun s m =>
    let jobs := (s.mover m).jobs
    let lost := jobs.filter fun j => decide (j.port = some p)
    lost.foldl (State.endJob m code) (if lost = [] then s else s.setJobs m (jobs.filter fun j => decide (j.port ≠ some p)))) s

/-- Port `p` goes DOWN (R385): the event, this module's transactions on it, the transit transactions it holds, the jobs that
take it, and the election. -/
def State.portDown (s : State) (p : Nat) : State :=
  let q := s.port p
  if q.st = .down then s
  else
    let live := s.linked p
    let s1 := s.modPort p fun q => { portInitial p with
      maxGen := q.maxGen, asymTrim := q.asymTrim, los := q.los, degraded := q.degraded, corrected := q.corrected,
      replays := q.replays, discards := q.discards, pSerial := q.pSerial, pNode := q.pNode, pNodeValid := q.pNodeValid,
      pOos := q.pOos, pPort := q.pPort, pGen := q.pGen, downSince := s.sundial }
    let s2 := if live then s1.logEvent cLinkDown (srcPort p) 0 p q.pSerial 0 else s1
    let tags := (s2.link.pending.filter fun e => decide (e.2.port = p)).map (·.1)
    let s3 := tags.foldl (fun s t => s.loseTxn t cLinkLost) s2
    let held := q.out.filter fun t => isRequest t.hdr.kind && decide (0x200 ≤ t.flow ∧ t.flow < 0x300)
    let s4 := held.foldl (fun s t => s.nackTo (t.flow - 0x200) t.hdr cLinkLost) s3
    (s4.endPortJobs p cLinkLost).elect

/-- `LOSS_OF_SIGNAL` (R385). -/
def execLossOfSignal (p : Nat) (s : State) : Outcome :=
  if s.alwaysOn && decide (p < 14) && decide ((s.port p).st ≠ .down) then
    .next ((s.modPort p fun q => { q with los := true }).portDown p)
  else .next s

/-! ## Training (R370, R371) -/

/-- Generations of a port (Table 12-1). -/
def portGens (p : Nat) : List Nat := if p < 12 then [2, 3] else [1, 2]

/-- The highest generation of a list, 0 when it is empty. -/
def highest (l : List Nat) : Nat := l.foldl max 0

/-- The ports are powered and not idle: boot has powered them, and no reset holds them (R385, R432, R448, R450). Peer ports
stay idle while boot is halted; a module that comes up out of service powers its ports. -/
def State.portPowered (s : State) (p : Nat) : Bool :=
  s.alwaysOn && (s.gatehouse.ready || (s.gatehouse.halted && decide (12 ≤ p)) || (s.recovery.oos && decide (s.gatehouse.stage = 4)))
    && decide (p < 14) && !s.warmResetting
    && !(s.recovery.resets.any fun r => decide (r.domain = 5 ∧ r.target = p)) && decide ((s.port p).maxGen ≠ 0)

/-- Training begins, with `MAX_GEN` as it stands (R371). -/
def State.train (s : State) (p : Nat) : State :=
  s.modPort p fun q => { q with st := .training, gen := 0, limit := q.maxGen, tryGen := 0, fails := 0 }

/-- `PARTNER_DETECTION` (R370): after failed attempts the port trains again with `LINK_TRAIN_RETRY`. -/
def execPartnerDetection (p : Nat) (s : State) : Outcome :=
  if s.portPowered p && decide ((s.port p).st = .down) && decide ((s.port p).fails = 0) then .next (s.train p) else .next s

/-- The credit of a class that the partner grants at link-layer start (R370): the spec states no figure (log 87). -/
def State.grant (s : State) (p c : Nat) : Nat := Config.freeNat s.free [0x370, p, c] % 65536

/-- The port reaches UP: its link layer starts anew, credits are exchanged and a `NEIGHBOUR` message goes out (R370, R383). -/
def State.portUp (s : State) (p gen : Nat) (now : Word64) : State :=
  let s1 := s.fresh.modPort p fun q => { q with
    st := .up, gen := gen, tryGen := 0, fails := 0, upSince := now, met := false, txSeq := 0, rxSeq := 0, nak := false,
    unacked := [], resend := [], sent := [], credits := (List.range 4).map (s.grant p), freed := [0, 0, 0, 0], windowStart := now,
    windowTrains := 0, windowReplays := 0, out := [], ingress := [], starved := none }
  s1.send p (s1.neighbourTxn p)

/-- Training fails at its lowest generation: DOWN, to be tried again in 1 s (R370). -/
def State.trainFailed (s : State) (p : Nat) (now : Word64) : State :=
  (s.modPort p fun q => { q with st := .down, gen := 0, tryGen := 0, fails := 3, downSince := now }).logEvent
    cLinkTrainFailed (srcPort p) 0 p 0 0

/-- Lanes of a port (Table 12-1). -/
def portLanes (p : Nat) : Nat := if p < 12 then 4 else 8

/-- The lanes of port `p` train (R368, R460): every one is up, with the partner's lanes in order or in the reverse order; P and N may be
inverted within any pair. -/
def lanesTrain (p : Nat) (lanes : List LaneFinding) : Bool :=
  let heard := lanes.map (·.partner)
  let order := (List.range (portLanes p)).map some
  decide (heard = order) || decide (heard = order.reverse)

/-- `TRAINING_COMPLETE` (R370): an attempt ends at the generation tried. -/
def execTrainingComplete (p : Nat) (lanes : List LaneFinding) (gens : List Nat) (now : Word64) (s : State) : Outcome :=
  match s.at? now with
  | none => .next s
  | some s1 =>
    let q := s.port p
    if s.portPowered p && decide (q.st = .training) then
      let common := (portGens p).filter fun g => gens.contains g && decide (g ≤ q.limit)
      let gen := if q.tryGen = 0 then highest common else q.tryGen
      if lanesTrain p lanes && common.contains gen then .next (s1.portUp p gen now)
      else if q.fails < 2 ∧ gen ≠ 0 then .next (s1.modPort p fun q => { q with tryGen := gen, fails := q.fails + 1 })
      else
        let lower := highest (common.filter fun g => decide (g < gen))
        .next (if lower = 0 then s1.trainFailed p now
          else s1.modPort p fun q => { q with tryGen := lower, fails := 0 })
    else .next s

/-- `LINK_TRAIN_RETRY` (R370): 1 s after training failed. -/
def execLinkTrainRetry (p : Nat) (now : Word64) (s : State) : Outcome :=
  match s.at? now with
  | none => .next s
  | some s1 =>
    let q := s.port p
    if s.portPowered p && decide (q.st = .down) && decide (0 < q.fails)
        && decide (usTicks 1000000 ≤ now.toNat - q.downSince.toNat) then .next (s1.train p)
    else .next s

/-! ## Neighbours (R383, R386) -/

/-- `NEIGHBOUR_TIMEOUT` (R383). -/
def execNeighbourTimeout (p : Nat) (now : Word64) (s : State) : Outcome :=
  match s.at? now with
  | none => .next s
  | some s1 =>
    let q := s.port p
    if s.linked p && !q.met && decide (usTicks 100 ≤ now.toNat - q.upSince.toNat) then
      .next ((s1.modPort p fun q => { q with
        met := true, pSerial := 0, pNode := 0, pNodeValid := false, pOos := false, pPort := 0, pGen := 0
        }).logEvent cLinkUp (srcPort p) 0 p 0 0)
    else .next s

/-- A port learns from its partner's traffic whether the partner is in a window (R414): no field of the tables carries it, so it is
a free value (log 99). -/
def State.learnWindow (s : State) (p : Nat) : State := s.fresh.modPort p fun q => { q with pWindow := Config.freeBool s.free }

/-- A partner enters or leaves service (R386). -/
def State.partnerService (s : State) (p : Nat) (oos : Bool) : State :=
  if oos then (s.modPort p fun q => { q with st := if q.st = .up then .partnerOos else q.st, adv := none }).elect
  else s.modPort p fun q => { q with st := if q.st = .partnerOos then .up else q.st }

/-- `NEIGHBOUR` (R383): its fields are recorded and `LINK_UP` is raised; one that follows a silent start is recorded only. -/
def execNeighbour (p : Nat) (h : Hdr) (s : State) : Outcome :=
  if s.linked p && !(s.port p).equalising then
    let q := s.port p
    let s1 := (s.learnWindow p).modPort p fun q => { q with
      met := true, pSerial := h.w1, pNode := bits h.w2 0 14, pNodeValid := bit h.w2 14, pPort := bits h.w2 16 4,
      pGen := bits h.w2 20 2, pOos := bit h.w2 22 }
    let s2 := s1.partnerService p (bit h.w2 22)
    .next (if q.met && decide (q.pSerial = 0) then s2 else s2.logEvent cLinkUp (srcPort p) 0 p h.w1 0)
  else .next s

/-! ## Trains (R372, R373, R375) -/

/-- The class of a transaction type (Table 12-5). -/
def classOf (kind : Nat) : Nat :=
  if kind = tExport then 2 else if kind = tReadResp ∨ kind = tAck ∨ kind = tNack then 1
  else if kind = tSyncReq ∨ kind = tSyncResp ∨ kind = tNeighbour then 3 else 0

/-- Data units of a transaction (Table 12-5). -/
def Txn.units (t : Txn) : Nat :=
  if t.hdr.kind = tWrite ∨ t.hdr.kind = tReadResp ∨ t.hdr.kind = tExport then bits t.hdr.w2 0 7 else 0

/-- Counts saturate at their width. -/
def satCount (w a b : Nat) : Nat := min (2 ^ w - 1) (a + b)

/-- The credit that a transaction costs (log 87). -/
def flitCost (units : Nat) : Nat := max 1 (ceilDiv units 4)

/-- A train being formed: its transactions, its data units, four to a flit, the credit left, the classes that must wait, the
streams of a class that must wait, and the class and stream whose data it carries (R369). -/
structure Train where
  txns : List Txn
  units : Nat
  credits : List Nat
  shut : List Nat
  late : List (Nat × Nat)
  flow : Option (Nat × Nat)
  deriving DecidableEq, Repr

/-- A transaction joins the train when a header slot, data flits and credit of its class are left, no earlier one of its stream
and class waits, and its data, if any, is of the train's stream. -/
def Train.join (r : Train) (t : Txn) : Train :=
  let c := classOf t.hdr.kind
  let need := flitCost t.units
  if r.shut.contains c ∨ r.late.contains (c, t.flow) then r
  else if t.units ≠ 0 ∧ r.flow.getD (c, t.flow) ≠ (c, t.flow) then { r with late := (c, t.flow) :: r.late }
  else if r.txns.length < 7 ∧ ceilDiv (r.units + t.units) 4 ≤ 112 ∧ need ≤ r.credits.getD c 0 then
    { r with txns := r.txns ++ [t], units := r.units + t.units, credits := r.credits.set c (r.credits.getD c 0 - need),
             flow := if t.units = 0 then r.flow else some (c, t.flow) }
  else { r with shut := c :: r.shut }

/-- The least number of a list. -/
def leastOf : List Nat → Option Nat
  | [] => none
  | a :: l => some (l.foldl min a)

/-- The streams take turns: the transactions of the next one after `last` that has data waiting come first (R369). -/
def inTurn (last : Nat) (l : List Txn) : List Txn :=
  let flows := (l.filter fun t => decide (t.units ≠ 0)).map (·.flow)
  match (leastOf (flows.filter fun f => decide (last < f))).orElse fun _ => leastOf flows with
  | some f => (l.filter fun t => decide (t.flow = f)) ++ l.filter fun t => decide (t.flow ≠ f)
  | none => l

/-- A train without transactions: its control flit carries only acknowledgements and credits (R372). -/
def Port.control (q : Port) : Train := { txns := [], units := 0, credits := q.credits, shut := [], late := [], flow := none }

/-- The port's next train, in the order of R375 with the streams of each class in turn (R369). -/
def Port.train (q : Port) : Train :=
  let order := if q.turn then [3, 1, 2, 0] else [3, 1, 0, 2]
  (order.flatMap fun c => inTurn (q.lastFlow.getD c 0) (q.out.filter fun t => decide (classOf t.hdr.kind = c))).foldl Train.join
    q.control

/-- The replay window of R373: at the end of each 1 ms the port judges its replays. -/
def State.rollWindow (s : State) (p : Nat) : State :=
  let q := s.port p
  if s.sundial.toNat < q.windowStart.toNat + 4000000 then s
  else
    let bad := decide (q.windowTrains < q.windowReplays * 10000)
    let s1 := s.modPort p fun q => { q with
      windowStart := s.sundial, windowTrains := 0, windowReplays := 0, degraded := q.degraded || bad }
    if bad then s1.logEvent cLinkDegraded (srcPort p) 0 p 0 0 else s1

/-- A transaction header (Table 12-4). -/
def hdrWord (h : Hdr) : Nat :=
  packed [(0, 0, 4, h.kind), (0, 4, 1, h.directed.toNat), (0, 5, 1, h.host.toNat), (0, 6, 1, h.hostPort.toNat), (1, 0, 5, h.hops),
    (2, 0, 14, h.dst), (4, 0, 14, h.src), (6, 0, 16, h.tag), (8, 0, 64, h.w1), (0x10, 0, 64, h.w2), (0x18, 0, 64, h.w3)]

/-- The data units of a transaction; a byte of them that it does not write is free (log 14). -/
def State.txnBytes (s : State) (t : Txn) : List Byte :=
  tabulate (64 * t.units) fun i => ((t.data.find? fun e => decide (e.1 = i)).map (·.2)).getD
    (BitVec.ofNat 8 (Config.freeNat s.free [0x372, i]))

/-- A train as bytes (R372, Table 12-3): the control flit with both CRCs, then the data flits padded with zeros. -/
def State.trainBytes (s : State) (q : Port) (r : Train) : List Byte :=
  let data := r.txns.flatMap s.txnBytes
  let n := ceilDiv r.units 4
  let padded := data ++ List.replicate (256 * n - data.length) 0
  let flit := leBytes 256 (packed ([(0, 0, 8, n), (1, 0, 3, r.txns.length), (2, 0, 16, q.txSeq), (4, 0, 16, q.rxSeq + 65535),
      (6, 0, 1, q.nak.toNat), (6, 1, 1, s.recovery.oos.toNat), (0x18, 0, 32, if n = 0 then 0 else crc32c padded)]
    ++ (List.range 4).map (fun c => (8 + 2 * c, 0, 16, q.freed.getD c 0))
    ++ (List.range r.txns.length).filterMap (fun i => (r.txns[i]?).map fun t => (0x20 + 32 * i, 0, 256, hdrWord t.hdr))))
  flit.take 0x1C ++ leBytes 4 (crc32c (flit.take 0x1C ++ flit.drop 0x20)) ++ flit.drop 0x20 ++ padded

/-- Bytes of the replay buffer, and those that it holds (R373). -/
def replayBytes : Nat := 2097152
def Port.heldBytes (q : Port) : Nat := q.unacked.foldl (fun n t => n + t.bytes.length) 0

/-- The port sends a new train `r`: its control flit with acknowledgement and freed credit, and its transactions; it keeps the
train until it is acknowledged. A wait of class 2 for credit that begins takes the link timeout `limit` in force (R418). -/
def Port.sendTrain (q : Port) (r : Train) (bytes : List Byte) (now : Word64) (limit : Nat) : Port :=
  let out := r.txns.foldl (fun l t => l.erase t) q.out
  { q with
    out := out, credits := r.credits, freed := [0, 0, 0, 0], txSeq := (q.txSeq + 1) % 65536,
    unacked := q.unacked ++ [{ seq := q.txSeq, bytes := bytes }], sent := bytes, windowTrains := q.windowTrains + 1,
    turn := if r.txns = [] then q.turn else !q.turn, lastFlow := (r.flow.map fun f => q.lastFlow.set f.1 f.2).getD q.lastFlow,
    starved := if out.any (fun t => decide (t.hdr.kind = tExport)) && decide (r.credits.getD 2 0 = 0) then
      some (q.starved.getD (now, limit)) else none }

/-- The port sends a train again that a NAK asked for (R373). -/
def Port.sendAgain (q : Port) (t : SentTrain) (rest : List SentTrain) : Port :=
  { q with resend := rest, sent := t.bytes, replays := satCount 16 q.replays 1, windowReplays := q.windowReplays + 1,
           windowTrains := q.windowTrains + 1 }

/-- Port `p` sends its next new train, or a control flit alone where the replay buffer has no room for the train (R372, R373). -/
def State.sendNew (s : State) (p : Nat) (now : Word64) : State :=
  let q := s.port p
  match [q.train, q.control].find? fun r => decide (q.heldBytes + (s.trainBytes q r).length ≤ replayBytes) with
  | none => s
  | some r => (s.modPort p fun q => q.sendTrain r (s.trainBytes q r) now s.recovery.linkTimeout).fresh.settleFrames p

/-- Port `p` sends the first train that a negative acknowledgement asked for again, else a new one (R373). -/
def State.sendNext (s : State) (p : Nat) (now : Word64) : State :=
  match (s.port p).resend with
  | t :: rest => s.modPort p fun q => q.sendAgain t rest
  | [] => s.sendNew p now

/-- `CONTROL_FLIT_TIMER` (R372, R373): the port sends a train: the next one to replay, or a new one that the replay buffer has
room for; a frame whose last part leaves with it has been transmitted (R282). -/
def execControlFlitTimer (p : Nat) (now : Word64) (s : State) : Outcome :=
  match s.at? now with
  | none => .next s
  | some s0 =>
    if s.linked p && !(s.port p).equalising then .next ((s0.rollWindow p).sendNext p now) else .next s

/-- The trains after `ack`, when it is among those unacknowledged. -/
def ackTrains (ack : Nat) (l : List SentTrain) : List SentTrain :=
  if l.any fun t => decide (t.seq = ack) then (l.dropWhile fun t => decide (t.seq ≠ ack)).drop 1 else l

/-- The credit of class `k` that a train's transactions have taken: its headers' flits, those of no class counted to class 0. -/
def freedFlits (c k : Nat) : Nat :=
  (List.range (bits c 8 3)).foldl (fun n i =>
    let kind := fieldAt c (0x20 + 32 * i) 0 4
    let units := if kind = tWrite ∨ kind = tReadResp ∨ kind = tExport then fieldAt c (0x30 + 32 * i) 0 7 else 0
    if classOf kind = k then n + flitCost units else n) 0

/-- A control flit's fields as the receiver takes them (Table 12-3): acknowledgement, replay request, credit, service state, and
the headers of invalid type. -/
def State.takeControl (s : State) (p : Nat) (c : Nat) : State :=
  let headers := bits c 8 3
  let invalid := ((List.range headers).filter fun i =>
    let t := fieldAt c (0x20 + 32 * i) 0 4
    decide (t = 0 ∨ 0xB ≤ t)).length
  let s1 := s.modPort p fun q =>
    let rest := ackTrains (half16 c 4) q.unacked
    { q with
      rxSeq := (q.rxSeq + 1) % 65536, nak := false, unacked := rest,
      resend := if bit c 48 then rest else q.resend.filter fun t => rest.any fun u => decide (u.seq = t.seq),
      discards := satCount 16 q.discards invalid,
      credits := (List.range 4).map fun i => q.credits.getD i 0 + half16 c (8 + 2 * i),
      freed := (List.range 4).map fun i => q.freed.getD i 0 + freedFlits c i,
      starved := if 0 < half16 c 12 then none else q.starved }
  (s1.learnWindow p).partnerService p (bit c 49)

/-- `TRAIN_RECEIVE` (R373): a train in sequence and intact is accepted; any other is discarded and `NAK` set. -/
def execTrainReceive (p : Nat) (fecOk : Bool) (corrected : Nat) (ctrl data : List Byte) (now : Word64) (s : State) : Outcome :=
  match s.at? now with
  | none => .next s
  | some s0 =>
    if s.linked p && !(s.port p).equalising then
      let s1 := (s0.modPort p fun q => { q with corrected := satCount 32 q.corrected corrected }).rollWindow p
      let c := leNat ctrl
      let n := bits c 0 8
      let intact := fecOk && decide (ctrl.length = 256) && decide (data.length = 256 * n)
        && decide (fieldAt c 0x18 0 32 = if n = 0 then 0 else crc32c data)
        && decide (fieldAt c 0x1C 0 32 = crc32c (ctrl.take 0x1C ++ ctrl.drop 0x20))
      if intact && decide (half16 c 2 = (s.port p).rxSeq) then .next (s1.takeControl p c)
      else .next (s1.modPort p fun q => { q with nak := true })
    else .next s

/-! ## Timeouts (R377, R397) -/

/-- `LINK_TIMEOUT`: a transaction without a response within its timeout, and the jobs whose port has had no class-2 credit for
as long. -/
def execLinkTimeout (tag : Nat) (now : Word64) (s : State) : Outcome :=
  match s.at? now with
  | none => .next s
  | some s0 =>
    if s.alwaysOn then
      let s1 := match mapFind tag s.link.pending with
        | some p => if usTicks p.limit ≤ now.toNat - p.sentAt.toNat then s0.loseTxn tag cLinkTimeout else s0
        | none => s0
      .next (portNumbers.foldl (fun s p => match (s.port p).starved with
        | some (t, limit) => if usTicks limit ≤ now.toNat - t.toNat then
            (s.modPort p fun q => { q with starved := none }).endPortJobs p cLinkTimeout else s
        | none => s) s1)
    else .next s

/-! ## The driver's writes (R371, R378, R381, R387) -/

/-- `LINK_NODE_ID` (R378). -/
def execLinkNodeId (w : RegVal) (s : State) : Outcome :=
  if s.driverReaches && w.hasLow then
    if s.anyEntry then .next { s with link := { s.link with nodeRejected := true } }
    else
      let s1 := { s with link := { s.link with
        nodeId := w.fld 0 14, nodeValid := bit w.value.toNat 14,
        nodeRejected := s.link.nodeRejected && !bit w.value.toNat 15 } }
      .next s1.announce
  else .next s

/-- `ROUTE_ENTRY_WRITE` (R379, R381). -/
def execRouteEntryWrite (node : Nat) (value : BitVec 32) (s : State) : Outcome :=
  if s.driverReaches && decide (node < 16384) then
    let v := value.toNat
    let old := s.route node
    let keep (new prev : Nat) : Nat := if 14 ≤ new then prev else new
    let r : Route :=
      { port := keep (bits v 0 4) old.port, valid := bit v 4, altPort := keep (bits v 8 4) old.altPort, altValid := bit v 12 }
    let tags := (s.link.pending.filter fun e => decide (e.2.node = node)).map (·.1)
    .next { s with link := { s.link with
      routes := mapPut node r s.link.routes,
      holds := if tags = [] then s.link.holds else (s.link.holds.filter fun e => decide (e.1 ≠ node)) ++ [(node, tags)] } }
  else .next s

/-- `LINK_PORT_CONFIG` (R371): a port above the new limit retrains at once. -/
def execLinkPortConfig (p : Nat) (w : RegVal) (s : State) : Outcome :=
  if s.driverReaches && decide (p < 14) && w.hasLow then
    let g := w.fld 0 2
    let s1 := s.modPort p fun q => { q with
      maxGen := if g = 0 ∨ (portGens p).contains g then g else q.maxGen, asymTrim := w.fld 16 16 }
    let q := s1.port p
    if (s.linked p ∧ q.maxGen < q.gen) ∨ (q.maxGen = 0 ∧ q.st ≠ .down) then
      let s2 := s1.portDown p
      .next (if q.maxGen = 0 then s2 else s2.train p)
    else .next s1
  else .next s

end Sys2Proof.Machine
end

