-- ==== Sys2Proof/Machine/Resets.lean ====
section
/-! DEFINITION. Hangs, reset domains, escalation and out of service (14 R418 to R436, 16 R400, R471): what each reset changes and
keeps, and the device's own restarts. -/
namespace Sys2Proof.Machine

/-! ## Fast domains -/

/-- What an agent keeps when its domain loses its state: its timers, its record count and the wake that a `WAKE` has asked for, which
lie in the always-on domain (R428). -/
def Agent.cleared (a : Agent) : Agent :=
  { gateTimeout := a.gateTimeout, progressLimit := a.progressLimit, faultSeq := a.faultSeq, awakeUntil := a.awakeUntil,
    wakeAt := if a.awakeUntil.isSome then a.wakeAt else none }

/-- Memory when stack memory and local stores lose their contents: the Icehouse keeps its own (R428). -/
def Mem.iceOnly (m : Mem) : Mem :=
  { cells := m.cells.filter fun e => decide (regionOf e.1 = .ice),
    poison := m.poison.filter fun u => decide (regionOf (64 * u) = .ice),
    lostStripes := m.lostStripes, iceFailed := m.iceFailed, iceWritten := m.iceWritten, charged := m.charged }

/-- A port that has lost everything but `LINK_PORT_CONFIG`. -/
def Port.cleared (p : Nat) (now : Word64) (q : Port) : Port :=
  { portInitial p with maxGen := q.maxGen, asymTrim := q.asymTrim, downSince := now }

/-- An object's entry after a warm reset (R428). -/
def Obj.warm (o : Obj) : Obj :=
  { o with valid := o.valid && o.kind, st := .absent, pins := 0, held := [], joined := [] }

/-- The fast domains lose their state; the always-on domain keeps its own (R428). -/
def State.clearFast (s : State) : State :=
  { s.fresh with
    agents := mapAll Agent.cleared s.agents,
    epoch := { s.epoch with busy := none, cancels := [] },
    mem := s.mem.iceOnly,
    objects := { objs := mapAll Obj.warm s.objects.objs, quotas := mapAll (fun q => { q with stackUsed := 0 }) s.objects.quotas },
    arrays := [],
    sessions := { recs := mapAll (fun r => { r with valid := false, pins := 0 }) s.sessions.recs,
                  pages := mapAll (fun e => { e with valid := false }) s.sessions.pages },
    movers := [], cluster := {}, codec := {},
    power := { s.power with capHold := false, holdSince := none } }

/-- Every port is idle, and nothing that was on it is left. -/
def State.clearPorts (s : State) : State :=
  ({ s with link := { s.link with
      ports := s.link.ports.map (fun (e : Nat × Port) => (e.1, Port.cleared e.1 s.sundial e.2)), pending := [], waiting := [], holds := [],
      stale := s.link.stale ++ s.link.pending.map fun (e : Nat × Pending) => e.1 } }).elect

/-! ## Boot halted (R449, R450) -/

/-- Boot halts with a reason: the fast domains go off, and the peer ports with them. -/
def State.haltBoot (s : State) (reason : Nat) : State :=
  let s1 := (s.clearFast.clearPorts)
  ({ s1 with gatehouse := { s1.gatehouse with halted := true, ready := false, reason := reason } }).railsHalted

/-- The images of these types no longer have the digests recorded at the cold boot (R449). -/
def State.imageChanged (s : State) (types : List Nat) : Bool :=
  types.any fun t => match mapFind t s.gatehouse.booted with
    | some x => decide (((s.fwType t).slot x.slotB).digest ≠ x.digest)
    | none => false

/-! ## Escalation (R431) -/

/-- Service time in whole seconds (R431). -/
def State.serviceNow (s : State) : Nat :=
  s.recovery.service + ((s.sundial.toNat : Int) - s.sun.stepTicks).toNat / secondTicks

/-- Events that share the window of now. -/
def State.eventCount (s : State) : Nat :=
  (s.recovery.events.filter fun t => decide (s.serviceNow - t < s.recovery.windowS)).length

/-- An escalation event is stamped. -/
def State.stampEvent (s : State) : State :=
  { s with recovery := { s.recovery with events := s.recovery.events ++ [s.serviceNow] } }

/-- `LIMIT` events fall within the window. -/
def State.atLimit (s : State) : Bool := decide (s.recovery.limit ≤ s.eventCount)

/-! ## Dump, warm reset, out of service (R427, R428, R432, R436) -/

/-- What a warm reset changes, once any dump is captured; it stays in progress until it completes. -/
def State.warmEffects (s : State) : State :=
  let s1 := s.clearFast.clearPorts
  { s1 with gatehouse := { s1.gatehouse with warms := s1.gatehouse.warms + 1 },
            recovery := { s1.recovery with dumping := none, resets := [{ domain := 7, target := 0 }], expired := [] } }

/-- Out-of-service entry after its dump (R432, steps 2 to 4). -/
def State.finishOos (s : State) : State :=
  let s1 := s.clearFast
  let s2 := ({ s1 with recovery := { s1.recovery with dumping := none, resets := [] } }).logDevice cOutOfService srcDevice 0 0 0
  s2.railsHalted.announce

/-- A dump begins, or is skipped because the slot is full; then a warm reset or out-of-service entry goes on. The record that
caused it is the last one written. -/
def State.startDump (s : State) (oos : Bool) : State :=
  if s.recovery.dumpValid then
    let s1 := { s with recovery := { s.recovery with skipped := min 255 (s.recovery.skipped + 1) } }
    if oos then s1.finishOos else s1.warmEffects
  else { s with recovery := { s.recovery with dumping := some ((s.recovery.nextSeq - 1).toNat, oos) } }

/-- The device goes out of service (R432). -/
def State.enterOos (s : State) : State :=
  if s.recovery.oos then s else ({ s with recovery := { s.recovery with oos := true, cycled := false } }).startDump true

/-- One escalation event that is not a warm reset (R431). -/
def State.escalate (s : State) : State :=
  let s1 := s.stampEvent
  if s1.atLimit then s1.enterOos else s1

/-- A warm reset is asked for (R422, R423, R431, R436). -/
def State.warmReset (s : State) (cause : Nat) (dump : Bool) : State :=
  if s.inService && !s.warmResetting then
    let s1 := (s.logDevice cWarmReset srcDevice cause 0 0).stampEvent
    if s1.atLimit then s1.enterOos else if dump then s1.startDump false else s1.warmEffects
  else s

/-- `DEVICE_WARM_RESET` (R428): a reset that the device starts itself captures a dump. -/
def execDeviceWarmReset (cause : Nat) (dump : Bool) (s : State) : Outcome :=
  .next (s.warmReset cause (dump || decide (cause ≠ 1)))

/-- `DUMP_CAPTURE_COMPLETE` (R436). -/
def execDumpCaptureComplete (s : State) : Outcome :=
  match s.recovery.dumping with
  | none => .next s
  | some (seq, oos) =>
    if s.alwaysOn then .next (if oos then (s.captureDump seq).finishOos else (s.captureDump seq).warmEffects) else .next s

/-- `LOG_MIRROR` (R434). -/
def execLogMirror (seq : Nat) (s : State) : Outcome :=
  if s.alwaysOn then
    .next { s with recovery := { s.recovery with
      log := s.recovery.log.map fun r => if r.seq.toNat = seq then { r with mirrored := true } else r } }
  else .next s

/-! ## Power off (R400, R471) -/

/-- A dump under way is in its slot. -/
def State.dumpEnded (s : State) : State :=
  match s.recovery.dumping with
  | some (seq, _) => s.captureDump seq
  | none => s

/-- The module is off; the flash partition keeps its part: log, dump, escalation, service time and firmware (R422, R431, R434,
R436, R437). A dump under way is completed first (R400, R471). `cause` is logged at the next power-up (R439). -/
def State.powerOff (s0 : State) (phase : PowerPhase) (cause : Nat) : State :=
  let s := s0.dumpEnded
  { pending := s.pending, free := s.free + 1,
    recovery :=
      { limit := s.recovery.limit, windowS := s.recovery.windowS, oos := s.recovery.oos,
        cycled := s.recovery.oos, events := s.recovery.events, service := s.serviceNow,
        log := s.recovery.log.map fun r => { r with mirrored := true },
        nextSeq := s.recovery.nextSeq, dumpValid := s.recovery.dumpValid, dumpKib := s.recovery.dumpKib,
        dump := s.recovery.dump },
    gatehouse := { boots := s.gatehouse.boots, fw := s.gatehouse.fw },
    pins :=
      { phase := phase, slotCode := s.pins.slotCode, resetLow := s.pins.resetLow, mated := s.pins.mated, pendingCause := cause } }

/-- `DEVICE_COLD_RESET` (R423, R471). -/
def execDeviceColdReset (cause : Nat) (s : State) : Outcome :=
  if s.alwaysOn then .next (s.powerOff .off cause) else .next s

/-- The power-fail sequence (R400, R472): the record is written in the hold-up time. The module comes back by the power-up sequence, or,
after the failure of a rail, only once its input has been removed or `RESET_N` asserted (R470). -/
def State.powerFail (s : State) (code group : Nat) (phase : PowerPhase) : State :=
  (s.logDevice code srcPower group 0 0).powerOff phase 5

/-! ## Domains of one agent (R422 to R425) -/

/-- The watchdog of this agent expired less than 30 µs ago (R423). -/
def State.justExpired (s : State) (target : Nat) : Bool :=
  (mapFind target s.recovery.expired).any fun t => decide (s.since t < usTicks 30)

/-- A reset of this domain is in progress, or of one that contains it; or the agent's own watchdog has just reset it. -/
def State.absorbs (s : State) (domain target : Nat) : Bool :=
  s.warmResetting || s.recovery.resets.any (fun r => decide (r.domain = domain ∧ r.target = target))
    || (decide (domain ≤ 3) && s.justExpired target)

/-- A reset is in progress until `RESET_COMPLETE`. -/
def State.beginReset (s : State) (domain target : Nat) : State :=
  { s with recovery := { s.recovery with resets := s.recovery.resets ++ [{ domain := domain, target := target }] } }

/-- The agent's program is gone; its pending slot and record stay. -/
def Agent.reset (a : Agent) : Agent :=
  { a with running := none, prog := .resetting, waits := [], fences := [], signals := [], boundary := [] }

/-- Transactions of an agent that have not been sent are dropped. -/
def State.dropUnsent (s : State) (i : Nat) : State :=
  { s with link := { s.link with waiting := s.link.waiting.filter fun e => decide (e.1.agent ≠ i) } }

/-- The fault of a driver's reset (Table 14-4). -/
def driverFault (bytes tile : Nat) : FaultInfo := { code := cAgentReset, d1 := bytes, d2 := tile }

/-- The fault of an expired watchdog (Table 14-4). -/
def Agent.hungFault (a : Agent) (tile : Nat) : FaultInfo :=
  { code := cProgressTimeout, d0 := a.watchLimit, d1 := a.lastProgress.toNat, d2 := tile }

/-- Bytes at these addresses are undefined. -/
def Mem.forget (m : Mem) (l : List Nat) : Mem := { m with cells := m.cells.filter fun e => !l.contains e.1 }

/-- The store row in execution, if any, finishes and counts, or leaves its destination bytes undefined (R424): the state, and the
tile partly stored. -/
def State.endStore (s : State) (a : Nat) (done : Bool) : State × Nat :=
  match s.nextRow a .store with
  | none => (s, 0xFFFFFFFF)
  | some (f, r) =>
    if done then ((s.completeRow a .store f r).getD s, 0xFFFFFFFF)
    else
      ({ s.fresh with mem := s.mem.forget ((s.tileBytes a f r).map (·.1)) }, r.tile)

/-- The bytes that an instruction without Trellis rows may have been writing. -/
def State.tornBytes (s : State) (a : Nat) (f : Flight) : List (Nat × Byte) :=
  if f.noop || f.hasRows || s.waitHolds a f.place || f.code == opTload || f.code == opKvexp || f.code == opCtxload then []
  else if f.code = opCopy then (if modBit f.word 2 then [] else s.storeBytes (s.copyStores f.copySpec))
  else if f.code = opCtxsave then
    match s.checkAccess (fieldAt f.word 8 0 24) (fieldAt f.word 0x10 0 48) (ctxBytes (modBit f.word 0)) true with
    | .ok addr => (s.ctxImage a (modBit f.word 0)).map fun e => (addr + e.1, e.2)
    | .error _ => []
  else if s.computeTurn a f.place && s.bankReady a f && (s.runFault f).isNone then
    s.storeBytes (s.runRes (f.seedStreams a (s.array a)) f).stores
  else []

/-- Each 64-byte unit of a write in flight is written whole or not at all; which ones is free (R54, R424). -/
def State.tear (s : State) (a : Nat) : State :=
  let w := (s.array a).flights.flatMap (s.tornBytes a)
  { s.fresh with mem := s.mem.write (w.filter fun e =>
      decide (regionOf e.1 ≠ .control) && decide (Config.freeNat s.free [0x424, e.1 / 64] % 2 = 1)) }

/-- The objects that an array's descriptor table pins, and the replaced entries still read (R123). -/
def ArrayState.pinned (x : ArrayState) : List Nat := x.descs.flatMap (fun e => descObjects e.2.word) ++ x.oldPins.map (·.object)

/-- The instruction in execution of an array as its record names it: the oldest one that has not completed; with none, the one
that would issue next; without a program, zeros. -/
structure Executing where
  op : Nat
  addr : Nat
  place : Nat
  lastTile : Nat := 0xFFFFFFFF
  tileCount : Nat := 0

/-- The oldest instruction in execution of array `a`. -/
def State.executing (s : State) (a : Nat) : Executing :=
  let ip := (s.agent a).ip
  match (s.array a).flights, s.oldestHeld a with
  | f :: _, some h =>
    if f.place ≤ h.1 then { op := f.code, addr := f.addr, place := f.place, lastTile := f.lastTile, tileCount := f.tileCount }
    else { op := (s.rdByte h.2).toNat, addr := h.2, place := h.1 }
  | f :: _, none => { op := f.code, addr := f.addr, place := f.place, lastTile := f.lastTile, tileCount := f.tileCount }
  | [], some h => { op := (s.rdByte h.2).toNat, addr := h.2, place := h.1 }
  | [], none =>
    if (s.agent a).running.isSome then { op := (s.rdByte ip).toNat, addr := ip, place := (s.array a).place }
    else { op := 0, addr := 0, place := (s.array a).place }

/-- One array is reset with the fault that `info` gives for the tile partly stored (R424). Its Trellis window is undefined whether
or not a program had used it (Table 14-3). -/
def State.resetArray (s : State) (a : Nat) (info : Nat → FaultInfo) (storeDone : Bool) : State :=
  let e := s.endStore a storeDone
  let s1 := e.1.tear a
  let x := s1.executing a
  let s2 := s1.recordFault a (info e.2) x.op x.addr x.lastTile x.tileCount
  let y := s2.array a
  let s3 := ((s2.undefine (lsAddr a (y.winBase * 65536)) (y.winSize * 65536)).dropFlights a 0).dropWindow a
  let pins := (s3.array a).pinned
  ((((s3.modArray a fun x => { arrayInitial a with place := x.place }).releasePins pins).modAgent a Agent.reset).dropUnsent
    a).beginReset 1 a

/-- The copy that mover `m` makes into this module's memory, with the device address of its first destination byte. -/
def State.copyHere (s : State) (m : Nat) : Option CopySpec :=
  match (s.mover m).cmd with
  | some (.copy _ w src dst _) =>
    let c := mvCopySpec w src dst
    if modBit w 2 then
      let e : RemoteEnd := { agent := 208 + m, node := fieldAt w 0xC 0 14, handle := fieldAt w 8 0 24, place := 0, issued := 0 }
      if s.link.nodeValid ∧ e.node = s.link.nodeId ∧ (s.blockRefused e (storesOver s.rdByte (s.copyStores c))).isNone then
        some { c with dst := s.addrOf e.handle c.dst }
      else none
    else some c
  | _ => none

/-- The destination blocks of 4 KiB of a copy, in the order of its elements. -/
def copyBlocks (w : List (Nat × Byte)) : List Nat := (w.map fun e => e.1 / 4096).eraseDups

/-- The bytes that mover `m`'s copy has written in the blocks acknowledged so far: how many blocks that is, is free (R425; log 157).
Nothing of a copy to another module has been sent before it completes. -/
def State.ackedBytes (s : State) (m : Nat) : List (Nat × Byte) :=
  match s.copyHere m with
  | none => []
  | some c =>
    let w := s.storeBytes (s.copyStores c)
    let blocks := copyBlocks w
    let acked := blocks.take (Config.freeNat s.free [0x425, m] % (blocks.length + 1))
    w.filter fun e => acked.contains (e.1 / 4096)

/-- Bytes that a mover's command in execution has copied: a `COPY`'s in the blocks acknowledged; of a `PROMOTE` or of an `ALLOC`, which
never resumes, a free number (Table 14-4; log 157). -/
def State.bytesCopied (s : State) (m : Nat) : Nat :=
  match (s.mover m).cmd with
  | some (.copy ..) => (s.ackedBytes m).length
  | some (.promote _ _ i) => Config.freeNat s.free [0x425, m] % ((s.obj i).size + 1)
  | some (.zero _ _ i) => Config.freeNat s.free [0x425, m] % ((s.obj i).blocks * 65536 + 1)
  | _ => 0

/-- What a mover's command in execution leaves behind when it is cut short (R95, R425): a copy's destination is undefined from its first
unacknowledged block onward. -/
def State.cutMover (s : State) (m : Nat) : State :=
  match (s.mover m).cmd with
  | some (.promote _ _ i) => s.abortPromotion i cPromotionAborted true
  | some (.copy ..) => match s.copyHere m with
    | none => s
    | some c =>
      let acked := s.ackedBytes m
      let units := acked.map fun e => e.1 / 64
      (({ s.fresh with mem := s.mem.forget ((s.storeBytes (s.copyStores c)).map Prod.fst) }).wrPoison acked
        ((s.copyPoison c).filter fun u => units.contains u))
  | some (.zero _ _ i) =>
    if (s.obj i).st.reachable then s.undefine ((s.obj i).base * 65536) ((s.obj i).blocks * 65536) else s
  | _ => s

/-- The address of a mover's command in execution. -/
def MoverCmd.addr : MoverCmd → Nat
  | .copy a _ _ _ _ | .promote a _ _ | .zero a _ _ | .xserve a _ _ _ => a

/-- One mover is reset (R425): its command ends, its jobs end and its pins are released. -/
def State.resetMover (s : State) (m : Nat) (info : FaultInfo) : State :=
  let addr := match (s.mover m).cmd with
    | some c => c.addr
    | none => s.heldAddr (208 + m)
  let pins := match (s.mover m).cmd with
    | some c => c.pins
    | none => []
  let op := if (s.agent (208 + m)).running.isSome then (s.rdByte addr).toNat else 0
  let s1 := s.recordFault (208 + m) info op addr 0xFFFFFFFF 0
  let s2 := ((s1.cutMover m).modMover m fun x => { x with cmd := none }).releasePins pins
  (((s2.endJobs m info.code).modAgent (208 + m) Agent.reset).dropUnsent (208 + m)).beginReset 2 (208 + m)

/-- One codec core is reset (R352): its command ends as a fault ends it. -/
def State.resetCodec (s : State) (c : Nat) (info : FaultInfo) : State :=
  let g := s.agent (224 + c)
  let at_ := match (s.codecCore c).cmd with
    | some (w, _) => (w % 256, g.ip - 64)
    | none => (if g.running.isSome then (s.rdByte (s.heldAddr (224 + c))).toNat else 0, s.heldAddr (224 + c))
  let s1 := s.recordFault (224 + c) info at_.1 at_.2 0xFFFFFFFF 0
  let s2 := (s1.endCodecCmd c).modCodecCore c fun _ => {}
  ((s2.modAgent (224 + c) Agent.reset).dropUnsent (224 + c)).beginReset 3 (224 + c)

/-- The host-core cluster is reset (R422): caches go with their dirty lines, and each core that held a program or a record takes
the fault that `info` gives it. -/
def State.resetCluster (s : State) (info : Nat → FaultInfo) : State :=
  let hit (s : State) (k : Nat) : State :=
    let g := s.agent (192 + k)
    let s1 := if g.running.isSome ∨ g.fault.isSome then
      s.recordFault (192 + k) (info k) 0 (s.core k).pc.toNat 0xFFFFFFFF 0 else s
    (s1.modAgent (192 + k) Agent.reset).dropUnsent (192 + k)
  ({ (List.range 16).foldl hit s with cluster := {} }).beginReset 4 0

/-- A port is reset (R422): it goes idle, and trains when the reset is complete. -/
def State.resetPort (s : State) (p : Nat) : State :=
  ((s.portDown p).modPort p fun q => Port.cleared p s.sundial q).beginReset 5 p

/-- A memory channel retrains and holds its requests (R426); a calibration of it ends (R416). -/
def State.retrainChannel (s : State) (c : Nat) : State :=
  let s1 := s.logEvent cChannelRetrain (srcChannel c) 0 0 0 0
  ({ s1 with mem := { s1.mem with retraining := setInsert c s1.mem.retraining },
             power := { s1.power with calibrating := s1.power.calibrating.filter fun x => decide (x ≠ c) } }).beginReset 6 c

/-- A reset of `domain` and `target` that the driver asks for: refused out of service, absorbed while one is in progress, ignored
where the target names none (R423). -/
def State.driverReset (s : State) (domain target : Nat) (dump storeDone : Bool) : State :=
  if domain = 8 then (if s.alwaysOn then s.powerOff .off 1 else s)
  else if s.recovery.oos || !s.alwaysOn then s
  else if domain = 7 then s.warmReset 1 dump
  else if domain = 5 then
    (if decide (target < 14) && (s.gatehouse.ready || s.gatehouse.halted) && !s.absorbs 5 target then s.resetPort target else s)
  else if !s.agentsRun then s
  else if domain = 1 then
    (if target < 192 ∧ !s.absorbs 1 target then s.resetArray target (driverFault 0) storeDone else s)
  else if domain = 2 then
    (if isMover target && !s.absorbs 2 target then
      s.resetMover (target - 208) (driverFault (s.bytesCopied (target - 208)) 0xFFFFFFFF) else s)
  else if domain = 3 then
    (if isCodec target && !s.absorbs 3 target then s.resetCodec (target - 224) (driverFault 0 0xFFFFFFFF) else s)
  else if domain = 4 then (if s.absorbs 4 0 then s else s.resetCluster fun _ => driverFault 0 0xFFFFFFFF)
  else if domain = 6 then (if target < 1024 ∧ !s.absorbs 6 target then s.retrainChannel target else s)
  else s

/-- `ARRAY_RESET` (R424). -/
def execArrayReset (a : Nat) (storeDone : Bool) (s : State) : Outcome := .next (s.driverReset 1 a false storeDone)
/-- `MOVER_RESET` (R425). -/
def execMoverReset (m : Nat) (s : State) : Outcome := .next (s.driverReset 2 (208 + m) false false)
/-- `CODEC_CORE_RESET` (R352). -/
def execCodecCoreReset (c : Nat) (s : State) : Outcome := .next (s.driverReset 3 (224 + c) false false)
/-- `HOST_CORE_CLUSTER_RESET` (R422). -/
def execHostCoreClusterReset (s : State) : Outcome := .next (s.driverReset 4 0 false false)
/-- `PORT_RESET` (R422). -/
def execPortReset (p : Nat) (s : State) : Outcome := .next (s.driverReset 5 p false false)
/-- `CHANNEL_RETRAIN` (R426): at the driver's request or on loss of PHY lock. -/
def execChannelRetrain (c : Nat) (s : State) : Outcome := .next (s.driverReset 6 c false false)

/-! ## The progress watchdog (R418 to R420) -/

/-- The watchdog of agent `i` is paused (R419): a wait with its own timeout, a core port's wait, or a hold of the ledger. -/
def State.watchPaused (s : State) (i : Nat) : Bool :=
  decide ((s.agent i).waits ≠ []) || (s.agent i).heldWake || (isArray i && (s.array i).paused)
    || (isMover i && decide ((s.mover (i - 208)).jobs = []) && (match (s.mover (i - 208)).cmd with
        | some (.xserve ..) => true
        | _ => false))
    || (isCodec i && (s.codecCore (i - 224)).waitSince.isSome)

/-- Agent `i` is at work whose progress events of Table 14-2 the device has between the model's own: each 1 MiB that an instruction
without a Trellis reads or writes, each 4 KiB of a `COPY`, each stripe of a `PROMOTE`, each unit of a frame, each instruction that
a core retires. -/
def State.progressUnseen (s : State) (i : Nat) : Bool :=
  if isArray i then (s.array i).flights.any fun f => !f.noop && !f.hasRows
    && (f.session.isSome || decide (2 ^ 20 ≤ (f.ops.map fun o => o.size * o.fmt.bits / 8).sum))
  else if isCore i then (s.agent i).running.isSome
  else if isMover i then match (s.mover (i - 208)).cmd with
    | some (.copy ..) => true
    | some (.promote ..) => true
    | _ => false
  else (s.codecCore (i - 224)).cmd.isSome

/-- The last progress event of agent `i` before `now`: of those that the model does not see, the last one comes at a free time (R419;
DESIGN CHOICE, log 156). -/
def State.lastEvent (s : State) (i : Nat) (now : Word64) : Nat :=
  let t := (s.agent i).lastProgress.toNat
  if s.progressUnseen i then t + Config.freeNat s.free [0x419, i, now.toNat] % (now.toNat - t + 1) else t

/-- `PROGRESS_TIMEOUT` (R420): the smallest domain that contains the agent is reset. -/
def execProgressTimeout (i : Nat) (now : Word64) (s : State) : Outcome :=
  match s.at? now with
  | none => .next s
  | some s1 =>
    let g := { s.agent i with lastProgress := BitVec.ofNat 64 (s.lastEvent i now) }
    if s.agentsRun && decide (g.prog = .running ∨ g.prog = .ending) && !s.watchPaused i
        && decide (usTicks g.watchLimit + g.watchHeld ≤ now.toNat - g.lastProgress.toNat) then
      let s2 := { s1 with recovery := { s1.recovery with expired := mapPut i now s1.recovery.expired } }
      if isArray i then .next (s2.resetArray i g.hungFault (Config.freeBool s.free))
      else if isMover i then .next (s2.resetMover (i - 208) (g.hungFault 0xFFFFFFFF))
      else if isCodec i then .next (s2.resetCodec (i - 224) (g.hungFault 0xFFFFFFFF))
      else .next (s2.resetCluster fun k => if k + 192 = i then g.hungFault 0xFFFFFFFF else driverFault 0 0xFFFFFFFF)
    else .next s

/-! ## Completion (R422, R427, R485) -/

/-- Agent `i` resumes after a reset: faulted while it holds a record, idle otherwise; a clear written meanwhile takes effect. -/
def State.agentResumes (s : State) (i : Nat) : State :=
  let s1 := s.modAgent i fun a => { a with
    prog := if a.fault.isSome then .faulted else .idle,
    gating := match a.gating with
      | .running => .clockGated s.sundial
      | g => g }
  if (s1.agent i).clearWanted then s1.clearFault i else s1

/-- A channel's retrain ends; the third failure in a row raises `STACK_CHANNEL_FAILED` and a warm reset (R427). -/
def State.retrained (s : State) (c : Nat) (ok : Bool) : State :=
  if ok then { s with mem := { s.mem with
      retraining := s.mem.retraining.filter fun x => decide (x ≠ c), retrainFails := mapErase c s.mem.retrainFails } }
  else
    let n := (mapFind c s.mem.retrainFails).getD 0 + 1
    let s1 := { s with mem := { s.mem with retrainFails := mapPut c n s.mem.retrainFails } }
    if n < 3 then s1 else (s1.logDevice cStackChannelFailed (srcChannel c) 0 0 0).warmReset 3 true

/-! ## The Gatehouse's own restart (R421, R449) -/

/-- `GATEHOUSE_RESTART`: logged, and one escalation event. -/
def execGatehouseRestart (now : Word64) (s : State) : Outcome :=
  match s.at? now with
  | none => .next s
  | some s1 =>
    if s.alwaysOn && !s.gatehouse.restarting then
      let s2 := { s1 with gatehouse := { s1.gatehouse with restarting := true } }
      .next (s2.logDevice cGatehouseRestart srcDevice 0 0 0).escalate
    else .next s

/-- `GATEHOUSE_RESTART_COMPLETE`: its own firmware is checked again (R449). -/
def execGatehouseRestartComplete (s : State) : Outcome :=
  if s.alwaysOn && s.gatehouse.restarting then
    let s1 := { s with gatehouse := { s.gatehouse with restarting := false } }
    .next (if s1.imageChanged [1] then s1.haltBoot 4 else s1)
  else .next s

end Sys2Proof.Machine
end

