-- ==== Sys2Proof/Machine/MemEvents.lean ====
section
/-! DEFINITION. Events of the memory tiers (02 R70 to R85): temperature steps of the stacks and their stop, imbalance, patrol scrub,
Icehouse reads and lost stripes, and the driver's writes to the object table. -/
namespace Sys2Proof.Machine

/-! ## Temperature (R74, R75) -/

/-- The step of a temperature (Table 02-5). -/
def stepOf (temp : Nat) : Nat := if 105 ≤ temp then 3 else if 100 ≤ temp then 2 else if 95 ≤ temp then 1 else 0

/-- The threshold of a step (Table 02-5). -/
def stepThreshold (step : Nat) : Nat := if step = 3 then 105 else if step = 2 then 100 else if step = 1 then 95 else 0

/-- A running stack after a report: up at once, down one step after ten reports in a row 3 °C below the step's threshold (R74). -/
def Stack.report (k : Stack) (temp : Nat) : Stack :=
  if k.stopped then { k with temp := temp }
  else if k.step < stepOf temp then { k with temp := temp, step := stepOf temp, coolReports := 0 }
  else if 0 < k.step ∧ temp + 3 < stepThreshold k.step then
    if k.coolReports + 1 < 10 then { k with temp := temp, coolReports := k.coolReports + 1 }
    else { k with temp := temp, step := k.step - 1, coolReports := 0 }
  else { k with temp := temp, coolReports := 0 }

/-- An access in flight that touches the stopped stack. -/
def isStopped (f : Option FaultInfo) : Option FaultInfo := f.filter fun e => decide (e.code = cStackOvertemp)

/-- The first flight of array `a` whose accesses touch a stopped stack faults (R75). -/
def State.stopArray (s : State) (a : Nat) : State :=
  match (s.array a).flights.findSome? fun f => (isStopped (s.accesses f)).map fun e => (f, e) with
  | some (f, e) => s.faultFlight a f e
  | none => s

/-- An error of a check, if any. -/
def errorOf {α : Type} : Except FaultInfo α → Option FaultInfo
  | .error e => some e
  | .ok _ => none

/-- The command of mover `m` ends when it touches a stopped stack; a promotion's copy aborts (R75, R96). -/
def State.stopMover (s : State) (m : Nat) : State :=
  match (s.mover m).cmd with
  | some (.copy addr w _ _ _) =>
    let c := mvCopySpec w (fieldAt w 0x10 0 48) (fieldAt w 0x18 0 48)
    let ends := firstFault [
      isStopped (errorOf (s.checkEnd (fieldAt w 4 0 24) (fieldAt w 0x10 0 48) (c.places true) false)),
      if modBit w 2 then none
      else isStopped (errorOf (s.checkEnd (fieldAt w 8 0 24) (fieldAt w 0x18 0 48) (c.places false) true))]
    (match ends with
      | some e => s.faultMover m e mvCopy addr
      | none => s)
  | some (.promote addr _ i) =>
    (match s.stoppedIn ((s.obj i).base * 65536) ((s.obj i).blocks * 65536) with
      | some _ => (s.abortPromotion i cPromotionAborted true).faultMover m { code := cStackOvertemp } mvPromote addr
      | none => s)
  | some (.zero addr _ i) =>
    (match s.stoppedIn ((s.obj i).base * 65536) ((s.obj i).blocks * 65536) with
      | some _ => s.faultMover m { code := cStackOvertemp } mvAlloc addr
      | none => s)
  | _ => s

/-- The frame command of codec core `c` ends when it touches a stopped stack. -/
def State.stopCodec (s : State) (c : Nat) : State :=
  match (s.codecCore c).cmd with
  | some (w, i) =>
    (match isStopped (if decodes c then s.decFault (s.ctx i) w else s.encFault (s.ctx i) w) with
      | some e => s.faultCodec c e (w % 256) ((s.agent (224 + c)).ip - 64)
      | none => s)
  | none => s

/-- Stack `k` stops (R75): accesses in flight fault, and the stop is logged and counted toward escalation (R431). -/
def State.stopStack (s : State) (k : Nat) : State :=
  let s1 := s.modStack k fun x => { x with stopped := true, overtemp := true }
  let s2 := s1.logDevice cStackOvertemp (srcStack k) (s1.stack k).temp 0 0
  let s3 := (List.range 192).foldl State.stopArray s2
  let s4 := (List.range 16).foldl State.stopMover s3
  ((List.range 6).foldl State.stopCodec s4).escalate

/-- `STACK_TEMP_REPORT` (R74, R75). -/
def execStackTempReport (k temp : Nat) (s : State) : Outcome :=
  if s.agentsRun && decide (k < 8) then
    let s1 := s.modStack k fun x => x.report temp
    .next (if (s1.stack k).step = 3 ∧ (s.stack k).stopped = false then s1.stopStack k else s1)
  else .next s

/-- A driver's write of `STACK_STATUS` (Table 02-6): bit 10 resumes a stack below 95 °C at step 0 (R75), bit 11 clears
`IMBALANCE`. -/
def Stack.writeStatus (x : Stack) (w : RegVal) : Stack :=
  if w.hasLow then
    let y := if bit w.value.toNat 10 && x.stopped && decide (x.temp < 95) then
      { x with stopped := false, overtemp := false, step := 0, coolReports := 0 } else x
    if bit w.value.toNat 11 then { y with imbalance := false } else y
  else x

/-- `OVERTEMP_STOP` (R75). -/
def execOvertempStop (k : Nat) (w : RegVal) (s : State) : Outcome :=
  if s.driverReachesFast && decide (k < 8) then .next (s.modStack k fun x => x.writeStatus w) else .next s

/-! ## Imbalance, scrub (R70, R72) -/

/-- A sample of a stack's channels over 1 ms is imbalanced: the busiest carried more than four times the mean, and the stack more
than a tenth of its peak of 2,560 GB/s. -/
def imbalanced (busiest total : Nat) : Bool := decide (4 * total < 128 * busiest) && decide (256000000 < total)

/-- `IMBALANCE_SAMPLE` (R70). -/
def execImbalanceSample (k channel busiest total block : Nat) (s : State) : Outcome :=
  if s.agentsRun && decide (k < 8) then
    if imbalanced busiest total then
      let n := min 1000 ((s.stack k).unbalanced + 1)
      let s1 := s.modStack k fun x => { x with unbalanced := n }
      if n = 1000 ∧ (s.stack k).armed then
        .next ((s1.modStack k fun x => { x with
          armed := false, imbalance := true, hotChannel := 128 * k + channel, hotBlock := block % 2 ^ 24
          }).logEvent cChannelImbalance (srcStack k) 0 (128 * k + channel) block 0)
      else .next s1
    else .next (s.modStack k fun x => { x with unbalanced := 0, armed := true })
  else .next s

/-- `PATROL_SCRUB` (R72): a corrected symbol is counted; a unit with an uncorrectable error is marked poisoned. A stopped stack is
in self-refresh (R75). -/
def execPatrolScrub (unit : Nat) (found : EccResult) (s : State) : Outcome :=
  if s.agentsRun && decide (64 * unit < stackTop) && !(s.stack (stackOf (64 * unit))).stopped then
    match found with
    | .clean => .next s
    | .corrected => .next (s.modStack (stackOf (64 * unit)) fun x => { x with ceCount := min 0xFFFFFFFF (x.ceCount + 1) })
    | .uncorrectable => .next (s.mark unit)
  else .next s

/-! ## Icehouse (R78 to R81, R96) -/

/-- The channel of a chunk position of a stripe (R78). -/
def iceChannel (stripe pos : Nat) : Nat := 18 * (stripe % 4) + (pos + stripe / 4) % 18

/-- The positions of a stripe that cannot be corrected: those found, and those on failed channels (R81). -/
def State.badChunks (s : State) (stripe : Nat) (bad : List Nat) : List Nat :=
  (List.range 18).filter fun p => bad.contains p || s.mem.iceFailed.contains (iceChannel stripe p)

/-- The objects whose Icehouse extent includes a stripe. -/
def State.stripeObjects (s : State) (stripe : Nat) : List Nat :=
  (s.objects.objs.filter fun e => e.2.valid && e.2.kind && decide (e.2.stripe ≤ stripe)
    && decide (stripe < e.2.stripe + e.2.stripes)).map (·.1)

/-- The mover that promotes object `i`, with its command's address. -/
def State.promoterOf (s : State) (i : Nat) : Option (Nat × Nat) :=
  (List.range 16).findSome? fun m => match (s.mover m).cmd with
    | some (.promote addr _ j) => if i = j then some (m, addr) else none
    | _ => none

/-- The handle of object `i`. -/
def State.handleOf (s : State) (i : Nat) : Nat := i + (s.obj i).gen * 0x100000

/-- An object with a lost stripe: it is damaged, and a promotion of it ends (R80, R96). -/
def State.damage (stripe : Nat) (s : State) (i : Nat) : State :=
  let s1 := s.modObj i fun o => { o with damaged := true }
  match s1.promoterOf i with
  | some (m, addr) =>
    (s1.abortPromotion i cObjDamaged false).faultMover m
      { code := cIceStripeLost, d0 := stripe, d1 := s.handleOf i } mvPromote addr
  | none => s1

/-- A stripe is lost: one record for each object, or one with handle 0 (R80). -/
def State.loseStripe (s : State) (stripe : Nat) : State :=
  let objs := s.stripeObjects stripe
  let s1 := { s with mem := { s.mem with lostStripes := setInsert stripe s.mem.lostStripes } }
  let handles := if objs = [] then [0] else objs.map s.handleOf
  let s2 := handles.foldl (fun s h => s.logEvent cIceStripeLost (srcIceGroup (stripe % 4)) 0 stripe h handles.length) s1
  objs.foldl (State.damage stripe) s2

/-- `ICE_STRIPE_READ` (R79 to R81). -/
def execIceStripeRead (stripe : Nat) (bad : List Nat) (s : State) : Outcome :=
  if s.agentsRun && decide (stripe < 2 ^ 27) then
    match s.badChunks stripe bad with
    | [] => .next s
    | p :: rest =>
      if rest.length < 2 then
        .next (s.logEvent cIceCorrected (srcIceChannel (iceChannel stripe p)) 0 stripe 0 0)
      else if s.mem.lostStripes.contains stripe then .next s
      else .next (s.loseStripe stripe)
  else .next s

/-- `ICE_CHANNEL_FAILED` (R81). -/
def execIceChannelFailed (channel : Nat) (s : State) : Outcome :=
  if s.agentsRun && decide (channel < 72) && !s.mem.iceFailed.contains channel then
    .next ({ s with mem := { s.mem with iceFailed := setInsert channel s.mem.iceFailed } }.logEvent
      cIceChannelFailed (srcIceChannel channel) 0 0 0 0)
  else .next s

/-! ## Object table (R85, R488) -/

/-- A 64-bit word after a driver's write of one or both halves. -/
def mergeHalf (old : Nat) (w : RegVal) : Nat :=
  match w.half with
  | .both => w.value.toNat
  | .low => old / 2 ^ 32 * 2 ^ 32 + w.value.toNat % 2 ^ 32
  | .high => w.value.toNat / 2 ^ 32 * 2 ^ 32 + old % 2 ^ 32

/-- An entry with the driver-written fields of word `k` taken from `v` (Table 02-7). -/
def Obj.driverWord (o : Obj) (k v : Nat) : Obj :=
  match k with
  | 0 => { o with valid := bit v 0, kind := bit v 1, gen := bits v 6 4, salt := bits v 10 12, owner := bits v 22 8 }
  | 1 => { o with size := bits v 0 41 }
  | 2 => { o with stripe := bits v 24 27 }
  | _ => o

/-- A driver's write of word `k` of entry `i`: a word that changes no field does nothing; any other is rejected while the object is
placed or pinned, or with an invalid salt (R66, R85). `DAMAGED` stays as it was, whatever the extent's new stripes: DESIGN CHOICE
(log 132). -/
def State.writeObj (s : State) (i k : Nat) (w : RegVal) : State :=
  let o := s.obj i
  let o1 := o.driverWord k (mergeHalf (bits o.word (64 * k) 64) w)
  if o1 = o then s
  else if decide (o1.salt / 128 < 21) && (!o.valid || (decide (o.st = .absent) && decide (o.pins = 0))) then s.modObj i fun _ => o1
  else { s with objects := { s.objects with rejected := true, lastIndex := i } }

/-- `OBJ_TABLE_WRITE` (R85). -/
def execObjTableWrite (i k : Nat) (w : RegVal) (s : State) : Outcome :=
  if s.driverReachesFast && decide (i < 0x100000) && decide (k < 4) then .next (s.writeObj i k w) else .next s

end Sys2Proof.Machine
end

