-- ==== Sys2Proof/Machine/Mailbox.lean ====
section
/-! DEFINITION. The Gatehouse mailbox (15 R440 to R456, 17 R489 to R493): the command taken is checked, served and answered. -/
namespace Sys2Proof.Machine

/-! ## Status codes (R452, R490) -/

def mbDone : Nat := 0x01
def secFormat : Nat := 0x20
def secSignature : Nat := 0x21
def secRollback : Nat := 0x22
def secBusy : Nat := 0x23
def secState : Nat := 0x24
def secNoIdentity : Nat := 0x25
def mbOpcode : Nat := 0x40
def mbAgents : Nat := 0x41
def mbObject : Nat := 0x42
def mbQuota : Nat := 0x43
def mbRange : Nat := 0x44
def mbState : Nat := 0x45
def mbReserved : Nat := 0x46
def mbSource : Nat := 0x47

/-- The codes of Tables 15-4 and 17-8. -/
def mbKnown : List Nat := [0x10, 0x11, 0x20, 0x21, 0x22, 0x23, 0x24, 0x25, 0x26, 0x27, 0x30, 0x31]

/-- A security command (Table 15-4). -/
def isSecurity (code : Nat) : Bool := decide (0x20 ≤ code) && decide (code ≤ 0x27)

/-! ## Arguments (R492, Table 17-8) -/

/-- A byte of the request area; one that nothing has written reads as 0 (log 11). -/
def Gatehouse.reqByte (g : Gatehouse) (i : Nat) : Byte := (mapFind i g.request).getD 0

/-- Bytes of the request area. -/
def Gatehouse.req (g : Gatehouse) (off n : Nat) : List Byte := tabulate n fun i => g.reqByte (off + i)

/-- A little-endian argument. -/
def Gatehouse.arg (g : Gatehouse) (off n : Nat) : Nat := leNat (g.req off n)

/-- Bytes that a command's arguments span. -/
def Gatehouse.span (g : Gatehouse) (code : Nat) : Nat :=
  match code with
  | 0x10 => 8
  | 0x21 => 0x32
  | 0x22 => 0x38
  | 0x23 => 0x40 + g.arg 0xC 4
  | 0x24 | 0x25 | 0x26 => 1
  | 0x27 => 0x70
  | 0x30 => 0x18
  | 0x31 => 3
  | _ => 0

/-- The reserved bytes within a command's span. -/
def mbRsv (code : Nat) : List Nat :=
  let range (lo hi : Nat) : List Nat := (List.range (hi - lo)).map (lo + ·)
  match code with
  | 0x22 => range 1 8
  | 0x23 => range 1 8 ++ range 0x10 0x40
  | 0x27 => range 0xC 0x10
  | 0x30 => range 3 8 ++ range 0xE 0x10
  | _ => []

/-- R492: an argument area too short, or a reserved byte that is not 0. -/
def Gatehouse.argsBad (g : Gatehouse) (c : MboxCmd) : Bool :=
  decide (c.args < g.span c.code) || (mbRsv c.code).any fun i => decide (g.reqByte i ≠ 0)

/-! ## Service (R450, R489, R490) -/

/-- Commands served while boot is halted. -/
def servedHalted (code : Nat) : Bool := [0x10, 0x20, 0x21, 0x23, 0x24, 0x25].contains code

/-- ROM answers, for firmware type 1 only: the Gatehouse's own firmware cannot boot (R450). -/
def State.romOnly (s : State) : Bool := s.gatehouse.halted && (decide (s.gatehouse.stage < 3) || s.imageChanged [1])

/-- Why a command is not served: its arguments, then the state of the device. -/
def State.mbRefusal (s : State) (c : MboxCmd) : Option Nat :=
  let g := s.gatehouse
  if g.argsBad c then some (if isSecurity c.code then secFormat else mbReserved)
  else if g.halted && (!servedHalted c.code || (s.romOnly && decide (0x23 ≤ c.code) && decide (g.arg 0 1 ≠ 1))) then
    some mbState
  else if s.recovery.oos && decide (c.code = 0x30 ∨ c.code = 0x31) then some mbState
  else none

/-- The command is answered: `BUSY` falls, and the response area holds the result (R489). -/
def State.answer (s : State) (status : Nat) (result : List Byte) : State :=
  { s with gatehouse := { s.gatehouse with
      cmd := none, status := status, resultBytes := result.length, response := placed 0 result } }

/-- The command in service is one of `codes`: it is refused by its checks, or `act` gives its status, result and effect. -/
def State.mbServe (s : State) (code : Nat) (act : State → Nat × List Byte × State) : Outcome :=
  match s.gatehouse.cmd with
  | none => .next s
  | some c =>
    if c.code = code ∧ s.alwaysOn ∧ s.gatehouse.restarting = false then
      match s.mbRefusal c with
      | some st => .next (s.answer st [])
      | none =>
        let r := act s
        .next (r.2.2.answer r.1 r.2.1)
    else .next s

/-- `MBOX_OPCODE` (R490): the code is unknown. -/
def execMboxOpcode (s : State) : Outcome :=
  match s.gatehouse.cmd with
  | none => .next s
  | some c => if s.alwaysOn ∧ mbKnown.contains c.code = false ∧ s.gatehouse.restarting = false then
      .next (s.answer mbOpcode []) else .next s

/-! ## Part record and measurement (R441, R451) -/

/-- `PART_READ`. -/
def execPartRead (s : State) : Outcome := s.mbServe 0x20 fun s => (mbDone, partRecord, s)

/-- A measurement register (R451): 48 zero bytes until it is extended. -/
def Gatehouse.measured (g : Gatehouse) (i : Nat) : List Byte := (mapFind i g.mr).getD (List.replicate 48 0)

/-- MR becomes SHA-384(MR ‖ x) (R451). -/
def Gatehouse.extended (g : Gatehouse) (i : Nat) (x : List Byte) : Gatehouse :=
  { g with mr := mapPut i (bytes48 (sha384 (g.measured i ++ x))) g.mr }

/-- `EXTEND` (R451): the driver's registers only. -/
def execExtend (s : State) : Outcome :=
  s.mbServe 0x22 fun s =>
    let r := s.gatehouse.arg 0 1
    if r < 8 then (secState, [], s)
    else if 15 < r then (secFormat, [], s)
    else (mbDone, [], { s with gatehouse := s.gatehouse.extended r (s.gatehouse.req 8 48) })

/-! ## Quotes (R453) -/

/-- The anti-rollback counters of types 1 to 4, 8 bytes (Table 15-5). -/
def State.counterBlock (s : State) : List Byte := [1, 2, 3, 4].flatMap fun t => leBytes 2 (s.fwType t).counter

/-- Some type booted a trial slot, and its trial has not ended (Table 15-5). -/
def State.inTrial (s : State) : Bool := s.gatehouse.booted.any fun e => e.2.trial

/-- A quote but for its signature (Table 15-5). -/
def State.quoteBody (s : State) (mask : Nat) (nonce : List Byte) : List Byte :=
  let g := s.gatehouse
  leBytes 32 (packed [(0, 0, 32, 0x31544F51), (4, 0, 16, 1), (6, 0, 16, mask), (8, 0, 64, serial), (0x10, 0, 32, g.boots),
      (0x14, 0, 32, g.warms), (0x18, 0, 64, s.sundial.toNat)])
    ++ s.counterBlock
    ++ leBytes 8 (g.debugOpen.toNat + 2 * s.recovery.oos.toNat + 4 * s.inTrial.toNat + (if s.sun.st = .locked then 8 else 0))
    ++ nonce ++ ((List.range 16).filter (bit mask)).flatMap g.measured

/-- `QUOTE`. -/
def execQuote (s : State) : Outcome :=
  s.mbServe 0x21 fun s =>
    if s.gatehouse.identity then
      let body := s.quoteBody (s.gatehouse.arg 0x30 2) (s.gatehouse.req 0 48)
      let sig := identitySign (sha384 body)
      (mbDone, body ++ tabulate 96 fun i => sig.getD i 0, s)
    else (secNoIdentity, [], s)

/-! ## Firmware (R445 to R447, R454) -/

/-- The inactive slot of a type is slot B (R454): the one that is not booted; where the type has not booted at this power-up, the one
that its slot state does not make the next boot's (log 9). -/
def State.inactiveB (s : State) (k : Nat) : Bool :=
  let t := s.fwType k
  match mapFind k s.gatehouse.booted, t.trialB with
  | some x, _ => !x.slotB
  | none, some b => if t.trialBooted then b else !t.activeB
  | none, none => !t.activeB

/-- The inactive slot of a type. -/
def State.inactive (s : State) (k : Nat) : FwSlot := (s.fwType k).slot (s.inactiveB k)

/-- The inactive slot of a type is replaced. -/
def State.setInactive (s : State) (k : Nat) (y : FwSlot) : State := s.modFw k fun t => t.setSlot (s.inactiveB k) y

/-- The inactive slot is active-pending: activated, and not booted since. -/
def FwType.waiting (t : FwType) : Bool := t.trialB.isSome && !t.trialBooted

/-- The named type exists. -/
def fwTypeOk (t : Nat) : Bool := decide (1 ≤ t) && decide (t ≤ 4)

/-- `FW_STAGE` (R454): bytes go into the inactive slot, which becomes invalid. -/
def execFwStage (s : State) : Outcome :=
  s.mbServe 0x23 fun s =>
    let g := s.gatehouse
    let t := g.arg 0 1
    let off := g.arg 8 4
    let len := g.arg 0xC 4
    if !fwTypeOk t ∨ len = 0 ∨ 65536 < len ∨ 256 + bodyLimit t < off + len then (secFormat, [], s)
    else if (s.fwType t).waiting then (secBusy, [], s)
    else
      let y := s.inactive t
      let w := placed off (g.req 0x40 len)
      (mbDone, [], s.setInactive t { y with bytes := w.foldl (fun m e => mapPut e.1 e.2 m) y.bytes, valid := false })

/-- What R446 finds of the image in a slot for type `k` whose counter is `counter`: none where it is valid. A slot that holds
nothing is no image of Table 15-2 (log 9). -/
def FwSlot.finding (y : FwSlot) (k counter : Nat) : Option Nat :=
  if y.holdsNone || !y.formOk k then some secFormat
  else if !y.signed then some secSignature
  else if y.headerSvn < counter then some secRollback
  else none

/-- `FW_VERIFY` (R446, R454): the inactive slot is valid from now on, or is not. -/
def execFwVerify (s : State) : Outcome :=
  s.mbServe 0x24 fun s =>
    let t := s.gatehouse.arg 0 1
    let y := s.inactive t
    if !fwTypeOk t then (secFormat, [], s)
    else if (s.fwType t).waiting then (secBusy, [], s)
    else match y.finding t (s.fwType t).counter with
      | some code => (code, [], s.setInactive t { y with valid := false })
      | none => (mbDone, [], s.setInactive t { y with valid := true, svn := y.headerSvn })

/-- `FW_ACTIVATE` (R454): the verified slot becomes active in trial state. -/
def execFwActivate (s : State) : Outcome :=
  s.mbServe 0x25 fun s =>
    let t := s.gatehouse.arg 0 1
    if !fwTypeOk t then (secFormat, [], s)
    else if !(s.inactive t).valid then (secState, [], s)
    else (mbDone, [], s.modFw t fun x => { x with trialB := some (s.inactiveB t), trialBooted := false })

/-- The type's trial ends with the slot that it booted, whose `SVN` the counter rises to (R454). A slot activated meanwhile stays
pending. -/
def FwType.commit (t : FwType) (b : Bool) : FwType :=
  let u := t.raise (t.slot b).svn
  if t.trialBooted then { u with activeB := b, trialB := none, trialBooted := false } else { u with activeB := b }

/-- `FW_COMMIT` (R454). -/
def execFwCommit (s : State) : Outcome :=
  s.mbServe 0x26 fun s =>
    let t := s.gatehouse.arg 0 1
    if !fwTypeOk t then (secFormat, [], s)
    else match mapFind t s.gatehouse.booted with
      | none => (secState, [], s)
      | some x =>
        if x.trial then
          let s1 := s.modFw t fun y => y.commit x.slotB
          (mbDone, [], { s1 with gatehouse := { s1.gatehouse with booted := mapPut t { x with trial := false } s1.gatehouse.booted } })
        else (secState, [], s)

/-- `DEBUG_UNLOCK` (R455): the token must be signed, and must name this module and this power-up. -/
def execDebugUnlock (s : State) : Outcome :=
  s.mbServe 0x27 fun s =>
    let g := s.gatehouse
    if !ecdsaVerify Config.firmwareRootKey (sha384 (g.req 0 16)) (g.req 0x10 96) then (secSignature, [], s)
    else if g.arg 0 8 ≠ serial ∨ g.arg 8 4 ≠ g.boots % 2 ^ 32 then (secState, [], s)
    else (mbDone, [], { s with gatehouse := { (g.extended 6 (bytes48 (sha384 (g.req 0 0x70)))) with debugOpen := true } })

/-! ## Boot (R444, R446 to R451) -/

/-- The slot of a type is valid at this boot: R446 was found to hold of its image, and holds by the counter as it is now. -/
def FwType.bootable (t : FwType) (b : Bool) : Bool := (t.slot b).valid && decide (t.counter ≤ (t.slot b).svn)

/-- The slot that a type boots (R447, R454): a slot in trial once; then the active slot, or the other one when it is invalid. None:
both are invalid. The second part says whether it fell back from a trial slot. -/
def FwType.choose (t : FwType) : Option Bool × Bool :=
  let pick (b : Bool) : Option Bool := if t.bootable b then some b else if t.bootable (!b) then some (!b) else none
  match t.trialB with
  | some b => if t.trialBooted || !t.bootable b then (pick (!b), true) else (some b, false)
  | none => (pick t.activeB, false)

/-- The measurement register of an image type (Table 15-3). -/
def measuredInto (k : Nat) : Nat := if k = 1 then 0 else k

/-- Type `k` boots (R447, R451): its slot and trial state are recorded, and its image is measured; none when both slots are invalid. -/
def State.bootType (s : State) (k : Nat) : Option State :=
  let t := s.fwType k
  match t.choose with
  | (none, _) => none
  | (some b, back) =>
    let trial := !back && t.trialB.isSome
    let m := (t.slot b).digest
    let s1 := s.modFw k fun t =>
      if back then { t with activeB := b, trialB := none, trialBooted := false } else { t with trialBooted := trial }
    let g := s1.gatehouse.extended (measuredInto k) m
    some { s1 with gatehouse := { g with
      booted := mapPut k { slotB := b, trial := trial, digest := m } g.booted,
      fellBack := if back then Nat.lor g.fellBack (2 ^ (k - 1)) else g.fellBack } }

/-- Types boot in turn until one has no valid slot: what the earlier ones recorded stays. -/
def State.bootTypes (s : State) : List Nat → State × Bool
  | [] => (s, true)
  | k :: l => match s.bootType k with
    | none => (s, false)
    | some s1 => s1.bootTypes l

/-- A slot in trial at a cold boot that does not reach stage 7 has had its one boot (R454; log 9). -/
def FwType.tried (t : FwType) : FwType := { t with trialBooted := t.trialB.isSome }

/-- Boot halts at stage `stage` with a reason (R450, R456). -/
def State.bootHalt (s : State) (stage reason : Nat) : State :=
  ({ s with gatehouse := { s.gatehouse with
      stage := stage, halted := true, reason := reason, fw := mapAll FwType.tried s.gatehouse.fw } }).railsHalted

/-- Stages 5 to 7: every rail rises in its turn, the images of types 2 to 4 are loaded and measured, and the module is ready (R448,
R469). -/
def State.bootFast (s : State) : State :=
  match s.bootTypes [2, 3, 4] with
  | (s1, false) => s1.bootHalt 5 3
  | (s1, true) => ({ s1 with gatehouse := { s1.gatehouse with stage := 7, ready := true } }).railsUpTo 7

/-- The kind of a flash record in `FLASH_TAG_FAIL`, and the image type that the record names (R444). -/
def flashKind : FlashRecord → Nat
  | .log _ => 1
  | .dump => 2
  | .escalation => 3
  | .service => 4
  | .counter .. => 5
  | .slot .. => 6
def flashImageType : FlashRecord → Nat
  | .slot t _ => t
  | _ => 0

/-- A record whose tag fails counts as absent (R444): a log record and the dump as never written, the escalation state and service time
as those of a new module, a copy of a counter as no copy, and a slot as empty. -/
def State.dropRecord (s : State) : FlashRecord → State
  | .log seq => { s with recovery := { s.recovery with log := s.recovery.log.filter fun x => decide (x.seq.toNat ≠ seq) } }
  | .dump => { s with recovery := { s.recovery with dumpValid := false, dump := [], dumpKib := 0 } }
  | .escalation => { s with recovery := { s.recovery with events := [], oos := false, limit := 3, windowS := 600 } }
  | .service => { s with recovery := { s.recovery with service := 0 } }
  | .counter t second => s.modFw t fun x => if second then { x with second := none } else { x with first := none }
  | .slot t b => s.modFw t fun x => x.setSlot b (x.slot b).absent

/-- The record of kind `k` at the least offset among those whose tags fail. -/
def firstFailed (f : BootFinding) (k : Nat) : Option (FlashRecord × Nat) :=
  (f.tags.filter fun e => decide (flashKind e.1 = k)).foldl (fun x e => match x with
    | some y => if e.2 < y.2 then some e else some y
    | none => some e) none

/-- The failed records are dropped; each kind is logged once (R444). -/
def State.dropTags (s : State) (f : BootFinding) : State := f.tags.foldl (fun s e => s.dropRecord e.1) s
def State.logTags (s : State) (f : BootFinding) : State :=
  [1, 2, 3, 4, 5, 6].foldl (fun s k => match firstFailed f k with
    | some e => s.logDevice cFlashTagFail srcDevice k e.2 (flashImageType e.1)
    | none => s) s

/-- What ROM needs of the partition before stage 3: the slots and counter copies of the Gatehouse firmware. -/
def romTags (f : BootFinding) : BootFinding :=
  { f with tags := f.tags.filter fun e => match e.1 with
      | .counter t _ | .slot t _ => decide (t = 1)
      | _ => false }

/-- Stage 4 (R434, R444, R451): tags, the log ring, counters; then the record of the cold reset before this power-up (R439). -/
def State.bootStage4 (s : State) (f : BootFinding) : State :=
  let s1 := (s.dropTags f).logTags f
  let s2 := { s1 with gatehouse := { (s1.gatehouse.extended 6 (bytes48 (sha384 s1.counterBlock))) with stage := 4 } }
  if s2.pins.pendingCause = 0 then s2
  else ({ s2 with pins := { s2.pins with pendingCause := 0 } }).logDevice cColdReset srcDevice s2.pins.pendingCause 0 0

/-- Stages 1 to 4, then 5 to 7 unless the module is out of service (R432, R442, R443, R448). -/
def State.boot (s : State) (f : BootFinding) : State :=
  if !(f.partOk && recordAccepted) then s.bootHalt 0 1
  else if !(f.pufOk && identityAccepted) then s.bootHalt 1 2
  else
    let s1 := { s with gatehouse := { (s.gatehouse.extended 1 (bytes48 (sha384 partRecord))) with identity := true } }
    match (s1.dropTags (romTags f)).bootTypes [1] with
    | (s2, false) => s2.bootHalt 2 3
    | (s2, true) =>
      let s3 := s2.bootStage4 f
      if s3.recovery.oos then s3.railsHalted else s3.bootFast

/-! ## Dump and service (R433, R436, R490) -/

/-- `DUMP_READ`. -/
def execDumpRead (s : State) : Outcome :=
  s.mbServe 0x10 fun s =>
    let off := s.gatehouse.arg 0 4
    let len := s.gatehouse.arg 4 4
    if !s.recovery.dumpValid then (mbState, [], s)
    else if len = 0 ∨ 65536 < len ∨ s.recovery.dumpKib * 1024 < off + len then (mbRange, [], s)
    else (mbDone, tabulate len fun i => s.recovery.dumpByte (off + i), s)

/-- `SERVICE_CLEAR` (R383, R433): after a cold cycle the module completes its readiness as after power-up, and tells its
partners. -/
def execServiceClear (s : State) : Outcome :=
  s.mbServe 0x11 fun s =>
    if s.recovery.oos && s.recovery.cycled then
      let s1 := ({ s with recovery := { s.recovery with oos := false, cycled := false, events := [] } }).logDevice
        cServiceCleared srcDevice 0 0 0
      (mbDone, [], s1.bootFast.announce)
    else (mbState, [], s)

/-! ## Icehouse (R82, R491) -/

/-- Checks 3 and 4 of R491: the object's index, or the status. -/
def State.iceObject (s : State) : Except Nat Nat :=
  let h := s.gatehouse.arg 0 3
  let o := s.obj (handleIndex h)
  if s.anyEntry then .error mbAgents
  else if (s.handleFault h).isSome || !o.kind || decide (o.st ≠ .absent) || decide (0 < o.pins) then .error mbObject
  else .ok (handleIndex h)

/-- The first provision of object `i` charges its owner (R82, R491); none above the limit. -/
def State.chargeIce (s : State) (i : Nat) : Option State :=
  let o := s.obj i
  if s.mem.charged.any fun e => decide (e.1 = i) then some s
  else
    let n := 4 * o.stripes
    if (s.quota o.owner).iceLimit < (s.quota o.owner).iceUsed + n then none
    else
      let s1 := s.modQuota o.owner fun q => { q with iceUsed := q.iceUsed + n }
      some { s1 with mem := { s1.mem with charged := (i, o.owner, n) :: s1.mem.charged } }

/-- One stripe takes its source's bytes and poison; a lost stripe is whole again. -/
def State.writeStripe (s : State) (stripe src : Nat) : State :=
  let dst0 := iceBase + stripe * 262144
  let m := (s.mem.undefine dst0 262144).unmark dst0 262144
  let cells := (s.mem.cells.filter fun e => decide (src ≤ e.1) && decide (e.1 < src + 262144)).map fun e => (dst0 + (e.1 - src), e.2)
  let units := (List.range 4096).filter fun u => s.unitPoisoned (src / 64 + u)
  { s.fresh with mem := { m with
      cells := cells.foldl (fun l e => mapPut e.1 e.2 l) m.cells,
      poison := units.foldl (fun l u => setInsert (dst0 / 64 + u) l) m.poison,
      lostStripes := m.lostStripes.filter fun k => decide (k ≠ stripe), iceWritten := setInsert stripe m.iceWritten } }

/-- Stripes are written in turn until the source's stack is found stopped: the state, the stripes and the poisoned units written, and
whether all were. -/
def State.writeStripes (s : State) (stripe src : Nat) : Nat → State × Nat × Nat × Bool
  | 0 => (s, 0, 0, true)
  | n + 1 =>
    match s.stoppedIn src 262144 with
    | some _ => (s, 0, 0, false)
    | none =>
      let bad := ((List.range 4096).filter fun u => s.unitPoisoned (src / 64 + u)).length
      let r := (s.writeStripe stripe src).writeStripes (stripe + 1) (src + 262144) n
      (r.1, r.2.1 + 1, r.2.2.1 + bad, r.2.2.2)

/-- The L3 holds no line of the Icehouse window (R337). -/
def State.dropIceLines (s : State) : State :=
  { s with cluster := { s.cluster with l3 := s.cluster.l3.filter fun e => decide (regionOf (64 * e.1) ≠ .ice) } }

/-- A provision of object `i`: stripes `first` to `first + count − 1` of its extent from `src`. -/
def State.provision (s : State) (i src first count : Nat) : Nat × List Byte × State :=
  let o := s.obj i
  let r := s.writeStripes (o.stripe + first) src count
  let s1 := if r.2.1 = 0 then r.1 else r.1.dropIceLines
  let whole := r.2.2.2 && !(s1.mem.lostStripes.any fun k => decide (o.stripe ≤ k) && decide (k < o.stripe + o.stripes))
  let s2 := if whole then s1.modObj i fun o => { o with damaged := false } else s1
  (if r.2.2.2 then mbDone else mbSource, leBytes 8 (r.2.1 + r.2.2.1 * 2 ^ 32), s2)

/-- `ICE_PROVISION` (R491); it waits while a channel holds what it reads (R414, R426). -/
def execIceProvision (s : State) : Outcome :=
  if s.heldIn (s.gatehouse.arg 8 6) (s.gatehouse.arg 0x14 4 * 262144) then .next s else
  s.mbServe 0x30 fun s =>
    match s.iceObject with
    | .error c => (c, [], s)
    | .ok i =>
      let src := s.gatehouse.arg 8 6
      let first := s.gatehouse.arg 0x10 4
      let count := s.gatehouse.arg 0x14 4
      if (s.obj i).stripes < first + count ∨ count = 0 ∨ src % 64 ≠ 0 ∨ stackTop < src + count * 262144 then (mbRange, [], s)
      else match s.chargeIce i with
        | none => (mbQuota, [], s)
        | some s1 => s1.provision i src first count

/-- `ICE_RELEASE` (R491): the charge goes, and the extent's stripes hold undefined bytes. -/
def execIceRelease (s : State) : Outcome :=
  s.mbServe 0x31 fun s =>
    match s.iceObject with
    | .error c => (c, [], s)
    | .ok i =>
      let o := s.obj i
      let s1 := (s.mem.charged.filter fun e => decide (e.1 = i)).foldl
        (fun s e => s.modQuota e.2.1 fun q => { q with iceUsed := q.iceUsed - e.2.2 }) s
      let s2 := { s1 with mem := { s1.mem with charged := s1.mem.charged.filter fun e => decide (e.1 ≠ i) } }
      let s3 := s2.undefine (iceBase + o.stripe * 262144) (o.stripes * 262144)
      let m := s3.mem.unmark (iceBase + o.stripe * 262144) (o.stripes * 262144)
      (mbDone, [], { s3 with mem := { m with
        iceWritten := m.iceWritten.filter fun k => !(decide (o.stripe ≤ k) && decide (k < o.stripe + o.stripes)) } })

end Sys2Proof.Machine
end

