-- ==== Sys2Proof/Machine/PowerOps.lean ====
section
/-! DEFINITION. Power, clocks and mowing windows (13 R399 to R417): profiles, gating, the throttle envelope and its holds, the input,
die temperatures, and windows. -/
namespace Sys2Proof.Machine

/-! ## Profiles and gating (R403, R406, R407) -/

/-- `POWER_PROFILE` (R407). -/
def execPowerProfile (w : RegVal) (s : State) : Outcome :=
  if s.driverReaches && w.hasLow then
    if s.anyEntry then .next { s with power := { s.power with profileRejected := true } }
    else .next { s with power := { s.power with
      lean := bit w.value.toNat 0, profileRejected := s.power.profileRejected && !bit w.value.toNat 2 } }
  else .next s

/-- `PROFILE_CHANGE` (R407): the array lanes lose their seeds (R327), and a return to Full unbinds the Lean stream (R350). -/
def execProfileChange (now : Word64) (s : State) : Outcome :=
  match s.at? now with
  | none => .next s
  | some s1 =>
    if s.alwaysOn && (s.power.lean != s.power.leanActive) then
      .next { s1 with
        power := { s1.power with leanActive := s.power.lean },
        arrays := mapAll (fun x => { x with lanes := [], lkLive := false }) s.arrays,
        codec := if s.power.lean then s.codec else
          { s.codec with ctxs := mapAll (fun x => { x with leanBound := false }) s.codec.ctxs } }
    else .next s

/-- A block gates its power (Table 13-4): a core's L1 and L2 are emptied. -/
def State.gatePower (s : State) (i : Nat) : State :=
  let s1 := s.modAgent i fun a => { a with gating := .powerGated, awakeUntil := none }
  if isCore i then s1.modCore (i - 192) fun c => { c with lines := [], l1i := [], l1d := [], reservation := none } else s1

/-- `POWER_GATE` (R403, R406): a core that holds a fault record, or still writes back after its clear, does not gate (R341). -/
def execPowerGate (i : Nat) (now : Word64) (s : State) : Outcome :=
  match s.at? now with
  | none => .next s
  | some s1 => match (s.agent i).gating with
    | .clockGated since =>
      let a := s.agent i
      let held := match a.awakeUntil with
        | some t => decide (now.toNat < t.toNat)
        | none => false
      let core := isCore i && (a.fault.isSome || (s.core (i - 192)).clearing)
      if s.agentsRun && decide (i < 230) && !held && !core && decide (a.prog ≠ .resetting)
          && decide (usTicks s.power.idleHold ≤ now.toNat - since.toNat) then
        .next (s1.gatePower i)
      else .next s
    | _ => .next s

/-! ## Throttle envelope (R408), in units of 0.1 mW -/

/-- The rate class of a compute row or of an instruction on the cells. -/
def computePower (c : Nat) : Nat := if c = 1 then 95000 else 85000

/-- An instruction without Trellis rows that runs now. -/
def State.runsWhole (s : State) (a : Nat) (f : Flight) : Bool :=
  opCompute f.code && !f.noop && !f.hasRows && f.code != opCopy && f.code != opKvexp && s.computeTurn a f.place && s.bankReady a f
    && !s.waitHolds a f.place

/-- Some copy of array `a` runs: its copy unit or the Trellis copy engine. -/
def State.copying (s : State) (a : Nat) : Bool :=
  (s.nextRow a .copy).isSome || (s.array a).flights.any fun f => f.code == opCopy && !s.waitHolds a f.place

/-- What array `a` does, apart from a pause: its figure of Table 13-5 while it is not gated. -/
def State.arrayWork (s : State) (a : Nat) : Nat :=
  match s.nextRow a .compute with
  | some (f, r) =>
    if r.kind = 15 then 45000
    else computePower (if f.code = opMmx then 2
      else if f.code = opConvf then rateOf ((Fmt.ofCode (fieldAt (f.layer r.part) 0xD 0 4)).getD .bit) else rateOf (f.op 8).fmt)
  | none => match (s.array a).flights.find? fun f => s.runsWhole a f with
    | some f => if f.code = opAttn ∨ f.code = opAttnb ∨ f.code = opPscore then computePower (rateOf (f.op 8).fmt) else 45000
    | none => if s.copying a then 30000 else 20000

/-- The figure of array `a`. -/
def State.arrayPower (s : State) (a : Nat) : Nat :=
  let lean := if s.power.leanActive then 5000 else 0
  match (s.agent a).gating with
  | .powerGated => 6000
  | .waking _ => 40000 - lean
  | .clockGated _ => 20000 - lean
  | .running => (if (s.array a).paused then 20000 else s.arrayWork a) - lean

/-- The figure of a codec core. -/
def State.codecPower (s : State) (c : Nat) : Nat :=
  if s.coreUnpowered c then 0 else if (s.codecCore c).cmd.isSome then 60000 else 1000

/-- The figure of a port. -/
def State.portPower (s : State) (p : Nat) : Nat :=
  if s.usable p then
    (if p < 12 then (if (s.port p).gen = 3 then 45000 else 25000) else (if (s.port p).gen = 2 then 50000 else 30000))
  else 0

/-- The sum of `f` over 0 to `n` − 1. -/
def sumTo (n : Nat) (f : Nat → Nat) : Nat := (List.range n).foldl (fun t i => t + f i) 0

/-- The envelope sum E (Table 13-5), with the traffic of the stacks and the Icehouse in GB/s. -/
def State.envelopeOf (s : State) (stackGBs : List Nat) (iceGBs : Nat) : Nat :=
  sumTo 192 s.arrayPower
    + sumTo 8 (fun k => 40000 + 95 * stackGBs.getD k 0)
    + 8 * 60000 + sumTo 16 (fun m => if (s.mover m).cmd.isSome then 40000 else 0)
    + sumTo 16 (fun k => if s.coreBusy k then 40000 else 1000)
    + (if (List.range 16).any s.coreBusy then 60000 else 0)
    + sumTo 6 s.codecPower + 350000 + sumTo 14 s.portPower + 200000 + 1500 * iceGBs

/-! ## The module cap (R409, R410) -/

/-- 2,400 W and 2,800 W. -/
def capSteady : Nat := 24000000
def capPeak : Nat := 28000000

/-- The envelope's changes in the last 100 ms, latest first, with the present one: those that still reach into it. -/
def keepHistory (now e : Nat) (l : List (Nat × Nat)) : List (Nat × Nat) :=
  let recent := l.takeWhile fun x => decide (now < x.1 + 400000000)
  let older := (l.drop recent.length).take 1
  match l with
  | (_, e0) :: _ => if e0 = e then recent ++ older else (now, e) :: (recent ++ older)
  | [] => [(now, e)]

/-- The integral of the envelope over the 100 ms that end at `upTo`. -/
def envelopeIntegral (upTo : Nat) : Nat → List (Nat × Nat) → Nat
  | _, [] => 0
  | last, (t, e) :: l =>
    let lo := max t (upTo - 400000000)
    (if lo < last then e * (last - lo) else 0) + envelopeIntegral upTo (min last t) l

/-- The mean over 100 ms would pass 2,400 W in the next microsecond. -/
def meanPasses (now : Nat) (l : List (Nat × Nat)) : Bool :=
  decide (capSteady * 400000000 < envelopeIntegral (now + 4000) (now + 4000) l)

/-- What an array draws that is paused: 2.0 W, 0.5 W less in Lean. -/
def State.pausedPower (s : State) : Nat := if s.power.leanActive then 15000 else 20000

/-- A running array may be paused to lower E. -/
def State.canPause (s : State) (a : Nat) : Bool :=
  decide (s.pausedPower < s.arrayPower a) && !(s.array a).paused && !(s.array a).pausing
    && (match (s.agent a).gating with
        | .running => true
        | _ => false)

/-- A compute row of array `a` is in execution, or an instruction on the cells or the vector engine that has no rows. -/
def State.inCompute (s : State) (a : Nat) : Bool :=
  (s.nextRow a .compute).isSome || (s.array a).flights.any fun f => s.runsWhole a f

/-- Array `a` pauses at its next compute-row boundary: at once where no compute row is in execution. -/
def State.pauseArray (s : State) (a : Nat) : State :=
  s.modArray a fun x => if s.inCompute a then { x with pausing := true } else { x with paused := true, pausedAt := s.sundial }

/-- Running arrays are paused, highest number first, until E is `cap` or below: each counts from now on as it does once paused. -/
def pauseArrays (cap : Nat) : List Nat → Nat → State → Nat × State
  | [], e, s => (e, s)
  | a :: l, e, s =>
    if e ≤ cap then (e, s)
    else if s.canPause a then pauseArrays cap l (e - (s.arrayPower a - s.pausedPower)) (s.pauseArray a)
    else pauseArrays cap l e s

/-- A paused array goes on, and one that has not come to its boundary need not stop there; its watchdog did not run while it was
paused (R419). -/
def State.resumeArray (s : State) (a : Nat) : State :=
  let x := s.array a
  let s1 := s.modArray a fun x => { x with paused := false, pausing := false }
  if x.paused then s1.modAgent a (Agent.pausedFrom x.pausedAt s.sundial) else s1

/-- What a paused array would draw more if it went on. -/
def State.workBack (s : State) (a : Nat) : Nat := (s.modArray a fun x => { x with paused := false }).arrayWork a - 20000

/-- Arrays that pause are released, lowest number first, as far as E permits. -/
def releaseArrays : List Nat → Nat → State → Nat × State
  | [], e, s => (e, s)
  | a :: l, e, s =>
    if (s.array a).paused || (s.array a).pausing then
      if e + s.workBack a ≤ capSteady then releaseArrays l (e + s.workBack a) (s.resumeArray a) else (e, s)
    else releaseArrays l e s

/-- What the arrays of `l` still draw above a paused array's figure that pause at their next boundary. -/
def State.pausingPower (s : State) (l : List Nat) : Nat :=
  l.foldl (fun n a => if (s.array a).pausing then n + s.workBack a else n) 0

/-- What the held transition of agent `i` adds: an array's wake, a core's start, a mover's or codec core's command. -/
def State.heldPower (s : State) (i : Nat) : Nat :=
  if isArray i then s.wakePower i else if isCore i then s.corePower else if isMover i then 40000 else 59000

/-- Held transitions go on, lowest agent first, as far as E stays at 2,800 W or below: an array wakes; a start comes with its own
event (R405, R410). -/
def releaseWakes : List Nat → Nat → State → Nat × State
  | [], e, s => (e, s)
  | i :: l, e, s =>
    if (s.agent i).heldWake ∧ e + s.heldPower i ≤ capPeak then
      releaseWakes l (e + s.heldPower i) (s.modAgent i fun a =>
        { a.unheld s.sundial with gating := if isArray i then .waking s.sundial else a.gating })
    else releaseWakes l e s

/-- The latest `POWER_CAP` record gives the arrays paused and the total hold time. -/
def fillCapRecord (arrays hold : Nat) : List LogRec → List LogRec
  | [] => []
  | r :: l => if r.code = cPowerCap then { r with d0 := arrays, d1 := hold } :: l else r :: fillCapRecord arrays hold l

/-- The hold is logged when it begins, once per epoch, and its record is completed as it goes on: the most arrays paused, and the time
for which transitions or arrays were held in all. -/
def State.noteHold (s : State) (held : Bool) : State :=
  let n := ((List.range 192).filter fun a => (s.array a).paused || (s.array a).pausing).length
  let s1 := if held then s.heldByCap else s
  let p := s1.power
  let arrays := max p.holdArrays n
  let time := p.holdTime + (match p.holdSince with
    | some t => s1.sundial.toNat - t.toNat
    | none => 0)
  let s2 := if p.holdSince.isSome then
    { s1 with recovery := { s1.recovery with log := fillCapRecord arrays time s1.recovery.log } } else s1
  { s2 with power := { p with
      capHold := held, holdSince := if held then p.holdSince else none, holdTime := if held then p.holdTime else time,
      holdArrays := arrays } }

/-- The power cap acts on the arrays `l` with envelope sum `e`: past the limits of 2,400 W arrays pause, highest number first;
above 2,800 W compute rows are held in the same order; otherwise paused arrays and held transitions go on (R409, R410; log
100). An array that pauses at its next boundary counts as paused in what more is to pause. -/
def State.holdArrays (s : State) (past : Bool) (e : Nat) (l : List Nat) : State :=
  let e0 := e - s.pausingPower l
  let r1 := if past || decide (capPeak < e) then pauseArrays (if past then capSteady else capPeak) l.reverse e0 s
    else releaseArrays l e0 s
  let t := (releaseWakes (l ++ (List.range 38).map (192 + ·)) (r1.1 + r1.2.pausingPower l) r1.2).2
  t.noteHold ((l.any fun a => (t.array a).paused || (t.array a).pausing) || (List.range 230).any fun i => (t.agent i).heldWake)

/-- The power domain after a sample of `e` at `now`: since when the envelope has passed 2,640 W without a break (R409, R410). -/
def Power.sampled (p : Power) (now : Word64) (e : Nat) : Power :=
  { p with envelope := e, added := 0, peak := max p.peak (e / 10000), history := keepHistory now.toNat e p.history,
           overSince := if capSteady < e then some (p.overSince.getD now) else none }

/-- The envelope has passed 2,640 W for 10 ms, or its mean over a window has (R410). -/
def Power.past (p : Power) (now : Word64) : Bool :=
  (p.overSince.any fun t => decide (usTicks 10000 ≤ now.toNat - t.toNat)) || meanPasses now.toNat p.history

/-- A sample of `e` is taken at `now`, and arrays are held or released by it. -/
def State.sampled (s : State) (now : Word64) (e : Nat) : State :=
  let t := { s with power := s.power.sampled now e }
  t.holdArrays (t.power.past now) e (List.range 192)

/-- `ENVELOPE_SAMPLE` (R408 to R410). -/
def execEnvelopeSample (now : Word64) (stackGBs : List Nat) (iceGBs : Nat) (s : State) : Outcome :=
  match s.at? now with
  | none => .next s
  | some s1 => .next (if s.agentsRun then s1.sampled now (s1.envelopeOf stackGBs iceGBs) else s)

/-! ## The input (R399, R400, R411) -/

/-- `INPUT_POWER_SAMPLE` (R411): above 3,000 W for longer than 100 µs the power-fail sequence starts. -/
def execInputPowerSample (watts : Nat) (now : Word64) (s : State) : Outcome :=
  match s.at? now with
  | none => .next s
  | some s1 =>
    if s.alwaysOn then
      let since := if 3000 < watts then some (s.power.overload.getD now) else none
      let s2 := { s1 with power := { s1.power with inputW := watts, overload := since } }
      match since with
      | some t => if usTicks 100 < now.toNat - t.toNat then .next (s2.powerFail cInputOverload 0 .off) else .next s2
      | none => .next s2
    else .next s

/-- The band of an input voltage (Table 13-1): 0 full operation, 1 sag, 2 outside, 3 disconnect. -/
def inputBand (mv : Nat) : Nat := if 66000 < mv then 3 else if 60000 < mv ∨ mv < 36000 then 2 else if mv < 40000 then 1 else 0

/-- Ticks that a band may last. -/
def bandLimit (band : Nat) : Nat := if band = 1 then 4000000 else if band = 2 then 400000 else 0

/-- `INPUT_SAG` (R399): the input moves. Before power-good the sequence ends when the input leaves its range (R468). -/
def execInputSag (mv : Nat) (now : Word64) (s : State) : Outcome :=
  let band := inputBand mv
  match s.pins.phase with
  | .on => match s.at? now with
    | none => .next s
    | some s1 =>
      let same := decide (inputBand s.power.inputMv = band)
      let raise := decide (band = 1) && !s.power.sagRaised
      let s2 := { s1 with power := { s1.power with
        inputMv := mv, sagSince := if band = 0 then none else if same then s.power.sagSince.orElse fun _ => some now else some now,
        sagRaised := decide (band ≠ 0) && (s.power.sagRaised || raise), sagFlag := s.power.sagFlag || raise } }
      let s3 := if raise then s2.logEvent cInputSag srcPower 0 mv 0 0 else s2
      .next (if band = 3 then s3.powerFail cInputPowerFail 0 .off else s3)
  | .failed => .next (if mv < 36000 then { s with pins := { s.pins with phase := .off } } else s)
  | .off => .next s
  | _ => .next (if band = 0 then s else { s with pins := { s.pins with phase := .off } })

/-- `POWER_FAIL` (R399, R400): an excursion has outlasted its allowance, or passes 66 V. -/
def execPowerFail (mv : Nat) (now : Word64) (s : State) : Outcome :=
  match s.at? now with
  | none => .next s
  | some s1 =>
    let band := inputBand mv
    let since := if inputBand s.power.inputMv = band then s.power.sagSince else none
    let long := decide (band = 3) || (match since with
      | some t => decide (bandLimit band < now.toNat - t.toNat)
      | none => false)
    if s.alwaysOn && decide (band ≠ 0) && long then
      .next (({ s1 with power := { s1.power with inputMv := mv } }).powerFail cInputPowerFail 0 .off)
    else .next s

/-! ## Die temperatures (R412, R464) -/

/-- Array `a` of a tripped die faults and gates its power. -/
def State.tripArray (s : State) (a : Nat) : State :=
  let f : FaultInfo := { code := cDieOvertemp }
  let x := s.executing a
  let s1 := if (s.agent a).prog = .resetting then s.recordFault a f x.op x.addr x.lastTile x.tileCount
    else s.faultArray a f x.op x.addr x.place x.lastTile x.tileCount
  s1.modAgent a fun g => { g with gating := .powerGated, heldWake := false, wakeAt := none, awakeUntil := none }

/-- A compute die trips: one escalation event (R431). -/
def State.tripDie (s : State) (die : Nat) : State :=
  let s1 := (List.range 24).foldl (fun s k => s.tripArray (24 * die + k)) s
  ({ s1 with power := { s1.power with trip := setInsert die s1.power.trip, tripped := setInsert die s1.power.tripped } }).escalate

/-- `DIE_TEMP_REPORT` (Table 13-6): dies 0 to 7 are compute dies, 8 to 15 memory-side dies, 16 the I/O die. -/
def execDieTempReport (die temp : Nat) (s : State) : Outcome :=
  if s.alwaysOn && decide (die < 17) then
    let s1 := { s with power := { s.power with temps := mapPut die temp s.power.temps } }
    if !s.agentsRun then .next s1
    else if die < 8 then
      let s2 := if 100 ≤ temp ∧ !s.power.hot.contains die then
          ({ s1 with power := { s1.power with hot := setInsert die s1.power.hot } }).logEvent cDieHot (srcDie die) 0 temp 0 0
        else if temp < 97 then { s1 with power := { s1.power with hot := s1.power.hot.filter fun d => decide (d ≠ die) } }
        else s1
      .next (if 110 ≤ temp ∧ !s.power.tripped.contains die then s2.tripDie die else s2)
    else if 110 ≤ temp then
      .next ((s1.logDevice cDieOvertemp (if die < 16 then srcMemDie (die - 8) else srcDevice) temp 0 0).warmReset 4 true)
    else .next s1
  else .next s

/-- `DIE_TRIP` (R412): a tripped die below 95 °C resumes; a write made earlier has no effect. -/
def execDieTrip (w : RegVal) (s : State) : Outcome :=
  if s.driverReaches && w.hasLow then
    let keep (d : Nat) : Bool := !(bit w.value.toNat d && decide (s.dieTemp d < 95))
    .next { s with power := { s.power with trip := s.power.trip.filter keep, tripped := s.power.tripped.filter keep } }
  else .next s

/-! ## Mowing windows (R413 to R416) -/

/-- Ticks of a window's period. -/
def Power.period (p : Power) : Nat := p.mowPeriod * 4000

/-- The start of the scheduled window at or before `now` (R413). -/
def Power.windowAt (p : Power) (now : Nat) : Nat := p.mowPhase.toNat + (now - p.mowPhase.toNat) / p.period * p.period

/-- The channels that the memory-side dies recalibrate in a window, 128 to a stack: a choice of the device, at most 32 of each
stack, none of a stack at throttle step 3 (R414, R416; log 99). -/
def State.calibration (s : State) : List Nat :=
  (List.range 8).flatMap fun k =>
    if (s.stack k).stopped then []
    else (((List.range 128).map (128 * k + ·)).filter fun c => decide (Config.freeNat s.free [0x414, c] % 2 = 1)).take 32

/-- A window of `us` microseconds opens. -/
def State.openWindow (s : State) (us : Nat) : State :=
  { s.fresh with power := { s.power with
      calibrating := s.calibration, inWindow := true, windowEnd := BitVec.ofNat 64 (s.sundial.toNat + usTicks us), lastWindow := some s.sundial } }

/-- `MOW_WINDOW_START` (R413): the first tick at which the Sundial has reached a window's time. -/
def execMowWindowStart (now : Word64) (s : State) : Outcome :=
  match s.at? now with
  | none => .next s
  | some s1 =>
    let p := s.power
    let t := p.windowAt now.toNat
    let fresh := match p.lastWindow with
      | some l => decide (l.toNat < t)
      | none => true
    if s.alwaysOn && p.mowEn && !p.inWindow && decide (p.mowPhase.toNat ≤ now.toNat) && fresh
        && decide (now.toNat < t + usTicks p.mowLength) then .next (s1.openWindow p.mowLength)
    else .next s

/-- Ticks since a window last began, or since the Sundial started. -/
def State.sinceWindow (s : State) (now : Nat) : Nat := now - ((s.power.lastWindow.map fun t => t.toNat).getD 0)

/-- `MOW_FORCED` (R415): 200 ms after the last window. Ports re-equalise in it as in any window, with their partner in one
(R414). -/
def execMowForced (now : Word64) (s : State) : Outcome :=
  match s.at? now with
  | none => .next s
  | some s1 =>
    let gap := s.sinceWindow now.toNat
    if s.alwaysOn && !s.power.inWindow && decide (usTicks 200000 ≤ gap) then
      let s2 := s1.openWindow (min s.power.mowLength 20)
      .next (({ s2 with power := { s2.power with forced := true, lateness := BitVec.ofNat 64 gap } }).logEvent cMowForced srcPower
        0 0 gap 0)
    else .next s

/-- `MOW_CONFIG` (R413, Table 13-7). -/
def execMowConfig (w : RegVal) (s : State) : Outcome :=
  if s.driverReaches then
    if s.anyEntry then .next { s with power := { s.power with mowRejected := true } }
    else
      let v := mergeHalf s.power.mowWord w
      let len := bits v 8 8
      let per := bits v 16 24
      .next { s with power := { s.power with
        mowEn := bit v 0, mowRejected := s.power.mowRejected && !(w.hasLow && bit v 1),
        mowLength := if 10 ≤ len ∧ len ≤ 50 then len else s.power.mowLength,
        mowPeriod := if 1000 ≤ per ∧ per ≤ 100000 then per else s.power.mowPeriod } }
  else .next s

/-- `MOW_PHASE` (R413). -/
def execMowPhase (w : RegVal) (s : State) : Outcome :=
  if s.driverReaches then
    if s.anyEntry then .next { s with power := { s.power with mowRejected := true } }
    else .next { s with power := { s.power with mowPhase := BitVec.ofNat 64 (mergeHalf s.power.mowPhase.toNat w) } }
  else .next s

end Sys2Proof.Machine
end

