-- ==== Sys2Proof/Machine/SundialCmds.lean ====
section
/-! DEFINITION. The Sundial (12 R388 to R396): the exchange of timestamps, the election's periods, steering and the
pulse-per-second input. The slew acts on the counter's own ticks; readings that come with commands contain it (log 3). -/
namespace Sys2Proof.Machine

/-! ## Exchanges (R388, R389) -/

/-- The advertisement that this module sends: its best serial and distance, LOCKED, and whether the master has PPS. -/
def State.syncReqTxn (s : State) : Txn :=
  let pps := match s.sun.best with
    | none => s.sun.ppsValid
    | some _ => match (s.port s.sun.parent).adv with
      | some a => a.pps
      | none => false
  { hdr := { hdrOf tSyncReq with
      w1 := s.sun.master, w2 := s.sun.depth + (if s.sun.st = .locked then 32 else 0) + (if pps then 64 else 0) }, data := [] }

/-- `SYNC_REQ` (R388, R390, R391): the partner's advertisement is kept and answered; a port that re-equalises carries none
(R414). -/
def execSyncReq (p : Nat) (h : Hdr) (t2 t3 : Nat) (s : State) : Outcome :=
  if s.linked p && !(s.port p).equalising then
    let a : Advert := { serial := h.w1, distance := bits h.w2 0 5, locked := bit h.w2 5, pps := bit h.w2 6, age := 0 }
    let s1 := if s.usable p then (s.modPort p fun q => { q with adv := some a }).elect else s
    .next (s1.send p { hdr := { hdrOf tSyncResp with w1 := t2 % 2 ^ 64, w2 := t3 % 2 ^ 64 }, data := [] })
  else .next s

/-- The difference of two 64-bit timestamps. -/
def timeDiff (a b : Nat) : Int := (BitVec.ofNat 64 a - BitVec.ofNat 64 b).toInt

/-- `ASYM_TRIM` as a signed number (Table 12-8). -/
def asymTrim (n : Nat) : Int := (BitVec.ofNat 16 n).toInt

/-- The partner's offset in units of 1/32 tick (R389). -/
def syncOffset (t1 t2 t3 t4 trim : Nat) : Int := timeDiff t2 t1 - timeDiff t4 t3 - asymTrim trim

/-- The one-way delay in units of 1/16 tick, rounded down (R389). -/
def syncDelay (t1 t2 t3 t4 : Nat) : Nat := ((timeDiff t4 t1 - timeDiff t3 t2) / 2).toNat % 2 ^ 32

/-- The weight of port `p`'s offset in the error e (R392): LOCKED partners in service no further from the master than this
module, the parent twice. -/
def State.syncWeight (s : State) (p : Nat) : Nat :=
  match (s.port p).adv with
  | some a => if s.usable p ∧ a.locked ∧ a.distance ≤ s.sun.depth then (if p = s.sun.parent then 2 else 1) else 0
  | none => 0

/-- The sum of the weighted offsets, and the sum of their weights; e is their quotient (R392). -/
def State.syncError (s : State) : Int × Nat :=
  portNumbers.foldl (fun e p => match (s.port p).offset with
    | some o => (e.1 + o * s.syncWeight p, e.2 + s.syncWeight p)
    | none => e) (0, 0)

/-- A correction of at most 200 ppm of one period: 10 ns, in units of 1/32 tick (R392, R395). -/
def slewLimit (x : Int) : Int := max (-1280) (min 1280 x)

/-- A slew for the next period (R392): 1/32 tick of a period of 50 µs is 625 ticks a second. -/
def Sundial.slewed (u : Sundial) (x : Int) : Sundial := { u with slew := 625 * x, slewLeft := some slewPeriod }

/-- One exchange with the parent steers the module (R392): 0.125 ns is 16 units, 4 ns is 512 and 1 µs is 128,000. An exchange
with a parent that is not LOCKED breaks the run of good ones. -/
def State.steer (s : State) (parent : Int) (locked : Bool) : State :=
  let e := s.syncError
  let within (k : Nat) : Bool := decide (e.1.natAbs ≤ k * e.2)
  if e.2 = 0 then { s with sun := { s.sun with good := 0 } }
  else
    let slew := slewLimit (e.1.tdiv (2 * e.2))
    let good := if within 16 ∧ locked then s.sun.good + 1 else 0
    match s.sun.st with
    | .free => s
    | .acquiring =>
      if !locked then { s with sun := { s.sun with good := 0 } }
      else if !within 128000 ∧ !s.anyEntry then
        { s with sundial := s.sundial + BitVec.ofInt 64 (parent.fdiv 32),
                 sun := { s.sun with stepped := true, good := 0, slew := 0, slewLeft := none,
                                     stepTicks := s.sun.stepTicks + parent.fdiv 32 },
                 link := { s.link with ports := mapAll (fun q => { q with offset := none }) s.link.ports } }
      else { s with sun := { s.sun.slewed slew with good := good, st := if 16 ≤ good then .locked else .acquiring } }
    | .locked =>
      { s with sun := { s.sun.slewed slew with
          good := good, st := if within 512 then .locked else .acquiring,
          lockLost := s.sun.lockLost || !within 512 } }

/-- `SYNC_RESP` (R389, R392). -/
def execSyncResp (p : Nat) (h : Hdr) (t4 : Nat) (s : State) : Outcome :=
  if s.linked p && !(s.port p).equalising then
    match (s.port p).t1 with
    | none => .next s
    | some t1 =>
      let o := syncOffset t1 h.w1 h.w2 t4 (s.port p).asymTrim
      let s1 := s.modPort p fun q => { q with offset := some o, pathDelay := syncDelay t1 h.w1 h.w2 t4, t1 := none }
      match (s.port p).adv with
      | some a => if s.usable p ∧ s.sun.best.isSome ∧ p = s.sun.parent then .next (s1.steer o a.locked) else .next s1
      | none => .next s1
  else .next s

/-! ## Periods (R388, R390 to R392) -/

/-- The port whose periods the settle count takes: the lowest that is linked, or port 0. -/
def State.settlePort (s : State) : Nat := (portNumbers.find? fun p => s.linked p).getD 0

/-- One more period without a change of the best advertisement, unless it changed in this one; once settled the master becomes
LOCKED, any other module ACQUIRING (R392). A module out of service is never master (R386). -/
def State.settlePeriod (s : State) : State :=
  let n := if s.sun.changed then 0 else min 64 (s.sun.stable + 1)
  let st := if n < s.sun.settle ∨ s.sun.st = .locked then s.sun.st
    else if s.sun.best.isSome then .acquiring else if s.recovery.oos then s.sun.st else .locked
  { s with sun := { s.sun with stable := n, changed := false, st := st } }

/-- A stored advertisement one period later: four without a `SYNC_REQ` drop it; a missed exchange counts as one and drops nothing
(R391). -/
def Advert.older (missed : Bool) (a : Advert) : Option Advert :=
  if a.age + 1 < 4 ∨ missed then some { a with age := a.age + 1 } else none

/-- `SYNC_PERIOD` (R388, R391, R392, R416): a port that is UP with a partner in service re-equalises only while both ends are in a
window (R414). -/
def execSyncPeriod (p t1 : Nat) (equalising : Bool) (s : State) : Outcome :=
  if s.alwaysOn && decide (p < 14) then
    let eq := equalising && s.power.inWindow && s.usable p && (s.port p).pWindow
    let s1 := s.modPort p fun q => { q with equalising := eq, adv := q.adv.bind (Advert.older eq) }
    let s2 := s1.elect
    let s3 := if p = s.settlePort then s2.settlePeriod else s2
    if s.linked p && !eq then
      .next ((s3.send p s3.syncReqTxn).modPort p fun q => { q with t1 := some (t1 % 2 ^ 64) })
    else .next s3
  else .next s

/-! ## Pulse per second (R395, R467) -/

/-- Two edges are 1 s ± 1 µs apart. -/
def ppsOnTime (t now : Word64) : Bool :=
  decide (secondTicks - 4000 ≤ now.toNat - t.toNat) && decide (now.toNat - t.toNat ≤ secondTicks + 4000)

/-- The master is on the pulse's time: with its slew until the next edge the counter advances by one second between edges, from the
advance of the last second under the slew then in force; at most 200 ppm, which is 800,000 ticks a second. -/
def Sundial.ppsSlew (u : Sundial) (advance : Nat) : Int :=
  let old := if u.slewLeft.isNone then u.slew else 0
  max (-800000) (min 800000 (((secondTicks : Int) * (secondTicks + old) + advance / 2) / advance - secondTicks))

/-- The module is the master, which one out of service never is (R386, R390). -/
def State.masters (s : State) : Bool := s.sun.best.isNone && !s.recovery.oos

/-- `PPS_EDGE` (R395): the master slews so that its counter advances by one second between edges; an edge off time clears
`PPS_VALID`, and the master runs on its own oscillator. -/
def execPpsEdge (now : Word64) (s : State) : Outcome :=
  match s.at? now with
  | none => .next s
  | some s1 =>
    if s.alwaysOn && s.sun.ppsEn then
      let n := match s.sun.lastPps with
        | some t => if ppsOnTime t now then min 3 (s.sun.ppsGood + 1) else 0
        | none => 0
      let valid := decide (n = 3)
      let u : Sundial := { s1.sun with lastPps := some now, ppsGood := n, ppsValid := valid }
      .next { s1 with sun := if !s.masters then u else match s.sun.lastPps with
        | some t => { u with slew := if valid then s.sun.ppsSlew (now.toNat - t.toNat) else 0, slewLeft := none }
        | none => u }
    else .next s

/-- `PPS_EDGE_LOSS` (R395): no edge within 1 s and 1 µs of the last. -/
def execPpsEdgeLoss (now : Word64) (s : State) : Outcome :=
  match s.at? now with
  | none => .next s
  | some s1 => match s.sun.lastPps with
    | some t =>
      if s.alwaysOn && decide (secondTicks + 4000 < now.toNat - t.toNat) then
        .next { s1 with sun := { s1.sun with
          lastPps := none, ppsGood := 0, ppsValid := false, slew := if s.masters then 0 else s1.sun.slew,
          slewLeft := if s.masters then none else s1.sun.slewLeft } }
      else .next s
    | none => .next s

end Sys2Proof.Machine
end

