-- ==== Sys2Proof/Machine/Registers.lean ====
section
/-! DEFINITION. The control space map (17 R476 to R489): its blocks, what each register reads, and what a driver's write to it does
(R19, R480). A register that has a command of its own takes that command's effect. -/
namespace Sys2Proof.Machine

/-! ## Blocks (R476, Table 17-1) -/

/-- The blocks of control space. -/
inductive Block where
  | device
  | epoch
  | power
  | link
  | recovery
  | gatehouse
  | memory
  | quota
  | codec
  | agent
  | gates
  | arrays
  | sessions
  | sessionPort
  | pages
  | objects
  | corePorts
  deriving DecidableEq, Repr

/-- Base address and length of each block. -/
def blockTable : List (Block × Nat × Nat) :=
  [(.device, 0xFF0000000000, 0x1000), (.epoch, 0xFF0000010000, 0x10000), (.power, 0xFF0000020000, 0x1000),
   (.link, 0xFF0000080000, 0x20000), (.recovery, 0xFF00000A0000, 0x50000), (.gatehouse, 0xFF0000100000, 0x40000),
   (.memory, 0xFF0000140000, 0x1000), (.quota, 0xFF0000150000, 0x2000), (.codec, 0xFF0000160000, 0x1000),
   (.agent, 0xFF0000180000, 0x10000), (.gates, 0xFF0000200000, 0x200000), (.arrays, 0xFF0000400000, 0xC0000),
   (.sessions, 0xFF0000500000, 0x100000), (.sessionPort, sessionPortAddr, 64), (.pages, 0xFF0001000000, 0x1000000),
   (.objects, 0xFF0002000000, 0x2000000), (.corePorts, 0xFF0004000000, 0x10000)]

/-- The block of an address, and its offset there; none: the address is unmapped. -/
def blockOf (a : Nat) : Option (Block × Nat) :=
  (blockTable.find? fun e => decide (e.2.1 ≤ a) && decide (a < e.2.1 + e.2.2)).map fun e => (e.1, a - e.2.1)

/-! ## What the registers read (R19, R480) -/

/-- The 64 bits at byte `off` of a structure. -/
def wordAt (w off : Nat) : Nat := bits w (8 * off) 64

/-- Device block (Table 17-2). -/
def State.readDevice (s : State) (off : Nat) : Nat :=
  match off with
  | 0x0 => 0x4F4D3200
  | 0x8 => serial
  | 0x10 => packed [(0, 0, 1, s.gatehouse.ready.toNat), (0, 1, 1, s.gatehouse.halted.toNat), (0, 2, 1, s.recovery.oos.toNat),
      (4, 0, 32, s.gatehouse.boots)]
  | _ => 0

/-- Epoch block (Table 17-3). -/
def State.readEpoch (s : State) (off : Nat) : Nat :=
  let e := s.epoch
  if off = 8 then packed [(0, 0, 1, e.busy.isSome.toNat), (0, 1, 1, e.accepted.toNat), (0, 2, 1, e.busyRefused.toNat),
    (1, 0, 8, e.entryIndex), (2, 0, 16, e.faultCode), (4, 0, 32, e.publishCount.toNat)]
  else if off = 0x18 then packed [(0, 0, 8, e.cancelAgent), (0, 8, 2, e.cancelResult), (4, 0, 32, e.cancelCount.toNat)]
  else if 0x1000 ≤ off ∧ off < 0x1000 + 0x40 * 230 then
    let a := s.agent ((off - 0x1000) / 64)
    wordAt (slotWordOf (if (off - 0x1000) % 64 < 32 then a.running else a.pending)) (off % 32)
  else 0

/-- The link block. -/
def State.readLink (s : State) (off : Nat) : Nat :=
  if off < 0x80 * 14 then (s.port (off / 0x80)).read (off % 0x80)
  else if off = 0x800 then packed [(0, 0, 14, s.link.nodeId), (0, 14, 1, s.link.nodeValid.toNat),
    (0, 15, 1, s.link.nodeRejected.toNat)]
  else if 0x10000 ≤ off then
    let n := (off - 0x10000) / 4
    (s.route n).word + (s.route (n + 1)).word * 2 ^ 32
  else s.readSundial off

/-- Recovery block (Table 14-9). -/
def State.readRecovery (s : State) (off : Nat) : Nat :=
  let r := s.recovery
  if off < 8 * 230 then (s.agent (off / 8)).gateTimeout + (s.agent (off / 8)).progressLimit * 2 ^ 24
  else if off = 0x800 then r.linkTimeout
  else if off = 0x810 then packed [(0, 0, 4, r.limit), (0, 4, 12, r.windowS), (2, 0, 4, s.eventCount), (2, 4, 1, r.oos.toNat)]
  else if off = 0x818 then r.nextSeq.toNat
  else if off = 0x820 then packed [(0, 0, 1, r.dumpValid.toNat), (0, 1, 1, r.dumpLs.toNat), (1, 0, 8, r.skipped),
    (2, 0, 32, r.dumpKib)]
  else if 0x10000 ≤ off then
    match r.log.find? fun x => decide (x.seq.toNat % 4096 = (off - 0x10000) / 64) with
    | some x => wordAt x.word (off % 64)
    | none => 0
  else 0

/-- A byte of the mailbox's response area (R489): one that the last answer did not give is free. -/
def State.responseByte (s : State) (i : Nat) : Byte :=
  (mapFind i s.gatehouse.response).getD (BitVec.ofNat 8 (Config.freeNat s.free [0x489, i]))

/-- `GATEHOUSE_SEC_STATUS` (Table 15-6). -/
def State.secStatus (s : State) : Nat :=
  let g := s.gatehouse
  let active := ([1, 2, 3, 4].map fun t =>
    if (mapFind t s.gatehouse.booted).any (·.slotB) then 2 ^ (t - 1) else 0).foldl (· + ·) 0
  packed [(0, 0, 3, g.stage), (0, 3, 1, g.halted.toNat), (0, 4, 4, g.reason), (1, 0, 4, active), (1, 4, 4, g.fellBack),
    (2, 0, 1, g.identity.toNat), (2, 1, 1, g.debugOpen.toNat)]

/-- Gatehouse block (Tables 15-6 and 17-7). -/
def State.readGatehouse (s : State) (off : Nat) : Nat :=
  let g := s.gatehouse
  if off = 0 then s.secStatus
  else if off = 0x18 then packed [(0, 0, 1, g.cmd.isSome.toNat), (0, 1, 1, g.rejected.toNat), (1, 0, 8, g.status),
    (2, 0, 16, g.tag), (4, 0, 32, g.resultBytes)]
  else if 0x30000 ≤ off then leNat (tabulate 8 fun i => s.responseByte (off - 0x30000 + i))
  else if 0x10000 ≤ off then g.arg (off - 0x10000) 8
  else 0

/-- The registers of an agent (Table 17-4): `at_` is the offset of its status. -/
def State.readAgent (s : State) (i off at_ : Nat) : Nat :=
  if off < 0x40 then wordAt (recordWordOf (s.agent i).fault) off
  else if off = at_ then s.agentStatus i
  else 0

/-- The registers of an array (Table 17-5). -/
def State.readArray (s : State) (a off : Nat) : Nat :=
  let x := s.array a
  if off = 0x40 then x.sr
  else if off = 0x48 then x.winBase + 256 * x.winSize
  else if off = 0x50 then x.flags + x.flaggedRows * 2 ^ 32
  else if off = 0x58 then packed [(0, 0, 1, x.unseeded.toNat), (0, 1, 1, x.zeroReplaced.toNat), (0, 2, 1, x.lkLive.toNat),
    (0, 3, 1, x.tkSet.toNat), (0, 4, 4, x.lkPoly), (1, 0, 4, x.keyPoly)]
  else if 0x100 ≤ off ∧ off < 0x180 then tapsOf ((off - 0x100) / 8)
  else s.readAgent a off 0x60

/-- The core port of core `k` (Table 10-3). -/
def State.readCorePort (s : State) (k off : Nat) : Nat :=
  let c := s.core k
  match off with
  | 0x8 => c.waitGate + c.waitTimeout * 2 ^ 32
  | 0x18 => c.waitState
  | 0x28 => c.fenceDone
  | _ => 0

/-- The 8 bytes at an 8-byte aligned offset of a block. -/
def State.readBlock (s : State) (b : Block) (off : Nat) : Nat :=
  match b with
  | .device => s.readDevice off
  | .epoch => s.readEpoch off
  | .power => s.readPower off
  | .link => s.readLink off
  | .recovery => s.readRecovery off
  | .gatehouse => s.readGatehouse off
  | .memory => s.readMemory off
  | .quota => s.readQuota off
  | .codec => if off % 16 = 0 ∧ off < 0x400 then (s.ctx (off / 16)).statusWord else 0
  | .agent => if off / 0x100 < 230 then s.readAgent (off / 0x100) (off % 0x100) 0x40 else 0
  | .gates => if off < 0x100000 then (s.gate (off / 8)).value.toNat + (s.gate (off / 8)).remote.toNat * 2 ^ 32 else 0
  | .arrays => s.readArray (off / 0x1000) (off % 0x1000)
  | .sessions => wordAt (s.session (off / 64)).word (off % 64)
  | .sessionPort => 0
  | .pages => (s.page (off / 4)).word + (s.page (off / 4 + 1)).word * 2 ^ 32
  | .objects => wordAt (s.obj (off / 32)).word (off % 32)
  | .corePorts => s.readCorePort (off / 0x1000) (off % 0x1000)

/-- The 8 bytes at an 8-byte aligned address of control space; none where no block lies. -/
def State.regWord (s : State) (a : Nat) : Option Nat := (blockOf a).map fun e => s.readBlock e.1 e.2

/-- What a read changes: a read of `CORE_WAIT_STATUS` that returns 2 sets it to 0, and a read of free bytes uses up their values
(Table 10-3, log 4). -/
def State.afterRead (s : State) (a : Nat) : State :=
  match blockOf a with
  | some (.corePorts, off) => if off % 0x1000 = 0x18 then s.coreStatusRead (off / 0x1000) .none else s
  | some (.gatehouse, off) => if 0x30000 ≤ off then s.fresh else s
  | _ => s

/-! ## Writes (R19, R480) -/

/-- The state that a command without a stop leads to. -/
def stateOf (s : State) : Outcome → State
  | .next t => t
  | _ => s

/-- Power block. -/
def State.writePower (s : State) (off : Nat) (w : RegVal) : State :=
  let p := s.power
  let v := w.value.toNat
  match off with
  | 0x0 => stateOf s (execPowerProfile w s)
  | 0x8 => if w.hasLow then { s with power := { p with idleHold := w.fld 0 16 } } else s
  | 0x10 => { s with power := { p with
      peak := if w.hasLow then w.fld 16 16 else p.peak,
      powerCap := p.powerCap && !(w.hasHigh && bit v 49), sagFlag := p.sagFlag && !(w.hasHigh && bit v 50) } }
  | 0x20 => stateOf s (execMowConfig w s)
  | 0x28 => stateOf s (execMowPhase w s)
  | 0x30 => { s with power := { p with forced := p.forced && !(w.hasLow && bit v 1) } }
  | 0x48 => stateOf s (execDieTrip w s)
  | _ => s

/-- `SUNDIAL_CONFIG` (Table 12-9): without the input, no edge counts, and a master runs on its own oscillator (R395). -/
def Sundial.config (u : Sundial) (w : RegVal) : Sundial :=
  let n := w.fld 0 6
  let settle := if 4 ≤ n then n else u.settle
  if bit w.value.toNat 6 then { u with settle := settle, ppsEn := true }
  else { u with
    settle := settle, ppsEn := false, ppsValid := false, lastPps := none, ppsGood := 0,
    slew := if u.best.isNone then 0 else u.slew, slewLeft := if u.best.isNone then none else u.slewLeft }

/-- Link block. -/
def State.writeLink (s : State) (off : Nat) (w : RegVal) : State :=
  let v := w.value.toNat
  if off < 0x80 * 14 then
    let p := off / 0x80
    match off % 0x80 with
    | 0x0 => stateOf s (execLinkPortConfig p w s)
    | 0x8 => if w.hasLow then s.modPort p fun q => { q with los := q.los && !bit v 4, degraded := q.degraded && !bit v 5 } else s
    | 0x10 => s.modPort p fun q => { q with
        corrected := if w.hasLow then w.fld 0 32 else q.corrected,
        replays := if w.hasHigh then w.fld 32 16 else q.replays, discards := if w.hasHigh then w.fld 48 16 else q.discards }
    | _ => s
  else if off = 0x800 then stateOf s (execLinkNodeId w s)
  else if off = 0x808 then
    (if w.hasLow then { s with sun := { s.sun with
      stepped := s.sun.stepped && !bit v 13, lockLost := s.sun.lockLost && !bit v 14 } } else s)
  else if off = 0x818 then (if w.hasLow then { s with sun := s.sun.config w } else s)
  else if 0x10000 ≤ off then
    let n := (off - 0x10000) / 4
    let s1 := if w.hasLow then stateOf s (execRouteEntryWrite n (BitVec.ofNat 32 v) s) else s
    if w.hasHigh then stateOf s1 (execRouteEntryWrite (n + 1) (BitVec.ofNat 32 (v / 2 ^ 32)) s1) else s1
  else s

/-- `RECOVERY_AGENT_TIMERS` (R418): values out of range are ignored. -/
def Agent.setTimers (a : Agent) (w : RegVal) : Agent :=
  let v := mergeHalf (a.gateTimeout + a.progressLimit * 2 ^ 24) w
  let g := bits v 0 24
  let p := bits v 24 24
  { a with gateTimeout := if g = 0 then a.gateTimeout else g,
           progressLimit := if 100 ≤ p ∧ p ≤ 1000000 then p else a.progressLimit }

/-- Recovery block. -/
def State.writeRecovery (s : State) (off : Nat) (w : RegVal) : State :=
  let r := s.recovery
  let v := w.value.toNat
  if off < 8 * 230 then s.modAgent (off / 8) fun a => a.setTimers w
  else if !w.hasLow then s
  else if off = 0x800 then
    let t := w.fld 0 24
    { s with recovery := { r with linkTimeout := if 10 ≤ t ∧ t ≤ 100000 then t else r.linkTimeout } }
  else if off = 0x808 then s.driverReset (w.fld 12 4) (w.fld 0 10) (bit v 16) (Config.freeBool s.free)
  else if off = 0x810 then
    let n := w.fld 0 4
    let t := w.fld 4 12
    { s with recovery := { r with
        limit := if n = 0 then r.limit else n, windowS := if 1 ≤ t ∧ t ≤ 3600 then t else r.windowS } }
  else if off = 0x820 then
    let s1 := { s with recovery := { r with dumpLs := bit v 1 } }
    if bit v 0 then { s1 with recovery := { s1.recovery with dumpValid := false, dumpKib := 0, dump := [] } } else s1
  else s

/-- `GATEHOUSE_MBOX_GO` (R421, R489): ignored while a command is served or the Gatehouse restarts. -/
def State.mboxGo (s : State) (w : RegVal) : State :=
  let g := s.gatehouse
  if g.cmd.isSome || g.restarting then { s with gatehouse := { g with rejected := true } }
  else
    let c : MboxCmd := { code := w.fld 0 8, tag := w.fld 8 16, args := w.fld 24 32 }
    { s with gatehouse := { g with cmd := some c, tag := c.tag, status := 0, resultBytes := 0, response := [] } }

/-- The bytes of a write that its halves cover, at their offsets. -/
def coveredBytes (off : Nat) (w : RegVal) : List (Nat × Byte) :=
  (placed off (leBytes 8 w.value.toNat)).filter fun e =>
    if e.1 - off < 4 then w.hasLow else w.hasHigh

/-- Gatehouse block. -/
def State.writeGatehouse (s : State) (off : Nat) (w : RegVal) : State :=
  let g := s.gatehouse
  if off = 0x10 then (if w.half = .both then s.mboxGo w else s)
  else if off = 0x18 then { s with gatehouse := { g with rejected := g.rejected && !(w.hasLow && bit w.value.toNat 1) } }
  else if 0x10000 ≤ off ∧ off < 0x30000 then
    { s with gatehouse := { g with
        request := (coveredBytes (off - 0x10000) w).foldl (fun m e => mapPut e.1 e.2 m) g.request } }
  else s

/-- Memory-control block. -/
def State.writeMemory (s : State) (off : Nat) (w : RegVal) : State :=
  if off < 0x80 then
    (if off % 16 = 0 then stateOf s (execOvertempStop (off / 16) w s)
     else if w.hasLow then s.modStack (off / 16) fun x => { x with ceCount := w.fld 0 32 } else s)
  else if off = 0x100 ∧ w.hasLow then
    { s with objects := { s.objects with rejected := s.objects.rejected && !bit w.value.toNat 0 } }
  else s

/-- Quota block (R90). -/
def State.writeQuota (s : State) (off : Nat) (w : RegVal) : State :=
  if w.hasLow then
    match off % 32 with
    | 0 => s.modQuota (off / 32) fun q => { q with stackLimit := w.fld 0 25 }
    | 16 => s.modQuota (off / 32) fun q => { q with iceLimit := w.fld 0 30 }
    | _ => s
  else s

/-- Array control block (Tables 04-6, 05-4, 06-9, 09-5). -/
def ArrayState.writeReg (x : ArrayState) (off : Nat) (w : RegVal) : ArrayState :=
  let v := w.value.toNat
  match off with
  | 0x40 => if w.hasLow ∧ 4 ≤ w.fld 0 5 ∧ w.fld 0 5 ≤ 16 then { x with sr := w.fld 0 5 } else x
  | 0x48 =>
    let b := w.fld 0 7
    let n := w.fld 8 8
    if w.hasLow ∧ 16 ≤ n ∧ n ≤ 128 ∧ b + n ≤ 128 then { x with winBase := b, winSize := n } else x
  | 0x50 => { x with
      flags := if w.hasLow then (List.range 6).foldl (fun f i => if bit x.flags i ∧ !bit v i then f + 2 ^ i else f) 0 else x.flags,
      flaggedRows := if w.hasHigh then w.fld 32 32 else x.flaggedRows }
  | 0x58 => if w.hasLow then { x with unseeded := x.unseeded && !bit v 0, zeroReplaced := x.zeroReplaced && !bit v 1 } else x
  | _ => x

/-- The fields of a core port's registers that a write reaches: those at `off` that are not reserved (Table 10-3). -/
def portFields (off v : Nat) : Nat :=
  match off with
  | 0x00 => bits v 0 19 + bits v 32 30 * 2 ^ 32
  | 0x08 => bits v 0 17 + bits v 32 24 * 2 ^ 32
  | 0x10 => bits v 0 32
  | 0x20 => bits v 0 2
  | _ => 0

/-- A driver's write to a core port: the device's own effect for a core that runs its program; for any other, `CORE_WAIT` takes its
fields (R333, R478). Reserved fields are ignored, and a write that does not reach the lower half, which holds a WO register's action,
triggers none (R480; log 135). -/
def State.writeCorePort (s : State) (k off : Nat) (w : RegVal) : State :=
  let c := s.core k
  let v := portFields off (if off = 8 then mergeHalf (c.waitGate + c.waitTimeout * 2 ^ 32) w else mergeHalf 0 w)
  if s.coreRuns k then (if off = 8 ∨ w.hasLow then s.portStore k c.place off v else s)
  else if off = 8 then s.modCore k fun c => { c with waitGate := bits v 0 17, waitTimeout := bits v 32 24 }
  else s

/-- A driver's write of one or both halves at an 8-byte aligned offset of a block: the always-on domain's blocks, then the fast
domains', which are off while boot is halted. -/
def State.writeBlock (s : State) (b : Block) (off : Nat) (w : RegVal) : State :=
  match b with
  | .epoch =>
    if off = 0 then stateOf s (execEpochPublish w s)
    else if off = 8 ∧ w.hasLow ∧ bit w.value.toNat 2 then { s with epoch := { s.epoch with busyRefused := false } }
    else if off = 0x10 then stateOf s (execEpochCancel w s)
    else s
  | .power => s.writePower off w
  | .link => s.writeLink off w
  | .recovery => s.writeRecovery off w
  | .gatehouse => s.writeGatehouse off w
  | .gates =>
    if off < 0x100000 then stateOf s (execGateValue (off / 8) w s) else stateOf s (execGateSignal ((off - 0x100000) / 8) w s)
  | .memory => if s.gatehouse.halted then s else s.writeMemory off w
  | .quota => if s.gatehouse.halted then s else s.writeQuota off w
  | .agent => if off % 0x100 = 0x48 then stateOf s (execAgentFaultClear (off / 0x100) w s) else s
  | .arrays =>
    if off % 0x1000 = 0x68 then stateOf s (execAgentFaultClear (off / 0x1000) w s)
    else if s.gatehouse.halted then s else s.modArray (off / 0x1000) fun x => x.writeReg (off % 0x1000) w
  | .objects => stateOf s (execObjTableWrite (off / 32) (off % 32 / 8) w s)
  | .corePorts => if s.gatehouse.halted then s else s.writeCorePort (off / 0x1000) (off % 0x1000) w
  | .device | .codec | .sessions | .sessionPort | .pages => s

/-- The driver reaches a block (R432, R478): out of service, the Gatehouse block only. -/
def State.blockReached (s : State) (b : Block) : Bool :=
  s.driverReaches || (s.alwaysOn && s.recovery.oos && decide (b = .gatehouse)
    && (decide (4 ≤ s.gatehouse.stage) || s.gatehouse.halted))

/-- A driver's write at an address of control space. -/
def State.driverWrite (s : State) (a : Nat) (w : RegVal) : State :=
  match blockOf a with
  | some (b, off) => if s.blockReached b then s.writeBlock b off w else s
  | none => s

/-- `REGISTER_WRITE` (R19, R480). -/
def execRegisterWrite (a : Nat) (w : RegVal) (s : State) : Outcome :=
  .next (if a % 8 = 0 then s.driverWrite a w else s)

end Sys2Proof.Machine
end

