-- ==== Sys2Proof/Machine/Transactions.lean ====
section
/-! DEFINITION. Transactions as they arrive on a port (12 R374 to R381, R397, 17 R478 to R480): requests applied, forwarded or
refused, the driver's accesses to control space through a host port, and responses. -/
namespace Sys2Proof.Machine

/-! ## Control space through a transaction (R375, R380, R478 to R480) -/

/-- The address is in the mailbox: the Gatehouse block's registers and areas of Table 17-7. -/
def inMailbox (e : Block × Nat) : Bool := decide (e.1 = .gatehouse ∧ 0x10 ≤ e.2)

/-- The code with which a driver access to `size` bytes at `a` is refused; `directed`: it reaches only the link block and the mailbox
(R380). -/
def State.controlRefused (s : State) (directed write : Bool) (a units size : Nat) : Option Nat :=
  match blockOf a with
  | none => some cAddrUnmapped
  | some e =>
    let wide := decide (e.1 = .sessionPort) || (decide (e.1 = .gatehouse) && decide (0x10000 ≤ e.2 ∧ e.2 < 0x30000))
    let sized := decide (units = 1 ∧ a % size = 0) && (decide (size = 4 ∨ size = 8) || (decide (size = 64) && (!write || wide)))
    if directed && decide (e.1 ≠ .link) && !inMailbox e then some cAddrUnmapped
    else if !s.blockReached e.1 then some cDeviceOutOfService
    else if !sized then some cAddrUnmapped
    else none

/-- The write that `size` bytes at `a` make to the registers, one word at a time (R480). -/
def State.controlWrite (s : State) (a size : Nat) (data : List Byte) : State :=
  let v := leNat (data.take size)
  if size = 4 then
    (if a % 8 = 0 then s.driverWrite a { half := .low, value := BitVec.ofNat 64 v }
     else s.driverWrite (a - 4) { half := .high, value := BitVec.ofNat 64 (v * 2 ^ 32) })
  else (List.range (size / 8)).foldl (fun s i =>
    s.driverWrite (a + 8 * i) { half := .both, value := BitVec.ofNat 64 (bits v (64 * i) 64) }) s

/-- The data unit that a read of `size` bytes at `a` returns (R479). -/
def State.controlRead (s : State) (a size : Nat) : List Byte :=
  let words := (List.range 8).flatMap fun i => leBytes 8 ((s.regWord (a / 8 * 8 + 8 * i)).getD 0)
  tabulate 64 fun i => if i < size then (words.drop (a % 8)).getD i 0 else 0

/-- What the read changes. -/
def State.controlReadEffect (s : State) (a size : Nat) : State :=
  if size = 4 then (if a % 8 = 0 then s.afterRead a else s)
  else (List.range (size / 8)).foldl (fun s i => s.afterRead (a + 8 * i)) s

/-- A driver access that has arrived on port `p`: answered, or none while the session command port is full (R258). -/
def State.driverAccess (s : State) (p : Nat) (h : Hdr) (data : List Byte) : Option State :=
  let a := bits h.w1 0 48
  let size := bits h.w2 8 8
  let write := decide (h.kind = tWrite)
  match s.controlRefused h.directed write a (bits h.w2 0 7) size with
  | some c => some (s.nackTo p h c)
  | none =>
    if write then
      if a = sessionPortAddr ∧ size = 64 then
        (if s.agentsRun then (s.portWrite (leNat (data.take 64))).map fun t => t.respond p h tAck 0 []
         else some (s.nackTo p h cDeviceOutOfService))
      else some ((s.controlWrite a size data).respond p h tAck 0 [])
    else some ((s.controlReadEffect a size).respond p h tReadResp 1 ((s.controlRead a size).zipIdx.map fun e => (e.2, e.1)))

/-! ## Requests at their destination (R375, R376) -/

/-- The memories and their dies run (R432, R450). -/
def State.memoryUp (s : State) : Bool := s.inService

/-- A `WRITE` or `READ_REQ` for this module's memory: the code it is refused with, or the state after it and its answer. -/
def State.memoryTxn (s : State) (h : Hdr) (data : List Byte) : Except Nat (State × Nat × List Byte) :=
  let n := 64 * bits h.w2 0 7
  if !s.memoryUp then .error cDeviceOutOfService
  else if h.kind = tWrite then
    match s.applyWrite h.w1 h.w2 n (placed 0 (data.take n)) with
    | .error c => .error c
    | .ok t => .ok (t, 0, [])
  else
    match s.targetAccess h.w1 h.w2 n false with
    | .error c => .error c
    | .ok a =>
      let status := if (s.poisonIn a n).isSome then cMemPoison else 0
      .ok (s.fresh, bits h.w2 0 7 + status * 2 ^ 16, s.rdBytes a n)

/-- The answer's type (Table 12-5). -/
def answerKind (kind : Nat) : Nat := if kind = tReadReq then tReadResp else tAck

/-- A `WRITE` or `READ_REQ` is applied and answered, or refused. -/
def State.memoryArrives (s : State) (p : Nat) (h : Hdr) (data : List Byte) : State :=
  match s.memoryTxn h data with
  | .error c => s.nackTo p h c
  | .ok r => r.1.respond p h (answerKind h.kind) r.2.1 ((r.2.2.zipIdx).map fun e => (e.2, e.1))

/-- The transaction names a control-space address. -/
def atControl (h : Hdr) : Bool := decide (bits h.w2 40 24 = 0) && decide (regionOf (bits h.w1 0 48) = .control)

/-- A `WRITE` or `READ_REQ` for this module's memory is answered; none while a channel holds it (R414, R426). -/
def State.memoryAccess (s : State) (p : Nat) (h : Hdr) (data : List Byte) : Option State :=
  let n := 64 * bits h.w2 0 7
  match s.targetAccess h.w1 h.w2 n (decide (h.kind = tWrite)) with
  | .ok a => if s.memoryUp && s.heldIn a n then none else some (s.memoryArrives p h data)
  | .error _ => some (s.memoryArrives p h data)

/-- An access of the driver through a host port or of a directed transaction to control space, or one to memory. -/
def State.access (s : State) (p : Nat) (h : Hdr) (data : List Byte) : Option State :=
  if atControl h && (h.directed || decide (12 ≤ p)) then s.driverAccess p h data else s.memoryAccess p h data

/-- An access that has arrived waits behind a write that waits on its host port, whatever both address; on a peer port, a directed
access to control space behind another (R480). -/
def State.behind (s : State) (p : Nat) (h : Hdr) : Bool :=
  s.sessions.waiting.any fun e => decide (e.port = p) && decide (e.hdr.kind = tWrite)
    && (decide (12 ≤ p) || (atControl h && atControl e.hdr))

/-- An access that has arrived is served, or waits. -/
def State.attempt (s : State) (p : Nat) (h : Hdr) (data : List Byte) : State :=
  let hold : State := { s with sessions := { s.sessions with
    waiting := s.sessions.waiting ++ [{ port := p, hdr := h, data := data }] } }
  if s.behind p h then hold else (s.access p h data).getD hold

/-- The accesses that waited are tried again in their order, each port's in turn. -/
def State.releaseHeld (s : State) : State :=
  s.sessions.waiting.foldl (fun s e => s.attempt e.port e.hdr e.data) { s with sessions := { s.sessions with waiting := [] } }

/-- A remote signal is applied or denied, and answered (R46, R47). -/
def State.signalArrives (s : State) (p : Nat) (h : Hdr) : State :=
  let g := bits h.w1 0 17
  let inc := bits h.w2 0 16
  if inc = 0 then s.nackTo p h cGateOperand
  else match s.applyRemoteSignal g inc with
    | .ok t => t.respond p h tAck 0 []
    | .error c => (s.logDenied (srcPort p) g inc h.src).nackTo p h c

/-- An `EXPORT` is discarded and counted (R397). -/
def State.exportArrives (s : State) (p : Nat) : State := s.modPort p fun q => { q with discards := satCount 16 q.discards 1 }

/-- A request that this module is the destination of. -/
def State.arrives (s : State) (p : Nat) (h : Hdr) (data : List Byte) : State :=
  if h.kind = tGsig then s.signalArrives p h
  else if h.kind = tExport then s.exportArrives p
  else s.attempt p h data

/-! ## Paths and routes (R379, R380, R386) -/

/-- The length of a directed transaction's path, and its next port. -/
def pathLength (h : Hdr) : Nat := bits h.w3 60 4
def pathPort (h : Hdr) : Nat := bits h.w3 (4 * (31 - h.hops)) 4

/-- What tells a directed request from the others that a port carries, and its response, which goes to its source (R374, R380): the tag,
the path, the requester and the host port. -/
def pathKey (h : Hdr) (requester : Nat) : List Nat := [h.tag, h.w3, requester, h.host.toNat, h.hostPort.toNat]

/-- A directed request reaches its destination, or goes on by the next port of its path, which remembers where it came from. -/
def State.directedArrives (s : State) (p : Nat) (h : Hdr) (data : List Byte) : State :=
  let refuse (c : Nat) : State := if isRequest h.kind then s.nackTo p h c else s
  if h.hops + pathLength h ≤ 31 then
    (if h.kind = tExport then s.exportArrives p
     else if decide (h.kind = tGsig) || !atControl h then s.nackTo p h cAddrUnmapped
     else s.attempt p h data)
  else if s.recovery.oos then refuse cDeviceOutOfService
  else
    let q := pathPort h
    if 14 ≤ q then refuse cRouteNone
    else if !s.linked q then refuse cLinkLost
    else (s.modPort q fun x => { x with ingress := x.ingress ++ [(pathKey h h.src, p)] }).send q
      { hdr := { h with hops := h.hops - 1 }, data := placed 0 data, flow := 0x200 + p }

/-- A request in transit (R379): one that has no hops left, or no usable route, is refused; an `EXPORT` has no answer. -/
def State.forward (s : State) (p : Nat) (h : Hdr) (data : List Byte) : State :=
  let refuse (c : Nat) : State := if isRequest h.kind then s.nackTo p h c else s
  if h.hops = 0 then refuse cRouteTtl
  else match s.routePort h.dst with
    | .error c => refuse c
    | .ok q => s.send q { hdr := { h with hops := h.hops - 1 }, data := placed 0 data, flow := 0x200 + p }

/-- This device out of service refuses every request but a host port's access to its own Gatehouse block and a directed one to the
mailbox: it forwards nothing (R386, R432, R478). -/
def State.serviceRefuses (s : State) (p : Nat) (h : Hdr) : Bool :=
  s.recovery.oos && !(decide (h.kind ≠ tGsig) && (blockOf (bits h.w1 0 48)).any fun e =>
    if h.directed then inMailbox e
    else decide (12 ≤ p ∧ e.1 = .gatehouse) && !(s.link.nodeValid && decide (h.dst ≠ s.link.nodeId)))

/-- A request arrives on port `p`. -/
def State.request (s : State) (p : Nat) (h : Hdr) (data : List Byte) : State :=
  if s.serviceRefuses p h then (if isRequest h.kind then s.nackTo p h cDeviceOutOfService else s)
  else if h.directed then s.directedArrives p h data
  else if !s.link.nodeValid then (if isRequest h.kind then s.nackTo p h cRouteNone else s)
  else if h.dst ≠ s.link.nodeId then s.forward p h data
  else s.arrives p h data

/-- The command's header has the type of its row. -/
def asKind (kind : Nat) (h : Hdr) : Hdr := { h with kind := kind }

/-- A port that carries transactions: one that re-equalises carries none (R385, R414). -/
def State.receives (s : State) (p : Nat) : Bool := decide (p < 14) && s.linked p && !(s.port p).equalising

/-- `WRITE` (R376). -/
def execWrite (p : Nat) (h : Hdr) (data : List Byte) (s : State) : Outcome :=
  if s.receives p then .next (s.request p (asKind tWrite h) data) else .next s
/-- `READ_REQ` (R376). -/
def execReadReq (p : Nat) (h : Hdr) (s : State) : Outcome :=
  if s.receives p then .next (s.request p (asKind tReadReq h) []) else .next s
/-- `GSIG` as a transaction (R47). -/
def execGsigTransaction (p : Nat) (h : Hdr) (s : State) : Outcome :=
  if s.receives p then .next (s.request p (asKind tGsig h) []) else .next s
/-- `EXPORT` (R397). -/
def execExportTxn (p : Nat) (h : Hdr) (data : List Byte) (s : State) : Outcome :=
  if s.receives p then .next (s.request p (asKind tExport h) data) else .next s

/-! ## Responses (R376, R377, R379, R380) -/

/-- A directed response goes back by the port its request came from. -/
def State.retrace (s : State) (p : Nat) (t : Txn) : State :=
  match (s.port p).ingress.find? fun e => decide (e.1 = pathKey t.hdr t.hdr.dst) with
  | none => s
  | some e =>
    let s1 := s.modPort p fun x => { x with ingress := x.ingress.erase e }
    if s1.linked e.2 then s1.send e.2 { t with hdr := { t.hdr with hops := t.hdr.hops - 1 } } else s1

/-- A response that finds no usable port is discarded. -/
def State.relay (s : State) (q : Nat) (t : Txn) : State := if s.linked q then s.send q t else s

/-- A response arrives: it goes on toward its requester, leaves for a host adapter, or ends this module's own transaction with
`code`. -/
def State.response (s : State) (p : Nat) (h : Hdr) (data : List Byte) (code : Option Nat) : State :=
  let t : Txn := { hdr := h, data := placed 0 data, flow := 0x200 + p }
  if s.recovery.oos then s
  else if h.directed then s.retrace p t
  else if !s.link.nodeValid || decide (h.dst ≠ s.link.nodeId) then
    (if h.hops = 0 then s
     else match s.routePort h.dst with
      | .error _ => s
      | .ok q => s.relay q { t with hdr := { h with hops := h.hops - 1 } })
  else if h.host then s.relay (12 + h.hostPort.toNat) t
  else if (mapFind h.tag s.link.pending).isSome then s.endTxn h.tag code else s.lateResponse h.tag

/-- The status of a `READ_RESP`. -/
def respStatus (h : Hdr) : Option Nat := if bits h.w2 16 16 = 0 then none else some (bits h.w2 16 16)

/-- `READ_RESP` (R376). -/
def execReadResp (p : Nat) (h : Hdr) (data : List Byte) (s : State) : Outcome :=
  if s.receives p then .next (s.response p (asKind tReadResp h) data (respStatus h)) else .next s
/-- `ACK` (R376). -/
def execAck (p : Nat) (h : Hdr) (s : State) : Outcome :=
  if s.receives p then .next (s.response p (asKind tAck h) [] none) else .next s
/-- `NACK` (R376). -/
def execNack (p : Nat) (h : Hdr) (s : State) : Outcome :=
  if s.receives p then .next (s.response p (asKind tNack h) [] (some (bits h.w2 0 16))) else .next s

end Sys2Proof.Machine
end

