-- ==== Sys2Proof/Machine/Holds.lean ====
section
/-! DEFINITION. What ends the hold of a channel: the end of a mowing window, and the end of a retrain (13 R414, 14 R422, R426, R427). -/
namespace Sys2Proof.Machine

/-- `MOW_WINDOW_END` (R414): channels and ports go on, and the accesses that the channels held perform. -/
def execMowWindowEnd (now : Word64) (s : State) : Outcome :=
  match s.at? now with
  | none => .next s
  | some s1 =>
    if s.power.inWindow && decide (s.power.windowEnd.toNat ≤ now.toNat) then
      .next (State.releaseHeld { s1 with
        power := { s1.power with inWindow := false, calibrating := [] },
        link := { s1.link with ports := mapAll (fun q => { q with equalising := false }) s1.link.ports } })
    else .next s

/-- `RESET_COMPLETE` (R422): a domain's reset finishes; `ok` is false where a channel does not train. Images are reloaded only when
their digests have not changed (R449). -/
def execResetComplete (domain target : Nat) (ok : Bool) (s : State) : Outcome :=
  let r : ResetRun := { domain := domain, target := target }
  if s.alwaysOn && !s.recovery.dumping.isSome && s.recovery.resets.contains r then
    let s1 := { s with recovery := { s.recovery with resets := s.recovery.resets.filter fun x => decide (x ≠ r) } }
    if domain ≤ 3 then .next (s1.agentResumes target)
    else if domain = 4 then
      .next (if s1.imageChanged [4] then s1.haltBoot 4 else (List.range 16).foldl (fun s k => s.agentResumes (192 + k)) s1)
    else if domain = 6 then .next (s1.retrained target ok).releaseHeld
    else if domain = 7 then
      .next (if s1.imageChanged [2, 3, 4] then s1.haltBoot 4 else if ok then s1 else s1.enterOos)
    else .next s1
  else .next s

end Sys2Proof.Machine
end

