-- ==== Sys2Proof/Machine/PinsOps.lean ====
section
/-! DEFINITION. Connectors and sideband (16 R457 to R472): power-up to power-good, boot, loss of a rail or of the mating, the reset
input, and the SMBus target. -/
namespace Sys2Proof.Machine

/-! ## Power-up (R462, R468 to R470) -/

/-- The phase of the power-up. -/
def State.setPhase (s : State) (x : PowerPhase) : State := { s with pins := { s.pins with phase := x } }

/-- `POWER_UP` (R462, R468): instant A, with `MATE_N` low, the input between 40 V and 60 V and `RESET_N` high. -/
def execPowerUp (sc mv : Nat) (s : State) : Outcome :=
  if s.pins.phase = .off ∧ s.pins.resetLow = false ∧ 40000 ≤ mv ∧ mv ≤ 60000 then
    .next { s with
      pins := { s.pins with phase := .slotDelay, slotCode := sc, mated := true },
      power := { s.power with inputMv := mv } }
  else .next s

/-- `SOFT_START` (R468). -/
def execSoftStart (s : State) : Outcome :=
  if s.pins.phase = .slotDelay then .next (s.setPhase .softStart) else .next s

/-- `POWER_GOOD` (R468, R471, Table 17-2): the always-on domain starts with its counter at 0, and the power-up is counted. -/
def execPowerGood (s : State) : Outcome :=
  if s.pins.phase = .softStart then
    .next (State.railsUpTo { s with
      pins := { s.pins with phase := .on, pgood := true }, sundial := 0,
      gatehouse := { s.gatehouse with boots := s.gatehouse.boots + 1 } } 0)
  else .next s

/-- `BOOT_READY` (R448, R450). -/
def execBootReady (f : BootFinding) (s : State) : Outcome :=
  if s.alwaysOn && decide (s.gatehouse.stage = 0) && !s.gatehouse.halted then .next (s.boot f) else .next s

/-- Group `g` of rails may fail: `VIN`, `VAON` and `VFLASH` count as group 0; of the others one is up, or boot is still to enable it. -/
def State.railsAtRisk (s : State) (g : Nat) : Bool :=
  decide (g = 0) || s.pins.rails.any (fun r => decide (r.group = g))
    || (decide (s.gatehouse.stage = 0) && !s.gatehouse.halted)

/-- `RAIL_GROUP_TIMEOUT` (R470): a rail of the group is not in regulation in time, or exceeds its maximum current. -/
def execRailGroupTimeout (group : Nat) (s : State) : Outcome :=
  if s.alwaysOn && s.railsAtRisk group then .next (s.powerFail cInputPowerFail group .failed) else .next s

/-! ## Mating and the reset input (R466, R468, R471, R472) -/

/-- `MATE_N_BREAK` (R468, R472). -/
def execMateNBreak (s : State) : Outcome :=
  let s1 := { s with pins := { s.pins with mated := false } }
  match s.pins.phase with
  | .on => .next (s1.powerFail cInputPowerFail 0 .off)
  | .slotDelay | .softStart => .next (s1.setPhase .off)
  | .off | .failed => .next s1

/-- `RESET_N` (R466, R468, R470): the filter has counted `low` low samples of 40 ns in a row; 0 says that the pin is high again. Once
powered, 200 of them start a cold reset of cause 2; before power-good, and after a rail failure, any low level counts. -/
def execResetN (low : Nat) (s : State) : Outcome :=
  let s1 := { s with pins := { s.pins with resetLow := decide (0 < low) } }
  match s.pins.phase with
  | .on => .next (if 200 ≤ low then s1.powerOff .off 2 else s1)
  | .off => .next s1
  | .slotDelay | .softStart | .failed => .next (if 0 < low then s1.setPhase .off else s1)

/-! ## The test access port (R461, R465) -/

/-- One `TCK` cycle of the controller of IEEE 1149.1 with this level of `TMS`. -/
def TapState.next (tms : Bool) : TapState → TapState
  | .testLogicReset => if tms then .testLogicReset else .runTestIdle
  | .runTestIdle | .updateDr | .updateIr => if tms then .selectDr else .runTestIdle
  | .selectDr => if tms then .selectIr else .captureDr
  | .captureDr | .shiftDr => if tms then .exit1Dr else .shiftDr
  | .exit1Dr => if tms then .updateDr else .pauseDr
  | .pauseDr => if tms then .exit2Dr else .pauseDr
  | .exit2Dr => if tms then .updateDr else .shiftDr
  | .selectIr => if tms then .testLogicReset else .captureIr
  | .captureIr | .shiftIr => if tms then .exit1Ir else .shiftIr
  | .exit1Ir => if tms then .updateIr else .pauseIr
  | .pauseIr => if tms then .exit2Ir else .pauseIr
  | .exit2Ir => if tms then .updateIr else .shiftIr

/-- `TDO` is driven; in every other state it is high-impedance (Table 16-4). -/
def State.tdoDriven (s : State) : Bool := s.alwaysOn && decide (s.pins.tap = .shiftDr ∨ s.pins.tap = .shiftIr)

/-- Access beyond boundary scan is open (R455, R465). -/
def State.debugAccess (s : State) : Bool := s.alwaysOn && s.gatehouse.debugOpen

/-- `JTAG_RESET` (R465): five `TCK` cycles with `TMS` high, or `TRST_N` low, reset the test logic, and nothing else. -/
def execJtagReset (s : State) : Outcome :=
  if s.alwaysOn then .next { s with pins := { s.pins with
    tap := TapState.next true (TapState.next true (TapState.next true (TapState.next true (TapState.next true s.pins.tap)))) } }
  else .next s

/-! ## SMBus (R463, R464) -/

/-- `FAULT_N` is low: boot is halted or the module is out of service, while its supplies are good (Table 16-4). -/
def State.faultPin (s : State) : Bool := s.alwaysOn && (s.gatehouse.halted || s.recovery.oos)

/-- `SMB_ALERT_N` is asserted (R464), while the module's supplies are good (R461). -/
def State.alerting (s : State) : Bool :=
  s.alwaysOn && ((List.range 8).any (fun d => decide (100 ≤ s.dieTemp d)) || (List.range 8).any (fun k => decide (2 ≤ (s.stack k).step))
    || s.gatehouse.halted || s.recovery.oos)

/-- One byte of the packet error code: CRC-8 with x^8 + x^2 + x + 1 (log 31). -/
def pecByte (crc b : Nat) : Nat :=
  (List.range 8).foldl (fun c _ => if 128 ≤ c then Nat.xor (2 * c % 256) 7 else 2 * c) (Nat.xor crc b)

/-- The packet error code of the bytes on the bus. -/
def pec (l : List Nat) : Nat := l.foldl pecByte 0

/-- The 7-bit address 0x6A in a write and in a read. -/
def smbWrite : Nat := 0xD4
def smbRead : Nat := 0xD5

/-- The module answers a read command with these bytes, PEC last; before stage 3 is complete it answers only some (R463). -/
def State.smbAnswer (s : State) (code : Nat) (early : Bool) (l : List Nat) : State :=
  let bytes := l ++ [pec ([smbWrite, code, smbRead] ++ l)]
  { s with pins := { s.pins with
      smbReply := if s.alwaysOn && (early || decide (3 ≤ s.gatehouse.stage)) then some (bytes.map (BitVec.ofNat 8)) else none } }

/-- `STATUS` (Table 16-6). -/
def State.smbStatus (s : State) : Nat :=
  s.pins.pgood.toNat + 2 * s.gatehouse.stage + 16 * s.gatehouse.halted.toNat + 32 * s.recovery.oos.toNat
    + 64 * s.power.capHold.toNat + 128 * s.alerting.toNat

/-- `STATUS` (Table 16-5). -/
def execStatus (s : State) : Outcome := .next (s.smbAnswer 1 true [s.smbStatus])
/-- `INPUT_MV`. -/
def execInputMv (s : State) : Outcome := .next (s.smbAnswer 2 false [s.power.inputMv % 256, s.power.inputMv / 256 % 256])
/-- `INPUT_W`. -/
def execInputW (s : State) : Outcome := .next (s.smbAnswer 3 false [s.power.inputW % 256, s.power.inputW / 256 % 256])
/-- `DIE_TEMP_MAX`: of the seventeen dies. -/
def execDieTempMax (s : State) : Outcome := .next (s.smbAnswer 4 false [((List.range 17).map s.dieTemp).foldl max 0])
/-- `STACK_TEMP_MAX`: of the eight stacks. -/
def execStackTempMax (s : State) : Outcome :=
  .next (s.smbAnswer 5 false [((List.range 8).map fun k => (s.stack k).temp).foldl max 0])
/-- `SLOT`. -/
def execSlot (s : State) : Outcome := .next (s.smbAnswer 6 false [s.pins.slotCode])
/-- `SERIAL`: a block read of 8 bytes. -/
def execSerial (s : State) : Outcome := .next (s.smbAnswer 7 true (8 :: (leBytes 8 serial).map (·.toNat)))

/-- `SMB_ALERT_RESPONSE` (R464): the module answers with its address while it asserts `SMB_ALERT_N`, which goes on. -/
def execSmbAlertResponse (s : State) : Outcome :=
  .next { s with pins := { s.pins with
    smbReply := if s.alwaysOn && s.alerting then some ([smbWrite, pec [0x19, smbWrite]].map (BitVec.ofNat 8)) else none } }

end Sys2Proof.Machine
end

