-- ==== Sys2Proof/Machine/Sessions.lean ====
section
/-! DEFINITION. Session commands (07 R253 to R263): the command at the head of the session command port is checked, applied and
reported. -/
namespace Sys2Proof.Machine

/-- Outcome codes (R260). -/
def seDone : Nat := 0x01
def seSealed : Nat := 0x10
def sePinned : Nat := 0x11
def seStale : Nat := 0x12
def seUnmapped : Nat := 0x13
def seRange : Nat := 0x14
def seFormat : Nat := 0x15

/-- Entries of the page map (R255). -/
def pageEntries : Nat := 4194304

/-- Reserved fields of a session command: byte offset, bit, width (Tables 07-3, 07-4). -/
def seReserved (cmd : Nat) : List (Nat × Nat × Nat) :=
  [(1, 1, 7), (2, 14, 2), (4, 8, 24), (8, 48, 16), (0x10, 17, 15), (0x14, 16, 16)] ++
  (if cmd = 1 then [(0x18, 22, 10), (0x1C, 23, 9), (0x24, 24, 8), (0x28, 24, 8), (0x2C, 28, 4), (0x30, 48, 16), (0x38, 0, 64)]
  else if cmd = 2 then [(0x18, 8, 24), (0x1C, 23, 9), (0x20, 23, 9), (0x24, 22, 10), (0x28, 1, 31), (0x2C, 0, 160)]
  else if cmd = 5 then [(0x18, 0, 320)]
  else [(0x1C, 0, 288)])

/-- The record that an `OPEN` writes over `r` (R256, Table 07-5). -/
def openRecord (w : Nat) (r : Session) : Session :=
  let latent := half16 w 0x2C
  let rope := fieldAt w 0x2C 16 8
  let fmt := fieldAt w 0x2C 24 4
  let slot := roundUp (latent * (if fmt = 1 then 1 else 2) + 2 * rope) 64
  { valid := true, gen := (r.gen + 1) % 256, pins := 0, pmBase := fieldAt w 0x18 0 22, pagesPerLayer := fieldAt w 0x1C 0 23,
    layers := fieldAt w 0x20 0 8, sink := fieldAt w 0x20 8 8, window := half16 w 0x22, len := 0, sealLen := 0,
    cache := fieldAt w 0x24 0 24, belv := fieldAt w 0x28 0 24, belvOff := fieldAt w 0x30 0 48, latent := latent, rope := rope,
    fmt := fmt, slotBytes := slot, pageBytes := 64 * slot }

/-- An argument of `OPEN` lies outside Table 07-1. -/
def sessionOpenBad (n : Session) : Bool :=
  decide (n.pagesPerLayer = 0 ∨ pageEntries < n.pagesPerLayer ∨ n.layers = 0 ∨ n.latent < 64 ∨ 1024 < n.latent ∨
    n.latent % 64 ≠ 0 ∨ 128 < n.rope ∨ n.rope % 16 ≠ 0 ∨ ¬(n.fmt = 1 ∨ n.fmt = 6 ∨ n.fmt = 7) ∨ n.cache = 0)

/-- One past the last page-map entry of a session. -/
def Session.pmEnd (r : Session) : Nat := r.pmBase + r.layers * r.pagesPerLayer

/-- The range of `n` overlaps that of an open session. -/
def State.rangeTaken (s : State) (n : Session) : Bool :=
  s.sessions.recs.any fun e => e.2.valid && decide (e.2.pmBase < n.pmEnd) && decide (n.pmBase < e.2.pmEnd)

/-- R261 on the pages of a `MAP`: the first page that fails gives the outcome. -/
def mapJudge (r : Session) (first count : Nat) : Option Nat :=
  if r.pins = 0 then none
  else ((List.range count).map (first + ·)).findSome? fun j =>
    if r.len ≤ 64 * j then none else if 64 * j < r.sealLen then some seSealed else some sePinned

/-- Every page below `n` is mapped in every layer. -/
def State.allMapped (s : State) (r : Session) (n : Nat) : Bool :=
  (List.range r.layers).all fun l => (List.range n).all fun j => (s.page (r.pmBase + l * r.pagesPerLayer + j)).valid

/-- The checks of a command in the order of Table 07-5. -/
def State.sessionCheck (s : State) (w : Nat) : Nat :=
  let cmd := w % 256
  let r := s.session (fieldAt w 2 0 14)
  if cmd = 0 ∨ 5 < cmd ∨ (firstOf w (seReserved cmd)).isSome then seFormat
  else if cmd = 1 then
    let n := openRecord w r
    if r.valid ∨ sessionOpenBad n then seFormat
    else if pageEntries < n.pmEnd ∨ s.rangeTaken n then seRange
    else seDone
  else if r.valid = false then seFormat
  else if r.gen ≠ fieldAt w 4 0 8 then seStale
  else if cmd = 2 then
    let first := fieldAt w 0x1C 0 23
    let count := fieldAt w 0x20 0 23
    if r.layers ≤ fieldAt w 0x18 0 8 ∨ r.pagesPerLayer < first + count then seRange
    else (mapJudge r first count).getD seDone
  else
    let len := fieldAt w 0x18 0 32
    if cmd = 3 then
      if len < r.len ∨ 64 * r.pagesPerLayer < len then seRange
      else if s.allMapped r (ceilDiv len 64) then seDone else seUnmapped
    else if cmd = 4 then
      if r.len < len then seRange else if 0 < r.pins then sePinned else seDone
    else if 0 < r.pins then sePinned else seDone
where
  /-- The first non-zero field of a list. -/
  firstOf (w : Nat) (l : List (Nat × Nat × Nat)) : Option Nat :=
    (l.find? fun e => decide (fieldAt w e.1 e.2.1 e.2.2 ≠ 0)).map (·.1)

/-- The frame that a `MAP` gives its page `i`; one past the field's 22 bits is free (log 4). -/
def State.mapFrame (s : State) (first i : Nat) : Nat :=
  if first + i < 2 ^ 22 then first + i else Config.freeNat s.free [0x255, i] % 2 ^ 22

/-- The page map after a `MAP` (Table 07-5). -/
def State.mapPages (s : State) (r : Session) (w : Nat) : List (Nat × PageEntry) :=
  let base := r.pmBase + fieldAt w 0x18 0 8 * r.pagesPerLayer + fieldAt w 0x1C 0 23
  (List.range (fieldAt w 0x20 0 23)).foldl (fun pages i =>
    mapMod (fun _ => {}) (base + i) (fun e =>
      if bit (fieldAt w 0x28 0 1) 0 then { e with valid := false }
      else { frame := s.mapFrame (fieldAt w 0x24 0 22) i, valid := true }) pages) s.sessions.pages

/-- The effect of an accepted `OPEN`. -/
def State.sessionOpened (s : State) (w : Nat) : State :=
  let i := fieldAt w 2 0 14
  let n := openRecord w (s.session i)
  let clear (e : Nat × PageEntry) : Nat × PageEntry :=
    if n.pmBase ≤ e.1 ∧ e.1 < n.pmEnd then (e.1, { e.2 with valid := false }) else e
  let s1 := s.modSession i fun _ => n
  { s1 with sessions := { s1.sessions with pages := s1.sessions.pages.map clear } }

/-- The effect of an accepted `MAP`. -/
def State.sessionMapped (s : State) (w : Nat) : State :=
  { s.fresh with sessions := { s.sessions with pages := s.mapPages (s.session (fieldAt w 2 0 14)) w } }

/-- The effect of an accepted `COMMIT` or `TRUNCATE`. -/
def State.sessionLength (s : State) (w : Nat) : State :=
  s.modSession (fieldAt w 2 0 14) fun r => { r with len := fieldAt w 0x18 0 32 }

/-- The effect of an accepted `CLOSE`. -/
def State.sessionClosed (s : State) (w : Nat) : State := s.modSession (fieldAt w 2 0 14) fun r => { r with valid := false }

/-- The outcome record, then the signal (R259). A record whose address is no writable stack address is not written. -/
def State.sessionReport (s : State) (w outcome : Nat) : State :=
  let i := fieldAt w 2 0 14
  let r := s.session i
  let status := fieldAt w 8 0 48
  let tail := if w % 256 = 1 then r.gen else r.len
  let s1 := if status = 0 ∨ stackTop < status + 8 ∨ (s.checkBlocks 0 status 8 true).isSome then s
    else s.wrNat status 8 (outcome + i * 256 + tail * 2 ^ 32)
  if modBit w 0 then s1.signalGate (fieldAt w 0x10 0 17) (half16 w 0x14) else s1

/-- The head of the port leaves it, and the host transactions and the cores' stores that waited go on (R258, R334). -/
def State.popPort (s : State) : State :=
  ({ s with sessions := { s.sessions with port := s.sessions.port.drop 1 } }).releaseHeld.releaseStores

/-- The command at the head of the port completes: one of code `cmd`, or one whose code Table 07-3 does not list. -/
def State.sessionRun (s : State) (cmd : Nat) (act : Nat → State → State) : Outcome :=
  match s.sessions.port with
  | [] => .next s
  | w :: _ =>
    let code := w % 256
    let status := fieldAt w 8 0 48
    if s.agentsRun && (decide (code = cmd) || decide (code = 0 ∨ 5 < code)) && !s.heldIn status (if status = 0 then 0 else 8) then
      let outcome := s.sessionCheck w
      let s1 := if outcome = seDone then act w s else s
      .next ((s1.sessionReport w outcome).popPort)
    else .next s

/-- `SESSION_OPEN` (R260). -/
def execSessionOpen (s : State) : Outcome := s.sessionRun 1 fun w s => s.sessionOpened w
/-- `MAP` (R260, R261). -/
def execMap (s : State) : Outcome := s.sessionRun 2 fun w s => s.sessionMapped w
/-- `COMMIT` (R260). -/
def execCommit (s : State) : Outcome := s.sessionRun 3 fun w s => s.sessionLength w
/-- `TRUNCATE` (R260). -/
def execTruncate (s : State) : Outcome := s.sessionRun 4 fun w s => s.sessionLength w
/-- `SESSION_CLOSE` (R260). -/
def execSessionClose (s : State) : Outcome := s.sessionRun 5 fun w s => s.sessionClosed w

end Sys2Proof.Machine
end

