-- ==== Sys2Proof/Machine/Dispatch.lean ====
section
/-! DEFINITION. One arm for each command: its meaning. -/
namespace Sys2Proof.Machine

/-- The effect of a command on everything but the queue. -/
def exec (i : Instr) (s : State) : Host.Outcome State Fault Refusal :=
  match i with
  | .epochPublish w => Sys2Proof.Machine.execEpochPublish w s
  | .epochValidationEnd => Sys2Proof.Machine.execEpochValidationEnd s
  | .epochCancel w => Sys2Proof.Machine.execEpochCancel w s
  | .scheduledWake agent now => Sys2Proof.Machine.execScheduledWake agent now s
  | .wakeComplete agent now => Sys2Proof.Machine.execWakeComplete agent now s
  | .agentStart agent now => Sys2Proof.Machine.execAgentStart agent now s
  | .startLate agent now => Sys2Proof.Machine.execStartLate agent now s
  | .doneGateSignal agent => Sys2Proof.Machine.execDoneGateSignal agent s
  | .signalApply agent k => Sys2Proof.Machine.execSignalApply agent k s
  | .gateTimeout agent now => Sys2Proof.Machine.execGateTimeout agent now s
  | .boundaryFault agent => Sys2Proof.Machine.execBoundaryFault agent s
  | .fenceComplete agent => Sys2Proof.Machine.execFenceComplete agent s
  | .gateValue gate w => Sys2Proof.Machine.execGateValue gate w s
  | .gateSignal gate w => Sys2Proof.Machine.execGateSignal gate w s
  | .nop a => Sys2Proof.Machine.execNop a s
  | .halt a => Sys2Proof.Machine.execHalt a s
  | .fence a => Sys2Proof.Machine.execFence a s
  | .wake a => Sys2Proof.Machine.execWake a s
  | .gsig a => Sys2Proof.Machine.execGsig a s
  | .gwait a => Sys2Proof.Machine.execGwait a s
  | .tload a => Sys2Proof.Machine.execTload a s
  | .tableSwap a table => Sys2Proof.Machine.execTableSwap a table s
  | .dload a => Sys2Proof.Machine.execDload a s
  | .ctxsave a => Sys2Proof.Machine.execCtxsave a s
  | .ctxload a => Sys2Proof.Machine.execCtxload a s
  | .trdry a => Sys2Proof.Machine.execTrdry a s
  | .mm a => Sys2Proof.Machine.execMm a s
  | .mmc a => Sys2Proof.Machine.execMmc a s
  | .mmx a => Sys2Proof.Machine.execMmx a s
  | .conv a => Sys2Proof.Machine.execConv a s
  | .convf a => Sys2Proof.Machine.execConvf a s
  | .attn a => Sys2Proof.Machine.execAttn a s
  | .attnb a => Sys2Proof.Machine.execAttnb a s
  | .pscore a => Sys2Proof.Machine.execPscore a s
  | .kvexp a => Sys2Proof.Machine.execKvexp a s
  | .vec a => Sys2Proof.Machine.execVec a s
  | .row a => Sys2Proof.Machine.execRow a s
  | .sfn a => Sys2Proof.Machine.execSfn a s
  | .sort a => Sys2Proof.Machine.execSort a s
  | .rng a => Sys2Proof.Machine.execRng a s
  | .pool a => Sys2Proof.Machine.execPool a s
  | .resize a => Sys2Proof.Machine.execResize a s
  | .copy a => Sys2Proof.Machine.execCopy a s
  | .trellisRowComplete a unit => Sys2Proof.Machine.execTrellisRowComplete a unit s
  | .insnComplete a k => Sys2Proof.Machine.execInsnComplete a k s
  | .moverCopy m => Sys2Proof.Machine.execMoverCopy m s
  | .promote m => Sys2Proof.Machine.execPromote m s
  | .evict m => Sys2Proof.Machine.execEvict m s
  | .alloc m => Sys2Proof.Machine.execAlloc m s
  | .xserve m => Sys2Proof.Machine.execXserve m s
  | .moverGsig m => Sys2Proof.Machine.execMoverGsig m s
  | .moverGwait m => Sys2Proof.Machine.execMoverGwait m s
  | .moverFence m => Sys2Proof.Machine.execMoverFence m s
  | .moverEnd m => Sys2Proof.Machine.execMoverEnd m s
  | .moverCopyComplete m => Sys2Proof.Machine.execMoverCopyComplete m s
  | .promotionCopyDone m => Sys2Proof.Machine.execPromotionCopyDone m s
  | .xserveTimeout m now => Sys2Proof.Machine.execXserveTimeout m now s
  | .exportFrame m => Sys2Proof.Machine.execExportFrame m s
  | .sessionOpen => Sys2Proof.Machine.execSessionOpen s
  | .map => Sys2Proof.Machine.execMap s
  | .commit => Sys2Proof.Machine.execCommit s
  | .truncate => Sys2Proof.Machine.execTruncate s
  | .sessionClose => Sys2Proof.Machine.execSessionClose s
  | .coreAccess core op addr => Sys2Proof.Machine.execCoreAccess core op addr s
  | .cboClean core addr => Sys2Proof.Machine.execCboClean core addr s
  | .cboFlush core addr => Sys2Proof.Machine.execCboFlush core addr s
  | .cboInval core addr => Sys2Proof.Machine.execCboInval core addr s
  | .cacheWriteback core addr => Sys2Proof.Machine.execCacheWriteback core addr s
  | .coreGsig core value => Sys2Proof.Machine.execCoreGsig core value s
  | .coreWaitTarget core value => Sys2Proof.Machine.execCoreWaitTarget core value s
  | .coreWaitStatus core rd => Sys2Proof.Machine.execCoreWaitStatus core rd s
  | .coreFence core value => Sys2Proof.Machine.execCoreFence core value s
  | .coreFenceDone core rd => Sys2Proof.Machine.execCoreFenceDone core rd s
  | .coreEcall core => Sys2Proof.Machine.execCoreEcall core s
  | .coreClearWriteback core => Sys2Proof.Machine.execCoreClearWriteback core s
  | .codecOpen c => Sys2Proof.Machine.execCodecOpen c s
  | .encFrame c => Sys2Proof.Machine.execEncFrame c s
  | .decFrame c => Sys2Proof.Machine.execDecFrame c s
  | .codecClose c => Sys2Proof.Machine.execCodecClose c s
  | .codecGsig c => Sys2Proof.Machine.execCodecGsig c s
  | .codecGwait c => Sys2Proof.Machine.execCodecGwait c s
  | .codecFence c => Sys2Proof.Machine.execCodecFence c s
  | .codecEnd c => Sys2Proof.Machine.execCodecEnd c s
  | .frameComplete c => Sys2Proof.Machine.execFrameComplete c s
  | .codecCtxBusy c now => Sys2Proof.Machine.execCodecCtxBusy c now s
  | .stackTempReport stack temp => Sys2Proof.Machine.execStackTempReport stack temp s
  | .overtempStop stack w => Sys2Proof.Machine.execOvertempStop stack w s
  | .imbalanceSample stack channel busiest total block => Sys2Proof.Machine.execImbalanceSample stack channel busiest total block s
  | .patrolScrub unit found => Sys2Proof.Machine.execPatrolScrub unit found s
  | .iceStripeRead stripe bad => Sys2Proof.Machine.execIceStripeRead stripe bad s
  | .iceChannelFailed channel => Sys2Proof.Machine.execIceChannelFailed channel s
  | .objTableWrite index word w => Sys2Proof.Machine.execObjTableWrite index word w s
  | .trainingComplete p lanes partnerGens now => Sys2Proof.Machine.execTrainingComplete p lanes partnerGens now s
  | .linkTrainRetry p now => Sys2Proof.Machine.execLinkTrainRetry p now s
  | .neighbourTimeout p now => Sys2Proof.Machine.execNeighbourTimeout p now s
  | .controlFlitTimer p now => Sys2Proof.Machine.execControlFlitTimer p now s
  | .trainReceive p fecOk corrected ctrl data now => Sys2Proof.Machine.execTrainReceive p fecOk corrected ctrl data now s
  | .write p h data => Sys2Proof.Machine.execWrite p h data s
  | .readReq p h => Sys2Proof.Machine.execReadReq p h s
  | .readResp p h data => Sys2Proof.Machine.execReadResp p h data s
  | .ack p h => Sys2Proof.Machine.execAck p h s
  | .nack p h => Sys2Proof.Machine.execNack p h s
  | .gsigTransaction p h => Sys2Proof.Machine.execGsigTransaction p h s
  | .exportTxn p h data => Sys2Proof.Machine.execExportTxn p h data s
  | .syncReq p h t2 t3 => Sys2Proof.Machine.execSyncReq p h t2 t3 s
  | .syncResp p h t4 => Sys2Proof.Machine.execSyncResp p h t4 s
  | .neighbour p h => Sys2Proof.Machine.execNeighbour p h s
  | .syncPeriod p t1 equalising => Sys2Proof.Machine.execSyncPeriod p t1 equalising s
  | .linkTimeout tag now => Sys2Proof.Machine.execLinkTimeout tag now s
  | .lossOfSignal p => Sys2Proof.Machine.execLossOfSignal p s
  | .linkNodeId w => Sys2Proof.Machine.execLinkNodeId w s
  | .routeEntryWrite node value => Sys2Proof.Machine.execRouteEntryWrite node value s
  | .linkPortConfig p w => Sys2Proof.Machine.execLinkPortConfig p w s
  | .ppsEdge now => Sys2Proof.Machine.execPpsEdge now s
  | .powerProfile w => Sys2Proof.Machine.execPowerProfile w s
  | .profileChange now => Sys2Proof.Machine.execProfileChange now s
  | .powerGate agent now => Sys2Proof.Machine.execPowerGate agent now s
  | .envelopeSample now stackGBs iceGBs => Sys2Proof.Machine.execEnvelopeSample now stackGBs iceGBs s
  | .inputPowerSample watts now => Sys2Proof.Machine.execInputPowerSample watts now s
  | .inputSag mv now => Sys2Proof.Machine.execInputSag mv now s
  | .powerFail mv now => Sys2Proof.Machine.execPowerFail mv now s
  | .dieTempReport die temp => Sys2Proof.Machine.execDieTempReport die temp s
  | .dieTrip w => Sys2Proof.Machine.execDieTrip w s
  | .mowWindowStart now => Sys2Proof.Machine.execMowWindowStart now s
  | .mowWindowEnd now => Sys2Proof.Machine.execMowWindowEnd now s
  | .mowForced now => Sys2Proof.Machine.execMowForced now s
  | .mowConfig w => Sys2Proof.Machine.execMowConfig w s
  | .mowPhase w => Sys2Proof.Machine.execMowPhase w s
  | .progressTimeout agent now => Sys2Proof.Machine.execProgressTimeout agent now s
  | .gatehouseRestart now => Sys2Proof.Machine.execGatehouseRestart now s
  | .arrayReset a storeDone => Sys2Proof.Machine.execArrayReset a storeDone s
  | .moverReset m => Sys2Proof.Machine.execMoverReset m s
  | .codecCoreReset c => Sys2Proof.Machine.execCodecCoreReset c s
  | .hostCoreClusterReset => Sys2Proof.Machine.execHostCoreClusterReset s
  | .portReset p => Sys2Proof.Machine.execPortReset p s
  | .channelRetrain channel => Sys2Proof.Machine.execChannelRetrain channel s
  | .deviceWarmReset cause dump => Sys2Proof.Machine.execDeviceWarmReset cause dump s
  | .deviceColdReset cause => Sys2Proof.Machine.execDeviceColdReset cause s
  | .resetComplete domain target ok => Sys2Proof.Machine.execResetComplete domain target ok s
  | .dumpCaptureComplete => Sys2Proof.Machine.execDumpCaptureComplete s
  | .logMirror seq => Sys2Proof.Machine.execLogMirror seq s
  | .agentFaultClear agent w => Sys2Proof.Machine.execAgentFaultClear agent w s
  | .partRead => Sys2Proof.Machine.execPartRead s
  | .quote => Sys2Proof.Machine.execQuote s
  | .extend => Sys2Proof.Machine.execExtend s
  | .fwStage => Sys2Proof.Machine.execFwStage s
  | .fwVerify => Sys2Proof.Machine.execFwVerify s
  | .fwActivate => Sys2Proof.Machine.execFwActivate s
  | .fwCommit => Sys2Proof.Machine.execFwCommit s
  | .debugUnlock => Sys2Proof.Machine.execDebugUnlock s
  | .dumpRead => Sys2Proof.Machine.execDumpRead s
  | .serviceClear => Sys2Proof.Machine.execServiceClear s
  | .iceProvision => Sys2Proof.Machine.execIceProvision s
  | .iceRelease => Sys2Proof.Machine.execIceRelease s
  | .powerUp slot mv => Sys2Proof.Machine.execPowerUp slot mv s
  | .softStart => Sys2Proof.Machine.execSoftStart s
  | .powerGood => Sys2Proof.Machine.execPowerGood s
  | .bootReady found => Sys2Proof.Machine.execBootReady found s
  | .railGroupTimeout group => Sys2Proof.Machine.execRailGroupTimeout group s
  | .resetN lowSamples => Sys2Proof.Machine.execResetN lowSamples s
  | .mateNBreak => Sys2Proof.Machine.execMateNBreak s
  | .jtagReset => Sys2Proof.Machine.execJtagReset s
  | .smbAlertResponse => Sys2Proof.Machine.execSmbAlertResponse s
  | .status => Sys2Proof.Machine.execStatus s
  | .inputMv => Sys2Proof.Machine.execInputMv s
  | .inputW => Sys2Proof.Machine.execInputW s
  | .dieTempMax => Sys2Proof.Machine.execDieTempMax s
  | .stackTempMax => Sys2Proof.Machine.execStackTempMax s
  | .slot => Sys2Proof.Machine.execSlot s
  | .serial => Sys2Proof.Machine.execSerial s
  | .registerWrite addr w => Sys2Proof.Machine.execRegisterWrite addr w s
  | .partnerDetection p => Sys2Proof.Machine.execPartnerDetection p s
  | .ppsEdgeLoss now => Sys2Proof.Machine.execPpsEdgeLoss now s
  | .gatehouseRestartComplete => Sys2Proof.Machine.execGatehouseRestartComplete s
  | .coreException core cause tval => Sys2Proof.Machine.execCoreException core cause tval s
  | .insnOpcode a => Sys2Proof.Machine.execInsnOpcode a s
  | .moverOpcode m => Sys2Proof.Machine.execMoverOpcode m s
  | .codecOpcode c => Sys2Proof.Machine.execCodecOpcode c s
  | .mboxOpcode => Sys2Proof.Machine.execMboxOpcode s

end Sys2Proof.Machine
end

