-- ==== Sys2Proof/Machine/Landing.lean ====
section
/-! DEFINITION. R494: the units of a write land one by one, in no stated order, between the start of the instruction or command
and its completion. A tick on which nothing is commanded lets one unit of one write in progress land (log 145). -/
namespace Sys2Proof.Machine

/-- The next store row of array `a` belongs to an instruction that no compute row can fault any more: its tile will count among those
up to `LAST_TILE`, which alone are written (R151). -/
def State.storeSure (s : State) (a : Nat) : Bool :=
  match s.nextRow a .store with
  | some (f, _) => (f.next? .compute).isNone
  | none => false

/-- Units that hold a record which its rule has written when its command completes, and not before: outcome records of placements,
held evictions and joined promotions among them (R92, R105), and the reports of frames (R361). -/
def State.recordUnits (s : State) : List Nat :=
  let cmd (m : Nat) : List Report := match (s.mover m).cmd with
    | some (.promote _ r _) => [r]
    | some (.zero _ r _) => [r]
    | _ => []
  let reports := s.objects.objs.flatMap (fun e => e.2.held ++ e.2.joined) ++ (List.range 16).flatMap cmd
  let frames := (List.range 6).filterMap fun c => (s.codecCore c).cmd.map fun w => fieldAt w.1 0x38 0 48
  (reports.map (·.status) ++ frames).map (· / 64)

/-- What completes each write that may be in progress: a store row or an instruction of an array, a mover's copy, zeroes or
promotion, a codec core's frame. -/
def State.writers (s : State) : List (State → Outcome) :=
  (s.arrays.flatMap fun e => (if s.storeSure e.1 then [execTrellisRowComplete e.1 .store] else [])
    ++ (List.range e.2.flights.length).map fun k => execInsnComplete e.1 k)
  ++ (((List.range 16).filter fun m => (s.mover m).cmd.isSome).flatMap fun m => [execMoverCopyComplete m, execPromotionCopyDone m])
  ++ ((List.range 6).filter fun c => (s.codecCore c).cmd.isSome).map fun c => execFrameComplete c

/-- The memory with the bytes and the mark of unit `u` as memory `n` has them. -/
def Mem.takeUnit (m n : Mem) (u : Nat) : Mem :=
  { m with
    cells := (List.range 64).foldl (fun l j => match n.byte? (64 * u + j) with
      | some b => mapPut (64 * u + j) b l
      | none => mapErase (64 * u + j) l) m.cells,
    poison := if n.poison.contains u then setInsert u m.poison else m.poison.filter fun v => decide (v ≠ u) }

/-- The units in which memory `n` holds a byte that memory `m` does not. -/
def Mem.newUnits (m n : Mem) : List Nat :=
  ((n.cells.filter fun e => decide (m.byte? e.1 ≠ some e.2)).map fun e => e.1 / 64).eraseDups

/-- The element that a free value chooses, if there is any. -/
def chosen {α : Type} (l : List α) (k : Nat) : Option α := l[Config.freeNat k [l.length] % l.length]?

/-- One unit of the write that `c` completes lands before its completion: a unit that holds no record, and whose early bytes leave
what the completion writes as it is (log 145). -/
def State.landOf (s : State) (c : State → Outcome) (k : Nat) : Option State :=
  match c s with
  | .next t =>
    (chosen ((s.mem.newUnits t.mem).filter fun u => !s.recordUnits.contains u) k).bind fun u =>
      let s1 := { s with mem := s.mem.takeUnit t.mem u }
      match c s1 with
      | .next t1 => if t1.mem = t.mem then some s1 else none
      | _ => none
  | _ => none

/-- One unit of one write in progress lands (R494); nothing changes while no write is in progress. -/
def State.land (s : State) : State :=
  match chosen s.writers s.free with
  | some c => (s.fresh.fresh.landOf c (s.free + 1)).getD s.fresh.fresh
  | none => s

end Sys2Proof.Machine
end

