-- ==== Sys2Proof/Safety.lean ====
section
/-! DEFINITION. What counts as a sound state of the device, and the terms in which the statements speak of a command: when an
agent may issue the next command of its program, and what a command leaves alone. -/
namespace Sys2Proof.Machine

/-! ## Sound states -/

/-- Memory lists its bytes in strictly rising order of address, each once. A listed byte never equals what an unlisted
address reads as, since that is a free value. -/
def Mem.wf (m : Mem) : Bool := mapRising m.cells

/-- The log never holds more than its 4,096 records (R434). -/
def State.logBounded (s : State) : Bool := decide (s.recovery.log.length ≤ 4096)

/-- No routing entry names port 14 or 15 (R379). -/
def routesOk (l : List (Nat × Route)) : Bool := l.all fun e => decide (e.2.port < 14) && decide (e.2.altPort < 14)

/-- What every step keeps: memory in canonical form, the log within its ring, every routing entry on a port of the module. -/
def State.sound (s : State) : Bool := s.mem.wf && s.logBounded && routesOk s.link.routes

/-! ## Issue -/

/-- Array `a` may issue next, its next slot holds the instruction `w` of opcode `op`, and none of its reserved fields and slots
fails a check (R109, R114, R142). -/
def State.issues (s : State) (a op w : Nat) : Prop :=
  s.slotWord a = some w ∧ opOf w = op ∧ rsvFault op w = none ∧ lowestBad (slotChecks op w) = none

/-- Mover `m` may start its next command, which is `w` of opcode `op`, and none of its own fields fails a check (R97, R98). -/
def State.moverStarts (s : State) (m op w : Nat) : Prop :=
  s.moverReady m = true ∧ s.fetchCmd (208 + m) cMoverFetch 64 mvBytes = .ok w ∧ w % 256 = op ∧ mvFault op w = none

/-- Codec core `c` is powered and may start its next command, which is `w` of an opcode `op` that it executes, and none of its own
fields fails a check (R350, R353). -/
def State.codecStarts (s : State) (c op w : Nat) : Prop :=
  s.codecReady c = true ∧ s.fetchCmd (224 + c) cCodecFetch 64 cdBytes = .ok w ∧ w % 256 = op ∧ cdKnown c op = true
    ∧ s.coreUnpowered c = false ∧ cdFault c op w = none

/-- The mailbox command in service is of code `code` and passes its common checks (R490). -/
def State.serves (s : State) (code : Nat) : Prop :=
  s.alwaysOn = true ∧ s.gatehouse.restarting = false ∧ ∃ c, s.gatehouse.cmd = some c ∧ c.code = code ∧ s.mbRefusal c = none

/-! ## Runs -/

/-- The commands of a list run in turn. -/
def runAll : List Instr → State → Option State
  | [], s => some s
  | c :: l, s => match exec c s with
    | .next t => runAll l t
    | _ => none

/-! ## Frames -/

/-- Nothing but agent `i` differs. -/
def State.onlyAgent (s t : State) (i : Nat) : Prop := (∀ j, j ≠ i → t.agent j = s.agent j) ∧ t = { s with agents := t.agents }

/-- Nothing but array `a` and its agent differs. -/
def State.onlyArray (s t : State) (a : Nat) : Prop :=
  (∀ j, j ≠ a → t.agent j = s.agent j) ∧ (∀ b, b ≠ a → t.array b = s.array b)
    ∧ t = { s with agents := t.agents, arrays := t.arrays }

/-- Nothing but port `p` differs. -/
def State.onlyPort (s t : State) (p : Nat) : Prop :=
  (∀ q, q ≠ p → t.port q = s.port q) ∧ t = { s with link := { s.link with ports := t.link.ports } }

/-- Every byte of memory reads as before. -/
def State.sameBytes (s t : State) : Prop := ∀ a, t.mem.byte? a = s.mem.byte? a

/-- Every byte of memory outside the `n` bytes from `a` on reads as before. -/
def State.sameOutside (s t : State) (a n : Nat) : Prop := ∀ b, (b < a ∨ a + n ≤ b) → t.mem.byte? b = s.mem.byte? b

/-- The byte `b` lies in the Trellis window that array `a` has (R197). -/
def State.inWindowOf (s : State) (a b : Nat) : Prop := ∃ w, (s.array a).window = some w
  ∧ lsAddr a (w.1 * 65536) ≤ b ∧ b < lsAddr a (w.1 * 65536) + w.2 * 65536

/-- Every byte of memory outside the Trellis window of array `a` reads as before. -/
def State.sameButWindow (s t : State) (a : Nat) : Prop := ∀ b, ¬ s.inWindowOf a b → t.mem.byte? b = s.mem.byte? b

/-- Array `a` holds no replaced descriptor whose object its pin alone keeps from leaving stack memory or being retained (R123). -/
def State.quietPins (s : State) (a : Nat) : Prop :=
  ∀ p ∈ (s.array a).oldPins, (s.obj p.object).st ≠ .evicting ∧ (s.obj p.object).st ≠ .retaining

/-- No object is about to leave stack memory or to be retained for want of pins. -/
def State.settled (s : State) : Prop := ∀ i, (s.obj i).st ≠ .evicting ∧ (s.obj i).st ≠ .retaining

/-! ## Shared effects -/

/-- The agent whose next transition the power ledger holds, from `now` if it does not hold it already (R410). -/
def Agent.heldFrom (now : Word64) (a : Agent) : Agent :=
  { a with heldWake := true, heldAt := if a.heldWake then a.heldAt else now }

/-- The start of agent `i`'s command is held, since it would pass 2,800 W (R410): the command has not begun, and the hold is noted. -/
def State.startHeld (s t : State) (i : Nat) : Prop :=
  t.agent i = (s.agent i).heldFrom s.sundial ∧ (∀ j, j ≠ i → t.agent j = s.agent j)
    ∧ t.power.capHold = true ∧ t.power.powerCap = true ∧ t.power.added = s.power.added
    ∧ t = { s with agents := t.agents, power := t.power, recovery := t.recovery }

/-- Port `q` sends, after what it already holds, the response of type `kind` to the request `h` (R374, R376, Table 12-4). -/
def State.answered (s t : State) (q : Nat) (h : Hdr) (kind w2 : Nat) (data : List (Nat × Byte)) : Prop :=
  (t.port q).out = (s.port q).out ++ [{
    hdr := { kind := kind, directed := h.directed, host := h.host, hostPort := h.hostPort, hops := 31, dst := h.src,
             src := s.link.nodeId, tag := h.tag, w1 := 0, w2 := w2, w3 := if h.directed then h.w3 else 0 },
    data := data }]
    ∧ ∀ r, r ≠ q → t.port r = s.port r

/-- Agent `i` has issued the signal `g` (R37, R39, R40, R45, R50): a local one without release, behind no earlier wait in force and
no queued signal to this module, is added to its gate at once; any other joins the agent's queue with its time of issue. -/
def State.signalled (s t : State) (i : Nat) (g : Signal) : Prop :=
  if g.release = false ∧ g.node = none ∧ (isCore i = true ∨ ∀ w ∈ (s.agent i).waits, g.place ≤ w.place)
      ∧ (∀ h ∈ (s.agent i).signals, s.signalNode h ≠ none) then
    (t.gate g.gate).value = (s.gate g.gate).value + BitVec.ofNat 32 g.inc ∧ (∀ h, h ≠ g.gate → t.gate h = s.gate h)
      ∧ (t.agent i).signals = (s.agent i).signals
  else t.gates = s.gates ∧ (t.agent i).signals = (s.agent i).signals ++ [{ g with issued := s.sundial }]

/-- Agent `i` has issued the wait `w` (R41, R44): no counter changes; a wait whose target its gate has reached completes at once,
any other is in force. -/
def State.waited (s t : State) (i : Nat) (w : GateWait) : Prop :=
  t.gates = s.gates ∧
    (t.agent i).waits = if reached (s.gate w.gate).value w.target then (s.agent i).waits else (s.agent i).waits ++ [w]

/-- Agent `i` has stopped with fault `f` (R149, R152): its program is FAULTED with no fence in force; its first fault writes the
record, a later one only sets the record's MULTI. -/
def State.faulted (s t : State) (i : Nat) (f : FaultInfo) : Prop :=
  (t.agent i).prog = .faulted ∧ (t.agent i).fences = [] ∧
    match (s.agent i).fault with
    | some r => (t.agent i).fault = some { r with multi := true }
    | none => ∃ r, (t.agent i).fault = some r ∧ r.info = f ∧ r.multi = false ∧ r.agent = i ∧ r.sundial = s.sundial
        ∧ r.seq = (s.agent i).faultSeq + 1

end Sys2Proof.Machine
end

