-- ==== Sys2Proof/Certificates/Slice0/Obligations.lean ====
section
/-! DEFINITION. The statements about the device, one definition each, in the order of OBLIGATIONS.json. A clause about a value
or a behaviour that the model chose names its row of notes/assumptions. -/
open Sys2Proof Sys2Proof.Machine

/-! ## The queue, every command, soundness -/

/-- A step takes the command at the front of the queue and runs it on the state with the queue's rest. On an empty queue the Sundial
counts one tick, with the slew in force, while the always-on domain runs, and a 64-byte unit of a write in progress may land (R494):
a free value chooses the write among those in progress, a second one the unit among those in which the write's completion stores a
new byte and no record; the unit takes the bytes that the completion would store there, provided that the completion then still
stores the same memory. Nothing else changes but the counter of free values (the model's choices, log 1, log 145). -/
def Obligations.StepRunsFrontCommand : Prop :=
  (∀ (c : Instr) (rest : List Instr) (s : State),
    step { s with pending := c :: rest } = exec c { s with pending := rest })
  ∧ (∀ s : State, s.pending = [] → ∃ t, step s = .next t ∧ t = s.tick.land
    ∧ (s.pins.phase ≠ .on → t.sundial = s.sundial ∧ t.sun = s.sun)
    ∧ (s.pins.phase = .on → s.sun.slew = 0 → 0 ≤ s.sun.slewPart → s.sun.slewPart < secondTicks →
        t.sundial = s.sundial + 1 ∧ t.sun.slewPart = s.sun.slewPart)
    ∧ (s.tick.writers = [] → t.mem = s.mem ∧ t.free = s.free)
    ∧ (∀ c n, chosen s.tick.writers s.free = some c → c s.tick.fresh.fresh = .next n →
        let units := (s.mem.newUnits n.mem).filter fun u => !s.recordUnits.contains u
        t.free = s.free + 2
        ∧ (units = [] → t.mem = s.mem)
        ∧ (∀ u, chosen units (s.free + 1) = some u →
          let landed := s.mem.takeUnit n.mem u
          (∀ n₁, c { s.tick.fresh.fresh with mem := landed } = .next n₁ → t.mem = if n₁.mem = n.mem then landed else s.mem)
          ∧ (s.mem.wf = true → ∀ a, landed.byte? a = if a / 64 = u then n.mem.byte? a else s.mem.byte? a)))
    ∧ t = { s with sundial := t.sundial, sun := t.sun, mem := t.mem, free := t.free })

/-- No command ends in a fault or a refusal of the model: the device's own faults are effects on its state (log 17). -/
def Obligations.EveryCommandAnswersNext : Prop := ∀ (c : Instr) (s : State), ∃ t, exec c s = .next t

/-- No command adds to the queue or takes from it. -/
def Obligations.CommandsKeepQueue : Prop := ∀ (c : Instr) (s t : State), exec c s = .next t → t.pending = s.pending

/-- Every step keeps memory in its canonical form, the log within its 4,096 records (R434), and every routing entry on a port of the
module (R379). -/
def Obligations.SoundStateKept : Prop := ∀ s t : State, s.sound = true → step s = .next t → t.sound = true

/-- The state before power-up is sound, and its registers hold the values that the spec gives for reset: gates (Table 17-6), arrays'
lane registers (R317, R328, Table 09-5), ports (Table 12-8), Sundial (Table 12-9), power (Table 13-7), recovery (Table 14-9). That an
object is ABSENT at reset is the model's choice (log 11): Table 02-7 gives no reset value. -/
def Obligations.ResetState : Prop :=
  (State.reset.sound = true)
  ∧ ((∀ g, State.reset.gate g = { value := 0, remote := false })
  ∧ (∀ a, (State.reset.array a).keyBase = 0x9E3779B97F4A7C15#64 ∧ (State.reset.array a).lkPoly = a % 16)
  ∧ (∀ i, (State.reset.obj i).valid = false ∧ (State.reset.obj i).st = .absent)
  ∧ (∀ p, (State.reset.port p).st = .down ∧ (State.reset.port p).maxGen = if p < 12 then 3 else 2)
  ∧ State.reset.sun.st = .free ∧ State.reset.sun.settle = 16
  ∧ State.reset.power.idleHold = 20 ∧ State.reset.power.mowLength = 20 ∧ State.reset.power.mowPeriod = 10000
  ∧ State.reset.recovery.linkTimeout = 500 ∧ State.reset.recovery.limit = 3 ∧ State.reset.recovery.windowS = 600
  ∧ State.reset.pins.phase = .off)

/-! ## Publication, wakes, starts and ends (ch 01) -/

/-- R482, R27: a write of the whole of EPOCH_PUBLISH begins a validation; one during a validation is refused and only recorded in
BUSY_REFUSED; one that the module cannot serve is refused with DEVICE_OUT_OF_SERVICE, or with EPOCH_BUSY during a Gatehouse restart.
R30, R483: a cancel empties the pending slot of the agent written, and reports 1; with an empty slot, or an entry whose start falls
in the same cycle, which goes on to start, it reports 2; during a validation it waits for its end. -/
def Obligations.PublishAndCancelAreTaken : Prop :=
  (∀ (s : State) (w : RegVal), s.alwaysOn = true → (s.gatehouse.ready = true ∨ s.gatehouse.halted = true) →
    s.warmResetting = false → w.half = .both →
    let off := s.recovery.oos = true ∨ s.gatehouse.ready = false ∨ s.gatehouse.halted = true
    let refused (c : Nat) : State := { s with epoch := { s.epoch with
      busy := none, accepted := decide (c = 0), entryIndex := 0xFF, faultCode := c, publishCount := s.epoch.publishCount + 1 } }
    (off → exec (.epochPublish w) s = .next (refused cDeviceOutOfService))
    ∧ (¬ off → s.epoch.busy.isSome = true → exec (.epochPublish w) s = .next { s with epoch := { s.epoch with busyRefused := true } })
    ∧ (¬ off → s.epoch.busy = none → s.gatehouse.restarting = true → exec (.epochPublish w) s = .next (refused cEpochBusy))
    ∧ (¬ off → s.epoch.busy = none → s.gatehouse.restarting = false →
        exec (.epochPublish w) s = .next { s with epoch := { s.epoch with busy := some (w.fld 0 48) } }))
  ∧ (∀ (s : State) (w : RegVal), s.driverReaches = true → w.half ≠ .high →
    (s.epoch.busy.isSome = true →
      exec (.epochCancel w) s = .next { s with epoch := { s.epoch with cancels := s.epoch.cancels ++ [w.fld 0 8] } })
    ∧ (s.epoch.busy = none → ∃ t, exec (.epochCancel w) s = .next t
      ∧ (w.fld 0 8 < 230 → s.starting (w.fld 0 8) = false → (t.agent (w.fld 0 8)).pending = none)
      ∧ (s.starting (w.fld 0 8) = true → t.agent (w.fld 0 8) = s.agent (w.fld 0 8))
      ∧ (t.agent (w.fld 0 8)).running = (s.agent (w.fld 0 8)).running ∧ (t.agent (w.fld 0 8)).curEpoch = (s.agent (w.fld 0 8)).curEpoch
      ∧ (∀ i, i ≠ w.fld 0 8 → t.agent i = s.agent i)
      ∧ t.epoch.cancelAgent = w.fld 0 8
      ∧ t.epoch.cancelResult = (if w.fld 0 8 < 230 ∧ (s.agent (w.fld 0 8)).pending.isSome ∧ s.starting (w.fld 0 8) = false then 1 else 2)
      ∧ t.epoch.cancelCount = s.epoch.cancelCount + 1
      ∧ t = { s with agents := t.agents, epoch := t.epoch }))

/-- R26: either every entry of a record is accepted or none is; the first failing entry's index and its code reach EPOCH_STATUS. An
accepted entry enters its agent's pending slot (R28) and its number becomes the agent's current one (R29); here no entry is
already too late to start (R34), no cancel waits for the validation's end, and no channel that serves the record holds its
requests (R414, R426). -/
def Obligations.PublicationAllOrNothing : Prop :=
  ∀ (s : State) (a : Nat), s.epoch.busy = some a → s.epoch.cancels = [] → s.alwaysOn = true → s.warmResetting = false →
    s.recordHeld a = false →
    (∀ i c, s.validate a = .error (i, c) → ∃ t, exec .epochValidationEnd s = .next t
      ∧ t.epoch.busy = none ∧ t.epoch.accepted = decide (c = 0) ∧ t.epoch.entryIndex = i ∧ t.epoch.faultCode = c
      ∧ t.epoch.publishCount = s.epoch.publishCount + 1 ∧ t = { s with epoch := t.epoch })
    ∧ (∀ es, s.validate a = .ok es → (∀ e ∈ es, e.tooLate s.sundial = false) → ∃ t, exec .epochValidationEnd s = .next t
      ∧ t.epoch.busy = none ∧ t.epoch.accepted = true ∧ t.epoch.publishCount = s.epoch.publishCount + 1
      ∧ (∀ e ∈ es, (t.agent e.agent).pending = some e ∧ (t.agent e.agent).curEpoch = some e.epoch
          ∧ (t.agent e.agent).running = (s.agent e.agent).running)
      ∧ (∀ i, (∀ e ∈ es, e.agent ≠ i) → t.agent i = s.agent i)
      ∧ t = { s with epoch := t.epoch, agents := t.agents, power := { s.power with capLogged := false } })

/-- R33, R405: at the moment of its schedule a power-gated block begins to wake, and a later wake that its entry still needs is
scheduled; a clock-gated one runs when its agent has an entry about to start; a running or waking one goes on. An array's wake adds
3.4 W, in Lean 2.9 W (R408, Table 13-5); one that would pass 2,800 W is held and noted (R410). A woken block runs when its agent has
a program or an entry about to start, and gates its clock otherwise (R406; that one with nothing to run gates it at once is the
model's choice, log 33). A block clock-gated for IDLE_HOLD, which no WAKE keeps awake, is power-gated; a core does so without a
record only, and its caches empty (Table 13-4, R341). -/
def Obligations.BlocksWakeAndGate : Prop :=
  ∀ (s : State) (i : Nat) (now : Word64), s.agentsRun = true → s.sundial.toNat ≤ now.toNat →
    let a := s.agent i
    let aboutToStart := ∃ e, a.pending = some e ∧ a.fault = none ∧ e.start.toNat ≤ now.toNat + wakeLatency i
    let later : Option Word64 := match a.pending with
      | some e => if now.toNat + wakeLatency i < e.start.toNat then some (wakeMoment now e.start i) else none
      | none => none
    let becomes (u : State) (b : Agent) : Prop := u.agent i = b ∧ ∀ j, j ≠ i → u.agent j = s.agent j
    let rise := if isArray i then (if s.power.leanActive then 29000 else 34000) else 0
    (∀ t, a.wakeAt = some t → t.toNat ≤ now.toNat → (a.pending.isSome = true ∨ a.awakeUntil.isSome = true) → s.dieTripped i = false →
      (a.gating = .powerGated → (isArray i = false ∨ s.power.envelope + s.power.added + rise ≤ 28000000) →
        ∃ u, exec (.scheduledWake i now) s = .next u
        ∧ becomes u { a with gating := .waking now, heldWake := false, wakeAt := later }
        ∧ u = { s.atTime now with agents := u.agents, power := { s.power with
            added := s.power.added + rise } })
      ∧ (a.gating = .powerGated → isArray i = true → 28000000 < s.power.envelope + s.power.added + rise →
        ∃ u, exec (.scheduledWake i now) s = .next u
        ∧ becomes u { a.heldFrom now with wakeAt := later } ∧ u.power.capHold = true
        ∧ u = { s.atTime now with agents := u.agents, power := u.power, recovery := u.recovery })
      ∧ (a.gating ≠ .powerGated → ∃ u, exec (.scheduledWake i now) s = .next u
        ∧ (aboutToStart → (∃ x, a.gating = .clockGated x) → becomes u { a with gating := .running, wakeAt := later })
        ∧ ((¬ aboutToStart ∨ ∀ x, a.gating ≠ .clockGated x) → becomes u { a with wakeAt := later })
        ∧ u = { s.atTime now with agents := u.agents }))
    ∧ (∀ t, a.gating = .waking t → ∃ u, exec (.wakeComplete i now) s = .next u
        ∧ ((a.prog = .running ∨ a.prog = .ending ∨ aboutToStart) → becomes u { a with gating := .running })
        ∧ (a.prog ≠ .running → a.prog ≠ .ending → ¬ aboutToStart → becomes u { a with gating := .clockGated now })
        ∧ u = { s.atTime now with agents := u.agents })
    ∧ (∀ t, a.gating = .clockGated t → i < 230 → (∀ x, a.awakeUntil = some x → x.toNat ≤ now.toNat) → a.prog ≠ .resetting →
        usTicks s.power.idleHold ≤ now.toNat - t.toNat →
        (isCore i = false → ∃ u, exec (.powerGate i now) s = .next u
          ∧ becomes u { a with gating := .powerGated, awakeUntil := none } ∧ u = { s.atTime now with agents := u.agents })
        ∧ (isCore i = true → a.fault = none → (s.core (i - 192)).clearing = false → ∃ u, exec (.powerGate i now) s = .next u
          ∧ becomes u { a with gating := .powerGated, awakeUntil := none }
          ∧ u.core (i - 192) = { s.core (i - 192) with lines := [], l1i := [], l1d := [], reservation := none }
          ∧ (∀ k, k ≠ i - 192 → u.core k = s.core k) ∧ u.cluster.l3 = s.cluster.l3
          ∧ u = { s.atTime now with agents := u.agents, cluster := u.cluster }))

/-- R28, R31: an agent with an entry in its pending slot, no program, no fault record and a running or clock-gated block starts at
the entry's START_TIME, or later: the entry moves to the running slot and the program begins at PROGRAM_ADDR. R34: a start more than
one period of the agent's clock late is logged as the advisory START_LATE, with the lateness and START_TIME in its details; one less
than 1 s after the first of its kind counts in that record instead (R434). R340: a host-class core whose launch block holds no fault
begins at its ENTRY with the registers of R340 and every other register 0. Its start adds 3.9 W, and the 6.0 W of the L3 and the
core cluster where no other core runs (Table 13-5, R408); while that would pass 2,800 W it is held (R410). R34: an entry with
LATE_FAULT that has not started by START_TIME + 1 µs is refused: the pending slot empties, and the agent without a record takes
START_LATE with the lateness and START_TIME in its details. -/
def Obligations.EntriesStartOrAreRefused : Prop :=
  (∀ (s : State) (i : Nat) (now : Word64) (e : EpochEntry), s.sundial.toNat ≤ now.toNat → (s.agent i).pending = some e →
    e.start.toNat ≤ now.toNat → e.tooLate now = false → s.agentsRun = true → (s.agent i).prog = .idle → (s.agent i).fault = none →
    s.dieTripped i = false → ((s.agent i).gating = .running ∨ ∃ t, (s.agent i).gating = .clockGated t) →
    (isArray i = true → (s.array i).flights = []) →
    let started : Agent := { s.agent i with
      running := some e, pending := none, wakeAt := none, prog := .running, ip := e.program, gating := .running,
      lastProgress := now, watchLimit := (s.agent i).progressLimit, watchHeld := 0 }
    let late := now.toNat - e.start.toNat
    let advised (t : State) : Prop :=
      if late ≤ (if isMover i then 3 else if isCodec i then 2 else 1) then t.recovery = s.recovery
      else match coalesce now.toNat s.gatehouse.boots cStartLate i s.recovery.log with
        | some l => t.recovery = { s.recovery with log := l }
        | none => ∃ r, t.recovery.log = (r :: s.recovery.log).take 4096 ∧ r.code = cStartLate ∧ r.source = i ∧ r.kind = 3
            ∧ r.addr = e.program ∧ r.epoch = e.epoch ∧ r.d1 = late ∧ r.d2 = e.start.toNat
    let rise := 39000 + if (List.range 16).any s.coreBusy then 0 else 60000
    (isCore i = false → ∃ t, exec (.agentStart i now) s = .next t
      ∧ t.agent i = started ∧ (∀ j, j ≠ i → t.agent j = s.agent j) ∧ advised t
      ∧ t = { s.atTime now with agents := t.agents, recovery := t.recovery })
    ∧ (∀ k, i = 192 + k → k < 16 →
      let w := s.rdNat e.program 64
      (s.power.envelope + s.power.added + rise ≤ 28000000 → s.poisonIn e.program 64 = none → s.stoppedIn e.program 64 = none →
        launchFault w = none → ∃ t, exec (.agentStart i now) s = .next t
        ∧ t.agent i = { started with heldWake := false } ∧ (∀ j, j ≠ i → t.agent j = s.agent j)
        ∧ (t.core k).pc = BitVec.ofNat 64 (fieldAt w 0 0 48) ∧ (t.core k).getX 2 = BitVec.ofNat 64 (fieldAt w 8 0 48)
        ∧ (t.core k).getX 10 = BitVec.ofNat 64 (fieldAt w 16 0 64) ∧ (t.core k).getX 11 = BitVec.ofNat 64 k
        ∧ (t.core k).getX 12 = BitVec.ofNat 64 e.epoch.toNat
        ∧ (∀ r, r ≠ 2 → r ≠ 10 → r ≠ 11 → r ≠ 12 → (t.core k).getX r = 0) ∧ (t.core k).f = [] ∧ (t.core k).v = []
        ∧ (t.core k).satp = 0 ∧ (t.core k).lines = [] ∧ (∀ j, j ≠ k → t.core j = s.core j) ∧ t.cluster.l3 = s.cluster.l3
        ∧ advised t
        ∧ t = { s.atTime now with
            agents := t.agents, cluster := t.cluster, recovery := t.recovery, power := { s.power with added := s.power.added + rise } })
      ∧ (28000000 < s.power.envelope + s.power.added + rise → ∃ t, exec (.agentStart i now) s = .next t
        ∧ t.agent i = (s.agent i).heldFrom now ∧ (∀ j, j ≠ i → t.agent j = s.agent j) ∧ t.power.capHold = true
        ∧ t = { s.atTime now with agents := t.agents, power := t.power, recovery := t.recovery })))
  ∧ (∀ (s : State) (i : Nat) (now : Word64) (e : EpochEntry), s.sundial.toNat ≤ now.toNat → (s.agent i).pending = some e →
    s.agentsRun = true → e.lateFault = true → e.start.toNat + 4000 ≤ now.toNat → (s.agent i).fault = none →
    ∃ t r, exec (.startLate i now) s = .next t
      ∧ (t.agent i).pending = none ∧ (t.agent i).running = (s.agent i).running ∧ (t.agent i).fault = some r
      ∧ r.info.code = cStartLate ∧ r.info.d1 = now.toNat - e.start.toNat ∧ r.info.d2 = e.start.toNat ∧ r.epoch = e.epoch
      ∧ (∀ j, j ≠ i → t.agent j = s.agent j)
      ∧ t = { s.atTime now with agents := t.agents, recovery := t.recovery })

/-- R35, R36: when the program's end is complete, the done gate of an entry with DONE_VALID is signalled by 1 and the agent is idle
with its clock gated; no byte outside an array's Trellis window changes. Here a host-class core has exited with status 0, and an
array has no instruction left. -/
def Obligations.ProgramEndSignalsDoneGate : Prop :=
  ∀ (s : State) (i : Nat) (e : EpochEntry), s.agentsRun = true → (s.agent i).prog = .ending → (s.agent i).running = some e →
    (s.agent i).fences = [] → (s.agent i).signals = [] → (s.agent i).waits = [] → (s.agent i).boundary = [] →
    (s.agent i).fault = none → (isCore i = true → ((s.core (i - 192)).getX 10).toNat = 0) →
    (isArray i = true → (s.array i).flights = []) →
    ∃ t, exec (.doneGateSignal i) s = .next t
      ∧ (t.agent i).running = none ∧ (t.agent i).prog = .idle ∧ (t.agent i).gating = .clockGated s.sundial
      ∧ (t.gate e.doneGate).value = (s.gate e.doneGate).value + (if e.doneValid then 1 else 0)
      ∧ (∀ g, g ≠ e.doneGate → t.gate g = s.gate g)
      ∧ s.sameButWindow t i ∧ (isArray i = false → t.mem = s.mem ∧ t.arrays = s.arrays)
      ∧ (∀ b, b ≠ i → t.array b = s.array b)
      ∧ t = { s with agents := t.agents, gates := t.gates, cluster := t.cluster, mem := t.mem, arrays := t.arrays, free := t.free }

/-! ## Gates, waits and fences (ch 01) -/

/-- R37, R487: the driver's signal adds its increment to the counter modulo 2^32; a gate's other field, the other gates and memory are
as before; exactly the waits on the gate that the new value reaches, and whose timeout has not expired before, complete (R41, R45).
A driver's write of GATE_VALUE sets the counter, and the waiters judge it (R51). -/
def Obligations.DriverSignalsAndWritesGates : Prop :=
  ∀ (s : State) (g : Nat) (w : RegVal), s.driverReaches = true → g < 131072 → w.half = .low →
    let bare (x : GateWait) : GateWait := { x with seen := none }
    let expired (x : GateWait) : Bool := decide (x.issued.toNat + usTicks x.timeout < s.sundial.toNat)
    let rest (t : State) : Prop := (t.gate g).remote = (s.gate g).remote ∧ (∀ h, h ≠ g → t.gate h = s.gate h)
      ∧ (∀ i, (t.agent i).waits.map bare = ((s.agent i).waits.filter fun x =>
          !(decide (x.gate = g) && reached (t.gate g).value x.target && !expired x)).map bare)
      ∧ t = { s with agents := t.agents, gates := t.gates, cluster := t.cluster }
    (w.fld 0 16 ≠ 0 → ∃ t, exec (.gateSignal g w) s = .next t
      ∧ (t.gate g).value = (s.gate g).value + BitVec.ofNat 32 (w.fld 0 16) ∧ rest t)
    ∧ ∃ t, exec (.gateValue g w) s = .next t ∧ (t.gate g).value = BitVec.ofNat 32 (w.fld 0 32) ∧ rest t

/-- R38: signals to one gate are all applied, each once: whatever their order, the counter ends at its starting value plus the sum of
the increments modulo 2^32. -/
def Obligations.SignalOrderDoesNotMatter : Prop :=
  ∀ (s : State) (g : Nat) (incs : List (BitVec 16)), s.driverReaches = true → g < 131072 → (∀ n ∈ incs, n ≠ 0) →
    ∃ t, runAll (incs.map fun n => .gateSignal g { half := .low, value := n.zeroExtend 64 }) s = some t
      ∧ (t.gate g).value = (s.gate g).value + (incs.map fun n => n.zeroExtend 32).sum

/-- R37, R39, R40, R50: the GSIG of an array, of a mover and of a codec core signals a gate; the agent goes on at its next instruction
or command. R39, R40, R49: a queued signal whose condition holds, with no earlier one to the same module ahead of it, leaves the
agent's queue: a local one adds its increment to its gate, and one for another module that its route reaches, with no transaction
waiting for that module and a tag free, is sent there (R48, R374). -/
def Obligations.SignalsReachTheirGates : Prop :=
  ((∀ (s : State) (a w : Nat), s.issues a opGsig w → half16 w 2 ≠ 0 → (modBit w 1 = true ∨ fieldAt w 8 0 14 = 0) →
    ∃ t, exec (.gsig a) s = .next t
      ∧ s.signalled t a {
          gate := fieldAt w 4 0 17, inc := half16 w 2, release := modBit w 0,
          node := if modBit w 1 then some (fieldAt w 8 0 14) else none, place := (s.array a).place, insn := true }
      ∧ (t.agent a).ip = (s.agent a).ip + 32 ∧ (t.array a).place = (s.array a).place + 1
      ∧ t = { s with agents := t.agents, gates := t.gates, cluster := t.cluster, arrays := t.arrays })
  ∧ (∀ (s : State) (m w : Nat), s.moverStarts m mvGsig w → ∃ t, exec (.moverGsig m) s = .next t
      ∧ s.signalled t (208 + m) {
          gate := fieldAt w 4 0 17, inc := half16 w 0xC, release := modBit w 0,
          node := if modBit w 1 then some (fieldAt w 8 0 14) else none, place := 0 }
      ∧ (t.agent (208 + m)).ip = (s.agent (208 + m)).ip + 64
      ∧ t = { s with agents := t.agents, gates := t.gates, cluster := t.cluster })
  ∧ (∀ (s : State) (c w : Nat), s.codecStarts c mvGsig w → ∃ t, exec (.codecGsig c) s = .next t
      ∧ s.signalled t (224 + c) {
          gate := fieldAt w 4 0 17, inc := half16 w 0xC, release := modBit w 0,
          node := if modBit w 1 then some (fieldAt w 8 0 14) else none, place := 0 }
      ∧ (t.agent (224 + c)).ip = (s.agent (224 + c)).ip + 64
      ∧ t = { s with agents := t.agents, gates := t.gates, cluster := t.cluster, codec := t.codec }))
  ∧ (∀ (s : State) (i k : Nat) (g : Signal), s.agentsRun = true → (s.agent i).signals[k]? = some g → g.node = none →
    s.signalReady i g = true → (∀ h ∈ (s.agent i).signals.take k, s.signalNode h ≠ none ∨ h.place ≠ g.place) →
    ∃ t, exec (.signalApply i k) s = .next t
      ∧ (t.agent i).signals = (s.agent i).signals.eraseIdx k
      ∧ (t.gate g.gate).value = (s.gate g.gate).value + BitVec.ofNat 32 g.inc
      ∧ (∀ h, h ≠ g.gate → t.gate h = s.gate h)
      ∧ t = { s with agents := t.agents, gates := t.gates, cluster := t.cluster })
  ∧ (∀ (s : State) (i k n q : Nat) (g : Signal), s.agentsRun = true → (s.agent i).signals[k]? = some g → g.node = some n →
    s.link.nodeValid = true → n ≠ s.link.nodeId → s.signalReady i g = true →
    (∀ h ∈ (s.agent i).signals.take k, s.signalNode h ≠ some n ∨ h.place ≠ g.place) →
    s.mustWait n = false → s.routePort n = .ok q →
    ∃ t x d, exec (.signalApply i k) s = .next t
      ∧ (t.agent i).signals = (s.agent i).signals.eraseIdx k
      ∧ (t.port q).out = (s.port q).out ++ [x] ∧ x.hdr.kind = tGsig ∧ x.hdr.dst = n ∧ x.hdr.w1 = g.gate ∧ x.hdr.w2 = g.inc
      ∧ mapFind x.hdr.tag t.link.pending = some d ∧ d.agent = i ∧ d.node = n ∧ d.gate = g.gate ∧ d.inc = g.inc
      ∧ (∀ r, r ≠ q → t.port r = s.port r) ∧ (∀ j, j ≠ i → t.agent j = s.agent j)
      ∧ t = { s with agents := t.agents, link := t.link })

/-- R41, R44: the GWAIT of an array, of a mover and of a codec core never modifies a counter; it completes at once when its gate has
reached its target, (counter − target) mod 2^32 from 0 to 2^31 − 1, and is in force otherwise, with the agent's default timeout
where its field is 0. A wait in force whose timeout has not expired before (R45) completes when a write of its gate reaches its
target, and no other wait does. -/
def Obligations.GwaitWaitsForItsTarget : Prop :=
  let timeout (s : State) (i t : Nat) : Nat := if t = 0 then (s.agent i).gateTimeout else t
  let bare (x : GateWait) : GateWait := { x with seen := none }
  (∀ counter target : BitVec 32, reached counter target = true ↔ (counter.toNat + (2 ^ 32 - target.toNat)) % 2 ^ 32 ≤ 2 ^ 31 - 1)
  ∧ (∀ (s : State) (g i : Nat) (w : RegVal), s.driverReaches = true → g < 131072 → w.half = .low → ∃ t, exec (.gateValue g w) s = .next t
      ∧ (t.agent i).waits.map bare = ((s.agent i).waits.filter fun x =>
          decide (x.gate ≠ g ∨ 2 ^ 31 - 1 < ((t.gate g).value.toNat + (2 ^ 32 - x.target.toNat)) % 2 ^ 32
            ∨ x.issued.toNat + usTicks x.timeout < s.sundial.toNat)).map bare)
  ∧ (∀ (s : State) (a w : Nat), s.issues a opGwait w → ∃ t, exec (.gwait a) s = .next t
      ∧ s.waited t a {
          gate := fieldAt w 4 0 17, target := BitVec.ofNat 32 (fieldAt w 8 0 32), issued := s.sundial,
          timeout := timeout s a (fieldAt w 0xC 0 24), acquire := modBit w 0, place := (s.array a).place, addr := (s.agent a).ip }
      ∧ (t.agent a).ip = (s.agent a).ip + 32 ∧ s.onlyArray t a)
  ∧ (∀ (s : State) (m w : Nat), s.moverStarts m mvGwait w → ∃ t, exec (.moverGwait m) s = .next t
      ∧ s.waited t (208 + m) {
          gate := fieldAt w 4 0 17, target := BitVec.ofNat 32 (fieldAt w 8 0 32), issued := s.sundial,
          timeout := timeout s (208 + m) (fieldAt w 0xC 0 24), acquire := modBit w 0, place := 0, addr := (s.agent (208 + m)).ip }
      ∧ (t.agent (208 + m)).ip = (s.agent (208 + m)).ip + 64 ∧ s.onlyAgent t (208 + m))
  ∧ (∀ (s : State) (c w : Nat), s.codecStarts c mvGwait w → ∃ t, exec (.codecGwait c) s = .next t
      ∧ s.waited t (224 + c) {
          gate := fieldAt w 4 0 17, target := BitVec.ofNat 32 (fieldAt w 8 0 32), issued := s.sundial,
          timeout := timeout s (224 + c) (fieldAt w 0xC 0 24), acquire := modBit w 0, place := 0, addr := (s.agent (224 + c)).ip }
      ∧ (t.agent (224 + c)).ip = (s.agent (224 + c)).ip + 64
      ∧ t = { s with agents := t.agents, codec := t.codec })

/-- R53: the FENCE of an array, of a mover and of a codec core starts a fence of its scope; a fence whose condition (Table 01-5) holds
completes, and the agent's later ones stay. -/
def Obligations.FencesStartAndComplete : Prop :=
  (∀ (s : State) (a w : Nat), s.issues a opFence w → ∃ t, exec (.fence a) s = .next t
      ∧ (t.agent a).fences = (s.agent a).fences ++ [{ scope := fieldAt w 1 0 2, place := (s.array a).place, addr := (s.agent a).ip }]
      ∧ (t.agent a).ip = (s.agent a).ip + 32 ∧ s.onlyArray t a)
  ∧ (∀ (s : State) (m w : Nat), s.moverStarts m mvFence w → ∃ t, exec (.moverFence m) s = .next t
      ∧ (t.agent (208 + m)).fences = (s.agent (208 + m)).fences
          ++ [{ scope := fieldAt w 1 0 2, place := 0, addr := (s.agent (208 + m)).ip }]
      ∧ (t.agent (208 + m)).ip = (s.agent (208 + m)).ip + 64 ∧ s.onlyAgent t (208 + m))
  ∧ (∀ (s : State) (c w : Nat), s.codecStarts c mvFence w → ∃ t, exec (.codecFence c) s = .next t
      ∧ (t.agent (224 + c)).fences = (s.agent (224 + c)).fences
          ++ [{ scope := fieldAt w 1 0 2, place := 0, addr := (s.agent (224 + c)).ip }]
      ∧ (t.agent (224 + c)).ip = (s.agent (224 + c)).ip + 64 ∧ t = { s with agents := t.agents, codec := t.codec })
  ∧ (∀ (s : State) (i : Nat) (f : FenceRun) (fs : List FenceRun), s.agentsRun = true → (s.agent i).fences = f :: fs →
      s.fenceHolds i f.scope f.place = true → ∃ t, exec (.fenceComplete i) s = .next t
      ∧ (t.agent i).fences = fs ∧ (∀ j, j ≠ i → t.agent j = s.agent j)
      ∧ (isCore i = true → (t.core (i - 192)).fenceDone = f.scope)
      ∧ t = { s with agents := t.agents, cluster := t.cluster })

/-- R35, R97: HALT, a mover's END and a codec core's END end the program: its global fence starts and its epoch entry stays. NOP only
goes on to the next slot. -/
def Obligations.ProgramsEndWithGlobalFence : Prop :=
  (∀ (s : State) (a w : Nat), s.issues a opHalt w → ∃ t, exec (.halt a) s = .next t
      ∧ t.agent a = { s.agent a with
          prog := .ending, fences := (s.agent a).fences ++ [{ scope := 3, place := (s.array a).place, addr := (s.agent a).ip }],
          ip := (s.agent a).ip + 32, lastProgress := s.sundial, watchLimit := (s.agent a).progressLimit, watchHeld := 0 }
      ∧ s.onlyArray t a)
  ∧ (∀ (s : State) (m w : Nat), s.moverStarts m mvEnd w → ∃ t, exec (.moverEnd m) s = .next t
      ∧ t.agent (208 + m) = { s.agent (208 + m) with
          prog := .ending, fences := (s.agent (208 + m)).fences ++ [{ scope := 3, place := 0, addr := (s.agent (208 + m)).ip }],
          ip := (s.agent (208 + m)).ip + 64, lastProgress := s.sundial, watchLimit := (s.agent (208 + m)).progressLimit, watchHeld := 0 }
      ∧ s.onlyAgent t (208 + m))
  ∧ (∀ (s : State) (c w : Nat), s.codecStarts c mvEnd w → ∃ t, exec (.codecEnd c) s = .next t
      ∧ t.agent (224 + c) = { s.agent (224 + c) with
          prog := .ending, fences := (s.agent (224 + c)).fences ++ [{ scope := 3, place := 0, addr := (s.agent (224 + c)).ip }],
          ip := (s.agent (224 + c)).ip + 64, lastProgress := s.sundial, watchLimit := (s.agent (224 + c)).progressLimit, watchHeld := 0 }
      ∧ t = { s with agents := t.agents, codec := t.codec })
  ∧ (∀ (s : State) (a w : Nat), s.issues a opNop w → ∃ t, exec (.nop a) s = .next t
      ∧ t.agent a = { s.agent a with
          ip := (s.agent a).ip + 32, lastProgress := s.sundial, watchLimit := (s.agent a).progressLimit, watchHeld := 0 }
      ∧ t.array a = { s.array a with place := (s.array a).place + 1, bridge := (t.array a).bridge } ∧ s.onlyArray t a)

/-- R44, R45: where a wait has not been met by the tick at which its timeout expires, the first such wait stops its agent with
GATE_TIMEOUT, whose details are the gate, the target with the counter at the expiry, and the timeout (Table 03-20). R48, R140: a
fault that waits for the agent's boundary is taken there. R106: a mover without a job for the timeout of its XSERVE stops with
XSERVE_TIMEOUT. R347: a codec core whose context stays active for longer than its timeout stops with CODEC_CTX_BUSY. R97, R109,
R114, R353: where no opcode stands at the address of an array, of a mover or of a codec core, the agent stops there with its opcode
fault; that a frame opcode of the other direction has it too is the model's reading (log 82). R490: the mailbox refuses an unknown
code; that it does so while boot is halted as well is the model's choice (log 111). -/
def Obligations.ExpiredWaitsAndUnknownOpcodesFault : Prop :=
  ((∀ (s : State) (i : Nat) (now : Word64), s.sundial.toNat ≤ now.toNat → s.agentsRun = true →
    let expiry (w : GateWait) : Nat := w.issued.toNat + usTicks w.timeout
    let unmet (w : GateWait) : Prop := w ∈ (s.agent i).waits ∧ usTicks w.timeout ≤ now.toNat - w.issued.toNat
      ∧ (expiry w < now.toNat ∨ reached (s.gate w.gate).value w.target = false)
    (∃ w, unmet w) → ∃ t w, exec (.gateTimeout i now) s = .next t ∧ unmet w ∧ (∀ v, unmet v → expiry w ≤ expiry v)
      ∧ (s.atTime now).faulted t i
        { code := cGateTimeout, d0 := w.gate, d1 := w.target.toNat + (w.seen.getD (s.gate w.gate).value).toNat * 2 ^ 32, d2 := w.timeout })
  ∧ (∀ (s : State) (i : Nat) (f : FaultInfo) (fs : List FaultInfo), s.agentsRun = true → s.atBoundary i = true →
    (s.agent i).boundary = f :: fs → (s.agent i).prog ≠ .faulted → (s.agent i).prog ≠ .resetting →
    ∃ t, exec (.boundaryFault i) s = .next t ∧ s.faulted t i f ∧ (t.agent i).boundary = fs)
  ∧ (∀ (s : State) (m : Nat) (now : Word64) (addr left timeout : Nat) (since : Word64), s.sundial.toNat ≤ now.toNat →
    s.agentsRun = true → m < 16 → (s.mover m).cmd = some (.xserve addr left since timeout) → (s.mover m).jobs = [] →
    usTicks timeout ≤ now.toNat - since.toNat →
    ∃ t, exec (.xserveTimeout m now) s = .next t ∧ (s.atTime now).faulted t (208 + m) { code := cXserveTimeout }
      ∧ (t.mover m).cmd = none)
  ∧ (∀ (s : State) (c : Nat) (now since : Word64) (timeout : Nat), s.sundial.toNat ≤ now.toNat → s.codecReady c = true →
    (s.codecCore c).waitSince = some (since, timeout) → (s.ctx (ctxOf (s.rdNat (s.agent (224 + c)).ip 64))).st = .active →
    usTicks timeout < now.toNat - since.toNat →
    ∃ t, exec (.codecCtxBusy c now) s = .next t ∧ (s.atTime now).faulted t (224 + c) { code := cCodecCtxBusy }))
  ∧ ((∀ (s : State) (a w : Nat), s.slotWord a = some w → opKnown (opOf w) = false → ∃ t, exec (.insnOpcode a) s = .next t
      ∧ s.faulted t a { code := cInsnOpcode } ∧ (t.agent a).ip = (s.agent a).ip)
  ∧ (∀ (s : State) (m w : Nat), s.moverReady m = true → s.fetchCmd (208 + m) cMoverFetch 64 mvBytes = .ok w →
      mvKnown (w % 256) = false → ∃ t, exec (.moverOpcode m) s = .next t
      ∧ s.faulted t (208 + m) { code := cMoverOpcode } ∧ (t.agent (208 + m)).ip = (s.agent (208 + m)).ip)
  ∧ (∀ (s : State) (c w : Nat), s.codecReady c = true → s.fetchCmd (224 + c) cCodecFetch 64 cdBytes = .ok w →
      cdKnown c (w % 256) = false → s.coreUnpowered c = false → ∃ t, exec (.codecOpcode c) s = .next t
      ∧ s.faulted t (224 + c) { code := cCodecOpcode } ∧ (t.agent (224 + c)).ip = (s.agent (224 + c)).ip)
  ∧ (∀ (s : State) (c : MboxCmd), s.alwaysOn = true → s.gatehouse.restarting = false → s.gatehouse.cmd = some c →
      mbKnown.contains c.code = false → ∃ t, exec .mboxOpcode s = .next t
      ∧ t.gatehouse.status = mbOpcode ∧ t.gatehouse.cmd = none
      ∧ t = { s with gatehouse := t.gatehouse }))

/-! ## Arrays (ch 03, 05) -/

/-- R127, R405, R406: WAKE keeps the gated blocks of agents FIRST to LAST awake until IDLE_HOLD after its time, which is BY_TIME,
or its issue when that is 0. A power-gated block whose die has not tripped begins to wake at once where that time is less than its
wake latency ahead, while all arrays that it names fit within 2,800 W, each with 3.4 W, in Lean 2.9 W (R408, Table 13-5); an
array's wake that does not is held (R410). A later wake is scheduled for its moment. A running block is unaffected, and no agent
outside that range but its own changes. -/
def Obligations.WakeWakesItsAgents : Prop :=
  ∀ (s : State) (a w : Nat), s.issues a opWake w → fieldAt w 2 0 8 ≤ fieldAt w 3 0 8 → fieldAt w 3 0 8 ≤ 229 →
    let first := fieldAt w 2 0 8
    let last := fieldAt w 3 0 8
    let time := if fieldAt w 8 0 64 = 0 then s.sundial.toNat else fieldAt w 8 0 64
    let until_ := BitVec.ofNat 64 (time + usTicks s.power.idleHold)
    let moment (i : Nat) := BitVec.ofNat 64 (time - wakeLatency i)
    let drawn := s.power.envelope + s.power.added
    let rise := if s.power.leanActive then 29000 else 34000
    ∃ t, exec (.wake a) s = .next t
      ∧ (∀ i, first ≤ i → i ≤ last → i ≠ a →
        ((s.agent i).gating = .running → t.agent i = s.agent i)
        ∧ ((s.agent i).gating ≠ .running →
            (t.agent i).awakeUntil = some (match (s.agent i).awakeUntil with
              | some x => if x.toNat < until_.toNat then until_ else x
              | none => until_)
            ∧ (t.agent i).prog = (s.agent i).prog ∧ (t.agent i).pending = (s.agent i).pending)
        ∧ ((s.agent i).gating = .powerGated → time < s.sundial.toNat + wakeLatency i → s.dieTripped i = false →
            ((isArray i = false ∨ drawn + rise * (last + 1 - first) ≤ 28000000) → (t.agent i).gating = .waking s.sundial)
            ∧ (isArray i = true → 28000000 < drawn + rise →
                (t.agent i).gating = .powerGated ∧ (t.agent i).heldWake = true ∧ t.power.capHold = true))
        ∧ ((s.agent i).gating ≠ .running → s.sundial.toNat + wakeLatency i ≤ time → (t.agent i).gating = (s.agent i).gating
            ∧ (t.agent i).wakeAt = some (match (s.agent i).wakeAt with
              | some x => if x.toNat < (moment i).toNat then x else moment i
              | none => moment i)))
      ∧ (∀ i, (i < first ∨ last < i) → i ≠ a → t.agent i = s.agent i)
      ∧ (t.agent a).ip = (s.agent a).ip + 32 ∧ (t.agent a).prog = (s.agent a).prog
      ∧ t.array a = { s.array a with place := (s.array a).place + 1, bridge := (t.array a).bridge }
      ∧ (∀ b, b ≠ a → t.array b = s.array b)
      ∧ t = { s with agents := t.agents, arrays := t.arrays, power := t.power, recovery := t.recovery }

/-- R122, R124: DLOAD fills entries FIRST to FIRST + COUNT − 1 of the array's descriptor table with the 64-byte words at its address,
and no other entry changes; here no channel that serves those words holds its requests (R414, R426). -/
def Obligations.DloadFillsDescriptors : Prop :=
  ∀ (s : State) (a w addr : Nat), s.issues a opDload w →
    let first := fieldAt w 2 0 12
    let count := fieldAt w 4 0 13
    0 < count → first + count ≤ 4096 → fieldAt w 0x10 0 48 % 64 = 0 →
    s.checkAccess (fieldAt w 8 0 24) (fieldAt w 0x10 0 48) (64 * count) false = .ok addr → s.poisonIn addr (64 * count) = none →
    s.descsFault first (s.words64 addr count) = none →
    s.heldIn (s.addrOf (fieldAt w 8 0 24) (fieldAt w 0x10 0 48)) (64 * count) = false →
    ∃ t, exec (.dload a) s = .next t
      ∧ (∀ k, k < count → (t.desc a (first + k)).word = s.rdNat (addr + 64 * k) 64)
      ∧ (∀ i, (i < first ∨ first + count ≤ i) → t.desc a i = s.desc a i)
      ∧ (∀ b, b ≠ a → t.array b = s.array b) ∧ (t.agent a).ip = (s.agent a).ip + 32

/-- R128, R129, R145: TLOAD, CTXSAVE and CTXLOAD issue: they are the array's newest instruction in flight and the array goes on.
R240: a TLOAD, with no earlier one of its table in flight, loads its shadow bank, and ends unless it is to switch the banks. R129,
R130, R325: once every instruction before it has completed, its signals among them (Table 03-18), CTXSAVE writes the array's image,
and CTXLOAD gives the array the tables, lane state and descriptors of an image that is whole, and with LS its local store. -/
def Obligations.TableAndContextIssue : Prop :=
  (∀ (s : State) (a w : Nat) (op : Nat) (c : Instr),
    (op, c) ∈ [(opTload, Instr.tload a), (opCtxsave, .ctxsave a), (opCtxload, .ctxload a)] → s.issues a op w →
    (op = opTload → fieldAt w 1 0 3 ≤ 2 ∧ (modBit w 3 = true ∨ slotUse w 8 = true) ∧ s.tloadFault a w = none) →
    (op ≠ opTload → fieldAt w 0x10 0 48 % 4096 = 0) →
    ∃ t f, exec c s = .next t
      ∧ (t.array a).flights = (s.array a).flights ++ [f]
      ∧ f.word = w ∧ f.addr = (s.agent a).ip ∧ f.place = (s.array a).place ∧ (t.array a).place = (s.array a).place + 1
      ∧ (t.agent a).ip = (s.agent a).ip + 32 ∧ s.onlyArray t a)
  ∧ (∀ (s : State) (a k : Nat) (f : Flight), s.agentsRun = true → a < 192 → (s.array a).flights[k]? = some f →
    let left (t : State) : Prop := (t.array a).flights = (s.array a).flights.filter fun g => decide (g.place ≠ f.place)
    let o := f.op 8
    let table := fieldAt f.word 1 0 3
    let ls := modBit f.word 0
    (f.code = opTload → f.loaded = false → (∀ g ∈ (s.array a).flights, g.place < f.place → g.code = opTload →
        fieldAt g.word 1 0 3 ≠ table) → s.heldIn o.base (4 * o.e 0) = false → s.poisonIn o.base (4 * o.e 0) = none →
      ∃ t, exec (.insnComplete a k) s = .next t
        ∧ (∀ i, i < o.e 0 → (t.array a).bankEntry (2 * table + 1) i = s.rdElem o i 0 0 0)
        ∧ (∀ b i, b ≠ 2 * table + 1 → (t.array a).bankEntry b i = (s.array a).bankEntry b i)
        ∧ (modBit f.word 3 = false → left t)
        ∧ (modBit f.word 3 = true → t.mem = s.mem
            ∧ (t.array a).flights = (s.array a).flights.map fun g => if g.place = f.place then { g with loaded := true } else g))
    ∧ (∀ addr, (f.code = opCtxsave ∨ f.code = opCtxload) → (∀ g ∈ (s.array a).flights, f.place ≤ g.place) →
      (∀ g ∈ (s.agent a).signals, g.insn = true → f.place < g.place) → s.waitHolds a f.place = false →
      s.heldIn (s.addrOf (fieldAt f.word 8 0 24) (fieldAt f.word 0x10 0 48)) (ctxBytes ls) = false →
      s.checkAccess (fieldAt f.word 8 0 24) (fieldAt f.word 0x10 0 48) (ctxBytes ls) (decide (f.code = opCtxsave)) = .ok addr →
      (f.code = opCtxload → s.poisonIn addr (ctxBytes ls) = none ∧ s.ctxFault addr ls = none) →
      ∃ t, exec (.insnComplete a k) s = .next t ∧ left t
        ∧ (f.code = opCtxsave → s.settled → ∀ b, ¬ s.inWindowOf a b →
            t.mem.byte? b = (s.mem.write ((s.ctxImage a ls).map fun e => (addr + e.1, e.2))).byte? b)
        ∧ (f.code = opCtxload →
            (∀ i, i < 4096 → (t.desc a i).word = s.rdNat (addr + 0x1000 + 64 * i) 64)
            ∧ (t.array a).banks = ((s.ctxApply a addr ls).array a).banks ∧ (t.array a).lanes = ((s.ctxApply a addr ls).array a).lanes
            ∧ (t.array a).keyBase = BitVec.ofNat 64 (s.rdNat (addr + 0x51008) 8)
            ∧ (s.settled → ∀ b, ¬ s.inWindowOf a b → t.mem.byte? b = (s.ctxApply a addr ls).mem.byte? b))))

/-- R204, Table 05-6, Table 05-7: TRDRY writes its 64-byte header at OUT and behind it the whole rows that fit, and touches no byte
outside its CAP bytes there, none past the end of the local store (the model's choice, log 126); it runs nothing: no register of the
array changes but its place. -/
def Obligations.TrdryWritesItsOutputOnly : Prop :=
  ∀ (s : State) (a w : Nat), s.issues a opTrdry w → (s.agent a).waits = [] → fieldAt w 8 0 23 % 32 = 0 → fieldAt w 0xC 0 23 % 64 = 0 →
    fieldAt w 0x10 0 32 % 64 = 0 → 64 ≤ fieldAt w 0x10 0 32 →
    s.lsPoison a (fieldAt w 8 0 23) 32 8 = none →
    (∀ e, s.trdryJudge a (s.rdNat (lsAddr a (fieldAt w 8 0 23)) 32) = .error e → e.1.code ≠ cMemPoison) →
    let out := lsAddr a (fieldAt w 0xC 0 23)
    let cap := min (fieldAt w 0x10 0 32) (lsBytes - fieldAt w 0xC 0 23)
    let d := s.dryRun a (s.rdNat (lsAddr a (fieldAt w 8 0 23)) 32) cap
    ∃ t, exec (.trdry a) s = .next t
      ∧ (∀ k, k < 64 → t.mem.byte? (out + k) = some (d.1.getD k 0))
      ∧ (∀ k b, d.2.flatten[k]? = some b → t.mem.byte? (out + 64 + k) = some b)
      ∧ s.sameOutside t out cap
      ∧ t.array a = { s.array a with place := (s.array a).place + 1, bridge := (t.array a).bridge }
      ∧ t.agent a = { s.agent a with
          ip := (s.agent a).ip + 32, lastProgress := s.sundial, watchLimit := (s.agent a).progressLimit, watchHeld := 0 }
      ∧ t = { s with agents := t.agents, arrays := t.arrays, mem := t.mem, free := t.free }

/-- The compute and copy instructions with their opcodes (Table 03-2). -/
def computeCommands (a : Nat) : List (Nat × Instr) :=
  [(opMm, .mm a), (opMmc, .mmc a), (opMmx, .mmx a), (opConv, .conv a), (opConvf, .convf a), (opAttn, .attn a), (opAttnb, .attnb a),
   (opPscore, .pscore a), (opKvexp, .kvexp a), (opVec, .vec a), (opRow, .row a), (opSfn, .sfn a), (opSort, .sort a), (opRng, .rng a),
   (opPool, .pool a), (opResize, .resize a), (opCopy, .copy a)]

/-- R124, R142, R145, R197, R262: a compute or copy instruction that passes the checks of orders 1 to 12 (R146) issues: it is the
array's newest instruction in flight, the session it names is pinned, the array goes on, and no byte outside its Trellis window
changes. R141: with four copies outstanding, a fifth COPY waits. -/
def Obligations.ComputeInstructionsIssue : Prop :=
  (∀ (s : State) (a w : Nat), s.slotWord a = some w → opOf w = opCopy →
    4 ≤ ((s.array a).flights.filter fun g => g.code == opCopy).length → exec (.copy a) s = .next s)
  ∧ ∀ (s : State) (a w op : Nat) (c : Instr) (f : Flight), (op, c) ∈ computeCommands a → s.slotWord a = some w → opOf w = op →
    (op = opCopy → ((s.array a).flights.filter fun g => g.code == opCopy).length < 4) →
    s.checkIssue a (s.array a).place (s.agent a).ip w = .ok f →
    ∃ t, exec c s = .next t
      ∧ (t.array a).flights.map (·.word) = (s.array a).flights.map (·.word) ++ [w]
      ∧ (t.array a).place = (s.array a).place + 1 ∧ (t.agent a).ip = (s.agent a).ip + 32
      ∧ (∀ i r, f.session = some (i, r) → (t.session i).pins = (s.session i).pins + 1)
      ∧ (f.session = none → t.sessions = s.sessions)
      ∧ (∀ b, b ≠ a → t.array b = s.array b ∧ ((b < 208 ∨ op ≠ opKvexp) → t.agent b = s.agent b))
      ∧ t.gates = s.gates ∧ (op ≠ opKvexp → t.objects = s.objects ∧ t.movers = s.movers)
      ∧ s.sameButWindow t a

/-- R146, R149: an instruction that fails a check at issue stops its array there: its record carries the fault that the checks found,
its own address and opcode, and the address does not advance; what was issued before it stays in flight. -/
def Obligations.IssueFaultStopsArray : Prop :=
  ∀ (s : State) (a w op : Nat) (c : Instr) (e : FaultInfo) (read : Bool), (op, c) ∈ computeCommands a → s.slotWord a = some w →
    opOf w = op → (op = opCopy → ((s.array a).flights.filter fun g => g.code == opCopy).length < 4) →
    s.checkIssue a (s.array a).place (s.agent a).ip w = .error (e, read) → (∀ f ∈ (s.array a).flights, f.place < (s.array a).place) →
    ∃ t, exec c s = .next t ∧ s.faulted t a e ∧ (t.agent a).ip = (s.agent a).ip
      ∧ ((s.agent a).fault = none → ∃ r, (t.agent a).fault = some r ∧ r.opcode = op ∧ r.addr = (s.agent a).ip)
      ∧ (t.array a).flights = (s.array a).flights

/-- R203, R209, R184 to R192: the next row of a unit of an array completes. A copy row counts. A compute row that finds no fault counts:
one of a product or of a CONV on the cells leaves the sums of its streams in the accumulators, or, with the last reduction tile, the
output tile in the store buffer; a CONVF's last layer leaves its tile there too; one that finds a fault stops the array with it. A
store row writes the bytes of its tile in the store buffer and of the row records that it completes, and no other; a row of a CONV on
the vector engine (kind 15) stores as it computes. A copy row, and a compute row but of kind 15, changes no byte of memory. R186: the
row's last weight tile is then the active one of the cells. A row whose bytes a channel holds waits (R414, R426). That a compute row
takes its operands from memory as it completes is the model's choice (log 6), and that the tile enters the buffer with the last
compute row while a copy row changes no byte is the model's reading of R198 (log 55). -/
def Obligations.TrellisRowsComplete : Prop :=
  ∀ (s : State) (a : Nat) (f : Flight) (r : TRow), s.agentsRun = true → a < 192 →
    let x := f.seedStreams a (s.array a)
    let sum := if f.code = opConv then s.convSum x f r else s.matSum x f r
    let st := f.grid.stepAt r.step
    let counted (t : State) (g : Flight → Nat) : Prop :=
      (t.array a).flights.map g = (s.array a).flights.map (fun h => g h + if h.place = f.place then 1 else 0)
      ∧ (t.agent a).lastProgress = s.sundial ∧ (∀ b, b ≠ a → t.array b = s.array b) ∧ (∀ i, i ≠ a → t.agent i = s.agent i)
      ∧ t = { s with agents := t.agents, arrays := t.arrays, mem := t.mem, free := t.free }
    let held (l : List (Nat × Byte)) : Bool := s.heldRuns (l.map fun e => (e.1, 1))
    (s.nextRow a .copy = some (f, r) →
      (s.heldRuns (f.copyRuns r) = true → exec (.trellisRowComplete a .copy) s = .next s)
      ∧ (s.heldRuns (f.copyRuns r) = false → ∃ t, exec (.trellisRowComplete a .copy) s = .next t
        ∧ counted t (·.copyDone) ∧ t.mem = s.mem))
    ∧ (s.nextRow a .compute = some (f, r) →
      (∀ e, s.rowFault f r = some e → ∃ t, exec (.trellisRowComplete a .compute) s = .next t ∧ s.faulted t a e)
      ∧ (s.rowFault f r = none → r.kind ≠ 15 → ∃ t, exec (.trellisRowComplete a .compute) s = .next t
        ∧ counted t (·.computeDone) ∧ t.mem = s.mem ∧ (t.array a).active = s.lastWeights f r
        ∧ (r.kind ≠ 8 → st.k2 + 1 < f.grid.nk → (t.array a).accs = sum.1 ∧ (t.array a).buffer = (s.array a).buffer)
        ∧ ((if r.kind = 8 then r.part + 1 = f.layers.length else f.grid.nk ≤ st.k2 + 1 ∧ st.stores = true) →
            (t.array a).accs = [] ∧ ∃ b, (t.array a).buffer = (s.array a).buffer ++ [b] ∧ b.place = f.place ∧ b.tile = r.tile))
      ∧ (s.rowFault f r = none → r.kind = 15 →
        let s1 := s.endTile a f r []
        ∀ g, (s1.array a).flights.find? (fun h => decide (h.place = f.place)) = some g →
        held (s1.tileBytes a g r) = false → (∀ e ∈ s1.tileBytes a g r, regionOf e.1 ≠ .control) →
        ∃ t, exec (.trellisRowComplete a .compute) s = .next t
        ∧ counted t (·.computeDone) ∧ (∀ b, t.mem.byte? b = (s.mem.write (s1.tileBytes a g r)).byte? b)))
    ∧ (s.nextRow a .store = some (f, r) → held (s.tileBytes a f r) = true → exec (.trellisRowComplete a .store) s = .next s)
    ∧ (s.nextRow a .store = some (f, r) → held (s.tileBytes a f r) = false → (∀ e ∈ s.tileBytes a f r, regionOf e.1 ≠ .control) →
      ∃ t, exec (.trellisRowComplete a .store) s = .next t
      ∧ counted t (·.storeDone)
      ∧ (∀ b, t.mem.byte? b = (s.mem.write (s.tileBytes a f r)).byte? b)
      ∧ (∀ b, (∀ e ∈ s.tileBytes a f r, e.1 ≠ b) → t.mem.byte? b = s.mem.byte? b)
      ∧ (t.array a).buffer = (s.array a).buffer.filter fun b => !(decide (b.place = f.place) && decide (b.tile = r.tile)))

/-- R113, R147: an instruction that is a no-op, or whose Trellis rows have all completed, ends: it leaves the flights, the session
that it pins is released, and with SIGNAL it signals its completion gate with release. An instruction without Trellis rows runs when
it ends, and so does a COPY: the bytes of its results are written, here or, with REMOTE, by the transactions that it sends; a COPY
to the session command port gives it one command (R258). A KVEXP posts its job while its mover's queue has room (R282). No other
byte changes but those of a Trellis window (R197). One whose bytes a channel holds waits (R414, R426). That it reads and writes all
its bytes as it completes is the model's choice (log 6); so is that a REMOTE COPY completes when it has sent its transactions (log
61), and a half of a byte that such a copy does not write is free (log 62). -/
def Obligations.InstructionsComplete : Prop :=
  ∀ (s : State) (a k : Nat) (f : Flight), s.agentsRun = true → a < 192 → (s.array a).flights[k]? = some f →
    s.waitHolds a f.place = false → opCompute f.code = true →
    let signal : Signal :=
      { gate := fieldAt f.word 4 0 17, inc := half16 f.word 2, release := true, node := none, place := f.place, issued := s.sundial }
    let held (l : List (Nat × Byte)) : Bool := s.heldRuns (l.map fun e => (e.1, 1))
    let window (b : Nat) : Prop := s.inWindowOf a b
      ∨ (lsAddr a (f.winBase * 65536) ≤ b ∧ b < lsAddr a (f.winBase * 65536) + f.winSize * 65536)
    let ended (t : State) (stores : List (Nat × Byte)) : Prop :=
      (t.array a).flights = (s.array a).flights.filter (fun g => decide (g.place ≠ f.place))
      ∧ (t.agent a).lastProgress = s.sundial
      ∧ (t.agent a).signals = (s.agent a).signals ++ (if bit f.word 49 then [signal] else [])
      ∧ (∀ i r, f.session = some (i, r) → (t.session i).pins = (s.session i).pins - 1)
      ∧ (f.session = none → t.sessions.recs = s.sessions.recs ∧ t.sessions.pages = s.sessions.pages)
      ∧ (s.quietPins a → t.gates = s.gates ∧ ∀ b, ¬ window b → t.mem.byte? b = (s.mem.write stores).byte? b)
    (((f.noop = true ∧ (f.serial = true → s.computeTurn a f.place = true))
        ∨ (f.noop = false ∧ f.hasRows = true ∧ f.next? .copy = none ∧ f.next? .compute = none ∧ f.next? .store = none)) →
      ∃ t, exec (.insnComplete a k) s = .next t ∧ ended t [])
    ∧ (f.noop = false → f.hasRows = false → f.code ≠ opCopy → f.code ≠ opKvexp → s.computeTurn a f.place = true →
      s.bankReady a f = true → (s.array a).paused = false →
      (s.heldRuns (s.readRuns f) = true → exec (.insnComplete a k) s = .next s)
      ∧ (s.heldRuns (s.readRuns f) = false → s.runFault f = none →
      let stores := s.storeBytes (s.runRes (f.seedStreams a ((s.array a).reseed a f)) f).stores
      held stores = false → (∀ e ∈ stores, regionOf e.1 ≠ .control) →
      ∃ t, exec (.insnComplete a k) s = .next t ∧ ended t stores))
    ∧ (f.noop = false → f.hasRows = false → f.code = opCopy → s.heldRuns f.copySpec.runs.1 = true →
      exec (.insnComplete a k) s = .next s)
    ∧ (f.noop = false → f.hasRows = false → f.code = opCopy → modBit f.word 2 = false → s.heldRuns f.copySpec.runs.1 = false →
      let stores := s.storeBytes (s.copyStores f.copySpec)
      held stores = false →
      ((∀ e ∈ stores, regionOf e.1 ≠ .control) → ∃ t, exec (.insnComplete a k) s = .next t ∧ ended t stores)
      ∧ (stores ≠ [] → (∀ e ∈ stores, regionOf e.1 = .control) →
        (s.sessions.port.length < 64 → ∃ t, exec (.insnComplete a k) s = .next t ∧ ended t []
          ∧ t.sessions.port = s.sessions.port ++ [leNat (stores.map (·.2))])
        ∧ (64 ≤ s.sessions.port.length → exec (.insnComplete a k) s = .next s)))
    ∧ (f.noop = false → f.hasRows = false → f.code = opCopy → modBit f.word 2 = true → s.heldRuns f.copySpec.runs.1 = false →
      let d := (f.op 0xA).word
      let c := { f.copySpec with dst := tOffset d }
      let e : RemoteEnd := { agent := a, node := fieldAt f.word 0xC 0 14, handle := tHandle d, place := f.place, issued := f.issued }
      let own := s.link.nodeValid = true ∧ e.node = s.link.nodeId
      let sent := storesOver (Config.undefByte s.free) (s.copyStores c)
      (∀ p code, s.blockPast e sent = some (p, code) → ∃ t, exec (.insnComplete a k) s = .next t ∧ ended t [] ∧ t.link = s.link
        ∧ (t.agent a).boundary = (s.agent a).boundary ++ [p.fault code (decide (¬ own))])
      ∧ (s.blockPast e sent = none → ¬ own → ∃ t, exec (.insnComplete a k) s = .next t ∧ ended t []
        ∧ t.link = (s.sendWrites e sent).link)
      ∧ (s.blockPast e sent = none → own → ∃ t, exec (.insnComplete a k) s = .next t ∧ t.link = s.link
        ∧ match s.blockRefused e (s.storeBytes (s.copyStores c)) with
          | none => ended t (s.storeBytes (s.copyStores { c with dst := s.addrOf e.handle c.dst }))
          | some (p, code) => ended t [] ∧ (t.agent a).boundary = (s.agent a).boundary ++ [p.fault code false]))
    ∧ (∀ i r, f.noop = false → f.code = opKvexp → f.session = some (i, r) →
      let m := fieldAt f.word 0xA 8 4
      (f.posted = false → (s.mover m).jobs.length < 8 → ∃ t, exec (.insnComplete a k) s = .next t
        ∧ (∃ j, (t.mover m).jobs = (s.mover m).jobs ++ [j] ∧ j.array = a ∧ j.place = f.place ∧ j.session = i ∧ j.snap = r
            ∧ j.layer = half16 f.word 0xC ∧ j.first = fieldAt f.word 0x10 0 32 ∧ j.count = fieldAt f.word 0x14 0 32
            ∧ j.node = fieldAt f.word 0xE 0 14 ∧ j.stream = fieldAt f.word 0x18 0 32 ∧ j.last = modBit f.word 0 ∧ j.sent = 0)
        ∧ (t.array a).flights = (s.array a).flights.map (fun g => if g.place = f.place then { g with posted := true } else g)
        ∧ (∀ i, i ≠ 208 + m → t.agent i = s.agent i)
        ∧ t = { s with agents := t.agents, movers := t.movers, arrays := t.arrays })
      ∧ ((f.posted = true ∨ 8 ≤ (s.mover m).jobs.length) → exec (.insnComplete a k) s = .next s))

/-- R240: a table's banks switch when the TLOAD with SWAP has loaded and no earlier instruction in flight uses the table: the active
bank holds what the shadow bank held, and the shadow bank what the active one held. -/
def Obligations.TableSwapExchangesBanks : Prop :=
  ∀ (s : State) (a table : Nat) (f : Flight), s.agentsRun = true → a < 192 →
    ((s.array a).flights.find? fun f => f.code == opTload && fieldAt f.word 1 0 3 == table) = some f → f.loaded = true →
    (∀ g ∈ (s.array a).flights, g.place < f.place → g.usesTable table = false) →
    ∃ t, exec (.tableSwap a table) s = .next t
      ∧ (∀ i, i < tableLen table → (t.array a).bankEntry (2 * table) i = (s.array a).bankEntry (2 * table + 1) i
          ∧ (t.array a).bankEntry (2 * table + 1) i = (s.array a).bankEntry (2 * table) i)
      ∧ (t.array a).flights = (s.array a).flights.filter (fun g => decide (g.place ≠ f.place))
      ∧ (∀ b, b ≠ a → t.array b = s.array b)
      ∧ (s.quietPins a → s.sameButWindow t a ∧ t.gates = s.gates)

/-! ## Movers (ch 02) -/

/-- R98, R101, R102: a mover's COPY that passes its checks pins the objects its handles name, once each, and is in execution, unless
its start would pass 2,800 W (R410): then it is held; one that fails a check stops the mover; one with an extent of 0 completes at
once. When a copy ends, its pins are released, which an evicted object waits for (R92), and with SIGNAL its gate is signalled with
release: a copy to this module's memory changes no byte but those it stores, and carries poison with it (R73); one to the session
command port gives it one command; a REMOTE one sends its transactions, or, on its own node, writes there (R103, R379). An ALLOC
with ZERO ends with its extent zeroed and its outcome record written (R105). A mover's command of any kind whose own fields fail a
check stops the mover (R97). A raw destination that has become read-only stops it too (R64), and a command whose bytes a channel
holds waits (R414, R426). That a copy reads and writes all its bytes as it completes is the model's choice (log 6), and so are the
order of its checks and the 64 bytes that the port takes as one command (log 30); a REMOTE one completes when it has sent its
transactions (log 61), and a half of a byte that it does not write is free (log 62). -/
def Obligations.MoverCopyPinsThenStores : Prop :=
  (∀ (s : State) (m w op : Nat) (c : Instr) (f : FaultInfo), (op, c) ∈ [(mvCopy, Instr.moverCopy m), (mvPromote, .promote m),
      (mvEvict, .evict m), (mvAlloc, .alloc m), (mvXserve, .xserve m), (mvGsig, .moverGsig m), (mvGwait, .moverGwait m),
      (mvFence, .moverFence m), (mvEnd, .moverEnd m)] →
    s.moverReady m = true → s.fetchCmd (208 + m) cMoverFetch 64 mvBytes = .ok w → w % 256 = op → mvFault op w = some f →
    ∃ t, exec c s = .next t ∧ s.faulted t (208 + m) f ∧ (t.agent (208 + m)).ip = (s.agent (208 + m)).ip) ∧
  (∀ (s : State) (m w : Nat), s.moverStarts m mvCopy w → (mvCopySpec w (fieldAt w 0x10 0 48) (fieldAt w 0x18 0 48)).count ≠ 0 →
    let handles := ((if modBit w 2 then [fieldAt w 4 0 24] else [fieldAt w 4 0 24, fieldAt w 8 0 24]).filter fun h => decide (h ≠ 0)).eraseDups
    let pins := (handles.map handleIndex).eraseDups
    let c := mvCopySpec w (fieldAt w 0x10 0 48) (fieldAt w 0x18 0 48)
    let source := s.checkEnd (fieldAt w 4 0 24) (fieldAt w 0x10 0 48) (c.places true) false
    let dest : Except FaultInfo Nat := if modBit w 2 then (match farEnd (fieldAt w 8 0 24) (c.places false) with
        | some f => .error f
        | none => .ok (fieldAt w 0x18 0 48))
      else s.checkEnd (fieldAt w 8 0 24) (fieldAt w 0x18 0 48) (c.places false) true
    (∀ src dst, s.pinFault handles = none → source = .ok src → dest = .ok dst →
      (s.power.envelope + s.power.added + 40000 ≤ 28000000 → ∃ t, exec (.moverCopy m) s = .next t
        ∧ t.mover m = { s.mover m with cmd := some (.copy (s.agent (208 + m)).ip w src dst pins), since := s.sundial }
        ∧ (∀ k, k ≠ m → t.mover k = s.mover k)
        ∧ (∀ i, t.obj i = { s.obj i with pins := (s.obj i).pins + if i ∈ pins then 1 else 0 })
        ∧ t.agent (208 + m) = { (s.agent (208 + m)).unheld s.sundial with ip := (s.agent (208 + m)).ip + 128 }
        ∧ (∀ i, i ≠ 208 + m → t.agent i = s.agent i)
        ∧ t = { s with agents := t.agents, movers := t.movers, objects := t.objects,
                       power := { s.power with added := s.power.added + 40000 } })
      ∧ (28000000 < s.power.envelope + s.power.added + 40000 → ∃ t, exec (.moverCopy m) s = .next t ∧ s.startHeld t (208 + m)))
    ∧ (∀ f, (s.pinFault handles = some f ∨ (s.pinFault handles = none ∧ (source = .error f ∨ ((∃ x, source = .ok x) ∧ dest = .error f)))) →
      ∃ t, exec (.moverCopy m) s = .next t ∧ s.faulted t (208 + m) f ∧ (t.agent (208 + m)).ip = (s.agent (208 + m)).ip))
  ∧ (∀ (s : State) (m w : Nat), s.moverStarts m mvCopy w →
      (mvCopySpec w (fieldAt w 0x10 0 48) (fieldAt w 0x18 0 48)).count = 0 → ∃ t, exec (.moverCopy m) s = .next t
      ∧ (t.agent (208 + m)).ip = (s.agent (208 + m)).ip + 128 ∧ s.onlyAgent t (208 + m)
      ∧ (t.agent (208 + m)).signals = (s.agent (208 + m)).signals ++ (if modBit w 3 then
          [{ gate := fieldAt w 0x64 0 17, inc := half16 w 0x68, release := true, node := none, place := 0, issued := s.sundial }]
          else []))
  ∧ (∀ (s : State) (m addr w src dst : Nat) (pins : List Nat), s.agentsRun = true → m < 16 →
      (s.mover m).cmd = some (.copy addr w src dst pins) →
      let c := mvCopySpec w src dst
      (s.moverHeld m = true → exec (.moverCopyComplete m) s = .next s)
      ∧ (∀ f, s.moverHeld m = false → s.copyRefused w src dst = some f →
        ∃ t, exec (.moverCopyComplete m) s = .next t ∧ s.faulted t (208 + m) f)
      ∧ (s.moverHeld m = false → s.copyRefused w src dst = none →
      let stores := s.storeBytes (s.copyStores c)
      let ended (t : State) (stores : List (Nat × Byte)) : Prop :=
        (t.mover m).cmd = none ∧ (∀ k, k ≠ m → t.mover k = s.mover k)
        ∧ (∀ i, (t.obj i).pins = (s.obj i).pins - pins.count i)
        ∧ (∀ i ∈ pins, (s.obj i).pins = pins.count i → ((s.obj i).st = .evicting → (t.obj i).st = .absent)
            ∧ ((s.obj i).st = .retaining → (t.obj i).st = .resident))
        ∧ (t.agent (208 + m)).signals = (s.agent (208 + m)).signals ++ (if modBit w 3 then
          [{ gate := fieldAt w 0x64 0 17, inc := half16 w 0x68, release := true, node := none, place := 0, issued := s.sundial }]
          else [])
        ∧ ((∀ i ∈ pins, (s.obj i).st ≠ .evicting ∧ (s.obj i).st ≠ .retaining) →
            t.gates = s.gates ∧ (∀ b, t.mem.byte? b = (s.mem.write stores).byte? b))
      (modBit w 2 = false → s.heldRuns (stores.map fun e => (e.1, 1)) = false →
        ((∀ e ∈ stores, regionOf e.1 ≠ .control) → ∃ t, exec (.moverCopyComplete m) s = .next t ∧ ended t stores
          ∧ (∀ u, u ∈ t.mem.poison ↔ u ∈ s.copyPoison c ∨ u ∈ (s.mem.write stores).poison))
        ∧ (stores ≠ [] → (∀ e ∈ stores, regionOf e.1 = .control) →
          (s.sessions.port.length < 64 → ∃ t, exec (.moverCopyComplete m) s = .next t ∧ ended t []
            ∧ t.sessions.port = s.sessions.port ++ [leNat (stores.map (·.2))])
          ∧ (64 ≤ s.sessions.port.length → exec (.moverCopyComplete m) s = .next s)))
      ∧ (modBit w 2 = true →
        let e : RemoteEnd :=
          { agent := 208 + m, node := fieldAt w 0xC 0 14, handle := fieldAt w 8 0 24, place := 0, issued := (s.mover m).since }
        let own := s.link.nodeValid = true ∧ e.node = s.link.nodeId
        let sent := storesOver (Config.undefByte s.free) (s.copyStores c)
        (∀ p code, s.blockPast e sent = some (p, code) → ∃ t, exec (.moverCopyComplete m) s = .next t ∧ ended t [] ∧ t.link = s.link
          ∧ (t.agent (208 + m)).boundary = (s.agent (208 + m)).boundary ++ [p.fault code (decide (¬ own))])
        ∧ (s.blockPast e sent = none → ¬ own → ∃ t, exec (.moverCopyComplete m) s = .next t ∧ ended t []
          ∧ t.link = (s.sendWrites e sent).link)
        ∧ (s.blockPast e sent = none → own → ∃ t, exec (.moverCopyComplete m) s = .next t ∧ t.link = s.link
          ∧ match s.blockRefused e stores with
            | none => ended t (s.storeBytes (s.copyStores { c with dst := s.addrOf e.handle dst }))
            | some (p, code) => ended t []
                ∧ (t.agent (208 + m)).boundary = (s.agent (208 + m)).boundary ++ [p.fault code false]))))
  ∧ (∀ (s : State) (m addr i : Nat) (r : Report), s.agentsRun = true → m < 16 → (s.mover m).cmd = some (.zero addr r i) →
      s.moverHeld m = false →
      let first := (s.obj i).base * 65536
      let bytes := (s.obj i).blocks * 65536
      (∀ f, s.reportFault r = some f → ∃ t, exec (.moverCopyComplete m) s = .next t ∧ s.faulted t (208 + m) f)
      ∧ (s.reportFault r = none → r.status + 8 ≤ stackTop → ∃ t, exec (.moverCopyComplete m) s = .next t
        ∧ (t.mover m).cmd = none
        ∧ (r.status ≠ 0 → t.rdNat r.status 8 = (outDone + r.handle * 256) % 2 ^ 64)
        ∧ (∀ b, (r.status = 0 ∨ b < r.status ∨ r.status + 8 ≤ b) →
            t.mem.byte? b = if (s.obj i).st.reachable ∧ first ≤ b ∧ b < first + bytes then some 0 else s.mem.byte? b)
        ∧ (t.agent r.agent).signals = (s.agent r.agent).signals ++ (match r.signal with
            | some (g, inc) => [{ gate := g, inc := inc, release := true, node := none, place := 0, issued := s.sundial }]
            | none => [])
        ∧ t.objects = s.objects ∧ t.gates = s.gates))

/-- Table 02-9 (R91 to R93, R104, R105): PROMOTE, EVICT and ALLOC on an object in each of its states, where no check fails: what the
object and its domain's charge become, the outcome record, and the signal. A promotion that copies, and an allocation that zeros, is
in execution, unless its start would pass 2,800 W (R410): then it is held. Each check that fails stops the mover with its code. That
a promotion moves the charge from EVICTING only is the model's choice (log 131). -/
def Obligations.PlacementFollowsObjectStates : Prop :=
  ∀ (s : State) (m w : Nat),
    let i := handleIndex (fieldAt w 4 0 24)
    let o := s.obj i
    let d := fieldAt w 2 0 8
    let base := fieldAt w 8 0 24
    let status := fieldAt w 0x10 0 48
    let room (q : Prop) : Prop := s.power.envelope + s.power.added + 40000 ≤ 28000000 → q
    let held (c : Instr) : Prop := 28000000 < s.power.envelope + s.power.added + 40000 → ∃ t, exec c s = .next t ∧ s.startHeld t (208 + m)
    let passes (t : State) : Prop := (t.agent (208 + m)).ip = (s.agent (208 + m)).ip + 64 ∧ ∀ j, j ≠ i → t.obj j = s.obj j
    let stays (t : State) : Prop := passes t ∧ t.agent (208 + m) = { (s.agent (208 + m)).unheld s.sundial with
        ip := (s.agent (208 + m)).ip + 64 }
      ∧ t.power = { s.power with added := s.power.added + 40000 } ∧ t.gates = s.gates
    let silent (t : State) : Prop := passes t ∧ t.mem = s.mem ∧ (t.agent (208 + m)).signals = (s.agent (208 + m)).signals
      ∧ t.movers = s.movers ∧ t.power = s.power
    let reports (t : State) (outcome : Nat) : Prop := passes t ∧ t.movers = s.movers ∧ t.power = s.power ∧ t.gates = s.gates
      ∧ (status ≠ 0 → t.rdNat status 8 = outcome + fieldAt w 4 0 24 * 256)
      ∧ (t.agent (208 + m)).signals = (s.agent (208 + m)).signals ++ (if modBit w 0 then
          [{ gate := fieldAt w 0x18 0 17, inc := half16 w 0x1C, release := true, node := none, place := 0, issued := s.sundial }]
          else [])
    let recorded (t : State) : Prop := ∀ b, (status = 0 ∨ b < status ∨ status + 8 ≤ b) → t.mem.byte? b = s.mem.byte? b
    let stops (c : Instr) (f : FaultInfo) : Prop := ∃ t, exec c s = .next t ∧ s.faulted t (208 + m) f
      ∧ ((s.mover m).jobs = [] → t.objects = s.objects)
    (s.moverStarts m mvPromote w →
      (∀ f, s.placeFault w = some f → stops (.promote m) f)
      ∧ (s.placeFault w = none →
        (o.kind = false → stops (.promote m) (fieldFault cMoverOperand 4 0))
        ∧ (o.kind = true →
          (o.st = .absent → (∀ f, s.extentFault (fieldAt w 4 0 24) d base = some f → stops (.promote m) f)
            ∧ (s.extentFault (fieldAt w 4 0 24) d base = none → held (.promote m) ∧ room (∃ t, exec (.promote m) s = .next t ∧ stays t
              ∧ t.obj i = { o with st := .promoting, base := base, charge := d }
              ∧ (t.quota d).stackUsed = (s.quota d).stackUsed + o.blocks ∧ (∀ e, e ≠ d → t.quota e = s.quota e)
              ∧ (t.mover m).cmd = some (.promote (s.agent (208 + m)).ip (placeReport m w) i)
              ∧ s.sameOutside t (base * 65536) (o.blocks * 65536))))
          ∧ (o.st = .promoting → ∃ t, exec (.promote m) s = .next t ∧ silent t
            ∧ t.obj i = { o with joined := o.joined ++ [placeReport m w] } ∧ t.objects.quotas = s.objects.quotas)
          ∧ (o.st = .evicting → o.charge = d → ∃ t, exec (.promote m) s = .next t ∧ reports t outJoined ∧ recorded t
            ∧ t.obj i = { o with st := .retaining } ∧ t.objects.quotas = s.objects.quotas)
          ∧ (o.st = .evicting → o.charge ≠ d →
            ((s.quota d).stackLimit < (s.quota d).stackUsed + o.blocks → stops (.promote m) { code := cQuotaExceeded })
            ∧ ((s.quota d).stackUsed + o.blocks ≤ (s.quota d).stackLimit → ∃ t, exec (.promote m) s = .next t
              ∧ reports t outJoined ∧ recorded t ∧ t.obj i = { o with st := .retaining, charge := d }
              ∧ (t.quota d).stackUsed = (s.quota d).stackUsed + o.blocks
              ∧ (t.quota o.charge).stackUsed = (s.quota o.charge).stackUsed - o.blocks))
          ∧ (o.st = .resident ∨ o.st = .retaining → ∃ t, exec (.promote m) s = .next t ∧ reports t outJoined ∧ recorded t
            ∧ t.objects = s.objects))))
    ∧ (s.moverStarts m mvEvict w →
      (∀ f, s.placeFault w = some f → stops (.evict m) f)
      ∧ (s.placeFault w = none →
        (o.st = .absent → ∃ t, exec (.evict m) s = .next t ∧ reports t outNoop ∧ recorded t ∧ t.objects = s.objects)
        ∧ (o.st = .resident → o.pins = 0 → ∃ t, exec (.evict m) s = .next t ∧ reports t outDone
          ∧ t.obj i = { o with st := .absent }
          ∧ (t.quota o.charge).stackUsed = (s.quota o.charge).stackUsed - o.blocks
          ∧ (∀ b, (status = 0 ∨ b < status ∨ status + 8 ≤ b) → (b < o.base * 65536 ∨ (o.base + o.blocks) * 65536 ≤ b) →
              t.mem.byte? b = s.mem.byte? b))
        ∧ (o.st = .resident → o.pins ≠ 0 → ∃ t, exec (.evict m) s = .next t ∧ silent t
          ∧ t.obj i = { o with st := .evicting, held := o.held ++ [placeReport m w] } ∧ t.objects.quotas = s.objects.quotas)
        ∧ (o.st = .promoting ∨ o.st = .evicting ∨ o.st = .retaining → ∃ t, exec (.evict m) s = .next t
          ∧ silent t ∧ t.obj i = { o with held := o.held ++ [placeReport m w] } ∧ t.objects.quotas = s.objects.quotas)))
    ∧ (s.moverStarts m mvAlloc w →
      (∀ f, s.placeFault w = some f → stops (.alloc m) f)
      ∧ (s.placeFault w = none →
        (o.kind = true → stops (.alloc m) (fieldFault cMoverOperand 4 0))
        ∧ (o.kind = false →
          (o.st = .absent → (∀ f, s.extentFault (fieldAt w 4 0 24) d base = some f → stops (.alloc m) f)
            ∧ (s.extentFault (fieldAt w 4 0 24) d base = none →
              let placed (t : State) : Prop := t.obj i = { o with st := .resident, base := base, charge := d }
                ∧ (t.quota d).stackUsed = (s.quota d).stackUsed + o.blocks ∧ (∀ e, e ≠ d → t.quota e = s.quota e)
              (modBit w 1 = false → ∃ t, exec (.alloc m) s = .next t ∧ reports t outDone ∧ placed t
                ∧ ∀ b, (status = 0 ∨ b < status ∨ status + 8 ≤ b) → (b < base * 65536 ∨ (base + o.blocks) * 65536 ≤ b) →
                  t.mem.byte? b = s.mem.byte? b)
              ∧ (modBit w 1 = true → held (.alloc m) ∧ room (∃ t, exec (.alloc m) s = .next t ∧ stays t ∧ placed t
                ∧ (t.mover m).cmd = some (.zero (s.agent (208 + m)).ip (placeReport m w) i)
                ∧ s.sameOutside t (base * 65536) (o.blocks * 65536)))))
          ∧ (o.st = .evicting → stops (.alloc m) { code := cObjEvicting, d0 := fieldAt w 4 0 24 })
          ∧ (o.st = .resident ∨ o.st = .promoting ∨ o.st = .retaining → ∃ t, exec (.alloc m) s = .next t
            ∧ reports t outNoop ∧ recorded t ∧ t.objects = s.objects))))

/-- Table 02-9, R91, R92, R95, R105: when a promotion's copy is done, the bytes of the object's stripes stand in its extent; the
object is RETAINING while evictions are held on it and pins remain, and RESIDENT otherwise, its held evictions superseded; the
joined promotions complete; the mover's own outcome record and signal come last and the mover is free. Table 02-10, R106: an XSERVE
waits for jobs from now on, unless its start would pass 2,800 W (R410). R282 to R284, R397: the oldest job's next frame goes to the
job's port as EXPORT transactions of at most 4 KiB that carry its bytes in order, once the frame before it has been transmitted; a
read that is refused stops the mover, and a lost route ends the job. When a frame's last part has been transmitted, the job and the
XSERVE count it; a frame to this module's own node counts at once, and a job's last one ends the job. A command or frame whose bytes
a channel holds waits (R414, R426). That a frame has been transmitted with the train that carries its last part, and that the next
one begins only then, is the model's choice (log 141); so are the reads of a frame as it begins (log 69), the order of its
transactions (log 73) and the port of a job on a changed route (log 142). -/
def Obligations.PromotionsAndExportsGoOn : Prop :=
  (∀ (s : State) (m addr i : Nat) (r : Report), s.agentsRun = true → m < 16 → (s.mover m).cmd = some (.promote addr r i) →
    let o := s.obj i
    let retained := o.held ≠ [] ∧ 0 < o.pins
    let done := o.joined ++ if o.held ≠ [] ∧ 0 < o.pins then [] else o.held
    let source := iceBase + o.stripe * 262144
    let first := o.base * 65536
    (s.moverHeld m = true → exec (.promotionCopyDone m) s = .next s) ∧ (s.moverHeld m = false → (∀ f, s.reportFault r = some f → ∃ t, exec (.promotionCopyDone m) s = .next t ∧ s.faulted t (208 + m) f)
    ∧ (s.reportFault r = none → ∃ t, exec (.promotionCopyDone m) s = .next t
      ∧ ((retained ∧ t.obj i = { o with st := .retaining, joined := [] })
          ∨ (¬ retained ∧ t.obj i = { o with st := .resident, held := [], joined := [] }))
      ∧ (∀ j, j ≠ i → t.obj j = s.obj j) ∧ t.objects.quotas = s.objects.quotas
      ∧ (t.mover m).cmd = none
      ∧ (r.status ≠ 0 → r.status + 8 ≤ stackTop → t.rdNat r.status 8 = (outDone + r.handle * 256) % 2 ^ 64)
      ∧ (t.agent r.agent).signals = (s.agent r.agent).signals ++ (match r.signal with
          | some (g, inc) => [{ gate := g, inc := inc, release := true, node := none, place := 0, issued := s.sundial }]
          | none => [])
      ∧ (∀ g, (t.gate g).value = (s.gate g).value + BitVec.ofNat 32 (done.map fun j => match j.signal with
          | some (h, n) => if h = g then n else 0
          | none => 0).sum)
      ∧ (s.mem.wf = true → ∀ b, (∀ j ∈ r :: done, j.status = 0 ∨ b < j.status ∨ j.status + 8 ≤ b) →
          t.mem.byte? b = if first ≤ b ∧ b < first + o.size then (match s.mem.byte? (source + (b - first)) with
              | some x => some x
              | none => s.mem.byte? b)
            else s.mem.byte? b))))
  ∧ (∀ (s : State) (m w : Nat), s.moverStarts m mvXserve w →
      (s.power.envelope + s.power.added + 40000 ≤ 28000000 → ∃ t, exec (.xserve m) s = .next t
        ∧ t.mover m = { s.mover m with cmd := some (.xserve (s.agent (208 + m)).ip (fieldAt w 4 0 32) s.sundial
            (if fieldAt w 8 0 24 = 0 then (s.agent (208 + m)).gateTimeout else fieldAt w 8 0 24)) }
        ∧ (∀ k, k ≠ m → t.mover k = s.mover k)
        ∧ t.agent (208 + m) = { (s.agent (208 + m)).unheld s.sundial with ip := (s.agent (208 + m)).ip + 64 }
        ∧ (∀ i, i ≠ 208 + m → t.agent i = s.agent i)
        ∧ t = { s with agents := t.agents, movers := t.movers, power := { s.power with added := s.power.added + 40000 } })
      ∧ (28000000 < s.power.envelope + s.power.added + 40000 → ∃ t, exec (.xserve m) s = .next t ∧ s.startHeld t (208 + m)))
  ∧ (∀ (s : State) (m addr left timeout : Nat) (since : Word64) (j : ExportJob) (rest : List ExportJob),
      s.agentsRun = true → m < 16 → (s.mover m).cmd = some (.xserve addr left since timeout) → (s.mover m).jobs = j :: rest →
      let counted (t : State) : Prop := (t.mover m).cmd = (if left = 1 then none else some (.xserve addr (left - 1) s.sundial timeout))
        ∧ (t.agent (208 + m)).lastProgress = s.sundial
      ((j.under = true ∨ s.jobHeld j = true ∨ s.pageHeld j = true) → exec (.exportFrame m) s = .next s)
      ∧ (j.under = false → s.jobHeld j = false → s.pageHeld j = false →
        (∀ f, s.frameRefused j = some f → ∃ t, exec (.exportFrame m) s = .next t ∧ s.faulted t (208 + m) f)
        ∧ (∀ code, s.frameRefused j = none → s.jobPort j = .error code → ∃ t, exec (.exportFrame m) s = .next t
          ∧ (∀ k ∈ (t.mover m).jobs, k ∈ rest)
          ∧ (isArray j.array = true → (∃ f ∈ (s.array j.array).flights, f.place = j.place) →
              s.faulted t j.array { code := cExportAborted, d0 := m, d1 := j.sent + j.count * 2 ^ 32, d2 := code }))
        ∧ (∀ p, s.frameRefused j = none → s.jobPort j = .ok (some p) → ∃ t l, exec (.exportFrame m) s = .next t
          ∧ (t.port p).out = (s.port p).out ++ l ∧ (∀ q, q ≠ p → t.port q = s.port q)
          ∧ l.flatMap (fun x => x.data.map (·.2)) = (s.frame j).1
          ∧ (∀ x ∈ l, x.hdr.kind = tExport ∧ x.hdr.dst = j.node ∧ x.hdr.src = s.link.nodeId ∧ x.hdr.w1 = j.stream
              ∧ x.data.length ≤ 4096 ∧ x.flow = 0x300 + m)
          ∧ t.mover m = { s.mover m with jobs := { j with port := some p, under := true } :: rest }
          ∧ ((s.frame j).2 = false → t.recovery = s.recovery)
          ∧ t = { s with movers := t.movers, link := t.link, recovery := t.recovery, free := t.free })
        ∧ (s.frameRefused j = none → s.jobPort j = .ok none → ∃ t, exec (.exportFrame m) s = .next t ∧ counted t
          ∧ (j.sent + 1 ≠ j.count → (t.mover m).jobs = { j with sent := j.sent + 1, port := none, under := false } :: rest
              ∧ t.mem = s.mem ∧ t.gates = s.gates ∧ t.objects = s.objects ∧ t.arrays = s.arrays)
          ∧ (j.sent + 1 = j.count → (t.mover m).jobs = rest
              ∧ (t.array j.array).flights = (s.array j.array).flights.filter fun f => decide (f.place ≠ j.place))))
      ∧ (∀ (p : Nat) (now : Word64), s.sundial.toNat ≤ now.toNat → s.linked p = true → (s.port p).equalising = false →
        (s.port p).resend = [] → j.under = true → j.port = some p → j.sent + 1 ≠ j.count →
        (((s.port p).train.txns.foldl (fun l t => l.erase t) (s.port p).out).any fun t => decide (t.flow = 0x300 + m)) = false →
        let u := ((s.atTime now) : State).rollWindow p
        (u.port p).heldBytes + (u.trainBytes (u.port p) (u.port p).train).length ≤ replayBytes →
        ∃ t, exec (.controlFlitTimer p now) s = .next t
          ∧ (t.mover m).jobs = { j with sent := j.sent + 1, under := false } :: rest
          ∧ (t.mover m).cmd = (if left = 1 then none else some (.xserve addr (left - 1) now timeout))))

/-! ## Sessions (ch 07) -/

/-- Table 07-5 (R255 to R260): an accepted session command has its effect on its record and the page map, a refused one has none;
either way its outcome record is written where its address admits it, its gate is signalled, and it leaves the port; no other byte
changes. A command whose code the table does not list is refused. A core's store that waited for the port may take its place (R334),
and then one that it made to its own port behind it takes effect (log 155). Here no host transaction waits for the port, and no
channel holds the outcome record (R414, R426). -/
def Obligations.SessionCommandsTakeEffect : Prop :=
  ∀ (s : State) (w : Nat) (rest : List Nat), s.sessions.port = w :: rest → s.agentsRun = true → s.sessions.waiting = [] →
    s.heldIn (fieldAt w 8 0 48) (if fieldAt w 8 0 48 = 0 then 0 else 8) = false →
    let i := fieldAt w 2 0 14
    let r := s.session i
    let status := fieldAt w 8 0 48
    let ends (t : State) (outcome : Nat) : Prop := (∃ l, t.sessions.port = rest ++ l)
      ∧ ((∀ k, (s.core k).stores = []) → t.sessions.port = rest)
      ∧ (∀ j, j ≠ i → t.session j = s.session j)
      ∧ (status ≠ 0 → status + 8 ≤ stackTop → s.checkBlocks 0 status 8 true = none → t.rdNat status 8 =
          (outcome + i * 256 + (if w % 256 = 1 then (t.session i).gen else (t.session i).len) * 2 ^ 32) % 2 ^ 64)
      ∧ (∀ b, (status = 0 ∨ b < status ∨ status + 8 ≤ b) → t.mem.byte? b = s.mem.byte? b)
      ∧ ((∀ k, (s.core k).portHeld = false) → t.recovery = s.recovery ∧ ∀ g, (t.gate g).value = (s.gate g).value + BitVec.ofNat 32
          (if modBit w 0 ∧ g = fieldAt w 0x10 0 17 then half16 w 0x14 else 0))
      ∧ t = { s with sessions := t.sessions, mem := t.mem, gates := t.gates, agents := t.agents, cluster := t.cluster,
                     recovery := t.recovery, free := t.free }
    (∀ c cmd, (cmd, c) ∈ [(1, Instr.sessionOpen), (2, .map), (3, .commit), (4, .truncate), (5, .sessionClose)] →
      (w % 256 = cmd ∨ w % 256 = 0 ∨ 5 < w % 256) →
      s.sessionCheck w ≠ seDone → ∃ t, exec c s = .next t ∧ ends t (s.sessionCheck w) ∧ t.session i = r
        ∧ t.sessions.pages = s.sessions.pages)
    ∧ ((w % 256 = 0 ∨ 5 < w % 256) → s.sessionCheck w = seFormat)
    ∧ (s.sessionCheck w = seDone →
      (w % 256 = 1 → ∃ t, exec .sessionOpen s = .next t ∧ ends t seDone ∧ t.session i = openRecord w r
        ∧ (∀ e, ((t.session i).pmBase ≤ e ∧ e < (t.session i).pmEnd → (t.page e).valid = false)
            ∧ ((e < (t.session i).pmBase ∨ (t.session i).pmEnd ≤ e) → t.page e = s.page e)))
      ∧ (w % 256 = 2 → ∃ t, exec .map s = .next t ∧ ends t seDone ∧ t.session i = r
        ∧ (let first := r.pmBase + fieldAt w 0x18 0 8 * r.pagesPerLayer + fieldAt w 0x1C 0 23
          (∀ k, k < fieldAt w 0x20 0 23 → (t.page (first + k)).valid = (!bit (fieldAt w 0x28 0 1) 0)
            ∧ (bit (fieldAt w 0x28 0 1) 0 = false → fieldAt w 0x24 0 22 + k < 2 ^ 22 →
                (t.page (first + k)).frame = fieldAt w 0x24 0 22 + k))
          ∧ ∀ e, (e < first ∨ first + fieldAt w 0x20 0 23 ≤ e) → t.page e = s.page e))
      ∧ (w % 256 = 3 → ∃ t, exec .commit s = .next t ∧ ends t seDone ∧ t.session i = { r with len := fieldAt w 0x18 0 32 }
        ∧ t.sessions.pages = s.sessions.pages)
      ∧ (w % 256 = 4 → ∃ t, exec .truncate s = .next t ∧ ends t seDone ∧ t.session i = { r with len := fieldAt w 0x18 0 32 }
        ∧ t.sessions.pages = s.sessions.pages)
      ∧ (w % 256 = 5 → ∃ t, exec .sessionClose s = .next t ∧ ends t seDone ∧ t.session i = { r with valid := false }
        ∧ t.sessions.pages = s.sessions.pages))

/-! ## Host-class cores (ch 10) -/

/-- R333, R334, Table 10-2: what an access of a core does in each region, at the device address `a` that `va` translates to (the
translation is the RISC-V architecture's: the model's choice, log 10). A local store is read and written uncached, bytes
little-endian (R14); stack memory goes through the coherent caches (R331): a load, an atomic and a store-conditional get the
register, a store stays in the caches, where a load of the core finds it, memory is unchanged, and other cores' reservations on the
line end; of a load or store across the end of stack memory each part goes its region's way, and any other access there traps; the
Icehouse is read only; a 64-byte store to the session command port joins the port, or waits while it is full. An access that the
table does not allow, one to a stopped stack, a load or fetch that reads a poisoned line (R336) and a store into a read-only block
(R335) stop the core, with the pc in its record (R341). One whose line a channel holds waits (R414, R426). Which access stops with
which code where several apply, and that an AMO reads, is the model's (log 29, log 68); here the L3 has room for the lines (log
133). -/
def Obligations.CoreAccessesReadAndWrite : Prop :=
  ∀ (s : State) (k va a : Nat), s.coreRuns k = true →
    let pc (op : CoreOp) : Nat := match op with
      | .fetch => va % 2 ^ 64
      | _ => (s.core k).pc.toNat
    let stops (op : CoreOp) (f : FaultInfo) : Prop := ∃ t, exec (.coreAccess k op va) s = .next t ∧ s.faulted t (192 + k) f ∧ s.sameBytes t
      ∧ ((s.agent (192 + k)).fault = none → ∃ r, (t.agent (192 + k)).fault = some r ∧ r.opcode = 0 ∧ r.addr = pc op)
    let regs (t : State) (c : HostCore) : Prop := (t.core k).x = c.x ∧ (t.core k).f = c.f ∧ (t.core k).v = c.v
    let cached (t : State) : Prop := t = { s with agents := t.agents, cluster := t.cluster }
      ∧ (∀ i, i ≠ 192 + k → t.agent i = s.agent i) ∧ (t.agent (192 + k)).prog = .running
    let freed (t : State) : Prop := ∀ j, j ≠ k →
      (t.core j).reservation = if (s.core j).reservation = some (a / 64) then none else (s.core j).reservation
    let stored (t : State) : Prop := cached t ∧ freed t
    let old (n : Nat) : Nat := s.cachedNat k a n
    -- the access reaches `a`, in a region of memory that serves all its bytes, and no channel holds a line of it
    let goes (op : CoreOp) : Prop := accessStart op va = va ∧ s.physical k op va = .ok a ∧ checkMapped a (opBytes op) false = none
      ∧ s.fillHeld k a (opBytes op) = false ∧ s.cluster.l3.length + 2 * (unitsOf a (opBytes op)).length ≤ l3Lines
    let inStack (op : CoreOp) : Prop := goes op ∧ regionOf a = .stack ∧ a + opBytes op ≤ stackTop ∧ s.stoppedIn a (opBytes op) = none
    (∀ op, (∀ o n v rd, op ≠ .csr o n v rd) → op ≠ .sret → accessStart op va = va → s.physical k op va = .ok a →
      let n := opBytes op
      (regionOf a = .unmapped → stops op { code := cAddrUnmapped, d1 := a })
      ∧ (regionOf a ≠ .control → regionOf a ≠ .unmapped →
        (∀ f, checkMapped a n false = some f → stops op f)
        ∧ (checkMapped a n false = none → s.fillHeld k a n = true → exec (.coreAccess k op va) s = .next s))
      ∧ (regionOf a = .stack → checkMapped a n false = none → s.fillHeld k a n = false → a + n ≤ stackTop →
        ((s.stoppedIn a n).isSome = true → stops op { code := cStackOvertemp })
        ∧ (∀ x, s.stoppedIn a n = none → (∀ n v, op ≠ .store n v) → op ≠ .zero → (∀ n v rd, op ≠ .sc n v rd) →
            s.poisonSeen k a n = some x → stops op { code := cMemPoison, d1 := x })
        ∧ (∀ x, s.stoppedIn a n = none → s.takeRefused k a n = some x →
            (op = .zero ∨ (∃ n v, op = .store n v) ∨ (s.poisonSeen k a n = none ∧ ∃ o n v rd, op = .amo o n v rd)
              ∨ ((∃ n v rd, op = .sc n v rd) ∧ (s.core k).reservation = some (a / 64))) →
            stops op { code := cObjReadOnly, d1 := x, d2 := a + n - 1 })))
    ∧ (∀ n sg rd, goes (.load n sg rd) → regionOf a = .local_ →
      (∀ x, s.poisonIn a n = some x → stops (.load n sg rd) { code := cMemPoison, d1 := max a x })
      ∧ (s.poisonIn a n = none → ∃ t, exec (.coreAccess k (.load n sg rd) va) s = .next t ∧ cached t
        ∧ t.core k = (s.core k).setReg rd n sg (s.rdNat a n) ∧ ∀ j, j ≠ k → t.core j = s.core j))
    ∧ (∀ n v, goes (.store n v) → regionOf a = .local_ → ∃ t, exec (.coreAccess k (.store n v) va) s = .next t
      ∧ (∀ j, j < n → t.mem.byte? (a + j) = some (BitVec.ofNat 8 (v >>> (8 * j)))) ∧ s.sameOutside t a n
      ∧ t = { s with agents := t.agents, mem := t.mem })
    ∧ (goes .zero → regionOf a = .local_ → ∃ t, exec (.coreAccess k .zero va) s = .next t
      ∧ (∀ j, j < 64 → t.mem.byte? (64 * (a / 64) + j) = some 0) ∧ s.sameOutside t (64 * (a / 64)) 64
      ∧ t = { s with agents := t.agents, mem := t.mem })
    ∧ (∀ op, (op = .fetch ∨ (∃ o n v rd, op = .amo o n v rd) ∨ (∃ n rd, op = .lr n rd) ∨ (∃ n v rd, op = .sc n v rd)) → goes op →
      (regionOf a = .local_ ∨ regionOf a = .ice ∨ (regionOf a = .stack ∧ stackTop < a + opBytes op
        ∧ s.stoppedIn a (stackTop - a) = none)) → stops op { code := cHostTrap, d0 := accessCause op, d1 := va })
    ∧ (∀ op, (op = .zero ∨ ∃ n v, op = .store n v) → goes op → regionOf a = .ice → stops op { code := cIceWrite })
    ∧ (∀ n sg rd, goes (.load n sg rd) → (inStack (.load n sg rd) ∨ (regionOf a = .ice ∧ s.stoppedIn a n = none)) →
      s.poisonSeen k a n = none → ∃ t, exec (.coreAccess k (.load n sg rd) va) s = .next t ∧ cached t
      ∧ regs t ((s.core k).setReg rd n sg (old n)) ∧ (t.core k).pc = (s.core k).pc)
    ∧ (inStack .fetch → s.poisonSeen k a 4 = none →
      ∃ t, exec (.coreAccess k .fetch va) s = .next t ∧ cached t ∧ regs t (s.core k) ∧ (t.core k).pc = BitVec.ofNat 64 va)
    ∧ (∀ n v, inStack (.store n v) → s.takeRefused k a n = none →
      ∃ t, exec (.coreAccess k (.store n v) va) s = .next t ∧ cached t ∧ regs t (s.core k)
      ∧ (a % 64 + n ≤ 64 → 0 < n → stored t ∧ t.cachedNat k a n = v % 2 ^ (8 * n)))
    ∧ (inStack .zero → a % 64 = 0 → s.takeRefused k a 64 = none →
      ∃ t, exec (.coreAccess k .zero va) s = .next t ∧ stored t ∧ regs t (s.core k) ∧ t.cachedNat k a 64 = 0
      ∧ (t.seenLine k (a / 64)).poisoned = false)
    ∧ (∀ o n v rd, inStack (.amo o n v rd) → s.poisonSeen k a n = none →
      s.takeRefused k a n = none → a % 64 + n ≤ 64 → 0 < n → ∃ t, exec (.coreAccess k (.amo o n v rd) va) s = .next t ∧ stored t
      ∧ regs t ((s.core k).setReg rd n true (old n))
      ∧ t.cachedNat k a n = amoResult o n (old n) (v % 2 ^ (8 * n)) % 2 ^ (8 * n))
    ∧ (∀ n rd, inStack (.lr n rd) → s.poisonSeen k a n = none →
      ∃ t, exec (.coreAccess k (.lr n rd) va) s = .next t ∧ cached t ∧ regs t ((s.core k).setReg rd n true (old n))
      ∧ (t.core k).reservation = some (a / 64))
    ∧ (∀ n v rd, inStack (.sc n v rd) →
      ((s.core k).reservation = some (a / 64) → s.takeRefused k a n = none → a % 64 + n ≤ 64 → 0 < n →
        ∃ t, exec (.coreAccess k (.sc n v rd) va) s = .next t ∧ stored t ∧ regs t ((s.core k).setReg rd 8 false 0)
        ∧ (t.core k).reservation = none ∧ t.cachedNat k a n = v % 2 ^ (8 * n))
      ∧ ((s.core k).reservation ≠ some (a / 64) → ∃ t, exec (.coreAccess k (.sc n v rd) va) s = .next t ∧ cached t
        ∧ t.core k = { (s.core k).setReg rd 8 false 1 with reservation := none } ∧ ∀ j, j ≠ k → t.core j = s.core j))
    ∧ (regionOf a = .stack →
      let m := stackTop - a
      (∀ op, ((∃ n sg rd, op = .load n sg rd) ∨ ∃ n v, op = .store n v) → goes op → stackTop < a + opBytes op →
        (s.stoppedIn a m).isSome = true → stops op { code := cStackOvertemp })
      ∧ (∀ n sg rd, goes (.load n sg rd) → stackTop < a + n → s.stoppedIn a m = none →
        (∀ x, (s.poisonSeen k a m = some x ∨ (s.poisonSeen k a m = none ∧ s.poisonIn stackTop (n - m) = some x)) →
          stops (.load n sg rd) { code := cMemPoison, d1 := max a x })
        ∧ (s.poisonSeen k a m = none → s.poisonIn stackTop (n - m) = none →
          ∃ t, exec (.coreAccess k (.load n sg rd) va) s = .next t ∧ cached t
          ∧ regs t ((s.core k).setReg rd n sg (old m + s.rdNat stackTop (n - m) * 2 ^ (8 * m)))))
      ∧ (∀ n v, goes (.store n v) → stackTop < a + n → s.stoppedIn a m = none →
        (∀ x, s.takeRefused k a m = some x → stops (.store n v) { code := cObjReadOnly, d1 := x, d2 := a + n - 1 })
        ∧ (s.takeRefused k a m = none → m ≤ 64 → ∃ t, exec (.coreAccess k (.store n v) va) s = .next t
          ∧ t.cachedNat k a m = v % 2 ^ (8 * m) ∧ freed t
          ∧ (∀ j, j < n - m → t.mem.byte? (stackTop + j) = some (BitVec.ofNat 8 (v >>> (8 * (m + j)))))
          ∧ s.sameOutside t stackTop (n - m) ∧ t = { s with agents := t.agents, cluster := t.cluster, mem := t.mem })))
    ∧ (a = sessionPortAddr →
      (∀ v, s.physical k (.store 64 v) va = .ok a →
        ((s.core k).stores = [] → s.sessions.port.length < 64 → ∃ t, exec (.coreAccess k (.store 64 v) va) s = .next t
          ∧ t.sessions.port = s.sessions.port ++ [v] ∧ t.core k = { s.core k with place := (s.core k).place + 1 }
          ∧ (∀ j, j ≠ k → t.core j = s.core j) ∧ t = { s with agents := t.agents, sessions := t.sessions, cluster := t.cluster })
        ∧ (((s.core k).stores ≠ [] ∨ 64 ≤ s.sessions.port.length) → ∃ t, exec (.coreAccess k (.store 64 v) va) s = .next t
          ∧ t.core k = { s.core k with
              place := (s.core k).place + 1, stores := (s.core k).stores ++ [((s.core k).place, .session v)] } ∧ cached t))
      ∧ (∀ op, (∀ o n v rd, op ≠ .csr o n v rd) → op ≠ .sret → (∀ v, op ≠ .store 64 v) → accessStart op va = va →
          s.physical k op va = .ok a → stops op { code := cAddrUnmapped, d1 := a }))
    ∧ (∀ op, (∀ o n v rd, op ≠ .csr o n v rd) → op ≠ .sret → accessStart op va = va → s.physical k op va = .ok a → regionOf a = .control →
      a ≠ sessionPortAddr →
      (a < portBase k ∨ portBase k + 0x1000 ≤ a ∨ a % 8 ≠ 0 ∨ ((∀ sg rd, op ≠ .load 8 sg rd) ∧ ∀ v, op ≠ .store 8 v)) →
      stops op { code := cAddrUnmapped, d1 := a })

/-- R335, R336, R338: CBO_CLEAN, and the caches of their own accord, write a dirty line to memory, with its poison, and keep it
clean; CBO_FLUSH writes it and removes it from every cache; CBO_INVAL removes it from the core and the L3, with the clean copies of
the other cores (the model's choice, log 133), and memory keeps its bytes. A write-back that a channel holds waits (R414, R426). A
line whose block has become read-only or unowned is discarded and stops the core that wrote it with HOST_WRITEBACK_LOST; in a
stopped stack the write-back stops the core and the line stays. -/
def Obligations.CacheOperationsWriteBack : Prop :=
  ∀ (s : State) (k a : Nat),
    let l := a / 64
    let lines (t : State) (f : Option Line → Option Line) : Prop :=
      (∀ j, mapFind l (t.core j).lines = f (mapFind l (s.core j).lines)) ∧ mapFind l t.cluster.l3 = f (mapFind l s.cluster.l3)
    let clean (y : Option Line) : Option Line := y.map fun y => { y with dirty := false }
    let written (t : State) (x : Line) : Prop := (x.data.length = 64 → (∀ j, j < 64 → t.mem.byte? (64 * l + j) = x.data[j]?)
        ∧ s.sameOutside t (64 * l) 64 ∧ (l ∈ t.mem.poison ↔ x.poisoned = true))
      ∧ t = { s with agents := t.agents, cluster := t.cluster, mem := t.mem }
    let wash (c : Instr) (x : Line) (f : Option Line → Option Line) : Prop :=
      (s.stoppedIn (64 * l) 64 = none → s.lineLost l x = false → ∃ t, exec c s = .next t ∧ written t x ∧ lines t f)
      ∧ (s.stoppedIn (64 * l) 64 = none → s.lineLost l x = true → ∃ t, exec c s = .next t
        ∧ s.faulted t (192 + x.owner) { code := cHostWritebackLost, d1 := 64 * l } ∧ s.sameBytes t ∧ lines t fun _ => none)
      ∧ ((s.stoppedIn (64 * l) 64).isSome = true → ∃ t, exec c s = .next t ∧ s.faulted t (192 + k) { code := cStackOvertemp }
        ∧ s.sameBytes t ∧ lines t id)
    (s.coreRuns k = true →
      (∀ x, s.dirtyAnywhere k l = some x → s.heldIn (64 * l) 64 = true →
        exec (.cboClean k a) s = .next s ∧ exec (.cboFlush k a) s = .next s)
      ∧ (∀ x, s.heldIn (64 * l) 64 = false → s.dirtyAnywhere k l = some x → wash (.cboClean k a) x clean ∧ wash (.cboFlush k a) x fun _ => none)
      ∧ (s.dirtyAnywhere k l = none →
        (∃ t, exec (.cboClean k a) s = .next t ∧ lines t clean ∧ t = { s with agents := t.agents, cluster := t.cluster })
        ∧ (∃ t, exec (.cboFlush k a) s = .next t ∧ lines t (fun _ => none) ∧ t = { s with agents := t.agents, cluster := t.cluster }))
      ∧ (∃ t, exec (.cboInval k a) s = .next t ∧ mapFind l (t.core k).lines = none ∧ mapFind l t.cluster.l3 = none
        ∧ (∀ j, j ≠ k → mapFind l (t.core j).lines = (mapFind l (s.core j).lines).filter fun y => y.dirty)
        ∧ (∀ j n, n ≠ l → mapFind n (t.core j).lines = mapFind n (s.core j).lines)
        ∧ (∀ n, n ≠ l → mapFind n t.cluster.l3 = mapFind n s.cluster.l3)
        ∧ t = { s with agents := t.agents, cluster := t.cluster }))
    ∧ (s.agentsRun = true → k < 16 → ∀ x, s.heldIn (64 * l) 64 = false → s.dirtyOf k l = some x → wash (.cacheWriteback k a) x clean)

/-- R339, Table 10-3: the registers of a core's port. CORE_GSIG signals; CORE_WAIT_TARGET arms the wait that CORE_WAIT names, or
completes it at once with the interrupt; a read of CORE_WAIT_STATUS that returns 2 clears it, and any read ends the interrupt;
CORE_FENCE starts a fence; CORE_FENCE_DONE reads the scope of the last fence completed, once none runs. A reserved bit or a field
out of its range stops the core with GATE_OPERAND, a second wait with HOST_PORT_BUSY. Each write takes the next place of the core's
program (R39, R53); behind a store to the session port that waits, it waits too, and so does a read behind such a write (the model's
choice, log 155). An access to the port's address has the same effect; here the core's addresses are not translated. -/
def Obligations.CorePortOperates : Prop :=
  ∀ (s : State) (k : Nat) (v : Word64) (rd : CoreReg), s.coreRuns k = true →
    let n := v.toNat
    let c := s.core k
    let next : HostCore := { c with place := c.place + 1 }
    let stops (i : Instr) (f : FaultInfo) : Prop := ∃ t, exec i s = .next t ∧ s.faulted t (192 + k) f ∧ t.gates = s.gates
    let only (t : State) : Prop := (∀ j, j ≠ k → t.core j = s.core j) ∧ (∀ i, i ≠ 192 + k → t.agent i = s.agent i)
      ∧ t = { s with agents := t.agents, cluster := t.cluster }
    let bad := bits n 19 13 ≠ 0 ∨ bits n 62 2 ≠ 0 ∨ bits n 32 16 = 0 ∨ (bit n 18 = false ∧ bits n 48 14 ≠ 0)
    (c.stores = [] →
      (¬ bad → ∃ t, exec (.coreGsig k v) s = .next t ∧ s.signalled t (192 + k) {
            gate := bits n 0 17, inc := bits n 32 16, release := bit n 17, node := if bit n 18 then some (bits n 48 14) else none,
            place := c.place }
          ∧ (t.core k).place = c.place + 1
          ∧ t = { s with agents := t.agents, gates := t.gates, cluster := t.cluster })
      ∧ (bad → stops (.coreGsig k v) { code := cGateOperand, d0 := bits n 0 17, d1 := bits n 48 14, d2 := bits n 32 16 })
      ∧ (bits n 32 32 = 0 → c.waitState ≠ 1 →
        ∃ t, exec (.coreWaitTarget k v) s = .next t ∧ s.waited t (192 + k) {
            gate := c.waitGate, target := BitVec.ofNat 32 n, issued := s.sundial,
            timeout := if c.waitTimeout = 0 then (s.agent (192 + k)).gateTimeout else c.waitTimeout,
            acquire := false, place := c.place, addr := c.pc.toNat }
          ∧ t.core k = { next with
              waitState := if reached (s.gate c.waitGate).value (BitVec.ofNat 32 n) then 2 else 1,
              interrupt := c.interrupt || reached (s.gate c.waitGate).value (BitVec.ofNat 32 n) }
          ∧ only t)
      ∧ (bits n 32 32 = 0 → c.waitState = 1 → stops (.coreWaitTarget k v) { code := cHostPortBusy, d1 := 0x10 })
      ∧ (bits n 32 32 ≠ 0 → stops (.coreWaitTarget k v) { code := cGateOperand, d0 := c.waitGate })
      ∧ (bits n 2 62 = 0 → ∃ t, exec (.coreFence k v) s = .next t
          ∧ (t.agent (192 + k)).fences = (s.agent (192 + k)).fences ++ [{ scope := bits n 0 2, place := c.place, addr := c.pc.toNat }]
          ∧ t.core k = next ∧ only t)
      ∧ (bits n 2 62 ≠ 0 → stops (.coreFence k v) { code := cGateOperand }))
    ∧ (c.stores ≠ [] → ∀ i off, (i, off) ∈ [(Instr.coreGsig k v, 0), (.coreWaitTarget k v, 0x10), (.coreFence k v, 0x20)] →
      ∃ t, exec i s = .next t ∧ t.core k = { next with stores := c.stores ++ [(c.place, .port off n)] }
        ∧ t.gates = s.gates ∧ (t.agent (192 + k)).fences = (s.agent (192 + k)).fences ∧ only t)
    ∧ (c.portHeld = true → exec (.coreWaitStatus k rd) s = .next s ∧ exec (.coreFenceDone k rd) s = .next s)
    ∧ (c.portHeld = false → ∃ t, exec (.coreWaitStatus k rd) s = .next t
        ∧ t.core k = { c.setReg rd 8 false c.waitState with
            waitState := if c.waitState = 2 then 0 else c.waitState, interrupt := false } ∧ only t)
    ∧ (c.portHeld = false → (s.agent (192 + k)).fences = [] → ∃ t, exec (.coreFenceDone k rd) s = .next t
        ∧ t.core k = c.setReg rd 8 false c.fenceDone ∧ only t)
    ∧ ((s.agent (192 + k)).fences ≠ [] → exec (.coreFenceDone k rd) s = .next s)
    ∧ (c.levels = 0 →
      exec (.coreAccess k (.store 8 n) (portBase k)) s = exec (.coreGsig k v) s
      ∧ exec (.coreAccess k (.store 8 n) (portBase k + 0x10)) s = exec (.coreWaitTarget k v) s
      ∧ exec (.coreAccess k (.store 8 n) (portBase k + 0x20)) s = exec (.coreFence k v) s
      ∧ exec (.coreAccess k (.load 8 false rd) (portBase k + 0x18)) s = exec (.coreWaitStatus k rd) s
      ∧ exec (.coreAccess k (.load 8 false rd) (portBase k + 0x28)) s = exec (.coreFenceDone k rd) s
      ∧ (c.stores = [] → bits n 17 15 = 0 → bits n 56 8 = 0 → ∃ t, exec (.coreAccess k (.store 8 n) (portBase k + 8)) s = .next t
          ∧ t.core k = { next with waitGate := bits n 0 17, waitTimeout := bits n 32 24 } ∧ only t)
      ∧ (c.stores = [] → (bits n 17 15 ≠ 0 ∨ bits n 56 8 ≠ 0) →
          stops (.coreAccess k (.store 8 n) (portBase k + 8)) { code := cGateOperand, d0 := bits n 0 17 }))

/-- R340: an ecall from S-mode with the exit code in a7 writes the core's dirty lines back and ends the program with a global fence; a
line lost on the way stops the core instead; any other ecall from S-mode stops the core with HOST_TRAP, cause 9. R341: a core whose
record was cleared writes its dirty lines back, and is idle with its clock gated from then on unless a line is lost. Either waits
while a channel holds a line (R414, R426). R332: an exception that is not delegated, or that finds stvec 0, stops the core with
HOST_TRAP; one that is delegated continues at the program's handler, with its pc, cause and value saved, in S-mode. An ecall from
U-mode is such an exception, and so are an address without a translation and a CSR instruction that names no CSR of its mode; any
other CSR instruction reads the CSR and writes what its operation leaves; sret goes back to the saved pc and mode. All of S-mode is
the RISC-V architecture's, to which R332 leaves it (the model's choice, log 10). -/
def Obligations.CoreExitsAndTraps : Prop :=
  ∀ (s : State) (k : Nat),
    let c := s.core k
    let a7 := (c.getX 17).toNat
    let u := s.cleanAll k
    let traps (i : Instr) (pc : Word64) (cause : Nat) (tval : Word64) : Prop :=
      ((cause = 1 ∨ cause = 5 ∨ cause = 7 ∨ cause = 9 ∨ c.stvec = 0#64) → ∃ t, exec i s = .next t
        ∧ s.faulted t (192 + k) { code := cHostTrap, d0 := cause, d1 := tval.toNat, d2 := if cause = 9 then a7 else 0 } ∧ s.sameBytes t)
      ∧ (cause ≠ 1 → cause ≠ 5 → cause ≠ 7 → cause ≠ 9 → c.stvec ≠ 0#64 → ∃ t, exec i s = .next t
        ∧ t.core k = { c with
            pc := BitVec.ofNat 64 (c.stvec.toNat / 4 * 4), user := false, sepc := pc,
            scause := BitVec.ofNat 64 cause, stval := tval, sstatus := (t.core k).sstatus }
        ∧ (t.core k).sstatus.getLsbD 8 = !c.user ∧ (t.core k).sstatus.getLsbD 5 = c.sstatus.getLsbD 1 ∧ (t.core k).sstatus.getLsbD 1 = false
        ∧ (∀ j, j ≠ k → t.core j = s.core j) ∧ (∀ i, i ≠ 192 + k → t.agent i = s.agent i)
        ∧ t = { s with agents := t.agents, cluster := t.cluster })
    (s.coreRuns k = true → c.user = false → c.getX 17 = 0x4558#64 →
      (s.linesHeld k = true → exec (.coreEcall k) s = .next s)
      ∧ (s.linesHeld k = false →
        ((u.agent (192 + k)).prog = .running → ∃ t, exec (.coreEcall k) s = .next t
          ∧ (t.agent (192 + k)).prog = .ending
          ∧ (t.agent (192 + k)).fences = (u.agent (192 + k)).fences
              ++ [{ scope := 3, place := (u.core k).place, addr := (u.core k).pc.toNat }]
          ∧ u.onlyAgent t (192 + k))
        ∧ ((u.agent (192 + k)).prog ≠ .running → exec (.coreEcall k) s = .next u)
        ∧ (s.dirtyLines k = [] → u = s)))
    ∧ (s.coreRuns k = true → c.user = false → c.getX 17 ≠ 0x4558#64 → traps (.coreEcall k) c.pc 9 0)
    ∧ (s.coreRuns k = true → c.user = true → traps (.coreEcall k) c.pc 8 0)
    ∧ (s.agentsRun = true → c.clearing = true →
      (s.linesHeld k = true → exec (.coreClearWriteback k) s = .next s)
      ∧ (s.linesHeld k = false → (u.agent (192 + k)).fault = none → ∃ t, exec (.coreClearWriteback k) s = .next t
        ∧ t.agent (192 + k) = { u.agent (192 + k) with
            prog := .idle,
            gating := match (u.agent (192 + k)).gating with
              | .clockGated _ => .clockGated u.sundial
              | g => g }
        ∧ (∀ i, i ≠ 192 + k → t.agent i = u.agent i)
        ∧ t.core k = { u.core k with clearing := false } ∧ (∀ j, j ≠ k → t.core j = u.core j)
        ∧ t = { u with agents := t.agents, cluster := t.cluster })
      ∧ (s.linesHeld k = false → (u.agent (192 + k)).fault.isSome = true → ∃ t, exec (.coreClearWriteback k) s = .next t
        ∧ t.core k = { u.core k with clearing := false } ∧ t = { u with cluster := t.cluster }))
    ∧ (∀ (cause : Nat) (tval : Word64), s.coreRuns k = true → traps (.coreException k cause tval) c.pc cause tval)
    ∧ (∀ (op : CoreOp) (va : Nat), s.coreRuns k = true → (∀ o n v rd, op ≠ .csr o n v rd) → op ≠ .sret → accessStart op va = va →
      let cause := match op with
        | .fetch => 12
        | .load .. | .lr .. => 13
        | _ => 15
      let stops (f : FaultInfo) : Prop := ∃ t, exec (.coreAccess k op va) s = .next t ∧ s.faulted t (192 + k) f ∧ s.sameBytes t
      (s.physical k op va = .error .page →
        traps (.coreAccess k op va) (if op = .fetch then BitVec.ofNat 64 va else c.pc) cause (BitVec.ofNat 64 va))
      ∧ (s.physical k op va = .error .access → stops { code := cHostTrap, d0 := accessCause op, d1 := va })
      ∧ (∀ f, s.physical k op va = .error (.fault f) → stops f))
    ∧ (∀ (o : CsrOp) (n v va : Nat) (rd : CoreReg), s.coreRuns k = true →
      let x := BitVec.ofNat 64 v
      let writes := o = .write ∨ x ≠ 0
      let illegal := (c.user = true ∧ bits n 8 2 = 1) ∨ (writes ∧ bits n 10 2 = 3)
      let i := Instr.coreAccess k (.csr o n v rd) va
      ((s.csrRead k n = none ∨ illegal) → traps i c.pc 2 0)
      ∧ (∀ old, s.csrRead k n = some old → ¬ illegal → ∃ t, exec i s = .next t
        ∧ (writes → t.core k = (c.setCsr n (csrApply o old x)).setReg rd 8 false old.toNat)
        ∧ (¬ writes → t.core k = c.setReg rd 8 false old.toNat)
        ∧ (∀ j, j ≠ k → t.core j = s.core j) ∧ t = { s with agents := t.agents, cluster := t.cluster, free := t.free }))
    ∧ (∀ va : Nat, s.coreRuns k = true →
      (c.user = true → traps (.coreAccess k .sret va) c.pc 2 0)
      ∧ (c.user = false → ∃ t, exec (.coreAccess k .sret va) s = .next t
        ∧ t.core k = { c with pc := c.sepc, user := !c.sstatus.getLsbD 8, sstatus := (t.core k).sstatus }
        ∧ (t.core k).sstatus.getLsbD 1 = c.sstatus.getLsbD 5 ∧ (t.core k).sstatus.getLsbD 5 = true
        ∧ (t.core k).sstatus.getLsbD 8 = false
        ∧ (∀ j, j ≠ k → t.core j = s.core j) ∧ t = { s with agents := t.agents, cluster := t.cluster }))

/-! ## Codec (ch 11) -/

/-- R351, R353 to R356, R359: a CODEC_OPEN that passes its checks opens its FREE context and pins the pool's object; a CODEC_CLOSE
frees the OPEN context and releases that pin, and waits for one that is ACTIVE. Either that completes passes its slots and signals
its gate with release when SIG_EN is set; no other context changes. A context in the wrong state, a pool that takes no pin, and an
encode OPEN in a case of R355 stop the core. That an ACTIVE context has a CODEC_CLOSE wait, and one of the other direction refuses
it, is the model's reading (log 82); what OPEN leaves in the context's other fields is too (log 83). -/
def Obligations.CodecContextsOpenAndClose : Prop :=
  ∀ (s : State) (c w : Nat),
    let i := ctxOf w
    let x := s.ctx i
    let handles := if oPool w = 0 then [] else [oPool w]
    let stops (n : Instr) (f : FaultInfo) : Prop := ∃ t, exec n s = .next t ∧ s.faulted t (224 + c) f
      ∧ (t.agent (224 + c)).ip = (s.agent (224 + c)).ip
    let ends (t : State) (slots : Nat) : Prop := (∀ j, j ≠ i → t.ctx j = s.ctx j)
      ∧ (t.agent (224 + c)).ip = (s.agent (224 + c)).ip + slots ∧ (t.agent (224 + c)).lastProgress = s.sundial
      ∧ (t.agent (224 + c)).signals = (s.agent (224 + c)).signals ++ (if modBit w 0 then
          [{ gate := fieldAt w 0x38 0 17, inc := half16 w 0x3C, release := true, node := none, place := 0, issued := s.sundial }]
          else [])
    (s.codecStarts c cdOpen w →
      (x.st = .free → s.pinFault handles = none → (decodes c = true ∨ s.openBad w = false) → ∃ t, exec (.codecOpen c) s = .next t
        ∧ ends t 128
        ∧ t.ctx i = { st := .open_, decode := decodes c, hevc := oHevc w, needRap := decodes c, opened := [handleIndex (oPool w), w] }
        ∧ (∀ j, t.obj j = { s.obj j with pins := (s.obj j).pins + if oPool w ≠ 0 ∧ j = handleIndex (oPool w) then 1 else 0 })
        ∧ (∀ j, j ≠ 224 + c → t.agent j = s.agent j)
        ∧ t = { s with agents := t.agents, codec := t.codec, objects := t.objects })
      ∧ (x.st ≠ .free → stops (.codecOpen c) { code := cCodecCtxState })
      ∧ (∀ f, x.st = .free → s.pinFault handles = some f → stops (.codecOpen c) f)
      ∧ (x.st = .free → s.pinFault handles = none → decodes c = false → s.openBad w = true →
          stops (.codecOpen c) { code := cCodecOperand }))
    ∧ (s.codecStarts c cdClose w →
      (x.st = .open_ → x.decode = decodes c → x.held = [] → ∃ t, exec (.codecClose c) s = .next t ∧ ends t 64
        ∧ t.ctx i = {}
        ∧ (∀ j, (t.obj j).pins = (s.obj j).pins - if x.opened.getD 0 0 ≠ 0 ∧ j = x.opened.getD 0 0 then 1 else 0)
        ∧ (s.settled → (∀ j, j ≠ 224 + c → t.agent j = s.agent j)
            ∧ t = { s with agents := t.agents, codec := t.codec, objects := t.objects }))
      ∧ (x.st = .active → x.decode = decodes c → x.held = [] → ∃ t, exec (.codecClose c) s = .next t
        ∧ (t.codecCore c).waitSince.isSome = true ∧ (∀ j, t.ctx j = s.ctx j) ∧ t = { s with codec := t.codec })
      ∧ ((x.st = .free ∨ x.decode ≠ decodes c ∨ x.held ≠ []) → stops (.codecClose c) { code := cCodecCtxState }))

/-- R347, R350 to R353: a frame command that passes its checks on its context and operands is in execution, with its objects pinned
and its context ACTIVE, unless its start would pass 2,800 W (R410): then it is held; one whose context is ACTIVE waits with no slot
passed; one that fails a check stops its core before it acts. A command of any kind whose own fields fail a check stops its core,
and so does every command of a core that the Lean profile leaves unpowered. That a context of the other direction is in the wrong
state is the model's reading (log 82), as are what the ledger holds (log 100) and that a held frame's region table is read as its
command starts (log 137). -/
def Obligations.FrameCommandsStartOrWait : Prop :=
  (∀ (s : State) (c w op : Nat) (cmd : Instr), (op, cmd) ∈ [(cdEnc, Instr.encFrame c), (cdDec, .decFrame c)] →
    s.codecStarts c op w →
    let i := ctxOf w
    let x := s.ctx i
    let pins := framePins w ++ if op = cdEnc ∧ holds x w = true ∧ fieldAt w 8 0 24 ≠ 0 then [handleIndex (fieldAt w 8 0 24)] else []
    let checked := if op = cdEnc then s.encFault x w else s.decFault x w
    let stops (f : FaultInfo) : Prop := ∃ t, exec cmd s = .next t ∧ s.faulted t (224 + c) f
      ∧ (t.agent (224 + c)).ip = (s.agent (224 + c)).ip
    (∀ f, ctxFault c x w = some f → stops f)
    ∧ (ctxFault c x w = none → x.st = .active → ∃ t, exec cmd s = .next t
      ∧ (t.codecCore c).cmd = none ∧ (t.codecCore c).waitSince.isSome = true ∧ (∀ j, t.ctx j = s.ctx j)
      ∧ t = { s with codec := t.codec })
    ∧ (ctxFault c x w = none → x.st ≠ .active →
      (op = cdEnc → s.leanRefuses i = true → stops { code := cCodecProfile })
      ∧ ((op = cdEnc → s.leanRefuses i = false) →
        (∀ f, checked = some f → stops f)
        ∧ (checked = none → s.power.envelope + s.power.added + 59000 ≤ 28000000 → ∃ t, exec cmd s = .next t
          ∧ (t.codecCore c).cmd = some (w, i) ∧ (t.codecCore c).pins = pins ∧ (t.codecCore c).waitSince = none
          ∧ (op = cdEnc → (t.codecCore c).regions = s.roi w ∧ (t.codecCore c).binds = s.power.leanActive)
          ∧ (∀ d, d ≠ c → t.codecCore d = s.codecCore d)
          ∧ t.ctx i = { x with st := .active } ∧ (∀ j, j ≠ i → t.ctx j = s.ctx j)
          ∧ (∀ j, t.obj j = { s.obj j with pins := (s.obj j).pins + pins.count j })
          ∧ t.agent (224 + c) = { ((s.ctxWaited c).agent (224 + c)).unheld s.sundial with ip := (s.agent (224 + c)).ip + 64 }
          ∧ (∀ j, j ≠ 224 + c → t.agent j = s.agent j)
          ∧ t = { s with agents := t.agents, codec := t.codec, objects := t.objects,
                         power := { s.power with added := s.power.added + 59000 } })
        ∧ (checked = none → 28000000 < s.power.envelope + s.power.added + 59000 → ∃ t, exec cmd s = .next t
          ∧ s.startHeld t (224 + c)))))
  ∧ (∀ (s : State) (c w op : Nat) (cmd : Instr), (op, cmd) ∈ [(cdOpen, Instr.codecOpen c), (cdEnc, .encFrame c), (cdDec, .decFrame c),
      (cdClose, .codecClose c), (mvGsig, .codecGsig c), (mvGwait, .codecGwait c), (mvFence, .codecFence c), (mvEnd, .codecEnd c)] →
    s.codecReady c = true → s.fetchCmd (224 + c) cCodecFetch 64 cdBytes = .ok w → w % 256 = op → cdKnown c op = true →
    (s.coreUnpowered c = true → ∃ t, exec cmd s = .next t ∧ s.faulted t (224 + c) { code := cCodecProfile })
    ∧ (∀ f, s.coreUnpowered c = false → cdFault c op w = some f → ∃ t, exec cmd s = .next t ∧ s.faulted t (224 + c) f))

/-- R345, R361, R363, R364, R347: a frame command's end writes its report, commits its context with NEXT_FRAME stepped, makes it
OPEN and signals its gate. An ENC_FRAME that is held for its mini-GOP emits nothing and joins the held frames; one that codes writes
the units of them all, or stops the core with CODEC_OUT_FULL where they do not fit. A DEC_FRAME writes the picture that is due; a
unit that is not supported or does not conform stops the core. A poisoned source or input stops it with MEM_POISON. A command that
stops commits nothing but NEED_RAP. Nothing but the report, the output and the pool is written. A report or raw output that has
become read-only stops the core (R64); a source, pool or output whose promotion was aborted meanwhile stops the command that uses it
(R351); a command whose bytes a channel holds waits (R414, R426). The coded bits are opaque (log 8); the order of a mini-GOP and the
frames that are keys (log 84), a decode core's refusals and the report's TYPE (log 85), and that the reads and writes of a frame
come as it ends (log 69) are the model's. -/
def Obligations.EncodeFramesComplete : Prop :=
  ∀ (s : State) (c w : Nat), s.agentsRun = true → c < 6 → (s.codecCore c).cmd = some (w, ctxOf w) →
    let k := s.codecCore c
    let i := ctxOf w
    let x := s.ctx i
    let o := x.openWord
    let num := fieldAt w 4 0 32
    let a := fieldAt w 0x38 0 48
    let pool := s.addrOf (oPool o) (oPoolOff o)
    let reported (b : Nat) : Prop := a ≠ 0 ∧ a ≤ b ∧ b < a + 32
    let pooled (b : Nat) : Prop := pool ≤ b ∧ b < pool + poolBytes (decodes c) o
    let ends (t : State) (y : Ctx) (report : List Byte) : Prop := (t.codecCore c).cmd = none ∧ (t.codecCore c).lastCtx = some i
      ∧ t.ctx i = { y with st := .open_, nextFrame := y.nextFrame + 1, core := if decodes c then c - 4 else c,
                           leanBound := y.leanBound || k.binds, poolMark := x.poolMark }
      ∧ (∀ j, j ≠ i → t.ctx j = s.ctx j)
      ∧ (t.agent (224 + c)).signals = (s.agent (224 + c)).signals ++ (if modBit w 0 then
          [{ gate := fieldAt w 0x2C 0 17, inc := half16 w 0x26, release := true, node := none, place := 0, issued := s.sundial }]
          else [])
      ∧ (s.settled → t.gates = s.gates ∧ t.arrays = s.arrays ∧ (a ≠ 0 → ∀ n, n < 32 → t.mem.byte? (a + n) = report[n]?))
    let stops (f : FaultInfo) (rap : Bool) : Prop := ∃ t, exec (.frameComplete c) s = .next t ∧ s.faulted t (224 + c) f
      ∧ t.ctx i = { x with st := if x.st = CtxState.active then .open_ else x.st, needRap := rap } ∧ (∀ j, j ≠ i → t.ctx j = s.ctx j)
      ∧ (s.settled → s.sameBytes t)
    (s.frameHeld c = true → exec (.frameComplete c) s = .next s)
    ∧ (∀ f, s.frameHeld c = false → s.reportRefused w = some f → stops f x.needRap)
    ∧ (decodes c = false → s.frameHeld c = false → s.reportRefused w = none →
      let object := if fieldAt w 8 0 24 = 0 then 0 else handleIndex (fieldAt w 8 0 24)
      let out := s.addrOf (fieldAt w 0xC 0 24) (fieldAt w 0x18 0 48)
      let room := fieldAt w 0x20 0 32
      let poison := (s.rowsPoison ((x.held.map (·.cmd) ++ [w]).flatMap fun v => s.rowAddrs (fieldAt v 8 0 24) (srcRows o v))).orElse
        fun _ => s.outRefused w
      let r := s.codeAll x w k.regions
      let gop := oReorder o && x.started
      let band := if gop then none else refreshBand x (isKey x w)
      let flags := (if r.cap then 1 else 0) + (if r.overflow then 2 else 0) + (if band.any fun b => decide (b + 1 = oPeriod o) then 4 else 0)
      (holds x w = true → ∃ t, exec (.frameComplete c) s = .next t
        ∧ ends t { x with held := x.held ++ [{ cmd := w, regions := k.regions, object := object, mark := mapFind object k.marks }] }
            (reportBytes num 0 0 x.q 0 x.full 0xFFFFFFFF 0)
        ∧ (s.settled → ∀ b, ¬ reported b → t.mem.byte? b = s.mem.byte? b))
      ∧ (∀ f, holds x w = false → poison = some f → stops f x.needRap)
      ∧ (holds x w = false → poison = none → room < r.out.length → stops { code := cCodecOutFull } x.needRap)
      ∧ (holds x w = false → poison = none → r.out.length ≤ room → ∃ t, exec (.frameComplete c) s = .next t
        ∧ ends t { r.ctx with held := [] } (reportBytes num (if gop then 3 else if isKey x w then 1 else 2) flags r.ctx.q r.out.length
            r.ctx.full (band.getD 0xFFFFFFFF) 0)
        ∧ (s.settled → (∀ n, n < r.out.length → ¬ reported (out + n) → ¬ pooled (out + n) → t.mem.byte? (out + n) = r.out[n]?)
          ∧ ∀ b, ¬ reported b → ¬ pooled b → ¬ (out ≤ b ∧ b < out + room) → t.mem.byte? b = s.mem.byte? b)))
    ∧ (decodes c = true → s.frameHeld c = false → s.reportRefused w = none →
      let n := fieldAt w 0x20 0 32
      let input := s.addrOf (fieldAt w 8 0 24) (fieldAt w 0x10 0 48)
      let hist := x.history ++ [[num, n, leNat (s.rdBytes input n)]]
      let u := Config.decodeUnit x.opened hist (s.rdBytes input n)
      let poison := if n = 0 then none else s.rowsPoison [(input, n)]
      let wrong := n ≠ 0 ∧ (u.conforms = false ∨ (x.needRap = true ∧ (u.key && u.headers) = false))
      let made := x.pictures ++ (if n = 0 then [] else u.pictures)
      let due := min made.length (x.due + (if n = 0 then 0 else u.due))
      let show_ := decide (x.shown < due) || (decide (n = 0) && decide (x.shown < made.length))
      let p := shownPicture x hist made x.shown
      let shown := if show_ then x.shown + 1 else x.shown
      let written := if show_ then s.pictureBytes x hist w x.shown p else []
      let refused := if show_ then (s.markedInUse c (fieldAt w 0xC 0 24)).orElse fun _ =>
        s.checkRows (fieldAt w 0xC 0 24) (outRows x w (p.width, p.height)) true else none
      (∀ f, poison = some f → stops f x.needRap)
      ∧ (poison = none → n ≠ 0 → unsupported o u = true → stops { code := cCodecUnsupported } x.needRap)
      ∧ (poison = none → (n = 0 ∨ unsupported o u = false) → wrong → stops { code := cCodecBitstream, d1 := u.failsAt } true)
      ∧ (∀ f, poison = none → (n = 0 ∨ unsupported o u = false) → ¬ wrong → refused = some f → stops f x.needRap)
      ∧ (poison = none → (n = 0 ∨ unsupported o u = false) → ¬ wrong → refused = none → ∃ t, exec (.frameComplete c) s = .next t
        ∧ ends t { x with history := hist, needRap := x.needRap && decide (n = 0), pictures := made, due := max due shown,
                          shown := shown }
            (reportBytes num (if show_ then (if p.key then 1 else 2) else 0) (if show_ then 8 else 0) 0 n 0
              (if show_ then x.shown else 0xFFFFFFFF) (made.length - shown))
        ∧ (s.settled → ∀ b, ¬ reported b → ¬ pooled b → t.mem.byte? b = (s.mem.write written).byte? b)))

/-! ## Memory tiers (ch 02) -/

/-- R74, R75: a report above a running stack's step raises it at once; ten in a row 3 °C below the step's threshold lower it by one; a
stopped stack only keeps the temperature. At 105 °C the stack stops, unless that is the escalation event that takes the module out
of service while the dump slot is full (R431, R432, R436). A driver's write of OVERTEMP resumes a stopped stack below 95 °C at step
0, and one of IMBALANCE clears that. -/
def Obligations.StackTemperatureStepsAndStops : Prop :=
  ∀ (s : State) (k : Nat), k < 8 →
    let x := s.stack k
    let only (t : State) (y : Stack) : Prop := t.stack k = y ∧ (∀ j, j ≠ k → t.stack j = s.stack j) ∧ s.sameBytes t
      ∧ t = { s with mem := t.mem }
    (∀ temp, s.agentsRun = true →
      (x.stopped = true → ∃ t, exec (.stackTempReport k temp) s = .next t ∧ only t { x with temp := temp })
      ∧ (x.stopped = false → x.step < stepOf temp → temp < 105 → ∃ t, exec (.stackTempReport k temp) s = .next t
        ∧ only t { x with temp := temp, step := stepOf temp, coolReports := 0 })
      ∧ (x.stopped = false → x.step < 3 → stepOf temp ≤ x.step → ∃ t, exec (.stackTempReport k temp) s = .next t
        ∧ only t (if 0 < x.step ∧ temp + 3 < stepThreshold x.step then
            (if x.coolReports + 1 < 10 then { x with temp := temp, coolReports := x.coolReports + 1 }
             else { x with temp := temp, step := x.step - 1, coolReports := 0 })
          else { x with temp := temp, coolReports := 0 }))
      ∧ (x.stopped = false → x.step < 3 → 105 ≤ temp → (s.recovery.dumpValid = false ∨ s.stampEvent.atLimit = false) → ∃ t,
        exec (.stackTempReport k temp) s = .next t
        ∧ t.stack k = { x with temp := temp, step := 3, coolReports := 0, stopped := true, overtemp := true }
        ∧ (∀ j, j ≠ k → t.stack j = s.stack j) ∧ (t.recovery.oos = true ↔ s.stampEvent.atLimit = true))
      ∧ (x.stopped = false → x.step < 3 → 105 ≤ temp → s.recovery.dumpValid = true → s.stampEvent.atLimit = true → ∃ t,
        exec (.stackTempReport k temp) s = .next t ∧ t.recovery.oos = true))
    ∧ (∀ w : RegVal, s.driverReachesFast = true →
      let v := w.value.toNat
      let y := if bit v 10 = true ∧ x.stopped = true ∧ x.temp < 95 then
        { x with stopped := false, overtemp := false, step := 0, coolReports := 0 } else x
      ∃ t, exec (.overtempStop k w) s = .next t
        ∧ only t (if w.hasLow then { y with imbalance := y.imbalance && !bit v 11 } else x))

/-- R70, R72: a stack whose channels stay imbalanced for 1,000 samples in a row reports its busiest channel and block, once per
episode; a balanced sample ends the episode. The patrol scrub counts a corrected symbol and poisons an uncorrectable unit, but in a
stopped stack. R78 to R81, R96: an Icehouse read of a stripe with one or two bad chunks is corrected and logged; with three, the
stripe is lost, every object placed on it is damaged, and a promotion of one ends with its object ABSENT and its mover stopped; of a
stripe lost before, nothing more. A failed channel is recorded once and logged. -/
def Obligations.MemoryErrorsAreFound : Prop :=
  (∀ (s : State) (k ch busiest total block : Nat), s.agentsRun = true → k < 8 →
    let x := s.stack k
    let n := min 1000 (x.unbalanced + 1)
    let others (t : State) : Prop := (∀ j, j ≠ k → t.stack j = s.stack j) ∧ s.sameBytes t
    (imbalanced busiest total = false → ∃ t, exec (.imbalanceSample k ch busiest total block) s = .next t
      ∧ t.stack k = { x with unbalanced := 0, armed := true } ∧ others t ∧ t = { s with mem := t.mem })
    ∧ (imbalanced busiest total = true → (n ≠ 1000 ∨ x.armed = false) → ∃ t, exec (.imbalanceSample k ch busiest total block) s = .next t
      ∧ t.stack k = { x with unbalanced := n } ∧ others t ∧ t = { s with mem := t.mem })
    ∧ (imbalanced busiest total = true → n = 1000 → x.armed = true → ∃ t, exec (.imbalanceSample k ch busiest total block) s = .next t
      ∧ t.stack k = { x with unbalanced := n, imbalance := true, hotChannel := 128 * k + ch, hotBlock := block % 2 ^ 24, armed := false }
      ∧ others t ∧ (∃ r ∈ t.recovery.log, r.code = cChannelImbalance) ∧ t = { s with mem := t.mem, recovery := t.recovery }))
  ∧ (∀ (s : State) (unit : Nat) (found : EccResult), s.agentsRun = true → 64 * unit < stackTop →
    let k := stackOf (64 * unit)
    ((s.stack k).stopped = true → exec (.patrolScrub unit found) s = .next s)
    ∧ ((s.stack k).stopped = false →
      exec (.patrolScrub unit .clean) s = .next s
      ∧ (∃ t, exec (.patrolScrub unit .corrected) s = .next t
        ∧ t.stack k = { s.stack k with ceCount := min 0xFFFFFFFF ((s.stack k).ceCount + 1) } ∧ (∀ j, j ≠ k → t.stack j = s.stack j)
        ∧ s.sameBytes t ∧ t.mem.poison = s.mem.poison ∧ t = { s with mem := t.mem })
      ∧ (∃ t, exec (.patrolScrub unit .uncorrectable) s = .next t
        ∧ (∀ u, u ∈ t.mem.poison ↔ u = unit ∨ u ∈ s.mem.poison) ∧ s.sameBytes t ∧ t = { s with mem := t.mem })))
  ∧ (∀ (s : State), s.agentsRun = true →
    (∀ (stripe : Nat) (bad : List Nat), stripe < 2 ^ 27 →
      let c := exec (.iceStripeRead stripe bad) s
      let found := (s.badChunks stripe bad).length
      (found = 0 → c = .next s)
      ∧ (0 < found → found ≤ 2 → ∃ t, c = .next t ∧ (∃ r ∈ t.recovery.log, r.code = cIceCorrected) ∧ t = { s with recovery := t.recovery })
      ∧ (2 < found → stripe ∈ s.mem.lostStripes → c = .next s)
      ∧ (2 < found → stripe ∉ s.mem.lostStripes → ∃ t, c = .next t
        ∧ (∀ x, x ∈ t.mem.lostStripes ↔ x = stripe ∨ x ∈ s.mem.lostStripes)
        ∧ (∀ i ∈ s.stripeObjects stripe, (t.obj i).damaged = true)
        ∧ (∀ i ∈ s.stripeObjects stripe, ∀ m addr, s.promoterOf i = some (m, addr) → (t.obj i).st = .absent
            ∧ (t.mover m).cmd = none ∧ (t.agent (208 + m)).prog = .faulted)
        ∧ ((∀ i m, s.promoterOf i ≠ some m) → (∀ i, i ∉ s.stripeObjects stripe → t.obj i = s.obj i) ∧ s.sameBytes t
            ∧ t = { s with mem := t.mem, objects := t.objects, recovery := t.recovery })))
    ∧ (∀ ch, ch < 72 → (ch ∈ s.mem.iceFailed → exec (.iceChannelFailed ch) s = .next s)
      ∧ (ch ∉ s.mem.iceFailed → ∃ t, exec (.iceChannelFailed ch) s = .next t
        ∧ (∀ j, j ∈ t.mem.iceFailed ↔ j = ch ∨ j ∈ s.mem.iceFailed) ∧ (∃ r ∈ t.recovery.log, r.code = cIceChannelFailed)
        ∧ s.sameBytes t ∧ t = { s with mem := t.mem, recovery := t.recovery })))

/-! ## Ports and the link (ch 12) -/

/-- R370, R371, R383, R385: a partner detected on an idle port starts its training, at the generation limit as it then stands, and a
port whose training failed trains again after 1 s; training in which every lane is up, the partner's lanes in order or in the
reverse order whatever the polarity of their pairs (R368, R460), at a generation both ports have, brings the port UP with an empty
link layer, the partner's credit and a NEIGHBOUR message; it tries a generation three times, then the next lower, and after the last
the port is DOWN. A write of LINK_PORT_CONFIG sets the generation limit and the trim: a port above the new limit trains anew, and
one with no generation left goes DOWN. What training finds of the lanes is an input (log 12); the credit granted then is free (log
87); that a training keeps its generation limit and a write of 0 takes the port down at once is the model's choice (log 138). -/
def Obligations.PortsTrain : Prop :=
  (∀ (s : State) (p : Nat) (now : Word64), s.portPowered p = true → s.sundial.toNat ≤ now.toNat →
    let q := s.port p
    let later : State := (s.atTime now)
    let trains (t : State) : Prop := t.port p = { q with st := .training, gen := 0, limit := q.maxGen, tryGen := 0, fails := 0 }
    (q.st = .down → q.fails = 0 → ∃ t, exec (.partnerDetection p) s = .next t ∧ trains t ∧ s.onlyPort t p)
    ∧ ((q.st ≠ .down ∨ q.fails ≠ 0) → exec (.partnerDetection p) s = .next s)
    ∧ (q.st = .down → 0 < q.fails → 4000000000 ≤ now.toNat - q.downSince.toNat → ∃ t, exec (.linkTrainRetry p now) s = .next t
      ∧ trains t ∧ later.onlyPort t p)
    ∧ (∀ gens lanes, q.st = .training →
      let common := (portGens p).filter fun g => gens.contains g && decide (g ≤ q.limit)
      let gen := if q.tryGen = 0 then highest common else q.tryGen
      let lower := highest (common.filter fun g => decide (g < gen))
      let heard := lanes.map fun l : LaneFinding => l.partner
      let order := (List.range (if p < 12 then 4 else 8)).map some
      let trained := (heard = order ∨ heard = order.reverse) ∧ gen ∈ common
      let c := exec (.trainingComplete p lanes gens now) s
      (trained → ∃ t, c = .next t
        ∧ (t.port p).st = .up ∧ (t.port p).gen = gen ∧ (t.port p).fails = 0 ∧ (t.port p).txSeq = 0 ∧ (t.port p).rxSeq = 0
        ∧ (t.port p).unacked = [] ∧ (t.port p).resend = [] ∧ (t.port p).nak = false ∧ (t.port p).freed = [0, 0, 0, 0]
        ∧ (t.port p).credits.length = 4 ∧ (t.port p).upSince = now ∧ (t.port p).maxGen = q.maxGen
        ∧ (t.port p).out.map (·.hdr) = [{ hdrOf tNeighbour with
            w1 := serial, w2 := s.link.nodeId + (if s.link.nodeValid then 2 ^ 14 else 0) + p * 2 ^ 16 + gen * 2 ^ 20
              + (if s.recovery.oos then 2 ^ 22 else 0) }]
        ∧ (∀ r, r ≠ p → t.port r = s.port r) ∧ t = { s.atTime now with link := { s.link with ports := t.link.ports }, free := t.free })
      ∧ (¬ trained → q.fails < 2 → gen ≠ 0 → ∃ t, c = .next t ∧ t.port p = { q with tryGen := gen, fails := q.fails + 1 }
        ∧ later.onlyPort t p)
      ∧ (¬ trained → (2 ≤ q.fails ∨ gen = 0) → lower ≠ 0 → ∃ t, c = .next t ∧ t.port p = { q with tryGen := lower, fails := 0 }
        ∧ later.onlyPort t p)
      ∧ (¬ trained → (2 ≤ q.fails ∨ gen = 0) → lower = 0 → ∃ t, c = .next t
        ∧ t.port p = { q with st := .down, gen := 0, tryGen := 0, fails := 3, downSince := now }
        ∧ (∃ r ∈ t.recovery.log, r.code = cLinkTrainFailed) ∧ (∀ r, r ≠ p → t.port r = s.port r)
        ∧ t = { s.atTime now with link := { s.link with ports := t.link.ports }, recovery := t.recovery })))
  ∧ (∀ (s : State) (p : Nat) (w : RegVal), s.driverReaches = true → p < 14 → w.hasLow = true →
    let q := s.port p
    let g := if w.fld 0 2 = 0 ∨ w.fld 0 2 ∈ portGens p then w.fld 0 2 else q.maxGen
    let anew := (s.linked p = true ∧ g < q.gen) ∨ (g = 0 ∧ q.st ≠ .down)
    (¬ anew → ∃ t, exec (.linkPortConfig p w) s = .next t ∧ t.port p = { q with maxGen := g, asymTrim := w.fld 16 16 } ∧ s.onlyPort t p)
    ∧ (anew → ∃ t, exec (.linkPortConfig p w) s = .next t ∧ (t.port p).st = (if g = 0 then .down else .training)
      ∧ (t.port p).maxGen = g ∧ (t.port p).asymTrim = w.fld 16 16 ∧ (g ≠ 0 → (t.port p).limit = g) ∧ (t.port p).gen = 0
      ∧ (t.port p).out = []))

/-- R383 to R386, R284: a loss of signal takes a port DOWN and keeps its settings and counters; this module's transactions on it end
with LINK_LOST for their agents, and so do the export jobs that take it. A NEIGHBOUR message records the partner's identity and
raises LINK_UP; a partner without one for 100 µs is recorded as silent. A partner that goes out of service leaves the election.
Where the port that falls carries nothing, nothing else changes. Which NEIGHBOUR raises LINK_UP (log 88) and what becomes of the
transactions that the port still held (log 95) are the model's. -/
def Obligations.PortsFallAndMeetNeighbours : Prop :=
  ∀ (s : State) (p : Nat),
    let q := s.port p
    (s.alwaysOn = true → p < 14 → q.st ≠ .down → ∃ t, exec (.lossOfSignal p) s = .next t
      ∧ (t.port p).st = .down ∧ (t.port p).los = true ∧ (t.port p).gen = 0 ∧ (t.port p).maxGen = q.maxGen
      ∧ (t.port p).asymTrim = q.asymTrim ∧ (t.port p).replays = q.replays ∧ (t.port p).corrected = q.corrected
      ∧ (t.port p).discards = q.discards ∧ (t.port p).downSince = s.sundial ∧ (t.port p).out = [] ∧ (t.port p).adv = none
      ∧ (∀ m, m < 16 → ∀ j ∈ (t.mover m).jobs, j.port ≠ some p)
      ∧ (s.link.waiting = [] → (∀ tag d, mapFind tag t.link.pending = some d → d.port ≠ p)
          ∧ (∀ e ∈ s.link.pending, e.2.port = p → mapFind e.1 s.link.pending = some e.2 →
              e.2.fault cLinkLost true ∈ (t.agent e.2.agent).boundary))
      ∧ (q.out = [] → (∀ e ∈ s.link.pending, e.2.port ≠ p) → (∀ m j, j ∈ (s.mover m).jobs → j.port ≠ some p) →
          (∀ r, r ≠ p → t.port r = s.port r) ∧ t = { s with link := t.link, sun := t.sun, recovery := t.recovery }))
    ∧ (∀ h : Hdr, s.linked p = true → q.equalising = false → ∃ t, exec (.neighbour p h) s = .next t
      ∧ (t.port p).met = true ∧ (t.port p).pSerial = h.w1 ∧ (t.port p).pNode = bits h.w2 0 14 ∧ (t.port p).pNodeValid = bit h.w2 14
      ∧ (t.port p).pPort = bits h.w2 16 4 ∧ (t.port p).pGen = bits h.w2 20 2 ∧ (t.port p).pOos = bit h.w2 22
      ∧ (t.port p).st = (if bit h.w2 22 then .partnerOos else .up) ∧ (bit h.w2 22 = true → (t.port p).adv = none)
      ∧ (if q.met = true ∧ q.pSerial = 0 then t.recovery = s.recovery else ∃ r ∈ t.recovery.log, r.code = cLinkUp)
      ∧ (∀ r, r ≠ p → t.port r = s.port r)
      ∧ t = { s with link := t.link, sun := t.sun, recovery := t.recovery, free := t.free })
    ∧ (∀ now : Word64, s.linked p = true → q.met = false → s.sundial.toNat ≤ now.toNat →
      400000 ≤ now.toNat - q.upSince.toNat → ∃ t, exec (.neighbourTimeout p now) s = .next t
      ∧ t.port p = { q with met := true, pSerial := 0, pNode := 0, pNodeValid := false, pOos := false, pPort := 0, pGen := 0 }
      ∧ (∃ r ∈ t.recovery.log, r.code = cLinkUp) ∧ (∀ r, r ≠ p → t.port r = s.port r)
      ∧ t = { s.atTime now with link := t.link, recovery := t.recovery })

/-- R372, R373, R386: a port sends the first train that a negative acknowledgement asked for again, or a new one, which takes the
next sequence number and returns the freed credit, and whose bytes stay until they are acknowledged; where the replay buffer has no
room for the train, a control flit goes alone, and none where it has none for that, or while the port re-equalises. Each 1 ms the
port's replays are judged. An intact train in sequence is accepted: the next one is awaited, the trains up to its acknowledgement
are released, those after it go again where it asks, its credit is added and the flits that it freed are counted; any other train is
discarded and NAK is set. When a train is sent, and which one, is the model's choice (log 86), as are the credit that a transaction
costs (log 87) and the windows in which replays are judged (log 89). -/
def Obligations.TrainsAreSentAndTaken : Prop :=
  ∀ (s : State) (p : Nat) (now : Word64), s.linked p = true → s.sundial.toNat ≤ now.toNat →
    let q := s.port p
    let u := ((s.atTime now) : State).rollWindow p
    let x := u.port p
    let bytes := u.trainBytes x x.train
    let control := u.trainBytes x x.control
    let c := exec (.controlFlitTimer p now) s
    (x = if now.toNat < q.windowStart.toNat + 4000000 then q else
      { q with windowStart := now, windowTrains := 0, windowReplays := 0,
               degraded := q.degraded || decide (q.windowTrains < q.windowReplays * 10000) })
    ∧ (q.equalising = true → c = .next s ∧ ∀ fecOk corrected ctrl data, exec (.trainReceive p fecOk corrected ctrl data now) s = .next s)
    ∧ (q.equalising = false → q.resend = [] → x.heldBytes + bytes.length ≤ replayBytes → ∃ t, c = .next t
      ∧ (t.port p).txSeq = (q.txSeq + 1) % 65536 ∧ (t.port p).unacked = q.unacked ++ [{ seq := q.txSeq, bytes := bytes }]
      ∧ (t.port p).sent = bytes ∧ (t.port p).freed = [0, 0, 0, 0] ∧ (t.port p).credits = x.train.credits
      ∧ (t.port p).out = x.train.txns.foldl (fun l e => l.erase e) q.out ∧ (t.port p).windowTrains = x.windowTrains + 1
      ∧ (∀ r, r ≠ p → t.port r = s.port r)
      ∧ ((∀ m j, j ∈ (s.mover m).jobs → j.port = some p → j.under = false) →
          t = { s.atTime now with free := t.free, link := t.link, recovery := t.recovery }))
    ∧ (∀ e rest, q.equalising = false → q.resend = e :: rest → ∃ t, c = .next t
      ∧ t.port p = { x with resend := rest, sent := e.bytes, replays := min 65535 (x.replays + 1),
                            windowReplays := x.windowReplays + 1, windowTrains := x.windowTrains + 1 }
      ∧ (∀ r, r ≠ p → t.port r = s.port r) ∧ t = { s.atTime now with link := t.link, recovery := t.recovery })
    ∧ (q.equalising = false → q.resend = [] → replayBytes < x.heldBytes + bytes.length →
      (x.heldBytes + control.length ≤ replayBytes → ∃ t, c = .next t
        ∧ (t.port p).txSeq = (q.txSeq + 1) % 65536 ∧ (t.port p).unacked = q.unacked ++ [{ seq := q.txSeq, bytes := control }]
        ∧ (t.port p).sent = control ∧ (t.port p).freed = [0, 0, 0, 0] ∧ (t.port p).credits = q.credits ∧ (t.port p).out = q.out
        ∧ (∀ r, r ≠ p → t.port r = s.port r))
      ∧ (replayBytes < x.heldBytes + control.length → c = .next u))
    ∧ control.length = 256
    ∧ (∀ (fecOk : Bool) (corrected : Nat) (ctrl data : List Byte), q.equalising = false →
      let f := leNat ctrl
      let n := bits f 0 8
      let intact := fecOk = true ∧ ctrl.length = 256 ∧ data.length = 256 * n ∧ fieldAt f 0x18 0 32 = (if n = 0 then 0 else crc32c data)
        ∧ fieldAt f 0x1C 0 32 = crc32c (ctrl.take 0x1C ++ ctrl.drop 0x20)
      let taken := exec (.trainReceive p fecOk corrected ctrl data now) s
      let others (t : State) : Prop := (t.port p).corrected = min (2 ^ 32 - 1) (q.corrected + corrected)
        ∧ (∀ r, r ≠ p → t.port r = s.port r)
        ∧ t = { s.atTime now with link := t.link, sun := t.sun, recovery := t.recovery, free := t.free }
      (intact → half16 f 2 = q.rxSeq → ∃ t, taken = .next t ∧ others t
        ∧ (t.port p).rxSeq = (q.rxSeq + 1) % 65536 ∧ (t.port p).nak = false
        ∧ (t.port p).unacked = ackTrains (half16 f 4) q.unacked
        ∧ (bit f 48 = true → (t.port p).resend = ackTrains (half16 f 4) q.unacked)
        ∧ (∀ k, k < 4 → (t.port p).credits.getD k 0 = q.credits.getD k 0 + half16 f (8 + 2 * k)
            ∧ (t.port p).freed.getD k 0 = q.freed.getD k 0 + freedFlits f k)
        ∧ (t.port p).st = if bit f 49 then .partnerOos else .up)
      ∧ (¬ (intact ∧ half16 f 2 = q.rxSeq) → ∃ t, taken = .next t ∧ others t
        ∧ (t.port p).nak = true ∧ (t.port p).rxSeq = q.rxSeq ∧ (t.port p).unacked = q.unacked ∧ (t.port p).credits = q.credits
        ∧ (t.port p).freed = q.freed ∧ (t.port p).st = q.st))

/-- R375, R376, R379, R380, R386, R46, R47, R397: a request is refused while this module's state of service forbids it, goes on
toward another module with one hop less, or is applied here, and is answered on the route of its source, a directed or a host port's
on the port it came by. WRITE stores its units and is answered with ACK; READ_REQ is answered with the bytes it asks for, and with
the status MEM_POISON where one is poisoned; GSIG adds to a gate that allows remote signals and is answered with ACK; at any other
gate, as all are at reset, it is not applied: GATE_REMOTE_DENIED is recorded and answered. EXPORT is counted as discarded and has no
answer. A driver's access to control space by a host port, or a directed one to the mailbox or the link block, writes or reads its
registers; a session command waits while its port is full, what a host port brings after it waits behind it (R480), and an access
whose bytes a channel holds waits (R414, R426). The model's choices among these are what an out-of-service module answers (log 94),
the code of an access of the wrong size and the data of a read of several words (log 91, log 92), what a directed access reaches
(log 93), and the order of refusals (log 40). -/
def Obligations.RequestsAreAppliedAndAnswered : Prop :=
  ∀ (s : State) (p : Nat) (h : Hdr) (data : List Byte), p < 14 → s.linked p = true → (s.port p).equalising = false →
    let n := 64 * bits h.w2 0 7
    let back := if 12 ≤ p ∨ h.directed = true ∨ s.link.nodeValid = false then p else match s.routePort h.src with
      | .ok q => q
      | .error _ => p
    let here := h.directed = false ∧ s.link.nodeValid = true ∧ h.dst = s.link.nodeId
    let driver := bits h.w2 40 24 = 0 ∧ regionOf (bits h.w1 0 48) = .control
    let a := bits h.w1 0 48
    let size := bits h.w2 8 8
    let sent (t : State) (q : Nat) (r : Hdr) (d : List Byte) : Prop :=
      (t.port q).out = (s.port q).out ++ [{ hdr := { r with hops := r.hops - 1 }, data := placed 0 d, flow := 0x200 + p }]
        ∧ (∀ j, j ≠ q → t.port j = s.port j) ∧ t = { s with link := t.link }
    (∀ kind cmd d, (kind, cmd, d) ∈ [(tWrite, Instr.write p h data, data), (tReadReq, .readReq p h, []),
        (tGsig, .gsigTransaction p h, []), (tExport, .exportTxn p h data, data)] →
      let r := { h with kind := kind }
      let waits (r : Hdr) (d : List Byte) : Prop := exec cmd s = .next { s with sessions := { s.sessions with
        waiting := s.sessions.waiting ++ [{ port := p, hdr := r, data := d }] } }
      let refused (c : Nat) : Prop := ∃ t, exec cmd s = .next t ∧ t = { s with link := t.link }
        ∧ if kind = tExport then t = s else s.answered t back r tNack c []
      (s.serviceRefuses p r = true → refused cDeviceOutOfService)
      ∧ (s.serviceRefuses p r = false →
        (h.directed = false → s.link.nodeValid = false → refused cRouteNone)
        ∧ (h.directed = false → s.link.nodeValid = true → h.dst ≠ s.link.nodeId →
          (h.hops = 0 → refused cRouteTtl)
          ∧ (∀ c, h.hops ≠ 0 → s.routePort h.dst = .error c → refused c)
          ∧ (∀ q, h.hops ≠ 0 → s.routePort h.dst = .ok q → ∃ t, exec cmd s = .next t ∧ sent t q r d))
        ∧ (h.directed = true → 31 < h.hops + pathLength h →
          (s.recovery.oos = true → refused cDeviceOutOfService)
          ∧ (s.recovery.oos = false → 14 ≤ pathPort h → refused cRouteNone)
          ∧ (s.recovery.oos = false → pathPort h < 14 → s.linked (pathPort h) = false → refused cLinkLost)
          ∧ (s.recovery.oos = false → pathPort h < 14 → s.linked (pathPort h) = true → ∃ t, exec cmd s = .next t
            ∧ sent t (pathPort h) r d ∧ (t.port (pathPort h)).ingress = (s.port (pathPort h)).ingress
                ++ [([h.tag, h.w3, h.src, h.host.toNat, h.hostPort.toNat], p)]))
        ∧ (h.directed = true → h.hops + pathLength h ≤ 31 → kind ≠ tExport → (kind = tGsig ∨ ¬ driver) → refused cAddrUnmapped)
        ∧ (kind = tExport → (here ∨ (h.directed = true ∧ h.hops + pathLength h ≤ 31)) → ∃ t, exec cmd s = .next t
          ∧ t.port p = { s.port p with discards := min 65535 ((s.port p).discards + 1) } ∧ s.onlyPort t p)
        ∧ ((kind = tWrite ∨ kind = tReadReq) → (here ∨ (driver ∧ h.directed = true ∧ h.hops + pathLength h ≤ 31)) →
          s.behind p r = true → waits r d)
        ∧ ((kind = tWrite ∨ kind = tReadReq) → here → (p < 12 ∨ ¬ driver) → s.behind p r = false →
          (s.inService = false → refused cDeviceOutOfService)
          ∧ (∀ c, s.inService = true → s.targetAccess h.w1 h.w2 n (decide (kind = tWrite)) = .error c → refused c)
          ∧ (∀ x, s.inService = true → s.targetAccess h.w1 h.w2 n (decide (kind = tWrite)) = .ok x → s.heldIn x n = true → waits r d))
        ∧ ((kind = tWrite ∨ kind = tReadReq) → driver → ((here ∧ 12 ≤ p) ∨ (h.directed = true ∧ h.hops + pathLength h ≤ 31)) →
          s.behind p r = false →
          let rule := s.controlRefused h.directed (decide (kind = tWrite)) a (bits h.w2 0 7) size
          (∀ c, rule = some c → refused c)
          ∧ (rule = none → kind = tReadReq →
            let u := s.controlReadEffect a size
            u.linked p = true → ∃ t, exec cmd s = .next t
              ∧ u.answered t p r tReadResp 1 ((s.controlRead a size).zipIdx.map fun e => (e.2, e.1)) ∧ t = { u with link := t.link })
          ∧ (rule = none → kind = tWrite → (a ≠ sessionPortAddr ∨ size ≠ 64) →
            let u := s.controlWrite a size data
            u.linked p = true → ∃ t, exec cmd s = .next t ∧ u.answered t p r tAck 0 [] ∧ t = { u with link := t.link })
          ∧ (rule = none → kind = tWrite → a = sessionPortAddr → size = 64 →
            (s.agentsRun = false → refused cDeviceOutOfService)
            ∧ (s.agentsRun = true → s.sessions.port.length < 64 → ∃ t, exec cmd s = .next t
              ∧ t.sessions.port = s.sessions.port ++ [leNat (data.take 64)] ∧ s.answered t p r tAck 0 []
              ∧ t = { s with sessions := t.sessions, link := t.link })
            ∧ (s.agentsRun = true → 64 ≤ s.sessions.port.length → waits r data)))))
    ∧ (here → s.recovery.oos = false →
      (∀ x, (p < 12 ∨ ¬ driver) → s.behind p { h with kind := tWrite } = false → s.inService = true →
        s.targetAccess h.w1 h.w2 n true = .ok x → s.heldIn x n = false → data.length = n → ∃ t,
        exec (.write p h data) s = .next t ∧ (∀ k, k < n → t.mem.byte? (x + k) = data[k]?) ∧ s.sameOutside t x n
        ∧ s.answered t back { h with kind := tWrite } tAck 0 [] ∧ t = { s with mem := t.mem, link := t.link })
      ∧ (∀ x, (p < 12 ∨ ¬ driver) → s.behind p { h with kind := tReadReq } = false → s.inService = true →
        s.targetAccess h.w1 h.w2 n false = .ok x → s.heldIn x n = false → ∃ t, exec (.readReq p h) s = .next t
        ∧ s.answered t back h tReadResp (bits h.w2 0 7 + (if (s.poisonIn x n).isSome then cMemPoison else 0) * 2 ^ 16)
            ((s.rdBytes x n).zipIdx.map fun e => (e.2, e.1))
        ∧ t = { s with free := t.free, link := t.link })
      ∧ (bits h.w2 0 16 = 0 → ∃ t, exec (.gsigTransaction p h) s = .next t ∧ s.answered t back h tNack cGateOperand []
        ∧ t = { s with link := t.link })
      ∧ (bits h.w2 0 16 ≠ 0 → (s.gate (bits h.w1 0 17)).remote = true → ∃ t, exec (.gsigTransaction p h) s = .next t
        ∧ (t.gate (bits h.w1 0 17)).value = (s.gate (bits h.w1 0 17)).value + BitVec.ofNat 32 (bits h.w2 0 16)
        ∧ (∀ g, g ≠ bits h.w1 0 17 → t.gate g = s.gate g) ∧ s.answered t back h tAck 0 []
        ∧ t = { s with gates := t.gates, agents := t.agents, cluster := t.cluster, link := t.link })
      ∧ (bits h.w2 0 16 ≠ 0 → (s.gate (bits h.w1 0 17)).remote = false → ∃ t, exec (.gsigTransaction p h) s = .next t
        ∧ s.answered t back h tNack cGateRemoteDenied [] ∧ (∃ r ∈ t.recovery.log, r.code = cGateRemoteDenied)
        ∧ t = { s with link := t.link, recovery := t.recovery }))
    ∧ (∀ g, (State.reset.gate g).remote = false)

/-- R376, R377, R379, R380, R386, R48: a response to this module's own transaction ends it: its tag is free again, and a refusal
reaches the agent that sent it as a fault at its next boundary; so does the link's timeout, after which a late response to the tag
is discarded. A response for another module goes on with one hop less, one for a host port leaves by it, and a directed one goes
back by the port its request came from; one that finds no port, and every one while the module is out of service, is discarded. A
port without class-2 credit for the timeout in force when it ran out loses the jobs that take it (R397, R418). Where a transaction
ends, none waits here for its tag. The details of the fault that a NACK brings (log 118), that one command ends a transaction and
the jobs of a starved port (log 90), what becomes of transactions of a port that went down (log 95) and when a tag is used again
(log 139) are the model's. -/
def Obligations.ResponsesEndTransactions : Prop :=
  (∀ (s : State) (p kind : Nat) (h : Hdr) (cmd : Instr) (data d : List Byte) (code : Option Nat), p < 14 → s.linked p = true →
    (s.port p).equalising = false →
    (kind, cmd, d, code) ∈ [(tReadResp, Instr.readResp p h data, data, if bits h.w2 16 16 = 0 then none else some (bits h.w2 16 16)),
      (tAck, .ack p h, [], none), (tNack, .nack p h, [], some (bits h.w2 0 16))] →
    let r := { h with kind := kind }
    let sent (t : State) (q : Nat) (r : Hdr) : Prop :=
      (t.port q).out = (s.port q).out ++ [{ hdr := r, data := placed 0 d, flow := 0x200 + p }] ∧ t = { s with link := t.link }
    (s.recovery.oos = true → exec cmd s = .next s)
    ∧ (s.recovery.oos = false →
      (h.directed = true →
        let key := [h.tag, h.w3, h.dst, h.host.toNat, h.hostPort.toNat]
        ((s.port p).ingress.find? (fun e => decide (e.1 = key)) = none → exec cmd s = .next s)
        ∧ (∀ e, (s.port p).ingress.find? (fun e => decide (e.1 = key)) = some e → ∃ t, exec cmd s = .next t
          ∧ (t.port p).ingress = (s.port p).ingress.erase e ∧ (s.linked e.2 = true → sent t e.2 { r with hops := r.hops - 1 })
          ∧ (∀ q, q ≠ p → q ≠ e.2 → t.port q = s.port q)))
      ∧ (h.directed = false → (s.link.nodeValid = false ∨ h.dst ≠ s.link.nodeId) →
        (∀ c, (h.hops = 0 ∨ s.routePort h.dst = .error c) → exec cmd s = .next s)
        ∧ (∀ q, h.hops ≠ 0 → s.routePort h.dst = .ok q → ∃ t, exec cmd s = .next t ∧ sent t q { r with hops := r.hops - 1 }
          ∧ ∀ j, j ≠ q → t.port j = s.port j))
      ∧ (h.directed = false → s.link.nodeValid = true → h.dst = s.link.nodeId →
        (h.host = true → s.linked (12 + h.hostPort.toNat) = false → exec cmd s = .next s)
        ∧ (h.host = true → s.linked (12 + h.hostPort.toNat) = true → ∃ t, exec cmd s = .next t ∧ sent t (12 + h.hostPort.toNat) r
          ∧ ∀ j, j ≠ 12 + h.hostPort.toNat → t.port j = s.port j)
        ∧ (h.host = false → mapFind h.tag s.link.pending = none →
          exec cmd s = .next { s with link := { s.link with stale := s.link.stale.erase h.tag } })
        ∧ (∀ e, h.host = false → mapFind h.tag s.link.pending = some e → s.link.waiting = [] → ∃ t, exec cmd s = .next t
          ∧ mapFind h.tag t.link.pending = none
          ∧ (∀ g, g ≠ h.tag → mapFind g t.link.pending = mapFind g s.link.pending) ∧ t.link.ports = s.link.ports
          ∧ (∀ i, i ≠ e.agent → t.agent i = s.agent i)
          ∧ (t.agent e.agent).boundary = (s.agent e.agent).boundary ++ (match code with
              | some c => [e.fault c (decide (¬ (s.link.nodeValid = true ∧ e.node = s.link.nodeId)))]
              | none => [])
          ∧ t = { s with link := t.link, agents := t.agents }))))
  ∧ (∀ (s : State) (tag : Nat) (now : Word64), s.alwaysOn = true → s.sundial.toNat ≤ now.toNat →
    (∀ e, mapFind tag s.link.pending = some e → usTicks e.limit ≤ now.toNat - e.sentAt.toNat → s.link.waiting = [] →
      (∀ r, (s.port r).starved = none) → ∃ t, exec (.linkTimeout tag now) s = .next t
      ∧ mapFind tag t.link.pending = none ∧ t.link.stale = s.link.stale ++ [tag]
      ∧ (t.agent e.agent).boundary = (s.agent e.agent).boundary ++ [e.fault cLinkTimeout true]
      ∧ (∀ i, i ≠ e.agent → t.agent i = s.agent i) ∧ t = { s.atTime now with link := t.link, agents := t.agents })
    ∧ (∀ p t0 limit, p < 14 → (s.port p).starved = some (t0, limit) → usTicks limit ≤ now.toNat - t0.toNat → ∃ t,
      exec (.linkTimeout tag now) s = .next t ∧ (t.port p).starved = none ∧ ∀ m, m < 16 → ∀ j ∈ (t.mover m).jobs, j.port ≠ some p))

/-- R378, R379, R381: LINK_NODE_ID sets the node ID while no agent has an entry, and is rejected otherwise; a write of a routing
entry sets its flags and those of its ports that name a port of the module. R85: a driver's write of an object's word changes the
entry's driver-written fields while the object is invalid or absent and unpinned and its salt is valid; any other write that would
change a field is rejected and recorded. That a rejected write clears no bit is the model's reading (log 48). -/
def Obligations.DriverTablesTakeEffect : Prop :=
  (∀ (s : State), s.driverReaches = true →
    (∀ w : RegVal, w.hasLow = true → s.anyEntry = true →
      exec (.linkNodeId w) s = .next { s with link := { s.link with nodeRejected := true } })
    ∧ (∀ w : RegVal, w.hasLow = true → s.anyEntry = false → ∃ t, exec (.linkNodeId w) s = .next t
      ∧ t.link.nodeId = w.fld 0 14 ∧ t.link.nodeValid = bit w.value.toNat 14
      ∧ t.link.nodeRejected = (s.link.nodeRejected && !bit w.value.toNat 15)
      ∧ (∀ p, p < 14 → s.linked p = true → (t.port p).out.length = (s.port p).out.length + 1)
      ∧ t = { s with link := t.link })
    ∧ (∀ (n : Nat) (v : BitVec 32), n < 16384 → ∃ t, exec (.routeEntryWrite n v) s = .next t
      ∧ (t.route n).valid = bit v.toNat 4 ∧ (t.route n).altValid = bit v.toNat 12
      ∧ (t.route n).port = (if bits v.toNat 0 4 < 14 then bits v.toNat 0 4 else (s.route n).port)
      ∧ (t.route n).altPort = (if bits v.toNat 8 4 < 14 then bits v.toNat 8 4 else (s.route n).altPort)
      ∧ (∀ k, k ≠ n → t.route k = s.route k) ∧ t = { s with link := t.link }))
  ∧ (∀ (s : State) (i k : Nat) (w : RegVal), s.driverReachesFast = true → i < 0x100000 → k < 4 →
    let o := s.obj i
    let o1 := o.driverWord k (mergeHalf (bits o.word (64 * k) 64) w)
    let free := o1.salt / 128 < 21 ∧ (o.valid = false ∨ (o.st = .absent ∧ o.pins = 0))
    (free → ∃ t, exec (.objTableWrite i k w) s = .next t ∧ t.obj i = o1 ∧ (∀ j, j ≠ i → t.obj j = s.obj j)
      ∧ t = { s with objects := t.objects })
    ∧ (¬ free → o1 ≠ o → exec (.objTableWrite i k w) s
        = .next { s with objects := { s.objects with rejected := true, lastIndex := i } }))

/-! ## The Sundial (ch 12) -/

/-- R388, R389, R391, R392, R395, R414: a SYNC_REQ is answered with the two timestamps, and a partner in service has its
advertisement kept; the SYNC_RESP gives the partner's offset, steers a LOCKED module that takes it from its parent, and from any
other port changes nothing else; a port that re-equalises carries neither. A port's period ages its advertisement and sends a
SYNC_REQ, but not while the port re-equalises, which it does only in a window of both ends. An edge of PPS_IN makes it valid when
the last four are 1 s ± 1 µs apart, and one off time or missing makes it invalid; only the master follows the pulse, which a module
out of service never is (R386). That readings between two events leave out the slew, which is used up over them, is the model's (log
3). So are the units of an exchange and which exchanges steer (log 96), that the input is valid on every module that has it enabled
while the master alone follows it (log 98), and what a port learns of its partner's window (log 99). -/
def Obligations.SundialExchanges : Prop :=
  ∀ (s : State) (p : Nat) (h : Hdr) (now : Word64), p < 14 → s.sundial.toNat ≤ now.toNat →
    (∀ t2 t3, (s.linked p = false ∨ (s.port p).equalising = true) → exec (.syncReq p h t2 t3) s = .next s
      ∧ exec (.syncResp p h t2) s = .next s)
    ∧ (∀ t2 t3, s.linked p = true → (s.port p).equalising = false → ∃ t, exec (.syncReq p h t2 t3) s = .next t
      ∧ (t.port p).adv = (if s.usable p then
          some { serial := h.w1, distance := bits h.w2 0 5, locked := bit h.w2 5, pps := bit h.w2 6, age := 0 } else (s.port p).adv)
      ∧ (∃ x, (t.port p).out = (s.port p).out ++ [x] ∧ x.hdr.kind = tSyncResp ∧ x.hdr.w1 = t2 % 2 ^ 64 ∧ x.hdr.w2 = t3 % 2 ^ 64)
      ∧ (∀ r, r ≠ p → t.port r = s.port r) ∧ t = { s with link := t.link, sun := t.sun })
    ∧ (∀ t1 t4, s.linked p = true → (s.port p).equalising = false → (s.port p).t1 = some t1 →
        (p ≠ s.sun.parent ∨ s.sun.best = none ∨ (s.port p).adv = none) → ∃ t, exec (.syncResp p h t4) s = .next t
      ∧ (t.port p).offset = some (syncOffset t1 h.w1 h.w2 t4 (s.port p).asymTrim)
      ∧ (t.port p).pathDelay = syncDelay t1 h.w1 h.w2 t4 ∧ (t.port p).t1 = none ∧ s.onlyPort t p)
    ∧ (∀ t1 t4 a, s.usable p = true → (s.port p).equalising = false → (s.port p).t1 = some t1 → p = s.sun.parent →
        s.sun.best.isSome = true → (s.port p).adv = some a → s.sun.st = .locked → ∃ t, exec (.syncResp p h t4) s = .next t
      ∧ (t.port p).offset = some (syncOffset t1 h.w1 h.w2 t4 (s.port p).asymTrim)
      ∧ (let e := t.syncError
        (e.2 = 0 → t.sun = { s.sun with good := 0 })
        ∧ (e.2 ≠ 0 → t.sun.st = (if e.1.natAbs ≤ 512 * e.2 then .locked else .acquiring)
          ∧ t.sun.lockLost = (s.sun.lockLost || decide (512 * e.2 < e.1.natAbs))
          ∧ t.sun.slew = 625 * max (-1280) (min 1280 (e.1.tdiv (2 * e.2))) ∧ t.sun.slewLeft = some 200000))
      ∧ t = { s with link := t.link, sun := t.sun })
    ∧ (∀ t1 b, s.alwaysOn = true → ∃ t, exec (.syncPeriod p t1 b) s = .next t
      ∧ ((t.port p).equalising = true ↔ b = true ∧ s.power.inWindow = true ∧ s.usable p = true ∧ (s.port p).pWindow = true)
      ∧ (s.linked p = true → (t.port p).equalising = false → (t.port p).t1 = some (t1 % 2 ^ 64)
        ∧ ∃ x, (t.port p).out = (s.port p).out ++ [x] ∧ x.hdr.kind = tSyncReq)
      ∧ ((s.linked p = false ∨ (t.port p).equalising = true) → (t.port p).out = (s.port p).out)
      ∧ (∀ a, (s.port p).adv = some a → (t.port p).adv =
          if a.age + 1 < 4 ∨ (t.port p).equalising = true then some { a with age := a.age + 1 } else none)
      ∧ (∀ r, r ≠ p → t.port r = s.port r) ∧ t = { s with link := t.link, sun := t.sun })
    ∧ (s.alwaysOn = true → s.sun.ppsEn = true → ∃ t, exec (.ppsEdge now) s = .next t
      ∧ t.sun.lastPps = some now
      ∧ (∀ l, s.sun.lastPps = some l → ppsOnTime l now = true → 2 ≤ s.sun.ppsGood → t.sun.ppsValid = true)
      ∧ (∀ l, s.sun.lastPps = some l → ppsOnTime l now = false → t.sun.ppsValid = false ∧ (s.masters = true → t.sun.slew = 0))
      ∧ (s.masters = false → t.sun.slew = (s.atTime now).sun.slew ∧ t.sun.slewLeft = (s.atTime now).sun.slewLeft)
      ∧ t = { s.atTime now with sun := t.sun })
    ∧ (∀ l, s.alwaysOn = true → s.sun.lastPps = some l → 4000004000 < now.toNat - l.toNat → ∃ t,
      exec (.ppsEdgeLoss now) s = .next t ∧ t.sun.ppsValid = false ∧ t.sun.lastPps = none ∧ (s.masters = true → t.sun.slew = 0)
      ∧ t = { s.atTime now with sun := t.sun })

/-! ## Power (ch 13) -/

/-- R407, R413 to R416: the driver sets the profile and the mowing windows while no agent has an entry, values out of range being
ignored; with an entry the write is only recorded as rejected. A change of profile unseeds the arrays' lanes (R327). A window
opens once at its scheduled time for MOW_LENGTH, or 200 ms after the last one began, when it is recorded with that time; at its
end no port re-equalises, no channel is calibrated, and the accesses that the channels held perform. -/
def Obligations.ProfilesAndWindows : Prop :=
  (∀ (s : State) (w : RegVal), s.driverReaches = true → w.half = .both →
    (s.anyEntry = true →
      exec (.powerProfile w) s = .next { s with power := { s.power with profileRejected := true } }
      ∧ exec (.mowConfig w) s = .next { s with power := { s.power with mowRejected := true } }
      ∧ exec (.mowPhase w) s = .next { s with power := { s.power with mowRejected := true } })
    ∧ (s.anyEntry = false →
      (∃ t, exec (.powerProfile w) s = .next t ∧ t.power.lean = bit w.value.toNat 0
        ∧ t.power.profileRejected = (s.power.profileRejected && !bit w.value.toNat 2) ∧ t.power.leanActive = s.power.leanActive
        ∧ t = { s with power := t.power })
      ∧ (∃ t, exec (.mowConfig w) s = .next t ∧ t.power.mowEn = bit w.value.toNat 0
        ∧ t.power.mowLength = (if 10 ≤ w.fld 8 8 ∧ w.fld 8 8 ≤ 50 then w.fld 8 8 else s.power.mowLength)
        ∧ t.power.mowPeriod = (if 1000 ≤ w.fld 16 24 ∧ w.fld 16 24 ≤ 100000 then w.fld 16 24 else s.power.mowPeriod)
        ∧ t = { s with power := t.power })
      ∧ exec (.mowPhase w) s = .next { s with power := { s.power with mowPhase := w.value } }))
  ∧ (∀ (s : State) (now : Word64), s.alwaysOn = true → s.sundial.toNat ≤ now.toNat →
    (s.power.lean ≠ s.power.leanActive → ∃ t, exec (.profileChange now) s = .next t
      ∧ t.power = { s.power with leanActive := s.power.lean }
      ∧ (∀ a, (t.array a).lanes = [] ∧ (t.array a).lkLive = false ∧ (t.array a).keyBase = (s.array a).keyBase)
      ∧ t = { s.atTime now with power := t.power, arrays := t.arrays, codec := t.codec })
    ∧ (s.power.lean = s.power.leanActive → exec (.profileChange now) s = .next s)
    ∧ (s.power.mowEn = true → s.power.inWindow = false → s.power.mowPhase.toNat ≤ now.toNat →
      (∀ l, s.power.lastWindow = some l → l.toNat < s.power.windowAt now.toNat) →
      now.toNat < s.power.windowAt now.toNat + 4000 * s.power.mowLength → ∃ t, exec (.mowWindowStart now) s = .next t
      ∧ t.power.inWindow = true ∧ t.power.windowEnd = now + BitVec.ofNat 64 (4000 * s.power.mowLength)
      ∧ t.power.lastWindow = some now ∧ t = { s.atTime now with power := t.power, free := t.free })
    ∧ (s.power.inWindow = true → s.power.windowEnd.toNat ≤ now.toNat → ∃ t : State, exec (.mowWindowEnd now) s = .next t.releaseHeld
      ∧ t.power = { s.power with inWindow := false, calibrating := [] } ∧ (∀ p, (t.port p).equalising = false)
      ∧ (s.sessions.waiting = [] → t.releaseHeld = t) ∧ t = { s.atTime now with power := t.power, link := t.link })
    ∧ (s.power.inWindow = false →
      let gap := match s.power.lastWindow with
        | some l => now.toNat - l.toNat
        | none => now.toNat
      800000000 ≤ gap → ∃ t, exec (.mowForced now) s = .next t
      ∧ t.power.inWindow = true ∧ t.power.forced = true ∧ t.power.lateness.toNat = gap ∧ t.power.lastWindow = some now
      ∧ t.power.windowEnd = now + BitVec.ofNat 64 (4000 * min s.power.mowLength 20)
      ∧ t = { s.atTime now with power := t.power, recovery := t.recovery, free := t.free }))

/-- R408, R409, R411, R399: an envelope sample is kept with its peak, and pauses no array, nor has one pause at its next compute-row
boundary, while the envelope and its 100 ms mean stay within 2,400 W; the input's power above 3,000 W for longer than 100 µs
switches the module off, as does an input voltage outside its bands for longer than they allow, or above 66 V. That the clock of an
excursion restarts with its band is the model's reading (log 101). -/
def Obligations.EnvelopeAndInputAreWatched : Prop :=
  ∀ (s : State) (now : Word64), s.alwaysOn = true → s.sundial.toNat ≤ now.toNat →
    let off (t : State) : Prop := t.pins.phase = .off ∧ t.pins.pendingCause = 5 ∧ t.agents = [] ∧ t.gates = []
      ∧ t.recovery.nextSeq = s.recovery.nextSeq + 1 ∧ t.gatehouse.boots = s.gatehouse.boots
    (∀ gbs ice, s.agentsRun = true → ∃ t, exec (.envelopeSample now gbs ice) s = .next t
      ∧ t.power.envelope = ((s.atTime now)).envelopeOf gbs ice
      ∧ t.power.peak = max s.power.peak (((s.atTime now)).envelopeOf gbs ice / 10000)
      ∧ (((s.atTime now)).envelopeOf gbs ice ≤ 24000000 → meanPasses now.toNat t.power.history = false →
          ∀ a, ((t.array a).paused = true → (s.array a).paused = true) ∧ ((t.array a).pausing = true → (s.array a).pausing = true))
      ∧ t.mem = s.mem ∧ t.gates = s.gates ∧ t.objects = s.objects)
    ∧ (∀ w, (w ≤ 3000 → exec (.inputPowerSample w now) s
          = .next { s.atTime now with power := { s.power with inputW := w, overload := none } })
      ∧ (∀ o, 3000 < w → o = s.power.overload.getD now →
          (now.toNat - o.toNat ≤ 400000 → exec (.inputPowerSample w now) s
            = .next { s.atTime now with power := { s.power with inputW := w, overload := some o } })
          ∧ (400000 < now.toNat - o.toNat → ∃ t, exec (.inputPowerSample w now) s = .next t ∧ off t)))
    ∧ (∀ mv, (40000 ≤ mv → mv ≤ 60000 → exec (.inputSag mv now) s
          = .next { s.atTime now with power := { s.power with inputMv := mv, sagSince := none, sagRaised := false } })
      ∧ (36000 ≤ mv → mv < 40000 → s.power.sagRaised = false → ∃ t, exec (.inputSag mv now) s = .next t
        ∧ t.power.inputMv = mv ∧ t.power.sagFlag = true ∧ t.power.sagRaised = true
        ∧ t = { s.atTime now with power := t.power, recovery := t.recovery })
      ∧ ((mv < 36000 ∨ (60000 < mv ∧ mv ≤ 66000)) → ∃ t, exec (.inputSag mv now) s = .next t
        ∧ t.power = { s.power with inputMv := mv, sagSince := t.power.sagSince } ∧ t.power.sagSince.isSome = true
        ∧ t = { s.atTime now with power := t.power })
      ∧ (66000 < mv → (∃ t, exec (.inputSag mv now) s = .next t ∧ off t) ∧ ∃ t, exec (.powerFail mv now) s = .next t ∧ off t)
      ∧ (∀ l, inputBand s.power.inputMv = inputBand mv → inputBand mv ≠ 0 → s.power.sagSince = some l →
          bandLimit (inputBand mv) < now.toNat - l.toNat → ∃ t, exec (.powerFail mv now) s = .next t ∧ off t))

/-- R412, Table 13-6: a report is kept; below 100 °C nothing else changes, and below 110 °C only the record of a hot compute die. A
compute die at 110 °C trips: its arrays fault and are power-gated; a memory-side die or the I/O die at 110 °C starts a warm reset
with its dump. The driver resumes a tripped die below 95 °C. -/
def Obligations.DieTemperaturesAct : Prop :=
  ∀ (s : State), s.agentsRun = true →
    (∀ die temp, die < 17 → temp < 110 → ∃ t, exec (.dieTempReport die temp) s = .next t
      ∧ t.dieTemp die = temp ∧ (∀ d, d ≠ die → t.dieTemp d = s.dieTemp d) ∧ t.power.tripped = s.power.tripped
      ∧ ((temp < 100 ∨ 8 ≤ die ∨ die ∈ s.power.hot) → t.recovery = s.recovery)
      ∧ (die < 8 → 100 ≤ temp → die ∈ t.power.hot) ∧ (die < 8 → temp < 97 → die ∉ t.power.hot)
      ∧ t = { s with power := t.power, recovery := t.recovery })
    ∧ (∀ die temp, die < 8 → 110 ≤ temp → die ∉ s.power.tripped → s.recovery.dumpValid = false → ∃ t,
      exec (.dieTempReport die temp) s = .next t ∧ t.dieTemp die = temp ∧ die ∈ t.power.tripped ∧ die ∈ t.power.trip
      ∧ (∀ k, k < 24 → (t.agent (24 * die + k)).gating = .powerGated ∧ (t.agent (24 * die + k)).fault.isSome = true))
    ∧ (∀ die temp, 8 ≤ die → die < 17 → 110 ≤ temp → s.recovery.dumpValid = false → ∃ t,
      exec (.dieTempReport die temp) s = .next t ∧ t.recovery.dumping.isSome = true
      ∧ t = { s with power := t.power, recovery := t.recovery })
    ∧ (∀ w : RegVal, s.driverReaches = true → w.hasLow = true → ∃ t, exec (.dieTrip w) s = .next t
      ∧ (∀ d, d ∈ t.power.tripped ↔ d ∈ s.power.tripped ∧ ¬ (bit w.value.toNat d = true ∧ s.dieTemp d < 95))
      ∧ (∀ d, d ∈ t.power.trip ↔ d ∈ s.power.trip ∧ ¬ (bit w.value.toNat d = true ∧ s.dieTemp d < 95))
      ∧ t = { s with power := t.power })

/-! ## Resets and recovery (ch 14) -/

/-- R352, R422 to R426: a reset of one domain that the driver asks for, with none in progress for it, ends what the domain runs: its
agents are resetting with no program and keep their pending slots, an agent without a record takes AGENT_RESET, and the reset is in
progress. One asked for while it is in progress, or within 30 µs of an expiry of the agent's own watchdog, has no effect (R423).
That an idle agent's reset writes a record as well is the model's reading (log 103). -/
def Obligations.DomainResetsTakeEffect : Prop :=
  ∀ (s : State), s.agentsRun = true →
    let hit (t : State) (i : Nat) : Prop := (t.agent i).prog = .resetting ∧ (t.agent i).running = none
      ∧ (t.agent i).pending = (s.agent i).pending ∧ (t.agent i).waits = [] ∧ (t.agent i).fences = [] ∧ (t.agent i).signals = []
    let faulted (t : State) (i : Nat) : Prop := (s.agent i).fault = none → ∃ r, (t.agent i).fault = some r
      ∧ r.info.code = cAgentReset ∧ r.agent = i ∧ r.sundial = s.sundial
    let begun (t : State) (d k : Nat) : Prop := t.recovery.resets = s.recovery.resets ++ [{ domain := d, target := k }]
    (∀ a done, a < 192 → (s.absorbs 1 a = true → exec (.arrayReset a done) s = .next s)
      ∧ (s.absorbs 1 a = false → ∃ t, exec (.arrayReset a done) s = .next t ∧ hit t a ∧ begun t 1 a ∧ (done = false → faulted t a)
        ∧ (t.array a).flights = [] ∧ (t.array a).descs = [] ∧ (t.array a).lanes = [] ∧ (∀ b, b ≠ a → t.array b = s.array b)))
    ∧ (∀ m, m < 16 → (s.absorbs 2 (208 + m) = true → exec (.moverReset m) s = .next s)
      ∧ (s.absorbs 2 (208 + m) = false → ∃ t, exec (.moverReset m) s = .next t ∧ hit t (208 + m) ∧ begun t 2 (208 + m)
        ∧ faulted t (208 + m) ∧ (t.mover m).cmd = none ∧ (t.mover m).jobs = []))
    ∧ (∀ c, c < 6 → (s.absorbs 3 (224 + c) = true → exec (.codecCoreReset c) s = .next s)
      ∧ (s.absorbs 3 (224 + c) = false → ∃ t, exec (.codecCoreReset c) s = .next t ∧ hit t (224 + c) ∧ begun t 3 (224 + c)
        ∧ faulted t (224 + c) ∧ t.codecCore c = {} ∧ t.arrays = s.arrays))
    ∧ ((s.absorbs 4 0 = true → exec .hostCoreClusterReset s = .next s)
      ∧ (s.absorbs 4 0 = false → ∃ t, exec .hostCoreClusterReset s = .next t ∧ (∀ k, k < 16 → hit t (192 + k)) ∧ begun t 4 0
        ∧ (∀ k, k < 16 → (s.agent (192 + k)).running.isSome = true → faulted t (192 + k))
        ∧ t.cluster = {} ∧ (∀ i, (i < 192 ∨ 208 ≤ i) → t.agent i = s.agent i) ∧ s.sameBytes t))
    ∧ (∀ p, p < 14 → (s.absorbs 5 p = true → exec (.portReset p) s = .next s)
      ∧ (s.absorbs 5 p = false → ∃ t, exec (.portReset p) s = .next t ∧ begun t 5 p ∧ (t.port p).st = .down
        ∧ (t.port p).maxGen = (s.port p).maxGen ∧ (t.port p).asymTrim = (s.port p).asymTrim ∧ (t.port p).out = []))
    ∧ (∀ c, c < 1024 → (s.absorbs 6 c = true → exec (.channelRetrain c) s = .next s)
      ∧ (s.absorbs 6 c = false → ∃ t, exec (.channelRetrain c) s = .next t ∧ begun t 6 c
        ∧ (∀ k, k ∈ t.mem.retraining ↔ k = c ∨ k ∈ s.mem.retraining)
        ∧ (∀ k, k ∈ t.power.calibrating ↔ k ∈ s.power.calibrating ∧ k ≠ c)
        ∧ s.sameBytes t ∧ t = { s with mem := t.mem, recovery := t.recovery, power := t.power }))

/-- R418 to R420, R422, R427, R449, R485: an agent that makes no progress for its limit, holds apart, is reset, with
PROGRESS_TIMEOUT and the time of its last progress event; where events of Table 14-2 come between those of the model, that time is
free (log 156). A finished reset leaves its agent faulted while it holds a record and idle otherwise, frees it where its clear was
asked for meanwhile; a channel that trained works again and performs what it held, one that did not goes on training; images that
have changed since the boot halt it. The driver's clear frees a faulted agent, has a faulted core clear its caches first, or waits
for the agent's reset. -/
def Obligations.AgentsAreResetAndResume : Prop :=
  (∀ (s : State) (i : Nat) (now : Word64), s.agentsRun = true → i < 230 → s.sundial.toNat ≤ now.toNat →
    ((s.agent i).prog = .running ∨ (s.agent i).prog = .ending) →
    (s.agent i).running.isSome = true → s.watchPaused i = false →
    4000 * (s.agent i).watchLimit + (s.agent i).watchHeld ≤ now.toNat - s.lastEvent i now →
    (isArray i = true → (s.atTime now).nextRow i .store = none) → ∃ t, exec (.progressTimeout i now) s = .next t
      ∧ (t.agent i).prog = .resetting ∧ (t.agent i).running = none ∧ t.sundial = now
      ∧ ((s.agent i).fault = none → ∃ r, (t.agent i).fault = some r ∧ r.info.code = cProgressTimeout ∧ r.info.d0 = (s.agent i).watchLimit
        ∧ r.info.d1 = s.lastEvent i now ∧ (s.progressUnseen i = false → r.info.d1 = (s.agent i).lastProgress.toNat)))
  ∧ (∀ (s : State) (d k : Nat) (ok : Bool), s.alwaysOn = true → s.recovery.dumping = none → { domain := d, target := k } ∈ s.recovery.resets →
    let past (t : State) : Prop := ∀ x, x ∈ t.recovery.resets ↔ x ∈ s.recovery.resets ∧ x ≠ { domain := d, target := k }
    let back (i : Nat) : Sys2Proof.Machine.Prog := if (s.agent i).fault.isSome then .faulted else .idle
    (d ≤ 3 → (s.agent k).clearWanted = false → ∃ t, exec (.resetComplete d k ok) s = .next t ∧ past t
      ∧ (t.agent k).prog = back k ∧ (t.agent k).pending = (s.agent k).pending
      ∧ (∀ i, i ≠ k → t.agent i = s.agent i) ∧ t = { s with agents := t.agents, recovery := t.recovery })
    ∧ (d ≤ 3 → isCore k = false → (s.agent k).clearWanted = true → ∃ t, exec (.resetComplete d k ok) s = .next t ∧ past t
      ∧ (t.agent k).prog = .idle ∧ (t.agent k).fault = none ∧ (t.agent k).clearWanted = false
      ∧ (t.agent k).pending = (s.agent k).pending
      ∧ (∀ i, i ≠ k → t.agent i = s.agent i) ∧ t = { s with agents := t.agents, recovery := t.recovery })
    ∧ (d = 4 → s.imageChanged [4] = false → (∀ j, j < 16 → (s.agent (192 + j)).clearWanted = false) → ∃ t,
      exec (.resetComplete d k ok) s = .next t ∧ past t ∧ (∀ j, j < 16 → (t.agent (192 + j)).prog = back (192 + j))
      ∧ (∀ i, isCore i = false → t.agent i = s.agent i) ∧ t = { s with agents := t.agents, recovery := t.recovery })
    ∧ (d = 5 → ∃ t, exec (.resetComplete d k ok) s = .next t ∧ past t ∧ t = { s with recovery := t.recovery })
    ∧ (d = 6 → ok = true → ∃ t : State, exec (.resetComplete d k ok) s = .next t.releaseHeld ∧ past t
      ∧ (∀ c, c ∈ t.mem.retraining ↔ c ∈ s.mem.retraining ∧ c ≠ k) ∧ (s.sessions.waiting = [] → t.releaseHeld = t)
      ∧ t = { s with mem := t.mem, recovery := t.recovery })
    ∧ (d = 6 → ok = false → (mapFind k s.mem.retrainFails).getD 0 < 2 → ∃ t : State, exec (.resetComplete d k ok) s = .next t.releaseHeld ∧ past t
      ∧ t.mem.retraining = s.mem.retraining ∧ (s.sessions.waiting = [] → t.releaseHeld = t)
      ∧ t = { s with mem := t.mem, recovery := t.recovery })
    ∧ (d = 7 → s.imageChanged [2, 3, 4] = false → ok = true → ∃ t, exec (.resetComplete d k ok) s = .next t ∧ past t
      ∧ t = { s with recovery := t.recovery })
    ∧ (((d = 4 ∧ s.imageChanged [4] = true) ∨ (d = 7 ∧ s.imageChanged [2, 3, 4] = true)) → ∃ t,
      exec (.resetComplete d k ok) s = .next t
      ∧ t.gatehouse = { s.gatehouse with halted := true, ready := false, reason := 4 }))
  ∧ (∀ (s : State) (i : Nat) (w : RegVal), s.driverReachesFast = true → i < 230 → w.hasLow = true → bit w.value.toNat 0 = true →
    (s.agent i).fault.isSome = true →
    ((s.agent i).prog = .resetting → ∃ t, exec (.agentFaultClear i w) s = .next t
      ∧ t.agent i = { s.agent i with clearWanted := true } ∧ s.onlyAgent t i)
    ∧ ((s.agent i).prog = .faulted → isCore i = false → ∃ t, exec (.agentFaultClear i w) s = .next t
      ∧ (t.agent i).fault = none ∧ (t.agent i).prog = .idle ∧ (t.agent i).running = none ∧ (t.agent i).pending = (s.agent i).pending
      ∧ s.onlyAgent t i)
    ∧ ((s.agent i).prog = .faulted → isCore i = true → ∃ t, exec (.agentFaultClear i w) s = .next t
      ∧ (t.agent i).fault = none ∧ (t.core (i - 192)).clearing = true ∧ t = { s with agents := t.agents, cluster := t.cluster }))

/-- R428, R436, R423, R471: a warm reset without a dump clears the fast domains, keeps gates, the Icehouse and the wakes asked for, and
takes every port DOWN; one that the device starts captures its dump first. A cold reset switches the module off and keeps what lies
in flash, where a dump under way is completed first. R421,
R431, R449, R434: a restart of the Gatehouse is logged and counted toward escalation; while it lasts the rest of the device goes
on, and it ends well when its own image has not changed. The log's mirror marks the records copied to flash. -/
def Obligations.DeviceResetsAndRestarts : Prop :=
  (∀ (s : State) (cause : Nat),
    let warm (t : State) : Prop := t.arrays = [] ∧ t.movers = [] ∧ t.cluster = {} ∧ t.codec = {}
      ∧ (∀ i, (t.agent i).prog = .idle ∧ (t.agent i).fault = none ∧ (t.agent i).pending = none
          ∧ (t.agent i).gateTimeout = (s.agent i).gateTimeout ∧ (t.agent i).awakeUntil = (s.agent i).awakeUntil
          ∧ ((s.agent i).awakeUntil.isSome = true → (t.agent i).wakeAt = (s.agent i).wakeAt))
      ∧ (∀ p, (t.port p).st = .down ∧ (t.port p).maxGen = (s.port p).maxGen) ∧ t.gatehouse.warms = s.gatehouse.warms + 1
      ∧ t.gates = s.gates ∧ t.recovery.resets = [{ domain := 7, target := 0 }] ∧ t.recovery.dumping = none
      ∧ (∀ a, t.mem.byte? a = if regionOf a = .ice then s.mem.byte? a else none)
    (s.inService = true → s.warmResetting = false → s.stampEvent.atLimit = false →
      (∃ t, exec (.deviceWarmReset 1 false) s = .next t ∧ warm t)
      ∧ (cause ≠ 1 → s.recovery.dumpValid = false → ∃ t, exec (.deviceWarmReset cause false) s = .next t
        ∧ t.recovery.dumping.isSome = true ∧ t = { s with recovery := t.recovery }))
    ∧ (∀ seq, s.alwaysOn = true → s.recovery.dumping = some (seq, false) → ∃ t, exec .dumpCaptureComplete s = .next t
      ∧ warm t ∧ t.recovery.dumpValid = true ∧ t.recovery.dumpKib = 135168 + 8192 * s.dumpArrays.length)
    ∧ (s.alwaysOn = true → ∃ t, exec (.deviceColdReset cause) s = .next t
      ∧ t.pins.phase = .off ∧ t.pins.pendingCause = cause ∧ t.agents = [] ∧ t.gates = [] ∧ t.mem = {} ∧ t.arrays = [] ∧ t.objects = {}
      ∧ t.recovery.oos = s.recovery.oos ∧ t.recovery.events = s.recovery.events ∧ t.recovery.nextSeq = s.recovery.nextSeq
      ∧ (s.recovery.dumping = none → t.recovery.dump = s.recovery.dump ∧ t.recovery.dumpValid = s.recovery.dumpValid)
      ∧ (∀ seq oos, s.recovery.dumping = some (seq, oos) → t.recovery.dumpValid = true
          ∧ t.recovery.dump = (s.captureDump seq).recovery.dump)
      ∧ t.gatehouse.boots = s.gatehouse.boots ∧ t.gatehouse.stage = 0 ∧ t.gatehouse.ready = false))
  ∧ (∀ (s : State) (now : Word64),
    (s.alwaysOn = true → s.gatehouse.restarting = false → s.sundial.toNat ≤ now.toNat →
      (s.atTime now).stampEvent.atLimit = false → ∃ t, exec (.gatehouseRestart now) s = .next t
      ∧ t.gatehouse = { s.gatehouse with restarting := true } ∧ t.recovery.events.length = s.recovery.events.length + 1
      ∧ t.recovery.nextSeq = s.recovery.nextSeq + 1
      ∧ t = { s.atTime now with gatehouse := t.gatehouse, recovery := t.recovery })
    ∧ (s.alwaysOn = true → s.gatehouse.restarting = true → s.imageChanged [1] = false →
      exec .gatehouseRestartComplete s = .next { s with gatehouse := { s.gatehouse with restarting := false } })
    ∧ (∀ seq, s.alwaysOn = true → ∃ t, exec (.logMirror seq) s = .next t
      ∧ t.recovery.log.length = s.recovery.log.length
      ∧ (∀ r ∈ t.recovery.log, r.seq.toNat = seq → r.mirrored = true) ∧ (∀ r ∈ s.recovery.log, r.seq.toNat ≠ seq → r ∈ t.recovery.log)
      ∧ t = { s with recovery := t.recovery }))

/-! ## The mailbox (ch 15, ch 17) -/

/-- R451, R453 to R455: the security commands, each with the status of its first failing check. EXTEND hashes its value into a
driver's measurement register; PART_READ answers the part record, whose fields are those of Table 15-1; QUOTE answers, when the
module has its identity, the fields of Table 15-5 with the registers that it selects, and their signature under the identity key.
DEBUG_UNLOCK opens debug for a signed token of this module and power-up, which MR6 takes. The bytes of the part record that no rule
gives, and the nonce of a signature, are free (log 9). -/
def Obligations.SecurityCommandsAnswer : Prop :=
  ∀ (s : State),
    let g := s.gatehouse
    let done (t : State) (st : Nat) : Prop := t.gatehouse.cmd = none ∧ t.gatehouse.status = st
      ∧ t.gatehouse.resultBytes = t.gatehouse.response.length ∧ t = { s with gatehouse := t.gatehouse }
    let out (t : State) (off n : Nat) : List Byte := (List.range n).map fun i => (mapFind (off + i) t.gatehouse.response).getD 0
    (s.serves 0x20 → ∃ t, exec .partRead s = .next t ∧ done t mbDone ∧ t.gatehouse.resultBytes = 8192 ∧ t.gatehouse.mr = g.mr
      ∧ out t 0 8192 = partRecord ∧ leNat (out t 0 4) = 0x31525050 ∧ leNat (out t 4 2) = 1 ∧ leNat (out t 8 8) = serial
      ∧ out t 0x1800 96 = identityPub ∧ out t 0x1E80 48 = bytes48 (sha384 Config.partRecordKey))
    ∧ (s.serves 0x22 → ∃ t, exec .extend s = .next t
      ∧ done t (if g.arg 0 1 < 8 then secState else if 15 < g.arg 0 1 then secFormat else mbDone)
      ∧ (∀ i, t.gatehouse.measured i = if i = g.arg 0 1 ∧ 8 ≤ i ∧ i ≤ 15 then bytes48 (sha384 (g.measured i ++ g.req 8 48))
          else g.measured i)
      ∧ t.gatehouse.fw = g.fw)
    ∧ (s.serves 0x21 → ∃ t, exec .quote s = .next t ∧ done t (if g.identity then mbDone else secNoIdentity)
      ∧ (g.identity = true →
        let mask := g.arg 0x30 2
        let sel := (List.range 16).filter fun i => bit mask i
        let n := (sel.flatMap g.measured).length
        t.gatehouse.resultBytes = 0xC0 + n
        ∧ leNat (out t 0 4) = 0x31544F51 ∧ leNat (out t 4 2) = 1 ∧ leNat (out t 6 2) = mask ∧ leNat (out t 8 8) = serial
        ∧ leNat (out t 0x10 4) = g.boots % 2 ^ 32 ∧ leNat (out t 0x14 4) = g.warms % 2 ^ 32 ∧ leNat (out t 0x18 8) = s.sundial.toNat
        ∧ (∀ k, k < 4 → leNat (out t (0x20 + 2 * k) 2) = (s.fwType (k + 1)).counter % 2 ^ 16)
        ∧ leNat (out t 0x28 8) = g.debugOpen.toNat + 2 * s.recovery.oos.toNat
            + 4 * (g.booted.any fun e => e.2.trial).toNat + 8 * (decide (s.sun.st = .locked)).toNat
        ∧ out t 0x30 48 = g.req 0 48
        ∧ out t 0x60 n = sel.flatMap g.measured
        ∧ (∀ i, i < 96 → (out t (0x60 + n) 96)[i]? = some ((identitySign (sha384 (out t 0 (0x60 + n)))).getD i 0)))
      ∧ (g.identity = false → t.gatehouse.resultBytes = 0) ∧ t.gatehouse.mr = g.mr)
    ∧ (s.serves 0x27 →
      let signed := ecdsaVerify Config.firmwareRootKey (sha384 (g.req 0 16)) (g.req 0x10 96)
      let named := g.arg 0 8 = serial ∧ g.arg 8 4 = g.boots % 2 ^ 32
      ∃ t, exec .debugUnlock s = .next t
      ∧ done t (if signed = false then secSignature else if named then mbDone else secState)
      ∧ t.gatehouse.debugOpen = (g.debugOpen || (signed && decide named))
      ∧ (∀ i, t.gatehouse.measured i = if i = 6 ∧ signed = true ∧ named
          then bytes48 (sha384 (g.measured 6 ++ bytes48 (sha384 (g.req 0 0x70)))) else g.measured i))

/-- R446, R454: FW_STAGE writes the inactive slot of a type and makes it invalid; FW_VERIFY makes it valid when its image passes,
and invalid when it does not; FW_ACTIVATE puts a valid one in trial; FW_COMMIT ends the trial of the slot that a type booted, makes
it active and raises the type's counter, in both its copies, to that image's SVN. No other type and no booted slot changes. Which
slot is inactive before the type has booted, that an empty one fails as SEC_FORMAT, and what a commit leaves of a slot activated
meanwhile, are the model's choices (log 9). That FW_ACTIVATE of an active-pending slot answers DONE (log 110), and the order of
FW_VERIFY's checks (log 112), are too. -/
def Obligations.FirmwareCommandsTakeEffect : Prop :=
  ∀ (s : State),
    let g := s.gatehouse
    let k := g.arg 0 1
    let x := s.fwType k
    let b := s.inactiveB k
    let done (t : State) (st : Nat) : Prop := t.gatehouse.cmd = none ∧ t.gatehouse.status = st ∧ t.gatehouse.resultBytes = 0
      ∧ (∀ j, j ≠ k → t.fwType j = s.fwType j) ∧ t = { s with gatehouse := t.gatehouse }
    fwTypeOk k = true →
    (s.serves 0x23 → x.waiting = false → 0 < g.arg 0xC 4 → g.arg 0xC 4 ≤ 65536 → g.arg 8 4 + g.arg 0xC 4 ≤ 256 + bodyLimit k → ∃ t,
      exec .fwStage s = .next t ∧ done t mbDone ∧ ((t.fwType k).slot b).valid = false ∧ (t.fwType k).slot (!b) = x.slot (!b)
      ∧ (∀ i, i < g.arg 0xC 4 → ((t.fwType k).slot b).byte (g.arg 8 4 + i) = g.reqByte (0x40 + i))
      ∧ (∀ i, (i < g.arg 8 4 ∨ g.arg 8 4 + g.arg 0xC 4 ≤ i) → ((t.fwType k).slot b).byte i = (x.slot b).byte i))
    ∧ (s.serves 0x23 → x.waiting = true → 0 < g.arg 0xC 4 → g.arg 0xC 4 ≤ 65536 → g.arg 8 4 + g.arg 0xC 4 ≤ 256 + bodyLimit k → ∃ t,
      exec .fwStage s = .next t ∧ done t secBusy ∧ t.gatehouse.fw = g.fw)
    ∧ (s.serves 0x24 → x.waiting = false → ∃ t, exec .fwVerify s = .next t
      ∧ done t (if (x.slot b).holdsNone = true ∨ (x.slot b).formOk k = false then secFormat else if (x.slot b).signed = false then secSignature
          else if (x.slot b).headerSvn < x.counter then secRollback else mbDone)
      ∧ (t.fwType k).slot b = (if (x.slot b).holdsNone = false ∧ (x.slot b).formOk k = true ∧ (x.slot b).signed = true
            ∧ x.counter ≤ (x.slot b).headerSvn then { x.slot b with valid := true, svn := (x.slot b).headerSvn }
          else { x.slot b with valid := false })
      ∧ (t.fwType k).slot (!b) = x.slot (!b))
    ∧ (s.serves 0x24 → x.waiting = true → ∃ t, exec .fwVerify s = .next t ∧ done t secBusy ∧ t.gatehouse.fw = g.fw)
    ∧ (s.serves 0x25 → ∃ t, exec .fwActivate s = .next t ∧ done t (if (x.slot b).valid then mbDone else secState)
      ∧ t.fwType k = if (x.slot b).valid then { x with trialB := some b, trialBooted := false } else x)
    ∧ (s.serves 0x26 → ∃ t, exec .fwCommit s = .next t
      ∧ done t (if (mapFind k g.booted).any (fun y => y.trial) then mbDone else secState)
      ∧ ((mapFind k g.booted).any (fun y => y.trial) = false → t.gatehouse.fw = g.fw)
      ∧ (∀ y, mapFind k g.booted = some y → y.trial = true →
          (t.fwType k).activeB = y.slotB ∧ (t.fwType k).counter = max x.counter (x.slot y.slotB).svn
          ∧ (x.counter < (x.slot y.slotB).svn → ∀ c, (some c = (t.fwType k).first ∨ some c = (t.fwType k).second) →
              c.value = (x.slot y.slotB).svn)
          ∧ (t.fwType k).trialB = (if x.trialBooted then none else x.trialB)
          ∧ (t.fwType k).a = x.a ∧ (t.fwType k).b = x.b ∧ mapFind k t.gatehouse.booted = some { y with trial := false }))

/-- R436, R433, R82, R491: DUMP_READ answers the bytes asked for of the held dump; SERVICE_CLEAR after a cold cycle ends out of
service and tells each partner, in a NEIGHBOUR message without the out-of-service flag (R383); ICE_PROVISION waits while a channel
holds what it reads (R414, R426), copies the source's bytes into the object's stripes and charges its owner once; ICE_RELEASE ends
the charge, takes it from its owner's use, and leaves the stripes undefined. That the charge is kept with the domain first charged
is the model's reading (log 113). -/
def Obligations.MailboxServesDumpAndIcehouse : Prop :=
  ∀ (s : State),
    let g := s.gatehouse
    let done (t : State) (st n : Nat) : Prop := t.gatehouse.cmd = none ∧ t.gatehouse.status = st ∧ t.gatehouse.resultBytes = n
    (s.serves 0x10 → s.recovery.dumpValid = true → 0 < g.arg 4 4 → g.arg 4 4 ≤ 65536 →
      g.arg 0 4 + g.arg 4 4 ≤ s.recovery.dumpKib * 1024 → ∃ t, exec .dumpRead s = .next t
      ∧ done t mbDone (g.arg 4 4)
      ∧ (∀ i, i < g.arg 4 4 → mapFind i t.gatehouse.response = some (s.recovery.dumpByte (g.arg 0 4 + i)))
      ∧ t = { s with gatehouse := t.gatehouse })
    ∧ (s.serves 0x11 → (s.recovery.oos = true → s.recovery.cycled = true → ∃ t, exec .serviceClear s = .next t
        ∧ done t mbDone 0 ∧ t.recovery.oos = false ∧ t.recovery.events = []
        ∧ (∀ p, p < 14 → s.linked p = true → ∃ x, (t.port p).out = (s.port p).out ++ [x] ∧ x.hdr.kind = tNeighbour ∧ x.data = []
            ∧ x.hdr.w1 = serial
            ∧ x.hdr.w2 = s.link.nodeId + (if s.link.nodeValid then 2 ^ 14 else 0) + p * 2 ^ 16 + (s.port p).gen * 2 ^ 20))
      ∧ ((s.recovery.oos = false ∨ s.recovery.cycled = false) → ∃ t, exec .serviceClear s = .next t
        ∧ done t mbState 0 ∧ t = { s with gatehouse := t.gatehouse }))
    ∧ (∀ i, s.iceObject = .ok i →
      (s.serves 0x30 →
        let o := s.obj i
        let src := g.arg 8 6
        let dst0 := iceBase + (o.stripe + g.arg 0x10 4) * 262144
        let n := g.arg 0x14 4
        (s.heldIn src (n * 262144) = true → exec .iceProvision s = .next s) ∧
        (s.heldIn src (n * 262144) = false → 0 < n → g.arg 0x10 4 + n ≤ o.stripes → src % 64 = 0 → src + n * 262144 ≤ stackTop → s.mem.wf = true →
        (∀ j, j < n → s.stoppedIn (src + j * 262144) 262144 = none) →
        ((∃ e ∈ s.mem.charged, e.1 = i) ∨ (s.quota o.owner).iceUsed + 4 * o.stripes ≤ (s.quota o.owner).iceLimit) →
        ∃ t, exec .iceProvision s = .next t ∧ done t mbDone 8
        ∧ (∀ j, j < n * 262144 → t.mem.byte? (dst0 + j) = s.mem.byte? (src + j)) ∧ s.sameOutside t dst0 (n * 262144)
        ∧ (t.quota o.owner).iceUsed = (s.quota o.owner).iceUsed + (if s.mem.charged.any fun e => decide (e.1 = i) then 0 else 4 * o.stripes)
        ∧ (∀ k ∈ t.mem.lostStripes, k ∈ s.mem.lostStripes ∧ ¬ (o.stripe + g.arg 0x10 4 ≤ k ∧ k < o.stripe + g.arg 0x10 4 + n))))
      ∧ (s.serves 0x31 → ∃ t, exec .iceRelease s = .next t ∧ done t mbDone 0
        ∧ (∀ e ∈ t.mem.charged, e ∈ s.mem.charged ∧ e.1 ≠ i)
        ∧ (∀ d, (t.quota d).iceUsed = (s.quota d).iceUsed
            - ((s.mem.charged.filter fun e => decide (e.1 = i) && decide (e.2.1 = d)).map fun e => e.2.2).sum)
        ∧ (∀ j, j < (s.obj i).stripes * 262144 → t.mem.byte? (iceBase + (s.obj i).stripe * 262144 + j) = none)
        ∧ s.sameOutside t (iceBase + (s.obj i).stripe * 262144) ((s.obj i).stripes * 262144)))

/-! ## Connectors and sideband (ch 16) -/

/-- R462, R466, R468, R470 to R472, R448, R450: mated and supplied the module goes through slot delay and soft start to power-good,
where its counter starts at 0 with the first rails up; boot ends ready at stage 7 with every rail up and its measurements taken
(R451), or halts with its reason, VIO, VSERA and VSERH alone up beside the first rails; a halt uses up a trial (R454; log 9). 200 low
samples of RESET_N, a rail that fails and a broken mating each switch it off with their cause. A reset of the test logic changes
nothing else. -/
def Obligations.ModulePowersUpAndDown : Prop :=
  ∀ (s : State),
    let off (t : State) (ph : PowerPhase) (c : Nat) : Prop := t.pins.phase = ph ∧ t.pins.pendingCause = c ∧ t.agents = []
      ∧ t.gates = [] ∧ t.gatehouse.boots = s.gatehouse.boots ∧ t.gatehouse.ready = false
    (∀ sc mv, s.pins.phase = .off → s.pins.resetLow = false → 40000 ≤ mv → mv ≤ 60000 → ∃ t, exec (.powerUp sc mv) s = .next t
      ∧ t.pins.phase = .slotDelay ∧ t.pins.slotCode = sc ∧ t.pins.mated = true ∧ t.power.inputMv = mv
      ∧ t = { s with pins := t.pins, power := t.power })
    ∧ (s.pins.phase = .slotDelay → exec .softStart s = .next { s with pins := { s.pins with phase := .softStart } })
    ∧ (s.pins.phase = .softStart → ∃ t, exec .powerGood s = .next t
      ∧ t.pins = { s.pins with phase := .on, pgood := true, rails := [.vin, .vaon, .vflash] } ∧ t.sundial = 0 ∧ t.gatehouse.boots = s.gatehouse.boots + 1
      ∧ t = { s with pins := t.pins, sundial := 0, gatehouse := t.gatehouse })
    ∧ (∀ f : BootFinding, s.alwaysOn = true → s.gatehouse.stage = 0 → s.gatehouse.halted = false →
      let halts (t : State) (stage reason : Nat) : Prop :=
        t.gatehouse = { s.gatehouse with stage := stage, halted := true, reason := reason, fw := t.gatehouse.fw }
        ∧ (∀ k, t.fwType k = { s.fwType k with trialBooted := (s.fwType k).trialB.isSome })
        ∧ t.pins = { s.pins with rails := [.vin, .vaon, .vflash, .vio, .vsera, .vserh] }
        ∧ t = { s with gatehouse := t.gatehouse, pins := t.pins }
      let mr (t : State) (i : Nat) (x : List Byte) : Prop :=
        t.gatehouse.measured i = bytes48 (sha384 (s.gatehouse.measured i ++ x))
      ∃ t, exec (.bootReady f) s = .next t
      ∧ ((f.partOk && recordAccepted) = false → halts t 0 1)
      ∧ ((f.partOk && recordAccepted) = true → (f.pufOk && identityAccepted) = false → halts t 1 2)
      ∧ ((f.partOk && recordAccepted) = true → (f.pufOk && identityAccepted) = true → f.tags = [] → s.recovery.oos = false →
        s.pins.pendingCause = 0 → (∀ k, 1 ≤ k → k ≤ 4 → (s.fwType k).choose.1.isSome = true) →
        t.gatehouse.ready = true ∧ t.gatehouse.stage = 7 ∧ t.gatehouse.halted = false ∧ t.gatehouse.identity = true
        ∧ mr t 1 (bytes48 (sha384 partRecord)) ∧ mr t 6 (bytes48 (sha384 s.counterBlock))
        ∧ (∀ k, 1 ≤ k → k ≤ 4 → ∀ b, (s.fwType k).choose.1 = some b →
            mr t (if k = 1 then 0 else k) ((s.fwType k).slot b).digest
            ∧ ∃ y, mapFind k t.gatehouse.booted = some y ∧ y.slotB = b)
        ∧ t.recovery.oos = false ∧ t.mem = s.mem ∧ t.agents = s.agents ∧ t.gates = s.gates
        ∧ (∀ r : Rail, r ∈ t.pins.rails) ∧ t.pins = { s.pins with rails := t.pins.rails }))
    ∧ (s.alwaysOn = true →
      (∀ n, let risk := n = 0 ∨ (∃ r ∈ s.pins.rails, r.group = n) ∨ (s.gatehouse.stage = 0 ∧ s.gatehouse.halted = false)
        (risk → ∃ t, exec (.railGroupTimeout n) s = .next t ∧ off t .failed 5) ∧ (¬ risk → exec (.railGroupTimeout n) s = .next s))
      ∧ (∃ t, exec .mateNBreak s = .next t ∧ off t .off 5 ∧ t.pins.mated = false)
      ∧ (∀ low, 200 ≤ low → ∃ t, exec (.resetN low) s = .next t ∧ off t .off 2 ∧ t.pins.resetLow = true)
      ∧ (∀ low, low < 200 → exec (.resetN low) s = .next { s with pins := { s.pins with resetLow := decide (0 < low) } })
      ∧ exec .jtagReset s = .next { s with pins := { s.pins with tap := .testLogicReset } })

/-- R463, R464, Table 16-5: the SMBus read commands answer their values, low byte first, with a packet error code, while the module is
powered; all but STATUS and SERIAL only once boot has completed stage 3. The alert response is answered with the module's address
while it asserts SMB_ALERT_N. The error code's polynomial is the model's choice (log 31). -/
def Obligations.SmbusReadsAnswer : Prop :=
  ∀ (s : State),
    let reply (t : State) (code : Nat) (ok : Bool) (l : List Nat) : Prop := t.pins.smbReply =
        (if s.alwaysOn && ok then some ((l ++ [pec ([0xD4, code, 0xD5] ++ l)]).map (BitVec.ofNat 8)) else none)
      ∧ t = { s with pins := { s.pins with smbReply := t.pins.smbReply } }
    let late := decide (3 ≤ s.gatehouse.stage)
    (∃ t, exec .status s = .next t ∧ reply t 1 true [s.pins.pgood.toNat + 2 * s.gatehouse.stage + 16 * s.gatehouse.halted.toNat
      + 32 * s.recovery.oos.toNat + 64 * s.power.capHold.toNat + 128 * s.alerting.toNat])
    ∧ (∃ t, exec .inputMv s = .next t ∧ reply t 2 late [s.power.inputMv % 256, s.power.inputMv / 256 % 256])
    ∧ (∃ t, exec .inputW s = .next t ∧ reply t 3 late [s.power.inputW % 256, s.power.inputW / 256 % 256])
    ∧ (∃ t m, exec .dieTempMax s = .next t ∧ reply t 4 late [m] ∧ (∀ d, d < 17 → s.dieTemp d ≤ m) ∧ (m = 0 ∨ ∃ d, d < 17 ∧ s.dieTemp d = m))
    ∧ (∃ t m, exec .stackTempMax s = .next t ∧ reply t 5 late [m] ∧ (∀ k, k < 8 → (s.stack k).temp ≤ m)
        ∧ (m = 0 ∨ ∃ k, k < 8 ∧ (s.stack k).temp = m))
    ∧ (∃ t, exec .slot s = .next t ∧ reply t 6 late [s.pins.slotCode])
    ∧ (∃ t, exec .serial s = .next t ∧ reply t 7 true (8 :: (leBytes 8 serial).map (·.toNat)))
    ∧ (∃ t, exec .smbAlertResponse s = .next t
        ∧ t.pins.smbReply = (if s.alwaysOn && s.alerting then some ([0xD4, pec [0x19, 0xD4]].map (BitVec.ofNat 8)) else none)
        ∧ t = { s with pins := { s.pins with smbReply := t.pins.smbReply } })

/-! ## Registers (ch 17) -/

/-- R19, R480, R489, R418: the driver's write of a register has that register's effect: here IDLE_HOLD, an agent's timers with
values out of range ignored, GATEHOUSE_MBOX_GO, which takes a command or records that one is in service, and an address that no
block covers, which changes nothing. R479, R480: an 8-byte read of control space that arrives at a host port is answered with the
register's 64 bits in the first 8 bytes of its data unit. That GATEHOUSE_MBOX_GO takes a write of 8 bytes alone (log 44), that
offsets without a register ignore writes (log 45), and that a GO written during a Gatehouse restart is REJECTED (log 111) are the
model's. -/
def Obligations.RegistersAreWrittenAndRead : Prop :=
  (∀ (s : State) (w : RegVal), s.driverReaches = true → w.half = .both →
    (∀ a b, a % 8 = 0 → blockOf a = some (.power, 8) → b = w.fld 0 16 →
      exec (.registerWrite a w) s = .next { s with power := { s.power with idleHold := b } })
    ∧ (∀ a i, a % 8 = 0 → blockOf a = some (.recovery, 8 * i) → i < 230 → ∃ t, exec (.registerWrite a w) s = .next t
      ∧ (t.agent i).gateTimeout = (if w.fld 0 24 = 0 then (s.agent i).gateTimeout else w.fld 0 24)
      ∧ (t.agent i).progressLimit = (if 100 ≤ w.fld 24 24 ∧ w.fld 24 24 ≤ 1000000 then w.fld 24 24 else (s.agent i).progressLimit)
      ∧ s.onlyAgent t i)
    ∧ (∀ a, a % 8 = 0 → blockOf a = some (.gatehouse, 0x10) →
      ((s.gatehouse.cmd.isSome = true ∨ s.gatehouse.restarting = true) →
        exec (.registerWrite a w) s = .next { s with gatehouse := { s.gatehouse with rejected := true } })
      ∧ (s.gatehouse.cmd = none → s.gatehouse.restarting = false → ∃ t, exec (.registerWrite a w) s = .next t
        ∧ t.gatehouse.cmd = some { code := w.fld 0 8, tag := w.fld 8 16, args := w.fld 24 32 } ∧ t.gatehouse.tag = w.fld 8 16
        ∧ t.gatehouse.status = 0 ∧ t.gatehouse.resultBytes = 0 ∧ t.gatehouse.request = s.gatehouse.request
        ∧ t = { s with gatehouse := t.gatehouse }))
    ∧ (∀ a, blockOf a = none → exec (.registerWrite a w) s = .next s))
  ∧ (∀ (s : State) (p a : Nat) (h : Hdr) (e : Block × Nat), (p = 12 ∨ p = 13) → s.linked p = true → s.recovery.oos = false →
    s.link.nodeValid = true → h.directed = false → h.dst = s.link.nodeId → h.w1 = a → h.w2 = 1 + 8 * 256 → a % 8 = 0 →
    regionOf a = .control → blockOf a = some e → s.blockReached e.1 = true → (∀ x ∈ s.sessions.waiting, x.port ≠ p) →
    (s.port p).equalising = false →
    ∃ t d, exec (.readReq p h) s = .next t ∧ s.answered t p h tReadResp 1 d
      ∧ (∀ k, k < 8 → d[k]? = some (k, (leBytes 8 ((s.regWord a).getD 0)).getD k 0))
      ∧ (∀ k, 8 ≤ k → k < 64 → d[k]? = some (k, 0)) ∧ t.mem = s.mem ∧ t.gates = s.gates)

/-! ## Numbers (ch 04, ch 09) -/

/-- R164, R165, Table 04-4: a conversion into a floating format never makes a finite value infinite or a NaN, keeps its sign, and
saturates to the largest finite magnitude; a NaN becomes the canonical NaN, and an infinity an infinity or the largest finite
magnitude. A conversion into an integer format stays in its range, saturates to its ends, and is exact for an integer in range; a
NaN becomes 0. -/
def Obligations.ConversionsSaturate : Prop :=
  (∀ f ∈ [fE4M3, fE5M2, fFP16, fBF16, fFP32, fER24, fER40], ∀ (mode : Rnd),
    (∀ (neg : Bool) (num den : Nat) (e : Int),
      (∃ num' e', decodeFloat f (convFloat f mode (.fin neg num den e)).pat = .fin neg num' 1 e')
      ∧ ((convFloat f mode (.fin neg num den e)).sat = true →
          (convFloat f mode (.fin neg num den e)).pat = withSign f neg f.maxPat))
    ∧ convFloat f mode .nan = { pat := f.nanPat, sat := false }
    ∧ ∀ neg, (convFloat f mode (.inf neg)).pat = if f.hasInf then f.infPat neg else withSign f neg f.maxPat)
  ∧ (∀ (lo hi : Int) (mode : Rnd), lo ≤ 0 → 0 ≤ hi →
    (∀ v, lo ≤ (convInt lo hi mode v).1 ∧ (convInt lo hi mode v).1 ≤ hi
      ∧ ((convInt lo hi mode v).2 = true → (convInt lo hi mode v).1 = lo ∨ (convInt lo hi mode v).1 = hi))
    ∧ (∀ i, (∀ n u, mode = .sr n u → u < 2 ^ n) →
        convInt lo hi mode (.ofInt i) = (max lo (min hi i), decide (i < lo ∨ hi < i)))
    ∧ (convInt lo hi mode .nan).1 = 0)

/-- R309, R312: one step of a random-number lane multiplies its state by x modulo p(x), bit by bit, for any coefficients; a jump of n
steps, by the stored powers of the set bits of n mod (2^64 − 1), gives the state that n single steps give, for every entry of the
polynomial ROM; a state stays within 64 bits, and one that is not zero never becomes zero (R310). -/
def Obligations.JumpsEqualSteps : Prop :=
  (∀ taps x i : Nat, taps < 2 ^ 64 → x < 2 ^ 64 → i < 64 → lfsrStep taps x < 2 ^ 64 ∧
    Nat.testBit (lfsrStep taps x) i = Bool.xor (decide (0 < i) && Nat.testBit x (i - 1)) (Nat.testBit x 63 && Nat.testBit taps i))
  ∧ (∀ (i n x : Nat), x < 2 ^ 64 → gfJump (tapsOf i) x n = Nat.repeat (lfsrStep (tapsOf i)) n x
    ∧ gfJump (tapsOf i) x n = gfJump (tapsOf i) x (n % (2 ^ 64 - 1)) ∧ gfJump (tapsOf i) x n < 2 ^ 64
    ∧ (x ≠ 0 → gfJump (tapsOf i) x n ≠ 0))
end

