-- ==== Sys2Proof/Laws/Sparse.lean ====
section
/-! SUPPORT. Tables: reading after writing, and the rising order of indices under every operation on them. -/
namespace Sys2Proof.Machine

/-- A written index reads as written. -/
@[simp] theorem mapFind_put_same {α : Type} (k : Nat) (v : α) (m : List (Nat × α)) : mapFind k (mapPut k v m) = some v := by
  induction m with
  | nil => simp [mapPut, mapFind]
  | cons e m ih =>
    obtain ⟨j, w⟩ := e
    simp only [mapPut]
    split
    · simp [mapFind]
    · split
      · simp [mapFind]
      · rename_i h
        simp [mapFind, h, ih]

/-- Every other index reads as before. -/
theorem mapFind_put_ne {α : Type} {i k : Nat} (h : i ≠ k) (v : α) (m : List (Nat × α)) :
    mapFind i (mapPut k v m) = mapFind i m := by
  induction m with
  | nil => simp [mapPut, mapFind, Ne.symm h]
  | cons e m ih =>
    obtain ⟨j, w⟩ := e
    simp only [mapPut]
    split
    · simp [mapFind, Ne.symm h]
    · split
      · rename_i hj; subst hj; simp [mapFind, Ne.symm h]
      · simp only [mapFind, ih]

/-- A changed index reads as changed. -/
theorem mapFind_erase_ne {α : Type} {i k : Nat} (h : i ≠ k) (m : List (Nat × α)) : mapFind i (mapErase k m) = mapFind i m := by
  unfold mapErase
  induction m with
  | nil => rfl
  | cons e m ih =>
    by_cases he : e.1 = k
    · rw [List.filter_cons_of_neg (by simpa using he), ih]
      have hi : ¬ e.1 = i := fun x => h (x.symm.trans he)
      exact (if_neg hi).symm
    · rw [List.filter_cons_of_pos (by simpa using he)]
      show (if e.1 = i then _ else mapFind i _) = if e.1 = i then _ else mapFind i m
      rw [ih]

@[simp] theorem mapGet_mod_same {α : Type} (d : Nat → α) (k : Nat) (f : α → α) (m : List (Nat × α)) :
    mapGet d k (mapMod d k f m) = f (mapGet d k m) := by simp [mapGet, mapMod]

/-- Every other index reads as before. -/
theorem mapGet_mod_ne {α : Type} (d : Nat → α) {i k : Nat} (h : i ≠ k) (f : α → α) (m : List (Nat × α)) :
    mapGet d i (mapMod d k f m) = mapGet d i m := by simp [mapGet, mapMod, mapFind_put_ne h]

/-- Rising order says that every pair of entries is in order. -/
theorem mapRising_iff {α : Type} (m : List (Nat × α)) : mapRising m = true ↔ m.Pairwise fun a b => a.1 < b.1 := by
  induction m with
  | nil => simp [mapRising]
  | cons e m ih =>
    obtain ⟨i, v⟩ := e
    cases m with
    | nil => simp [mapRising]
    | cons e' m =>
      obtain ⟨j, w⟩ := e'
      simp only [mapRising, Bool.and_eq_true, decide_eq_true_eq, ih, List.pairwise_cons]
      constructor
      · rintro ⟨h, h1, h2⟩
        refine ⟨?_, h1, h2⟩
        intro x hx
        rcases List.mem_cons.mp hx with rfl | hx
        · exact h
        · exact Nat.lt_trans h (h1 x hx)
      · rintro ⟨h, h1, h2⟩
        exact ⟨h (j, w) (by simp), h1, h2⟩

/-- What a table lists at an index is an entry of it. -/
theorem mapFind_mem {α : Type} {k : Nat} {v : α} {m : List (Nat × α)} (h : mapFind k m = some v) : (k, v) ∈ m := by
  induction m with
  | nil => cases h
  | cons x m ih =>
    obtain ⟨j, w⟩ := x
    simp only [mapFind] at h
    split at h
    · rename_i e; cases h; subst e; exact List.mem_cons_self
    · exact List.mem_cons_of_mem _ (ih h)

/-- Entries of a table after a write are the written one or entries of before. -/
theorem mem_mapPut {α : Type} {k : Nat} {v : α} {m : List (Nat × α)} {e : Nat × α} (h : e ∈ mapPut k v m) :
    e = (k, v) ∨ e ∈ m := by
  induction m with
  | nil => simpa [mapPut] using h
  | cons x m ih =>
    obtain ⟨j, w⟩ := x
    simp only [mapPut] at h
    split at h
    · rcases List.mem_cons.mp h with h | h
      · exact .inl h
      · exact .inr h
    · split at h
      · rcases List.mem_cons.mp h with h | h
        · exact .inl h
        · exact .inr (List.mem_cons_of_mem _ h)
      · rcases List.mem_cons.mp h with h | h
        · exact .inr (h ▸ List.mem_cons_self)
        · rcases ih h with h | h
          · exact .inl h
          · exact .inr (List.mem_cons_of_mem _ h)

/-- A write keeps the rising order. -/
theorem mapRising_put {α : Type} (k : Nat) (v : α) {m : List (Nat × α)} (h : mapRising m = true) :
    mapRising (mapPut k v m) = true := by
  rw [mapRising_iff] at *
  induction m with
  | nil => simp [mapPut]
  | cons x m ih =>
    obtain ⟨j, w⟩ := x
    rw [List.pairwise_cons] at h
    simp only [mapPut]
    split
    · rename_i hk
      refine List.pairwise_cons.mpr ⟨?_, List.pairwise_cons.mpr h⟩
      intro x hx
      rcases List.mem_cons.mp hx with rfl | hx
      · exact hk
      · exact Nat.lt_trans hk (h.1 x hx)
    · split
      · rename_i hk; subst hk
        exact List.pairwise_cons.mpr h
      · rename_i h1 h2
        refine List.pairwise_cons.mpr ⟨?_, ih h.2⟩
        intro x hx
        rcases mem_mapPut hx with rfl | hx
        · simp; omega
        · exact h.1 x hx

/-- Leaving entries out keeps the rising order. -/
theorem mapRising_filter {α : Type} (p : Nat × α → Bool) {m : List (Nat × α)} (h : mapRising m = true) :
    mapRising (m.filter p) = true := by
  rw [mapRising_iff] at *
  exact h.filter p

/-- Many writes keep the rising order. -/
theorem mapRising_foldl {α β : Type} (l : List β) (k : β → Nat) (v : β → α) {m : List (Nat × α)} (h : mapRising m = true) :
    mapRising (l.foldl (fun c e => mapPut (k e) (v e) c) m) = true := by
  induction l generalizing m with
  | nil => exact h
  | cons e l ih => exact ih (mapRising_put _ _ h)

end Sys2Proof.Machine
end

