-- ==== Sys2Proof/Laws/State.lean ====
section
/-! SUPPORT. What an update of one entry of a table leaves and gives: a lemma for each field and each accessor, so that no
proof unfolds a record update. -/
namespace Sys2Proof.Machine

/-! `modAgent` -/

@[simp] theorem State.modAgent_agent (s : State) (i : Nat) (f : Agent → Agent) : (s.modAgent i f).agent i = f (s.agent i) := mapGet_mod_same ..
theorem State.modAgent_agent_ne (s : State) {i j : Nat} (h : j ≠ i) (f : Agent → Agent) : (s.modAgent i f).agent j = s.agent j := mapGet_mod_ne _ h ..
@[simp] theorem State.modAgent_pending (s : State) (i : Nat) (f : Agent → Agent) : (s.modAgent i f).pending = s.pending := rfl
@[simp] theorem State.modAgent_free (s : State) (i : Nat) (f : Agent → Agent) : (s.modAgent i f).free = s.free := rfl
@[simp] theorem State.modAgent_sundial (s : State) (i : Nat) (f : Agent → Agent) : (s.modAgent i f).sundial = s.sundial := rfl
@[simp] theorem State.modAgent_epoch (s : State) (i : Nat) (f : Agent → Agent) : (s.modAgent i f).epoch = s.epoch := rfl
@[simp] theorem State.modAgent_gates (s : State) (i : Nat) (f : Agent → Agent) : (s.modAgent i f).gates = s.gates := rfl
@[simp] theorem State.modAgent_mem (s : State) (i : Nat) (f : Agent → Agent) : (s.modAgent i f).mem = s.mem := rfl
@[simp] theorem State.modAgent_objects (s : State) (i : Nat) (f : Agent → Agent) : (s.modAgent i f).objects = s.objects := rfl
@[simp] theorem State.modAgent_arrays (s : State) (i : Nat) (f : Agent → Agent) : (s.modAgent i f).arrays = s.arrays := rfl
@[simp] theorem State.modAgent_sessions (s : State) (i : Nat) (f : Agent → Agent) : (s.modAgent i f).sessions = s.sessions := rfl
@[simp] theorem State.modAgent_movers (s : State) (i : Nat) (f : Agent → Agent) : (s.modAgent i f).movers = s.movers := rfl
@[simp] theorem State.modAgent_cluster (s : State) (i : Nat) (f : Agent → Agent) : (s.modAgent i f).cluster = s.cluster := rfl
@[simp] theorem State.modAgent_codec (s : State) (i : Nat) (f : Agent → Agent) : (s.modAgent i f).codec = s.codec := rfl
@[simp] theorem State.modAgent_link (s : State) (i : Nat) (f : Agent → Agent) : (s.modAgent i f).link = s.link := rfl
@[simp] theorem State.modAgent_sun (s : State) (i : Nat) (f : Agent → Agent) : (s.modAgent i f).sun = s.sun := rfl
@[simp] theorem State.modAgent_power (s : State) (i : Nat) (f : Agent → Agent) : (s.modAgent i f).power = s.power := rfl
@[simp] theorem State.modAgent_recovery (s : State) (i : Nat) (f : Agent → Agent) : (s.modAgent i f).recovery = s.recovery := rfl
@[simp] theorem State.modAgent_gatehouse (s : State) (i : Nat) (f : Agent → Agent) : (s.modAgent i f).gatehouse = s.gatehouse := rfl
@[simp] theorem State.modAgent_pins (s : State) (i : Nat) (f : Agent → Agent) : (s.modAgent i f).pins = s.pins := rfl
@[simp] theorem State.modAgent_gate (s : State) (i j : Nat) (f : Agent → Agent) : (s.modAgent i f).gate j = s.gate j := rfl
@[simp] theorem State.modAgent_array (s : State) (i j : Nat) (f : Agent → Agent) : (s.modAgent i f).array j = s.array j := rfl
@[simp] theorem State.modAgent_mover (s : State) (i j : Nat) (f : Agent → Agent) : (s.modAgent i f).mover j = s.mover j := rfl
@[simp] theorem State.modAgent_stack (s : State) (i j : Nat) (f : Agent → Agent) : (s.modAgent i f).stack j = s.stack j := rfl
@[simp] theorem State.modAgent_obj (s : State) (i j : Nat) (f : Agent → Agent) : (s.modAgent i f).obj j = s.obj j := rfl
@[simp] theorem State.modAgent_quota (s : State) (i j : Nat) (f : Agent → Agent) : (s.modAgent i f).quota j = s.quota j := rfl
@[simp] theorem State.modAgent_session (s : State) (i j : Nat) (f : Agent → Agent) : (s.modAgent i f).session j = s.session j := rfl
@[simp] theorem State.modAgent_core (s : State) (i j : Nat) (f : Agent → Agent) : (s.modAgent i f).core j = s.core j := rfl
@[simp] theorem State.modAgent_codecCore (s : State) (i j : Nat) (f : Agent → Agent) : (s.modAgent i f).codecCore j = s.codecCore j := rfl
@[simp] theorem State.modAgent_ctx (s : State) (i j : Nat) (f : Agent → Agent) : (s.modAgent i f).ctx j = s.ctx j := rfl
@[simp] theorem State.modAgent_port (s : State) (i j : Nat) (f : Agent → Agent) : (s.modAgent i f).port j = s.port j := rfl
@[simp] theorem State.modAgent_fwType (s : State) (i j : Nat) (f : Agent → Agent) : (s.modAgent i f).fwType j = s.fwType j := rfl
@[simp] theorem State.modAgent_page (s : State) (i j : Nat) (f : Agent → Agent) : (s.modAgent i f).page j = s.page j := rfl
@[simp] theorem State.modAgent_route (s : State) (i j : Nat) (f : Agent → Agent) : (s.modAgent i f).route j = s.route j := rfl
@[simp] theorem State.modAgent_alwaysOn (s : State) (i : Nat) (f : Agent → Agent) : (s.modAgent i f).alwaysOn = s.alwaysOn := rfl
@[simp] theorem State.modAgent_inService (s : State) (i : Nat) (f : Agent → Agent) : (s.modAgent i f).inService = s.inService := rfl
@[simp] theorem State.modAgent_warmResetting (s : State) (i : Nat) (f : Agent → Agent) : (s.modAgent i f).warmResetting = s.warmResetting := rfl
@[simp] theorem State.modAgent_agentsRun (s : State) (i : Nat) (f : Agent → Agent) : (s.modAgent i f).agentsRun = s.agentsRun := rfl

/-! `modGate` -/

@[simp] theorem State.modGate_gate (s : State) (i : Nat) (f : Gate → Gate) : (s.modGate i f).gate i = f (s.gate i) := mapGet_mod_same ..
theorem State.modGate_gate_ne (s : State) {i j : Nat} (h : j ≠ i) (f : Gate → Gate) : (s.modGate i f).gate j = s.gate j := mapGet_mod_ne _ h ..
@[simp] theorem State.modGate_pending (s : State) (i : Nat) (f : Gate → Gate) : (s.modGate i f).pending = s.pending := rfl
@[simp] theorem State.modGate_free (s : State) (i : Nat) (f : Gate → Gate) : (s.modGate i f).free = s.free := rfl
@[simp] theorem State.modGate_sundial (s : State) (i : Nat) (f : Gate → Gate) : (s.modGate i f).sundial = s.sundial := rfl
@[simp] theorem State.modGate_agents (s : State) (i : Nat) (f : Gate → Gate) : (s.modGate i f).agents = s.agents := rfl
@[simp] theorem State.modGate_epoch (s : State) (i : Nat) (f : Gate → Gate) : (s.modGate i f).epoch = s.epoch := rfl
@[simp] theorem State.modGate_mem (s : State) (i : Nat) (f : Gate → Gate) : (s.modGate i f).mem = s.mem := rfl
@[simp] theorem State.modGate_objects (s : State) (i : Nat) (f : Gate → Gate) : (s.modGate i f).objects = s.objects := rfl
@[simp] theorem State.modGate_arrays (s : State) (i : Nat) (f : Gate → Gate) : (s.modGate i f).arrays = s.arrays := rfl
@[simp] theorem State.modGate_sessions (s : State) (i : Nat) (f : Gate → Gate) : (s.modGate i f).sessions = s.sessions := rfl
@[simp] theorem State.modGate_movers (s : State) (i : Nat) (f : Gate → Gate) : (s.modGate i f).movers = s.movers := rfl
@[simp] theorem State.modGate_cluster (s : State) (i : Nat) (f : Gate → Gate) : (s.modGate i f).cluster = s.cluster := rfl
@[simp] theorem State.modGate_codec (s : State) (i : Nat) (f : Gate → Gate) : (s.modGate i f).codec = s.codec := rfl
@[simp] theorem State.modGate_link (s : State) (i : Nat) (f : Gate → Gate) : (s.modGate i f).link = s.link := rfl
@[simp] theorem State.modGate_sun (s : State) (i : Nat) (f : Gate → Gate) : (s.modGate i f).sun = s.sun := rfl
@[simp] theorem State.modGate_power (s : State) (i : Nat) (f : Gate → Gate) : (s.modGate i f).power = s.power := rfl
@[simp] theorem State.modGate_recovery (s : State) (i : Nat) (f : Gate → Gate) : (s.modGate i f).recovery = s.recovery := rfl
@[simp] theorem State.modGate_gatehouse (s : State) (i : Nat) (f : Gate → Gate) : (s.modGate i f).gatehouse = s.gatehouse := rfl
@[simp] theorem State.modGate_pins (s : State) (i : Nat) (f : Gate → Gate) : (s.modGate i f).pins = s.pins := rfl
@[simp] theorem State.modGate_agent (s : State) (i j : Nat) (f : Gate → Gate) : (s.modGate i f).agent j = s.agent j := rfl
@[simp] theorem State.modGate_array (s : State) (i j : Nat) (f : Gate → Gate) : (s.modGate i f).array j = s.array j := rfl
@[simp] theorem State.modGate_mover (s : State) (i j : Nat) (f : Gate → Gate) : (s.modGate i f).mover j = s.mover j := rfl
@[simp] theorem State.modGate_stack (s : State) (i j : Nat) (f : Gate → Gate) : (s.modGate i f).stack j = s.stack j := rfl
@[simp] theorem State.modGate_obj (s : State) (i j : Nat) (f : Gate → Gate) : (s.modGate i f).obj j = s.obj j := rfl
@[simp] theorem State.modGate_quota (s : State) (i j : Nat) (f : Gate → Gate) : (s.modGate i f).quota j = s.quota j := rfl
@[simp] theorem State.modGate_session (s : State) (i j : Nat) (f : Gate → Gate) : (s.modGate i f).session j = s.session j := rfl
@[simp] theorem State.modGate_core (s : State) (i j : Nat) (f : Gate → Gate) : (s.modGate i f).core j = s.core j := rfl
@[simp] theorem State.modGate_codecCore (s : State) (i j : Nat) (f : Gate → Gate) : (s.modGate i f).codecCore j = s.codecCore j := rfl
@[simp] theorem State.modGate_ctx (s : State) (i j : Nat) (f : Gate → Gate) : (s.modGate i f).ctx j = s.ctx j := rfl
@[simp] theorem State.modGate_port (s : State) (i j : Nat) (f : Gate → Gate) : (s.modGate i f).port j = s.port j := rfl
@[simp] theorem State.modGate_fwType (s : State) (i j : Nat) (f : Gate → Gate) : (s.modGate i f).fwType j = s.fwType j := rfl
@[simp] theorem State.modGate_page (s : State) (i j : Nat) (f : Gate → Gate) : (s.modGate i f).page j = s.page j := rfl
@[simp] theorem State.modGate_route (s : State) (i j : Nat) (f : Gate → Gate) : (s.modGate i f).route j = s.route j := rfl
@[simp] theorem State.modGate_alwaysOn (s : State) (i : Nat) (f : Gate → Gate) : (s.modGate i f).alwaysOn = s.alwaysOn := rfl
@[simp] theorem State.modGate_inService (s : State) (i : Nat) (f : Gate → Gate) : (s.modGate i f).inService = s.inService := rfl
@[simp] theorem State.modGate_warmResetting (s : State) (i : Nat) (f : Gate → Gate) : (s.modGate i f).warmResetting = s.warmResetting := rfl
@[simp] theorem State.modGate_agentsRun (s : State) (i : Nat) (f : Gate → Gate) : (s.modGate i f).agentsRun = s.agentsRun := rfl

/-! `modArray` -/

@[simp] theorem State.modArray_array (s : State) (i : Nat) (f : ArrayState → ArrayState) : (s.modArray i f).array i = f (s.array i) := mapGet_mod_same ..
theorem State.modArray_array_ne (s : State) {i j : Nat} (h : j ≠ i) (f : ArrayState → ArrayState) : (s.modArray i f).array j = s.array j := mapGet_mod_ne _ h ..
@[simp] theorem State.modArray_pending (s : State) (i : Nat) (f : ArrayState → ArrayState) : (s.modArray i f).pending = s.pending := rfl
@[simp] theorem State.modArray_free (s : State) (i : Nat) (f : ArrayState → ArrayState) : (s.modArray i f).free = s.free := rfl
@[simp] theorem State.modArray_sundial (s : State) (i : Nat) (f : ArrayState → ArrayState) : (s.modArray i f).sundial = s.sundial := rfl
@[simp] theorem State.modArray_agents (s : State) (i : Nat) (f : ArrayState → ArrayState) : (s.modArray i f).agents = s.agents := rfl
@[simp] theorem State.modArray_epoch (s : State) (i : Nat) (f : ArrayState → ArrayState) : (s.modArray i f).epoch = s.epoch := rfl
@[simp] theorem State.modArray_gates (s : State) (i : Nat) (f : ArrayState → ArrayState) : (s.modArray i f).gates = s.gates := rfl
@[simp] theorem State.modArray_mem (s : State) (i : Nat) (f : ArrayState → ArrayState) : (s.modArray i f).mem = s.mem := rfl
@[simp] theorem State.modArray_objects (s : State) (i : Nat) (f : ArrayState → ArrayState) : (s.modArray i f).objects = s.objects := rfl
@[simp] theorem State.modArray_sessions (s : State) (i : Nat) (f : ArrayState → ArrayState) : (s.modArray i f).sessions = s.sessions := rfl
@[simp] theorem State.modArray_movers (s : State) (i : Nat) (f : ArrayState → ArrayState) : (s.modArray i f).movers = s.movers := rfl
@[simp] theorem State.modArray_cluster (s : State) (i : Nat) (f : ArrayState → ArrayState) : (s.modArray i f).cluster = s.cluster := rfl
@[simp] theorem State.modArray_codec (s : State) (i : Nat) (f : ArrayState → ArrayState) : (s.modArray i f).codec = s.codec := rfl
@[simp] theorem State.modArray_link (s : State) (i : Nat) (f : ArrayState → ArrayState) : (s.modArray i f).link = s.link := rfl
@[simp] theorem State.modArray_sun (s : State) (i : Nat) (f : ArrayState → ArrayState) : (s.modArray i f).sun = s.sun := rfl
@[simp] theorem State.modArray_power (s : State) (i : Nat) (f : ArrayState → ArrayState) : (s.modArray i f).power = s.power := rfl
@[simp] theorem State.modArray_recovery (s : State) (i : Nat) (f : ArrayState → ArrayState) : (s.modArray i f).recovery = s.recovery := rfl
@[simp] theorem State.modArray_gatehouse (s : State) (i : Nat) (f : ArrayState → ArrayState) : (s.modArray i f).gatehouse = s.gatehouse := rfl
@[simp] theorem State.modArray_pins (s : State) (i : Nat) (f : ArrayState → ArrayState) : (s.modArray i f).pins = s.pins := rfl
@[simp] theorem State.modArray_agent (s : State) (i j : Nat) (f : ArrayState → ArrayState) : (s.modArray i f).agent j = s.agent j := rfl
@[simp] theorem State.modArray_gate (s : State) (i j : Nat) (f : ArrayState → ArrayState) : (s.modArray i f).gate j = s.gate j := rfl
@[simp] theorem State.modArray_mover (s : State) (i j : Nat) (f : ArrayState → ArrayState) : (s.modArray i f).mover j = s.mover j := rfl
@[simp] theorem State.modArray_stack (s : State) (i j : Nat) (f : ArrayState → ArrayState) : (s.modArray i f).stack j = s.stack j := rfl
@[simp] theorem State.modArray_obj (s : State) (i j : Nat) (f : ArrayState → ArrayState) : (s.modArray i f).obj j = s.obj j := rfl
@[simp] theorem State.modArray_quota (s : State) (i j : Nat) (f : ArrayState → ArrayState) : (s.modArray i f).quota j = s.quota j := rfl
@[simp] theorem State.modArray_session (s : State) (i j : Nat) (f : ArrayState → ArrayState) : (s.modArray i f).session j = s.session j := rfl
@[simp] theorem State.modArray_core (s : State) (i j : Nat) (f : ArrayState → ArrayState) : (s.modArray i f).core j = s.core j := rfl
@[simp] theorem State.modArray_codecCore (s : State) (i j : Nat) (f : ArrayState → ArrayState) : (s.modArray i f).codecCore j = s.codecCore j := rfl
@[simp] theorem State.modArray_ctx (s : State) (i j : Nat) (f : ArrayState → ArrayState) : (s.modArray i f).ctx j = s.ctx j := rfl
@[simp] theorem State.modArray_port (s : State) (i j : Nat) (f : ArrayState → ArrayState) : (s.modArray i f).port j = s.port j := rfl
@[simp] theorem State.modArray_fwType (s : State) (i j : Nat) (f : ArrayState → ArrayState) : (s.modArray i f).fwType j = s.fwType j := rfl
@[simp] theorem State.modArray_page (s : State) (i j : Nat) (f : ArrayState → ArrayState) : (s.modArray i f).page j = s.page j := rfl
@[simp] theorem State.modArray_route (s : State) (i j : Nat) (f : ArrayState → ArrayState) : (s.modArray i f).route j = s.route j := rfl
@[simp] theorem State.modArray_alwaysOn (s : State) (i : Nat) (f : ArrayState → ArrayState) : (s.modArray i f).alwaysOn = s.alwaysOn := rfl
@[simp] theorem State.modArray_inService (s : State) (i : Nat) (f : ArrayState → ArrayState) : (s.modArray i f).inService = s.inService := rfl
@[simp] theorem State.modArray_warmResetting (s : State) (i : Nat) (f : ArrayState → ArrayState) : (s.modArray i f).warmResetting = s.warmResetting := rfl
@[simp] theorem State.modArray_agentsRun (s : State) (i : Nat) (f : ArrayState → ArrayState) : (s.modArray i f).agentsRun = s.agentsRun := rfl

/-! `modMover` -/

@[simp] theorem State.modMover_mover (s : State) (i : Nat) (f : Mover → Mover) : (s.modMover i f).mover i = f (s.mover i) := mapGet_mod_same ..
theorem State.modMover_mover_ne (s : State) {i j : Nat} (h : j ≠ i) (f : Mover → Mover) : (s.modMover i f).mover j = s.mover j := mapGet_mod_ne _ h ..
@[simp] theorem State.modMover_pending (s : State) (i : Nat) (f : Mover → Mover) : (s.modMover i f).pending = s.pending := rfl
@[simp] theorem State.modMover_free (s : State) (i : Nat) (f : Mover → Mover) : (s.modMover i f).free = s.free := rfl
@[simp] theorem State.modMover_sundial (s : State) (i : Nat) (f : Mover → Mover) : (s.modMover i f).sundial = s.sundial := rfl
@[simp] theorem State.modMover_agents (s : State) (i : Nat) (f : Mover → Mover) : (s.modMover i f).agents = s.agents := rfl
@[simp] theorem State.modMover_epoch (s : State) (i : Nat) (f : Mover → Mover) : (s.modMover i f).epoch = s.epoch := rfl
@[simp] theorem State.modMover_gates (s : State) (i : Nat) (f : Mover → Mover) : (s.modMover i f).gates = s.gates := rfl
@[simp] theorem State.modMover_mem (s : State) (i : Nat) (f : Mover → Mover) : (s.modMover i f).mem = s.mem := rfl
@[simp] theorem State.modMover_objects (s : State) (i : Nat) (f : Mover → Mover) : (s.modMover i f).objects = s.objects := rfl
@[simp] theorem State.modMover_arrays (s : State) (i : Nat) (f : Mover → Mover) : (s.modMover i f).arrays = s.arrays := rfl
@[simp] theorem State.modMover_sessions (s : State) (i : Nat) (f : Mover → Mover) : (s.modMover i f).sessions = s.sessions := rfl
@[simp] theorem State.modMover_cluster (s : State) (i : Nat) (f : Mover → Mover) : (s.modMover i f).cluster = s.cluster := rfl
@[simp] theorem State.modMover_codec (s : State) (i : Nat) (f : Mover → Mover) : (s.modMover i f).codec = s.codec := rfl
@[simp] theorem State.modMover_link (s : State) (i : Nat) (f : Mover → Mover) : (s.modMover i f).link = s.link := rfl
@[simp] theorem State.modMover_sun (s : State) (i : Nat) (f : Mover → Mover) : (s.modMover i f).sun = s.sun := rfl
@[simp] theorem State.modMover_power (s : State) (i : Nat) (f : Mover → Mover) : (s.modMover i f).power = s.power := rfl
@[simp] theorem State.modMover_recovery (s : State) (i : Nat) (f : Mover → Mover) : (s.modMover i f).recovery = s.recovery := rfl
@[simp] theorem State.modMover_gatehouse (s : State) (i : Nat) (f : Mover → Mover) : (s.modMover i f).gatehouse = s.gatehouse := rfl
@[simp] theorem State.modMover_pins (s : State) (i : Nat) (f : Mover → Mover) : (s.modMover i f).pins = s.pins := rfl
@[simp] theorem State.modMover_agent (s : State) (i j : Nat) (f : Mover → Mover) : (s.modMover i f).agent j = s.agent j := rfl
@[simp] theorem State.modMover_gate (s : State) (i j : Nat) (f : Mover → Mover) : (s.modMover i f).gate j = s.gate j := rfl
@[simp] theorem State.modMover_array (s : State) (i j : Nat) (f : Mover → Mover) : (s.modMover i f).array j = s.array j := rfl
@[simp] theorem State.modMover_stack (s : State) (i j : Nat) (f : Mover → Mover) : (s.modMover i f).stack j = s.stack j := rfl
@[simp] theorem State.modMover_obj (s : State) (i j : Nat) (f : Mover → Mover) : (s.modMover i f).obj j = s.obj j := rfl
@[simp] theorem State.modMover_quota (s : State) (i j : Nat) (f : Mover → Mover) : (s.modMover i f).quota j = s.quota j := rfl
@[simp] theorem State.modMover_session (s : State) (i j : Nat) (f : Mover → Mover) : (s.modMover i f).session j = s.session j := rfl
@[simp] theorem State.modMover_core (s : State) (i j : Nat) (f : Mover → Mover) : (s.modMover i f).core j = s.core j := rfl
@[simp] theorem State.modMover_codecCore (s : State) (i j : Nat) (f : Mover → Mover) : (s.modMover i f).codecCore j = s.codecCore j := rfl
@[simp] theorem State.modMover_ctx (s : State) (i j : Nat) (f : Mover → Mover) : (s.modMover i f).ctx j = s.ctx j := rfl
@[simp] theorem State.modMover_port (s : State) (i j : Nat) (f : Mover → Mover) : (s.modMover i f).port j = s.port j := rfl
@[simp] theorem State.modMover_fwType (s : State) (i j : Nat) (f : Mover → Mover) : (s.modMover i f).fwType j = s.fwType j := rfl
@[simp] theorem State.modMover_page (s : State) (i j : Nat) (f : Mover → Mover) : (s.modMover i f).page j = s.page j := rfl
@[simp] theorem State.modMover_route (s : State) (i j : Nat) (f : Mover → Mover) : (s.modMover i f).route j = s.route j := rfl
@[simp] theorem State.modMover_alwaysOn (s : State) (i : Nat) (f : Mover → Mover) : (s.modMover i f).alwaysOn = s.alwaysOn := rfl
@[simp] theorem State.modMover_inService (s : State) (i : Nat) (f : Mover → Mover) : (s.modMover i f).inService = s.inService := rfl
@[simp] theorem State.modMover_warmResetting (s : State) (i : Nat) (f : Mover → Mover) : (s.modMover i f).warmResetting = s.warmResetting := rfl
@[simp] theorem State.modMover_agentsRun (s : State) (i : Nat) (f : Mover → Mover) : (s.modMover i f).agentsRun = s.agentsRun := rfl

/-! `modStack` -/

@[simp] theorem State.modStack_stack (s : State) (i : Nat) (f : Stack → Stack) : (s.modStack i f).stack i = f (s.stack i) := mapGet_mod_same ..
theorem State.modStack_stack_ne (s : State) {i j : Nat} (h : j ≠ i) (f : Stack → Stack) : (s.modStack i f).stack j = s.stack j := mapGet_mod_ne _ h ..
@[simp] theorem State.modStack_pending (s : State) (i : Nat) (f : Stack → Stack) : (s.modStack i f).pending = s.pending := rfl
@[simp] theorem State.modStack_free (s : State) (i : Nat) (f : Stack → Stack) : (s.modStack i f).free = s.free := rfl
@[simp] theorem State.modStack_sundial (s : State) (i : Nat) (f : Stack → Stack) : (s.modStack i f).sundial = s.sundial := rfl
@[simp] theorem State.modStack_agents (s : State) (i : Nat) (f : Stack → Stack) : (s.modStack i f).agents = s.agents := rfl
@[simp] theorem State.modStack_epoch (s : State) (i : Nat) (f : Stack → Stack) : (s.modStack i f).epoch = s.epoch := rfl
@[simp] theorem State.modStack_gates (s : State) (i : Nat) (f : Stack → Stack) : (s.modStack i f).gates = s.gates := rfl
@[simp] theorem State.modStack_objects (s : State) (i : Nat) (f : Stack → Stack) : (s.modStack i f).objects = s.objects := rfl
@[simp] theorem State.modStack_arrays (s : State) (i : Nat) (f : Stack → Stack) : (s.modStack i f).arrays = s.arrays := rfl
@[simp] theorem State.modStack_sessions (s : State) (i : Nat) (f : Stack → Stack) : (s.modStack i f).sessions = s.sessions := rfl
@[simp] theorem State.modStack_movers (s : State) (i : Nat) (f : Stack → Stack) : (s.modStack i f).movers = s.movers := rfl
@[simp] theorem State.modStack_cluster (s : State) (i : Nat) (f : Stack → Stack) : (s.modStack i f).cluster = s.cluster := rfl
@[simp] theorem State.modStack_codec (s : State) (i : Nat) (f : Stack → Stack) : (s.modStack i f).codec = s.codec := rfl
@[simp] theorem State.modStack_link (s : State) (i : Nat) (f : Stack → Stack) : (s.modStack i f).link = s.link := rfl
@[simp] theorem State.modStack_sun (s : State) (i : Nat) (f : Stack → Stack) : (s.modStack i f).sun = s.sun := rfl
@[simp] theorem State.modStack_power (s : State) (i : Nat) (f : Stack → Stack) : (s.modStack i f).power = s.power := rfl
@[simp] theorem State.modStack_recovery (s : State) (i : Nat) (f : Stack → Stack) : (s.modStack i f).recovery = s.recovery := rfl
@[simp] theorem State.modStack_gatehouse (s : State) (i : Nat) (f : Stack → Stack) : (s.modStack i f).gatehouse = s.gatehouse := rfl
@[simp] theorem State.modStack_pins (s : State) (i : Nat) (f : Stack → Stack) : (s.modStack i f).pins = s.pins := rfl
@[simp] theorem State.modStack_agent (s : State) (i j : Nat) (f : Stack → Stack) : (s.modStack i f).agent j = s.agent j := rfl
@[simp] theorem State.modStack_gate (s : State) (i j : Nat) (f : Stack → Stack) : (s.modStack i f).gate j = s.gate j := rfl
@[simp] theorem State.modStack_array (s : State) (i j : Nat) (f : Stack → Stack) : (s.modStack i f).array j = s.array j := rfl
@[simp] theorem State.modStack_mover (s : State) (i j : Nat) (f : Stack → Stack) : (s.modStack i f).mover j = s.mover j := rfl
@[simp] theorem State.modStack_obj (s : State) (i j : Nat) (f : Stack → Stack) : (s.modStack i f).obj j = s.obj j := rfl
@[simp] theorem State.modStack_quota (s : State) (i j : Nat) (f : Stack → Stack) : (s.modStack i f).quota j = s.quota j := rfl
@[simp] theorem State.modStack_session (s : State) (i j : Nat) (f : Stack → Stack) : (s.modStack i f).session j = s.session j := rfl
@[simp] theorem State.modStack_core (s : State) (i j : Nat) (f : Stack → Stack) : (s.modStack i f).core j = s.core j := rfl
@[simp] theorem State.modStack_codecCore (s : State) (i j : Nat) (f : Stack → Stack) : (s.modStack i f).codecCore j = s.codecCore j := rfl
@[simp] theorem State.modStack_ctx (s : State) (i j : Nat) (f : Stack → Stack) : (s.modStack i f).ctx j = s.ctx j := rfl
@[simp] theorem State.modStack_port (s : State) (i j : Nat) (f : Stack → Stack) : (s.modStack i f).port j = s.port j := rfl
@[simp] theorem State.modStack_fwType (s : State) (i j : Nat) (f : Stack → Stack) : (s.modStack i f).fwType j = s.fwType j := rfl
@[simp] theorem State.modStack_page (s : State) (i j : Nat) (f : Stack → Stack) : (s.modStack i f).page j = s.page j := rfl
@[simp] theorem State.modStack_route (s : State) (i j : Nat) (f : Stack → Stack) : (s.modStack i f).route j = s.route j := rfl
@[simp] theorem State.modStack_alwaysOn (s : State) (i : Nat) (f : Stack → Stack) : (s.modStack i f).alwaysOn = s.alwaysOn := rfl
@[simp] theorem State.modStack_inService (s : State) (i : Nat) (f : Stack → Stack) : (s.modStack i f).inService = s.inService := rfl
@[simp] theorem State.modStack_warmResetting (s : State) (i : Nat) (f : Stack → Stack) : (s.modStack i f).warmResetting = s.warmResetting := rfl
@[simp] theorem State.modStack_agentsRun (s : State) (i : Nat) (f : Stack → Stack) : (s.modStack i f).agentsRun = s.agentsRun := rfl

/-! `modObj` -/

@[simp] theorem State.modObj_obj (s : State) (i : Nat) (f : Obj → Obj) : (s.modObj i f).obj i = f (s.obj i) := mapGet_mod_same ..
theorem State.modObj_obj_ne (s : State) {i j : Nat} (h : j ≠ i) (f : Obj → Obj) : (s.modObj i f).obj j = s.obj j := mapGet_mod_ne _ h ..
@[simp] theorem State.modObj_pending (s : State) (i : Nat) (f : Obj → Obj) : (s.modObj i f).pending = s.pending := rfl
@[simp] theorem State.modObj_free (s : State) (i : Nat) (f : Obj → Obj) : (s.modObj i f).free = s.free := rfl
@[simp] theorem State.modObj_sundial (s : State) (i : Nat) (f : Obj → Obj) : (s.modObj i f).sundial = s.sundial := rfl
@[simp] theorem State.modObj_agents (s : State) (i : Nat) (f : Obj → Obj) : (s.modObj i f).agents = s.agents := rfl
@[simp] theorem State.modObj_epoch (s : State) (i : Nat) (f : Obj → Obj) : (s.modObj i f).epoch = s.epoch := rfl
@[simp] theorem State.modObj_gates (s : State) (i : Nat) (f : Obj → Obj) : (s.modObj i f).gates = s.gates := rfl
@[simp] theorem State.modObj_mem (s : State) (i : Nat) (f : Obj → Obj) : (s.modObj i f).mem = s.mem := rfl
@[simp] theorem State.modObj_arrays (s : State) (i : Nat) (f : Obj → Obj) : (s.modObj i f).arrays = s.arrays := rfl
@[simp] theorem State.modObj_sessions (s : State) (i : Nat) (f : Obj → Obj) : (s.modObj i f).sessions = s.sessions := rfl
@[simp] theorem State.modObj_movers (s : State) (i : Nat) (f : Obj → Obj) : (s.modObj i f).movers = s.movers := rfl
@[simp] theorem State.modObj_cluster (s : State) (i : Nat) (f : Obj → Obj) : (s.modObj i f).cluster = s.cluster := rfl
@[simp] theorem State.modObj_codec (s : State) (i : Nat) (f : Obj → Obj) : (s.modObj i f).codec = s.codec := rfl
@[simp] theorem State.modObj_link (s : State) (i : Nat) (f : Obj → Obj) : (s.modObj i f).link = s.link := rfl
@[simp] theorem State.modObj_sun (s : State) (i : Nat) (f : Obj → Obj) : (s.modObj i f).sun = s.sun := rfl
@[simp] theorem State.modObj_power (s : State) (i : Nat) (f : Obj → Obj) : (s.modObj i f).power = s.power := rfl
@[simp] theorem State.modObj_recovery (s : State) (i : Nat) (f : Obj → Obj) : (s.modObj i f).recovery = s.recovery := rfl
@[simp] theorem State.modObj_gatehouse (s : State) (i : Nat) (f : Obj → Obj) : (s.modObj i f).gatehouse = s.gatehouse := rfl
@[simp] theorem State.modObj_pins (s : State) (i : Nat) (f : Obj → Obj) : (s.modObj i f).pins = s.pins := rfl
@[simp] theorem State.modObj_agent (s : State) (i j : Nat) (f : Obj → Obj) : (s.modObj i f).agent j = s.agent j := rfl
@[simp] theorem State.modObj_gate (s : State) (i j : Nat) (f : Obj → Obj) : (s.modObj i f).gate j = s.gate j := rfl
@[simp] theorem State.modObj_array (s : State) (i j : Nat) (f : Obj → Obj) : (s.modObj i f).array j = s.array j := rfl
@[simp] theorem State.modObj_mover (s : State) (i j : Nat) (f : Obj → Obj) : (s.modObj i f).mover j = s.mover j := rfl
@[simp] theorem State.modObj_stack (s : State) (i j : Nat) (f : Obj → Obj) : (s.modObj i f).stack j = s.stack j := rfl
@[simp] theorem State.modObj_quota (s : State) (i j : Nat) (f : Obj → Obj) : (s.modObj i f).quota j = s.quota j := rfl
@[simp] theorem State.modObj_session (s : State) (i j : Nat) (f : Obj → Obj) : (s.modObj i f).session j = s.session j := rfl
@[simp] theorem State.modObj_core (s : State) (i j : Nat) (f : Obj → Obj) : (s.modObj i f).core j = s.core j := rfl
@[simp] theorem State.modObj_codecCore (s : State) (i j : Nat) (f : Obj → Obj) : (s.modObj i f).codecCore j = s.codecCore j := rfl
@[simp] theorem State.modObj_ctx (s : State) (i j : Nat) (f : Obj → Obj) : (s.modObj i f).ctx j = s.ctx j := rfl
@[simp] theorem State.modObj_port (s : State) (i j : Nat) (f : Obj → Obj) : (s.modObj i f).port j = s.port j := rfl
@[simp] theorem State.modObj_fwType (s : State) (i j : Nat) (f : Obj → Obj) : (s.modObj i f).fwType j = s.fwType j := rfl
@[simp] theorem State.modObj_page (s : State) (i j : Nat) (f : Obj → Obj) : (s.modObj i f).page j = s.page j := rfl
@[simp] theorem State.modObj_route (s : State) (i j : Nat) (f : Obj → Obj) : (s.modObj i f).route j = s.route j := rfl
@[simp] theorem State.modObj_alwaysOn (s : State) (i : Nat) (f : Obj → Obj) : (s.modObj i f).alwaysOn = s.alwaysOn := rfl
@[simp] theorem State.modObj_inService (s : State) (i : Nat) (f : Obj → Obj) : (s.modObj i f).inService = s.inService := rfl
@[simp] theorem State.modObj_warmResetting (s : State) (i : Nat) (f : Obj → Obj) : (s.modObj i f).warmResetting = s.warmResetting := rfl
@[simp] theorem State.modObj_agentsRun (s : State) (i : Nat) (f : Obj → Obj) : (s.modObj i f).agentsRun = s.agentsRun := rfl

/-! `modQuota` -/

@[simp] theorem State.modQuota_quota (s : State) (i : Nat) (f : Quota → Quota) : (s.modQuota i f).quota i = f (s.quota i) := mapGet_mod_same ..
theorem State.modQuota_quota_ne (s : State) {i j : Nat} (h : j ≠ i) (f : Quota → Quota) : (s.modQuota i f).quota j = s.quota j := mapGet_mod_ne _ h ..
@[simp] theorem State.modQuota_pending (s : State) (i : Nat) (f : Quota → Quota) : (s.modQuota i f).pending = s.pending := rfl
@[simp] theorem State.modQuota_free (s : State) (i : Nat) (f : Quota → Quota) : (s.modQuota i f).free = s.free := rfl
@[simp] theorem State.modQuota_sundial (s : State) (i : Nat) (f : Quota → Quota) : (s.modQuota i f).sundial = s.sundial := rfl
@[simp] theorem State.modQuota_agents (s : State) (i : Nat) (f : Quota → Quota) : (s.modQuota i f).agents = s.agents := rfl
@[simp] theorem State.modQuota_epoch (s : State) (i : Nat) (f : Quota → Quota) : (s.modQuota i f).epoch = s.epoch := rfl
@[simp] theorem State.modQuota_gates (s : State) (i : Nat) (f : Quota → Quota) : (s.modQuota i f).gates = s.gates := rfl
@[simp] theorem State.modQuota_mem (s : State) (i : Nat) (f : Quota → Quota) : (s.modQuota i f).mem = s.mem := rfl
@[simp] theorem State.modQuota_arrays (s : State) (i : Nat) (f : Quota → Quota) : (s.modQuota i f).arrays = s.arrays := rfl
@[simp] theorem State.modQuota_sessions (s : State) (i : Nat) (f : Quota → Quota) : (s.modQuota i f).sessions = s.sessions := rfl
@[simp] theorem State.modQuota_movers (s : State) (i : Nat) (f : Quota → Quota) : (s.modQuota i f).movers = s.movers := rfl
@[simp] theorem State.modQuota_cluster (s : State) (i : Nat) (f : Quota → Quota) : (s.modQuota i f).cluster = s.cluster := rfl
@[simp] theorem State.modQuota_codec (s : State) (i : Nat) (f : Quota → Quota) : (s.modQuota i f).codec = s.codec := rfl
@[simp] theorem State.modQuota_link (s : State) (i : Nat) (f : Quota → Quota) : (s.modQuota i f).link = s.link := rfl
@[simp] theorem State.modQuota_sun (s : State) (i : Nat) (f : Quota → Quota) : (s.modQuota i f).sun = s.sun := rfl
@[simp] theorem State.modQuota_power (s : State) (i : Nat) (f : Quota → Quota) : (s.modQuota i f).power = s.power := rfl
@[simp] theorem State.modQuota_recovery (s : State) (i : Nat) (f : Quota → Quota) : (s.modQuota i f).recovery = s.recovery := rfl
@[simp] theorem State.modQuota_gatehouse (s : State) (i : Nat) (f : Quota → Quota) : (s.modQuota i f).gatehouse = s.gatehouse := rfl
@[simp] theorem State.modQuota_pins (s : State) (i : Nat) (f : Quota → Quota) : (s.modQuota i f).pins = s.pins := rfl
@[simp] theorem State.modQuota_agent (s : State) (i j : Nat) (f : Quota → Quota) : (s.modQuota i f).agent j = s.agent j := rfl
@[simp] theorem State.modQuota_gate (s : State) (i j : Nat) (f : Quota → Quota) : (s.modQuota i f).gate j = s.gate j := rfl
@[simp] theorem State.modQuota_array (s : State) (i j : Nat) (f : Quota → Quota) : (s.modQuota i f).array j = s.array j := rfl
@[simp] theorem State.modQuota_mover (s : State) (i j : Nat) (f : Quota → Quota) : (s.modQuota i f).mover j = s.mover j := rfl
@[simp] theorem State.modQuota_stack (s : State) (i j : Nat) (f : Quota → Quota) : (s.modQuota i f).stack j = s.stack j := rfl
@[simp] theorem State.modQuota_obj (s : State) (i j : Nat) (f : Quota → Quota) : (s.modQuota i f).obj j = s.obj j := rfl
@[simp] theorem State.modQuota_session (s : State) (i j : Nat) (f : Quota → Quota) : (s.modQuota i f).session j = s.session j := rfl
@[simp] theorem State.modQuota_core (s : State) (i j : Nat) (f : Quota → Quota) : (s.modQuota i f).core j = s.core j := rfl
@[simp] theorem State.modQuota_codecCore (s : State) (i j : Nat) (f : Quota → Quota) : (s.modQuota i f).codecCore j = s.codecCore j := rfl
@[simp] theorem State.modQuota_ctx (s : State) (i j : Nat) (f : Quota → Quota) : (s.modQuota i f).ctx j = s.ctx j := rfl
@[simp] theorem State.modQuota_port (s : State) (i j : Nat) (f : Quota → Quota) : (s.modQuota i f).port j = s.port j := rfl
@[simp] theorem State.modQuota_fwType (s : State) (i j : Nat) (f : Quota → Quota) : (s.modQuota i f).fwType j = s.fwType j := rfl
@[simp] theorem State.modQuota_page (s : State) (i j : Nat) (f : Quota → Quota) : (s.modQuota i f).page j = s.page j := rfl
@[simp] theorem State.modQuota_route (s : State) (i j : Nat) (f : Quota → Quota) : (s.modQuota i f).route j = s.route j := rfl
@[simp] theorem State.modQuota_alwaysOn (s : State) (i : Nat) (f : Quota → Quota) : (s.modQuota i f).alwaysOn = s.alwaysOn := rfl
@[simp] theorem State.modQuota_inService (s : State) (i : Nat) (f : Quota → Quota) : (s.modQuota i f).inService = s.inService := rfl
@[simp] theorem State.modQuota_warmResetting (s : State) (i : Nat) (f : Quota → Quota) : (s.modQuota i f).warmResetting = s.warmResetting := rfl
@[simp] theorem State.modQuota_agentsRun (s : State) (i : Nat) (f : Quota → Quota) : (s.modQuota i f).agentsRun = s.agentsRun := rfl

/-! `modSession` -/

@[simp] theorem State.modSession_session (s : State) (i : Nat) (f : Session → Session) : (s.modSession i f).session i = f (s.session i) := mapGet_mod_same ..
theorem State.modSession_session_ne (s : State) {i j : Nat} (h : j ≠ i) (f : Session → Session) : (s.modSession i f).session j = s.session j := mapGet_mod_ne _ h ..
@[simp] theorem State.modSession_pending (s : State) (i : Nat) (f : Session → Session) : (s.modSession i f).pending = s.pending := rfl
@[simp] theorem State.modSession_free (s : State) (i : Nat) (f : Session → Session) : (s.modSession i f).free = s.free := rfl
@[simp] theorem State.modSession_sundial (s : State) (i : Nat) (f : Session → Session) : (s.modSession i f).sundial = s.sundial := rfl
@[simp] theorem State.modSession_agents (s : State) (i : Nat) (f : Session → Session) : (s.modSession i f).agents = s.agents := rfl
@[simp] theorem State.modSession_epoch (s : State) (i : Nat) (f : Session → Session) : (s.modSession i f).epoch = s.epoch := rfl
@[simp] theorem State.modSession_gates (s : State) (i : Nat) (f : Session → Session) : (s.modSession i f).gates = s.gates := rfl
@[simp] theorem State.modSession_mem (s : State) (i : Nat) (f : Session → Session) : (s.modSession i f).mem = s.mem := rfl
@[simp] theorem State.modSession_objects (s : State) (i : Nat) (f : Session → Session) : (s.modSession i f).objects = s.objects := rfl
@[simp] theorem State.modSession_arrays (s : State) (i : Nat) (f : Session → Session) : (s.modSession i f).arrays = s.arrays := rfl
@[simp] theorem State.modSession_movers (s : State) (i : Nat) (f : Session → Session) : (s.modSession i f).movers = s.movers := rfl
@[simp] theorem State.modSession_cluster (s : State) (i : Nat) (f : Session → Session) : (s.modSession i f).cluster = s.cluster := rfl
@[simp] theorem State.modSession_codec (s : State) (i : Nat) (f : Session → Session) : (s.modSession i f).codec = s.codec := rfl
@[simp] theorem State.modSession_link (s : State) (i : Nat) (f : Session → Session) : (s.modSession i f).link = s.link := rfl
@[simp] theorem State.modSession_sun (s : State) (i : Nat) (f : Session → Session) : (s.modSession i f).sun = s.sun := rfl
@[simp] theorem State.modSession_power (s : State) (i : Nat) (f : Session → Session) : (s.modSession i f).power = s.power := rfl
@[simp] theorem State.modSession_recovery (s : State) (i : Nat) (f : Session → Session) : (s.modSession i f).recovery = s.recovery := rfl
@[simp] theorem State.modSession_gatehouse (s : State) (i : Nat) (f : Session → Session) : (s.modSession i f).gatehouse = s.gatehouse := rfl
@[simp] theorem State.modSession_pins (s : State) (i : Nat) (f : Session → Session) : (s.modSession i f).pins = s.pins := rfl
@[simp] theorem State.modSession_agent (s : State) (i j : Nat) (f : Session → Session) : (s.modSession i f).agent j = s.agent j := rfl
@[simp] theorem State.modSession_gate (s : State) (i j : Nat) (f : Session → Session) : (s.modSession i f).gate j = s.gate j := rfl
@[simp] theorem State.modSession_array (s : State) (i j : Nat) (f : Session → Session) : (s.modSession i f).array j = s.array j := rfl
@[simp] theorem State.modSession_mover (s : State) (i j : Nat) (f : Session → Session) : (s.modSession i f).mover j = s.mover j := rfl
@[simp] theorem State.modSession_stack (s : State) (i j : Nat) (f : Session → Session) : (s.modSession i f).stack j = s.stack j := rfl
@[simp] theorem State.modSession_obj (s : State) (i j : Nat) (f : Session → Session) : (s.modSession i f).obj j = s.obj j := rfl
@[simp] theorem State.modSession_quota (s : State) (i j : Nat) (f : Session → Session) : (s.modSession i f).quota j = s.quota j := rfl
@[simp] theorem State.modSession_core (s : State) (i j : Nat) (f : Session → Session) : (s.modSession i f).core j = s.core j := rfl
@[simp] theorem State.modSession_codecCore (s : State) (i j : Nat) (f : Session → Session) : (s.modSession i f).codecCore j = s.codecCore j := rfl
@[simp] theorem State.modSession_ctx (s : State) (i j : Nat) (f : Session → Session) : (s.modSession i f).ctx j = s.ctx j := rfl
@[simp] theorem State.modSession_port (s : State) (i j : Nat) (f : Session → Session) : (s.modSession i f).port j = s.port j := rfl
@[simp] theorem State.modSession_fwType (s : State) (i j : Nat) (f : Session → Session) : (s.modSession i f).fwType j = s.fwType j := rfl
@[simp] theorem State.modSession_page (s : State) (i j : Nat) (f : Session → Session) : (s.modSession i f).page j = s.page j := rfl
@[simp] theorem State.modSession_route (s : State) (i j : Nat) (f : Session → Session) : (s.modSession i f).route j = s.route j := rfl
@[simp] theorem State.modSession_alwaysOn (s : State) (i : Nat) (f : Session → Session) : (s.modSession i f).alwaysOn = s.alwaysOn := rfl
@[simp] theorem State.modSession_inService (s : State) (i : Nat) (f : Session → Session) : (s.modSession i f).inService = s.inService := rfl
@[simp] theorem State.modSession_warmResetting (s : State) (i : Nat) (f : Session → Session) : (s.modSession i f).warmResetting = s.warmResetting := rfl
@[simp] theorem State.modSession_agentsRun (s : State) (i : Nat) (f : Session → Session) : (s.modSession i f).agentsRun = s.agentsRun := rfl

/-! `modCore` -/

@[simp] theorem State.modCore_core (s : State) (i : Nat) (f : HostCore → HostCore) : (s.modCore i f).core i = f (s.core i) := mapGet_mod_same ..
theorem State.modCore_core_ne (s : State) {i j : Nat} (h : j ≠ i) (f : HostCore → HostCore) : (s.modCore i f).core j = s.core j := mapGet_mod_ne _ h ..
@[simp] theorem State.modCore_pending (s : State) (i : Nat) (f : HostCore → HostCore) : (s.modCore i f).pending = s.pending := rfl
@[simp] theorem State.modCore_free (s : State) (i : Nat) (f : HostCore → HostCore) : (s.modCore i f).free = s.free := rfl
@[simp] theorem State.modCore_sundial (s : State) (i : Nat) (f : HostCore → HostCore) : (s.modCore i f).sundial = s.sundial := rfl
@[simp] theorem State.modCore_agents (s : State) (i : Nat) (f : HostCore → HostCore) : (s.modCore i f).agents = s.agents := rfl
@[simp] theorem State.modCore_epoch (s : State) (i : Nat) (f : HostCore → HostCore) : (s.modCore i f).epoch = s.epoch := rfl
@[simp] theorem State.modCore_gates (s : State) (i : Nat) (f : HostCore → HostCore) : (s.modCore i f).gates = s.gates := rfl
@[simp] theorem State.modCore_mem (s : State) (i : Nat) (f : HostCore → HostCore) : (s.modCore i f).mem = s.mem := rfl
@[simp] theorem State.modCore_objects (s : State) (i : Nat) (f : HostCore → HostCore) : (s.modCore i f).objects = s.objects := rfl
@[simp] theorem State.modCore_arrays (s : State) (i : Nat) (f : HostCore → HostCore) : (s.modCore i f).arrays = s.arrays := rfl
@[simp] theorem State.modCore_sessions (s : State) (i : Nat) (f : HostCore → HostCore) : (s.modCore i f).sessions = s.sessions := rfl
@[simp] theorem State.modCore_movers (s : State) (i : Nat) (f : HostCore → HostCore) : (s.modCore i f).movers = s.movers := rfl
@[simp] theorem State.modCore_codec (s : State) (i : Nat) (f : HostCore → HostCore) : (s.modCore i f).codec = s.codec := rfl
@[simp] theorem State.modCore_link (s : State) (i : Nat) (f : HostCore → HostCore) : (s.modCore i f).link = s.link := rfl
@[simp] theorem State.modCore_sun (s : State) (i : Nat) (f : HostCore → HostCore) : (s.modCore i f).sun = s.sun := rfl
@[simp] theorem State.modCore_power (s : State) (i : Nat) (f : HostCore → HostCore) : (s.modCore i f).power = s.power := rfl
@[simp] theorem State.modCore_recovery (s : State) (i : Nat) (f : HostCore → HostCore) : (s.modCore i f).recovery = s.recovery := rfl
@[simp] theorem State.modCore_gatehouse (s : State) (i : Nat) (f : HostCore → HostCore) : (s.modCore i f).gatehouse = s.gatehouse := rfl
@[simp] theorem State.modCore_pins (s : State) (i : Nat) (f : HostCore → HostCore) : (s.modCore i f).pins = s.pins := rfl
@[simp] theorem State.modCore_agent (s : State) (i j : Nat) (f : HostCore → HostCore) : (s.modCore i f).agent j = s.agent j := rfl
@[simp] theorem State.modCore_gate (s : State) (i j : Nat) (f : HostCore → HostCore) : (s.modCore i f).gate j = s.gate j := rfl
@[simp] theorem State.modCore_array (s : State) (i j : Nat) (f : HostCore → HostCore) : (s.modCore i f).array j = s.array j := rfl
@[simp] theorem State.modCore_mover (s : State) (i j : Nat) (f : HostCore → HostCore) : (s.modCore i f).mover j = s.mover j := rfl
@[simp] theorem State.modCore_stack (s : State) (i j : Nat) (f : HostCore → HostCore) : (s.modCore i f).stack j = s.stack j := rfl
@[simp] theorem State.modCore_obj (s : State) (i j : Nat) (f : HostCore → HostCore) : (s.modCore i f).obj j = s.obj j := rfl
@[simp] theorem State.modCore_quota (s : State) (i j : Nat) (f : HostCore → HostCore) : (s.modCore i f).quota j = s.quota j := rfl
@[simp] theorem State.modCore_session (s : State) (i j : Nat) (f : HostCore → HostCore) : (s.modCore i f).session j = s.session j := rfl
@[simp] theorem State.modCore_codecCore (s : State) (i j : Nat) (f : HostCore → HostCore) : (s.modCore i f).codecCore j = s.codecCore j := rfl
@[simp] theorem State.modCore_ctx (s : State) (i j : Nat) (f : HostCore → HostCore) : (s.modCore i f).ctx j = s.ctx j := rfl
@[simp] theorem State.modCore_port (s : State) (i j : Nat) (f : HostCore → HostCore) : (s.modCore i f).port j = s.port j := rfl
@[simp] theorem State.modCore_fwType (s : State) (i j : Nat) (f : HostCore → HostCore) : (s.modCore i f).fwType j = s.fwType j := rfl
@[simp] theorem State.modCore_page (s : State) (i j : Nat) (f : HostCore → HostCore) : (s.modCore i f).page j = s.page j := rfl
@[simp] theorem State.modCore_route (s : State) (i j : Nat) (f : HostCore → HostCore) : (s.modCore i f).route j = s.route j := rfl
@[simp] theorem State.modCore_alwaysOn (s : State) (i : Nat) (f : HostCore → HostCore) : (s.modCore i f).alwaysOn = s.alwaysOn := rfl
@[simp] theorem State.modCore_inService (s : State) (i : Nat) (f : HostCore → HostCore) : (s.modCore i f).inService = s.inService := rfl
@[simp] theorem State.modCore_warmResetting (s : State) (i : Nat) (f : HostCore → HostCore) : (s.modCore i f).warmResetting = s.warmResetting := rfl
@[simp] theorem State.modCore_agentsRun (s : State) (i : Nat) (f : HostCore → HostCore) : (s.modCore i f).agentsRun = s.agentsRun := rfl

/-! `modCodecCore` -/

@[simp] theorem State.modCodecCore_codecCore (s : State) (i : Nat) (f : CodecCore → CodecCore) : (s.modCodecCore i f).codecCore i = f (s.codecCore i) := mapGet_mod_same ..
theorem State.modCodecCore_codecCore_ne (s : State) {i j : Nat} (h : j ≠ i) (f : CodecCore → CodecCore) : (s.modCodecCore i f).codecCore j = s.codecCore j := mapGet_mod_ne _ h ..
@[simp] theorem State.modCodecCore_pending (s : State) (i : Nat) (f : CodecCore → CodecCore) : (s.modCodecCore i f).pending = s.pending := rfl
@[simp] theorem State.modCodecCore_free (s : State) (i : Nat) (f : CodecCore → CodecCore) : (s.modCodecCore i f).free = s.free := rfl
@[simp] theorem State.modCodecCore_sundial (s : State) (i : Nat) (f : CodecCore → CodecCore) : (s.modCodecCore i f).sundial = s.sundial := rfl
@[simp] theorem State.modCodecCore_agents (s : State) (i : Nat) (f : CodecCore → CodecCore) : (s.modCodecCore i f).agents = s.agents := rfl
@[simp] theorem State.modCodecCore_epoch (s : State) (i : Nat) (f : CodecCore → CodecCore) : (s.modCodecCore i f).epoch = s.epoch := rfl
@[simp] theorem State.modCodecCore_gates (s : State) (i : Nat) (f : CodecCore → CodecCore) : (s.modCodecCore i f).gates = s.gates := rfl
@[simp] theorem State.modCodecCore_mem (s : State) (i : Nat) (f : CodecCore → CodecCore) : (s.modCodecCore i f).mem = s.mem := rfl
@[simp] theorem State.modCodecCore_objects (s : State) (i : Nat) (f : CodecCore → CodecCore) : (s.modCodecCore i f).objects = s.objects := rfl
@[simp] theorem State.modCodecCore_arrays (s : State) (i : Nat) (f : CodecCore → CodecCore) : (s.modCodecCore i f).arrays = s.arrays := rfl
@[simp] theorem State.modCodecCore_sessions (s : State) (i : Nat) (f : CodecCore → CodecCore) : (s.modCodecCore i f).sessions = s.sessions := rfl
@[simp] theorem State.modCodecCore_movers (s : State) (i : Nat) (f : CodecCore → CodecCore) : (s.modCodecCore i f).movers = s.movers := rfl
@[simp] theorem State.modCodecCore_cluster (s : State) (i : Nat) (f : CodecCore → CodecCore) : (s.modCodecCore i f).cluster = s.cluster := rfl
@[simp] theorem State.modCodecCore_link (s : State) (i : Nat) (f : CodecCore → CodecCore) : (s.modCodecCore i f).link = s.link := rfl
@[simp] theorem State.modCodecCore_sun (s : State) (i : Nat) (f : CodecCore → CodecCore) : (s.modCodecCore i f).sun = s.sun := rfl
@[simp] theorem State.modCodecCore_power (s : State) (i : Nat) (f : CodecCore → CodecCore) : (s.modCodecCore i f).power = s.power := rfl
@[simp] theorem State.modCodecCore_recovery (s : State) (i : Nat) (f : CodecCore → CodecCore) : (s.modCodecCore i f).recovery = s.recovery := rfl
@[simp] theorem State.modCodecCore_gatehouse (s : State) (i : Nat) (f : CodecCore → CodecCore) : (s.modCodecCore i f).gatehouse = s.gatehouse := rfl
@[simp] theorem State.modCodecCore_pins (s : State) (i : Nat) (f : CodecCore → CodecCore) : (s.modCodecCore i f).pins = s.pins := rfl
@[simp] theorem State.modCodecCore_agent (s : State) (i j : Nat) (f : CodecCore → CodecCore) : (s.modCodecCore i f).agent j = s.agent j := rfl
@[simp] theorem State.modCodecCore_gate (s : State) (i j : Nat) (f : CodecCore → CodecCore) : (s.modCodecCore i f).gate j = s.gate j := rfl
@[simp] theorem State.modCodecCore_array (s : State) (i j : Nat) (f : CodecCore → CodecCore) : (s.modCodecCore i f).array j = s.array j := rfl
@[simp] theorem State.modCodecCore_mover (s : State) (i j : Nat) (f : CodecCore → CodecCore) : (s.modCodecCore i f).mover j = s.mover j := rfl
@[simp] theorem State.modCodecCore_stack (s : State) (i j : Nat) (f : CodecCore → CodecCore) : (s.modCodecCore i f).stack j = s.stack j := rfl
@[simp] theorem State.modCodecCore_obj (s : State) (i j : Nat) (f : CodecCore → CodecCore) : (s.modCodecCore i f).obj j = s.obj j := rfl
@[simp] theorem State.modCodecCore_quota (s : State) (i j : Nat) (f : CodecCore → CodecCore) : (s.modCodecCore i f).quota j = s.quota j := rfl
@[simp] theorem State.modCodecCore_session (s : State) (i j : Nat) (f : CodecCore → CodecCore) : (s.modCodecCore i f).session j = s.session j := rfl
@[simp] theorem State.modCodecCore_core (s : State) (i j : Nat) (f : CodecCore → CodecCore) : (s.modCodecCore i f).core j = s.core j := rfl
@[simp] theorem State.modCodecCore_ctx (s : State) (i j : Nat) (f : CodecCore → CodecCore) : (s.modCodecCore i f).ctx j = s.ctx j := rfl
@[simp] theorem State.modCodecCore_port (s : State) (i j : Nat) (f : CodecCore → CodecCore) : (s.modCodecCore i f).port j = s.port j := rfl
@[simp] theorem State.modCodecCore_fwType (s : State) (i j : Nat) (f : CodecCore → CodecCore) : (s.modCodecCore i f).fwType j = s.fwType j := rfl
@[simp] theorem State.modCodecCore_page (s : State) (i j : Nat) (f : CodecCore → CodecCore) : (s.modCodecCore i f).page j = s.page j := rfl
@[simp] theorem State.modCodecCore_route (s : State) (i j : Nat) (f : CodecCore → CodecCore) : (s.modCodecCore i f).route j = s.route j := rfl
@[simp] theorem State.modCodecCore_alwaysOn (s : State) (i : Nat) (f : CodecCore → CodecCore) : (s.modCodecCore i f).alwaysOn = s.alwaysOn := rfl
@[simp] theorem State.modCodecCore_inService (s : State) (i : Nat) (f : CodecCore → CodecCore) : (s.modCodecCore i f).inService = s.inService := rfl
@[simp] theorem State.modCodecCore_warmResetting (s : State) (i : Nat) (f : CodecCore → CodecCore) : (s.modCodecCore i f).warmResetting = s.warmResetting := rfl
@[simp] theorem State.modCodecCore_agentsRun (s : State) (i : Nat) (f : CodecCore → CodecCore) : (s.modCodecCore i f).agentsRun = s.agentsRun := rfl

/-! `modCtx` -/

@[simp] theorem State.modCtx_ctx (s : State) (i : Nat) (f : Ctx → Ctx) : (s.modCtx i f).ctx i = f (s.ctx i) := mapGet_mod_same ..
theorem State.modCtx_ctx_ne (s : State) {i j : Nat} (h : j ≠ i) (f : Ctx → Ctx) : (s.modCtx i f).ctx j = s.ctx j := mapGet_mod_ne _ h ..
@[simp] theorem State.modCtx_pending (s : State) (i : Nat) (f : Ctx → Ctx) : (s.modCtx i f).pending = s.pending := rfl
@[simp] theorem State.modCtx_free (s : State) (i : Nat) (f : Ctx → Ctx) : (s.modCtx i f).free = s.free := rfl
@[simp] theorem State.modCtx_sundial (s : State) (i : Nat) (f : Ctx → Ctx) : (s.modCtx i f).sundial = s.sundial := rfl
@[simp] theorem State.modCtx_agents (s : State) (i : Nat) (f : Ctx → Ctx) : (s.modCtx i f).agents = s.agents := rfl
@[simp] theorem State.modCtx_epoch (s : State) (i : Nat) (f : Ctx → Ctx) : (s.modCtx i f).epoch = s.epoch := rfl
@[simp] theorem State.modCtx_gates (s : State) (i : Nat) (f : Ctx → Ctx) : (s.modCtx i f).gates = s.gates := rfl
@[simp] theorem State.modCtx_mem (s : State) (i : Nat) (f : Ctx → Ctx) : (s.modCtx i f).mem = s.mem := rfl
@[simp] theorem State.modCtx_objects (s : State) (i : Nat) (f : Ctx → Ctx) : (s.modCtx i f).objects = s.objects := rfl
@[simp] theorem State.modCtx_arrays (s : State) (i : Nat) (f : Ctx → Ctx) : (s.modCtx i f).arrays = s.arrays := rfl
@[simp] theorem State.modCtx_sessions (s : State) (i : Nat) (f : Ctx → Ctx) : (s.modCtx i f).sessions = s.sessions := rfl
@[simp] theorem State.modCtx_movers (s : State) (i : Nat) (f : Ctx → Ctx) : (s.modCtx i f).movers = s.movers := rfl
@[simp] theorem State.modCtx_cluster (s : State) (i : Nat) (f : Ctx → Ctx) : (s.modCtx i f).cluster = s.cluster := rfl
@[simp] theorem State.modCtx_link (s : State) (i : Nat) (f : Ctx → Ctx) : (s.modCtx i f).link = s.link := rfl
@[simp] theorem State.modCtx_sun (s : State) (i : Nat) (f : Ctx → Ctx) : (s.modCtx i f).sun = s.sun := rfl
@[simp] theorem State.modCtx_power (s : State) (i : Nat) (f : Ctx → Ctx) : (s.modCtx i f).power = s.power := rfl
@[simp] theorem State.modCtx_recovery (s : State) (i : Nat) (f : Ctx → Ctx) : (s.modCtx i f).recovery = s.recovery := rfl
@[simp] theorem State.modCtx_gatehouse (s : State) (i : Nat) (f : Ctx → Ctx) : (s.modCtx i f).gatehouse = s.gatehouse := rfl
@[simp] theorem State.modCtx_pins (s : State) (i : Nat) (f : Ctx → Ctx) : (s.modCtx i f).pins = s.pins := rfl
@[simp] theorem State.modCtx_agent (s : State) (i j : Nat) (f : Ctx → Ctx) : (s.modCtx i f).agent j = s.agent j := rfl
@[simp] theorem State.modCtx_gate (s : State) (i j : Nat) (f : Ctx → Ctx) : (s.modCtx i f).gate j = s.gate j := rfl
@[simp] theorem State.modCtx_array (s : State) (i j : Nat) (f : Ctx → Ctx) : (s.modCtx i f).array j = s.array j := rfl
@[simp] theorem State.modCtx_mover (s : State) (i j : Nat) (f : Ctx → Ctx) : (s.modCtx i f).mover j = s.mover j := rfl
@[simp] theorem State.modCtx_stack (s : State) (i j : Nat) (f : Ctx → Ctx) : (s.modCtx i f).stack j = s.stack j := rfl
@[simp] theorem State.modCtx_obj (s : State) (i j : Nat) (f : Ctx → Ctx) : (s.modCtx i f).obj j = s.obj j := rfl
@[simp] theorem State.modCtx_quota (s : State) (i j : Nat) (f : Ctx → Ctx) : (s.modCtx i f).quota j = s.quota j := rfl
@[simp] theorem State.modCtx_session (s : State) (i j : Nat) (f : Ctx → Ctx) : (s.modCtx i f).session j = s.session j := rfl
@[simp] theorem State.modCtx_core (s : State) (i j : Nat) (f : Ctx → Ctx) : (s.modCtx i f).core j = s.core j := rfl
@[simp] theorem State.modCtx_codecCore (s : State) (i j : Nat) (f : Ctx → Ctx) : (s.modCtx i f).codecCore j = s.codecCore j := rfl
@[simp] theorem State.modCtx_port (s : State) (i j : Nat) (f : Ctx → Ctx) : (s.modCtx i f).port j = s.port j := rfl
@[simp] theorem State.modCtx_fwType (s : State) (i j : Nat) (f : Ctx → Ctx) : (s.modCtx i f).fwType j = s.fwType j := rfl
@[simp] theorem State.modCtx_page (s : State) (i j : Nat) (f : Ctx → Ctx) : (s.modCtx i f).page j = s.page j := rfl
@[simp] theorem State.modCtx_route (s : State) (i j : Nat) (f : Ctx → Ctx) : (s.modCtx i f).route j = s.route j := rfl
@[simp] theorem State.modCtx_alwaysOn (s : State) (i : Nat) (f : Ctx → Ctx) : (s.modCtx i f).alwaysOn = s.alwaysOn := rfl
@[simp] theorem State.modCtx_inService (s : State) (i : Nat) (f : Ctx → Ctx) : (s.modCtx i f).inService = s.inService := rfl
@[simp] theorem State.modCtx_warmResetting (s : State) (i : Nat) (f : Ctx → Ctx) : (s.modCtx i f).warmResetting = s.warmResetting := rfl
@[simp] theorem State.modCtx_agentsRun (s : State) (i : Nat) (f : Ctx → Ctx) : (s.modCtx i f).agentsRun = s.agentsRun := rfl

/-! `modPort` -/

@[simp] theorem State.modPort_port (s : State) (i : Nat) (f : Port → Port) : (s.modPort i f).port i = f (s.port i) := mapGet_mod_same ..
theorem State.modPort_port_ne (s : State) {i j : Nat} (h : j ≠ i) (f : Port → Port) : (s.modPort i f).port j = s.port j := mapGet_mod_ne _ h ..
@[simp] theorem State.modPort_pending (s : State) (i : Nat) (f : Port → Port) : (s.modPort i f).pending = s.pending := rfl
@[simp] theorem State.modPort_free (s : State) (i : Nat) (f : Port → Port) : (s.modPort i f).free = s.free := rfl
@[simp] theorem State.modPort_sundial (s : State) (i : Nat) (f : Port → Port) : (s.modPort i f).sundial = s.sundial := rfl
@[simp] theorem State.modPort_agents (s : State) (i : Nat) (f : Port → Port) : (s.modPort i f).agents = s.agents := rfl
@[simp] theorem State.modPort_epoch (s : State) (i : Nat) (f : Port → Port) : (s.modPort i f).epoch = s.epoch := rfl
@[simp] theorem State.modPort_gates (s : State) (i : Nat) (f : Port → Port) : (s.modPort i f).gates = s.gates := rfl
@[simp] theorem State.modPort_mem (s : State) (i : Nat) (f : Port → Port) : (s.modPort i f).mem = s.mem := rfl
@[simp] theorem State.modPort_objects (s : State) (i : Nat) (f : Port → Port) : (s.modPort i f).objects = s.objects := rfl
@[simp] theorem State.modPort_arrays (s : State) (i : Nat) (f : Port → Port) : (s.modPort i f).arrays = s.arrays := rfl
@[simp] theorem State.modPort_sessions (s : State) (i : Nat) (f : Port → Port) : (s.modPort i f).sessions = s.sessions := rfl
@[simp] theorem State.modPort_movers (s : State) (i : Nat) (f : Port → Port) : (s.modPort i f).movers = s.movers := rfl
@[simp] theorem State.modPort_cluster (s : State) (i : Nat) (f : Port → Port) : (s.modPort i f).cluster = s.cluster := rfl
@[simp] theorem State.modPort_codec (s : State) (i : Nat) (f : Port → Port) : (s.modPort i f).codec = s.codec := rfl
@[simp] theorem State.modPort_sun (s : State) (i : Nat) (f : Port → Port) : (s.modPort i f).sun = s.sun := rfl
@[simp] theorem State.modPort_power (s : State) (i : Nat) (f : Port → Port) : (s.modPort i f).power = s.power := rfl
@[simp] theorem State.modPort_recovery (s : State) (i : Nat) (f : Port → Port) : (s.modPort i f).recovery = s.recovery := rfl
@[simp] theorem State.modPort_gatehouse (s : State) (i : Nat) (f : Port → Port) : (s.modPort i f).gatehouse = s.gatehouse := rfl
@[simp] theorem State.modPort_pins (s : State) (i : Nat) (f : Port → Port) : (s.modPort i f).pins = s.pins := rfl
@[simp] theorem State.modPort_agent (s : State) (i j : Nat) (f : Port → Port) : (s.modPort i f).agent j = s.agent j := rfl
@[simp] theorem State.modPort_gate (s : State) (i j : Nat) (f : Port → Port) : (s.modPort i f).gate j = s.gate j := rfl
@[simp] theorem State.modPort_array (s : State) (i j : Nat) (f : Port → Port) : (s.modPort i f).array j = s.array j := rfl
@[simp] theorem State.modPort_mover (s : State) (i j : Nat) (f : Port → Port) : (s.modPort i f).mover j = s.mover j := rfl
@[simp] theorem State.modPort_stack (s : State) (i j : Nat) (f : Port → Port) : (s.modPort i f).stack j = s.stack j := rfl
@[simp] theorem State.modPort_obj (s : State) (i j : Nat) (f : Port → Port) : (s.modPort i f).obj j = s.obj j := rfl
@[simp] theorem State.modPort_quota (s : State) (i j : Nat) (f : Port → Port) : (s.modPort i f).quota j = s.quota j := rfl
@[simp] theorem State.modPort_session (s : State) (i j : Nat) (f : Port → Port) : (s.modPort i f).session j = s.session j := rfl
@[simp] theorem State.modPort_core (s : State) (i j : Nat) (f : Port → Port) : (s.modPort i f).core j = s.core j := rfl
@[simp] theorem State.modPort_codecCore (s : State) (i j : Nat) (f : Port → Port) : (s.modPort i f).codecCore j = s.codecCore j := rfl
@[simp] theorem State.modPort_ctx (s : State) (i j : Nat) (f : Port → Port) : (s.modPort i f).ctx j = s.ctx j := rfl
@[simp] theorem State.modPort_fwType (s : State) (i j : Nat) (f : Port → Port) : (s.modPort i f).fwType j = s.fwType j := rfl
@[simp] theorem State.modPort_page (s : State) (i j : Nat) (f : Port → Port) : (s.modPort i f).page j = s.page j := rfl
@[simp] theorem State.modPort_route (s : State) (i j : Nat) (f : Port → Port) : (s.modPort i f).route j = s.route j := rfl
@[simp] theorem State.modPort_alwaysOn (s : State) (i : Nat) (f : Port → Port) : (s.modPort i f).alwaysOn = s.alwaysOn := rfl
@[simp] theorem State.modPort_inService (s : State) (i : Nat) (f : Port → Port) : (s.modPort i f).inService = s.inService := rfl
@[simp] theorem State.modPort_warmResetting (s : State) (i : Nat) (f : Port → Port) : (s.modPort i f).warmResetting = s.warmResetting := rfl
@[simp] theorem State.modPort_agentsRun (s : State) (i : Nat) (f : Port → Port) : (s.modPort i f).agentsRun = s.agentsRun := rfl

/-! `modFw` -/

@[simp] theorem State.modFw_fwType (s : State) (i : Nat) (f : FwType → FwType) : (s.modFw i f).fwType i = f (s.fwType i) := mapGet_mod_same ..
theorem State.modFw_fwType_ne (s : State) {i j : Nat} (h : j ≠ i) (f : FwType → FwType) : (s.modFw i f).fwType j = s.fwType j := mapGet_mod_ne _ h ..
@[simp] theorem State.modFw_pending (s : State) (i : Nat) (f : FwType → FwType) : (s.modFw i f).pending = s.pending := rfl
@[simp] theorem State.modFw_free (s : State) (i : Nat) (f : FwType → FwType) : (s.modFw i f).free = s.free := rfl
@[simp] theorem State.modFw_sundial (s : State) (i : Nat) (f : FwType → FwType) : (s.modFw i f).sundial = s.sundial := rfl
@[simp] theorem State.modFw_agents (s : State) (i : Nat) (f : FwType → FwType) : (s.modFw i f).agents = s.agents := rfl
@[simp] theorem State.modFw_epoch (s : State) (i : Nat) (f : FwType → FwType) : (s.modFw i f).epoch = s.epoch := rfl
@[simp] theorem State.modFw_gates (s : State) (i : Nat) (f : FwType → FwType) : (s.modFw i f).gates = s.gates := rfl
@[simp] theorem State.modFw_mem (s : State) (i : Nat) (f : FwType → FwType) : (s.modFw i f).mem = s.mem := rfl
@[simp] theorem State.modFw_objects (s : State) (i : Nat) (f : FwType → FwType) : (s.modFw i f).objects = s.objects := rfl
@[simp] theorem State.modFw_arrays (s : State) (i : Nat) (f : FwType → FwType) : (s.modFw i f).arrays = s.arrays := rfl
@[simp] theorem State.modFw_sessions (s : State) (i : Nat) (f : FwType → FwType) : (s.modFw i f).sessions = s.sessions := rfl
@[simp] theorem State.modFw_movers (s : State) (i : Nat) (f : FwType → FwType) : (s.modFw i f).movers = s.movers := rfl
@[simp] theorem State.modFw_cluster (s : State) (i : Nat) (f : FwType → FwType) : (s.modFw i f).cluster = s.cluster := rfl
@[simp] theorem State.modFw_codec (s : State) (i : Nat) (f : FwType → FwType) : (s.modFw i f).codec = s.codec := rfl
@[simp] theorem State.modFw_link (s : State) (i : Nat) (f : FwType → FwType) : (s.modFw i f).link = s.link := rfl
@[simp] theorem State.modFw_sun (s : State) (i : Nat) (f : FwType → FwType) : (s.modFw i f).sun = s.sun := rfl
@[simp] theorem State.modFw_power (s : State) (i : Nat) (f : FwType → FwType) : (s.modFw i f).power = s.power := rfl
@[simp] theorem State.modFw_recovery (s : State) (i : Nat) (f : FwType → FwType) : (s.modFw i f).recovery = s.recovery := rfl
@[simp] theorem State.modFw_pins (s : State) (i : Nat) (f : FwType → FwType) : (s.modFw i f).pins = s.pins := rfl
@[simp] theorem State.modFw_agent (s : State) (i j : Nat) (f : FwType → FwType) : (s.modFw i f).agent j = s.agent j := rfl
@[simp] theorem State.modFw_gate (s : State) (i j : Nat) (f : FwType → FwType) : (s.modFw i f).gate j = s.gate j := rfl
@[simp] theorem State.modFw_array (s : State) (i j : Nat) (f : FwType → FwType) : (s.modFw i f).array j = s.array j := rfl
@[simp] theorem State.modFw_mover (s : State) (i j : Nat) (f : FwType → FwType) : (s.modFw i f).mover j = s.mover j := rfl
@[simp] theorem State.modFw_stack (s : State) (i j : Nat) (f : FwType → FwType) : (s.modFw i f).stack j = s.stack j := rfl
@[simp] theorem State.modFw_obj (s : State) (i j : Nat) (f : FwType → FwType) : (s.modFw i f).obj j = s.obj j := rfl
@[simp] theorem State.modFw_quota (s : State) (i j : Nat) (f : FwType → FwType) : (s.modFw i f).quota j = s.quota j := rfl
@[simp] theorem State.modFw_session (s : State) (i j : Nat) (f : FwType → FwType) : (s.modFw i f).session j = s.session j := rfl
@[simp] theorem State.modFw_core (s : State) (i j : Nat) (f : FwType → FwType) : (s.modFw i f).core j = s.core j := rfl
@[simp] theorem State.modFw_codecCore (s : State) (i j : Nat) (f : FwType → FwType) : (s.modFw i f).codecCore j = s.codecCore j := rfl
@[simp] theorem State.modFw_ctx (s : State) (i j : Nat) (f : FwType → FwType) : (s.modFw i f).ctx j = s.ctx j := rfl
@[simp] theorem State.modFw_port (s : State) (i j : Nat) (f : FwType → FwType) : (s.modFw i f).port j = s.port j := rfl
@[simp] theorem State.modFw_page (s : State) (i j : Nat) (f : FwType → FwType) : (s.modFw i f).page j = s.page j := rfl
@[simp] theorem State.modFw_route (s : State) (i j : Nat) (f : FwType → FwType) : (s.modFw i f).route j = s.route j := rfl
@[simp] theorem State.modFw_alwaysOn (s : State) (i : Nat) (f : FwType → FwType) : (s.modFw i f).alwaysOn = s.alwaysOn := rfl
@[simp] theorem State.modFw_warmResetting (s : State) (i : Nat) (f : FwType → FwType) : (s.modFw i f).warmResetting = s.warmResetting := rfl

end Sys2Proof.Machine
end

