-- ==== Sys2Proof/Laws/Gates.lean ====
section
/-! SUPPORT. What a change of a gate's counter can do: the counter, the waits it ends, and nothing else. -/
namespace Sys2Proof.Machine

theorem mapFind_all {α : Type} (f : α → α) (k : Nat) (m : List (Nat × α)) :
    mapFind k (mapAll f m) = (mapFind k m).map f := by
  induction m with
  | nil => rfl
  | cons e m ih =>
    obtain ⟨j, v⟩ := e
    simp only [mapAll, List.map_cons, mapFind] at ih ⊢
    split
    · rfl
    · exact ih

/-- A change of every listed entry is a change of every entry, where it leaves the defaults alone. -/
theorem mapGet_all {α : Type} (d : Nat → α) (f : α → α) (k : Nat) (m : List (Nat × α)) (h : f (d k) = d k) :
    mapGet d k (mapAll f m) = f (mapGet d k m) := by
  unfold mapGet
  rw [mapFind_all]
  cases mapFind k m with
  | none => exact h.symm
  | some v => rfl

/-- Judging ends the waits whose condition holds in time; an expired one keeps the value it expired at. -/
theorem Agent.judge_waits (now : Word64) (g : Nat) (old v : BitVec 32) (a : Agent) :
    (a.judge now g old v).waits =
      (a.waits.filter fun w => !(w.ended now g v)).map fun w => w.note now g old := by
  simp only [Agent.judge]
  split <;> rfl

@[simp] theorem Agent.judge_initial (now : Word64) (g : Nat) (old v : BitVec 32) :
    Agent.judge now g old v Agent.initial = Agent.initial := rfl

@[simp] theorem State.setGateValue_agent (s : State) (g : Nat) (v : BitVec 32) (i : Nat) :
    (s.setGateValue g v).agent i = (s.agent i).judge s.sundial g (s.gate g).value v := mapGet_all _ _ _ _ rfl

@[simp] theorem State.setGateValue_gate (s : State) (g : Nat) (v : BitVec 32) :
    (s.setGateValue g v).gate g = { s.gate g with value := v } :=
  State.modGate_gate s g fun x => { x with value := v }

theorem State.setGateValue_gate_ne (s : State) {g h : Nat} (n : h ≠ g) (v : BitVec 32) :
    (s.setGateValue g v).gate h = s.gate h :=
  State.modGate_gate_ne s n fun x => { x with value := v }

/-- A change of a counter touches gates, agents and core ports only. -/
theorem State.setGateValue_frame (s : State) (g : Nat) (v : BitVec 32) :
    s.setGateValue g v = { s with
      gates := (s.setGateValue g v).gates, agents := (s.setGateValue g v).agents, cluster := (s.setGateValue g v).cluster } := rfl

@[simp] theorem State.signalGate_gate (s : State) (g inc : Nat) :
    (s.signalGate g inc).gate g = { s.gate g with value := (s.gate g).value + BitVec.ofNat 32 inc } :=
  State.setGateValue_gate ..

theorem State.signalGate_gate_ne (s : State) {g h : Nat} (n : h ≠ g) (inc : Nat) :
    (s.signalGate g inc).gate h = s.gate h := State.setGateValue_gate_ne _ n _

end Sys2Proof.Machine
end

