-- ==== Sys2Proof/Laws/Memory.lean ====
section
/-! SUPPORT. Memory: its canonical form is kept by every operation on it, and what a byte reads as after each. -/
namespace Sys2Proof.Machine

/-- Memory after reset lists nothing, which is canonical. -/
theorem Mem.reset_wf : State.reset.mem.wf = true := rfl

theorem Mem.write_wf {m : Mem} (h : m.wf = true) (w : List (Nat × Byte)) : (m.write w).wf = true :=
  mapRising_foldl w (·.1) (·.2) h

theorem Mem.undefine_wf {m : Mem} (h : m.wf = true) (a n : Nat) : (m.undefine a n).wf = true := mapRising_filter _ h

theorem Mem.forget_wf {m : Mem} (h : m.wf = true) (l : List Nat) : (m.forget l).wf = true := mapRising_filter _ h

theorem Mem.iceOnly_wf {m : Mem} (h : m.wf = true) : m.iceOnly.wf = true := mapRising_filter _ h

theorem Mem.zero_wf {m : Mem} (h : m.wf = true) (a n : Nat) : (m.zero a n).wf = true := by
  have hl := (mapRising_iff _).mp (mapRising_filter (fun e => decide (e.1 < a)) h)
  have hr := (mapRising_iff _).mp (mapRising_filter (fun e => decide (a + n ≤ e.1)) h)
  refine (mapRising_iff _).mpr ?_
  simp only [Mem.zero, tabulate]
  rw [List.pairwise_append, List.pairwise_append]
  refine ⟨⟨hl, ?_, ?_⟩, hr, ?_⟩
  · rw [List.pairwise_map]
    exact List.pairwise_lt_range.imp (by intro x y hxy; show a + x < a + y; omega)
  · intro x hx y hy
    simp only [List.mem_filter, decide_eq_true_eq, List.mem_map] at hx hy
    obtain ⟨k, -, rfl⟩ := hy
    show x.1 < a + k
    omega
  · intro x hx y hy
    simp only [List.mem_append, List.mem_filter, decide_eq_true_eq, List.mem_map, List.mem_range] at hx hy
    rcases hx with hx | ⟨k, hk, rfl⟩
    · omega
    · show a + k < y.1
      omega

/-- A byte that a write does not name reads as before. -/
theorem Mem.write_byte {m : Mem} {w : List (Nat × Byte)} {a : Nat} (h : ∀ e ∈ w, e.1 ≠ a) :
    (m.write w).byte? a = m.byte? a := by
  simp only [Mem.byte?, Mem.write]
  generalize m.cells = c
  induction w generalizing c with
  | nil => rfl
  | cons e w ih =>
    rw [List.foldl_cons, ih (fun x hx => h x (List.mem_cons_of_mem _ hx)),
      mapFind_put_ne (Ne.symm (h e List.mem_cons_self))]

end Sys2Proof.Machine
end

