-- ==== Sys2Proof/Laws/Keeps.lean ====
section
/-! SUPPORT. What every operation of the device keeps: the canonical form of memory, the bound of the log, the ports of the
routing table, and the queue of waiting commands. `Keeps s t` relates a state before an operation to the state after it. -/
namespace Sys2Proof.Machine

/-- State `t` is as sound as `s`, with the same queue. -/
structure Keeps (s t : State) : Prop where
  mem : s.mem.wf = true → t.mem.wf = true
  log : s.recovery.log.length ≤ 4096 → t.recovery.log.length ≤ 4096
  routes : routesOk s.link.routes = true → routesOk t.link.routes = true
  queue : t.pending = s.pending

theorem Keeps.refl (s : State) : Keeps s s := ⟨id, id, id, rfl⟩

theorem Keeps.trans {s t u : State} (h : Keeps s t) (g : Keeps t u) : Keeps s u :=
  ⟨fun x => g.mem (h.mem x), fun x => g.log (h.log x), fun x => g.routes (h.routes x), g.queue.trans h.queue⟩

/-- A soundness that holds before holds after. -/
theorem Keeps.sound {s t : State} (h : Keeps s t) (hs : s.sound = true) : t.sound = true := by
  simp only [State.sound, State.logBounded, Bool.and_eq_true, decide_eq_true_eq] at *
  exact ⟨⟨h.mem hs.1.1, h.log hs.1.2⟩, h.routes hs.2⟩

/-- A record update keeps what its new parts keep. -/
theorem Keeps.upd {s t : State} {pe : List Instr} {fr : Nat} {su : Word64} {ag : List (Nat × Agent)} {ep : Epoch}
    {ga : List (Nat × Gate)} {me : Mem} {ob : Objects} {ar : List (Nat × ArrayState)} {se : Sessions}
    {mo : List (Nat × Mover)} {cl : Cluster} {co : Codec} {li : Link} {sn : Sundial} {po : Power} {re : Recovery}
    {gh : Gatehouse} {pi : Pins} (hq : pe = t.pending) (h : Keeps s t)
    (hm : t.mem.wf = true → me.wf = true) (hl : t.recovery.log.length ≤ 4096 → re.log.length ≤ 4096)
    (hr : routesOk t.link.routes = true → routesOk li.routes = true) :
    Keeps s (State.mk pe fr su ag ep ga me ob ar se mo cl co li sn po re gh pi) :=
  Keeps.trans h ⟨hm, hl, hr, hq⟩

/-- Operations in turn keep what each keeps. -/
theorem Keeps.foldl {α : Type} {f : State → α → State} (hf : ∀ s a, Keeps s (f s a)) (l : List α) (s : State) :
    Keeps s (l.foldl f s) := by
  induction l generalizing s with
  | nil => exact .refl s
  | cons a l ih => exact (hf s a).trans (ih _)

/-- An outcome keeps what its next state keeps. -/
def OutKeeps (s : State) (o : Host.Outcome State Fault Refusal) : Prop := ∀ t, o = .next t → Keeps s t

theorem OutKeeps.next {s t : State} (h : Keeps s t) : OutKeeps s (.next t) := fun _ e => by cases e; exact h

/-- An optional state keeps, where there is one. -/
def OptKeeps (s : State) (o : Option State) : Prop := ∀ t, o = some t → Keeps s t

theorem OptKeeps.none (s : State) : OptKeeps s none := fun _ e => by cases e

theorem OptKeeps.some {s t : State} (h : Keeps s t) : OptKeeps s (some t) := fun _ e => by cases e; exact h

theorem OptKeeps.elim {s t : State} {o : Option State} (h : OptKeeps s o) (e : o = .some t) : Keeps s t := h t e

theorem OptKeeps.map {s : State} {o : Option State} {f : State → State} (h : OptKeeps s o) (hf : ∀ t, Keeps t (f t)) :
    OptKeeps s (o.map f) := fun t e => by
  cases o with
  | none => cases e
  | some x => cases e; exact (h x rfl).trans (hf x)

theorem Keeps.getD {s x : State} {o : Option State} (h : OptKeeps s o) (hx : Keeps s x) : Keeps s (o.getD x) := by
  cases o with
  | none => exact hx
  | some y => exact h y rfl

/-- A checked operation keeps, where it answers a state. -/
def ExKeeps {ε : Type} (s : State) (o : Except ε State) : Prop := ∀ t, o = .ok t → Keeps s t

theorem ExKeeps.error {ε : Type} (s : State) (e : ε) : ExKeeps s (.error e : Except ε State) := fun _ h => by cases h

theorem ExKeeps.ok {ε : Type} {s t : State} (h : Keeps s t) : ExKeeps s (.ok t : Except ε State) := fun _ e => by cases e; exact h

theorem ExKeeps.elim {ε : Type} {s t : State} {o : Except ε State} (h : ExKeeps s o) (e : o = .ok t) : Keeps s t := h t e

/-- The same, where a checked operation may answer that it waits. -/
def HeldKeeps {ε : Type} (s : State) (o : Except ε (Option State)) : Prop := ∀ t, o = .ok (some t) → Keeps s t

theorem HeldKeeps.error {ε : Type} (s : State) (e : ε) : HeldKeeps s (.error e : Except ε (Option State)) := fun _ h => by cases h

theorem HeldKeeps.held {ε : Type} (s : State) : HeldKeeps s (.ok none : Except ε (Option State)) := fun _ h => by cases h

theorem HeldKeeps.ok {ε : Type} {s t : State} (h : Keeps s t) : HeldKeeps s (.ok (some t) : Except ε (Option State)) :=
  fun _ e => by cases e; exact h

/-- The answer of a mailbox command keeps what its state keeps. -/
def MbKeeps (s : State) (r : Nat × List Byte × State) : Prop := Keeps s r.2.2

theorem MbKeeps.mk {s t : State} {c : Nat} {l : List Byte} (h : Keeps s t) : MbKeeps s (c, l, t) := h

theorem OptKeeps.bind {s : State} {o : Option State} {f : State → Option State} (h : OptKeeps s o)
    (hf : ∀ t, Keeps s t → OptKeeps s (f t)) : OptKeeps s (o.bind f) := fun u e => by
  cases o with
  | none => cases e
  | some x => exact hf x (h x rfl) u e

theorem OptKeeps.bindOf {α : Type} {s : State} {o : Option α} {f : α → Option State} (hf : ∀ x, OptKeeps s (f x)) :
    OptKeeps s (o.bind f) := fun u e => by
  cases o with
  | none => cases e
  | some x => exact hf x u e

theorem Keeps.foldl_trans {α : Type} {f : State → α → State} {s t : State} {l : List α} (h : Keeps s t)
    (hf : ∀ s a, Keeps s (f s a)) : Keeps s (l.foldl f t) := h.trans (Keeps.foldl hf l t)

/-! Both branches of a choice keep, so the choice does. -/

theorem Keeps.ite {s : State} {c : Prop} [Decidable c] {a b : State} (ha : Keeps s a) (hb : Keeps s b) : Keeps s (if c then a else b) := by
  by_cases h : c
  · rw [if_pos h]; exact ha
  · rw [if_neg h]; exact hb

theorem OutKeeps.ite {s : State} {c : Prop} [Decidable c] {a b : Host.Outcome State Fault Refusal} (ha : OutKeeps s a) (hb : OutKeeps s b) : OutKeeps s (if c then a else b) := by
  by_cases h : c
  · rw [if_pos h]; exact ha
  · rw [if_neg h]; exact hb

theorem OptKeeps.ite {s : State} {c : Prop} [Decidable c] {a b : Option State} (ha : OptKeeps s a) (hb : OptKeeps s b) : OptKeeps s (if c then a else b) := by
  by_cases h : c
  · rw [if_pos h]; exact ha
  · rw [if_neg h]; exact hb

theorem MbKeeps.ite {s : State} {c : Prop} [Decidable c] {a b : Nat × List Byte × State} (ha : MbKeeps s a) (hb : MbKeeps s b) : MbKeeps s (if c then a else b) := by
  by_cases h : c
  · rw [if_pos h]; exact ha
  · rw [if_neg h]; exact hb

theorem ExKeeps.ite {ε : Type} {s : State} {c : Prop} [Decidable c] {a b : Except ε State} (ha : ExKeeps s a) (hb : ExKeeps s b) :
    ExKeeps s (if c then a else b) := by
  by_cases h : c
  · rw [if_pos h]; exact ha
  · rw [if_neg h]; exact hb

end Sys2Proof.Machine
end

