-- ==== Sys2Proof/Laws/KeepsOps.lean ====
section
/-! SUPPORT. What the operations of Machine/Ops.lean keep: one lemma each. -/
namespace Sys2Proof.Machine

theorem State.modAgent_keeps {s₀ : State} (s : State) (i : Nat) (f : Agent → Agent) (hk : Keeps s₀ s) : Keeps s₀ (State.modAgent s i f) := by
  unfold State.modAgent
  repeat' first
    | ((with_reducible refine Keeps.upd rfl ?_ ?_ ?_ ?_); (first | with_reducible assumption | with_reducible exact Keeps.refl _))
    | (intro h; exact h)

theorem State.modGate_keeps {s₀ : State} (s : State) (g : Nat) (f : Gate → Gate) (hk : Keeps s₀ s) : Keeps s₀ (State.modGate s g f) := by
  unfold State.modGate
  repeat' first
    | ((with_reducible refine Keeps.upd rfl ?_ ?_ ?_ ?_); (first | with_reducible assumption | with_reducible exact Keeps.refl _))
    | (intro h; exact h)

theorem State.modArray_keeps {s₀ : State} (s : State) (a : Nat) (f : ArrayState → ArrayState) (hk : Keeps s₀ s) : Keeps s₀ (State.modArray s a f) := by
  unfold State.modArray
  repeat' first
    | ((with_reducible refine Keeps.upd rfl ?_ ?_ ?_ ?_); (first | with_reducible assumption | with_reducible exact Keeps.refl _))
    | (intro h; exact h)

theorem State.modMover_keeps {s₀ : State} (s : State) (m : Nat) (f : Mover → Mover) (hk : Keeps s₀ s) : Keeps s₀ (State.modMover s m f) := by
  unfold State.modMover
  repeat' first
    | ((with_reducible refine Keeps.upd rfl ?_ ?_ ?_ ?_); (first | with_reducible assumption | with_reducible exact Keeps.refl _))
    | (intro h; exact h)

theorem State.modStack_keeps {s₀ : State} (s : State) (k : Nat) (f : Stack → Stack) (hk : Keeps s₀ s) : Keeps s₀ (State.modStack s k f) := by
  unfold State.modStack
  repeat' first
    | ((with_reducible refine Keeps.upd rfl ?_ ?_ ?_ ?_); (first | with_reducible assumption | with_reducible exact Keeps.refl _))
    | (intro h; exact h)

theorem State.modObj_keeps {s₀ : State} (s : State) (i : Nat) (f : Obj → Obj) (hk : Keeps s₀ s) : Keeps s₀ (State.modObj s i f) := by
  unfold State.modObj
  repeat' first
    | ((with_reducible refine Keeps.upd rfl ?_ ?_ ?_ ?_); (first | with_reducible assumption | with_reducible exact Keeps.refl _))
    | (intro h; exact h)

theorem State.modQuota_keeps {s₀ : State} (s : State) (d : Nat) (f : Quota → Quota) (hk : Keeps s₀ s) : Keeps s₀ (State.modQuota s d f) := by
  unfold State.modQuota
  repeat' first
    | ((with_reducible refine Keeps.upd rfl ?_ ?_ ?_ ?_); (first | with_reducible assumption | with_reducible exact Keeps.refl _))
    | (intro h; exact h)

theorem State.modSession_keeps {s₀ : State} (s : State) (i : Nat) (f : Session → Session) (hk : Keeps s₀ s) : Keeps s₀ (State.modSession s i f) := by
  unfold State.modSession
  repeat' first
    | ((with_reducible refine Keeps.upd rfl ?_ ?_ ?_ ?_); (first | with_reducible assumption | with_reducible exact Keeps.refl _))
    | (intro h; exact h)

theorem State.modCore_keeps {s₀ : State} (s : State) (i : Nat) (f : HostCore → HostCore) (hk : Keeps s₀ s) : Keeps s₀ (State.modCore s i f) := by
  unfold State.modCore
  repeat' first
    | ((with_reducible refine Keeps.upd rfl ?_ ?_ ?_ ?_); (first | with_reducible assumption | with_reducible exact Keeps.refl _))
    | (intro h; exact h)

theorem State.modCodecCore_keeps {s₀ : State} (s : State) (c : Nat) (f : CodecCore → CodecCore) (hk : Keeps s₀ s) : Keeps s₀ (State.modCodecCore s c f) := by
  unfold State.modCodecCore
  repeat' first
    | ((with_reducible refine Keeps.upd rfl ?_ ?_ ?_ ?_); (first | with_reducible assumption | with_reducible exact Keeps.refl _))
    | (intro h; exact h)

theorem State.modCtx_keeps {s₀ : State} (s : State) (c : Nat) (f : Ctx → Ctx) (hk : Keeps s₀ s) : Keeps s₀ (State.modCtx s c f) := by
  unfold State.modCtx
  repeat' first
    | ((with_reducible refine Keeps.upd rfl ?_ ?_ ?_ ?_); (first | with_reducible assumption | with_reducible exact Keeps.refl _))
    | (intro h; exact h)

theorem State.modPort_keeps {s₀ : State} (s : State) (p : Nat) (f : Port → Port) (hk : Keeps s₀ s) : Keeps s₀ (State.modPort s p f) := by
  unfold State.modPort
  repeat' first
    | ((with_reducible refine Keeps.upd rfl ?_ ?_ ?_ ?_); (first | with_reducible assumption | with_reducible exact Keeps.refl _))
    | (intro h; exact h)

theorem State.modFw_keeps {s₀ : State} (s : State) (t : Nat) (f : FwType → FwType) (hk : Keeps s₀ s) : Keeps s₀ (State.modFw s t f) := by
  unfold State.modFw
  repeat' first
    | ((with_reducible refine Keeps.upd rfl ?_ ?_ ?_ ?_); (first | with_reducible assumption | with_reducible exact Keeps.refl _))
    | (intro h; exact h)

theorem State.fresh_keeps {s₀ : State} (s : State) (hk : Keeps s₀ s) : Keeps s₀ (State.fresh s) := by
  unfold State.fresh
  repeat' first
    | ((with_reducible refine Keeps.upd rfl ?_ ?_ ?_ ?_); (first | with_reducible assumption | with_reducible exact Keeps.refl _))
    | (intro h; exact h)

theorem State.atTime_keeps {s₀ : State} (s : State) (now : Word64) (hk : Keeps s₀ s) : Keeps s₀ (State.atTime s now) := by
  unfold State.atTime
  repeat' first
    | with_reducible assumption
    | with_reducible exact Keeps.refl _
    | ((with_reducible refine Keeps.upd rfl ?_ ?_ ?_ ?_); (first | with_reducible assumption | with_reducible exact Keeps.refl _))
    | (intro h; exact h)
    | (intro h; simpa using h)
    | with_reducible intro _ _
    | with_reducible intro _
    | dsimp only

theorem State.at__keeps {s₀ : State} (s : State) (now : Word64) (hk : Keeps s₀ s) : OptKeeps s₀ (State.at? s now) := by
  unfold State.at?
  repeat' first
    | with_reducible assumption
    | with_reducible exact Keeps.refl _
    | with_reducible exact OptKeeps.none _
    | with_reducible apply OptKeeps.some
    | with_reducible apply OptKeeps.ite
    | with_reducible apply OptKeeps.map
    | with_reducible apply Keeps.ite
    | with_reducible apply State.atTime_keeps
    | split
    | with_reducible intro _ _
    | with_reducible intro _
    | dsimp only

theorem State.tick_keeps {s₀ : State} (s : State) (hk : Keeps s₀ s) : Keeps s₀ (State.tick s) := by
  unfold State.tick
  dsimp only
  repeat' first
    | with_reducible assumption
    | with_reducible exact Keeps.refl _
    | with_reducible apply OptKeeps.map
    | with_reducible apply Keeps.ite
    | ((with_reducible refine Keeps.upd rfl ?_ ?_ ?_ ?_); (first | with_reducible assumption | with_reducible exact Keeps.refl _ | with_reducible apply Keeps.ite | (split <;> skip)))
    | (intro h; exact h)
    | (intro h; simpa using h)
    | split
    | with_reducible intro _ _
    | with_reducible intro _
    | dsimp only

theorem State.logRecord_keeps {s₀ : State} (s : State) (code source kind : Nat) (multi : Bool) (addr lastTile d0 d1 d2 : Nat)
    (h : Keeps s₀ s) : Keeps s₀ (State.logRecord s code source kind multi addr lastTile d0 d1 d2) :=
  h.trans ⟨id, fun _ => List.length_take_le _ _, id, rfl⟩

theorem State.logDevice_keeps {s₀ : State} (s : State) (code source d0 d1 d2 : Nat) (hk : Keeps s₀ s) : Keeps s₀ (State.logDevice s code source d0 d1 d2) := by
  unfold State.logDevice
  repeat' first
    | with_reducible assumption
    | with_reducible apply State.logRecord_keeps

/-- A coalesced log is as long as before. -/
theorem coalesce_length {now boot code source : Nat} {l l' : List LogRec} (h : coalesce now boot code source l = some l') :
    l'.length = l.length := by
  induction l generalizing l' with
  | nil => cases h
  | cons r l ih =>
    simp only [coalesce] at h
    split at h
    · split at h
      · cases h; rfl
      · cases h
    · cases hc : coalesce now boot code source l with
      | none => rw [hc] at h; cases h
      | some x => rw [hc] at h; cases h; simp [ih hc]

theorem State.logEvent_keeps {s₀ : State} (s : State) (code source addr d0 d1 d2 : Nat) (h : Keeps s₀ s) :
    Keeps s₀ (State.logEvent s code source addr d0 d1 d2) := by
  refine h.trans ?_
  unfold State.logEvent
  by_cases hc : code = cIceStripeLost
  · rw [if_pos hc]; exact State.logRecord_keeps _ _ _ _ _ _ _ _ _ _ (.refl s)
  · rw [if_neg hc]
    cases e : coalesce s.sundial.toNat s.gatehouse.boots code source s.recovery.log with
    | none => exact State.logRecord_keeps _ _ _ _ _ _ _ _ _ _ (.refl s)
    | some l => exact ⟨id, fun hl => by simpa [coalesce_length e] using hl, id, rfl⟩

theorem State.judgeCores_keeps {s₀ : State} (g : Nat) (v : BitVec 32) (s : State) (hk : Keeps s₀ s) : Keeps s₀ (State.judgeCores g v s) := by
  unfold State.judgeCores
  repeat' first
    | ((with_reducible refine Keeps.upd rfl ?_ ?_ ?_ ?_); (first | with_reducible assumption | with_reducible exact Keeps.refl _ | with_reducible apply Keeps.ite | (split <;> skip)))
    | (intro h; exact h)

theorem State.setGateValue_keeps {s₀ : State} (s : State) (g : Nat) (v : BitVec 32) (hk : Keeps s₀ s) : Keeps s₀ (State.setGateValue s g v) := by
  unfold State.setGateValue
  dsimp only
  repeat' first
    | ((with_reducible refine Keeps.upd rfl ?_ ?_ ?_ ?_); (first | with_reducible assumption | with_reducible exact Keeps.refl _ | with_reducible apply State.judgeCores_keeps | with_reducible apply State.modGate_keeps))
    | (intro h; exact h)

theorem State.signalGate_keeps {s₀ : State} (s : State) (g inc : Nat) (hk : Keeps s₀ s) : Keeps s₀ (State.signalGate s g inc) := by
  unfold State.signalGate
  repeat' first
    | with_reducible assumption
    | with_reducible apply State.setGateValue_keeps

theorem State.queueSignal_keeps {s₀ : State} (s : State) (i : Nat) (g : Signal) (hk : Keeps s₀ s) : Keeps s₀ (State.queueSignal s i g) := by
  unfold State.queueSignal
  repeat' first
    | with_reducible assumption
    | with_reducible apply State.modAgent_keeps

theorem State.issueSignal_keeps {s₀ : State} (s : State) (i : Nat) (g : Signal) (hk : Keeps s₀ s) : Keeps s₀ (State.issueSignal s i g) := by
  unfold State.issueSignal
  repeat' first
    | with_reducible assumption
    | with_reducible apply Keeps.ite
    | with_reducible apply State.queueSignal_keeps
    | with_reducible apply State.signalGate_keeps

theorem State.issueWait_keeps {s₀ : State} (s : State) (i gate : Nat) (target : BitVec 32) (timeout : Nat) (acquire : Bool) (place addr : Nat) (hk : Keeps s₀ s) : Keeps s₀ (State.issueWait s i gate target timeout acquire place addr) := by
  unfold State.issueWait
  repeat' first
    | with_reducible assumption
    | with_reducible apply Keeps.ite
    | with_reducible apply State.modAgent_keeps

theorem State.progress_keeps {s₀ : State} (s : State) (i : Nat) (hk : Keeps s₀ s) : Keeps s₀ (State.progress s i) := by
  unfold State.progress
  repeat' first
    | with_reducible assumption
    | with_reducible apply State.modAgent_keeps

end Sys2Proof.Machine
end

