-- ==== Sys2Proof/Laws/KeepsMemOps.lean ====
section
/-! SUPPORT. What the operations of Machine/MemOps.lean keep: one lemma each. -/
namespace Sys2Proof.Machine

theorem State.wr_keeps {s₀ : State} (s : State) (w : List (Nat × Byte)) (hk : Keeps s₀ s) : Keeps s₀ (State.wr s w) := by
  unfold State.wr
  repeat' first
    | ((with_reducible refine Keeps.upd rfl ?_ ?_ ?_ ?_); (first | with_reducible assumption | with_reducible exact Keeps.refl _))
    | (intro h; exact h)
    | (intro h; exact Mem.write_wf h _)

theorem State.wrNat_keeps {s₀ : State} (s : State) (a n w : Nat) (hk : Keeps s₀ s) : Keeps s₀ (State.wrNat s a n w) := by
  unfold State.wrNat
  repeat' first
    | with_reducible assumption
    | with_reducible apply State.wr_keeps

theorem State.undefine_keeps {s₀ : State} (s : State) (a n : Nat) (hk : Keeps s₀ s) : Keeps s₀ (State.undefine s a n) := by
  unfold State.undefine
  repeat' first
    | ((with_reducible refine Keeps.upd rfl ?_ ?_ ?_ ?_); (first | with_reducible assumption | with_reducible exact Keeps.refl _ | with_reducible apply State.fresh_keeps))
    | (intro h; exact h)
    | (intro h; exact Mem.undefine_wf h _ _)

theorem State.mark_keeps {s₀ : State} (s : State) (u : Nat) (hk : Keeps s₀ s) : Keeps s₀ (State.mark s u) := by
  unfold State.mark
  repeat' first
    | ((with_reducible refine Keeps.upd rfl ?_ ?_ ?_ ?_); (first | with_reducible assumption | with_reducible exact Keeps.refl _))
    | (intro h; exact h)

end Sys2Proof.Machine
end

