-- ==== Sys2Proof/Laws/KeepsObjOps.lean ====
section
/-! SUPPORT. What the operations of Machine/ObjOps.lean keep: one lemma each. -/
namespace Sys2Proof.Machine

theorem State.report_keeps {s₀ : State} (s : State) (r : Report) (outcome : Nat) (queued : Bool) (hk : Keeps s₀ s) : Keeps s₀ (State.report s r outcome queued) := by
  unfold State.report
  dsimp only
  repeat' first
    | ((with_reducible refine Keeps.upd rfl ?_ ?_ ?_ ?_); (first | with_reducible assumption | with_reducible exact Keeps.refl _ | with_reducible apply State.wrNat_keeps | with_reducible apply State.queueSignal_keeps | with_reducible apply State.signalGate_keeps | with_reducible apply Keeps.ite | (split <;> skip)))
    | (intro h; exact h)

theorem State.reports_keeps {s₀ : State} (s : State) (outcome : Nat) (l : List Report) (hk : Keeps s₀ s) : Keeps s₀ (State.reports s outcome l) := by
  unfold State.reports
  repeat' first
    | with_reducible assumption
    | with_reducible exact Keeps.refl _
    | with_reducible apply State.report_keeps
    | with_reducible apply Keeps.foldl_trans
    | with_reducible intro _ _

theorem State.uncharge_keeps {s₀ : State} (s : State) (o : Obj) (hk : Keeps s₀ s) : Keeps s₀ (State.uncharge s o) := by
  unfold State.uncharge
  repeat' first
    | with_reducible assumption
    | with_reducible apply State.modQuota_keeps

theorem State.chargeTo_keeps {s₀ : State} (s : State) (d : Nat) (o : Obj) (hk : Keeps s₀ s) : Keeps s₀ (State.chargeTo s d o) := by
  unfold State.chargeTo
  repeat' first
    | with_reducible assumption
    | with_reducible apply State.modQuota_keeps

theorem State.freeExtent_keeps {s₀ : State} (s : State) (i : Nat) (hk : Keeps s₀ s) : Keeps s₀ (State.freeExtent s i) := by
  unfold State.freeExtent
  dsimp only
  repeat' first
    | ((with_reducible refine Keeps.upd rfl ?_ ?_ ?_ ?_); (first | with_reducible assumption | with_reducible exact Keeps.refl _ | with_reducible apply State.undefine_keeps))
    | (intro h; exact h)

theorem State.makeAbsent_keeps {s₀ : State} (s : State) (i : Nat) (hk : Keeps s₀ s) : Keeps s₀ (State.makeAbsent s i) := by
  unfold State.makeAbsent
  dsimp only
  repeat' first
    | with_reducible assumption
    | with_reducible apply State.freeExtent_keeps
    | with_reducible apply State.uncharge_keeps
    | with_reducible apply State.modObj_keeps

theorem State.placeExtent_keeps {s₀ : State} (s : State) (i base domain : Nat) (st : ObjState) (hk : Keeps s₀ s) : Keeps s₀ (State.placeExtent s i base domain st) := by
  unfold State.placeExtent
  dsimp only
  repeat' first
    | ((with_reducible refine Keeps.upd rfl ?_ ?_ ?_ ?_); (first | with_reducible assumption | with_reducible exact Keeps.refl _ | with_reducible apply State.chargeTo_keeps | with_reducible apply State.undefine_keeps | with_reducible apply State.modObj_keeps))
    | (intro h; exact h)

theorem State.takePin_keeps {s₀ : State} (s : State) (i : Nat) (hk : Keeps s₀ s) : Keeps s₀ (State.takePin s i) := by
  unfold State.takePin
  repeat' first
    | with_reducible assumption
    | with_reducible apply State.modObj_keeps

theorem State.pinsGone_keeps {s₀ : State} (s : State) (i : Nat) (hk : Keeps s₀ s) : Keeps s₀ (State.pinsGone s i) := by
  unfold State.pinsGone
  dsimp only
  repeat' first
    | ((with_reducible refine Keeps.upd rfl ?_ ?_ ?_ ?_); (first | with_reducible assumption | with_reducible exact Keeps.refl _ | with_reducible apply State.makeAbsent_keeps | with_reducible apply State.reports_keeps | with_reducible apply State.modObj_keeps | with_reducible apply Keeps.ite | (split <;> skip)))
    | (intro h; exact h)

theorem State.releasePin_keeps {s₀ : State} (s : State) (i : Nat) (hk : Keeps s₀ s) : Keeps s₀ (State.releasePin s i) := by
  unfold State.releasePin
  repeat' first
    | with_reducible assumption
    | with_reducible apply State.pinsGone_keeps
    | with_reducible apply State.modObj_keeps

theorem State.releasePins_keeps {s₀ : State} (s : State) (l : List Nat) (hk : Keeps s₀ s) : Keeps s₀ (State.releasePins s l) := by
  unfold State.releasePins
  repeat' first
    | with_reducible assumption
    | with_reducible exact Keeps.refl _
    | with_reducible apply State.releasePin_keeps
    | with_reducible apply Keeps.foldl_trans
    | with_reducible intro _ _

theorem State.takePins_keeps {s₀ : State} (s : State) (l : List Nat) (hk : Keeps s₀ s) : Keeps s₀ (State.takePins s l) := by
  unfold State.takePins
  repeat' first
    | with_reducible assumption
    | with_reducible exact Keeps.refl _
    | with_reducible apply State.takePin_keeps
    | with_reducible apply Keeps.foldl_trans
    | with_reducible intro _ _

theorem State.markAborted_keeps {s₀ : State} (s : State) (i code : Nat) (hk : Keeps s₀ s) : Keeps s₀ (State.markAborted s i code) := by
  unfold State.markAborted
  dsimp only
  repeat' first
    | ((with_reducible refine Keeps.upd rfl ?_ ?_ ?_ ?_); (first | with_reducible assumption | with_reducible exact Keeps.refl _ | with_reducible apply Keeps.ite | (split <;> skip)))
    | (intro h; exact h)

theorem State.abortPromotion_keeps {s₀ : State} (s : State) (i code : Nat) (event : Bool) (hk : Keeps s₀ s) : Keeps s₀ (State.abortPromotion s i code event) := by
  unfold State.abortPromotion
  dsimp only
  repeat' first
    | with_reducible assumption
    | with_reducible apply Keeps.ite
    | with_reducible apply State.markAborted_keeps
    | with_reducible apply State.makeAbsent_keeps
    | with_reducible apply State.reports_keeps
    | with_reducible apply State.logEvent_keeps
    | with_reducible apply State.modObj_keeps

theorem State.promotionDone_keeps {s₀ : State} (s : State) (i : Nat) (hk : Keeps s₀ s) : Keeps s₀ (State.promotionDone s i) := by
  unfold State.promotionDone
  dsimp only
  repeat' first
    | with_reducible assumption
    | with_reducible apply Keeps.ite
    | with_reducible apply State.reports_keeps
    | with_reducible apply State.modObj_keeps

end Sys2Proof.Machine
end

