-- ==== Sys2Proof/Laws/KeepsFaults.lean ====
section
/-! SUPPORT. What the operations of Machine/Faults.lean keep: one lemma each. -/
namespace Sys2Proof.Machine

theorem State.recordFault_keeps {s₀ : State} (s : State) (i : Nat) (f : FaultInfo) (op addr lastTile tileCount : Nat) (hk : Keeps s₀ s) : Keeps s₀ (State.recordFault s i f op addr lastTile tileCount) := by
  unfold State.recordFault
  dsimp only
  repeat' first
    | with_reducible assumption
    | with_reducible apply State.logRecord_keeps
    | with_reducible apply State.modAgent_keeps

theorem State.addPower_keeps {s₀ : State} (s : State) (d : Nat) (hk : Keeps s₀ s) : Keeps s₀ (State.addPower s d) := by
  unfold State.addPower
  repeat' first
    | with_reducible assumption
    | with_reducible exact Keeps.refl _
    | ((with_reducible refine Keeps.upd rfl ?_ ?_ ?_ ?_); (first | with_reducible assumption | with_reducible exact Keeps.refl _))
    | (intro h; exact h)
    | (intro h; simpa using h)
    | with_reducible intro _ _
    | with_reducible intro _
    | dsimp only

theorem State.heldByCap_keeps {s₀ : State} (s : State) (hk : Keeps s₀ s) : Keeps s₀ (State.heldByCap s) := by
  unfold State.heldByCap
  dsimp only
  repeat' first
    | with_reducible assumption
    | with_reducible exact Keeps.refl _
    | with_reducible apply Keeps.getD
    | with_reducible apply Keeps.ite
    | with_reducible apply State.logDevice_keeps
    | ((with_reducible refine Keeps.upd rfl ?_ ?_ ?_ ?_); (first | with_reducible assumption | with_reducible exact Keeps.refl _ | with_reducible apply State.logDevice_keeps | with_reducible apply Keeps.ite | (split <;> skip)))
    | (intro h; exact h)
    | (intro h; simpa using h)
    | split
    | with_reducible intro _ _
    | with_reducible intro _
    | dsimp only

theorem State.holdStart_keeps {s₀ : State} (s : State) (i : Nat) (hk : Keeps s₀ s) : Keeps s₀ (State.holdStart s i) := by
  unfold State.holdStart
  repeat' first
    | with_reducible assumption
    | with_reducible exact Keeps.refl _
    | with_reducible apply State.heldByCap_keeps
    | with_reducible apply State.modAgent_keeps
    | ((with_reducible refine Keeps.upd rfl ?_ ?_ ?_ ?_); (first | with_reducible assumption | with_reducible exact Keeps.refl _ | with_reducible apply State.heldByCap_keeps | with_reducible apply State.modAgent_keeps))
    | (intro h; exact h)
    | (intro h; simpa using h)
    | with_reducible intro _ _
    | with_reducible intro _
    | dsimp only

theorem State.startOr_keeps {s₀ : State} (s : State) (i d : Nat) (t : State) (hk : Keeps s₀ s) (ht : Keeps s₀ t) : Keeps s₀ (State.startOr s i d t) := by
  unfold State.startOr
  repeat' first
    | with_reducible assumption
    | with_reducible apply Keeps.ite
    | with_reducible apply State.holdStart_keeps
    | with_reducible apply State.addPower_keeps
    | with_reducible apply State.modAgent_keeps

theorem State.endFlight_keeps {s₀ : State} (s : State) (f : Flight) (hk : Keeps s₀ s) : Keeps s₀ (State.endFlight s f) := by
  unfold State.endFlight
  repeat' first
    | ((with_reducible refine Keeps.upd rfl ?_ ?_ ?_ ?_); (first | with_reducible assumption | with_reducible exact Keeps.refl _ | with_reducible apply State.modSession_keeps | (split <;> skip)))
    | (intro h; exact h)

theorem State.settlePins_keeps {s₀ : State} (s : State) (a : Nat) (hk : Keeps s₀ s) : Keeps s₀ (State.settlePins s a) := by
  unfold State.settlePins
  dsimp only
  repeat' first
    | with_reducible assumption
    | with_reducible apply State.releasePins_keeps
    | with_reducible apply State.modArray_keeps

theorem State.setJobs_keeps {s₀ : State} (s : State) (m : Nat) (jobs : List ExportJob) (hk : Keeps s₀ s) : Keeps s₀ (State.setJobs s m jobs) := by
  unfold State.setJobs
  dsimp only
  repeat' first
    | with_reducible assumption
    | with_reducible apply State.modMover_keeps

theorem State.abandonFlight_keeps {s₀ : State} (a : Nat) (s : State) (f : Flight) (hk : Keeps s₀ s) : Keeps s₀ (State.abandonFlight a s f) := by
  unfold State.abandonFlight
  dsimp only
  repeat' first
    | with_reducible assumption
    | with_reducible apply State.setJobs_keeps
    | with_reducible apply State.endFlight_keeps
    | with_reducible apply State.releasePins_keeps
    | split

theorem State.dropWindow_keeps {s₀ : State} (s : State) (a : Nat) (hk : Keeps s₀ s) : Keeps s₀ (State.dropWindow s a) := by
  unfold State.dropWindow
  repeat' first
    | with_reducible assumption
    | with_reducible exact Keeps.refl _
    | with_reducible apply State.undefine_keeps
    | with_reducible apply State.modArray_keeps
    | ((with_reducible refine Keeps.upd rfl ?_ ?_ ?_ ?_); (first | with_reducible assumption | with_reducible exact Keeps.refl _ | with_reducible apply State.undefine_keeps | with_reducible apply State.modArray_keeps | (split <;> skip)))
    | (intro h; exact h)
    | (intro h; simpa using h)
    | split
    | with_reducible intro _ _
    | with_reducible intro _
    | dsimp only

theorem State.settleArray_keeps {s₀ : State} (s : State) (a : Nat) (hk : Keeps s₀ s) : Keeps s₀ (State.settleArray s a) := by
  unfold State.settleArray
  repeat' first
    | with_reducible assumption
    | with_reducible exact Keeps.refl _
    | with_reducible apply Keeps.ite
    | with_reducible apply State.dropWindow_keeps
    | with_reducible apply State.modAgent_keeps
    | ((with_reducible refine Keeps.upd rfl ?_ ?_ ?_ ?_); (first | with_reducible assumption | with_reducible exact Keeps.refl _ | with_reducible apply State.dropWindow_keeps | with_reducible apply State.modAgent_keeps | with_reducible apply Keeps.ite | (split <;> skip)))
    | (intro h; exact h)
    | (intro h; simpa using h)
    | split
    | with_reducible intro _ _
    | with_reducible intro _
    | dsimp only

theorem State.dropFlights_keeps {s₀ : State} (s : State) (a place : Nat) (hk : Keeps s₀ s) : Keeps s₀ (State.dropFlights s a place) := by
  unfold State.dropFlights
  dsimp only
  repeat' first
    | with_reducible assumption
    | with_reducible exact Keeps.refl _
    | with_reducible apply State.abandonFlight_keeps
    | with_reducible apply State.settlePins_keeps
    | with_reducible apply State.modArray_keeps
    | with_reducible apply Keeps.foldl_trans
    | with_reducible intro _ _

theorem State.faultArray_keeps {s₀ : State} (s : State) (a : Nat) (f : FaultInfo) (op addr place lastTile tileCount : Nat) (hk : Keeps s₀ s) : Keeps s₀ (State.faultArray s a f op addr place lastTile tileCount) := by
  unfold State.faultArray
  dsimp only
  repeat' first
    | with_reducible assumption
    | with_reducible exact Keeps.refl _
    | with_reducible apply State.dropFlights_keeps
    | with_reducible apply State.settleArray_keeps
    | with_reducible apply State.recordFault_keeps
    | with_reducible apply State.modAgent_keeps
    | with_reducible intro _ _
    | with_reducible intro _
    | dsimp only

theorem State.dropFrame_keeps {s₀ : State} (s : State) (m : Nat) (j : ExportJob) (hk : Keeps s₀ s) : Keeps s₀ (State.dropFrame s m j) := by
  unfold State.dropFrame
  repeat' first
    | with_reducible assumption
    | with_reducible exact Keeps.refl _
    | with_reducible apply Keeps.ite
    | with_reducible apply State.modPort_keeps
    | ((with_reducible refine Keeps.upd rfl ?_ ?_ ?_ ?_); (first | with_reducible assumption | with_reducible exact Keeps.refl _ | with_reducible apply State.modPort_keeps | with_reducible apply Keeps.ite | (split <;> skip)))
    | (intro h; exact h)
    | (intro h; simpa using h)
    | split
    | with_reducible intro _ _
    | with_reducible intro _
    | dsimp only

theorem State.endJob_keeps {s₀ : State} (m code : Nat) (s : State) (j : ExportJob) (hk : Keeps s₀ s) : Keeps s₀ (State.endJob m code s j) := by
  unfold State.endJob
  dsimp only
  repeat' first
    | with_reducible assumption
    | with_reducible exact Keeps.refl _
    | with_reducible apply Keeps.ite
    | with_reducible apply State.dropFrame_keeps
    | with_reducible apply State.faultArray_keeps
    | with_reducible apply State.releasePins_keeps
    | with_reducible apply State.modSession_keeps
    | ((with_reducible refine Keeps.upd rfl ?_ ?_ ?_ ?_); (first | with_reducible assumption | with_reducible exact Keeps.refl _ | with_reducible apply State.dropFrame_keeps | with_reducible apply State.faultArray_keeps | with_reducible apply State.releasePins_keeps | with_reducible apply State.modSession_keeps | with_reducible apply Keeps.ite | (split <;> skip)))
    | (intro h; exact h)
    | (intro h; simpa using h)
    | split
    | with_reducible intro _ _
    | with_reducible intro _
    | dsimp only

theorem State.endJobs_keeps {s₀ : State} (s : State) (m code : Nat) (hk : Keeps s₀ s) : Keeps s₀ (State.endJobs s m code) := by
  unfold State.endJobs
  dsimp only
  repeat' first
    | with_reducible assumption
    | with_reducible exact Keeps.refl _
    | with_reducible apply State.endJob_keeps
    | with_reducible apply State.setJobs_keeps
    | with_reducible apply Keeps.foldl_trans
    | with_reducible intro _ _

theorem State.faultMover_keeps {s₀ : State} (s : State) (m : Nat) (f : FaultInfo) (op addr : Nat) (hk : Keeps s₀ s) : Keeps s₀ (State.faultMover s m f op addr) := by
  unfold State.faultMover
  dsimp only
  repeat' first
    | with_reducible assumption
    | with_reducible apply State.endJobs_keeps
    | with_reducible apply State.recordFault_keeps
    | with_reducible apply State.releasePins_keeps
    | with_reducible apply State.modMover_keeps
    | with_reducible apply State.modAgent_keeps

theorem State.endCodecCmd_keeps {s₀ : State} (s : State) (c : Nat) (hk : Keeps s₀ s) : Keeps s₀ (State.endCodecCmd s c) := by
  unfold State.endCodecCmd
  dsimp only
  repeat' first
    | ((with_reducible refine Keeps.upd rfl ?_ ?_ ?_ ?_); (first | with_reducible assumption | with_reducible exact Keeps.refl _ | with_reducible apply State.releasePins_keeps | with_reducible apply State.modCtx_keeps | with_reducible apply State.modCodecCore_keeps | with_reducible apply Keeps.ite | (split <;> skip)))
    | (intro h; exact h)

theorem State.faultCodec_keeps {s₀ : State} (s : State) (c : Nat) (f : FaultInfo) (op addr : Nat) (hk : Keeps s₀ s) : Keeps s₀ (State.faultCodec s c f op addr) := by
  unfold State.faultCodec
  dsimp only
  repeat' first
    | with_reducible assumption
    | with_reducible apply State.endCodecCmd_keeps
    | with_reducible apply State.recordFault_keeps
    | with_reducible apply State.modAgent_keeps

theorem State.faultCore_keeps {s₀ : State} (s : State) (k : Nat) (f : FaultInfo) (hk : Keeps s₀ s) : Keeps s₀ (State.faultCore s k f) := by
  unfold State.faultCore
  dsimp only
  repeat' first
    | with_reducible assumption
    | with_reducible apply State.recordFault_keeps
    | with_reducible apply State.modCore_keeps
    | with_reducible apply State.modAgent_keeps

theorem State.faultAgent_keeps {s₀ : State} (s : State) (i : Nat) (f : FaultInfo) (hk : Keeps s₀ s) : Keeps s₀ (State.faultAgent s i f) := by
  unfold State.faultAgent
  dsimp only
  repeat' first
    | with_reducible assumption
    | with_reducible apply Keeps.ite
    | with_reducible apply State.faultCore_keeps
    | with_reducible apply State.faultCodec_keeps
    | with_reducible apply State.faultMover_keeps
    | with_reducible apply State.faultArray_keeps

theorem State.addBoundary_keeps {s₀ : State} (s : State) (i : Nat) (f : FaultInfo) (hk : Keeps s₀ s) : Keeps s₀ (State.addBoundary s i f) := by
  unfold State.addBoundary
  repeat' first
    | with_reducible assumption
    | with_reducible apply State.modAgent_keeps

end Sys2Proof.Machine
end

