-- ==== Sys2Proof/Laws/KeepsLinkOps.lean ====
section
/-! SUPPORT. What the operations of Machine/LinkOps.lean keep: one lemma each. -/
namespace Sys2Proof.Machine

theorem State.send_keeps {s₀ : State} (s : State) (p : Nat) (t : Txn) (hk : Keeps s₀ s) : Keeps s₀ (State.send s p t) := by
  unfold State.send
  repeat' first
    | with_reducible assumption
    | with_reducible apply State.modPort_keeps

theorem State.applyWrite_keeps {s₀ : State} (s : State) (w1 w2 n : Nat) (data : List (Nat × Byte)) (hk : Keeps s₀ s) : ExKeeps s₀ (State.applyWrite s w1 w2 n data) := by
  unfold State.applyWrite
  repeat' first
    | with_reducible assumption
    | with_reducible exact ExKeeps.error _ _
    | with_reducible apply ExKeeps.ok
    | with_reducible apply State.wr_keeps
    | split

theorem State.applyRemoteSignal_keeps {s₀ : State} (s : State) (gate inc : Nat) (hk : Keeps s₀ s) : ExKeeps s₀ (State.applyRemoteSignal s gate inc) := by
  unfold State.applyRemoteSignal
  repeat' first
    | with_reducible assumption
    | with_reducible exact ExKeeps.error _ _
    | with_reducible apply ExKeeps.ok
    | with_reducible apply ExKeeps.ite
    | with_reducible apply State.signalGate_keeps

theorem State.logDenied_keeps {s₀ : State} (s : State) (source gate inc node : Nat) (hk : Keeps s₀ s) : Keeps s₀ (State.logDenied s source gate inc node) := by
  unfold State.logDenied
  repeat' first
    | with_reducible assumption
    | with_reducible apply State.logEvent_keeps

theorem State.failTxn_keeps {s₀ : State} (s : State) (p : Pending) (code : Nat) (hk : Keeps s₀ s) : Keeps s₀ (State.failTxn s p code) := by
  unfold State.failTxn
  repeat' first
    | with_reducible assumption
    | with_reducible apply State.addBoundary_keeps

theorem State.deliverHere_keeps {s₀ : State} (s : State) (p : Pending) (t : Txn) (hk : Keeps s₀ s) : Keeps s₀ (State.deliverHere s p t) := by
  unfold State.deliverHere
  dsimp only
  repeat' first
    | with_reducible assumption
    | with_reducible apply State.failTxn_keeps
    | with_reducible apply State.logDenied_keeps
    | with_reducible apply State.applyRemoteSignal_keeps
    | with_reducible apply State.applyWrite_keeps
    | with_reducible refine ExKeeps.elim ?_ ‹_ = Except.ok _›
    | split

theorem State.sendTagged_keeps {s₀ : State} (s : State) (p : Pending) (t : Txn) (hk : Keeps s₀ s) : Keeps s₀ (State.sendTagged s p t) := by
  unfold State.sendTagged
  dsimp only
  repeat' first
    | ((with_reducible refine Keeps.upd rfl ?_ ?_ ?_ ?_); (first | with_reducible assumption | with_reducible exact Keeps.refl _ | with_reducible apply State.failTxn_keeps | with_reducible apply State.send_keeps | (split <;> skip)))
    | (intro h; exact h)

theorem State.originate_keeps {s₀ : State} (s : State) (p : Pending) (t : Txn) (hk : Keeps s₀ s) : Keeps s₀ (State.originate s p t) := by
  unfold State.originate
  repeat' first
    | ((with_reducible refine Keeps.upd rfl ?_ ?_ ?_ ?_); (first | with_reducible assumption | with_reducible exact Keeps.refl _ | with_reducible apply State.sendTagged_keeps | with_reducible apply State.deliverHere_keeps | with_reducible apply State.failTxn_keeps | with_reducible apply Keeps.ite | (split <;> skip)))
    | (intro h; exact h)

theorem State.pump_keeps {s₀ : State} (s : State) (hk : Keeps s₀ s) : Keeps s₀ (State.pump s) := by
  unfold State.pump
  dsimp only
  repeat' first
    | ((with_reducible refine Keeps.upd rfl ?_ ?_ ?_ ?_); (first | with_reducible assumption | with_reducible exact Keeps.refl _ | with_reducible apply State.originate_keeps | with_reducible apply Keeps.foldl_trans))
    | (intro h; exact h)
    | with_reducible intro _ _

theorem State.closeTag_keeps {s₀ : State} (s : State) (tag : Nat) (hk : Keeps s₀ s) : Keeps s₀ (State.closeTag s tag) := by
  unfold State.closeTag
  dsimp only
  repeat' first
    | ((with_reducible refine Keeps.upd rfl ?_ ?_ ?_ ?_); (first | with_reducible assumption | with_reducible exact Keeps.refl _ | with_reducible apply State.pump_keeps))
    | (intro h; exact h)

theorem State.lateResponse_keeps {s₀ : State} (s : State) (tag : Nat) (hk : Keeps s₀ s) : Keeps s₀ (State.lateResponse s tag) := by
  unfold State.lateResponse
  repeat' first
    | with_reducible assumption
    | with_reducible exact Keeps.refl _
    | ((with_reducible refine Keeps.upd rfl ?_ ?_ ?_ ?_); (first | with_reducible assumption | with_reducible exact Keeps.refl _))
    | (intro h; exact h)
    | (intro h; simpa using h)
    | with_reducible intro _ _
    | with_reducible intro _
    | dsimp only

theorem State.endTxn_keeps {s₀ : State} (s : State) (tag : Nat) (code : Option Nat) (hk : Keeps s₀ s) : Keeps s₀ (State.endTxn s tag code) := by
  unfold State.endTxn
  dsimp only
  repeat' first
    | with_reducible assumption
    | with_reducible apply State.closeTag_keeps
    | with_reducible apply State.failTxn_keeps
    | split

theorem State.loseTxn_keeps {s₀ : State} (s : State) (tag code : Nat) (hk : Keeps s₀ s) : Keeps s₀ (State.loseTxn s tag code) := by
  unfold State.loseTxn
  dsimp only
  repeat' first
    | with_reducible assumption
    | with_reducible exact Keeps.refl _
    | with_reducible apply Keeps.ite
    | with_reducible apply State.endTxn_keeps
    | ((with_reducible refine Keeps.upd rfl ?_ ?_ ?_ ?_); (first | with_reducible assumption | with_reducible exact Keeps.refl _ | with_reducible apply State.endTxn_keeps | with_reducible apply Keeps.ite | (split <;> skip)))
    | (intro h; exact h)
    | (intro h; simpa using h)
    | split
    | with_reducible intro _ _
    | with_reducible intro _
    | dsimp only

theorem State.sendSignal_keeps {s₀ : State} (s : State) (i : Nat) (g : Signal) (node : Nat) (hk : Keeps s₀ s) : Keeps s₀ (State.sendSignal s i g node) := by
  unfold State.sendSignal
  dsimp only
  repeat' first
    | with_reducible assumption
    | with_reducible apply State.originate_keeps

theorem State.sendWrites_keeps {s₀ : State} (s : State) (e : RemoteEnd) (data : List (Nat × Byte)) (hk : Keeps s₀ s) : Keeps s₀ (State.sendWrites s e data) := by
  unfold State.sendWrites
  dsimp only
  repeat' first
    | with_reducible assumption
    | with_reducible exact Keeps.refl _
    | with_reducible apply OptKeeps.map
    | with_reducible apply State.originate_keeps
    | with_reducible apply Keeps.foldl_trans
    | ((with_reducible refine Keeps.upd rfl ?_ ?_ ?_ ?_); (first | with_reducible assumption | with_reducible exact Keeps.refl _ | with_reducible apply State.originate_keeps | with_reducible apply Keeps.foldl_trans))
    | (intro h; exact h)
    | (intro h; simpa using h)
    | with_reducible intro _ _
    | with_reducible intro _
    | dsimp only

end Sys2Proof.Machine
end

