-- ==== Sys2Proof/Laws/KeepsImage.lean ====
section
/-! SUPPORT. What the operations of Machine/Image.lean keep: one lemma each. -/
namespace Sys2Proof.Machine

theorem State.wrPoison_keeps {s₀ : State} (s : State) (w : List (Nat × Byte)) (units : List Nat) (hk : Keeps s₀ s) : Keeps s₀ (State.wrPoison s w units) := by
  unfold State.wrPoison
  repeat' first
    | with_reducible assumption
    | with_reducible exact Keeps.refl _
    | with_reducible apply State.mark_keeps
    | with_reducible apply State.wr_keeps
    | with_reducible apply Keeps.foldl_trans
    | with_reducible intro _ _

theorem State.copyAway_keeps {s₀ : State} (s : State) (e : RemoteEnd) (c : CopySpec) (hk : Keeps s₀ s) : Keeps s₀ (State.copyAway s e c) := by
  unfold State.copyAway
  dsimp only
  repeat' first
    | with_reducible assumption
    | with_reducible exact Keeps.refl _
    | with_reducible apply Keeps.ite
    | with_reducible apply State.wrPoison_keeps
    | with_reducible apply State.sendWrites_keeps
    | with_reducible apply State.failTxn_keeps
    | ((with_reducible refine Keeps.upd rfl ?_ ?_ ?_ ?_); (first | with_reducible assumption | with_reducible exact Keeps.refl _ | with_reducible apply State.wrPoison_keeps | with_reducible apply State.sendWrites_keeps | with_reducible apply State.failTxn_keeps | with_reducible apply Keeps.ite | (split <;> skip)))
    | (intro h; exact h)
    | (intro h; simpa using h)
    | split
    | with_reducible intro _ _
    | with_reducible intro _
    | dsimp only

end Sys2Proof.Machine
end

