-- ==== Sys2Proof/Laws/KeepsLoading.lean ====
section
/-! SUPPORT. What the operations of Machine/Loading.lean keep: one lemma each. -/
namespace Sys2Proof.Machine

theorem State.setDesc_keeps {s₀ : State} (s : State) (a i w : Nat) (hk : Keeps s₀ s) : Keeps s₀ (State.setDesc s a i w) := by
  unfold State.setDesc
  dsimp only
  repeat' first
    | with_reducible assumption
    | with_reducible apply State.settlePins_keeps
    | with_reducible apply State.takePins_keeps
    | with_reducible apply State.modArray_keeps

theorem State.setDescs_keeps {s₀ : State} (a : Nat) (l : List Nat) : ∀ (s : State) (i : Nat), Keeps s₀ s →
    Keeps s₀ (s.setDescs a i l) := by
  induction l with
  | nil => exact fun s i h => h
  | cons w l ih => exact fun s i h => ih _ _ (State.setDesc_keeps _ _ _ _ h)

theorem State.dload_keeps {s₀ : State} (s : State) (a w : Nat) (hk : Keeps s₀ s) : ExKeeps s₀ (State.dload s a w) := by
  unfold State.dload
  dsimp only
  repeat' first
    | with_reducible assumption
    | with_reducible exact ExKeeps.error _ _
    | with_reducible apply ExKeeps.ok
    | with_reducible apply State.setDescs_keeps
    | split

theorem State.ctxApply_keeps {s₀ : State} (s : State) (a b : Nat) (withLs : Bool) (hk : Keeps s₀ s) : Keeps s₀ (State.ctxApply s a b withLs) := by
  unfold State.ctxApply
  dsimp only
  repeat' first
    | with_reducible assumption
    | with_reducible apply State.setDescs_keeps
    | with_reducible apply State.wr_keeps
    | with_reducible apply State.modArray_keeps

end Sys2Proof.Machine
end

