-- ==== Sys2Proof/Laws/KeepsHostCore.lean ====
section
/-! SUPPORT. What the operations of Machine/HostCore.lean keep: one lemma each. -/
namespace Sys2Proof.Machine

theorem State.launchCore_keeps {s₀ : State} (s : State) (k : Nat) (e : EpochEntry) (hk : Keeps s₀ s) : Keeps s₀ (State.launchCore s k e) := by
  unfold State.launchCore
  dsimp only
  repeat' first
    | with_reducible assumption
    | with_reducible exact Keeps.refl _
    | with_reducible apply State.faultCore_keeps
    | with_reducible apply State.modCore_keeps
    | ((with_reducible refine Keeps.upd rfl ?_ ?_ ?_ ?_); (first | with_reducible assumption | with_reducible exact Keeps.refl _ | with_reducible apply State.faultCore_keeps | with_reducible apply State.modCore_keeps | (split <;> skip)))
    | (intro h; exact h)
    | (intro h; simpa using h)
    | split
    | with_reducible intro _ _
    | with_reducible intro _
    | dsimp only

theorem State.throughL1_keeps {s₀ : State} (s : State) (k l : Nat) (code : Bool) (hk : Keeps s₀ s) : Keeps s₀ (State.throughL1 s k l code) := by
  unfold State.throughL1
  dsimp only
  repeat' first
    | with_reducible assumption
    | with_reducible exact Keeps.refl _
    | with_reducible apply Keeps.ite
    | with_reducible apply State.modCore_keeps
    | ((with_reducible refine Keeps.upd rfl ?_ ?_ ?_ ?_); (first | with_reducible assumption | with_reducible exact Keeps.refl _ | with_reducible apply State.modCore_keeps | with_reducible apply Keeps.ite | (split <;> skip)))
    | (intro h; exact h)
    | (intro h; simpa using h)
    | split
    | with_reducible intro _ _
    | with_reducible intro _
    | dsimp only

theorem State.writeBack_keeps {s₀ : State} (s : State) (l : Nat) (x : Line) (hk : Keeps s₀ s) : Keeps s₀ (State.writeBack s l x) := by
  unfold State.writeBack
  dsimp only
  repeat' first
    | with_reducible assumption
    | with_reducible exact Keeps.refl _
    | with_reducible apply Keeps.ite
    | with_reducible apply State.faultCore_keeps
    | with_reducible apply State.mark_keeps
    | with_reducible apply State.wr_keeps
    | ((with_reducible refine Keeps.upd rfl ?_ ?_ ?_ ?_); (first | with_reducible assumption | with_reducible exact Keeps.refl _ | with_reducible apply State.faultCore_keeps | with_reducible apply State.mark_keeps | with_reducible apply State.wr_keeps | with_reducible apply Keeps.ite | (split <;> skip)))
    | (intro h; exact h)
    | (intro h; simpa using h)
    | split
    | with_reducible intro _ _
    | with_reducible intro _
    | dsimp only

theorem State.intoL3_keeps {s₀ : State} (s : State) (l : Nat) (x : Line) (hk : Keeps s₀ s) : Keeps s₀ (State.intoL3 s l x) := by
  unfold State.intoL3
  dsimp only
  repeat' first
    | with_reducible assumption
    | with_reducible exact Keeps.refl _
    | with_reducible apply Keeps.getD
    | with_reducible apply Keeps.ite
    | with_reducible apply State.writeBack_keeps
    | with_reducible apply State.faultCore_keeps
    | ((with_reducible refine Keeps.upd rfl ?_ ?_ ?_ ?_); (first | with_reducible assumption | with_reducible exact Keeps.refl _ | with_reducible apply State.writeBack_keeps | with_reducible apply State.faultCore_keeps | with_reducible apply Keeps.ite | (split <;> skip)))
    | (intro h; exact h)
    | (intro h; simpa using h)
    | split
    | with_reducible intro _ _
    | with_reducible intro _
    | dsimp only

theorem State.roomL2_keeps {s₀ : State} (s : State) (k l : Nat) (hk : Keeps s₀ s) : Keeps s₀ (State.roomL2 s k l) := by
  unfold State.roomL2
  dsimp only
  repeat' first
    | with_reducible assumption
    | with_reducible exact Keeps.refl _
    | with_reducible apply Keeps.getD
    | with_reducible apply Keeps.ite
    | with_reducible apply State.intoL3_keeps
    | with_reducible apply State.modCore_keeps
    | ((with_reducible refine Keeps.upd rfl ?_ ?_ ?_ ?_); (first | with_reducible assumption | with_reducible exact Keeps.refl _ | with_reducible apply State.intoL3_keeps | with_reducible apply State.modCore_keeps | with_reducible apply Keeps.ite | (split <;> skip)))
    | (intro h; exact h)
    | (intro h; simpa using h)
    | split
    | with_reducible intro _ _
    | with_reducible intro _
    | dsimp only

theorem State.fillRead_keeps {s₀ : State} (s : State) (k l : Nat) (code : Bool) (hk : Keeps s₀ s) : Keeps s₀ (State.fillRead s k l code) := by
  unfold State.fillRead
  dsimp only
  repeat' first
    | with_reducible assumption
    | with_reducible exact Keeps.refl _
    | with_reducible apply Keeps.ite
    | with_reducible apply State.roomL2_keeps
    | with_reducible apply State.intoL3_keeps
    | with_reducible apply State.throughL1_keeps
    | with_reducible apply State.modCore_keeps
    | ((with_reducible refine Keeps.upd rfl ?_ ?_ ?_ ?_); (first | with_reducible assumption | with_reducible exact Keeps.refl _ | with_reducible apply State.roomL2_keeps | with_reducible apply State.intoL3_keeps | with_reducible apply State.throughL1_keeps | with_reducible apply State.modCore_keeps | with_reducible apply Keeps.ite | (split <;> skip)))
    | (intro h; exact h)
    | (intro h; simpa using h)
    | split
    | with_reducible intro _ _
    | with_reducible intro _
    | dsimp only

theorem State.takeWrite_keeps {s₀ : State} (s : State) (k l : Nat) (x : Line) (hk : Keeps s₀ s) : Keeps s₀ (State.takeWrite s k l x) := by
  unfold State.takeWrite
  dsimp only
  repeat' first
    | with_reducible assumption
    | with_reducible exact Keeps.refl _
    | with_reducible apply OptKeeps.map
    | with_reducible apply Keeps.ite
    | with_reducible apply State.roomL2_keeps
    | with_reducible apply State.throughL1_keeps
    | ((with_reducible refine Keeps.upd rfl ?_ ?_ ?_ ?_); (first | with_reducible assumption | with_reducible exact Keeps.refl _ | with_reducible apply State.roomL2_keeps | with_reducible apply State.throughL1_keeps | with_reducible apply Keeps.ite | (split <;> skip)))
    | (intro h; exact h)
    | (intro h; simpa using h)
    | split
    | with_reducible intro _ _
    | with_reducible intro _
    | dsimp only

theorem State.cachedStore_keeps {s₀ : State} (s : State) (k : Nat) (w : List (Nat × Byte)) (hk : Keeps s₀ s) : Keeps s₀ (State.cachedStore s k w) := by
  unfold State.cachedStore
  dsimp only
  repeat' first
    | with_reducible assumption
    | with_reducible exact Keeps.refl _
    | with_reducible apply OptKeeps.map
    | with_reducible apply Keeps.ite
    | with_reducible apply State.takeWrite_keeps
    | with_reducible apply Keeps.foldl_trans
    | ((with_reducible refine Keeps.upd rfl ?_ ?_ ?_ ?_); (first | with_reducible assumption | with_reducible exact Keeps.refl _ | with_reducible apply State.takeWrite_keeps | with_reducible apply Keeps.foldl_trans | with_reducible apply Keeps.ite | (split <;> skip)))
    | (intro h; exact h)
    | (intro h; exact mapRising_foldl _ _ _ (Mem.undefine_wf h _ _))
    | (intro h; simpa using h)
    | split
    | with_reducible intro _ _
    | with_reducible intro _
    | dsimp only

theorem State.dropCopies_keeps {s₀ : State} (s : State) (k l : Nat) (hk : Keeps s₀ s) : Keeps s₀ (State.dropCopies s k l) := by
  unfold State.dropCopies
  dsimp only
  repeat' first
    | with_reducible assumption
    | with_reducible exact Keeps.refl _
    | with_reducible apply OptKeeps.map
    | with_reducible apply Keeps.getD
    | with_reducible apply Keeps.ite
    | ((with_reducible refine Keeps.upd rfl ?_ ?_ ?_ ?_); (first | with_reducible assumption | with_reducible exact Keeps.refl _ | with_reducible apply Keeps.ite | (split <;> skip)))
    | (intro h; exact h)
    | (intro h; simpa using h)
    | split
    | with_reducible intro _ _
    | with_reducible intro _
    | dsimp only

theorem State.settleLine_keeps {s₀ : State} (s : State) (l : Nat) (drop : Bool) (hk : Keeps s₀ s) : Keeps s₀ (State.settleLine s l drop) := by
  unfold State.settleLine
  dsimp only
  repeat' first
    | with_reducible assumption
    | with_reducible exact Keeps.refl _
    | with_reducible apply OptKeeps.map
    | with_reducible apply Keeps.ite
    | ((with_reducible refine Keeps.upd rfl ?_ ?_ ?_ ?_); (first | with_reducible assumption | with_reducible exact Keeps.refl _ | with_reducible apply Keeps.ite | (split <;> skip)))
    | (intro h; exact h)
    | (intro h; simpa using h)
    | split
    | with_reducible intro _ _
    | with_reducible intro _
    | dsimp only

theorem State.washLine_keeps {s₀ : State} (s : State) (k l : Nat) (x : Option Line) (drop : Bool) (hk : Keeps s₀ s) : Keeps s₀ (State.washLine s k l x drop) := by
  unfold State.washLine
  repeat' first
    | with_reducible assumption
    | with_reducible exact Keeps.refl _
    | with_reducible apply State.settleLine_keeps
    | with_reducible apply State.writeBack_keeps
    | with_reducible apply State.faultCore_keeps
    | ((with_reducible refine Keeps.upd rfl ?_ ?_ ?_ ?_); (first | with_reducible assumption | with_reducible exact Keeps.refl _ | with_reducible apply State.settleLine_keeps | with_reducible apply State.writeBack_keeps | with_reducible apply State.faultCore_keeps | (split <;> skip)))
    | (intro h; exact h)
    | (intro h; simpa using h)
    | split
    | with_reducible intro _ _
    | with_reducible intro _
    | dsimp only

theorem State.cleanLine_keeps {s₀ : State} (s : State) (k l : Nat) (drop : Bool) (hk : Keeps s₀ s) : Keeps s₀ (State.cleanLine s k l drop) := by
  unfold State.cleanLine
  repeat' first
    | with_reducible assumption
    | with_reducible exact Keeps.refl _
    | with_reducible apply State.washLine_keeps
    | with_reducible intro _ _
    | with_reducible intro _
    | dsimp only

theorem State.cleanAll_keeps {s₀ : State} (s : State) (k : Nat) (hk : Keeps s₀ s) : Keeps s₀ (State.cleanAll s k) := by
  unfold State.cleanAll
  repeat' first
    | with_reducible assumption
    | with_reducible exact Keeps.refl _
    | with_reducible apply State.washLine_keeps
    | with_reducible apply Keeps.foldl_trans
    | with_reducible intro _ _
    | with_reducible intro _
    | dsimp only

theorem State.coreGsig_keeps {s₀ : State} (s : State) (k place v : Nat) (hk : Keeps s₀ s) : Keeps s₀ (State.coreGsig s k place v) := by
  unfold State.coreGsig
  dsimp only
  repeat' first
    | with_reducible assumption
    | with_reducible exact Keeps.refl _
    | with_reducible apply Keeps.ite
    | with_reducible apply State.faultCore_keeps
    | with_reducible apply State.issueSignal_keeps
    | ((with_reducible refine Keeps.upd rfl ?_ ?_ ?_ ?_); (first | with_reducible assumption | with_reducible exact Keeps.refl _ | with_reducible apply State.faultCore_keeps | with_reducible apply State.issueSignal_keeps | with_reducible apply Keeps.ite | (split <;> skip)))
    | (intro h; exact h)
    | (intro h; simpa using h)
    | split
    | with_reducible intro _ _
    | with_reducible intro _
    | dsimp only

theorem State.coreWait_keeps {s₀ : State} (s : State) (k : Nat) (v : Nat) (hk : Keeps s₀ s) : Keeps s₀ (State.coreWait s k v) := by
  unfold State.coreWait
  repeat' first
    | with_reducible assumption
    | with_reducible exact Keeps.refl _
    | with_reducible apply Keeps.ite
    | with_reducible apply State.faultCore_keeps
    | with_reducible apply State.modCore_keeps
    | ((with_reducible refine Keeps.upd rfl ?_ ?_ ?_ ?_); (first | with_reducible assumption | with_reducible exact Keeps.refl _ | with_reducible apply State.faultCore_keeps | with_reducible apply State.modCore_keeps | with_reducible apply Keeps.ite | (split <;> skip)))
    | (intro h; exact h)
    | (intro h; simpa using h)
    | split
    | with_reducible intro _ _
    | with_reducible intro _
    | dsimp only

theorem State.coreWaitTarget_keeps {s₀ : State} (s : State) (k place v : Nat) (hk : Keeps s₀ s) : Keeps s₀ (State.coreWaitTarget s k place v) := by
  unfold State.coreWaitTarget
  dsimp only
  repeat' first
    | with_reducible assumption
    | with_reducible exact Keeps.refl _
    | with_reducible apply Keeps.ite
    | with_reducible apply State.faultCore_keeps
    | with_reducible apply State.issueWait_keeps
    | with_reducible apply State.modCore_keeps
    | ((with_reducible refine Keeps.upd rfl ?_ ?_ ?_ ?_); (first | with_reducible assumption | with_reducible exact Keeps.refl _ | with_reducible apply State.faultCore_keeps | with_reducible apply State.issueWait_keeps | with_reducible apply State.modCore_keeps | with_reducible apply Keeps.ite | (split <;> skip)))
    | (intro h; exact h)
    | (intro h; simpa using h)
    | split
    | with_reducible intro _ _
    | with_reducible intro _
    | dsimp only

theorem State.coreFence_keeps {s₀ : State} (s : State) (k place v : Nat) (hk : Keeps s₀ s) : Keeps s₀ (State.coreFence s k place v) := by
  unfold State.coreFence
  repeat' first
    | with_reducible assumption
    | with_reducible exact Keeps.refl _
    | with_reducible apply Keeps.ite
    | with_reducible apply State.faultCore_keeps
    | with_reducible apply State.modAgent_keeps
    | ((with_reducible refine Keeps.upd rfl ?_ ?_ ?_ ?_); (first | with_reducible assumption | with_reducible exact Keeps.refl _ | with_reducible apply State.faultCore_keeps | with_reducible apply State.modAgent_keeps | with_reducible apply Keeps.ite | (split <;> skip)))
    | (intro h; exact h)
    | (intro h; simpa using h)
    | split
    | with_reducible intro _ _
    | with_reducible intro _
    | dsimp only

theorem State.portStore_keeps {s₀ : State} (s : State) (k place off v : Nat) (hk : Keeps s₀ s) : Keeps s₀ (State.portStore s k place off v) := by
  unfold State.portStore
  repeat' first
    | with_reducible assumption
    | with_reducible exact Keeps.refl _
    | with_reducible apply Keeps.ite
    | with_reducible apply State.coreFence_keeps
    | with_reducible apply State.coreWaitTarget_keeps
    | with_reducible apply State.coreWait_keeps
    | with_reducible apply State.coreGsig_keeps
    | with_reducible apply State.faultCore_keeps
    | ((with_reducible refine Keeps.upd rfl ?_ ?_ ?_ ?_); (first | with_reducible assumption | with_reducible exact Keeps.refl _ | with_reducible apply State.coreFence_keeps | with_reducible apply State.coreWaitTarget_keeps | with_reducible apply State.coreWait_keeps | with_reducible apply State.coreGsig_keeps | with_reducible apply State.faultCore_keeps | with_reducible apply Keeps.ite | (split <;> skip)))
    | (intro h; exact h)
    | (intro h; simpa using h)
    | split
    | with_reducible intro _ _
    | with_reducible intro _
    | dsimp only

theorem State.nextPlace_keeps {s₀ : State} (s : State) (k : Nat) (hk : Keeps s₀ s) : Keeps s₀ (State.nextPlace s k) := by
  unfold State.nextPlace
  repeat' first
    | with_reducible assumption
    | with_reducible exact Keeps.refl _
    | with_reducible apply State.modCore_keeps
    | ((with_reducible refine Keeps.upd rfl ?_ ?_ ?_ ?_); (first | with_reducible assumption | with_reducible exact Keeps.refl _ | with_reducible apply State.modCore_keeps))
    | (intro h; exact h)
    | (intro h; simpa using h)
    | with_reducible intro _ _
    | with_reducible intro _
    | dsimp only

theorem State.holdStore_keeps {s₀ : State} (s : State) (k : Nat) (v : CoreStore) (hk : Keeps s₀ s) : Keeps s₀ (State.holdStore s k v) := by
  unfold State.holdStore
  repeat' first
    | with_reducible assumption
    | with_reducible exact Keeps.refl _
    | with_reducible apply State.nextPlace_keeps
    | with_reducible apply State.modCore_keeps
    | ((with_reducible refine Keeps.upd rfl ?_ ?_ ?_ ?_); (first | with_reducible assumption | with_reducible exact Keeps.refl _ | with_reducible apply State.nextPlace_keeps | with_reducible apply State.modCore_keeps))
    | (intro h; exact h)
    | (intro h; simpa using h)
    | with_reducible intro _ _
    | with_reducible intro _
    | dsimp only

theorem State.corePort_keeps {s₀ : State} (s : State) (k off v : Nat) (hk : Keeps s₀ s) : Keeps s₀ (State.corePort s k off v) := by
  unfold State.corePort
  repeat' first
    | with_reducible assumption
    | with_reducible exact Keeps.refl _
    | with_reducible apply Keeps.ite
    | with_reducible apply State.holdStore_keeps
    | with_reducible apply State.nextPlace_keeps
    | with_reducible apply State.portStore_keeps
    | split
    | with_reducible intro _ _
    | with_reducible intro _
    | dsimp only

theorem State.coreStatusRead_keeps {s₀ : State} (s : State) (k : Nat) (rd : CoreReg) (hk : Keeps s₀ s) : Keeps s₀ (State.coreStatusRead s k rd) := by
  unfold State.coreStatusRead
  dsimp only
  repeat' first
    | with_reducible assumption
    | with_reducible exact Keeps.refl _
    | with_reducible apply Keeps.ite
    | with_reducible apply State.modCore_keeps
    | ((with_reducible refine Keeps.upd rfl ?_ ?_ ?_ ?_); (first | with_reducible assumption | with_reducible exact Keeps.refl _ | with_reducible apply State.modCore_keeps | with_reducible apply Keeps.ite | (split <;> skip)))
    | (intro h; exact h)
    | (intro h; simpa using h)
    | split
    | with_reducible intro _ _
    | with_reducible intro _
    | dsimp only

theorem State.coreFenceRead_keeps {s₀ : State} (s : State) (k : Nat) (rd : CoreReg) (hk : Keeps s₀ s) : Keeps s₀ (State.coreFenceRead s k rd) := by
  unfold State.coreFenceRead
  repeat' first
    | with_reducible assumption
    | with_reducible exact Keeps.refl _
    | with_reducible apply State.modCore_keeps
    | with_reducible intro _ _
    | with_reducible intro _
    | dsimp only

theorem State.portLoad_keeps {s₀ : State} (s : State) (k off : Nat) (rd : CoreReg) (hk : Keeps s₀ s) : OptKeeps s₀ (State.portLoad s k off rd) := by
  unfold State.portLoad
  dsimp only
  repeat' first
    | with_reducible assumption
    | with_reducible exact Keeps.refl _
    | with_reducible exact OptKeeps.none _
    | with_reducible apply OptKeeps.some
    | with_reducible apply OptKeeps.ite
    | with_reducible apply OptKeeps.map
    | with_reducible apply Keeps.ite
    | with_reducible apply State.coreFenceRead_keeps
    | with_reducible apply State.coreStatusRead_keeps
    | with_reducible apply State.modCore_keeps
    | split
    | with_reducible intro _ _
    | with_reducible intro _
    | dsimp only

theorem State.fillAll_keeps {s₀ : State} (s : State) (k a n : Nat) (code : Bool) (hk : Keeps s₀ s) : Keeps s₀ (State.fillAll s k a n code) := by
  unfold State.fillAll
  repeat' first
    | with_reducible assumption
    | with_reducible exact Keeps.refl _
    | with_reducible apply State.fillRead_keeps
    | with_reducible apply Keeps.foldl_trans
    | with_reducible intro _ _
    | with_reducible intro _
    | dsimp only

theorem State.accessTrap_keeps {s₀ : State} (s : State) (k : Nat) (op : CoreOp) (va : Nat) (hk : Keeps s₀ s) : Keeps s₀ (State.accessTrap s k op va) := by
  unfold State.accessTrap
  repeat' first
    | with_reducible assumption
    | with_reducible exact Keeps.refl _
    | with_reducible apply State.faultCore_keeps
    | ((with_reducible refine Keeps.upd rfl ?_ ?_ ?_ ?_); (first | with_reducible assumption | with_reducible exact Keeps.refl _ | with_reducible apply State.faultCore_keeps))
    | (intro h; exact h)
    | (intro h; simpa using h)
    | with_reducible intro _ _
    | with_reducible intro _
    | dsimp only

theorem State.cachedAccess_keeps {s₀ : State} (s : State) (k : Nat) (op : CoreOp) (a : Nat) (hk : Keeps s₀ s) : Keeps s₀ (State.cachedAccess s k op a) := by
  unfold State.cachedAccess
  dsimp only
  repeat' first
    | with_reducible assumption
    | with_reducible exact Keeps.refl _
    | with_reducible apply Keeps.ite
    | with_reducible apply State.fillAll_keeps
    | with_reducible apply State.cachedStore_keeps
    | with_reducible apply State.faultCore_keeps
    | with_reducible apply State.modCore_keeps
    | ((with_reducible refine Keeps.upd rfl ?_ ?_ ?_ ?_); (first | with_reducible assumption | with_reducible exact Keeps.refl _ | with_reducible apply State.fillAll_keeps | with_reducible apply State.cachedStore_keeps | with_reducible apply State.faultCore_keeps | with_reducible apply State.modCore_keeps | with_reducible apply Keeps.ite | (split <;> skip)))
    | (intro h; exact h)
    | (intro h; simpa using h)
    | split
    | with_reducible intro _ _
    | with_reducible intro _
    | dsimp only

theorem State.iceAccess_keeps {s₀ : State} (s : State) (k : Nat) (op : CoreOp) (va a : Nat) (hk : Keeps s₀ s) : Keeps s₀ (State.iceAccess s k op va a) := by
  unfold State.iceAccess
  repeat' first
    | with_reducible assumption
    | with_reducible exact Keeps.refl _
    | with_reducible apply State.cachedAccess_keeps
    | with_reducible apply State.accessTrap_keeps
    | with_reducible apply State.faultCore_keeps
    | ((with_reducible refine Keeps.upd rfl ?_ ?_ ?_ ?_); (first | with_reducible assumption | with_reducible exact Keeps.refl _ | with_reducible apply State.cachedAccess_keeps | with_reducible apply State.accessTrap_keeps | with_reducible apply State.faultCore_keeps | (split <;> skip)))
    | (intro h; exact h)
    | (intro h; simpa using h)
    | split
    | with_reducible intro _ _
    | with_reducible intro _
    | dsimp only

theorem State.localAccess_keeps {s₀ : State} (s : State) (k : Nat) (op : CoreOp) (va a : Nat) (hk : Keeps s₀ s) : Keeps s₀ (State.localAccess s k op va a) := by
  unfold State.localAccess
  repeat' first
    | with_reducible assumption
    | with_reducible exact Keeps.refl _
    | with_reducible apply State.accessTrap_keeps
    | with_reducible apply State.faultCore_keeps
    | with_reducible apply State.wrNat_keeps
    | with_reducible apply State.modCore_keeps
    | ((with_reducible refine Keeps.upd rfl ?_ ?_ ?_ ?_); (first | with_reducible assumption | with_reducible exact Keeps.refl _ | with_reducible apply State.accessTrap_keeps | with_reducible apply State.faultCore_keeps | with_reducible apply State.wrNat_keeps | with_reducible apply State.modCore_keeps | (split <;> skip)))
    | (intro h; exact h)
    | (intro h; simpa using h)
    | split
    | with_reducible intro _ _
    | with_reducible intro _
    | dsimp only

theorem State.splitAccess_keeps {s₀ : State} (s : State) (k : Nat) (op : CoreOp) (va a m : Nat) (hk : Keeps s₀ s) : Keeps s₀ (State.splitAccess s k op va a m) := by
  unfold State.splitAccess
  repeat' first
    | with_reducible assumption
    | with_reducible exact Keeps.refl _
    | with_reducible apply Keeps.ite
    | with_reducible apply State.accessTrap_keeps
    | with_reducible apply State.fillAll_keeps
    | with_reducible apply State.cachedStore_keeps
    | with_reducible apply State.faultCore_keeps
    | with_reducible apply State.wrNat_keeps
    | with_reducible apply State.modCore_keeps
    | ((with_reducible refine Keeps.upd rfl ?_ ?_ ?_ ?_); (first | with_reducible assumption | with_reducible exact Keeps.refl _ | with_reducible apply State.accessTrap_keeps | with_reducible apply State.fillAll_keeps | with_reducible apply State.cachedStore_keeps | with_reducible apply State.faultCore_keeps | with_reducible apply State.wrNat_keeps | with_reducible apply State.modCore_keeps | with_reducible apply Keeps.ite | (split <;> skip)))
    | (intro h; exact h)
    | (intro h; simpa using h)
    | split
    | with_reducible intro _ _
    | with_reducible intro _
    | dsimp only

theorem State.portWrite_keeps {s₀ : State} (s : State) (w : Nat) (hk : Keeps s₀ s) : OptKeeps s₀ (State.portWrite s w) := by
  unfold State.portWrite
  repeat' first
    | with_reducible assumption
    | with_reducible exact Keeps.refl _
    | with_reducible exact OptKeeps.none _
    | with_reducible apply OptKeeps.some
    | with_reducible apply OptKeeps.ite
    | with_reducible apply OptKeeps.map
    | with_reducible apply Keeps.ite
    | ((with_reducible refine Keeps.upd rfl ?_ ?_ ?_ ?_); (first | with_reducible assumption | with_reducible exact Keeps.refl _ | with_reducible apply Keeps.ite | (split <;> skip)))
    | (intro h; exact h)
    | (intro h; simpa using h)
    | split
    | with_reducible intro _ _
    | with_reducible intro _
    | dsimp only

theorem State.sessionStore_keeps {s₀ : State} (s : State) (k v : Nat) (hk : Keeps s₀ s) : Keeps s₀ (State.sessionStore s k v) := by
  unfold State.sessionStore
  repeat' first
    | with_reducible assumption
    | with_reducible exact Keeps.refl _
    | with_reducible apply Keeps.getD
    | with_reducible apply Keeps.ite
    | with_reducible apply State.portWrite_keeps
    | with_reducible apply State.holdStore_keeps
    | with_reducible apply State.nextPlace_keeps
    | with_reducible refine OptKeeps.elim ?_ ‹_ = some _›
    | split
    | with_reducible intro _ _
    | with_reducible intro _
    | dsimp only

theorem State.drainStores_keeps {s₀ : State} (k : Nat) (l : List (Nat × CoreStore)) (s : State) (hk : Keeps s₀ s) :
    Keeps s₀ (State.drainStores s k l) := by
  induction l generalizing s with
  | nil => unfold State.drainStores; exact hk
  | cons e l ih =>
    unfold State.drainStores
    dsimp only
    repeat' first
      | with_reducible assumption
      | with_reducible apply ih
      | with_reducible apply Keeps.ite
      | with_reducible apply State.portStore_keeps
      | with_reducible apply State.modCore_keeps
      | with_reducible refine OptKeeps.elim (State.portWrite_keeps _ _ ?_) ‹_›
      | split

theorem State.releaseStores_keeps {s₀ : State} (s : State) (hk : Keeps s₀ s) : Keeps s₀ (State.releaseStores s) := by
  unfold State.releaseStores
  exact Keeps.foldl_trans hk fun s k => State.drainStores_keeps _ _ _ (.refl s)

theorem State.controlAccess_keeps {s₀ : State} (s : State) (k : Nat) (op : CoreOp) (a : Nat) (hk : Keeps s₀ s) : OptKeeps s₀ (State.controlAccess s k op a) := by
  unfold State.controlAccess
  dsimp only
  repeat' first
    | with_reducible assumption
    | with_reducible exact Keeps.refl _
    | with_reducible exact OptKeeps.none _
    | with_reducible apply OptKeeps.some
    | with_reducible apply OptKeeps.ite
    | with_reducible apply OptKeeps.map
    | with_reducible apply Keeps.ite
    | with_reducible apply State.sessionStore_keeps
    | with_reducible apply State.portLoad_keeps
    | with_reducible apply State.corePort_keeps
    | with_reducible apply State.faultCore_keeps
    | with_reducible refine OptKeeps.elim ?_ ‹_ = some _›
    | ((with_reducible refine Keeps.upd rfl ?_ ?_ ?_ ?_); (first | with_reducible assumption | with_reducible exact Keeps.refl _ | with_reducible apply State.sessionStore_keeps | with_reducible apply State.portLoad_keeps | with_reducible apply State.corePort_keeps | with_reducible apply State.faultCore_keeps | with_reducible refine OptKeeps.elim ?_ ‹_ = some _› | with_reducible apply Keeps.ite | (split <;> skip)))
    | (intro h; exact h)
    | (intro h; simpa using h)
    | split
    | with_reducible intro _ _
    | with_reducible intro _
    | dsimp only

theorem State.fetching_keeps {s₀ : State} (s : State) (k : Nat) (op : CoreOp) (a : Nat) (hk : Keeps s₀ s) : Keeps s₀ (State.fetching s k op a) := by
  unfold State.fetching
  repeat' first
    | with_reducible assumption
    | with_reducible exact Keeps.refl _
    | with_reducible apply State.modCore_keeps
    | ((with_reducible refine Keeps.upd rfl ?_ ?_ ?_ ?_); (first | with_reducible assumption | with_reducible exact Keeps.refl _ | with_reducible apply State.modCore_keeps | (split <;> skip)))
    | (intro h; exact h)
    | (intro h; simpa using h)
    | split
    | with_reducible intro _ _
    | with_reducible intro _
    | dsimp only

theorem State.accessAt_keeps {s₀ : State} (s : State) (k : Nat) (op : CoreOp) (va a : Nat) (hk : Keeps s₀ s) : OptKeeps s₀ (State.accessAt s k op va a) := by
  unfold State.accessAt
  dsimp only
  repeat' first
    | with_reducible assumption
    | with_reducible exact Keeps.refl _
    | with_reducible exact OptKeeps.none _
    | with_reducible apply OptKeeps.some
    | with_reducible apply OptKeeps.ite
    | with_reducible apply OptKeeps.map
    | with_reducible apply Keeps.ite
    | with_reducible apply State.controlAccess_keeps
    | with_reducible apply State.splitAccess_keeps
    | with_reducible apply State.localAccess_keeps
    | with_reducible apply State.iceAccess_keeps
    | with_reducible apply State.cachedAccess_keeps
    | with_reducible apply State.faultCore_keeps
    | with_reducible refine OptKeeps.elim ?_ ‹_ = some _›
    | ((with_reducible refine Keeps.upd rfl ?_ ?_ ?_ ?_); (first | with_reducible assumption | with_reducible exact Keeps.refl _ | with_reducible apply State.controlAccess_keeps | with_reducible apply State.splitAccess_keeps | with_reducible apply State.localAccess_keeps | with_reducible apply State.iceAccess_keeps | with_reducible apply State.cachedAccess_keeps | with_reducible apply State.faultCore_keeps | with_reducible refine OptKeeps.elim ?_ ‹_ = some _› | with_reducible apply Keeps.ite | (split <;> skip)))
    | (intro h; exact h)
    | (intro h; simpa using h)
    | split
    | with_reducible intro _ _
    | with_reducible intro _
    | dsimp only

theorem State.takeException_keeps {s₀ : State} (s : State) (k cause : Nat) (tval : Word64) (hk : Keeps s₀ s) : Keeps s₀ (State.takeException s k cause tval) := by
  unfold State.takeException
  repeat' first
    | with_reducible assumption
    | with_reducible exact Keeps.refl _
    | with_reducible apply Keeps.ite
    | with_reducible apply State.faultCore_keeps
    | with_reducible apply State.modCore_keeps
    | ((with_reducible refine Keeps.upd rfl ?_ ?_ ?_ ?_); (first | with_reducible assumption | with_reducible exact Keeps.refl _ | with_reducible apply State.faultCore_keeps | with_reducible apply State.modCore_keeps | with_reducible apply Keeps.ite | (split <;> skip)))
    | (intro h; exact h)
    | (intro h; simpa using h)
    | split
    | with_reducible intro _ _
    | with_reducible intro _
    | dsimp only

theorem State.coreCsr_keeps {s₀ : State} (s : State) (k : Nat) (op : CsrOp) (num : Nat) (v : Word64) (rd : CoreReg) (hk : Keeps s₀ s) : Keeps s₀ (State.coreCsr s k op num v rd) := by
  unfold State.coreCsr
  dsimp only
  repeat' first
    | with_reducible assumption
    | with_reducible exact Keeps.refl _
    | with_reducible apply Keeps.ite
    | with_reducible apply State.takeException_keeps
    | with_reducible apply State.fresh_keeps
    | with_reducible apply State.modCore_keeps
    | split
    | with_reducible intro _ _
    | with_reducible intro _
    | dsimp only

theorem State.coreMem_keeps {s₀ : State} (s : State) (k : Nat) (op : CoreOp) (va : Nat) (hk : Keeps s₀ s) : OptKeeps s₀ (State.coreMem s k op va) := by
  unfold State.coreMem
  dsimp only
  repeat' first
    | with_reducible assumption
    | with_reducible exact Keeps.refl _
    | with_reducible exact OptKeeps.none _
    | with_reducible apply OptKeeps.some
    | with_reducible apply OptKeeps.ite
    | with_reducible apply OptKeeps.map
    | with_reducible apply State.takeException_keeps
    | with_reducible apply State.accessAt_keeps
    | with_reducible apply State.fetching_keeps
    | with_reducible apply State.accessTrap_keeps
    | with_reducible apply State.faultCore_keeps
    | with_reducible refine OptKeeps.elim ?_ ‹_ = some _›
    | split
    | with_reducible intro _ _
    | with_reducible intro _
    | dsimp only

theorem State.coreAccess_keeps {s₀ : State} (s : State) (k : Nat) (op : CoreOp) (va : Nat) (hk : Keeps s₀ s) : OptKeeps s₀ (State.coreAccess s k op va) := by
  unfold State.coreAccess
  repeat' first
    | with_reducible assumption
    | with_reducible exact Keeps.refl _
    | with_reducible exact OptKeeps.none _
    | with_reducible apply OptKeeps.some
    | with_reducible apply OptKeeps.ite
    | with_reducible apply OptKeeps.map
    | with_reducible apply Keeps.ite
    | with_reducible apply State.coreMem_keeps
    | with_reducible apply State.coreCsr_keeps
    | with_reducible apply State.takeException_keeps
    | with_reducible apply State.modCore_keeps
    | with_reducible refine OptKeeps.elim ?_ ‹_ = some _›
    | split
    | with_reducible intro _ _
    | with_reducible intro _
    | dsimp only

theorem execCoreAccess_keeps {s₀ : State} (k : Nat) (op : CoreOp) (a : Nat) (s : State) (hk : Keeps s₀ s) : OutKeeps s₀ (execCoreAccess k op a s) := by
  unfold execCoreAccess
  repeat' first
    | with_reducible assumption
    | with_reducible exact Keeps.refl _
    | with_reducible apply OutKeeps.next
    | with_reducible apply OutKeeps.ite
    | with_reducible apply OptKeeps.map
    | with_reducible apply Keeps.getD
    | with_reducible apply Keeps.ite
    | with_reducible apply State.coreAccess_keeps
    | with_reducible apply State.progress_keeps
    | with_reducible refine OptKeeps.elim ?_ ‹_ = some _›
    | split
    | with_reducible intro _ _
    | with_reducible intro _
    | dsimp only

theorem execCboClean_keeps {s₀ : State} (k a : Nat) (s : State) (hk : Keeps s₀ s) : OutKeeps s₀ (execCboClean k a s) := by
  unfold execCboClean
  repeat' first
    | with_reducible assumption
    | with_reducible exact Keeps.refl _
    | with_reducible apply OutKeeps.next
    | with_reducible apply OutKeeps.ite
    | with_reducible apply Keeps.ite
    | with_reducible apply State.cleanLine_keeps
    | with_reducible apply State.progress_keeps
    | split
    | with_reducible intro _ _
    | with_reducible intro _
    | dsimp only

theorem execCboFlush_keeps {s₀ : State} (k a : Nat) (s : State) (hk : Keeps s₀ s) : OutKeeps s₀ (execCboFlush k a s) := by
  unfold execCboFlush
  repeat' first
    | with_reducible assumption
    | with_reducible exact Keeps.refl _
    | with_reducible apply OutKeeps.next
    | with_reducible apply OutKeeps.ite
    | with_reducible apply Keeps.ite
    | with_reducible apply State.cleanLine_keeps
    | with_reducible apply State.progress_keeps
    | split
    | with_reducible intro _ _
    | with_reducible intro _
    | dsimp only

theorem execCboInval_keeps {s₀ : State} (k a : Nat) (s : State) (hk : Keeps s₀ s) : OutKeeps s₀ (execCboInval k a s) := by
  unfold execCboInval
  repeat' first
    | with_reducible assumption
    | with_reducible exact Keeps.refl _
    | with_reducible apply OutKeeps.next
    | with_reducible apply OutKeeps.ite
    | with_reducible apply Keeps.ite
    | with_reducible apply State.dropCopies_keeps
    | with_reducible apply State.progress_keeps
    | split
    | with_reducible intro _ _
    | with_reducible intro _
    | dsimp only

theorem execCacheWriteback_keeps {s₀ : State} (k a : Nat) (s : State) (hk : Keeps s₀ s) : OutKeeps s₀ (execCacheWriteback k a s) := by
  unfold execCacheWriteback
  repeat' first
    | with_reducible assumption
    | with_reducible exact Keeps.refl _
    | with_reducible apply OutKeeps.next
    | with_reducible apply OutKeeps.ite
    | with_reducible apply Keeps.ite
    | with_reducible apply State.washLine_keeps
    | split
    | with_reducible intro _ _
    | with_reducible intro _
    | dsimp only

theorem execCoreGsig_keeps {s₀ : State} (k : Nat) (v : Word64) (s : State) (hk : Keeps s₀ s) : OutKeeps s₀ (execCoreGsig k v s) := by
  unfold execCoreGsig
  repeat' first
    | with_reducible assumption
    | with_reducible exact Keeps.refl _
    | with_reducible apply OutKeeps.next
    | with_reducible apply OutKeeps.ite
    | with_reducible apply Keeps.ite
    | with_reducible apply State.corePort_keeps
    | with_reducible apply State.progress_keeps
    | split
    | with_reducible intro _ _
    | with_reducible intro _
    | dsimp only

theorem execCoreWaitTarget_keeps {s₀ : State} (k : Nat) (v : Word64) (s : State) (hk : Keeps s₀ s) : OutKeeps s₀ (execCoreWaitTarget k v s) := by
  unfold execCoreWaitTarget
  repeat' first
    | with_reducible assumption
    | with_reducible exact Keeps.refl _
    | with_reducible apply OutKeeps.next
    | with_reducible apply OutKeeps.ite
    | with_reducible apply Keeps.ite
    | with_reducible apply State.corePort_keeps
    | with_reducible apply State.progress_keeps
    | split
    | with_reducible intro _ _
    | with_reducible intro _
    | dsimp only

theorem execCoreWaitStatus_keeps {s₀ : State} (k : Nat) (rd : CoreReg) (s : State) (hk : Keeps s₀ s) : OutKeeps s₀ (execCoreWaitStatus k rd s) := by
  unfold execCoreWaitStatus
  repeat' first
    | with_reducible assumption
    | with_reducible exact Keeps.refl _
    | with_reducible apply OutKeeps.next
    | with_reducible apply OutKeeps.ite
    | with_reducible apply Keeps.ite
    | with_reducible apply State.coreStatusRead_keeps
    | with_reducible apply State.progress_keeps
    | split
    | with_reducible intro _ _
    | with_reducible intro _
    | dsimp only

theorem execCoreFence_keeps {s₀ : State} (k : Nat) (v : Word64) (s : State) (hk : Keeps s₀ s) : OutKeeps s₀ (execCoreFence k v s) := by
  unfold execCoreFence
  repeat' first
    | with_reducible assumption
    | with_reducible exact Keeps.refl _
    | with_reducible apply OutKeeps.next
    | with_reducible apply OutKeeps.ite
    | with_reducible apply Keeps.ite
    | with_reducible apply State.corePort_keeps
    | with_reducible apply State.progress_keeps
    | split
    | with_reducible intro _ _
    | with_reducible intro _
    | dsimp only

theorem execCoreFenceDone_keeps {s₀ : State} (k : Nat) (rd : CoreReg) (s : State) (hk : Keeps s₀ s) : OutKeeps s₀ (execCoreFenceDone k rd s) := by
  unfold execCoreFenceDone
  repeat' first
    | with_reducible assumption
    | with_reducible exact Keeps.refl _
    | with_reducible apply OutKeeps.next
    | with_reducible apply OutKeeps.ite
    | with_reducible apply Keeps.ite
    | with_reducible apply State.coreFenceRead_keeps
    | with_reducible apply State.progress_keeps
    | split
    | with_reducible intro _ _
    | with_reducible intro _
    | dsimp only

theorem execCoreEcall_keeps {s₀ : State} (k : Nat) (s : State) (hk : Keeps s₀ s) : OutKeeps s₀ (execCoreEcall k s) := by
  unfold execCoreEcall
  dsimp only
  repeat' first
    | with_reducible assumption
    | with_reducible exact Keeps.refl _
    | with_reducible apply OutKeeps.next
    | with_reducible apply OutKeeps.ite
    | with_reducible apply Keeps.ite
    | with_reducible apply State.takeException_keeps
    | with_reducible apply State.cleanAll_keeps
    | with_reducible apply State.progress_keeps
    | with_reducible apply State.modAgent_keeps
    | ((with_reducible refine Keeps.upd rfl ?_ ?_ ?_ ?_); (first | with_reducible assumption | with_reducible exact Keeps.refl _ | with_reducible apply State.takeException_keeps | with_reducible apply State.cleanAll_keeps | with_reducible apply State.progress_keeps | with_reducible apply State.modAgent_keeps | with_reducible apply Keeps.ite | (split <;> skip)))
    | (intro h; exact h)
    | (intro h; simpa using h)
    | split
    | with_reducible intro _ _
    | with_reducible intro _
    | dsimp only

theorem execCoreClearWriteback_keeps {s₀ : State} (k : Nat) (s : State) (hk : Keeps s₀ s) : OutKeeps s₀ (execCoreClearWriteback k s) := by
  unfold execCoreClearWriteback
  dsimp only
  repeat' first
    | with_reducible assumption
    | with_reducible exact Keeps.refl _
    | with_reducible apply OutKeeps.next
    | with_reducible apply OutKeeps.ite
    | with_reducible apply Keeps.ite
    | with_reducible apply State.cleanAll_keeps
    | with_reducible apply State.modCore_keeps
    | with_reducible apply State.modAgent_keeps
    | ((with_reducible refine Keeps.upd rfl ?_ ?_ ?_ ?_); (first | with_reducible assumption | with_reducible exact Keeps.refl _ | with_reducible apply State.cleanAll_keeps | with_reducible apply State.modCore_keeps | with_reducible apply State.modAgent_keeps | with_reducible apply Keeps.ite | (split <;> skip)))
    | (intro h; exact h)
    | (intro h; simpa using h)
    | split
    | with_reducible intro _ _
    | with_reducible intro _
    | dsimp only

theorem execCoreException_keeps {s₀ : State} (k cause : Nat) (tval : Word64) (s : State) (hk : Keeps s₀ s) : OutKeeps s₀ (execCoreException k cause tval s) := by
  unfold execCoreException
  repeat' first
    | with_reducible assumption
    | with_reducible exact Keeps.refl _
    | with_reducible apply OutKeeps.next
    | with_reducible apply OutKeeps.ite
    | with_reducible apply Keeps.ite
    | with_reducible apply State.takeException_keeps
    | split
    | with_reducible intro _ _
    | with_reducible intro _
    | dsimp only

end Sys2Proof.Machine
end

