-- ==== Sys2Proof/Laws/KeepsSchedule.lean ====
section
/-! SUPPORT. What the operations of Machine/Schedule.lean keep: one lemma each. -/
namespace Sys2Proof.Machine

theorem State.publishResult_keeps {s₀ : State} (s : State) (index code : Nat) (hk : Keeps s₀ s) : Keeps s₀ (State.publishResult s index code) := by
  unfold State.publishResult
  repeat' first
    | ((with_reducible refine Keeps.upd rfl ?_ ?_ ?_ ?_); (first | with_reducible assumption | with_reducible exact Keeps.refl _))
    | (intro h; exact h)

theorem State.publish_keeps {s₀ : State} (s : State) (a : Nat) (hk : Keeps s₀ s) : Keeps s₀ (State.publish s a) := by
  unfold State.publish
  repeat' first
    | ((with_reducible refine Keeps.upd rfl ?_ ?_ ?_ ?_); (first | with_reducible assumption | with_reducible exact Keeps.refl _ | with_reducible apply State.publishResult_keeps | with_reducible apply Keeps.ite | (split <;> skip)))
    | (intro h; exact h)

theorem State.refuseStart_keeps {s₀ : State} (s : State) (i : Nat) (e : EpochEntry) (hk : Keeps s₀ s) : Keeps s₀ (State.refuseStart s i e) := by
  unfold State.refuseStart
  dsimp only
  repeat' first
    | with_reducible assumption
    | with_reducible apply State.recordFault_keeps
    | with_reducible apply State.modAgent_keeps

theorem State.acceptEntry_keeps {s₀ : State} (s : State) (e : EpochEntry) (hk : Keeps s₀ s) : Keeps s₀ (State.acceptEntry s e) := by
  unfold State.acceptEntry
  dsimp only
  repeat' first
    | with_reducible assumption
    | with_reducible apply Keeps.ite
    | with_reducible apply State.refuseStart_keeps
    | with_reducible apply State.modAgent_keeps

theorem State.cancel_keeps {s₀ : State} (s : State) (i : Nat) (hk : Keeps s₀ s) : Keeps s₀ (State.cancel s i) := by
  unfold State.cancel
  dsimp only
  repeat' first
    | ((with_reducible refine Keeps.upd rfl ?_ ?_ ?_ ?_); (first | with_reducible assumption | with_reducible exact Keeps.refl _ | with_reducible apply State.modAgent_keeps | with_reducible apply Keeps.ite | (split <;> skip)))
    | (intro h; exact h)

theorem execEpochPublish_keeps {s₀ : State} (w : RegVal) (s : State) (hk : Keeps s₀ s) : OutKeeps s₀ (execEpochPublish w s) := by
  unfold execEpochPublish
  repeat' first
    | with_reducible assumption
    | with_reducible apply OutKeeps.next
    | with_reducible apply OutKeeps.ite
    | with_reducible apply State.publish_keeps

theorem execEpochValidationEnd_keeps {s₀ : State} (s : State) (hk : Keeps s₀ s) : OutKeeps s₀ (execEpochValidationEnd s) := by
  unfold execEpochValidationEnd
  dsimp only
  repeat' first
    | with_reducible apply OutKeeps.next
    | ((with_reducible refine Keeps.upd rfl ?_ ?_ ?_ ?_); (first | with_reducible assumption | with_reducible exact Keeps.refl _ | with_reducible apply State.cancel_keeps | with_reducible apply State.acceptEntry_keeps | with_reducible apply State.publishResult_keeps | with_reducible apply Keeps.foldl_trans | with_reducible apply Keeps.ite | (split <;> skip)))
    | (intro h; exact h)
    | split
    | with_reducible intro _ _

theorem execEpochCancel_keeps {s₀ : State} (w : RegVal) (s : State) (hk : Keeps s₀ s) : OutKeeps s₀ (execEpochCancel w s) := by
  unfold execEpochCancel
  dsimp only
  repeat' first
    | with_reducible apply OutKeeps.next
    | with_reducible apply OutKeeps.ite
    | ((with_reducible refine Keeps.upd rfl ?_ ?_ ?_ ?_); (first | with_reducible assumption | with_reducible exact Keeps.refl _ | with_reducible apply State.cancel_keeps | with_reducible apply Keeps.ite | (split <;> skip)))
    | (intro h; exact h)

theorem State.wakeBlock_keeps {s₀ : State} (s : State) (i : Nat) (hk : Keeps s₀ s) : Keeps s₀ (State.wakeBlock s i) := by
  unfold State.wakeBlock
  repeat' first
    | with_reducible assumption
    | with_reducible exact Keeps.refl _
    | with_reducible apply Keeps.ite
    | with_reducible apply State.holdStart_keeps
    | with_reducible apply State.addPower_keeps
    | with_reducible apply State.modAgent_keeps
    | ((with_reducible refine Keeps.upd rfl ?_ ?_ ?_ ?_); (first | with_reducible assumption | with_reducible exact Keeps.refl _ | with_reducible apply State.holdStart_keeps | with_reducible apply State.addPower_keeps | with_reducible apply State.modAgent_keeps | with_reducible apply Keeps.ite | (split <;> skip)))
    | (intro h; exact h)
    | (intro h; simpa using h)
    | split
    | with_reducible intro _ _
    | with_reducible intro _
    | dsimp only

theorem execScheduledWake_keeps {s₀ : State} (i : Nat) (now : Word64) (s : State) (hk : Keeps s₀ s) : OutKeeps s₀ (execScheduledWake i now s) := by
  unfold execScheduledWake
  repeat' first
    | with_reducible assumption
    | with_reducible apply OutKeeps.next
    | with_reducible apply State.wakeBlock_keeps
    | with_reducible apply State.at__keeps
    | with_reducible apply State.modAgent_keeps
    | with_reducible refine OptKeeps.elim ?_ ‹_ = some _›
    | split

theorem execWakeComplete_keeps {s₀ : State} (i : Nat) (now : Word64) (s : State) (hk : Keeps s₀ s) : OutKeeps s₀ (execWakeComplete i now s) := by
  unfold execWakeComplete
  repeat' first
    | with_reducible assumption
    | with_reducible apply OutKeeps.next
    | with_reducible apply State.at__keeps
    | with_reducible apply State.modAgent_keeps
    | with_reducible refine OptKeeps.elim ?_ ‹_ = some _›
    | split

theorem State.startProgram_keeps {s₀ : State} (s : State) (i : Nat) (e : EpochEntry) (hk : Keeps s₀ s) : Keeps s₀ (State.startProgram s i e) := by
  unfold State.startProgram
  dsimp only
  repeat' first
    | with_reducible assumption
    | with_reducible apply Keeps.ite
    | with_reducible apply State.launchCore_keeps
    | with_reducible apply State.logEvent_keeps
    | with_reducible apply State.modAgent_keeps

theorem execAgentStart_keeps {s₀ : State} (i : Nat) (now : Word64) (s : State) (hk : Keeps s₀ s) : OutKeeps s₀ (execAgentStart i now s) := by
  unfold execAgentStart
  repeat' first
    | with_reducible assumption
    | with_reducible exact Keeps.refl _
    | with_reducible apply OutKeeps.next
    | with_reducible apply OutKeeps.ite
    | with_reducible apply Keeps.ite
    | with_reducible apply State.startProgram_keeps
    | with_reducible apply State.startOr_keeps
    | with_reducible apply State.at__keeps
    | with_reducible refine OptKeeps.elim ?_ ‹_ = some _›
    | split
    | with_reducible intro _ _
    | with_reducible intro _
    | dsimp only

theorem execStartLate_keeps {s₀ : State} (i : Nat) (now : Word64) (s : State) (hk : Keeps s₀ s) : OutKeeps s₀ (execStartLate i now s) := by
  unfold execStartLate
  repeat' first
    | with_reducible assumption
    | with_reducible apply OutKeeps.next
    | with_reducible apply State.refuseStart_keeps
    | with_reducible apply State.at__keeps
    | with_reducible refine OptKeeps.elim ?_ ‹_ = some _›
    | split

theorem State.endProgram_keeps {s₀ : State} (s : State) (i : Nat) (hk : Keeps s₀ s) : Keeps s₀ (State.endProgram s i) := by
  unfold State.endProgram
  dsimp only
  repeat' first
    | with_reducible assumption
    | with_reducible exact Keeps.refl _
    | with_reducible apply Keeps.ite
    | with_reducible apply State.settleArray_keeps
    | with_reducible apply State.modAgent_keeps
    | ((with_reducible refine Keeps.upd rfl ?_ ?_ ?_ ?_); (first | with_reducible assumption | with_reducible exact Keeps.refl _ | with_reducible apply State.settleArray_keeps | with_reducible apply State.modAgent_keeps | with_reducible apply Keeps.ite | (split <;> skip)))
    | (intro h; exact h)
    | (intro h; simpa using h)
    | split
    | with_reducible intro _ _
    | with_reducible intro _
    | dsimp only

theorem execDoneGateSignal_keeps {s₀ : State} (i : Nat) (s : State) (hk : Keeps s₀ s) : OutKeeps s₀ (execDoneGateSignal i s) := by
  unfold execDoneGateSignal
  dsimp only
  repeat' first
    | with_reducible assumption
    | with_reducible apply OutKeeps.next
    | with_reducible apply State.endProgram_keeps
    | with_reducible apply State.faultCore_keeps
    | with_reducible apply State.signalGate_keeps
    | split

theorem execSignalApply_keeps {s₀ : State} (i k : Nat) (s : State) (hk : Keeps s₀ s) : OutKeeps s₀ (execSignalApply i k s) := by
  unfold execSignalApply
  dsimp only
  repeat' first
    | with_reducible assumption
    | with_reducible apply OutKeeps.next
    | with_reducible apply State.sendSignal_keeps
    | with_reducible apply State.progress_keeps
    | with_reducible apply State.signalGate_keeps
    | with_reducible apply State.modAgent_keeps
    | (intro h; exact h)
    | split

theorem State.timeoutFault_keeps {s₀ : State} (s : State) (i : Nat) (w : GateWait) (hk : Keeps s₀ s) : Keeps s₀ (State.timeoutFault s i w) := by
  unfold State.timeoutFault
  dsimp only
  repeat' first
    | with_reducible assumption
    | with_reducible apply Keeps.ite
    | with_reducible apply State.faultCore_keeps
    | with_reducible apply State.faultCodec_keeps
    | with_reducible apply State.faultMover_keeps
    | with_reducible apply State.faultArray_keeps

theorem execGateTimeout_keeps {s₀ : State} (i : Nat) (now : Word64) (s : State) (hk : Keeps s₀ s) : OutKeeps s₀ (execGateTimeout i now s) := by
  unfold execGateTimeout
  repeat' first
    | with_reducible assumption
    | with_reducible apply OutKeeps.next
    | with_reducible apply State.timeoutFault_keeps
    | with_reducible apply State.at__keeps
    | with_reducible apply State.modAgent_keeps
    | with_reducible refine OptKeeps.elim ?_ ‹_ = some _›
    | split

theorem execBoundaryFault_keeps {s₀ : State} (i : Nat) (s : State) (hk : Keeps s₀ s) : OutKeeps s₀ (execBoundaryFault i s) := by
  unfold execBoundaryFault
  dsimp only
  repeat' first
    | with_reducible assumption
    | with_reducible apply OutKeeps.next
    | with_reducible apply State.faultAgent_keeps
    | with_reducible apply State.recordFault_keeps
    | with_reducible apply State.modAgent_keeps
    | split

theorem execFenceComplete_keeps {s₀ : State} (i : Nat) (s : State) (hk : Keeps s₀ s) : OutKeeps s₀ (execFenceComplete i s) := by
  unfold execFenceComplete
  dsimp only
  repeat' first
    | with_reducible assumption
    | with_reducible apply OutKeeps.next
    | with_reducible apply State.progress_keeps
    | with_reducible apply State.modCore_keeps
    | with_reducible apply State.modAgent_keeps
    | split

theorem execGateValue_keeps {s₀ : State} (g : Nat) (w : RegVal) (s : State) (hk : Keeps s₀ s) : OutKeeps s₀ (execGateValue g w s) := by
  unfold execGateValue
  dsimp only
  repeat' first
    | with_reducible assumption
    | with_reducible apply OutKeeps.next
    | with_reducible apply OutKeeps.ite
    | with_reducible apply Keeps.ite
    | with_reducible apply State.setGateValue_keeps
    | with_reducible apply State.modGate_keeps

theorem execGateSignal_keeps {s₀ : State} (g : Nat) (w : RegVal) (s : State) (hk : Keeps s₀ s) : OutKeeps s₀ (execGateSignal g w s) := by
  unfold execGateSignal
  repeat' first
    | with_reducible assumption
    | with_reducible apply OutKeeps.next
    | with_reducible apply OutKeeps.ite
    | with_reducible apply State.signalGate_keeps

theorem State.clearFault_keeps {s₀ : State} (s : State) (i : Nat) (hk : Keeps s₀ s) : Keeps s₀ (State.clearFault s i) := by
  unfold State.clearFault
  dsimp only
  repeat' first
    | with_reducible assumption
    | with_reducible apply Keeps.ite
    | with_reducible apply State.modCore_keeps
    | with_reducible apply State.modAgent_keeps

theorem execAgentFaultClear_keeps {s₀ : State} (i : Nat) (w : RegVal) (s : State) (hk : Keeps s₀ s) : OutKeeps s₀ (execAgentFaultClear i w s) := by
  unfold execAgentFaultClear
  repeat' first
    | with_reducible assumption
    | with_reducible apply OutKeeps.next
    | with_reducible apply OutKeeps.ite
    | with_reducible apply State.clearFault_keeps
    | with_reducible apply State.modAgent_keeps

end Sys2Proof.Machine
end

