-- ==== Sys2Proof/Laws/KeepsArrays.lean ====
section
/-! SUPPORT. What the operations of Machine/Arrays.lean keep: one lemma each. -/
namespace Sys2Proof.Machine

theorem State.modFlight_keeps {s₀ : State} (s : State) (a place : Nat) (g : Flight → Flight) (hk : Keeps s₀ s) : Keeps s₀ (State.modFlight s a place g) := by
  unfold State.modFlight
  repeat' first
    | with_reducible assumption
    | with_reducible exact Keeps.refl _
    | with_reducible apply OptKeeps.map
    | with_reducible apply Keeps.ite
    | with_reducible apply State.modArray_keeps
    | ((with_reducible refine Keeps.upd rfl ?_ ?_ ?_ ?_); (first | with_reducible assumption | with_reducible exact Keeps.refl _ | with_reducible apply State.modArray_keeps | with_reducible apply Keeps.ite | (split <;> skip)))
    | (intro h; exact h)
    | (intro h; simpa using h)
    | split
    | with_reducible intro _ _
    | with_reducible intro _
    | dsimp only

theorem State.advance_keeps {s₀ : State} (s : State) (a : Nat) (hk : Keeps s₀ s) : Keeps s₀ (State.advance s a) := by
  unfold State.advance
  repeat' first
    | with_reducible assumption
    | with_reducible apply State.modArray_keeps
    | with_reducible apply State.modAgent_keeps

theorem State.faultIssue_keeps {s₀ : State} (s : State) (a op : Nat) (f : FaultInfo) (hk : Keeps s₀ s) : Keeps s₀ (State.faultIssue s a op f) := by
  unfold State.faultIssue
  repeat' first
    | with_reducible assumption
    | with_reducible apply State.faultArray_keeps

theorem State.control_keeps {s₀ : State} (s : State) (a op : Nat) (bad : Nat → List (Nat × Bool)) (act : Nat → State)
    (h : Keeps s₀ s) (hact : ∀ w, Keeps s₀ (act w)) : OutKeeps s₀ (s.control a op bad act) := by
  unfold State.control
  repeat' split
  · exact .next h
  · exact .next (State.faultIssue_keeps _ _ _ _ h)
  · exact .next (State.faultIssue_keeps _ _ _ _ h)
  · exact .next (hact _)
  · exact .next h

theorem State.issued_keeps {s₀ : State} (s : State) (a : Nat) (hk : Keeps s₀ s) : Keeps s₀ (State.issued s a) := by
  unfold State.issued
  repeat' first
    | with_reducible assumption
    | with_reducible apply State.advance_keeps
    | with_reducible apply State.progress_keeps

theorem execNop_keeps {s₀ : State} (a : Nat) (s : State) (hk : Keeps s₀ s) : OutKeeps s₀ (execNop a s) := by
  unfold execNop
  repeat' first
    | with_reducible assumption
    | with_reducible apply State.issued_keeps
    | with_reducible apply State.control_keeps
    | with_reducible intro _

theorem execHalt_keeps {s₀ : State} (a : Nat) (s : State) (hk : Keeps s₀ s) : OutKeeps s₀ (execHalt a s) := by
  unfold execHalt
  repeat' first
    | with_reducible assumption
    | with_reducible apply State.control_keeps
    | with_reducible apply State.advance_keeps
    | with_reducible apply State.progress_keeps
    | with_reducible apply State.modAgent_keeps
    | with_reducible intro _

theorem execFence_keeps {s₀ : State} (a : Nat) (s : State) (hk : Keeps s₀ s) : OutKeeps s₀ (execFence a s) := by
  unfold execFence
  repeat' first
    | with_reducible assumption
    | with_reducible apply State.control_keeps
    | with_reducible apply State.advance_keeps
    | with_reducible apply State.modAgent_keeps
    | with_reducible intro _

theorem State.wakeAgent_keeps {s₀ : State} (s : State) (i time : Nat) (hk : Keeps s₀ s) : Keeps s₀ (State.wakeAgent s i time) := by
  unfold State.wakeAgent
  dsimp only
  repeat' first
    | ((with_reducible refine Keeps.upd rfl ?_ ?_ ?_ ?_); (first | with_reducible assumption | with_reducible exact Keeps.refl _ | with_reducible apply State.wakeBlock_keeps | with_reducible apply State.modAgent_keeps | with_reducible apply Keeps.ite | (split <;> skip)))
    | (intro h; exact h)

theorem execWake_keeps {s₀ : State} (a : Nat) (s : State) (hk : Keeps s₀ s) : OutKeeps s₀ (execWake a s) := by
  unfold execWake
  dsimp only
  repeat' first
    | with_reducible assumption
    | with_reducible exact Keeps.refl _
    | with_reducible apply State.wakeAgent_keeps
    | with_reducible apply State.issued_keeps
    | with_reducible apply State.control_keeps
    | with_reducible apply Keeps.foldl_trans
    | with_reducible intro _

theorem execGsig_keeps {s₀ : State} (a : Nat) (s : State) (hk : Keeps s₀ s) : OutKeeps s₀ (execGsig a s) := by
  unfold execGsig
  dsimp only
  repeat' first
    | with_reducible assumption
    | with_reducible apply State.issued_keeps
    | with_reducible apply State.control_keeps
    | with_reducible apply State.issueSignal_keeps
    | with_reducible intro _

theorem execGwait_keeps {s₀ : State} (a : Nat) (s : State) (hk : Keeps s₀ s) : OutKeeps s₀ (execGwait a s) := by
  unfold execGwait
  dsimp only
  repeat' first
    | with_reducible assumption
    | with_reducible apply Keeps.ite
    | with_reducible apply State.control_keeps
    | with_reducible apply State.advance_keeps
    | with_reducible apply State.progress_keeps
    | with_reducible apply State.issueWait_keeps
    | with_reducible intro _

theorem State.launchPlain_keeps {s₀ : State} (s : State) (a w : Nat) (loaded : Bool) (hk : Keeps s₀ s) : Keeps s₀ (State.launchPlain s a w loaded) := by
  unfold State.launchPlain
  dsimp only
  repeat' first
    | with_reducible assumption
    | with_reducible apply State.advance_keeps
    | with_reducible apply State.modArray_keeps

theorem execTload_keeps {s₀ : State} (a : Nat) (s : State) (hk : Keeps s₀ s) : OutKeeps s₀ (execTload a s) := by
  unfold execTload
  repeat' first
    | with_reducible assumption
    | with_reducible apply State.launchPlain_keeps
    | with_reducible apply State.control_keeps
    | with_reducible apply State.faultIssue_keeps
    | split
    | with_reducible intro _

theorem execDload_keeps {s₀ : State} (a : Nat) (s : State) (hk : Keeps s₀ s) : OutKeeps s₀ (execDload a s) := by
  unfold execDload
  repeat' first
    | with_reducible assumption
    | with_reducible apply State.issued_keeps
    | with_reducible apply State.control_keeps
    | with_reducible apply State.faultIssue_keeps
    | with_reducible apply State.dload_keeps
    | with_reducible refine ExKeeps.elim ?_ ‹_ = Except.ok _›
    | split
    | with_reducible intro _

theorem execCtxsave_keeps {s₀ : State} (a : Nat) (s : State) (hk : Keeps s₀ s) : OutKeeps s₀ (execCtxsave a s) := by
  unfold execCtxsave
  repeat' first
    | with_reducible assumption
    | with_reducible apply State.launchPlain_keeps
    | with_reducible apply State.control_keeps
    | with_reducible intro _

theorem execCtxload_keeps {s₀ : State} (a : Nat) (s : State) (hk : Keeps s₀ s) : OutKeeps s₀ (execCtxload a s) := by
  unfold execCtxload
  repeat' first
    | with_reducible assumption
    | with_reducible apply State.launchPlain_keeps
    | with_reducible apply State.control_keeps
    | with_reducible intro _

theorem State.sealSession_keeps {s₀ : State} (s : State) (w : Nat) (hk : Keeps s₀ s) : Keeps s₀ (State.sealSession s w) := by
  unfold State.sealSession
  repeat' first
    | with_reducible assumption
    | with_reducible apply State.modSession_keeps

theorem State.postExport_keeps {s₀ : State} (s : State) (a : Nat) (f : Flight) (hk : Keeps s₀ s) : Keeps s₀ (State.postExport s a f) := by
  unfold State.postExport
  dsimp only
  repeat' first
    | with_reducible assumption
    | with_reducible exact Keeps.refl _
    | with_reducible apply State.modFlight_keeps
    | with_reducible apply State.modMover_keeps
    | with_reducible apply State.modAgent_keeps
    | ((with_reducible refine Keeps.upd rfl ?_ ?_ ?_ ?_); (first | with_reducible assumption | with_reducible exact Keeps.refl _ | with_reducible apply State.modFlight_keeps | with_reducible apply State.modMover_keeps | with_reducible apply State.modAgent_keeps | (split <;> skip)))
    | (intro h; exact h)
    | (intro h; simpa using h)
    | split
    | with_reducible intro _ _
    | with_reducible intro _
    | dsimp only

theorem State.takeWindow_keeps {s₀ : State} (s : State) (a : Nat) (f : Flight) (hk : Keeps s₀ s) : Keeps s₀ (State.takeWindow s a f) := by
  unfold State.takeWindow
  dsimp only
  repeat' first
    | with_reducible assumption
    | with_reducible exact Keeps.refl _
    | with_reducible apply Keeps.ite
    | with_reducible apply State.undefine_keeps
    | with_reducible apply State.modArray_keeps
    | ((with_reducible refine Keeps.upd rfl ?_ ?_ ?_ ?_); (first | with_reducible assumption | with_reducible exact Keeps.refl _ | with_reducible apply State.undefine_keeps | with_reducible apply State.modArray_keeps | with_reducible apply Keeps.ite | (split <;> skip)))
    | (intro h; exact h)
    | (intro h; simpa using h)
    | split
    | with_reducible intro _ _
    | with_reducible intro _
    | dsimp only

theorem State.launch_keeps {s₀ : State} (s : State) (a : Nat) (f : Flight) (hk : Keeps s₀ s) : Keeps s₀ (State.launch s a f) := by
  unfold State.launch
  dsimp only
  repeat' first
    | with_reducible assumption
    | with_reducible exact Keeps.refl _
    | with_reducible apply Keeps.ite
    | with_reducible apply State.takeWindow_keeps
    | with_reducible apply State.postExport_keeps
    | with_reducible apply State.advance_keeps
    | with_reducible apply State.takePins_keeps
    | with_reducible apply State.modSession_keeps
    | with_reducible apply State.modArray_keeps
    | ((with_reducible refine Keeps.upd rfl ?_ ?_ ?_ ?_); (first | with_reducible assumption | with_reducible exact Keeps.refl _ | with_reducible apply State.takeWindow_keeps | with_reducible apply State.postExport_keeps | with_reducible apply State.advance_keeps | with_reducible apply State.takePins_keeps | with_reducible apply State.modSession_keeps | with_reducible apply State.modArray_keeps | with_reducible apply Keeps.ite | (split <;> skip)))
    | (intro h; exact h)
    | (intro h; simpa using h)
    | split
    | with_reducible intro _ _
    | with_reducible intro _
    | dsimp only

theorem State.issueCompute_keeps {s₀ : State} (s : State) (a op : Nat) (hk : Keeps s₀ s) : OutKeeps s₀ (State.issueCompute s a op) := by
  unfold State.issueCompute
  repeat' first
    | with_reducible assumption
    | with_reducible apply OutKeeps.next
    | with_reducible apply State.launch_keeps
    | with_reducible apply State.sealSession_keeps
    | with_reducible apply State.faultIssue_keeps
    | split

theorem execMm_keeps {s₀ : State} (a : Nat) (s : State) (hk : Keeps s₀ s) : OutKeeps s₀ (execMm a s) := by
  unfold execMm
  repeat' first
    | with_reducible assumption
    | with_reducible apply State.issueCompute_keeps

theorem execMmc_keeps {s₀ : State} (a : Nat) (s : State) (hk : Keeps s₀ s) : OutKeeps s₀ (execMmc a s) := by
  unfold execMmc
  repeat' first
    | with_reducible assumption
    | with_reducible apply State.issueCompute_keeps

theorem execMmx_keeps {s₀ : State} (a : Nat) (s : State) (hk : Keeps s₀ s) : OutKeeps s₀ (execMmx a s) := by
  unfold execMmx
  repeat' first
    | with_reducible assumption
    | with_reducible apply State.issueCompute_keeps

theorem execConv_keeps {s₀ : State} (a : Nat) (s : State) (hk : Keeps s₀ s) : OutKeeps s₀ (execConv a s) := by
  unfold execConv
  repeat' first
    | with_reducible assumption
    | with_reducible apply State.issueCompute_keeps

theorem execConvf_keeps {s₀ : State} (a : Nat) (s : State) (hk : Keeps s₀ s) : OutKeeps s₀ (execConvf a s) := by
  unfold execConvf
  repeat' first
    | with_reducible assumption
    | with_reducible apply State.issueCompute_keeps

theorem execAttn_keeps {s₀ : State} (a : Nat) (s : State) (hk : Keeps s₀ s) : OutKeeps s₀ (execAttn a s) := by
  unfold execAttn
  repeat' first
    | with_reducible assumption
    | with_reducible apply State.issueCompute_keeps

theorem execAttnb_keeps {s₀ : State} (a : Nat) (s : State) (hk : Keeps s₀ s) : OutKeeps s₀ (execAttnb a s) := by
  unfold execAttnb
  repeat' first
    | with_reducible assumption
    | with_reducible apply State.issueCompute_keeps

theorem execPscore_keeps {s₀ : State} (a : Nat) (s : State) (hk : Keeps s₀ s) : OutKeeps s₀ (execPscore a s) := by
  unfold execPscore
  repeat' first
    | with_reducible assumption
    | with_reducible apply State.issueCompute_keeps

theorem execKvexp_keeps {s₀ : State} (a : Nat) (s : State) (hk : Keeps s₀ s) : OutKeeps s₀ (execKvexp a s) := by
  unfold execKvexp
  repeat' first
    | with_reducible assumption
    | with_reducible apply State.issueCompute_keeps

theorem execVec_keeps {s₀ : State} (a : Nat) (s : State) (hk : Keeps s₀ s) : OutKeeps s₀ (execVec a s) := by
  unfold execVec
  repeat' first
    | with_reducible assumption
    | with_reducible apply State.issueCompute_keeps

theorem execRow_keeps {s₀ : State} (a : Nat) (s : State) (hk : Keeps s₀ s) : OutKeeps s₀ (execRow a s) := by
  unfold execRow
  repeat' first
    | with_reducible assumption
    | with_reducible apply State.issueCompute_keeps

theorem execSfn_keeps {s₀ : State} (a : Nat) (s : State) (hk : Keeps s₀ s) : OutKeeps s₀ (execSfn a s) := by
  unfold execSfn
  repeat' first
    | with_reducible assumption
    | with_reducible apply State.issueCompute_keeps

theorem execSort_keeps {s₀ : State} (a : Nat) (s : State) (hk : Keeps s₀ s) : OutKeeps s₀ (execSort a s) := by
  unfold execSort
  repeat' first
    | with_reducible assumption
    | with_reducible apply State.issueCompute_keeps

theorem execRng_keeps {s₀ : State} (a : Nat) (s : State) (hk : Keeps s₀ s) : OutKeeps s₀ (execRng a s) := by
  unfold execRng
  repeat' first
    | with_reducible assumption
    | with_reducible apply State.issueCompute_keeps

theorem execPool_keeps {s₀ : State} (a : Nat) (s : State) (hk : Keeps s₀ s) : OutKeeps s₀ (execPool a s) := by
  unfold execPool
  repeat' first
    | with_reducible assumption
    | with_reducible apply State.issueCompute_keeps

theorem execResize_keeps {s₀ : State} (a : Nat) (s : State) (hk : Keeps s₀ s) : OutKeeps s₀ (execResize a s) := by
  unfold execResize
  repeat' first
    | with_reducible assumption
    | with_reducible apply State.issueCompute_keeps

theorem execCopy_keeps {s₀ : State} (a : Nat) (s : State) (hk : Keeps s₀ s) : OutKeeps s₀ (execCopy a s) := by
  unfold execCopy
  repeat' first
    | with_reducible assumption
    | with_reducible apply State.issueCompute_keeps

theorem execInsnOpcode_keeps {s₀ : State} (a : Nat) (s : State) (hk : Keeps s₀ s) : OutKeeps s₀ (execInsnOpcode a s) := by
  unfold execInsnOpcode
  repeat' first
    | with_reducible assumption
    | with_reducible apply OutKeeps.next
    | with_reducible apply State.faultIssue_keeps
    | split

theorem State.trdryWrites_keeps {s₀ : State} (s : State) (out : Nat) (d : List Byte × List (List Byte)) (hk : Keeps s₀ s) : Keeps s₀ (State.trdryWrites s out d) := by
  unfold State.trdryWrites
  repeat' first
    | with_reducible assumption
    | with_reducible exact Keeps.refl _
    | with_reducible apply State.wr_keeps
    | with_reducible apply State.fresh_keeps
    | with_reducible intro _ _
    | with_reducible intro _
    | dsimp only

theorem State.trdryJudged_keeps {s₀ : State} (s : State) (a w out insn : Nat) (r : Except (FaultInfo × Bool) Flight) (hk : Keeps s₀ s) : Keeps s₀ (State.trdryJudged s a w out insn r) := by
  unfold State.trdryJudged
  repeat' first
    | with_reducible assumption
    | with_reducible exact Keeps.refl _
    | with_reducible apply Keeps.ite
    | with_reducible apply State.trdryWrites_keeps
    | with_reducible apply State.issued_keeps
    | with_reducible apply State.faultIssue_keeps
    | with_reducible apply State.wr_keeps
    | with_reducible apply State.fresh_keeps
    | split
    | with_reducible intro _ _
    | with_reducible intro _
    | dsimp only

theorem State.trdryFrom_keeps {s₀ : State} (s : State) (a w : Nat) (x : Option FaultInfo) (hk : Keeps s₀ s) : Keeps s₀ (State.trdryFrom s a w x) := by
  unfold State.trdryFrom
  repeat' first
    | with_reducible assumption
    | with_reducible apply State.trdryJudged_keeps
    | with_reducible apply State.faultIssue_keeps
    | split

theorem State.trdry_keeps {s₀ : State} (s : State) (a w : Nat) (hk : Keeps s₀ s) : Keeps s₀ (State.trdry s a w) := by
  unfold State.trdry
  repeat' first
    | with_reducible assumption
    | with_reducible apply State.trdryFrom_keeps

theorem execTrdry_keeps {s₀ : State} (a : Nat) (s : State) (hk : Keeps s₀ s) : OutKeeps s₀ (execTrdry a s) := by
  unfold execTrdry
  repeat' first
    | with_reducible assumption
    | with_reducible apply OutKeeps.next
    | with_reducible apply OutKeeps.ite
    | with_reducible apply State.trdry_keeps
    | with_reducible apply State.control_keeps
    | with_reducible intro _

end Sys2Proof.Machine
end

