-- ==== Sys2Proof/Laws/KeepsRows.lean ====
section
/-! SUPPORT. What the operations of Machine/Rows.lean keep: one lemma each. -/
namespace Sys2Proof.Machine

theorem State.putBytes_keeps {s₀ : State} (s : State) (w : List (Nat × Byte)) (marks : List Nat) (hk : Keeps s₀ s) : OptKeeps s₀ (State.putBytes s w marks) := by
  unfold State.putBytes
  dsimp only
  repeat' first
    | with_reducible assumption
    | with_reducible exact Keeps.refl _
    | with_reducible exact OptKeeps.none _
    | with_reducible apply OptKeeps.some
    | with_reducible apply OptKeeps.ite
    | with_reducible apply OptKeeps.map
    | with_reducible apply Keeps.ite
    | with_reducible apply State.control_keeps
    | with_reducible apply State.portWrite_keeps
    | with_reducible apply State.wrPoison_keeps
    | with_reducible refine OptKeeps.elim ?_ ‹_ = some _›
    | split
    | with_reducible intro _ _
    | with_reducible intro _
    | dsimp only

theorem State.endTile_keeps {s₀ : State} (s : State) (a : Nat) (f : Flight) (r : TRow) (accs : TileAccs) (hk : Keeps s₀ s) : Keeps s₀ (State.endTile s a f r accs) := by
  unfold State.endTile
  dsimp only
  repeat' first
    | with_reducible assumption
    | with_reducible exact Keeps.refl _
    | with_reducible apply State.modFlight_keeps
    | with_reducible apply State.modArray_keeps
    | ((with_reducible refine Keeps.upd rfl ?_ ?_ ?_ ?_); (first | with_reducible assumption | with_reducible exact Keeps.refl _ | with_reducible apply State.modFlight_keeps | with_reducible apply State.modArray_keeps))
    | (intro h; exact h)
    | (intro h; simpa using h)
    | with_reducible intro _ _
    | with_reducible intro _
    | dsimp only

theorem State.storeTile_keeps {s₀ : State} (s : State) (a : Nat) (f : Flight) (r : TRow) (hk : Keeps s₀ s) : OptKeeps s₀ (State.storeTile s a f r) := by
  unfold State.storeTile
  dsimp only
  repeat' first
    | with_reducible assumption
    | with_reducible exact Keeps.refl _
    | with_reducible exact OptKeeps.none _
    | with_reducible apply OptKeeps.some
    | with_reducible apply OptKeeps.ite
    | with_reducible apply OptKeeps.map
    | with_reducible apply State.putBytes_keeps
    | with_reducible apply State.modFlight_keeps
    | with_reducible apply State.fresh_keeps
    | with_reducible apply State.modArray_keeps
    | with_reducible refine OptKeeps.elim ?_ ‹_ = some _›
    | ((with_reducible refine Keeps.upd rfl ?_ ?_ ?_ ?_); (first | with_reducible assumption | with_reducible exact Keeps.refl _ | with_reducible apply State.putBytes_keeps | with_reducible apply State.modFlight_keeps | with_reducible apply State.fresh_keeps | with_reducible apply State.modArray_keeps | with_reducible refine OptKeeps.elim ?_ ‹_ = some _›))
    | (intro h; exact h)
    | (intro h; simpa using h)
    | with_reducible intro _ _
    | with_reducible intro _
    | dsimp only

theorem State.loadShadow_keeps {s₀ : State} (s : State) (a : Nat) (hk : Keeps s₀ s) : Keeps s₀ (State.loadShadow s a) := by
  unfold State.loadShadow
  repeat' first
    | with_reducible assumption
    | with_reducible exact Keeps.refl _
    | with_reducible apply Keeps.ite
    | with_reducible apply State.modArray_keeps
    | ((with_reducible refine Keeps.upd rfl ?_ ?_ ?_ ?_); (first | with_reducible assumption | with_reducible exact Keeps.refl _ | with_reducible apply State.modArray_keeps | with_reducible apply Keeps.ite | (split <;> skip)))
    | (intro h; exact h)
    | (intro h; simpa using h)
    | split
    | with_reducible intro _ _
    | with_reducible intro _
    | dsimp only

theorem State.turnWeights_keeps {s₀ : State} (s : State) (a : Nat) (f : Flight) (r : TRow) (hk : Keeps s₀ s) : Keeps s₀ (State.turnWeights s a f r) := by
  unfold State.turnWeights
  repeat' first
    | with_reducible assumption
    | with_reducible exact Keeps.refl _
    | with_reducible apply State.modArray_keeps
    | ((with_reducible refine Keeps.upd rfl ?_ ?_ ?_ ?_); (first | with_reducible assumption | with_reducible exact Keeps.refl _ | with_reducible apply State.modArray_keeps))
    | (intro h; exact h)
    | (intro h; simpa using h)
    | with_reducible intro _ _
    | with_reducible intro _
    | dsimp only

theorem State.computeTile_keeps {s₀ : State} (s : State) (a : Nat) (f : Flight) (r : TRow) (hk : Keeps s₀ s) : Keeps s₀ (State.computeTile s a f r) := by
  unfold State.computeTile
  dsimp only
  repeat' first
    | with_reducible assumption
    | with_reducible exact Keeps.refl _
    | with_reducible apply Keeps.ite
    | with_reducible apply State.endTile_keeps
    | with_reducible apply State.modFlight_keeps
    | with_reducible apply State.modArray_keeps
    | ((with_reducible refine Keeps.upd rfl ?_ ?_ ?_ ?_); (first | with_reducible assumption | with_reducible exact Keeps.refl _ | with_reducible apply State.endTile_keeps | with_reducible apply State.modFlight_keeps | with_reducible apply State.modArray_keeps | with_reducible apply Keeps.ite | (split <;> skip)))
    | (intro h; exact h)
    | (intro h; simpa using h)
    | split
    | with_reducible intro _ _
    | with_reducible intro _
    | dsimp only

theorem State.faultFlight_keeps {s₀ : State} (s : State) (a : Nat) (f : Flight) (e : FaultInfo) (hk : Keeps s₀ s) : Keeps s₀ (State.faultFlight s a f e) := by
  unfold State.faultFlight
  repeat' first
    | with_reducible assumption
    | with_reducible exact Keeps.refl _
    | with_reducible apply State.faultArray_keeps
    | with_reducible intro _ _
    | with_reducible intro _
    | dsimp only

theorem State.completeRow_keeps {s₀ : State} (s : State) (a : Nat) (u : TUnit) (f : Flight) (r : TRow) (hk : Keeps s₀ s) : OptKeeps s₀ (State.completeRow s a u f r) := by
  unfold State.completeRow
  dsimp only
  repeat' first
    | with_reducible assumption
    | with_reducible exact Keeps.refl _
    | with_reducible exact OptKeeps.none _
    | with_reducible apply OptKeeps.some
    | with_reducible apply OptKeeps.ite
    | with_reducible apply OptKeeps.map
    | with_reducible apply OptKeeps.bindOf
    | with_reducible apply Keeps.ite
    | with_reducible apply State.faultFlight_keeps
    | with_reducible apply State.computeTile_keeps
    | with_reducible apply State.turnWeights_keeps
    | with_reducible apply State.loadShadow_keeps
    | with_reducible apply State.storeTile_keeps
    | with_reducible apply State.endTile_keeps
    | with_reducible apply State.modFlight_keeps
    | with_reducible apply State.progress_keeps
    | with_reducible refine OptKeeps.elim ?_ ‹_ = some _›
    | ((with_reducible refine Keeps.upd rfl ?_ ?_ ?_ ?_); (first | with_reducible assumption | with_reducible exact Keeps.refl _ | with_reducible apply State.faultFlight_keeps | with_reducible apply State.computeTile_keeps | with_reducible apply State.turnWeights_keeps | with_reducible apply State.loadShadow_keeps | with_reducible apply State.storeTile_keeps | with_reducible apply State.endTile_keeps | with_reducible apply State.modFlight_keeps | with_reducible apply State.progress_keeps | with_reducible refine OptKeeps.elim ?_ ‹_ = some _› | with_reducible apply Keeps.ite | (split <;> skip)))
    | (intro h; exact h)
    | (intro h; simpa using h)
    | split
    | with_reducible intro _ _
    | with_reducible intro _
    | dsimp only

theorem State.rowBoundary_keeps {s₀ : State} (s : State) (a : Nat) (hk : Keeps s₀ s) : Keeps s₀ (State.rowBoundary s a) := by
  unfold State.rowBoundary
  repeat' first
    | with_reducible assumption
    | with_reducible exact Keeps.refl _
    | with_reducible apply Keeps.ite
    | with_reducible apply State.modArray_keeps
    | ((with_reducible refine Keeps.upd rfl ?_ ?_ ?_ ?_); (first | with_reducible assumption | with_reducible exact Keeps.refl _ | with_reducible apply State.modArray_keeps | with_reducible apply Keeps.ite | (split <;> skip)))
    | (intro h; exact h)
    | (intro h; simpa using h)
    | split
    | with_reducible intro _ _
    | with_reducible intro _
    | dsimp only

theorem execTrellisRowComplete_keeps {s₀ : State} (a : Nat) (u : TUnit) (s : State) (hk : Keeps s₀ s) : OutKeeps s₀ (execTrellisRowComplete a u s) := by
  unfold execTrellisRowComplete
  repeat' first
    | with_reducible assumption
    | with_reducible exact Keeps.refl _
    | with_reducible apply OutKeeps.next
    | with_reducible apply OutKeeps.ite
    | with_reducible apply Keeps.ite
    | with_reducible apply State.rowBoundary_keeps
    | with_reducible apply State.completeRow_keeps
    | with_reducible refine OptKeeps.elim ?_ ‹_ = some _›
    | split
    | with_reducible intro _ _
    | with_reducible intro _
    | dsimp only

theorem State.finish_keeps {s₀ : State} (s : State) (a : Nat) (f : Flight) (hk : Keeps s₀ s) : Keeps s₀ (State.finish s a f) := by
  unfold State.finish
  dsimp only
  repeat' first
    | with_reducible assumption
    | with_reducible exact Keeps.refl _
    | with_reducible apply Keeps.ite
    | with_reducible apply State.settleArray_keeps
    | with_reducible apply State.settlePins_keeps
    | with_reducible apply State.endFlight_keeps
    | with_reducible apply State.undefine_keeps
    | with_reducible apply State.progress_keeps
    | with_reducible apply State.issueSignal_keeps
    | with_reducible apply State.modArray_keeps
    | ((with_reducible refine Keeps.upd rfl ?_ ?_ ?_ ?_); (first | with_reducible assumption | with_reducible exact Keeps.refl _ | with_reducible apply State.settleArray_keeps | with_reducible apply State.settlePins_keeps | with_reducible apply State.endFlight_keeps | with_reducible apply State.undefine_keeps | with_reducible apply State.progress_keeps | with_reducible apply State.issueSignal_keeps | with_reducible apply State.modArray_keeps | with_reducible apply Keeps.ite | (split <;> skip)))
    | (intro h; exact h)
    | (intro h; simpa using h)
    | split
    | with_reducible intro _ _
    | with_reducible intro _
    | dsimp only

theorem State.runWhole_keeps {s₀ : State} (s : State) (a : Nat) (f : Flight) (hk : Keeps s₀ s) : OptKeeps s₀ (State.runWhole s a f) := by
  unfold State.runWhole
  dsimp only
  repeat' first
    | with_reducible assumption
    | with_reducible exact Keeps.refl _
    | with_reducible exact OptKeeps.none _
    | with_reducible apply OptKeeps.some
    | with_reducible apply OptKeeps.ite
    | with_reducible apply OptKeeps.map
    | with_reducible apply Keeps.ite
    | with_reducible apply State.finish_keeps
    | with_reducible apply State.faultFlight_keeps
    | with_reducible apply State.putBytes_keeps
    | with_reducible apply State.fresh_keeps
    | with_reducible apply State.modArray_keeps
    | with_reducible refine OptKeeps.elim ?_ ‹_ = some _›
    | ((with_reducible refine Keeps.upd rfl ?_ ?_ ?_ ?_); (first | with_reducible assumption | with_reducible exact Keeps.refl _ | with_reducible apply State.finish_keeps | with_reducible apply State.faultFlight_keeps | with_reducible apply State.putBytes_keeps | with_reducible apply State.fresh_keeps | with_reducible apply State.modArray_keeps | with_reducible refine OptKeeps.elim ?_ ‹_ = some _› | with_reducible apply Keeps.ite | (split <;> skip)))
    | (intro h; exact h)
    | (intro h; simpa using h)
    | split
    | with_reducible intro _ _
    | with_reducible intro _
    | dsimp only

theorem State.runCopy_keeps {s₀ : State} (s : State) (a : Nat) (f : Flight) (hk : Keeps s₀ s) : OptKeeps s₀ (State.runCopy s a f) := by
  unfold State.runCopy
  dsimp only
  repeat' first
    | with_reducible assumption
    | with_reducible exact Keeps.refl _
    | with_reducible exact OptKeeps.none _
    | with_reducible apply OptKeeps.some
    | with_reducible apply OptKeeps.ite
    | with_reducible apply OptKeeps.map
    | with_reducible apply Keeps.ite
    | with_reducible apply State.finish_keeps
    | with_reducible apply State.putBytes_keeps
    | with_reducible apply State.issued_keeps
    | with_reducible apply State.copyAway_keeps
    | with_reducible apply State.fresh_keeps
    | with_reducible apply State.modArray_keeps
    | with_reducible refine OptKeeps.elim ?_ ‹_ = some _›
    | ((with_reducible refine Keeps.upd rfl ?_ ?_ ?_ ?_); (first | with_reducible assumption | with_reducible exact Keeps.refl _ | with_reducible apply State.finish_keeps | with_reducible apply State.putBytes_keeps | with_reducible apply State.issued_keeps | with_reducible apply State.copyAway_keeps | with_reducible apply State.fresh_keeps | with_reducible apply State.modArray_keeps | with_reducible refine OptKeeps.elim ?_ ‹_ = some _› | with_reducible apply Keeps.ite | (split <;> skip)))
    | (intro h; exact h)
    | (intro h; simpa using h)
    | split
    | with_reducible intro _ _
    | with_reducible intro _
    | dsimp only

theorem State.runTload_keeps {s₀ : State} (s : State) (a : Nat) (f : Flight) (hk : Keeps s₀ s) : Keeps s₀ (State.runTload s a f) := by
  unfold State.runTload
  dsimp only
  repeat' first
    | with_reducible assumption
    | with_reducible exact Keeps.refl _
    | with_reducible apply Keeps.ite
    | with_reducible apply State.finish_keeps
    | with_reducible apply State.faultFlight_keeps
    | with_reducible apply State.modFlight_keeps
    | with_reducible apply State.fresh_keeps
    | with_reducible apply State.modArray_keeps
    | ((with_reducible refine Keeps.upd rfl ?_ ?_ ?_ ?_); (first | with_reducible assumption | with_reducible exact Keeps.refl _ | with_reducible apply State.finish_keeps | with_reducible apply State.faultFlight_keeps | with_reducible apply State.modFlight_keeps | with_reducible apply State.fresh_keeps | with_reducible apply State.modArray_keeps | with_reducible apply Keeps.ite | (split <;> skip)))
    | (intro h; exact h)
    | (intro h; simpa using h)
    | split
    | with_reducible intro _ _
    | with_reducible intro _
    | dsimp only

theorem State.runContext_keeps {s₀ : State} (s : State) (a : Nat) (f : Flight) (hk : Keeps s₀ s) : Keeps s₀ (State.runContext s a f) := by
  unfold State.runContext
  dsimp only
  repeat' first
    | with_reducible assumption
    | with_reducible exact Keeps.refl _
    | with_reducible apply OptKeeps.map
    | with_reducible apply Keeps.ite
    | with_reducible apply State.finish_keeps
    | with_reducible apply State.faultFlight_keeps
    | with_reducible apply State.wrPoison_keeps
    | with_reducible apply State.ctxApply_keeps
    | with_reducible apply State.fresh_keeps
    | ((with_reducible refine Keeps.upd rfl ?_ ?_ ?_ ?_); (first | with_reducible assumption | with_reducible exact Keeps.refl _ | with_reducible apply State.finish_keeps | with_reducible apply State.faultFlight_keeps | with_reducible apply State.wrPoison_keeps | with_reducible apply State.ctxApply_keeps | with_reducible apply State.fresh_keeps | with_reducible apply Keeps.ite | (split <;> skip)))
    | (intro h; exact h)
    | (intro h; simpa using h)
    | split
    | with_reducible intro _ _
    | with_reducible intro _
    | dsimp only

theorem State.completeFlight_keeps {s₀ : State} (s : State) (a : Nat) (f : Flight) (hk : Keeps s₀ s) : OptKeeps s₀ (State.completeFlight s a f) := by
  unfold State.completeFlight
  dsimp only
  repeat' first
    | with_reducible assumption
    | with_reducible exact Keeps.refl _
    | with_reducible exact OptKeeps.none _
    | with_reducible apply OptKeeps.some
    | with_reducible apply OptKeeps.ite
    | with_reducible apply OptKeeps.map
    | with_reducible apply Keeps.ite
    | with_reducible apply State.runContext_keeps
    | with_reducible apply State.runTload_keeps
    | with_reducible apply State.runCopy_keeps
    | with_reducible apply State.runWhole_keeps
    | with_reducible apply State.finish_keeps
    | with_reducible apply State.rowBoundary_keeps
    | with_reducible apply State.postExport_keeps
    | with_reducible apply State.modArray_keeps
    | with_reducible refine OptKeeps.elim ?_ ‹_ = some _›
    | split
    | with_reducible intro _ _
    | with_reducible intro _
    | dsimp only

theorem execInsnComplete_keeps {s₀ : State} (a k : Nat) (s : State) (hk : Keeps s₀ s) : OutKeeps s₀ (execInsnComplete a k s) := by
  unfold execInsnComplete
  repeat' first
    | with_reducible assumption
    | with_reducible exact Keeps.refl _
    | with_reducible apply OutKeeps.next
    | with_reducible apply OutKeeps.ite
    | with_reducible apply Keeps.getD
    | with_reducible apply Keeps.ite
    | with_reducible apply State.completeFlight_keeps
    | with_reducible refine OptKeeps.elim ?_ ‹_ = some _›
    | split
    | with_reducible intro _ _
    | with_reducible intro _
    | dsimp only

theorem execTableSwap_keeps {s₀ : State} (a table : Nat) (s : State) (hk : Keeps s₀ s) : OutKeeps s₀ (execTableSwap a table s) := by
  unfold execTableSwap
  dsimp only
  repeat' first
    | with_reducible assumption
    | with_reducible exact Keeps.refl _
    | with_reducible apply OutKeeps.next
    | with_reducible apply OutKeeps.ite
    | with_reducible apply Keeps.ite
    | with_reducible apply State.finish_keeps
    | with_reducible apply State.modArray_keeps
    | split
    | with_reducible intro _ _
    | with_reducible intro _
    | dsimp only

end Sys2Proof.Machine
end

