-- ==== Sys2Proof/Laws/KeepsMovers.lean ====
section
/-! SUPPORT. What the operations of Machine/Movers.lean keep: one lemma each. -/
namespace Sys2Proof.Machine

theorem State.faultCmd_keeps {s₀ : State} (s : State) (m op : Nat) (f : FaultInfo) (hk : Keeps s₀ s) : Keeps s₀ (State.faultCmd s m op f) := by
  unfold State.faultCmd
  repeat' first
    | with_reducible assumption
    | with_reducible apply State.faultMover_keeps

theorem State.skipSlots_keeps {s₀ : State} (s : State) (i n : Nat) (hk : Keeps s₀ s) : Keeps s₀ (State.skipSlots s i n) := by
  unfold State.skipSlots
  repeat' first
    | with_reducible assumption
    | with_reducible apply State.modAgent_keeps

theorem State.moverStart_keeps {s₀ : State} (s : State) (m op : Nat) (act : Nat → Nat → State → Except FaultInfo State)
    (h : Keeps s₀ s) (hact : ∀ w ip t, Keeps s₀ t → ExKeeps s₀ (act w ip t)) : OutKeeps s₀ (s.moverStart m op act) := by
  unfold State.moverStart
  repeat' first
    | with_reducible assumption
    | with_reducible apply OutKeeps.next
    | with_reducible apply Keeps.ite
    | with_reducible apply State.startOr_keeps
    | with_reducible apply State.faultCmd_keeps
    | exact ExKeeps.elim (hact _ _ _ (State.skipSlots_keeps _ _ _ h)) ‹_›
    | split

theorem State.moverDone_keeps {s₀ : State} (s : State) (m : Nat) (hk : Keeps s₀ s) : Keeps s₀ (State.moverDone s m) := by
  unfold State.moverDone
  repeat' first
    | with_reducible assumption
    | with_reducible apply State.progress_keeps

theorem State.cmdSignal_keeps {s₀ : State} (s : State) (i gate inc : Nat) (release : Bool) (node : Option Nat) (hk : Keeps s₀ s) : Keeps s₀ (State.cmdSignal s i gate inc release node) := by
  unfold State.cmdSignal
  repeat' first
    | with_reducible assumption
    | with_reducible apply State.issueSignal_keeps

theorem State.startCopy_keeps {s₀ : State} (s : State) (m w addr : Nat) (hk : Keeps s₀ s) : ExKeeps s₀ (State.startCopy s m w addr) := by
  unfold State.startCopy
  dsimp only
  repeat' first
    | with_reducible assumption
    | with_reducible exact ExKeeps.error _ _
    | with_reducible apply ExKeeps.ok
    | with_reducible apply State.cmdSignal_keeps
    | with_reducible apply State.moverDone_keeps
    | with_reducible apply State.takePins_keeps
    | with_reducible apply State.modMover_keeps
    | split

theorem execMoverCopy_keeps {s₀ : State} (m : Nat) (s : State) (hk : Keeps s₀ s) : OutKeeps s₀ (execMoverCopy m s) := by
  unfold execMoverCopy
  repeat' first
    | with_reducible assumption
    | with_reducible apply State.startCopy_keeps
    | with_reducible apply State.moverStart_keeps
    | with_reducible intro _ _

theorem State.copyDone_keeps {s₀ : State} (s : State) (m w src dst : Nat) (pins : List Nat) (hk : Keeps s₀ s) : OptKeeps s₀ (State.copyDone s m w src dst pins) := by
  unfold State.copyDone
  dsimp only
  repeat' first
    | with_reducible assumption
    | with_reducible exact Keeps.refl _
    | with_reducible exact OptKeeps.none _
    | with_reducible apply OptKeeps.some
    | with_reducible apply OptKeeps.ite
    | with_reducible apply OptKeeps.map
    | with_reducible apply Keeps.ite
    | with_reducible apply State.cmdSignal_keeps
    | with_reducible apply State.moverDone_keeps
    | with_reducible apply State.putBytes_keeps
    | with_reducible apply State.copyAway_keeps
    | with_reducible apply State.releasePins_keeps
    | with_reducible apply State.fresh_keeps
    | with_reducible apply State.modMover_keeps
    | with_reducible refine OptKeeps.elim ?_ ‹_ = some _›
    | ((with_reducible refine Keeps.upd rfl ?_ ?_ ?_ ?_); (first | with_reducible assumption | with_reducible exact Keeps.refl _ | with_reducible apply State.cmdSignal_keeps | with_reducible apply State.moverDone_keeps | with_reducible apply State.putBytes_keeps | with_reducible apply State.copyAway_keeps | with_reducible apply State.releasePins_keeps | with_reducible apply State.fresh_keeps | with_reducible apply State.modMover_keeps | with_reducible refine OptKeeps.elim ?_ ‹_ = some _› | with_reducible apply Keeps.ite | (split <;> skip)))
    | (intro h; exact h)
    | (intro h; simpa using h)
    | split
    | with_reducible intro _ _
    | with_reducible intro _
    | dsimp only

theorem State.placementDone_keeps {s₀ : State} (s : State) (m op addr : Nat) (r : Report) (hk : Keeps s₀ s) : Keeps s₀ (State.placementDone s m op addr r) := by
  unfold State.placementDone
  repeat' first
    | with_reducible assumption
    | with_reducible exact Keeps.refl _
    | with_reducible apply State.moverDone_keeps
    | with_reducible apply State.faultMover_keeps
    | with_reducible apply State.report_keeps
    | with_reducible apply State.modMover_keeps
    | ((with_reducible refine Keeps.upd rfl ?_ ?_ ?_ ?_); (first | with_reducible assumption | with_reducible exact Keeps.refl _ | with_reducible apply State.moverDone_keeps | with_reducible apply State.faultMover_keeps | with_reducible apply State.report_keeps | with_reducible apply State.modMover_keeps | (split <;> skip)))
    | (intro h; exact h)
    | (intro h; simpa using h)
    | split
    | with_reducible intro _ _
    | with_reducible intro _
    | dsimp only

theorem State.zeroDone_keeps {s₀ : State} (s : State) (m addr : Nat) (r : Report) (object : Nat) (hk : Keeps s₀ s) : Keeps s₀ (State.zeroDone s m addr r object) := by
  unfold State.zeroDone
  dsimp only
  repeat' first
    | with_reducible assumption
    | with_reducible exact Keeps.refl _
    | with_reducible apply Keeps.ite
    | with_reducible apply State.placementDone_keeps
    | ((with_reducible refine Keeps.upd rfl ?_ ?_ ?_ ?_); (first | with_reducible assumption | with_reducible exact Keeps.refl _ | with_reducible apply State.placementDone_keeps | with_reducible apply Keeps.ite | (split <;> skip)))
    | (intro h; exact h)
    | (intro h; exact Mem.zero_wf h _ _)
    | (intro h; simpa using h)
    | split
    | with_reducible intro _ _
    | with_reducible intro _
    | dsimp only

theorem execMoverCopyComplete_keeps {s₀ : State} (m : Nat) (s : State) (hk : Keeps s₀ s) : OutKeeps s₀ (execMoverCopyComplete m s) := by
  unfold execMoverCopyComplete
  repeat' first
    | with_reducible assumption
    | with_reducible exact Keeps.refl _
    | with_reducible apply OutKeeps.next
    | with_reducible apply OutKeeps.ite
    | with_reducible apply Keeps.getD
    | with_reducible apply Keeps.ite
    | with_reducible apply State.zeroDone_keeps
    | with_reducible apply State.copyDone_keeps
    | with_reducible apply State.faultMover_keeps
    | with_reducible refine OptKeeps.elim ?_ ‹_ = some _›
    | split
    | with_reducible intro _ _
    | with_reducible intro _
    | dsimp only

theorem State.atOnce_keeps {s₀ : State} (s : State) (m w outcome : Nat) (hk : Keeps s₀ s) : Keeps s₀ (State.atOnce s m w outcome) := by
  unfold State.atOnce
  repeat' first
    | with_reducible assumption
    | with_reducible apply State.moverDone_keeps
    | with_reducible apply State.report_keeps

theorem State.holdEvict_keeps {s₀ : State} (s : State) (m w i : Nat) (st : ObjState) (hk : Keeps s₀ s) : Keeps s₀ (State.holdEvict s m w i st) := by
  unfold State.holdEvict
  repeat' first
    | with_reducible assumption
    | with_reducible apply State.moverDone_keeps
    | with_reducible apply State.modObj_keeps

theorem State.moveCharge_keeps {s₀ : State} (s : State) (o : Obj) (d : Nat) (hk : Keeps s₀ s) : Keeps s₀ (State.moveCharge s o d) := by
  unfold State.moveCharge
  repeat' first
    | with_reducible assumption
    | with_reducible exact Keeps.refl _
    | with_reducible apply Keeps.ite
    | with_reducible apply State.chargeTo_keeps
    | with_reducible apply State.uncharge_keeps
    | split
    | with_reducible intro _ _
    | with_reducible intro _
    | dsimp only

theorem State.promoteFrom_keeps {s₀ : State} (s : State) (m w addr h i d base : Nat) (o : Obj) (hk : Keeps s₀ s) : ExKeeps s₀ (State.promoteFrom s m w addr h i d base o) := by
  unfold State.promoteFrom
  with_reducible refine ExKeeps.ite (ExKeeps.error _ _) ?_
  cases o.st <;> dsimp only
  all_goals repeat' first
    | with_reducible assumption
    | with_reducible exact ExKeeps.error _ _
    | with_reducible apply ExKeeps.ok
    | with_reducible apply State.atOnce_keeps
    | with_reducible apply State.moverDone_keeps
    | with_reducible apply State.placeExtent_keeps
    | with_reducible apply State.moveCharge_keeps
    | with_reducible apply State.modObj_keeps
    | with_reducible apply State.modMover_keeps
    | split

theorem State.promote_keeps {s₀ : State} (s : State) (m w addr : Nat) (hk : Keeps s₀ s) : ExKeeps s₀ (State.promote s m w addr) := by
  unfold State.promote
  split
  · exact ExKeeps.error _ _
  · exact State.promoteFrom_keeps _ _ _ _ _ _ _ _ _ hk

theorem execPromote_keeps {s₀ : State} (m : Nat) (s : State) (hk : Keeps s₀ s) : OutKeeps s₀ (execPromote m s) := by
  unfold execPromote
  repeat' first
    | with_reducible assumption
    | with_reducible apply State.promote_keeps
    | with_reducible apply State.moverStart_keeps
    | with_reducible intro _ _

theorem State.evict_keeps {s₀ : State} (s : State) (m w : Nat) (hk : Keeps s₀ s) : ExKeeps s₀ (State.evict s m w) := by
  unfold State.evict
  dsimp only
  repeat' first
    | with_reducible assumption
    | with_reducible exact ExKeeps.error _ _
    | with_reducible apply ExKeeps.ok
    | with_reducible apply State.holdEvict_keeps
    | with_reducible apply State.atOnce_keeps
    | with_reducible apply State.makeAbsent_keeps
    | split

theorem execEvict_keeps {s₀ : State} (m : Nat) (s : State) (hk : Keeps s₀ s) : OutKeeps s₀ (execEvict m s) := by
  unfold execEvict
  repeat' first
    | with_reducible assumption
    | with_reducible apply State.evict_keeps
    | with_reducible apply State.moverStart_keeps
    | with_reducible intro _ _

theorem State.allocFrom_keeps {s₀ : State} (s : State) (m w addr h i d base : Nat) (o : Obj) (hk : Keeps s₀ s) : ExKeeps s₀ (State.allocFrom s m w addr h i d base o) := by
  unfold State.allocFrom
  with_reducible refine ExKeeps.ite (ExKeeps.error _ _) ?_
  cases o.st <;> dsimp only
  all_goals repeat' first
    | with_reducible assumption
    | with_reducible exact ExKeeps.error _ _
    | with_reducible apply ExKeeps.ok
    | with_reducible apply State.atOnce_keeps
    | with_reducible apply State.placeExtent_keeps
    | with_reducible apply State.modMover_keeps
    | split

theorem State.alloc_keeps {s₀ : State} (s : State) (m w addr : Nat) (hk : Keeps s₀ s) : ExKeeps s₀ (State.alloc s m w addr) := by
  unfold State.alloc
  split
  · exact ExKeeps.error _ _
  · exact State.allocFrom_keeps _ _ _ _ _ _ _ _ _ hk

theorem execAlloc_keeps {s₀ : State} (m : Nat) (s : State) (hk : Keeps s₀ s) : OutKeeps s₀ (execAlloc m s) := by
  unfold execAlloc
  repeat' first
    | with_reducible assumption
    | with_reducible apply State.alloc_keeps
    | with_reducible apply State.moverStart_keeps
    | with_reducible intro _ _

theorem State.copyStripes_keeps {s₀ : State} (s : State) (i : Nat) (hk : Keeps s₀ s) : Keeps s₀ (State.copyStripes s i) := by
  unfold State.copyStripes
  dsimp only
  repeat' first
    | with_reducible assumption
    | with_reducible apply State.wrPoison_keeps
    | with_reducible apply State.fresh_keeps

theorem execPromotionCopyDone_keeps {s₀ : State} (m : Nat) (s : State) (hk : Keeps s₀ s) : OutKeeps s₀ (execPromotionCopyDone m s) := by
  unfold execPromotionCopyDone
  repeat' first
    | with_reducible assumption
    | with_reducible exact Keeps.refl _
    | with_reducible apply OutKeeps.next
    | with_reducible apply OutKeeps.ite
    | with_reducible apply Keeps.ite
    | with_reducible apply State.copyStripes_keeps
    | with_reducible apply State.promote_keeps
    | with_reducible apply State.placementDone_keeps
    | with_reducible apply State.promotionDone_keeps
    | with_reducible refine ExKeeps.elim ?_ ‹_ = Except.ok _›
    | split
    | with_reducible intro _ _
    | with_reducible intro _
    | dsimp only

theorem execMoverGsig_keeps {s₀ : State} (m : Nat) (s : State) (hk : Keeps s₀ s) : OutKeeps s₀ (execMoverGsig m s) := by
  unfold execMoverGsig
  repeat' first
    | with_reducible assumption
    | with_reducible apply ExKeeps.ok
    | with_reducible apply State.cmdSignal_keeps
    | with_reducible apply State.moverDone_keeps
    | with_reducible apply State.moverStart_keeps
    | with_reducible intro _ _

theorem execMoverGwait_keeps {s₀ : State} (m : Nat) (s : State) (hk : Keeps s₀ s) : OutKeeps s₀ (execMoverGwait m s) := by
  unfold execMoverGwait
  dsimp only
  repeat' first
    | with_reducible assumption
    | with_reducible apply ExKeeps.ok
    | with_reducible apply Keeps.ite
    | with_reducible apply State.moverDone_keeps
    | with_reducible apply State.moverStart_keeps
    | with_reducible apply State.issueWait_keeps
    | with_reducible intro _ _

theorem execMoverFence_keeps {s₀ : State} (m : Nat) (s : State) (hk : Keeps s₀ s) : OutKeeps s₀ (execMoverFence m s) := by
  unfold execMoverFence
  repeat' first
    | with_reducible assumption
    | with_reducible apply ExKeeps.ok
    | with_reducible apply State.moverStart_keeps
    | with_reducible apply State.modAgent_keeps
    | with_reducible intro _ _

theorem execMoverEnd_keeps {s₀ : State} (m : Nat) (s : State) (hk : Keeps s₀ s) : OutKeeps s₀ (execMoverEnd m s) := by
  unfold execMoverEnd
  repeat' first
    | with_reducible assumption
    | with_reducible apply ExKeeps.ok
    | with_reducible apply State.moverDone_keeps
    | with_reducible apply State.moverStart_keeps
    | with_reducible apply State.modAgent_keeps
    | with_reducible intro _ _

theorem execMoverOpcode_keeps {s₀ : State} (m : Nat) (s : State) (hk : Keeps s₀ s) : OutKeeps s₀ (execMoverOpcode m s) := by
  unfold execMoverOpcode
  dsimp only
  repeat' first
    | with_reducible assumption
    | with_reducible apply OutKeeps.next
    | with_reducible apply State.faultCmd_keeps
    | split

theorem execXserve_keeps {s₀ : State} (m : Nat) (s : State) (hk : Keeps s₀ s) : OutKeeps s₀ (execXserve m s) := by
  unfold execXserve
  dsimp only
  repeat' first
    | with_reducible assumption
    | with_reducible apply ExKeeps.ok
    | with_reducible apply State.moverStart_keeps
    | with_reducible apply State.modMover_keeps
    | with_reducible intro _ _

theorem State.sendFrame_keeps {s₀ : State} (s : State) (m p : Nat) (j : ExportJob) (frame : List Byte) (hk : Keeps s₀ s) : Keeps s₀ (State.sendFrame s m p j frame) := by
  unfold State.sendFrame
  dsimp only
  repeat' first
    | with_reducible assumption
    | with_reducible exact Keeps.refl _
    | with_reducible apply State.send_keeps
    | with_reducible apply Keeps.foldl_trans
    | ((with_reducible refine Keeps.upd rfl ?_ ?_ ?_ ?_); (first | with_reducible assumption | with_reducible exact Keeps.refl _ | with_reducible apply State.send_keeps | with_reducible apply Keeps.foldl_trans))
    | (intro h; exact h)
    | (intro h; simpa using h)
    | with_reducible intro _ _
    | with_reducible intro _
    | dsimp only

theorem State.jobDone_keeps {s₀ : State} (s : State) (j : ExportJob) (hk : Keeps s₀ s) : Keeps s₀ (State.jobDone s j) := by
  unfold State.jobDone
  dsimp only
  repeat' first
    | ((with_reducible refine Keeps.upd rfl ?_ ?_ ?_ ?_); (first | with_reducible assumption | with_reducible exact Keeps.refl _ | with_reducible apply State.finish_keeps | with_reducible apply State.releasePins_keeps | with_reducible apply State.modSession_keeps | (split <;> skip)))
    | (intro h; exact h)

theorem State.servedFrame_keeps {s₀ : State} (s : State) (m addr left timeout : Nat) (hk : Keeps s₀ s) : Keeps s₀ (State.servedFrame s m addr left timeout) := by
  unfold State.servedFrame
  repeat' first
    | with_reducible assumption
    | with_reducible apply State.moverDone_keeps
    | with_reducible apply State.modMover_keeps

theorem State.frameSent_keeps {s₀ : State} (s : State) (m : Nat) (hk : Keeps s₀ s) : Keeps s₀ (State.frameSent s m) := by
  unfold State.frameSent
  dsimp only
  repeat' first
    | with_reducible assumption
    | with_reducible exact Keeps.refl _
    | with_reducible apply Keeps.ite
    | with_reducible apply State.servedFrame_keeps
    | with_reducible apply State.jobDone_keeps
    | with_reducible apply State.modMover_keeps
    | ((with_reducible refine Keeps.upd rfl ?_ ?_ ?_ ?_); (first | with_reducible assumption | with_reducible exact Keeps.refl _ | with_reducible apply State.servedFrame_keeps | with_reducible apply State.jobDone_keeps | with_reducible apply State.modMover_keeps | with_reducible apply Keeps.ite | (split <;> skip)))
    | (intro h; exact h)
    | (intro h; simpa using h)
    | split
    | with_reducible intro _ _
    | with_reducible intro _
    | dsimp only

theorem State.settleFrames_keeps {s₀ : State} (s : State) (p : Nat) (hk : Keeps s₀ s) : Keeps s₀ (State.settleFrames s p) := by
  unfold State.settleFrames
  repeat' first
    | with_reducible assumption
    | with_reducible exact Keeps.refl _
    | with_reducible apply Keeps.ite
    | with_reducible apply State.frameSent_keeps
    | with_reducible apply Keeps.foldl_trans
    | split
    | with_reducible intro _ _
    | with_reducible intro _
    | dsimp only

theorem execExportFrame_keeps {s₀ : State} (m : Nat) (s : State) (hk : Keeps s₀ s) : OutKeeps s₀ (execExportFrame m s) := by
  unfold execExportFrame
  dsimp only
  repeat' first
    | with_reducible assumption
    | with_reducible exact Keeps.refl _
    | with_reducible apply OutKeeps.next
    | with_reducible apply OutKeeps.ite
    | with_reducible apply Keeps.ite
    | with_reducible apply State.frameSent_keeps
    | with_reducible apply State.sendFrame_keeps
    | with_reducible apply State.faultMover_keeps
    | with_reducible apply State.endJob_keeps
    | with_reducible apply State.setJobs_keeps
    | with_reducible apply State.logEvent_keeps
    | with_reducible apply State.fresh_keeps
    | with_reducible apply State.modMover_keeps
    | ((with_reducible refine Keeps.upd rfl ?_ ?_ ?_ ?_); (first | with_reducible assumption | with_reducible exact Keeps.refl _ | with_reducible apply State.frameSent_keeps | with_reducible apply State.sendFrame_keeps | with_reducible apply State.faultMover_keeps | with_reducible apply State.endJob_keeps | with_reducible apply State.setJobs_keeps | with_reducible apply State.logEvent_keeps | with_reducible apply State.fresh_keeps | with_reducible apply State.modMover_keeps | with_reducible apply Keeps.ite | (split <;> skip)))
    | (intro h; exact h)
    | (intro h; simpa using h)
    | split
    | with_reducible intro _ _
    | with_reducible intro _
    | dsimp only

theorem execXserveTimeout_keeps {s₀ : State} (m : Nat) (now : Word64) (s : State) (hk : Keeps s₀ s) : OutKeeps s₀ (execXserveTimeout m now s) := by
  unfold execXserveTimeout
  repeat' first
    | with_reducible assumption
    | with_reducible apply OutKeeps.next
    | with_reducible apply State.faultMover_keeps
    | with_reducible apply State.at__keeps
    | with_reducible refine OptKeeps.elim ?_ ‹_ = some _›
    | split

end Sys2Proof.Machine
end

