-- ==== Sys2Proof/Laws/KeepsCodecs.lean ====
section
/-! SUPPORT. What the operations of Machine/Codecs.lean keep: one lemma each. -/
namespace Sys2Proof.Machine

theorem State.faultCdCmd_keeps {s₀ : State} (s : State) (c op : Nat) (f : FaultInfo) (hk : Keeps s₀ s) : Keeps s₀ (State.faultCdCmd s c op f) := by
  unfold State.faultCdCmd
  repeat' first
    | with_reducible assumption
    | with_reducible apply State.faultCodec_keeps

theorem State.ctxWaited_keeps {s₀ : State} (s : State) (c : Nat) (hk : Keeps s₀ s) : Keeps s₀ (State.ctxWaited s c) := by
  unfold State.ctxWaited
  repeat' first
    | with_reducible assumption
    | with_reducible exact Keeps.refl _
    | with_reducible apply State.modAgent_keeps
    | split
    | with_reducible intro _ _
    | with_reducible intro _
    | dsimp only

theorem State.codecStart_keeps {s₀ : State} (s : State) (c op : Nat)
    (act : Nat → Nat → State → Except FaultInfo (Option State)) (h : Keeps s₀ s)
    (hact : ∀ w ip t, Keeps s₀ t → HeldKeeps s₀ (act w ip t)) : OutKeeps s₀ (s.codecStart c op act) := by
  unfold State.codecStart
  dsimp only
  repeat' first
    | with_reducible assumption
    | with_reducible apply OutKeeps.next
    | with_reducible apply Keeps.ite
    | with_reducible apply State.startOr_keeps
    | with_reducible apply State.faultCdCmd_keeps
    | with_reducible apply State.modCodecCore_keeps
    | exact hact _ _ _ (State.modCodecCore_keeps _ _ _ (State.skipSlots_keeps _ _ _ (State.ctxWaited_keeps _ _ h))) _ ‹_›
    | split

theorem State.codecDone_keeps {s₀ : State} (s : State) (c : Nat) (en : Bool) (gate inc : Nat) (hk : Keeps s₀ s) : Keeps s₀ (State.codecDone s c en gate inc) := by
  unfold State.codecDone
  dsimp only
  repeat' first
    | with_reducible assumption
    | with_reducible apply Keeps.ite
    | with_reducible apply State.cmdSignal_keeps
    | with_reducible apply State.progress_keeps

theorem execCodecOpen_keeps {s₀ : State} (c : Nat) (s : State) (hk : Keeps s₀ s) : OutKeeps s₀ (execCodecOpen c s) := by
  unfold execCodecOpen
  dsimp only
  repeat' first
    | with_reducible assumption
    | with_reducible exact HeldKeeps.error _ _
    | with_reducible apply HeldKeeps.ok
    | with_reducible apply State.codecDone_keeps
    | with_reducible apply State.codecStart_keeps
    | with_reducible apply State.takePins_keeps
    | with_reducible apply State.modCtx_keeps
    | split
    | with_reducible intro _ _

theorem execCodecClose_keeps {s₀ : State} (c : Nat) (s : State) (hk : Keeps s₀ s) : OutKeeps s₀ (execCodecClose c s) := by
  unfold execCodecClose
  dsimp only
  repeat' first
    | with_reducible assumption
    | with_reducible exact HeldKeeps.error _ _
    | with_reducible exact HeldKeeps.held _
    | with_reducible apply HeldKeeps.ok
    | with_reducible apply State.codecDone_keeps
    | with_reducible apply State.codecStart_keeps
    | with_reducible apply State.releasePins_keeps
    | with_reducible apply State.modCtx_keeps
    | split
    | with_reducible intro _ _

theorem State.beginFrame_keeps {s₀ : State} (s : State) (c w : Nat) (pins : List Nat) (hk : Keeps s₀ s) : Keeps s₀ (State.beginFrame s c w pins) := by
  unfold State.beginFrame
  repeat' first
    | with_reducible assumption
    | with_reducible apply State.takePins_keeps
    | with_reducible apply State.modCtx_keeps
    | with_reducible apply State.modCodecCore_keeps

theorem execEncFrame_keeps {s₀ : State} (c : Nat) (s : State) (hk : Keeps s₀ s) : OutKeeps s₀ (execEncFrame c s) := by
  unfold execEncFrame
  dsimp only
  repeat' first
    | with_reducible assumption
    | with_reducible exact Keeps.refl _
    | with_reducible apply OutKeeps.next
    | with_reducible apply OutKeeps.ite
    | with_reducible exact HeldKeeps.error _ _
    | with_reducible exact HeldKeeps.held _
    | with_reducible apply HeldKeeps.ok
    | with_reducible apply Keeps.ite
    | with_reducible apply State.beginFrame_keeps
    | with_reducible apply State.codecStart_keeps
    | with_reducible apply State.modCodecCore_keeps
    | ((with_reducible refine Keeps.upd rfl ?_ ?_ ?_ ?_); (first | with_reducible assumption | with_reducible exact Keeps.refl _ | with_reducible apply State.beginFrame_keeps | with_reducible apply State.codecStart_keeps | with_reducible apply State.modCodecCore_keeps | with_reducible apply Keeps.ite | (split <;> skip)))
    | (intro h; exact h)
    | (intro h; simpa using h)
    | split
    | with_reducible intro _ _
    | with_reducible intro _
    | dsimp only

theorem execDecFrame_keeps {s₀ : State} (c : Nat) (s : State) (hk : Keeps s₀ s) : OutKeeps s₀ (execDecFrame c s) := by
  unfold execDecFrame
  dsimp only
  repeat' first
    | with_reducible assumption
    | with_reducible exact HeldKeeps.error _ _
    | with_reducible exact HeldKeeps.held _
    | with_reducible apply HeldKeeps.ok
    | with_reducible apply State.beginFrame_keeps
    | with_reducible apply State.codecStart_keeps
    | split
    | with_reducible intro _ _

theorem execCodecCtxBusy_keeps {s₀ : State} (c : Nat) (now : Word64) (s : State) (hk : Keeps s₀ s) : OutKeeps s₀ (execCodecCtxBusy c now s) := by
  unfold execCodecCtxBusy
  dsimp only
  repeat' first
    | with_reducible assumption
    | with_reducible apply OutKeeps.next
    | with_reducible apply State.faultCdCmd_keeps
    | with_reducible apply State.at__keeps
    | with_reducible refine OptKeeps.elim ?_ ‹_ = some _›
    | split

theorem State.endFrame_keeps {s₀ : State} (s : State) (c w : Nat) (x : Ctx) (keep : List Nat) (report : List Byte) (hk : Keeps s₀ s) : Keeps s₀ (State.endFrame s c w x keep report) := by
  unfold State.endFrame
  dsimp only
  repeat' first
    | with_reducible assumption
    | with_reducible apply Keeps.ite
    | with_reducible apply State.codecDone_keeps
    | with_reducible apply State.releasePins_keeps
    | with_reducible apply State.wr_keeps
    | with_reducible apply State.modCtx_keeps
    | with_reducible apply State.modCodecCore_keeps

theorem State.encDone_keeps {s₀ : State} (s : State) (c w : Nat) (hk : Keeps s₀ s) : Keeps s₀ (State.encDone s c w) := by
  unfold State.encDone
  dsimp only
  repeat' first
    | ((with_reducible refine Keeps.upd rfl ?_ ?_ ?_ ?_); (first | with_reducible assumption | with_reducible exact Keeps.refl _ | with_reducible apply State.endFrame_keeps | with_reducible apply State.faultCodec_keeps | with_reducible apply State.releasePins_keeps | with_reducible apply State.undefine_keeps | with_reducible apply State.wr_keeps | with_reducible apply Keeps.ite | (split <;> skip)))
    | (intro h; exact h)

theorem State.decDone_keeps {s₀ : State} (s : State) (c w : Nat) (hk : Keeps s₀ s) : Keeps s₀ (State.decDone s c w) := by
  unfold State.decDone
  dsimp only
  repeat' first
    | ((with_reducible refine Keeps.upd rfl ?_ ?_ ?_ ?_); (first | with_reducible assumption | with_reducible exact Keeps.refl _ | with_reducible apply State.endFrame_keeps | with_reducible apply State.faultCodec_keeps | with_reducible apply State.undefine_keeps | with_reducible apply State.wr_keeps | with_reducible apply State.modCtx_keeps | with_reducible apply Keeps.ite | (split <;> skip)))
    | (intro h; exact h)

theorem execFrameComplete_keeps {s₀ : State} (c : Nat) (s : State) (hk : Keeps s₀ s) : OutKeeps s₀ (execFrameComplete c s) := by
  unfold execFrameComplete
  repeat' first
    | with_reducible assumption
    | with_reducible exact Keeps.refl _
    | with_reducible apply OutKeeps.next
    | with_reducible apply OutKeeps.ite
    | with_reducible apply Keeps.ite
    | with_reducible apply State.decDone_keeps
    | with_reducible apply State.encDone_keeps
    | with_reducible apply State.faultCodec_keeps
    | split
    | with_reducible intro _ _
    | with_reducible intro _
    | dsimp only

theorem execCodecGsig_keeps {s₀ : State} (c : Nat) (s : State) (hk : Keeps s₀ s) : OutKeeps s₀ (execCodecGsig c s) := by
  unfold execCodecGsig
  repeat' first
    | with_reducible assumption
    | with_reducible apply HeldKeeps.ok
    | with_reducible apply State.codecStart_keeps
    | with_reducible apply State.cmdSignal_keeps
    | with_reducible apply State.progress_keeps
    | with_reducible intro _ _

theorem execCodecGwait_keeps {s₀ : State} (c : Nat) (s : State) (hk : Keeps s₀ s) : OutKeeps s₀ (execCodecGwait c s) := by
  unfold execCodecGwait
  dsimp only
  repeat' first
    | with_reducible assumption
    | with_reducible apply HeldKeeps.ok
    | with_reducible apply Keeps.ite
    | with_reducible apply State.codecStart_keeps
    | with_reducible apply State.progress_keeps
    | with_reducible apply State.issueWait_keeps
    | with_reducible intro _ _

theorem execCodecFence_keeps {s₀ : State} (c : Nat) (s : State) (hk : Keeps s₀ s) : OutKeeps s₀ (execCodecFence c s) := by
  unfold execCodecFence
  repeat' first
    | with_reducible assumption
    | with_reducible apply HeldKeeps.ok
    | with_reducible apply State.codecStart_keeps
    | with_reducible apply State.modAgent_keeps
    | with_reducible intro _ _

theorem execCodecEnd_keeps {s₀ : State} (c : Nat) (s : State) (hk : Keeps s₀ s) : OutKeeps s₀ (execCodecEnd c s) := by
  unfold execCodecEnd
  repeat' first
    | with_reducible assumption
    | with_reducible apply HeldKeeps.ok
    | with_reducible apply State.codecStart_keeps
    | with_reducible apply State.progress_keeps
    | with_reducible apply State.modAgent_keeps
    | with_reducible intro _ _

theorem execCodecOpcode_keeps {s₀ : State} (c : Nat) (s : State) (hk : Keeps s₀ s) : OutKeeps s₀ (execCodecOpcode c s) := by
  unfold execCodecOpcode
  dsimp only
  repeat' first
    | with_reducible assumption
    | with_reducible apply OutKeeps.next
    | with_reducible apply State.faultCdCmd_keeps
    | split

end Sys2Proof.Machine
end

