-- ==== Sys2Proof/Laws/KeepsFirmware.lean ====
section
/-! SUPPORT. What the operations of Machine/Firmware.lean keep: one lemma each. -/
namespace Sys2Proof.Machine

theorem State.railsUpTo_keeps {s₀ : State} (s : State) (g : Nat) (hk : Keeps s₀ s) : Keeps s₀ (State.railsUpTo s g) := by
  unfold State.railsUpTo
  repeat' first
    | with_reducible assumption
    | with_reducible exact Keeps.refl _
    | ((with_reducible refine Keeps.upd rfl ?_ ?_ ?_ ?_); (first | with_reducible assumption | with_reducible exact Keeps.refl _))
    | (intro h; exact h)
    | (intro h; simpa using h)
    | with_reducible intro _ _
    | with_reducible intro _
    | dsimp only

theorem State.railsHalted_keeps {s₀ : State} (s : State) (hk : Keeps s₀ s) : Keeps s₀ (State.railsHalted s) := by
  unfold State.railsHalted
  repeat' first
    | with_reducible assumption
    | with_reducible exact Keeps.refl _
    | ((with_reducible refine Keeps.upd rfl ?_ ?_ ?_ ?_); (first | with_reducible assumption | with_reducible exact Keeps.refl _))
    | (intro h; exact h)
    | (intro h; simpa using h)
    | with_reducible intro _ _
    | with_reducible intro _
    | dsimp only

end Sys2Proof.Machine
end

