-- ==== Sys2Proof/Laws/KeepsDump.lean ====
section
/-! SUPPORT. What the operations of Machine/Dump.lean keep: one lemma each. -/
namespace Sys2Proof.Machine

theorem State.captureDump_keeps {s₀ : State} (s : State) (seq : Nat) (hk : Keeps s₀ s) : Keeps s₀ (State.captureDump s seq) := by
  unfold State.captureDump
  dsimp only
  repeat' first
    | ((with_reducible refine Keeps.upd rfl ?_ ?_ ?_ ?_); (first | with_reducible assumption | with_reducible exact Keeps.refl _))
    | (intro h; exact h)

end Sys2Proof.Machine
end

