-- ==== Sys2Proof/Laws/KeepsPorts.lean ====
section
/-! SUPPORT. What the operations of Machine/Ports.lean keep: one lemma each. -/
namespace Sys2Proof.Machine

theorem State.elect_keeps {s₀ : State} (s : State) (hk : Keeps s₀ s) : Keeps s₀ (State.elect s) := by
  unfold State.elect
  dsimp only
  repeat' first
    | ((with_reducible refine Keeps.upd rfl ?_ ?_ ?_ ?_); (first | with_reducible assumption | with_reducible exact Keeps.refl _ | with_reducible apply Keeps.foldl_trans | with_reducible apply Keeps.ite | (split <;> skip)))
    | (intro h; exact h)

theorem State.announce_keeps {s₀ : State} (s : State) (hk : Keeps s₀ s) : Keeps s₀ (State.announce s) := by
  unfold State.announce
  repeat' first
    | with_reducible assumption
    | with_reducible exact Keeps.refl _
    | with_reducible apply Keeps.ite
    | with_reducible apply State.send_keeps
    | with_reducible apply Keeps.foldl_trans
    | with_reducible intro _ _

theorem State.respond_keeps {s₀ : State} (s : State) (p : Nat) (h : Hdr) (kind w2 : Nat) (data : List (Nat × Byte)) (hk : Keeps s₀ s) : Keeps s₀ (State.respond s p h kind w2 data) := by
  unfold State.respond
  dsimp only
  repeat' first
    | with_reducible assumption
    | with_reducible apply Keeps.ite
    | with_reducible apply State.send_keeps

theorem State.nackTo_keeps {s₀ : State} (s : State) (p : Nat) (h : Hdr) (code : Nat) (hk : Keeps s₀ s) : Keeps s₀ (State.nackTo s p h code) := by
  unfold State.nackTo
  repeat' first
    | with_reducible assumption
    | with_reducible apply State.respond_keeps

theorem State.endPortJobs_keeps {s₀ : State} (s : State) (p code : Nat) (hk : Keeps s₀ s) : Keeps s₀ (State.endPortJobs s p code) := by
  unfold State.endPortJobs
  dsimp only
  repeat' first
    | with_reducible assumption
    | with_reducible exact Keeps.refl _
    | with_reducible apply Keeps.ite
    | with_reducible apply State.endJob_keeps
    | with_reducible apply State.setJobs_keeps
    | with_reducible apply Keeps.foldl_trans
    | with_reducible intro _ _

theorem State.portDown_keeps {s₀ : State} (s : State) (p : Nat) (hk : Keeps s₀ s) : Keeps s₀ (State.portDown s p) := by
  unfold State.portDown
  dsimp only
  repeat' first
    | with_reducible assumption
    | with_reducible exact Keeps.refl _
    | with_reducible apply OptKeeps.map
    | with_reducible apply Keeps.ite
    | with_reducible apply State.endPortJobs_keeps
    | with_reducible apply State.nackTo_keeps
    | with_reducible apply State.elect_keeps
    | with_reducible apply State.loseTxn_keeps
    | with_reducible apply State.logEvent_keeps
    | with_reducible apply State.modPort_keeps
    | with_reducible apply Keeps.foldl_trans
    | ((with_reducible refine Keeps.upd rfl ?_ ?_ ?_ ?_); (first | with_reducible assumption | with_reducible exact Keeps.refl _ | with_reducible apply State.endPortJobs_keeps | with_reducible apply State.nackTo_keeps | with_reducible apply State.elect_keeps | with_reducible apply State.loseTxn_keeps | with_reducible apply State.logEvent_keeps | with_reducible apply State.modPort_keeps | with_reducible apply Keeps.foldl_trans | with_reducible apply Keeps.ite | (split <;> skip)))
    | (intro h; exact h)
    | (intro h; simpa using h)
    | split
    | with_reducible intro _ _
    | with_reducible intro _
    | dsimp only

theorem execLossOfSignal_keeps {s₀ : State} (p : Nat) (s : State) (hk : Keeps s₀ s) : OutKeeps s₀ (execLossOfSignal p s) := by
  unfold execLossOfSignal
  repeat' first
    | with_reducible assumption
    | with_reducible apply OutKeeps.next
    | with_reducible apply OutKeeps.ite
    | with_reducible apply State.portDown_keeps
    | with_reducible apply State.modPort_keeps

theorem State.train_keeps {s₀ : State} (s : State) (p : Nat) (hk : Keeps s₀ s) : Keeps s₀ (State.train s p) := by
  unfold State.train
  repeat' first
    | with_reducible assumption
    | with_reducible apply State.modPort_keeps

theorem execPartnerDetection_keeps {s₀ : State} (p : Nat) (s : State) (hk : Keeps s₀ s) : OutKeeps s₀ (execPartnerDetection p s) := by
  unfold execPartnerDetection
  repeat' first
    | with_reducible assumption
    | with_reducible apply OutKeeps.next
    | with_reducible apply OutKeeps.ite
    | with_reducible apply State.train_keeps

theorem State.portUp_keeps {s₀ : State} (s : State) (p gen : Nat) (now : Word64) (hk : Keeps s₀ s) : Keeps s₀ (State.portUp s p gen now) := by
  unfold State.portUp
  dsimp only
  repeat' first
    | with_reducible assumption
    | with_reducible exact Keeps.refl _
    | with_reducible apply OptKeeps.map
    | with_reducible apply State.send_keeps
    | with_reducible apply State.fresh_keeps
    | with_reducible apply State.modPort_keeps
    | ((with_reducible refine Keeps.upd rfl ?_ ?_ ?_ ?_); (first | with_reducible assumption | with_reducible exact Keeps.refl _ | with_reducible apply State.send_keeps | with_reducible apply State.fresh_keeps | with_reducible apply State.modPort_keeps))
    | (intro h; exact h)
    | (intro h; simpa using h)
    | with_reducible intro _ _
    | with_reducible intro _
    | dsimp only

theorem State.trainFailed_keeps {s₀ : State} (s : State) (p : Nat) (now : Word64) (hk : Keeps s₀ s) : Keeps s₀ (State.trainFailed s p now) := by
  unfold State.trainFailed
  repeat' first
    | with_reducible assumption
    | with_reducible apply State.logEvent_keeps
    | with_reducible apply State.modPort_keeps

theorem execTrainingComplete_keeps {s₀ : State} (p : Nat) (lanes : List LaneFinding) (gens : List Nat) (now : Word64) (s : State) (hk : Keeps s₀ s) : OutKeeps s₀ (execTrainingComplete p lanes gens now s) := by
  unfold execTrainingComplete
  dsimp only
  repeat' first
    | with_reducible assumption
    | with_reducible apply OutKeeps.next
    | with_reducible apply State.trainFailed_keeps
    | with_reducible apply State.portUp_keeps
    | with_reducible apply State.at__keeps
    | with_reducible apply State.modPort_keeps
    | with_reducible refine OptKeeps.elim ?_ ‹_ = some _›
    | split

theorem execLinkTrainRetry_keeps {s₀ : State} (p : Nat) (now : Word64) (s : State) (hk : Keeps s₀ s) : OutKeeps s₀ (execLinkTrainRetry p now s) := by
  unfold execLinkTrainRetry
  dsimp only
  repeat' first
    | with_reducible assumption
    | with_reducible apply OutKeeps.next
    | with_reducible apply State.train_keeps
    | with_reducible apply State.at__keeps
    | with_reducible refine OptKeeps.elim ?_ ‹_ = some _›
    | split

theorem execNeighbourTimeout_keeps {s₀ : State} (p : Nat) (now : Word64) (s : State) (hk : Keeps s₀ s) : OutKeeps s₀ (execNeighbourTimeout p now s) := by
  unfold execNeighbourTimeout
  dsimp only
  repeat' first
    | with_reducible assumption
    | with_reducible apply OutKeeps.next
    | with_reducible apply State.logEvent_keeps
    | with_reducible apply State.at__keeps
    | with_reducible apply State.modPort_keeps
    | with_reducible refine OptKeeps.elim ?_ ‹_ = some _›
    | split

theorem State.learnWindow_keeps {s₀ : State} (s : State) (p : Nat) (hk : Keeps s₀ s) : Keeps s₀ (State.learnWindow s p) := by
  unfold State.learnWindow
  repeat' first
    | with_reducible assumption
    | with_reducible exact Keeps.refl _
    | with_reducible apply State.fresh_keeps
    | with_reducible apply State.modPort_keeps
    | ((with_reducible refine Keeps.upd rfl ?_ ?_ ?_ ?_); (first | with_reducible assumption | with_reducible exact Keeps.refl _ | with_reducible apply State.fresh_keeps | with_reducible apply State.modPort_keeps))
    | (intro h; exact h)
    | (intro h; simpa using h)
    | with_reducible intro _ _
    | with_reducible intro _
    | dsimp only

theorem State.partnerService_keeps {s₀ : State} (s : State) (p : Nat) (oos : Bool) (hk : Keeps s₀ s) : Keeps s₀ (State.partnerService s p oos) := by
  unfold State.partnerService
  repeat' first
    | with_reducible assumption
    | with_reducible apply Keeps.ite
    | with_reducible apply State.elect_keeps
    | with_reducible apply State.modPort_keeps

theorem execNeighbour_keeps {s₀ : State} (p : Nat) (h : Hdr) (s : State) (hk : Keeps s₀ s) : OutKeeps s₀ (execNeighbour p h s) := by
  unfold execNeighbour
  dsimp only
  repeat' first
    | with_reducible assumption
    | with_reducible exact Keeps.refl _
    | with_reducible apply OutKeeps.next
    | with_reducible apply OutKeeps.ite
    | with_reducible apply Keeps.ite
    | with_reducible apply State.partnerService_keeps
    | with_reducible apply State.learnWindow_keeps
    | with_reducible apply State.logEvent_keeps
    | with_reducible apply State.modPort_keeps
    | ((with_reducible refine Keeps.upd rfl ?_ ?_ ?_ ?_); (first | with_reducible assumption | with_reducible exact Keeps.refl _ | with_reducible apply State.partnerService_keeps | with_reducible apply State.learnWindow_keeps | with_reducible apply State.logEvent_keeps | with_reducible apply State.modPort_keeps | with_reducible apply Keeps.ite | (split <;> skip)))
    | (intro h; exact h)
    | (intro h; simpa using h)
    | split
    | with_reducible intro _ _
    | with_reducible intro _
    | dsimp only

theorem State.rollWindow_keeps {s₀ : State} (s : State) (p : Nat) (hk : Keeps s₀ s) : Keeps s₀ (State.rollWindow s p) := by
  unfold State.rollWindow
  dsimp only
  repeat' first
    | with_reducible assumption
    | with_reducible apply Keeps.ite
    | with_reducible apply State.logEvent_keeps
    | with_reducible apply State.modPort_keeps

theorem State.sendNew_keeps {s₀ : State} (s : State) (p : Nat) (now : Word64) (hk : Keeps s₀ s) : Keeps s₀ (State.sendNew s p now) := by
  unfold State.sendNew
  dsimp only
  split
  · exact hk
  · exact State.settleFrames_keeps _ _ (State.fresh_keeps _ (State.modPort_keeps _ _ _ hk))

theorem State.sendNext_keeps {s₀ : State} (s : State) (p : Nat) (now : Word64) (hk : Keeps s₀ s) : Keeps s₀ (State.sendNext s p now) := by
  unfold State.sendNext
  split
  · exact State.modPort_keeps _ _ _ hk
  · exact State.sendNew_keeps _ _ _ hk

theorem execControlFlitTimer_keeps {s₀ : State} (p : Nat) (now : Word64) (s : State) (hk : Keeps s₀ s) : OutKeeps s₀ (execControlFlitTimer p now s) := by
  unfold execControlFlitTimer
  split
  · exact .next hk
  · next s0 h =>
    with_reducible refine OutKeeps.ite ?_ (.next hk)
    exact .next (State.sendNext_keeps _ _ _ (State.rollWindow_keeps _ _ (OptKeeps.elim (State.at__keeps _ _ hk) h)))

theorem State.takeControl_keeps {s₀ : State} (s : State) (p : Nat) (c : Nat) (hk : Keeps s₀ s) : Keeps s₀ (State.takeControl s p c) := by
  unfold State.takeControl
  dsimp only
  repeat' first
    | with_reducible assumption
    | with_reducible exact Keeps.refl _
    | with_reducible apply OptKeeps.map
    | with_reducible apply Keeps.getD
    | with_reducible apply Keeps.ite
    | with_reducible apply State.partnerService_keeps
    | with_reducible apply State.learnWindow_keeps
    | with_reducible apply State.modPort_keeps
    | ((with_reducible refine Keeps.upd rfl ?_ ?_ ?_ ?_); (first | with_reducible assumption | with_reducible exact Keeps.refl _ | with_reducible apply State.partnerService_keeps | with_reducible apply State.learnWindow_keeps | with_reducible apply State.modPort_keeps | with_reducible apply Keeps.ite | (split <;> skip)))
    | (intro h; exact h)
    | (intro h; simpa using h)
    | split
    | with_reducible intro _ _
    | with_reducible intro _
    | dsimp only

theorem execTrainReceive_keeps {s₀ : State} (p : Nat) (fecOk : Bool) (corrected : Nat) (ctrl data : List Byte) (now : Word64) (s : State) (hk : Keeps s₀ s) : OutKeeps s₀ (execTrainReceive p fecOk corrected ctrl data now s) := by
  unfold execTrainReceive
  dsimp only
  repeat' first
    | with_reducible assumption
    | with_reducible exact Keeps.refl _
    | with_reducible apply OutKeeps.next
    | with_reducible apply OutKeeps.ite
    | with_reducible apply Keeps.ite
    | with_reducible apply State.takeControl_keeps
    | with_reducible apply State.rollWindow_keeps
    | with_reducible apply State.at__keeps
    | with_reducible apply State.modPort_keeps
    | with_reducible refine OptKeeps.elim ?_ ‹_ = some _›
    | ((with_reducible refine Keeps.upd rfl ?_ ?_ ?_ ?_); (first | with_reducible assumption | with_reducible exact Keeps.refl _ | with_reducible apply State.takeControl_keeps | with_reducible apply State.rollWindow_keeps | with_reducible apply State.at__keeps | with_reducible apply State.modPort_keeps | with_reducible refine OptKeeps.elim ?_ ‹_ = some _› | with_reducible apply Keeps.ite | (split <;> skip)))
    | (intro h; exact h)
    | (intro h; simpa using h)
    | split
    | with_reducible intro _ _
    | with_reducible intro _
    | dsimp only

theorem execLinkTimeout_keeps {s₀ : State} (tag : Nat) (now : Word64) (s : State) (hk : Keeps s₀ s) : OutKeeps s₀ (execLinkTimeout tag now s) := by
  unfold execLinkTimeout
  dsimp only
  repeat' first
    | with_reducible assumption
    | with_reducible exact Keeps.refl _
    | with_reducible apply OutKeeps.next
    | with_reducible apply OutKeeps.ite
    | with_reducible apply Keeps.ite
    | with_reducible apply State.endPortJobs_keeps
    | with_reducible apply State.loseTxn_keeps
    | with_reducible apply State.at__keeps
    | with_reducible apply State.modPort_keeps
    | with_reducible refine OptKeeps.elim ?_ ‹_ = some _›
    | with_reducible apply Keeps.foldl_trans
    | ((with_reducible refine Keeps.upd rfl ?_ ?_ ?_ ?_); (first | with_reducible assumption | with_reducible exact Keeps.refl _ | with_reducible apply State.endPortJobs_keeps | with_reducible apply State.loseTxn_keeps | with_reducible apply State.at__keeps | with_reducible apply State.modPort_keeps | with_reducible refine OptKeeps.elim ?_ ‹_ = some _› | with_reducible apply Keeps.foldl_trans | with_reducible apply Keeps.ite | (split <;> skip)))
    | (intro h; exact h)
    | (intro h; simpa using h)
    | split
    | with_reducible intro _ _
    | with_reducible intro _
    | dsimp only

theorem execLinkNodeId_keeps {s₀ : State} (w : RegVal) (s : State) (hk : Keeps s₀ s) : OutKeeps s₀ (execLinkNodeId w s) := by
  unfold execLinkNodeId
  dsimp only
  repeat' first
    | with_reducible apply OutKeeps.next
    | with_reducible apply OutKeeps.ite
    | ((with_reducible refine Keeps.upd rfl ?_ ?_ ?_ ?_); (first | with_reducible assumption | with_reducible exact Keeps.refl _ | with_reducible apply State.announce_keeps | with_reducible apply Keeps.ite | (split <;> skip)))
    | (intro h; exact h)

/-- Every entry of a routing table in order, listed or not, names ports of the module. -/
theorem route_ok {l : List (Nat × Route)} (h : routesOk l = true) (n : Nat) :
    (mapGet (fun _ => {}) n l : Route).port < 14 ∧ (mapGet (fun _ => {}) n l : Route).altPort < 14 := by
  unfold mapGet
  cases e : mapFind n l with
  | none => exact ⟨by simp, by simp⟩
  | some r =>
    have := List.all_eq_true.mp h _ (mapFind_mem e)
    simpa using this

theorem routesOk_put {l : List (Nat × Route)} {n : Nat} {r : Route} (h : routesOk l = true) (hp : r.port < 14)
    (ha : r.altPort < 14) : routesOk (mapPut n r l) = true := by
  refine List.all_eq_true.mpr fun e he => ?_
  rcases mem_mapPut he with rfl | he
  · simp [hp, ha]
  · exact List.all_eq_true.mp h e he

theorem execRouteEntryWrite_keeps {s₀ : State} (node : Nat) (value : BitVec 32) (s : State) (hk : Keeps s₀ s) :
    OutKeeps s₀ (execRouteEntryWrite node value s) := by
  unfold execRouteEntryWrite
  refine .ite (.next (Keeps.upd rfl hk id id fun h => ?_)) (.next hk)
  have old := route_ok h node
  refine routesOk_put h ?_ ?_
  · dsimp only
    split
    · exact old.1
    · omega
  · dsimp only
    split
    · exact old.2
    · omega

theorem execLinkPortConfig_keeps {s₀ : State} (p : Nat) (w : RegVal) (s : State) (hk : Keeps s₀ s) : OutKeeps s₀ (execLinkPortConfig p w s) := by
  unfold execLinkPortConfig
  dsimp only
  repeat' first
    | with_reducible assumption
    | with_reducible apply OutKeeps.next
    | with_reducible apply OutKeeps.ite
    | with_reducible apply Keeps.ite
    | with_reducible apply State.train_keeps
    | with_reducible apply State.portDown_keeps
    | with_reducible apply State.modPort_keeps

end Sys2Proof.Machine
end

