-- ==== Sys2Proof/Laws/KeepsResets.lean ====
section
/-! SUPPORT. What the operations of Machine/Resets.lean keep: one lemma each. -/
namespace Sys2Proof.Machine

theorem State.clearFast_keeps {s₀ : State} (s : State) (hk : Keeps s₀ s) : Keeps s₀ (State.clearFast s) := by
  unfold State.clearFast
  repeat' first
    | ((with_reducible refine Keeps.upd rfl ?_ ?_ ?_ ?_); (first | with_reducible assumption | with_reducible exact Keeps.refl _ | with_reducible apply State.fresh_keeps))
    | (intro h; exact h)
    | (intro h; exact Mem.iceOnly_wf h)

theorem State.clearPorts_keeps {s₀ : State} (s : State) (hk : Keeps s₀ s) : Keeps s₀ (State.clearPorts s) := by
  unfold State.clearPorts
  repeat' first
    | ((with_reducible refine Keeps.upd rfl ?_ ?_ ?_ ?_); (first | with_reducible assumption | with_reducible exact Keeps.refl _ | with_reducible apply State.elect_keeps))
    | (intro h; exact h)

theorem State.haltBoot_keeps {s₀ : State} (s : State) (reason : Nat) (hk : Keeps s₀ s) : Keeps s₀ (State.haltBoot s reason) := by
  unfold State.haltBoot
  dsimp only
  repeat' first
    | with_reducible assumption
    | with_reducible exact Keeps.refl _
    | with_reducible apply State.clearPorts_keeps
    | with_reducible apply State.clearFast_keeps
    | with_reducible apply State.railsHalted_keeps
    | ((with_reducible refine Keeps.upd rfl ?_ ?_ ?_ ?_); (first | with_reducible assumption | with_reducible exact Keeps.refl _ | with_reducible apply State.clearPorts_keeps | with_reducible apply State.clearFast_keeps | with_reducible apply State.railsHalted_keeps))
    | (intro h; exact h)
    | (intro h; simpa using h)
    | with_reducible intro _ _
    | with_reducible intro _
    | dsimp only

theorem State.stampEvent_keeps {s₀ : State} (s : State) (hk : Keeps s₀ s) : Keeps s₀ (State.stampEvent s) := by
  unfold State.stampEvent
  repeat' first
    | ((with_reducible refine Keeps.upd rfl ?_ ?_ ?_ ?_); (first | with_reducible assumption | with_reducible exact Keeps.refl _))
    | (intro h; exact h)

theorem State.warmEffects_keeps {s₀ : State} (s : State) (hk : Keeps s₀ s) : Keeps s₀ (State.warmEffects s) := by
  unfold State.warmEffects
  dsimp only
  repeat' first
    | ((with_reducible refine Keeps.upd rfl ?_ ?_ ?_ ?_); (first | with_reducible assumption | with_reducible exact Keeps.refl _ | with_reducible apply State.clearPorts_keeps | with_reducible apply State.clearFast_keeps))
    | (intro h; exact h)

theorem State.finishOos_keeps {s₀ : State} (s : State) (hk : Keeps s₀ s) : Keeps s₀ (State.finishOos s) := by
  unfold State.finishOos
  dsimp only
  repeat' first
    | with_reducible assumption
    | with_reducible exact Keeps.refl _
    | with_reducible apply State.clearFast_keeps
    | with_reducible apply State.announce_keeps
    | with_reducible apply State.railsHalted_keeps
    | with_reducible apply State.logDevice_keeps
    | ((with_reducible refine Keeps.upd rfl ?_ ?_ ?_ ?_); (first | with_reducible assumption | with_reducible exact Keeps.refl _ | with_reducible apply State.clearFast_keeps | with_reducible apply State.announce_keeps | with_reducible apply State.railsHalted_keeps | with_reducible apply State.logDevice_keeps))
    | (intro h; exact h)
    | (intro h; simpa using h)
    | with_reducible intro _ _
    | with_reducible intro _
    | dsimp only

theorem State.startDump_keeps {s₀ : State} (s : State) (oos : Bool) (hk : Keeps s₀ s) : Keeps s₀ (State.startDump s oos) := by
  unfold State.startDump
  dsimp only
  repeat' first
    | ((with_reducible refine Keeps.upd rfl ?_ ?_ ?_ ?_); (first | with_reducible assumption | with_reducible exact Keeps.refl _ | with_reducible apply State.finishOos_keeps | with_reducible apply State.warmEffects_keeps | with_reducible apply Keeps.ite | (split <;> skip)))
    | (intro h; exact h)

theorem State.enterOos_keeps {s₀ : State} (s : State) (hk : Keeps s₀ s) : Keeps s₀ (State.enterOos s) := by
  unfold State.enterOos
  repeat' first
    | ((with_reducible refine Keeps.upd rfl ?_ ?_ ?_ ?_); (first | with_reducible assumption | with_reducible exact Keeps.refl _ | with_reducible apply State.startDump_keeps | with_reducible apply Keeps.ite | (split <;> skip)))
    | (intro h; exact h)

theorem State.escalate_keeps {s₀ : State} (s : State) (hk : Keeps s₀ s) : Keeps s₀ (State.escalate s) := by
  unfold State.escalate
  dsimp only
  repeat' first
    | with_reducible assumption
    | with_reducible apply Keeps.ite
    | with_reducible apply State.enterOos_keeps
    | with_reducible apply State.stampEvent_keeps

theorem State.warmReset_keeps {s₀ : State} (s : State) (cause : Nat) (dump : Bool) (hk : Keeps s₀ s) : Keeps s₀ (State.warmReset s cause dump) := by
  unfold State.warmReset
  dsimp only
  repeat' first
    | with_reducible assumption
    | with_reducible apply Keeps.ite
    | with_reducible apply State.enterOos_keeps
    | with_reducible apply State.startDump_keeps
    | with_reducible apply State.warmEffects_keeps
    | with_reducible apply State.stampEvent_keeps
    | with_reducible apply State.logDevice_keeps

theorem execDeviceWarmReset_keeps {s₀ : State} (cause : Nat) (dump : Bool) (s : State) (hk : Keeps s₀ s) : OutKeeps s₀ (execDeviceWarmReset cause dump s) := by
  unfold execDeviceWarmReset
  repeat' first
    | with_reducible assumption
    | with_reducible apply OutKeeps.next
    | with_reducible apply State.warmReset_keeps

theorem execDumpCaptureComplete_keeps {s₀ : State} (s : State) (hk : Keeps s₀ s) : OutKeeps s₀ (execDumpCaptureComplete s) := by
  unfold execDumpCaptureComplete
  repeat' first
    | with_reducible assumption
    | with_reducible apply OutKeeps.next
    | with_reducible apply State.finishOos_keeps
    | with_reducible apply State.warmEffects_keeps
    | with_reducible apply State.captureDump_keeps
    | split

theorem execLogMirror_keeps {s₀ : State} (seq : Nat) (s : State) (hk : Keeps s₀ s) : OutKeeps s₀ (execLogMirror seq s) := by
  unfold execLogMirror
  repeat' first
    | with_reducible apply OutKeeps.next
    | with_reducible apply OutKeeps.ite
    | ((with_reducible refine Keeps.upd rfl ?_ ?_ ?_ ?_); (first | with_reducible assumption | with_reducible exact Keeps.refl _ | with_reducible apply Keeps.ite | (split <;> skip)))
    | (intro h; simpa using h)

theorem State.dumpEnded_keeps {s₀ : State} (s : State) (hk : Keeps s₀ s) : Keeps s₀ (State.dumpEnded s) := by
  unfold State.dumpEnded
  repeat' first
    | with_reducible assumption
    | with_reducible exact Keeps.refl _
    | with_reducible apply State.captureDump_keeps
    | split
    | with_reducible intro _ _
    | with_reducible intro _
    | dsimp only

theorem State.powerOff_keeps {s₀ : State} (s0 : State) (phase : PowerPhase) (cause : Nat) (hk : Keeps s₀ s0) : Keeps s₀ (State.powerOff s0 phase cause) := by
  unfold State.powerOff
  dsimp only
  repeat' first
    | with_reducible assumption
    | with_reducible exact Keeps.refl _
    | with_reducible apply OptKeeps.map
    | with_reducible apply State.dumpEnded_keeps
    | ((with_reducible refine Keeps.upd rfl ?_ ?_ ?_ ?_); (first | with_reducible assumption | with_reducible exact Keeps.refl _ | with_reducible apply State.dumpEnded_keeps))
    | (intro h; exact h)
    | (intro h; simpa using h)
    | (intro _; rfl)
    | with_reducible intro _ _
    | with_reducible intro _
    | dsimp only

theorem execDeviceColdReset_keeps {s₀ : State} (cause : Nat) (s : State) (hk : Keeps s₀ s) : OutKeeps s₀ (execDeviceColdReset cause s) := by
  unfold execDeviceColdReset
  repeat' first
    | with_reducible assumption
    | with_reducible apply OutKeeps.next
    | with_reducible apply OutKeeps.ite
    | with_reducible apply State.powerOff_keeps

theorem State.powerFail_keeps {s₀ : State} (s : State) (code group : Nat) (phase : PowerPhase) (hk : Keeps s₀ s) : Keeps s₀ (State.powerFail s code group phase) := by
  unfold State.powerFail
  repeat' first
    | with_reducible assumption
    | with_reducible exact Keeps.refl _
    | with_reducible apply State.powerOff_keeps
    | with_reducible apply State.logDevice_keeps
    | with_reducible intro _ _
    | with_reducible intro _
    | dsimp only

theorem State.beginReset_keeps {s₀ : State} (s : State) (domain target : Nat) (hk : Keeps s₀ s) : Keeps s₀ (State.beginReset s domain target) := by
  unfold State.beginReset
  repeat' first
    | ((with_reducible refine Keeps.upd rfl ?_ ?_ ?_ ?_); (first | with_reducible assumption | with_reducible exact Keeps.refl _))
    | (intro h; exact h)

theorem State.dropUnsent_keeps {s₀ : State} (s : State) (i : Nat) (hk : Keeps s₀ s) : Keeps s₀ (State.dropUnsent s i) := by
  unfold State.dropUnsent
  repeat' first
    | ((with_reducible refine Keeps.upd rfl ?_ ?_ ?_ ?_); (first | with_reducible assumption | with_reducible exact Keeps.refl _))
    | (intro h; exact h)

theorem State.endStore_keeps {s₀ : State} (s : State) (a : Nat) (done : Bool) (h : Keeps s₀ s) :
    Keeps s₀ (s.endStore a done).1 := by
  unfold State.endStore
  split
  · exact h
  · split
    · exact Keeps.getD (State.completeRow_keeps _ _ _ _ _ h) h
    · exact Keeps.upd rfl (State.fresh_keeps _ h) (fun h => Mem.forget_wf h _) id id

theorem State.tear_keeps {s₀ : State} (s : State) (a : Nat) (hk : Keeps s₀ s) : Keeps s₀ (State.tear s a) := by
  unfold State.tear
  dsimp only
  repeat' first
    | ((with_reducible refine Keeps.upd rfl ?_ ?_ ?_ ?_); (first | with_reducible assumption | with_reducible exact Keeps.refl _ | with_reducible apply State.control_keeps | with_reducible apply State.fresh_keeps))
    | (intro h; exact h)
    | (intro h; exact Mem.write_wf h _)

theorem State.resetArray_keeps {s₀ : State} (s : State) (a : Nat) (info : Nat → FaultInfo) (storeDone : Bool) (hk : Keeps s₀ s) : Keeps s₀ (State.resetArray s a info storeDone) := by
  unfold State.resetArray
  dsimp only
  repeat' first
    | with_reducible assumption
    | with_reducible exact Keeps.refl _
    | with_reducible apply State.tear_keeps
    | with_reducible apply State.endStore_keeps
    | with_reducible apply State.dropUnsent_keeps
    | with_reducible apply State.beginReset_keeps
    | with_reducible apply State.dropFlights_keeps
    | with_reducible apply State.dropWindow_keeps
    | with_reducible apply State.recordFault_keeps
    | with_reducible apply State.releasePins_keeps
    | with_reducible apply State.undefine_keeps
    | with_reducible apply State.modArray_keeps
    | with_reducible apply State.modAgent_keeps
    | ((with_reducible refine Keeps.upd rfl ?_ ?_ ?_ ?_); (first | with_reducible assumption | with_reducible exact Keeps.refl _ | with_reducible apply State.tear_keeps | with_reducible apply State.endStore_keeps | with_reducible apply State.dropUnsent_keeps | with_reducible apply State.beginReset_keeps | with_reducible apply State.dropFlights_keeps | with_reducible apply State.dropWindow_keeps | with_reducible apply State.recordFault_keeps | with_reducible apply State.releasePins_keeps | with_reducible apply State.undefine_keeps | with_reducible apply State.modArray_keeps | with_reducible apply State.modAgent_keeps))
    | (intro h; exact h)
    | (intro h; simpa using h)
    | with_reducible intro _ _
    | with_reducible intro _
    | dsimp only

theorem State.cutMover_keeps {s₀ : State} (s : State) (m : Nat) (hk : Keeps s₀ s) : Keeps s₀ (State.cutMover s m) := by
  unfold State.cutMover
  dsimp only
  repeat' first
    | with_reducible assumption
    | with_reducible exact Keeps.refl _
    | with_reducible apply OptKeeps.map
    | with_reducible apply Keeps.ite
    | with_reducible apply State.promote_keeps
    | with_reducible apply State.wrPoison_keeps
    | with_reducible apply State.abortPromotion_keeps
    | with_reducible apply State.undefine_keeps
    | with_reducible apply State.fresh_keeps
    | with_reducible refine ExKeeps.elim ?_ ‹_ = Except.ok _›
    | ((with_reducible refine Keeps.upd rfl ?_ ?_ ?_ ?_); (first | with_reducible assumption | with_reducible exact Keeps.refl _ | with_reducible apply State.promote_keeps | with_reducible apply State.wrPoison_keeps | with_reducible apply State.abortPromotion_keeps | with_reducible apply State.undefine_keeps | with_reducible apply State.fresh_keeps | with_reducible refine ExKeeps.elim ?_ ‹_ = Except.ok _› | with_reducible apply Keeps.ite | (split <;> skip)))
    | (intro h; exact h)
    | (intro h; exact Mem.undefine_wf h _ _)
    | (intro h; exact Mem.forget_wf h _)
    | (intro h; exact Mem.zero_wf h _ _)
    | (intro h; simpa using h)
    | split
    | with_reducible intro _ _
    | with_reducible intro _
    | dsimp only

theorem State.resetMover_keeps {s₀ : State} (s : State) (m : Nat) (info : FaultInfo) (hk : Keeps s₀ s) : Keeps s₀ (State.resetMover s m info) := by
  unfold State.resetMover
  dsimp only
  repeat' first
    | with_reducible assumption
    | with_reducible apply State.cutMover_keeps
    | with_reducible apply State.dropUnsent_keeps
    | with_reducible apply State.beginReset_keeps
    | with_reducible apply State.endJobs_keeps
    | with_reducible apply State.recordFault_keeps
    | with_reducible apply State.releasePins_keeps
    | with_reducible apply State.modMover_keeps
    | with_reducible apply State.modAgent_keeps

theorem State.resetCodec_keeps {s₀ : State} (s : State) (c : Nat) (info : FaultInfo) (hk : Keeps s₀ s) : Keeps s₀ (State.resetCodec s c info) := by
  unfold State.resetCodec
  dsimp only
  repeat' first
    | with_reducible assumption
    | with_reducible exact Keeps.refl _
    | with_reducible apply Keeps.ite
    | with_reducible apply State.dropUnsent_keeps
    | with_reducible apply State.beginReset_keeps
    | with_reducible apply State.endCodecCmd_keeps
    | with_reducible apply State.recordFault_keeps
    | with_reducible apply State.modCodecCore_keeps
    | with_reducible apply State.modAgent_keeps
    | ((with_reducible refine Keeps.upd rfl ?_ ?_ ?_ ?_); (first | with_reducible assumption | with_reducible exact Keeps.refl _ | with_reducible apply State.dropUnsent_keeps | with_reducible apply State.beginReset_keeps | with_reducible apply State.endCodecCmd_keeps | with_reducible apply State.recordFault_keeps | with_reducible apply State.modCodecCore_keeps | with_reducible apply State.modAgent_keeps | with_reducible apply Keeps.ite | (split <;> skip)))
    | (intro h; exact h)
    | (intro h; simpa using h)
    | split
    | with_reducible intro _ _
    | with_reducible intro _
    | dsimp only

theorem State.resetCluster_keeps {s₀ : State} (s : State) (info : Nat → FaultInfo) (hk : Keeps s₀ s) : Keeps s₀ (State.resetCluster s info) := by
  unfold State.resetCluster
  dsimp only
  repeat' first
    | ((with_reducible refine Keeps.upd rfl ?_ ?_ ?_ ?_); (first | with_reducible assumption | with_reducible exact Keeps.refl _ | with_reducible apply State.dropUnsent_keeps | with_reducible apply State.beginReset_keeps | with_reducible apply State.recordFault_keeps | with_reducible apply State.modAgent_keeps | with_reducible apply Keeps.foldl_trans | with_reducible apply Keeps.ite | (split <;> skip)))
    | (intro h; exact h)
    | with_reducible intro _ _

theorem State.resetPort_keeps {s₀ : State} (s : State) (p : Nat) (hk : Keeps s₀ s) : Keeps s₀ (State.resetPort s p) := by
  unfold State.resetPort
  repeat' first
    | with_reducible assumption
    | with_reducible apply State.beginReset_keeps
    | with_reducible apply State.portDown_keeps
    | with_reducible apply State.modPort_keeps

theorem State.retrainChannel_keeps {s₀ : State} (s : State) (c : Nat) (hk : Keeps s₀ s) : Keeps s₀ (State.retrainChannel s c) := by
  unfold State.retrainChannel
  dsimp only
  repeat' first
    | ((with_reducible refine Keeps.upd rfl ?_ ?_ ?_ ?_); (first | with_reducible assumption | with_reducible exact Keeps.refl _ | with_reducible apply State.beginReset_keeps | with_reducible apply State.logEvent_keeps))
    | (intro h; exact h)

theorem State.driverReset_keeps {s₀ : State} (s : State) (domain target : Nat) (dump storeDone : Bool) (hk : Keeps s₀ s) : Keeps s₀ (State.driverReset s domain target dump storeDone) := by
  unfold State.driverReset
  repeat' first
    | with_reducible assumption
    | with_reducible apply Keeps.ite
    | with_reducible apply State.retrainChannel_keeps
    | with_reducible apply State.resetPort_keeps
    | with_reducible apply State.resetCluster_keeps
    | with_reducible apply State.resetCodec_keeps
    | with_reducible apply State.resetMover_keeps
    | with_reducible apply State.resetArray_keeps
    | with_reducible apply State.powerOff_keeps
    | with_reducible apply State.warmReset_keeps

theorem execArrayReset_keeps {s₀ : State} (a : Nat) (storeDone : Bool) (s : State) (hk : Keeps s₀ s) : OutKeeps s₀ (execArrayReset a storeDone s) := by
  unfold execArrayReset
  repeat' first
    | with_reducible assumption
    | with_reducible apply OutKeeps.next
    | with_reducible apply State.driverReset_keeps

theorem execMoverReset_keeps {s₀ : State} (m : Nat) (s : State) (hk : Keeps s₀ s) : OutKeeps s₀ (execMoverReset m s) := by
  unfold execMoverReset
  repeat' first
    | with_reducible assumption
    | with_reducible apply OutKeeps.next
    | with_reducible apply State.driverReset_keeps

theorem execCodecCoreReset_keeps {s₀ : State} (c : Nat) (s : State) (hk : Keeps s₀ s) : OutKeeps s₀ (execCodecCoreReset c s) := by
  unfold execCodecCoreReset
  repeat' first
    | with_reducible assumption
    | with_reducible apply OutKeeps.next
    | with_reducible apply State.driverReset_keeps

theorem execHostCoreClusterReset_keeps {s₀ : State} (s : State) (hk : Keeps s₀ s) : OutKeeps s₀ (execHostCoreClusterReset s) := by
  unfold execHostCoreClusterReset
  repeat' first
    | with_reducible assumption
    | with_reducible apply OutKeeps.next
    | with_reducible apply State.driverReset_keeps

theorem execPortReset_keeps {s₀ : State} (p : Nat) (s : State) (hk : Keeps s₀ s) : OutKeeps s₀ (execPortReset p s) := by
  unfold execPortReset
  repeat' first
    | with_reducible assumption
    | with_reducible apply OutKeeps.next
    | with_reducible apply State.driverReset_keeps

theorem execChannelRetrain_keeps {s₀ : State} (c : Nat) (s : State) (hk : Keeps s₀ s) : OutKeeps s₀ (execChannelRetrain c s) := by
  unfold execChannelRetrain
  repeat' first
    | with_reducible assumption
    | with_reducible apply OutKeeps.next
    | with_reducible apply State.driverReset_keeps

theorem execProgressTimeout_keeps {s₀ : State} (i : Nat) (now : Word64) (s : State) (hk : Keeps s₀ s) : OutKeeps s₀ (execProgressTimeout i now s) := by
  unfold execProgressTimeout
  dsimp only
  repeat' first
    | with_reducible assumption
    | with_reducible exact Keeps.refl _
    | with_reducible apply OutKeeps.next
    | with_reducible apply OutKeeps.ite
    | with_reducible apply Keeps.ite
    | with_reducible apply State.resetCluster_keeps
    | with_reducible apply State.resetCodec_keeps
    | with_reducible apply State.resetMover_keeps
    | with_reducible apply State.resetArray_keeps
    | with_reducible apply State.at__keeps
    | with_reducible refine OptKeeps.elim ?_ ‹_ = some _›
    | ((with_reducible refine Keeps.upd rfl ?_ ?_ ?_ ?_); (first | with_reducible assumption | with_reducible exact Keeps.refl _ | with_reducible apply State.resetCluster_keeps | with_reducible apply State.resetCodec_keeps | with_reducible apply State.resetMover_keeps | with_reducible apply State.resetArray_keeps | with_reducible apply State.at__keeps | with_reducible refine OptKeeps.elim ?_ ‹_ = some _› | with_reducible apply Keeps.ite | (split <;> skip)))
    | (intro h; exact h)
    | (intro h; simpa using h)
    | split
    | with_reducible intro _ _
    | with_reducible intro _
    | dsimp only

theorem State.agentResumes_keeps {s₀ : State} (s : State) (i : Nat) (hk : Keeps s₀ s) : Keeps s₀ (State.agentResumes s i) := by
  unfold State.agentResumes
  dsimp only
  repeat' first
    | with_reducible assumption
    | with_reducible apply Keeps.ite
    | with_reducible apply State.clearFault_keeps
    | with_reducible apply State.modAgent_keeps

theorem State.retrained_keeps {s₀ : State} (s : State) (c : Nat) (ok : Bool) (hk : Keeps s₀ s) : Keeps s₀ (State.retrained s c ok) := by
  unfold State.retrained
  dsimp only
  repeat' first
    | ((with_reducible refine Keeps.upd rfl ?_ ?_ ?_ ?_); (first | with_reducible assumption | with_reducible exact Keeps.refl _ | with_reducible apply State.warmReset_keeps | with_reducible apply State.logDevice_keeps | with_reducible apply Keeps.ite | (split <;> skip)))
    | (intro h; exact h)

theorem execGatehouseRestart_keeps {s₀ : State} (now : Word64) (s : State) (hk : Keeps s₀ s) : OutKeeps s₀ (execGatehouseRestart now s) := by
  unfold execGatehouseRestart
  dsimp only
  repeat' first
    | with_reducible apply OutKeeps.next
    | with_reducible apply State.at__keeps
    | ((with_reducible refine Keeps.upd rfl ?_ ?_ ?_ ?_); (first | with_reducible assumption | with_reducible exact Keeps.refl _ | with_reducible apply State.escalate_keeps | with_reducible apply State.logDevice_keeps | with_reducible apply State.at__keeps | with_reducible refine OptKeeps.elim ?_ ‹_ = some _› | with_reducible apply Keeps.ite | (split <;> skip)))
    | (intro h; exact h)
    | split

theorem execGatehouseRestartComplete_keeps {s₀ : State} (s : State) (hk : Keeps s₀ s) : OutKeeps s₀ (execGatehouseRestartComplete s) := by
  unfold execGatehouseRestartComplete
  dsimp only
  repeat' first
    | with_reducible apply OutKeeps.next
    | with_reducible apply OutKeeps.ite
    | ((with_reducible refine Keeps.upd rfl ?_ ?_ ?_ ?_); (first | with_reducible assumption | with_reducible exact Keeps.refl _ | with_reducible apply State.haltBoot_keeps | with_reducible apply Keeps.ite | (split <;> skip)))
    | (intro h; exact h)

end Sys2Proof.Machine
end

