-- ==== Sys2Proof/Laws/KeepsMemEvents.lean ====
section
/-! SUPPORT. What the operations of Machine/MemEvents.lean keep: one lemma each. -/
namespace Sys2Proof.Machine

theorem State.stopArray_keeps {s₀ : State} (s : State) (a : Nat) (hk : Keeps s₀ s) : Keeps s₀ (State.stopArray s a) := by
  unfold State.stopArray
  repeat' first
    | with_reducible assumption
    | with_reducible apply State.faultFlight_keeps
    | split

theorem State.stopMover_keeps {s₀ : State} (s : State) (m : Nat) (hk : Keeps s₀ s) : Keeps s₀ (State.stopMover s m) := by
  unfold State.stopMover
  dsimp only
  repeat' first
    | ((with_reducible refine Keeps.upd rfl ?_ ?_ ?_ ?_); (first | with_reducible assumption | with_reducible exact Keeps.refl _ | with_reducible apply State.promote_keeps | with_reducible apply State.faultMover_keeps | with_reducible apply State.abortPromotion_keeps | with_reducible refine ExKeeps.elim ?_ ‹_ = Except.ok _› | with_reducible apply Keeps.ite | (split <;> skip)))
    | (intro h; exact h)

theorem State.stopCodec_keeps {s₀ : State} (s : State) (c : Nat) (hk : Keeps s₀ s) : Keeps s₀ (State.stopCodec s c) := by
  unfold State.stopCodec
  repeat' first
    | with_reducible assumption
    | with_reducible apply State.faultCodec_keeps
    | split

theorem State.stopStack_keeps {s₀ : State} (s : State) (k : Nat) (hk : Keeps s₀ s) : Keeps s₀ (State.stopStack s k) := by
  unfold State.stopStack
  dsimp only
  repeat' first
    | with_reducible assumption
    | with_reducible exact Keeps.refl _
    | with_reducible apply State.stopCodec_keeps
    | with_reducible apply State.stopMover_keeps
    | with_reducible apply State.stopArray_keeps
    | with_reducible apply State.escalate_keeps
    | with_reducible apply State.logDevice_keeps
    | with_reducible apply State.modStack_keeps
    | with_reducible apply Keeps.foldl_trans
    | with_reducible intro _ _

theorem execStackTempReport_keeps {s₀ : State} (k temp : Nat) (s : State) (hk : Keeps s₀ s) : OutKeeps s₀ (execStackTempReport k temp s) := by
  unfold execStackTempReport
  dsimp only
  repeat' first
    | with_reducible assumption
    | with_reducible apply OutKeeps.next
    | with_reducible apply OutKeeps.ite
    | with_reducible apply Keeps.ite
    | with_reducible apply State.stopStack_keeps
    | with_reducible apply State.modStack_keeps

theorem execOvertempStop_keeps {s₀ : State} (k : Nat) (w : RegVal) (s : State) (hk : Keeps s₀ s) : OutKeeps s₀ (execOvertempStop k w s) := by
  unfold execOvertempStop
  repeat' first
    | with_reducible assumption
    | with_reducible apply OutKeeps.next
    | with_reducible apply OutKeeps.ite
    | with_reducible apply State.modStack_keeps

theorem execImbalanceSample_keeps {s₀ : State} (k channel busiest total block : Nat) (s : State) (hk : Keeps s₀ s) : OutKeeps s₀ (execImbalanceSample k channel busiest total block s) := by
  unfold execImbalanceSample
  dsimp only
  repeat' first
    | with_reducible assumption
    | with_reducible apply OutKeeps.next
    | with_reducible apply OutKeeps.ite
    | with_reducible apply State.logEvent_keeps
    | with_reducible apply State.modStack_keeps

theorem execPatrolScrub_keeps {s₀ : State} (unit : Nat) (found : EccResult) (s : State) (hk : Keeps s₀ s) : OutKeeps s₀ (execPatrolScrub unit found s) := by
  unfold execPatrolScrub
  repeat' first
    | with_reducible assumption
    | with_reducible apply OutKeeps.next
    | with_reducible apply State.mark_keeps
    | with_reducible apply State.modStack_keeps
    | split

theorem State.damage_keeps {s₀ : State} (stripe : Nat) (s : State) (i : Nat) (hk : Keeps s₀ s) : Keeps s₀ (State.damage stripe s i) := by
  unfold State.damage
  dsimp only
  repeat' first
    | ((with_reducible refine Keeps.upd rfl ?_ ?_ ?_ ?_); (first | with_reducible assumption | with_reducible exact Keeps.refl _ | with_reducible apply State.faultMover_keeps | with_reducible apply State.abortPromotion_keeps | with_reducible apply State.modObj_keeps | (split <;> skip)))
    | (intro h; exact h)

theorem State.loseStripe_keeps {s₀ : State} (s : State) (stripe : Nat) (hk : Keeps s₀ s) : Keeps s₀ (State.loseStripe s stripe) := by
  unfold State.loseStripe
  dsimp only
  repeat' first
    | ((with_reducible refine Keeps.upd rfl ?_ ?_ ?_ ?_); (first | with_reducible assumption | with_reducible exact Keeps.refl _ | with_reducible apply State.damage_keeps | with_reducible apply State.logEvent_keeps | with_reducible apply Keeps.foldl_trans | with_reducible apply Keeps.ite | (split <;> skip)))
    | (intro h; exact h)
    | with_reducible intro _ _

theorem execIceStripeRead_keeps {s₀ : State} (stripe : Nat) (bad : List Nat) (s : State) (hk : Keeps s₀ s) : OutKeeps s₀ (execIceStripeRead stripe bad s) := by
  unfold execIceStripeRead
  repeat' first
    | with_reducible assumption
    | with_reducible apply OutKeeps.next
    | with_reducible apply State.loseStripe_keeps
    | with_reducible apply State.logEvent_keeps
    | split

theorem execIceChannelFailed_keeps {s₀ : State} (channel : Nat) (s : State) (hk : Keeps s₀ s) : OutKeeps s₀ (execIceChannelFailed channel s) := by
  unfold execIceChannelFailed
  repeat' first
    | with_reducible apply OutKeeps.next
    | with_reducible apply OutKeeps.ite
    | ((with_reducible refine Keeps.upd rfl ?_ ?_ ?_ ?_); (first | with_reducible assumption | with_reducible exact Keeps.refl _ | with_reducible apply State.logEvent_keeps | with_reducible apply Keeps.ite | (split <;> skip)))
    | (intro h; exact h)

theorem State.writeObj_keeps {s₀ : State} (s : State) (i k : Nat) (w : RegVal) (hk : Keeps s₀ s) : Keeps s₀ (State.writeObj s i k w) := by
  unfold State.writeObj
  dsimp only
  repeat' first
    | ((with_reducible refine Keeps.upd rfl ?_ ?_ ?_ ?_); (first | with_reducible assumption | with_reducible exact Keeps.refl _ | with_reducible apply State.modObj_keeps | with_reducible apply Keeps.ite | (split <;> skip)))
    | (intro h; exact h)

theorem execObjTableWrite_keeps {s₀ : State} (i k : Nat) (w : RegVal) (s : State) (hk : Keeps s₀ s) : OutKeeps s₀ (execObjTableWrite i k w s) := by
  unfold execObjTableWrite
  repeat' first
    | with_reducible assumption
    | with_reducible apply OutKeeps.next
    | with_reducible apply OutKeeps.ite
    | with_reducible apply State.writeObj_keeps

end Sys2Proof.Machine
end

