-- ==== Sys2Proof/Laws/KeepsMailbox.lean ====
section
/-! SUPPORT. What the operations of Machine/Mailbox.lean keep: one lemma each. -/
namespace Sys2Proof.Machine

theorem State.answer_keeps {s₀ : State} (s : State) (status : Nat) (result : List Byte) (hk : Keeps s₀ s) : Keeps s₀ (State.answer s status result) := by
  unfold State.answer
  repeat' first
    | ((with_reducible refine Keeps.upd rfl ?_ ?_ ?_ ?_); (first | with_reducible assumption | with_reducible exact Keeps.refl _))
    | (intro h; exact h)

theorem State.mbServe_keeps {s₀ : State} (s : State) (code : Nat) (act : State → Nat × List Byte × State) (hk : Keeps s₀ s)
    (hact : ∀ t, Keeps s₀ t → MbKeeps s₀ (act t)) : OutKeeps s₀ (s.mbServe code act) := by
  unfold State.mbServe
  repeat' split
  · exact .next hk
  · exact .next (State.answer_keeps _ _ _ hk)
  · exact .next (State.answer_keeps _ _ _ (hact _ hk))
  · exact .next hk

theorem execMboxOpcode_keeps {s₀ : State} (s : State) (hk : Keeps s₀ s) : OutKeeps s₀ (execMboxOpcode s) := by
  unfold execMboxOpcode
  repeat' first
    | with_reducible assumption
    | with_reducible apply OutKeeps.next
    | with_reducible apply State.answer_keeps
    | split

theorem execPartRead_keeps {s₀ : State} (s : State) (hk : Keeps s₀ s) : OutKeeps s₀ (execPartRead s) := by
  unfold execPartRead
  repeat' first
    | with_reducible assumption
    | with_reducible apply State.mbServe_keeps
    | with_reducible apply MbKeeps.mk
    | with_reducible intro _ _

theorem execExtend_keeps {s₀ : State} (s : State) (hk : Keeps s₀ s) : OutKeeps s₀ (execExtend s) := by
  unfold execExtend
  dsimp only
  repeat' first
    | with_reducible apply State.mbServe_keeps
    | ((with_reducible refine Keeps.upd rfl ?_ ?_ ?_ ?_); (first | with_reducible assumption | with_reducible exact Keeps.refl _ | with_reducible apply State.mbServe_keeps | with_reducible apply Keeps.ite | (split <;> skip)))
    | (intro h; exact h)
    | with_reducible apply MbKeeps.mk
    | with_reducible intro _ _

theorem execQuote_keeps {s₀ : State} (s : State) (hk : Keeps s₀ s) : OutKeeps s₀ (execQuote s) := by
  unfold execQuote
  dsimp only
  repeat' first
    | with_reducible assumption
    | with_reducible apply MbKeeps.ite
    | with_reducible apply State.mbServe_keeps
    | with_reducible apply MbKeeps.mk
    | with_reducible intro _ _

theorem State.setInactive_keeps {s₀ : State} (s : State) (k : Nat) (y : FwSlot) (hk : Keeps s₀ s) : Keeps s₀ (State.setInactive s k y) := by
  unfold State.setInactive
  repeat' first
    | with_reducible assumption
    | with_reducible exact Keeps.refl _
    | with_reducible apply State.modFw_keeps
    | with_reducible intro _ _
    | with_reducible intro _
    | dsimp only

theorem execFwStage_keeps {s₀ : State} (s : State) (hk : Keeps s₀ s) : OutKeeps s₀ (execFwStage s) := by
  unfold execFwStage
  dsimp only
  repeat' first
    | with_reducible assumption
    | with_reducible apply MbKeeps.ite
    | with_reducible apply State.mbServe_keeps
    | with_reducible apply State.setInactive_keeps
    | with_reducible apply MbKeeps.mk
    | with_reducible intro _ _

theorem execFwVerify_keeps {s₀ : State} (s : State) (hk : Keeps s₀ s) : OutKeeps s₀ (execFwVerify s) := by
  unfold execFwVerify
  dsimp only
  repeat' first
    | with_reducible assumption
    | with_reducible apply MbKeeps.ite
    | with_reducible apply State.mbServe_keeps
    | with_reducible apply State.setInactive_keeps
    | with_reducible apply MbKeeps.mk
    | with_reducible intro _ _
    | split

theorem execFwActivate_keeps {s₀ : State} (s : State) (hk : Keeps s₀ s) : OutKeeps s₀ (execFwActivate s) := by
  unfold execFwActivate
  dsimp only
  repeat' first
    | with_reducible assumption
    | with_reducible apply MbKeeps.ite
    | with_reducible apply State.mbServe_keeps
    | with_reducible apply State.modFw_keeps
    | with_reducible apply MbKeeps.mk
    | with_reducible intro _ _

theorem execFwCommit_keeps {s₀ : State} (s : State) (hk : Keeps s₀ s) : OutKeeps s₀ (execFwCommit s) := by
  unfold execFwCommit
  dsimp only
  repeat' first
    | with_reducible apply State.mbServe_keeps
    | ((with_reducible refine Keeps.upd rfl ?_ ?_ ?_ ?_); (first | with_reducible assumption | with_reducible exact Keeps.refl _ | with_reducible apply State.mbServe_keeps | with_reducible apply State.modFw_keeps | with_reducible apply Keeps.ite | (split <;> skip)))
    | (intro h; exact h)
    | with_reducible apply MbKeeps.mk
    | with_reducible intro _ _

theorem execDebugUnlock_keeps {s₀ : State} (s : State) (hk : Keeps s₀ s) : OutKeeps s₀ (execDebugUnlock s) := by
  unfold execDebugUnlock
  dsimp only
  repeat' first
    | with_reducible apply State.mbServe_keeps
    | ((with_reducible refine Keeps.upd rfl ?_ ?_ ?_ ?_); (first | with_reducible assumption | with_reducible exact Keeps.refl _ | with_reducible apply State.mbServe_keeps | with_reducible apply Keeps.ite | (split <;> skip)))
    | (intro h; exact h)
    | with_reducible apply MbKeeps.mk
    | with_reducible intro _ _

theorem State.bootType_keeps {s₀ : State} (s : State) (k : Nat) (hk : Keeps s₀ s) : OptKeeps s₀ (State.bootType s k) := by
  unfold State.bootType
  dsimp only
  split
  · exact OptKeeps.none _
  · exact OptKeeps.some (Keeps.upd rfl (State.modFw_keeps _ _ _ hk) id id id)

theorem State.bootTypes_keeps {s₀ : State} (l : List Nat) : ∀ (s : State), Keeps s₀ s → Keeps s₀ (State.bootTypes s l).1 := by
  induction l with
  | nil => exact fun _ h => h
  | cons k l ih =>
    intro s h
    unfold State.bootTypes
    split
    · exact h
    · exact ih _ (OptKeeps.elim (State.bootType_keeps _ _ h) ‹_›)

/-- The same of the state that a result of booting types names. -/
theorem State.bootTypes_fst {s₀ s t : State} {l : List Nat} {ok : Bool} (h : Keeps s₀ s) (e : s.bootTypes l = (t, ok)) : Keeps s₀ t := by
  have := State.bootTypes_keeps l s h
  rwa [e] at this

theorem State.bootHalt_keeps {s₀ : State} (s : State) (stage reason : Nat) (hk : Keeps s₀ s) : Keeps s₀ (State.bootHalt s stage reason) := by
  unfold State.bootHalt
  repeat' first
    | with_reducible assumption
    | with_reducible exact Keeps.refl _
    | with_reducible apply State.railsHalted_keeps
    | ((with_reducible refine Keeps.upd rfl ?_ ?_ ?_ ?_); (first | with_reducible assumption | with_reducible exact Keeps.refl _ | with_reducible apply State.railsHalted_keeps))
    | (intro h; exact h)
    | (intro h; simpa using h)
    | with_reducible intro _ _
    | with_reducible intro _
    | dsimp only

theorem State.bootFast_keeps {s₀ : State} (s : State) (hk : Keeps s₀ s) : Keeps s₀ (State.bootFast s) := by
  unfold State.bootFast
  split
  · exact State.bootHalt_keeps _ _ _ (State.bootTypes_fst hk ‹_›)
  · exact State.railsUpTo_keeps _ _ (Keeps.upd rfl (State.bootTypes_fst hk ‹_›) id id id)

theorem State.dropRecord_keeps {s₀ : State} (s : State) (r : FlashRecord) (hk : Keeps s₀ s) : Keeps s₀ (State.dropRecord s r) := by
  unfold State.dropRecord
  split
  · exact Keeps.upd rfl hk id (fun h => Nat.le_trans (List.length_filter_le _ _) h) id
  · exact Keeps.upd rfl hk id id id
  · exact Keeps.upd rfl hk id id id
  · exact Keeps.upd rfl hk id id id
  · exact State.modFw_keeps _ _ _ hk
  · exact State.modFw_keeps _ _ _ hk

theorem State.dropTags_keeps {s₀ : State} (s : State) (f : BootFinding) (hk : Keeps s₀ s) : Keeps s₀ (State.dropTags s f) :=
  Keeps.foldl_trans hk fun s e => State.dropRecord_keeps s e.1 (.refl s)

theorem State.logTags_keeps {s₀ : State} (s : State) (f : BootFinding) (hk : Keeps s₀ s) : Keeps s₀ (State.logTags s f) := by
  unfold State.logTags
  repeat' first
    | with_reducible assumption
    | with_reducible exact Keeps.refl _
    | with_reducible apply State.logDevice_keeps
    | with_reducible apply Keeps.foldl_trans
    | split
    | with_reducible intro _ _
    | with_reducible intro _
    | dsimp only

theorem State.bootStage4_keeps {s₀ : State} (s : State) (f : BootFinding) (hk : Keeps s₀ s) : Keeps s₀ (State.bootStage4 s f) := by
  unfold State.bootStage4
  dsimp only
  repeat' first
    | with_reducible assumption
    | with_reducible exact Keeps.refl _
    | with_reducible apply Keeps.ite
    | with_reducible apply State.logTags_keeps
    | with_reducible apply State.dropTags_keeps
    | with_reducible apply State.logDevice_keeps
    | ((with_reducible refine Keeps.upd rfl ?_ ?_ ?_ ?_); (first | with_reducible assumption | with_reducible exact Keeps.refl _ | with_reducible apply State.logTags_keeps | with_reducible apply State.dropTags_keeps | with_reducible apply State.logDevice_keeps | with_reducible apply Keeps.ite | (split <;> skip)))
    | (intro h; exact h)
    | (intro h; simpa using h)
    | split
    | with_reducible intro _ _
    | with_reducible intro _
    | dsimp only

theorem State.boot_keeps {s₀ : State} (s : State) (f : BootFinding) (hk : Keeps s₀ s) : Keeps s₀ (State.boot s f) := by
  unfold State.boot
  dsimp only
  split
  · exact State.bootHalt_keeps _ _ _ hk
  · split
    · exact State.bootHalt_keeps _ _ _ hk
    · split <;> rename_i e <;> have g := State.bootTypes_fst (State.dropTags_keeps _ _ (Keeps.upd rfl hk id id id)) e
      · exact State.bootHalt_keeps _ _ _ g
      · have g4 := State.bootStage4_keeps _ f g
        exact Keeps.ite (State.railsHalted_keeps _ g4) (State.bootFast_keeps _ g4)

theorem execDumpRead_keeps {s₀ : State} (s : State) (hk : Keeps s₀ s) : OutKeeps s₀ (execDumpRead s) := by
  unfold execDumpRead
  dsimp only
  repeat' first
    | with_reducible assumption
    | with_reducible apply MbKeeps.ite
    | with_reducible apply State.mbServe_keeps
    | with_reducible apply MbKeeps.mk
    | with_reducible intro _ _

theorem execServiceClear_keeps {s₀ : State} (s : State) (hk : Keeps s₀ s) : OutKeeps s₀ (execServiceClear s) := by
  unfold execServiceClear
  dsimp only
  repeat' first
    | with_reducible assumption
    | with_reducible exact Keeps.refl _
    | with_reducible apply OutKeeps.next
    | with_reducible apply OutKeeps.ite
    | with_reducible apply MbKeeps.ite
    | with_reducible apply Keeps.ite
    | with_reducible apply State.bootFast_keeps
    | with_reducible apply State.mbServe_keeps
    | with_reducible apply State.announce_keeps
    | with_reducible apply State.logDevice_keeps
    | ((with_reducible refine Keeps.upd rfl ?_ ?_ ?_ ?_); (first | with_reducible assumption | with_reducible exact Keeps.refl _ | with_reducible apply State.bootFast_keeps | with_reducible apply State.mbServe_keeps | with_reducible apply State.announce_keeps | with_reducible apply State.logDevice_keeps | with_reducible apply Keeps.ite | (split <;> skip)))
    | (intro h; exact h)
    | (intro h; simpa using h)
    | split
    | with_reducible apply MbKeeps.mk
    | with_reducible intro _ _
    | with_reducible intro _
    | dsimp only

theorem State.chargeIce_keeps {s₀ : State} (s : State) (i : Nat) (hk : Keeps s₀ s) : OptKeeps s₀ (State.chargeIce s i) := by
  unfold State.chargeIce
  dsimp only
  repeat' first
    | with_reducible exact OptKeeps.none _
    | with_reducible apply OptKeeps.some
    | with_reducible apply OptKeeps.ite
    | ((with_reducible refine Keeps.upd rfl ?_ ?_ ?_ ?_); (first | with_reducible assumption | with_reducible exact Keeps.refl _ | with_reducible apply State.modQuota_keeps | with_reducible apply Keeps.ite | (split <;> skip)))
    | (intro h; exact h)

theorem State.writeStripe_keeps {s₀ : State} (s : State) (stripe src : Nat) (hk : Keeps s₀ s) : Keeps s₀ (State.writeStripe s stripe src) := by
  unfold State.writeStripe
  dsimp only
  repeat' first
    | ((with_reducible refine Keeps.upd rfl ?_ ?_ ?_ ?_); (first | with_reducible assumption | with_reducible exact Keeps.refl _ | with_reducible apply State.undefine_keeps | with_reducible apply State.fresh_keeps | with_reducible apply Keeps.foldl_trans))
    | (intro h; exact h)
    | (intro h; exact mapRising_foldl _ _ _ (Mem.undefine_wf h _ _))

theorem State.writeStripes_keeps {s₀ : State} (n : Nat) : ∀ (s : State) (stripe src : Nat), Keeps s₀ s →
    Keeps s₀ (s.writeStripes stripe src n).1 := by
  induction n with
  | zero => exact fun s _ _ h => h
  | succ n ih =>
    intro s stripe src h
    unfold State.writeStripes
    split
    · exact h
    · exact ih _ _ _ (State.writeStripe_keeps _ _ _ h)

theorem State.dropIceLines_keeps {s₀ : State} (s : State) (hk : Keeps s₀ s) : Keeps s₀ (State.dropIceLines s) := by
  unfold State.dropIceLines
  repeat' first
    | ((with_reducible refine Keeps.upd rfl ?_ ?_ ?_ ?_); (first | with_reducible assumption | with_reducible exact Keeps.refl _))
    | (intro h; exact h)

theorem State.provision_keeps {s₀ : State} (s : State) (i src first count : Nat) (h : Keeps s₀ s) :
    MbKeeps s₀ (s.provision i src first count) := by
  unfold State.provision
  have hw := State.writeStripes_keeps count s ((s.obj i).stripe + first) src h
  have hd : Keeps s₀ (if (s.writeStripes ((s.obj i).stripe + first) src count).2.1 = 0 then
      (s.writeStripes ((s.obj i).stripe + first) src count).1
      else (s.writeStripes ((s.obj i).stripe + first) src count).1.dropIceLines) :=
    Keeps.ite hw (State.dropIceLines_keeps _ hw)
  exact Keeps.ite (State.modObj_keeps _ _ _ hd) hd

theorem execIceProvision_keeps {s₀ : State} (s : State) (hk : Keeps s₀ s) : OutKeeps s₀ (execIceProvision s) := by
  unfold execIceProvision
  dsimp only
  repeat' first
    | with_reducible assumption
    | with_reducible apply OutKeeps.next
    | with_reducible apply OutKeeps.ite
    | with_reducible apply State.provision_keeps
    | with_reducible apply State.chargeIce_keeps
    | with_reducible apply State.mbServe_keeps
    | with_reducible refine OptKeeps.elim ?_ ‹_ = some _›
    | split
    | with_reducible apply MbKeeps.mk
    | with_reducible intro _ _

theorem execIceRelease_keeps {s₀ : State} (s : State) (hk : Keeps s₀ s) : OutKeeps s₀ (execIceRelease s) := by
  unfold execIceRelease
  dsimp only
  repeat' first
    | with_reducible apply State.mbServe_keeps
    | ((with_reducible refine Keeps.upd rfl ?_ ?_ ?_ ?_); (first | with_reducible assumption | with_reducible exact Keeps.refl _ | with_reducible apply State.mbServe_keeps | with_reducible apply State.undefine_keeps | with_reducible apply State.modQuota_keeps | with_reducible apply Keeps.foldl_trans | (split <;> skip)))
    | (intro h; exact h)
    | with_reducible apply MbKeeps.mk
    | with_reducible intro _ _

end Sys2Proof.Machine
end

