-- ==== Sys2Proof/Laws/KeepsPowerOps.lean ====
section
/-! SUPPORT. What the operations of Machine/PowerOps.lean keep: one lemma each. -/
namespace Sys2Proof.Machine

theorem execPowerProfile_keeps {s₀ : State} (w : RegVal) (s : State) (hk : Keeps s₀ s) : OutKeeps s₀ (execPowerProfile w s) := by
  unfold execPowerProfile
  repeat' first
    | with_reducible apply OutKeeps.next
    | with_reducible apply OutKeeps.ite
    | ((with_reducible refine Keeps.upd rfl ?_ ?_ ?_ ?_); (first | with_reducible assumption | with_reducible exact Keeps.refl _ | with_reducible apply Keeps.ite | (split <;> skip)))
    | (intro h; exact h)

theorem execProfileChange_keeps {s₀ : State} (now : Word64) (s : State) (hk : Keeps s₀ s) : OutKeeps s₀ (execProfileChange now s) := by
  unfold execProfileChange
  repeat' first
    | with_reducible apply OutKeeps.next
    | with_reducible apply State.at__keeps
    | ((with_reducible refine Keeps.upd rfl ?_ ?_ ?_ ?_); (first | with_reducible assumption | with_reducible exact Keeps.refl _ | with_reducible apply State.at__keeps | with_reducible refine OptKeeps.elim ?_ ‹_ = some _› | with_reducible apply Keeps.ite | (split <;> skip)))
    | (intro h; exact h)
    | split

theorem State.gatePower_keeps {s₀ : State} (s : State) (i : Nat) (hk : Keeps s₀ s) : Keeps s₀ (State.gatePower s i) := by
  unfold State.gatePower
  dsimp only
  repeat' first
    | with_reducible assumption
    | with_reducible apply Keeps.ite
    | with_reducible apply State.modCore_keeps
    | with_reducible apply State.modAgent_keeps

theorem execPowerGate_keeps {s₀ : State} (i : Nat) (now : Word64) (s : State) (hk : Keeps s₀ s) : OutKeeps s₀ (execPowerGate i now s) := by
  unfold execPowerGate
  dsimp only
  repeat' first
    | with_reducible assumption
    | with_reducible apply OutKeeps.next
    | with_reducible apply State.gatePower_keeps
    | with_reducible apply State.at__keeps
    | with_reducible refine OptKeeps.elim ?_ ‹_ = some _›
    | split

theorem State.pauseArray_keeps {s₀ : State} (s : State) (a : Nat) (hk : Keeps s₀ s) : Keeps s₀ (State.pauseArray s a) := by
  unfold State.pauseArray
  repeat' first
    | with_reducible assumption
    | with_reducible exact Keeps.refl _
    | with_reducible apply Keeps.ite
    | with_reducible apply State.modArray_keeps
    | ((with_reducible refine Keeps.upd rfl ?_ ?_ ?_ ?_); (first | with_reducible assumption | with_reducible exact Keeps.refl _ | with_reducible apply State.modArray_keeps | with_reducible apply Keeps.ite | (split <;> skip)))
    | (intro h; exact h)
    | (intro h; simpa using h)
    | split
    | with_reducible intro _ _
    | with_reducible intro _
    | dsimp only

theorem pauseArrays_keeps {s₀ : State} (cap : Nat) (l : List Nat) : ∀ (e : Nat) (s : State), Keeps s₀ s →
    Keeps s₀ (pauseArrays cap l e s).2 := by
  induction l with
  | nil => exact fun _ _ h => h
  | cons a l ih =>
    intro e s h
    unfold pauseArrays
    repeat' split
    · exact h
    · exact ih _ _ (State.pauseArray_keeps _ _ h)
    · exact ih _ _ h

theorem State.resumeArray_keeps {s₀ : State} (s : State) (a : Nat) (hk : Keeps s₀ s) : Keeps s₀ (State.resumeArray s a) := by
  unfold State.resumeArray
  dsimp only
  repeat' first
    | with_reducible assumption
    | with_reducible apply Keeps.ite
    | with_reducible apply State.modArray_keeps
    | with_reducible apply State.modAgent_keeps

theorem releaseArrays_keeps {s₀ : State} (l : List Nat) : ∀ (e : Nat) (s : State), Keeps s₀ s →
    Keeps s₀ (releaseArrays l e s).2 := by
  induction l with
  | nil => exact fun _ _ h => h
  | cons a l ih =>
    intro e s h
    unfold releaseArrays
    repeat' split
    · exact ih _ _ (State.resumeArray_keeps _ _ h)
    · exact h
    · exact ih _ _ h

theorem releaseWakes_keeps {s₀ : State} (l : List Nat) : ∀ (e : Nat) (s : State), Keeps s₀ s →
    Keeps s₀ (releaseWakes l e s).2 := by
  induction l with
  | nil => exact fun _ _ h => h
  | cons a l ih =>
    intro e s h
    unfold releaseWakes
    split
    · exact ih _ _ (State.modAgent_keeps _ _ _ h)
    · exact ih _ _ h

theorem fillCapRecord_length (arrays hold : Nat) (l : List LogRec) : (fillCapRecord arrays hold l).length = l.length := by
  induction l with
  | nil => rfl
  | cons r l ih =>
    unfold fillCapRecord
    split
    · rfl
    · simp [ih]

theorem State.noteHold_keeps {s₀ : State} (s : State) (held : Bool) (hk : Keeps s₀ s) : Keeps s₀ (s.noteHold held) := by
  have h1 : Keeps s₀ (if held then s.heldByCap else s) := Keeps.ite (State.heldByCap_keeps _ hk) hk
  unfold State.noteHold
  extract_lets n s1 p arrays time r s2
  have h2 : Keeps s₀ s2 := Keeps.ite (Keeps.upd rfl h1 id (fun h => by rw [fillCapRecord_length]; exact h) id) h1
  exact Keeps.upd rfl h2 id id id

theorem State.holdArrays_keeps {s₀ : State} (s : State) (past : Bool) (e : Nat) (l : List Nat) (hk : Keeps s₀ s) :
    Keeps s₀ (s.holdArrays past e l) := by
  refine State.noteHold_keeps _ _ (releaseWakes_keeps _ _ _ ?_)
  split
  · exact pauseArrays_keeps _ _ _ _ hk
  · exact releaseArrays_keeps _ _ _ hk

theorem State.sampled_keeps {s₀ : State} (s : State) (now : Word64) (e : Nat) (hk : Keeps s₀ s) : Keeps s₀ (State.sampled s now e) :=
  State.holdArrays_keeps _ _ _ _ (Keeps.upd rfl hk id id id)

theorem execEnvelopeSample_keeps {s₀ : State} (now : Word64) (stackGBs : List Nat) (iceGBs : Nat) (s : State) (hk : Keeps s₀ s) : OutKeeps s₀ (execEnvelopeSample now stackGBs iceGBs s) := by
  unfold execEnvelopeSample
  split
  · exact .next hk
  · exact .next (.ite (State.sampled_keeps _ _ _ (OptKeeps.elim (State.at__keeps _ _ hk) ‹_›)) hk)

theorem execInputPowerSample_keeps {s₀ : State} (watts : Nat) (now : Word64) (s : State) (hk : Keeps s₀ s) : OutKeeps s₀ (execInputPowerSample watts now s) := by
  unfold execInputPowerSample
  dsimp only
  repeat' first
    | with_reducible apply OutKeeps.next
    | with_reducible apply State.at__keeps
    | ((with_reducible refine Keeps.upd rfl ?_ ?_ ?_ ?_); (first | with_reducible assumption | with_reducible exact Keeps.refl _ | with_reducible apply State.powerFail_keeps | with_reducible apply State.at__keeps | with_reducible refine OptKeeps.elim ?_ ‹_ = some _› | with_reducible apply Keeps.ite | (split <;> skip)))
    | (intro h; exact h)
    | split

theorem execInputSag_keeps {s₀ : State} (mv : Nat) (now : Word64) (s : State) (hk : Keeps s₀ s) : OutKeeps s₀ (execInputSag mv now s) := by
  unfold execInputSag
  dsimp only
  repeat' first
    | with_reducible apply OutKeeps.next
    | with_reducible apply State.at__keeps
    | ((with_reducible refine Keeps.upd rfl ?_ ?_ ?_ ?_); (first | with_reducible assumption | with_reducible exact Keeps.refl _ | with_reducible apply State.powerFail_keeps | with_reducible apply State.logEvent_keeps | with_reducible apply State.at__keeps | with_reducible refine OptKeeps.elim ?_ ‹_ = some _› | with_reducible apply Keeps.ite | (split <;> skip)))
    | (intro h; exact h)
    | split

theorem execPowerFail_keeps {s₀ : State} (mv : Nat) (now : Word64) (s : State) (hk : Keeps s₀ s) : OutKeeps s₀ (execPowerFail mv now s) := by
  unfold execPowerFail
  dsimp only
  repeat' first
    | with_reducible apply OutKeeps.next
    | with_reducible apply State.at__keeps
    | ((with_reducible refine Keeps.upd rfl ?_ ?_ ?_ ?_); (first | with_reducible assumption | with_reducible exact Keeps.refl _ | with_reducible apply State.powerFail_keeps | with_reducible apply State.at__keeps | with_reducible refine OptKeeps.elim ?_ ‹_ = some _› | with_reducible apply Keeps.ite | (split <;> skip)))
    | (intro h; exact h)
    | split

theorem State.tripArray_keeps {s₀ : State} (s : State) (a : Nat) (hk : Keeps s₀ s) : Keeps s₀ (State.tripArray s a) := by
  unfold State.tripArray
  dsimp only
  repeat' first
    | with_reducible assumption
    | with_reducible apply Keeps.ite
    | with_reducible apply State.faultArray_keeps
    | with_reducible apply State.recordFault_keeps
    | with_reducible apply State.modAgent_keeps

theorem State.tripDie_keeps {s₀ : State} (s : State) (die : Nat) (hk : Keeps s₀ s) : Keeps s₀ (State.tripDie s die) := by
  unfold State.tripDie
  dsimp only
  repeat' first
    | ((with_reducible refine Keeps.upd rfl ?_ ?_ ?_ ?_); (first | with_reducible assumption | with_reducible exact Keeps.refl _ | with_reducible apply State.tripArray_keeps | with_reducible apply State.escalate_keeps | with_reducible apply Keeps.foldl_trans))
    | (intro h; exact h)
    | with_reducible intro _ _

theorem execDieTempReport_keeps {s₀ : State} (die temp : Nat) (s : State) (hk : Keeps s₀ s) : OutKeeps s₀ (execDieTempReport die temp s) := by
  unfold execDieTempReport
  dsimp only
  repeat' first
    | with_reducible apply OutKeeps.next
    | with_reducible apply OutKeeps.ite
    | ((with_reducible refine Keeps.upd rfl ?_ ?_ ?_ ?_); (first | with_reducible assumption | with_reducible exact Keeps.refl _ | with_reducible apply State.tripDie_keeps | with_reducible apply State.warmReset_keeps | with_reducible apply State.logEvent_keeps | with_reducible apply State.logDevice_keeps | with_reducible apply Keeps.ite | (split <;> skip)))
    | (intro h; exact h)

theorem execDieTrip_keeps {s₀ : State} (w : RegVal) (s : State) (hk : Keeps s₀ s) : OutKeeps s₀ (execDieTrip w s) := by
  unfold execDieTrip
  dsimp only
  repeat' first
    | with_reducible apply OutKeeps.next
    | with_reducible apply OutKeeps.ite
    | ((with_reducible refine Keeps.upd rfl ?_ ?_ ?_ ?_); (first | with_reducible assumption | with_reducible exact Keeps.refl _ | with_reducible apply Keeps.ite | (split <;> skip)))
    | (intro h; exact h)

theorem State.openWindow_keeps {s₀ : State} (s : State) (us : Nat) (hk : Keeps s₀ s) : Keeps s₀ (State.openWindow s us) := by
  unfold State.openWindow
  repeat' first
    | with_reducible assumption
    | with_reducible exact Keeps.refl _
    | with_reducible apply State.fresh_keeps
    | ((with_reducible refine Keeps.upd rfl ?_ ?_ ?_ ?_); (first | with_reducible assumption | with_reducible exact Keeps.refl _ | with_reducible apply State.fresh_keeps))
    | (intro h; exact h)
    | (intro h; simpa using h)
    | with_reducible intro _ _
    | with_reducible intro _
    | dsimp only

theorem execMowWindowStart_keeps {s₀ : State} (now : Word64) (s : State) (hk : Keeps s₀ s) : OutKeeps s₀ (execMowWindowStart now s) := by
  unfold execMowWindowStart
  dsimp only
  repeat' first
    | with_reducible assumption
    | with_reducible apply OutKeeps.next
    | with_reducible apply State.openWindow_keeps
    | with_reducible apply State.at__keeps
    | with_reducible refine OptKeeps.elim ?_ ‹_ = some _›
    | split

theorem execMowForced_keeps {s₀ : State} (now : Word64) (s : State) (hk : Keeps s₀ s) : OutKeeps s₀ (execMowForced now s) := by
  unfold execMowForced
  dsimp only
  repeat' first
    | with_reducible apply OutKeeps.next
    | with_reducible apply State.at__keeps
    | ((with_reducible refine Keeps.upd rfl ?_ ?_ ?_ ?_); (first | with_reducible assumption | with_reducible exact Keeps.refl _ | with_reducible apply State.openWindow_keeps | with_reducible apply State.logEvent_keeps | with_reducible apply State.at__keeps | with_reducible refine OptKeeps.elim ?_ ‹_ = some _› | with_reducible apply Keeps.ite | (split <;> skip)))
    | (intro h; exact h)
    | split

theorem execMowConfig_keeps {s₀ : State} (w : RegVal) (s : State) (hk : Keeps s₀ s) : OutKeeps s₀ (execMowConfig w s) := by
  unfold execMowConfig
  dsimp only
  repeat' first
    | with_reducible apply OutKeeps.next
    | with_reducible apply OutKeeps.ite
    | ((with_reducible refine Keeps.upd rfl ?_ ?_ ?_ ?_); (first | with_reducible assumption | with_reducible exact Keeps.refl _ | with_reducible apply Keeps.ite | (split <;> skip)))
    | (intro h; exact h)

theorem execMowPhase_keeps {s₀ : State} (w : RegVal) (s : State) (hk : Keeps s₀ s) : OutKeeps s₀ (execMowPhase w s) := by
  unfold execMowPhase
  repeat' first
    | with_reducible apply OutKeeps.next
    | with_reducible apply OutKeeps.ite
    | ((with_reducible refine Keeps.upd rfl ?_ ?_ ?_ ?_); (first | with_reducible assumption | with_reducible exact Keeps.refl _ | with_reducible apply Keeps.ite | (split <;> skip)))
    | (intro h; exact h)

end Sys2Proof.Machine
end

