-- ==== Sys2Proof/Laws/KeepsSundialCmds.lean ====
section
/-! SUPPORT. What the operations of Machine/SundialCmds.lean keep: one lemma each. -/
namespace Sys2Proof.Machine

theorem execSyncReq_keeps {s₀ : State} (p : Nat) (h : Hdr) (t2 t3 : Nat) (s : State) (hk : Keeps s₀ s) : OutKeeps s₀ (execSyncReq p h t2 t3 s) := by
  unfold execSyncReq
  dsimp only
  repeat' first
    | with_reducible assumption
    | with_reducible apply OutKeeps.next
    | with_reducible apply OutKeeps.ite
    | with_reducible apply Keeps.ite
    | with_reducible apply State.elect_keeps
    | with_reducible apply State.send_keeps
    | with_reducible apply State.modPort_keeps

theorem State.steer_keeps {s₀ : State} (s : State) (parent : Int) (locked : Bool) (hk : Keeps s₀ s) : Keeps s₀ (State.steer s parent locked) := by
  unfold State.steer
  dsimp only
  repeat' first
    | ((with_reducible refine Keeps.upd rfl ?_ ?_ ?_ ?_); (first | with_reducible assumption | with_reducible exact Keeps.refl _ | with_reducible apply Keeps.ite | (split <;> skip)))
    | (intro h; exact h)

theorem execSyncResp_keeps {s₀ : State} (p : Nat) (h : Hdr) (t4 : Nat) (s : State) (hk : Keeps s₀ s) : OutKeeps s₀ (execSyncResp p h t4 s) := by
  unfold execSyncResp
  dsimp only
  repeat' first
    | with_reducible assumption
    | with_reducible apply OutKeeps.next
    | with_reducible apply State.steer_keeps
    | with_reducible apply State.modPort_keeps
    | split

theorem State.settlePeriod_keeps {s₀ : State} (s : State) (hk : Keeps s₀ s) : Keeps s₀ (State.settlePeriod s) := by
  unfold State.settlePeriod
  dsimp only
  repeat' first
    | ((with_reducible refine Keeps.upd rfl ?_ ?_ ?_ ?_); (first | with_reducible assumption | with_reducible exact Keeps.refl _ | with_reducible apply Keeps.ite | (split <;> skip)))
    | (intro h; exact h)

theorem execSyncPeriod_keeps {s₀ : State} (p t1 : Nat) (equalising : Bool) (s : State) (hk : Keeps s₀ s) : OutKeeps s₀ (execSyncPeriod p t1 equalising s) := by
  unfold execSyncPeriod
  dsimp only
  repeat' first
    | with_reducible assumption
    | with_reducible apply OutKeeps.next
    | with_reducible apply OutKeeps.ite
    | with_reducible apply Keeps.ite
    | with_reducible apply State.settlePeriod_keeps
    | with_reducible apply State.elect_keeps
    | with_reducible apply State.send_keeps
    | with_reducible apply State.modPort_keeps

theorem execPpsEdge_keeps {s₀ : State} (now : Word64) (s : State) (hk : Keeps s₀ s) : OutKeeps s₀ (execPpsEdge now s) := by
  unfold execPpsEdge
  dsimp only
  repeat' first
    | with_reducible apply OutKeeps.next
    | with_reducible apply State.at__keeps
    | ((with_reducible refine Keeps.upd rfl ?_ ?_ ?_ ?_); (first | with_reducible assumption | with_reducible exact Keeps.refl _ | with_reducible apply State.at__keeps | with_reducible refine OptKeeps.elim ?_ ‹_ = some _› | with_reducible apply Keeps.ite | (split <;> skip)))
    | (intro h; exact h)
    | split

theorem execPpsEdgeLoss_keeps {s₀ : State} (now : Word64) (s : State) (hk : Keeps s₀ s) : OutKeeps s₀ (execPpsEdgeLoss now s) := by
  unfold execPpsEdgeLoss
  repeat' first
    | with_reducible apply OutKeeps.next
    | with_reducible apply State.at__keeps
    | ((with_reducible refine Keeps.upd rfl ?_ ?_ ?_ ?_); (first | with_reducible assumption | with_reducible exact Keeps.refl _ | with_reducible apply State.at__keeps | with_reducible refine OptKeeps.elim ?_ ‹_ = some _› | with_reducible apply Keeps.ite | (split <;> skip)))
    | (intro h; exact h)
    | split

end Sys2Proof.Machine
end

