-- ==== Sys2Proof/Laws/KeepsRegisters.lean ====
section
/-! SUPPORT. What the operations of Machine/Registers.lean keep: one lemma each. -/
namespace Sys2Proof.Machine

theorem State.afterRead_keeps {s₀ : State} (s : State) (a : Nat) (hk : Keeps s₀ s) : Keeps s₀ (State.afterRead s a) := by
  unfold State.afterRead
  repeat' first
    | with_reducible assumption
    | with_reducible apply State.coreStatusRead_keeps
    | with_reducible apply State.fresh_keeps
    | split

theorem stateOf_keeps {s₀ : State} (s : State) (o : Outcome) (h : Keeps s₀ s) (ho : OutKeeps s₀ o) : Keeps s₀ (stateOf s o) := by
  unfold stateOf
  split
  · exact ho _ rfl
  · exact h

theorem State.writePower_keeps {s₀ : State} (s : State) (off : Nat) (w : RegVal) (hk : Keeps s₀ s) : Keeps s₀ (State.writePower s off w) := by
  unfold State.writePower
  dsimp only
  repeat' first
    | with_reducible apply execMowPhase_keeps
    | with_reducible apply execMowConfig_keeps
    | with_reducible apply execDieTrip_keeps
    | with_reducible apply execPowerProfile_keeps
    | ((with_reducible refine Keeps.upd rfl ?_ ?_ ?_ ?_); (first | with_reducible assumption | with_reducible exact Keeps.refl _ | with_reducible apply stateOf_keeps | with_reducible apply execMowPhase_keeps | with_reducible apply execMowConfig_keeps | with_reducible apply execDieTrip_keeps | with_reducible apply execPowerProfile_keeps | with_reducible apply Keeps.ite | (split <;> skip)))
    | (intro h; exact h)

theorem State.writeLink_keeps {s₀ : State} (s : State) (off : Nat) (w : RegVal) (hk : Keeps s₀ s) : Keeps s₀ (State.writeLink s off w) := by
  unfold State.writeLink
  dsimp only
  repeat' first
    | with_reducible apply execLinkPortConfig_keeps
    | with_reducible apply execRouteEntryWrite_keeps
    | with_reducible apply execLinkNodeId_keeps
    | ((with_reducible refine Keeps.upd rfl ?_ ?_ ?_ ?_); (first | with_reducible assumption | with_reducible exact Keeps.refl _ | with_reducible apply stateOf_keeps | with_reducible apply execLinkPortConfig_keeps | with_reducible apply execRouteEntryWrite_keeps | with_reducible apply execLinkNodeId_keeps | with_reducible apply State.modPort_keeps | with_reducible apply Keeps.ite | (split <;> skip)))
    | (intro h; exact h)

theorem State.writeRecovery_keeps {s₀ : State} (s : State) (off : Nat) (w : RegVal) (hk : Keeps s₀ s) : Keeps s₀ (State.writeRecovery s off w) := by
  unfold State.writeRecovery
  dsimp only
  repeat' first
    | ((with_reducible refine Keeps.upd rfl ?_ ?_ ?_ ?_); (first | with_reducible assumption | with_reducible exact Keeps.refl _ | with_reducible apply State.driverReset_keeps | with_reducible apply State.modAgent_keeps | with_reducible apply Keeps.ite | (split <;> skip)))
    | (intro h; exact h)

theorem State.mboxGo_keeps {s₀ : State} (s : State) (w : RegVal) (hk : Keeps s₀ s) : Keeps s₀ (State.mboxGo s w) := by
  unfold State.mboxGo
  dsimp only
  repeat' first
    | ((with_reducible refine Keeps.upd rfl ?_ ?_ ?_ ?_); (first | with_reducible assumption | with_reducible exact Keeps.refl _ | with_reducible apply Keeps.ite | (split <;> skip)))
    | (intro h; exact h)

theorem State.writeGatehouse_keeps {s₀ : State} (s : State) (off : Nat) (w : RegVal) (hk : Keeps s₀ s) : Keeps s₀ (State.writeGatehouse s off w) := by
  unfold State.writeGatehouse
  dsimp only
  repeat' first
    | ((with_reducible refine Keeps.upd rfl ?_ ?_ ?_ ?_); (first | with_reducible assumption | with_reducible exact Keeps.refl _ | with_reducible apply State.mboxGo_keeps | with_reducible apply Keeps.foldl_trans | with_reducible apply Keeps.ite | (split <;> skip)))
    | (intro h; exact h)

theorem State.writeMemory_keeps {s₀ : State} (s : State) (off : Nat) (w : RegVal) (hk : Keeps s₀ s) : Keeps s₀ (State.writeMemory s off w) := by
  unfold State.writeMemory
  repeat' first
    | with_reducible apply execOvertempStop_keeps
    | ((with_reducible refine Keeps.upd rfl ?_ ?_ ?_ ?_); (first | with_reducible assumption | with_reducible exact Keeps.refl _ | with_reducible apply stateOf_keeps | with_reducible apply execOvertempStop_keeps | with_reducible apply State.modStack_keeps | with_reducible apply Keeps.ite | (split <;> skip)))
    | (intro h; exact h)

theorem State.writeQuota_keeps {s₀ : State} (s : State) (off : Nat) (w : RegVal) (hk : Keeps s₀ s) : Keeps s₀ (State.writeQuota s off w) := by
  unfold State.writeQuota
  repeat' first
    | ((with_reducible refine Keeps.upd rfl ?_ ?_ ?_ ?_); (first | with_reducible assumption | with_reducible exact Keeps.refl _ | with_reducible apply State.modQuota_keeps | with_reducible apply Keeps.ite | (split <;> skip)))
    | (intro h; exact h)

theorem State.writeCorePort_keeps {s₀ : State} (s : State) (k off : Nat) (w : RegVal) (hk : Keeps s₀ s) : Keeps s₀ (State.writeCorePort s k off w) := by
  unfold State.writeCorePort
  dsimp only
  repeat' first
    | with_reducible assumption
    | with_reducible apply Keeps.ite
    | with_reducible apply State.portStore_keeps
    | with_reducible apply State.modCore_keeps

theorem State.writeBlock_keeps {s₀ : State} (s : State) (b : Block) (off : Nat) (w : RegVal) (hk : Keeps s₀ s) : Keeps s₀ (State.writeBlock s b off w) := by
  unfold State.writeBlock
  repeat' first
    | with_reducible apply execObjTableWrite_keeps
    | with_reducible apply execAgentFaultClear_keeps
    | with_reducible apply execGateSignal_keeps
    | with_reducible apply execGateValue_keeps
    | with_reducible apply execEpochCancel_keeps
    | with_reducible apply execEpochPublish_keeps
    | ((with_reducible refine Keeps.upd rfl ?_ ?_ ?_ ?_); (first | with_reducible assumption | with_reducible exact Keeps.refl _ | with_reducible apply State.writeCorePort_keeps | with_reducible apply State.writeQuota_keeps | with_reducible apply State.writeMemory_keeps | with_reducible apply State.writeGatehouse_keeps | with_reducible apply State.writeRecovery_keeps | with_reducible apply State.writeLink_keeps | with_reducible apply State.writePower_keeps | with_reducible apply stateOf_keeps | with_reducible apply execObjTableWrite_keeps | with_reducible apply execAgentFaultClear_keeps | with_reducible apply execGateSignal_keeps | with_reducible apply execGateValue_keeps | with_reducible apply execEpochCancel_keeps | with_reducible apply execEpochPublish_keeps | with_reducible apply State.modArray_keeps | with_reducible apply Keeps.ite | (split <;> skip)))
    | (intro h; exact h)

theorem State.driverWrite_keeps {s₀ : State} (s : State) (a : Nat) (w : RegVal) (hk : Keeps s₀ s) : Keeps s₀ (State.driverWrite s a w) := by
  unfold State.driverWrite
  repeat' first
    | with_reducible assumption
    | with_reducible apply State.writeBlock_keeps
    | split

theorem execRegisterWrite_keeps {s₀ : State} (a : Nat) (w : RegVal) (s : State) (hk : Keeps s₀ s) : OutKeeps s₀ (execRegisterWrite a w s) := by
  unfold execRegisterWrite
  repeat' first
    | with_reducible assumption
    | with_reducible apply OutKeeps.next
    | with_reducible apply Keeps.ite
    | with_reducible apply State.driverWrite_keeps

end Sys2Proof.Machine
end

