-- ==== Sys2Proof/Laws/KeepsTransactions.lean ====
section
/-! SUPPORT. What the operations of Machine/Transactions.lean keep: one lemma each. -/
namespace Sys2Proof.Machine

theorem State.controlWrite_keeps {s₀ : State} (s : State) (a size : Nat) (data : List Byte) (hk : Keeps s₀ s) : Keeps s₀ (State.controlWrite s a size data) := by
  unfold State.controlWrite
  dsimp only
  repeat' first
    | with_reducible assumption
    | with_reducible exact Keeps.refl _
    | with_reducible apply Keeps.ite
    | with_reducible apply State.driverWrite_keeps
    | with_reducible apply Keeps.foldl_trans
    | ((with_reducible refine Keeps.upd rfl ?_ ?_ ?_ ?_); (first | with_reducible assumption | with_reducible exact Keeps.refl _ | with_reducible apply State.driverWrite_keeps | with_reducible apply Keeps.foldl_trans | with_reducible apply Keeps.ite | (split <;> skip)))
    | (intro h; exact h)
    | (intro h; simpa using h)
    | split
    | with_reducible intro _ _
    | with_reducible intro _
    | dsimp only

theorem State.controlReadEffect_keeps {s₀ : State} (s : State) (a size : Nat) (hk : Keeps s₀ s) : Keeps s₀ (State.controlReadEffect s a size) := by
  unfold State.controlReadEffect
  repeat' first
    | with_reducible assumption
    | with_reducible exact Keeps.refl _
    | with_reducible apply Keeps.ite
    | with_reducible apply State.afterRead_keeps
    | with_reducible apply Keeps.foldl_trans
    | split
    | with_reducible intro _ _
    | with_reducible intro _
    | dsimp only

theorem State.driverAccess_keeps {s₀ : State} (s : State) (p : Nat) (h : Hdr) (data : List Byte) (hk : Keeps s₀ s) : OptKeeps s₀ (State.driverAccess s p h data) := by
  unfold State.driverAccess
  dsimp only
  repeat' first
    | with_reducible assumption
    | with_reducible exact Keeps.refl _
    | with_reducible exact OptKeeps.none _
    | with_reducible apply OptKeeps.some
    | with_reducible apply OptKeeps.ite
    | with_reducible apply OptKeeps.map
    | with_reducible apply Keeps.ite
    | with_reducible apply State.controlReadEffect_keeps
    | with_reducible apply State.controlWrite_keeps
    | with_reducible apply State.nackTo_keeps
    | with_reducible apply State.respond_keeps
    | with_reducible apply State.portWrite_keeps
    | with_reducible refine OptKeeps.elim ?_ ‹_ = some _›
    | split
    | with_reducible intro _ _
    | with_reducible intro _
    | dsimp only

theorem State.memoryTxn_keeps {s₀ s : State} {x : Hdr} {data : List Byte} {r : State × Nat × List Byte} (h : Keeps s₀ s)
    (e : s.memoryTxn x data = .ok r) : Keeps s₀ r.1 := by
  unfold State.memoryTxn at e
  dsimp only at e
  repeat' split at e
  all_goals cases e
  · exact ExKeeps.elim (State.applyWrite_keeps _ _ _ _ _ h) ‹_›
  all_goals exact State.fresh_keeps _ h

theorem State.memoryArrives_keeps {s₀ : State} (s : State) (p : Nat) (h : Hdr) (data : List Byte) (hk : Keeps s₀ s) : Keeps s₀ (State.memoryArrives s p h data) := by
  unfold State.memoryArrives
  repeat' first
    | with_reducible assumption
    | with_reducible exact Keeps.refl _
    | with_reducible apply OptKeeps.map
    | with_reducible refine State.memoryTxn_keeps ?_ ‹_›
    | with_reducible apply State.nackTo_keeps
    | with_reducible apply State.respond_keeps
    | split
    | with_reducible intro _ _
    | with_reducible intro _
    | dsimp only

theorem State.memoryAccess_keeps {s₀ : State} (s : State) (p : Nat) (h : Hdr) (data : List Byte) (hk : Keeps s₀ s) : OptKeeps s₀ (State.memoryAccess s p h data) := by
  unfold State.memoryAccess
  dsimp only
  repeat' first
    | with_reducible assumption
    | with_reducible exact Keeps.refl _
    | with_reducible exact OptKeeps.none _
    | with_reducible apply OptKeeps.some
    | with_reducible apply OptKeeps.ite
    | with_reducible apply OptKeeps.map
    | with_reducible apply Keeps.ite
    | with_reducible apply State.memoryArrives_keeps
    | split
    | with_reducible intro _ _
    | with_reducible intro _
    | dsimp only

theorem State.access_keeps {s₀ : State} (s : State) (p : Nat) (h : Hdr) (data : List Byte) (hk : Keeps s₀ s) : OptKeeps s₀ (State.access s p h data) := by
  unfold State.access
  repeat' first
    | with_reducible assumption
    | with_reducible exact Keeps.refl _
    | with_reducible exact OptKeeps.none _
    | with_reducible apply OptKeeps.some
    | with_reducible apply OptKeeps.ite
    | with_reducible apply OptKeeps.map
    | with_reducible apply Keeps.ite
    | with_reducible apply State.memoryAccess_keeps
    | with_reducible apply State.driverAccess_keeps
    | with_reducible refine OptKeeps.elim ?_ ‹_ = some _›
    | split
    | with_reducible intro _ _
    | with_reducible intro _
    | dsimp only

theorem State.attempt_keeps {s₀ : State} (s : State) (p : Nat) (h : Hdr) (data : List Byte) (hk : Keeps s₀ s) : Keeps s₀ (State.attempt s p h data) := by
  unfold State.attempt
  dsimp only
  repeat' first
    | with_reducible assumption
    | with_reducible exact Keeps.refl _
    | with_reducible apply Keeps.getD
    | with_reducible apply Keeps.ite
    | with_reducible apply State.access_keeps
    | with_reducible refine OptKeeps.elim ?_ ‹_ = some _›
    | ((with_reducible refine Keeps.upd rfl ?_ ?_ ?_ ?_); (first | with_reducible assumption | with_reducible exact Keeps.refl _ | with_reducible apply State.access_keeps | with_reducible refine OptKeeps.elim ?_ ‹_ = some _› | with_reducible apply Keeps.ite | (split <;> skip)))
    | (intro h; exact h)
    | (intro h; simpa using h)
    | split
    | with_reducible intro _ _
    | with_reducible intro _
    | dsimp only

theorem State.releaseHeld_keeps {s₀ : State} (s : State) (hk : Keeps s₀ s) : Keeps s₀ (State.releaseHeld s) := by
  unfold State.releaseHeld
  repeat' first
    | with_reducible assumption
    | with_reducible exact Keeps.refl _
    | with_reducible apply State.attempt_keeps
    | with_reducible apply Keeps.foldl_trans
    | ((with_reducible refine Keeps.upd rfl ?_ ?_ ?_ ?_); (first | with_reducible assumption | with_reducible exact Keeps.refl _ | with_reducible apply State.attempt_keeps | with_reducible apply Keeps.foldl_trans))
    | (intro h; exact h)
    | (intro h; simpa using h)
    | with_reducible intro _ _
    | with_reducible intro _
    | dsimp only

theorem State.signalArrives_keeps {s₀ : State} (s : State) (p : Nat) (h : Hdr) (hk : Keeps s₀ s) : Keeps s₀ (State.signalArrives s p h) := by
  unfold State.signalArrives
  dsimp only
  repeat' first
    | with_reducible assumption
    | with_reducible exact Keeps.refl _
    | with_reducible apply Keeps.ite
    | with_reducible apply State.nackTo_keeps
    | with_reducible apply State.respond_keeps
    | with_reducible apply State.logDenied_keeps
    | with_reducible apply State.applyRemoteSignal_keeps
    | with_reducible refine ExKeeps.elim ?_ ‹_ = Except.ok _›
    | split
    | with_reducible intro _ _
    | with_reducible intro _
    | dsimp only

theorem State.exportArrives_keeps {s₀ : State} (s : State) (p : Nat) (hk : Keeps s₀ s) : Keeps s₀ (State.exportArrives s p) := by
  unfold State.exportArrives
  repeat' first
    | with_reducible assumption
    | with_reducible exact Keeps.refl _
    | with_reducible apply State.modPort_keeps
    | ((with_reducible refine Keeps.upd rfl ?_ ?_ ?_ ?_); (first | with_reducible assumption | with_reducible exact Keeps.refl _ | with_reducible apply State.modPort_keeps))
    | (intro h; exact h)
    | (intro h; simpa using h)
    | with_reducible intro _ _
    | with_reducible intro _
    | dsimp only

theorem State.arrives_keeps {s₀ : State} (s : State) (p : Nat) (h : Hdr) (data : List Byte) (hk : Keeps s₀ s) : Keeps s₀ (State.arrives s p h data) := by
  unfold State.arrives
  repeat' first
    | with_reducible assumption
    | with_reducible exact Keeps.refl _
    | with_reducible apply Keeps.ite
    | with_reducible apply State.exportArrives_keeps
    | with_reducible apply State.signalArrives_keeps
    | with_reducible apply State.attempt_keeps
    | split
    | with_reducible intro _ _
    | with_reducible intro _
    | dsimp only

theorem State.directedArrives_keeps {s₀ : State} (s : State) (p : Nat) (h : Hdr) (data : List Byte) (hk : Keeps s₀ s) : Keeps s₀ (State.directedArrives s p h data) := by
  unfold State.directedArrives
  dsimp only
  repeat' first
    | with_reducible assumption
    | with_reducible exact Keeps.refl _
    | with_reducible apply Keeps.ite
    | with_reducible apply State.exportArrives_keeps
    | with_reducible apply State.attempt_keeps
    | with_reducible apply State.nackTo_keeps
    | with_reducible apply State.send_keeps
    | with_reducible apply State.modPort_keeps
    | ((with_reducible refine Keeps.upd rfl ?_ ?_ ?_ ?_); (first | with_reducible assumption | with_reducible exact Keeps.refl _ | with_reducible apply State.exportArrives_keeps | with_reducible apply State.attempt_keeps | with_reducible apply State.nackTo_keeps | with_reducible apply State.send_keeps | with_reducible apply State.modPort_keeps | with_reducible apply Keeps.ite | (split <;> skip)))
    | (intro h; exact h)
    | (intro h; simpa using h)
    | split
    | with_reducible intro _ _
    | with_reducible intro _
    | dsimp only

theorem State.forward_keeps {s₀ : State} (s : State) (p : Nat) (h : Hdr) (data : List Byte) (hk : Keeps s₀ s) : Keeps s₀ (State.forward s p h data) := by
  unfold State.forward
  dsimp only
  repeat' first
    | with_reducible assumption
    | with_reducible exact Keeps.refl _
    | with_reducible apply Keeps.ite
    | with_reducible apply State.nackTo_keeps
    | with_reducible apply State.send_keeps
    | ((with_reducible refine Keeps.upd rfl ?_ ?_ ?_ ?_); (first | with_reducible assumption | with_reducible exact Keeps.refl _ | with_reducible apply State.nackTo_keeps | with_reducible apply State.send_keeps | with_reducible apply Keeps.ite | (split <;> skip)))
    | (intro h; exact h)
    | (intro h; simpa using h)
    | split
    | with_reducible intro _ _
    | with_reducible intro _
    | dsimp only

theorem State.request_keeps {s₀ : State} (s : State) (p : Nat) (h : Hdr) (data : List Byte) (hk : Keeps s₀ s) : Keeps s₀ (State.request s p h data) := by
  unfold State.request
  repeat' first
    | with_reducible assumption
    | with_reducible exact Keeps.refl _
    | with_reducible apply Keeps.ite
    | with_reducible apply State.forward_keeps
    | with_reducible apply State.directedArrives_keeps
    | with_reducible apply State.arrives_keeps
    | with_reducible apply State.nackTo_keeps
    | split
    | with_reducible intro _ _
    | with_reducible intro _
    | dsimp only

theorem execWrite_keeps {s₀ : State} (p : Nat) (h : Hdr) (data : List Byte) (s : State) (hk : Keeps s₀ s) : OutKeeps s₀ (execWrite p h data s) := by
  unfold execWrite
  repeat' first
    | with_reducible assumption
    | with_reducible exact Keeps.refl _
    | with_reducible apply OutKeeps.next
    | with_reducible apply OutKeeps.ite
    | with_reducible apply Keeps.ite
    | with_reducible apply State.request_keeps
    | split
    | with_reducible intro _ _
    | with_reducible intro _
    | dsimp only

theorem execReadReq_keeps {s₀ : State} (p : Nat) (h : Hdr) (s : State) (hk : Keeps s₀ s) : OutKeeps s₀ (execReadReq p h s) := by
  unfold execReadReq
  repeat' first
    | with_reducible assumption
    | with_reducible exact Keeps.refl _
    | with_reducible apply OutKeeps.next
    | with_reducible apply OutKeeps.ite
    | with_reducible apply Keeps.ite
    | with_reducible apply State.request_keeps
    | split
    | with_reducible intro _ _
    | with_reducible intro _
    | dsimp only

theorem execGsigTransaction_keeps {s₀ : State} (p : Nat) (h : Hdr) (s : State) (hk : Keeps s₀ s) : OutKeeps s₀ (execGsigTransaction p h s) := by
  unfold execGsigTransaction
  repeat' first
    | with_reducible assumption
    | with_reducible exact Keeps.refl _
    | with_reducible apply OutKeeps.next
    | with_reducible apply OutKeeps.ite
    | with_reducible apply Keeps.ite
    | with_reducible apply State.request_keeps
    | split
    | with_reducible intro _ _
    | with_reducible intro _
    | dsimp only

theorem execExportTxn_keeps {s₀ : State} (p : Nat) (h : Hdr) (data : List Byte) (s : State) (hk : Keeps s₀ s) : OutKeeps s₀ (execExportTxn p h data s) := by
  unfold execExportTxn
  repeat' first
    | with_reducible assumption
    | with_reducible exact Keeps.refl _
    | with_reducible apply OutKeeps.next
    | with_reducible apply OutKeeps.ite
    | with_reducible apply Keeps.ite
    | with_reducible apply State.request_keeps
    | split
    | with_reducible intro _ _
    | with_reducible intro _
    | dsimp only

theorem State.retrace_keeps {s₀ : State} (s : State) (p : Nat) (t : Txn) (hk : Keeps s₀ s) : Keeps s₀ (State.retrace s p t) := by
  unfold State.retrace
  dsimp only
  repeat' first
    | with_reducible assumption
    | with_reducible exact Keeps.refl _
    | with_reducible apply Keeps.ite
    | with_reducible apply State.send_keeps
    | with_reducible apply State.modPort_keeps
    | ((with_reducible refine Keeps.upd rfl ?_ ?_ ?_ ?_); (first | with_reducible assumption | with_reducible exact Keeps.refl _ | with_reducible apply State.send_keeps | with_reducible apply State.modPort_keeps | with_reducible apply Keeps.ite | (split <;> skip)))
    | (intro h; exact h)
    | (intro h; simpa using h)
    | split
    | with_reducible intro _ _
    | with_reducible intro _
    | dsimp only

theorem State.relay_keeps {s₀ : State} (s : State) (q : Nat) (t : Txn) (hk : Keeps s₀ s) : Keeps s₀ (State.relay s q t) := by
  unfold State.relay
  repeat' first
    | with_reducible assumption
    | with_reducible exact Keeps.refl _
    | with_reducible apply Keeps.ite
    | with_reducible apply State.send_keeps
    | split
    | with_reducible intro _ _
    | with_reducible intro _
    | dsimp only

theorem State.response_keeps {s₀ : State} (s : State) (p : Nat) (h : Hdr) (data : List Byte) (code : Option Nat) (hk : Keeps s₀ s) : Keeps s₀ (State.response s p h data code) := by
  unfold State.response
  dsimp only
  repeat' first
    | with_reducible assumption
    | with_reducible exact Keeps.refl _
    | with_reducible apply Keeps.ite
    | with_reducible apply State.relay_keeps
    | with_reducible apply State.retrace_keeps
    | with_reducible apply State.endTxn_keeps
    | with_reducible apply State.lateResponse_keeps
    | ((with_reducible refine Keeps.upd rfl ?_ ?_ ?_ ?_); (first | with_reducible assumption | with_reducible exact Keeps.refl _ | with_reducible apply State.relay_keeps | with_reducible apply State.retrace_keeps | with_reducible apply State.endTxn_keeps | with_reducible apply State.lateResponse_keeps | with_reducible apply Keeps.ite | (split <;> skip)))
    | (intro h; exact h)
    | (intro h; simpa using h)
    | split
    | with_reducible intro _ _
    | with_reducible intro _
    | dsimp only

theorem execReadResp_keeps {s₀ : State} (p : Nat) (h : Hdr) (data : List Byte) (s : State) (hk : Keeps s₀ s) : OutKeeps s₀ (execReadResp p h data s) := by
  unfold execReadResp
  repeat' first
    | with_reducible assumption
    | with_reducible exact Keeps.refl _
    | with_reducible apply OutKeeps.next
    | with_reducible apply OutKeeps.ite
    | with_reducible apply Keeps.ite
    | with_reducible apply State.response_keeps
    | split
    | with_reducible intro _ _
    | with_reducible intro _
    | dsimp only

theorem execAck_keeps {s₀ : State} (p : Nat) (h : Hdr) (s : State) (hk : Keeps s₀ s) : OutKeeps s₀ (execAck p h s) := by
  unfold execAck
  repeat' first
    | with_reducible assumption
    | with_reducible exact Keeps.refl _
    | with_reducible apply OutKeeps.next
    | with_reducible apply OutKeeps.ite
    | with_reducible apply Keeps.ite
    | with_reducible apply State.response_keeps
    | split
    | with_reducible intro _ _
    | with_reducible intro _
    | dsimp only

theorem execNack_keeps {s₀ : State} (p : Nat) (h : Hdr) (s : State) (hk : Keeps s₀ s) : OutKeeps s₀ (execNack p h s) := by
  unfold execNack
  repeat' first
    | with_reducible assumption
    | with_reducible exact Keeps.refl _
    | with_reducible apply OutKeeps.next
    | with_reducible apply OutKeeps.ite
    | with_reducible apply Keeps.ite
    | with_reducible apply State.response_keeps
    | split
    | with_reducible intro _ _
    | with_reducible intro _
    | dsimp only

end Sys2Proof.Machine
end

