-- ==== Sys2Proof/Laws/KeepsHolds.lean ====
section
/-! SUPPORT. What the operations of Machine/Holds.lean keep: one lemma each. -/
namespace Sys2Proof.Machine

theorem execMowWindowEnd_keeps {s₀ : State} (now : Word64) (s : State) (hk : Keeps s₀ s) : OutKeeps s₀ (execMowWindowEnd now s) := by
  unfold execMowWindowEnd
  repeat' first
    | with_reducible assumption
    | with_reducible exact Keeps.refl _
    | with_reducible apply OutKeeps.next
    | with_reducible apply OutKeeps.ite
    | with_reducible apply Keeps.ite
    | with_reducible apply State.releaseHeld_keeps
    | with_reducible apply State.at__keeps
    | with_reducible refine OptKeeps.elim ?_ ‹_ = some _›
    | ((with_reducible refine Keeps.upd rfl ?_ ?_ ?_ ?_); (first | with_reducible assumption | with_reducible exact Keeps.refl _ | with_reducible apply State.releaseHeld_keeps | with_reducible apply State.at__keeps | with_reducible refine OptKeeps.elim ?_ ‹_ = some _› | with_reducible apply Keeps.ite | (split <;> skip)))
    | (intro h; exact h)
    | (intro h; simpa using h)
    | split
    | with_reducible intro _ _
    | with_reducible intro _
    | dsimp only

theorem execResetComplete_keeps {s₀ : State} (domain target : Nat) (ok : Bool) (s : State) (hk : Keeps s₀ s) : OutKeeps s₀ (execResetComplete domain target ok s) := by
  unfold execResetComplete
  dsimp only
  repeat' first
    | with_reducible assumption
    | with_reducible exact Keeps.refl _
    | with_reducible apply OutKeeps.next
    | with_reducible apply OutKeeps.ite
    | with_reducible apply Keeps.ite
    | with_reducible apply State.releaseHeld_keeps
    | with_reducible apply State.retrained_keeps
    | with_reducible apply State.agentResumes_keeps
    | with_reducible apply State.enterOos_keeps
    | with_reducible apply State.haltBoot_keeps
    | with_reducible apply Keeps.foldl_trans
    | ((with_reducible refine Keeps.upd rfl ?_ ?_ ?_ ?_); (first | with_reducible assumption | with_reducible exact Keeps.refl _ | with_reducible apply State.releaseHeld_keeps | with_reducible apply State.retrained_keeps | with_reducible apply State.agentResumes_keeps | with_reducible apply State.enterOos_keeps | with_reducible apply State.haltBoot_keeps | with_reducible apply Keeps.foldl_trans | with_reducible apply Keeps.ite | (split <;> skip)))
    | (intro h; exact h)
    | (intro h; simpa using h)
    | split
    | with_reducible intro _ _
    | with_reducible intro _
    | dsimp only

end Sys2Proof.Machine
end

