-- ==== Sys2Proof/Laws/KeepsLanding.lean ====
section
/-! SUPPORT. What a tick keeps on which a unit of a write in progress may land. -/
namespace Sys2Proof.Machine

theorem Mem.takeUnit_wf {m : Mem} (h : m.wf = true) (n : Mem) (u : Nat) : (m.takeUnit n u).wf = true := by
  unfold Mem.takeUnit Mem.wf
  generalize List.range 64 = l
  have h : mapRising m.cells = true := h
  show mapRising _ = true
  generalize m.cells = c at h
  induction l generalizing c with
  | nil => exact h
  | cons j l ih =>
    refine ih _ ?_
    dsimp only
    split
    · exact mapRising_put _ _ h
    · exact mapRising_filter _ h

theorem State.landOf_keeps {s₀ : State} (s : State) (c : State → Outcome) (k : Nat) (hk : Keeps s₀ s) :
    OptKeeps s₀ (s.landOf c k) := by
  unfold State.landOf
  split
  · refine .bindOf fun u => ?_
    dsimp only
    split
    · exact .ite (.some (hk.upd rfl (fun h => Mem.takeUnit_wf h _ _) id id)) (.none _)
    · exact .none _
  · exact .none _

theorem State.land_keeps {s₀ : State} (s : State) (hk : Keeps s₀ s) : Keeps s₀ s.land := by
  unfold State.land
  have h2 := State.fresh_keeps _ (State.fresh_keeps _ hk)
  split
  · exact .getD (State.landOf_keeps _ _ _ h2) h2
  · exact hk

/-- A landing leaves every byte outside one unit as it was. -/
theorem Mem.takeUnit_byte {m n : Mem} {u a : Nat} (h : a / 64 ≠ u) : (m.takeUnit n u).byte? a = m.byte? a := by
  unfold Mem.takeUnit Mem.byte?
  dsimp only
  generalize hl : List.range 64 = l
  have hb : ∀ j ∈ l, j < 64 := by subst hl; exact fun j hj => List.mem_range.mp hj
  clear hl
  generalize m.cells = c
  induction l generalizing c with
  | nil => rfl
  | cons j l ih =>
    have hj : a ≠ 64 * u + j := by have := hb j List.mem_cons_self; omega
    rw [List.foldl_cons, ih (fun i hi => hb i (List.mem_cons_of_mem _ hi))]
    split
    · exact mapFind_put_ne hj _ _
    · exact mapFind_erase_ne hj _

end Sys2Proof.Machine
end

