-- ==== Sys2Proof/Laws/KeepsPinsOps.lean ====
section
/-! SUPPORT. What the operations of Machine/PinsOps.lean keep: one lemma each. -/
namespace Sys2Proof.Machine

theorem State.setPhase_keeps {s₀ : State} (s : State) (x : PowerPhase) (hk : Keeps s₀ s) : Keeps s₀ (State.setPhase s x) := by
  unfold State.setPhase
  repeat' first
    | ((with_reducible refine Keeps.upd rfl ?_ ?_ ?_ ?_); (first | with_reducible assumption | with_reducible exact Keeps.refl _))
    | (intro h; exact h)

theorem execPowerUp_keeps {s₀ : State} (sc mv : Nat) (s : State) (hk : Keeps s₀ s) : OutKeeps s₀ (execPowerUp sc mv s) := by
  unfold execPowerUp
  repeat' first
    | with_reducible apply OutKeeps.next
    | with_reducible apply OutKeeps.ite
    | ((with_reducible refine Keeps.upd rfl ?_ ?_ ?_ ?_); (first | with_reducible assumption | with_reducible exact Keeps.refl _ | with_reducible apply Keeps.ite | (split <;> skip)))
    | (intro h; exact h)

theorem execSoftStart_keeps {s₀ : State} (s : State) (hk : Keeps s₀ s) : OutKeeps s₀ (execSoftStart s) := by
  unfold execSoftStart
  repeat' first
    | with_reducible assumption
    | with_reducible apply OutKeeps.next
    | with_reducible apply OutKeeps.ite
    | with_reducible apply State.setPhase_keeps

theorem execPowerGood_keeps {s₀ : State} (s : State) (hk : Keeps s₀ s) : OutKeeps s₀ (execPowerGood s) := by
  unfold execPowerGood
  repeat' first
    | with_reducible assumption
    | with_reducible exact Keeps.refl _
    | with_reducible apply OutKeeps.next
    | with_reducible apply OutKeeps.ite
    | with_reducible apply Keeps.ite
    | with_reducible apply State.railsUpTo_keeps
    | ((with_reducible refine Keeps.upd rfl ?_ ?_ ?_ ?_); (first | with_reducible assumption | with_reducible exact Keeps.refl _ | with_reducible apply State.railsUpTo_keeps | with_reducible apply Keeps.ite | (split <;> skip)))
    | (intro h; exact h)
    | (intro h; simpa using h)
    | split
    | with_reducible intro _ _
    | with_reducible intro _
    | dsimp only

theorem execBootReady_keeps {s₀ : State} (f : BootFinding) (s : State) (hk : Keeps s₀ s) : OutKeeps s₀ (execBootReady f s) := by
  unfold execBootReady
  repeat' first
    | with_reducible assumption
    | with_reducible apply OutKeeps.next
    | with_reducible apply OutKeeps.ite
    | with_reducible apply State.boot_keeps

theorem execRailGroupTimeout_keeps {s₀ : State} (group : Nat) (s : State) (hk : Keeps s₀ s) : OutKeeps s₀ (execRailGroupTimeout group s) := by
  unfold execRailGroupTimeout
  repeat' first
    | with_reducible assumption
    | with_reducible apply OutKeeps.next
    | with_reducible apply OutKeeps.ite
    | with_reducible apply State.powerFail_keeps

theorem execMateNBreak_keeps {s₀ : State} (s : State) (hk : Keeps s₀ s) : OutKeeps s₀ (execMateNBreak s) := by
  unfold execMateNBreak
  dsimp only
  repeat' first
    | with_reducible apply OutKeeps.next
    | ((with_reducible refine Keeps.upd rfl ?_ ?_ ?_ ?_); (first | with_reducible assumption | with_reducible exact Keeps.refl _ | with_reducible apply State.setPhase_keeps | with_reducible apply State.powerFail_keeps | (split <;> skip)))
    | (intro h; exact h)
    | split

theorem execResetN_keeps {s₀ : State} (low : Nat) (s : State) (hk : Keeps s₀ s) : OutKeeps s₀ (execResetN low s) := by
  unfold execResetN
  dsimp only
  repeat' first
    | with_reducible apply OutKeeps.next
    | ((with_reducible refine Keeps.upd rfl ?_ ?_ ?_ ?_); (first | with_reducible assumption | with_reducible exact Keeps.refl _ | with_reducible apply State.setPhase_keeps | with_reducible apply State.powerOff_keeps | with_reducible apply Keeps.ite | (split <;> skip)))
    | (intro h; exact h)
    | split

theorem execJtagReset_keeps {s₀ : State} (s : State) (hk : Keeps s₀ s) : OutKeeps s₀ (execJtagReset s) := by
  unfold execJtagReset
  repeat' first
    | with_reducible apply OutKeeps.next
    | with_reducible apply OutKeeps.ite
    | ((with_reducible refine Keeps.upd rfl ?_ ?_ ?_ ?_); (first | with_reducible assumption | with_reducible exact Keeps.refl _ | with_reducible apply Keeps.ite | (split <;> skip)))
    | (intro h; exact h)

theorem State.smbAnswer_keeps {s₀ : State} (s : State) (code : Nat) (early : Bool) (l : List Nat) (hk : Keeps s₀ s) : Keeps s₀ (State.smbAnswer s code early l) := by
  unfold State.smbAnswer
  dsimp only
  repeat' first
    | ((with_reducible refine Keeps.upd rfl ?_ ?_ ?_ ?_); (first | with_reducible assumption | with_reducible exact Keeps.refl _ | with_reducible apply Keeps.ite | (split <;> skip)))
    | (intro h; exact h)

theorem execStatus_keeps {s₀ : State} (s : State) (hk : Keeps s₀ s) : OutKeeps s₀ (execStatus s) := by
  unfold execStatus
  repeat' first
    | with_reducible assumption
    | with_reducible apply OutKeeps.next
    | with_reducible apply State.smbAnswer_keeps

theorem execInputMv_keeps {s₀ : State} (s : State) (hk : Keeps s₀ s) : OutKeeps s₀ (execInputMv s) := by
  unfold execInputMv
  repeat' first
    | with_reducible assumption
    | with_reducible apply OutKeeps.next
    | with_reducible apply State.smbAnswer_keeps

theorem execInputW_keeps {s₀ : State} (s : State) (hk : Keeps s₀ s) : OutKeeps s₀ (execInputW s) := by
  unfold execInputW
  repeat' first
    | with_reducible assumption
    | with_reducible apply OutKeeps.next
    | with_reducible apply State.smbAnswer_keeps

theorem execDieTempMax_keeps {s₀ : State} (s : State) (hk : Keeps s₀ s) : OutKeeps s₀ (execDieTempMax s) := by
  unfold execDieTempMax
  repeat' first
    | with_reducible assumption
    | with_reducible apply OutKeeps.next
    | with_reducible apply State.smbAnswer_keeps

theorem execStackTempMax_keeps {s₀ : State} (s : State) (hk : Keeps s₀ s) : OutKeeps s₀ (execStackTempMax s) := by
  unfold execStackTempMax
  repeat' first
    | with_reducible assumption
    | with_reducible apply OutKeeps.next
    | with_reducible apply State.smbAnswer_keeps

theorem execSlot_keeps {s₀ : State} (s : State) (hk : Keeps s₀ s) : OutKeeps s₀ (execSlot s) := by
  unfold execSlot
  repeat' first
    | with_reducible assumption
    | with_reducible apply OutKeeps.next
    | with_reducible apply State.smbAnswer_keeps

theorem execSerial_keeps {s₀ : State} (s : State) (hk : Keeps s₀ s) : OutKeeps s₀ (execSerial s) := by
  unfold execSerial
  repeat' first
    | with_reducible assumption
    | with_reducible apply OutKeeps.next
    | with_reducible apply State.smbAnswer_keeps

theorem execSmbAlertResponse_keeps {s₀ : State} (s : State) (hk : Keeps s₀ s) : OutKeeps s₀ (execSmbAlertResponse s) := by
  unfold execSmbAlertResponse
  repeat' first
    | with_reducible apply OutKeeps.next
    | ((with_reducible refine Keeps.upd rfl ?_ ?_ ?_ ?_); (first | with_reducible assumption | with_reducible exact Keeps.refl _ | with_reducible apply Keeps.ite | (split <;> skip)))
    | (intro h; exact h)

end Sys2Proof.Machine
end

