-- ==== Sys2Proof/Laws/KeepsSessions.lean ====
section
/-! SUPPORT. What the operations of Machine/Sessions.lean keep: one lemma each. -/
namespace Sys2Proof.Machine

theorem State.sessionOpened_keeps {s₀ : State} (s : State) (w : Nat) (hk : Keeps s₀ s) : Keeps s₀ (State.sessionOpened s w) := by
  unfold State.sessionOpened
  dsimp only
  repeat' first
    | ((with_reducible refine Keeps.upd rfl ?_ ?_ ?_ ?_); (first | with_reducible assumption | with_reducible exact Keeps.refl _ | with_reducible apply State.modSession_keeps | with_reducible apply Keeps.ite | (split <;> skip)))
    | (intro h; exact h)

theorem State.sessionMapped_keeps {s₀ : State} (s : State) (w : Nat) (hk : Keeps s₀ s) : Keeps s₀ (State.sessionMapped s w) := by
  unfold State.sessionMapped
  repeat' first
    | ((with_reducible refine Keeps.upd rfl ?_ ?_ ?_ ?_); (first | with_reducible assumption | with_reducible exact Keeps.refl _ | with_reducible apply State.fresh_keeps))
    | (intro h; exact h)

theorem State.sessionLength_keeps {s₀ : State} (s : State) (w : Nat) (hk : Keeps s₀ s) : Keeps s₀ (State.sessionLength s w) := by
  unfold State.sessionLength
  repeat' first
    | with_reducible assumption
    | with_reducible apply State.modSession_keeps

theorem State.sessionClosed_keeps {s₀ : State} (s : State) (w : Nat) (hk : Keeps s₀ s) : Keeps s₀ (State.sessionClosed s w) := by
  unfold State.sessionClosed
  repeat' first
    | with_reducible assumption
    | with_reducible apply State.modSession_keeps

theorem State.sessionReport_keeps {s₀ : State} (s : State) (w outcome : Nat) (hk : Keeps s₀ s) : Keeps s₀ (State.sessionReport s w outcome) := by
  unfold State.sessionReport
  dsimp only
  repeat' first
    | with_reducible assumption
    | with_reducible apply Keeps.ite
    | with_reducible apply State.wrNat_keeps
    | with_reducible apply State.signalGate_keeps

theorem State.popPort_keeps {s₀ : State} (s : State) (hk : Keeps s₀ s) : Keeps s₀ (State.popPort s) := by
  unfold State.popPort
  repeat' first
    | with_reducible assumption
    | with_reducible exact Keeps.refl _
    | with_reducible apply State.releaseHeld_keeps
    | with_reducible apply State.releaseStores_keeps
    | ((with_reducible refine Keeps.upd rfl ?_ ?_ ?_ ?_); (first | with_reducible assumption | with_reducible exact Keeps.refl _ | with_reducible apply State.releaseHeld_keeps | with_reducible apply State.releaseStores_keeps))
    | (intro h; exact h)
    | (intro h; simpa using h)
    | with_reducible intro _ _
    | with_reducible intro _
    | dsimp only

theorem State.sessionRun_keeps {s₀ : State} (s : State) (cmd : Nat) (act : Nat → State → State)
    (h : Keeps s₀ s) (hact : ∀ w t, Keeps s₀ t → Keeps s₀ (act w t)) : OutKeeps s₀ (s.sessionRun cmd act) := by
  unfold State.sessionRun
  dsimp only
  split
  · exact .next h
  · exact .ite (.next (State.popPort_keeps _ (State.sessionReport_keeps _ _ _ (Keeps.ite (hact _ _ h) h)))) (.next h)

theorem execSessionOpen_keeps {s₀ : State} (s : State) (hk : Keeps s₀ s) : OutKeeps s₀ (execSessionOpen s) := by
  unfold execSessionOpen
  repeat' first
    | with_reducible assumption
    | with_reducible apply State.sessionRun_keeps
    | with_reducible apply State.sessionOpened_keeps
    | with_reducible intro _ _

theorem execMap_keeps {s₀ : State} (s : State) (hk : Keeps s₀ s) : OutKeeps s₀ (execMap s) := by
  unfold execMap
  repeat' first
    | with_reducible assumption
    | with_reducible apply State.sessionRun_keeps
    | with_reducible apply State.sessionMapped_keeps
    | with_reducible intro _ _

theorem execCommit_keeps {s₀ : State} (s : State) (hk : Keeps s₀ s) : OutKeeps s₀ (execCommit s) := by
  unfold execCommit
  repeat' first
    | with_reducible assumption
    | with_reducible apply State.sessionRun_keeps
    | with_reducible apply State.sessionLength_keeps
    | with_reducible intro _ _

theorem execTruncate_keeps {s₀ : State} (s : State) (hk : Keeps s₀ s) : OutKeeps s₀ (execTruncate s) := by
  unfold execTruncate
  repeat' first
    | with_reducible assumption
    | with_reducible apply State.sessionRun_keeps
    | with_reducible apply State.sessionLength_keeps
    | with_reducible intro _ _

theorem execSessionClose_keeps {s₀ : State} (s : State) (hk : Keeps s₀ s) : OutKeeps s₀ (execSessionClose s) := by
  unfold execSessionClose
  repeat' first
    | with_reducible assumption
    | with_reducible apply State.sessionRun_keeps
    | with_reducible apply State.sessionClosed_keeps
    | with_reducible intro _ _

end Sys2Proof.Machine
end

