-- ==== Sys2Proof/WellFormed.lean ====
section
/-! DEFINITION. Which commands are well formed: operands that name a part of the device name one it has (Tables 00-2, 01-1,
02-6, 12-8, 17-6), and counts and codes stay in the range of their field. A command outside these ranges names nothing of
the device. -/
namespace Sys2Proof

/-- An agent ID (Table 01-1). -/
def wfAgent (i : Nat) : Bool := decide (i < 230)
/-- An array. -/
def wfArray (a : Nat) : Bool := decide (a < 192)
/-- A mover. -/
def wfMover (m : Nat) : Bool := decide (m < 16)
/-- A host-class core. -/
def wfCore (k : Nat) : Bool := decide (k < 16)
/-- A codec core. -/
def wfCodec (c : Nat) : Bool := decide (c < 6)
/-- A port: 0 to 11 peer, 12 and 13 host (Table 12-8). -/
def wfPort (p : Nat) : Bool := decide (p < 14)
/-- A gate. -/
def wfGate (g : Nat) : Bool := decide (g < 131072)
/-- A stack. -/
def wfStack (k : Nat) : Bool := decide (k < 8)
/-- A device address (R17). -/
def wfAddr (a : Nat) : Bool := decide (a < 2 ^ 48)
/-- A transaction header whose fields fit Table 12-4. -/
def wfHdr (h : Hdr) : Bool :=
  decide (h.kind < 16) && decide (h.hops < 32) && decide (h.dst < 16384) && decide (h.src < 16384)
    && decide (h.tag < 65536) && decide (h.w1 < 2 ^ 64) && decide (h.w2 < 2 ^ 64) && decide (h.w3 < 2 ^ 64)
/-- A register an access writes exists. -/
def wfReg : CoreReg → Bool
  | .none => true
  | .x i => decide (i < 32)
  | .f i => decide (i < 32)
  | .v i => decide (i < 32)
/-- The sizes of a core's accesses (R333, R334). -/
def wfOp : CoreOp → Bool
  | .load n _ rd => [1, 2, 4, 8, 16, 32, 64].contains n && wfReg rd
  | .store n v => [1, 2, 4, 8, 16, 32, 64].contains n && decide (v < 2 ^ (8 * n))
  | .fetch => true
  | .amo _ n v rd => [4, 8].contains n && decide (v < 2 ^ (8 * n)) && wfReg rd
  | .lr n rd => [4, 8].contains n && wfReg rd
  | .sc n v rd => [4, 8].contains n && decide (v < 2 ^ (8 * n)) && wfReg rd
  | .zero | .sret => true
  | .csr _ n v rd => decide (n < 4096) && decide (v < 2 ^ 64) && wfReg rd

/-- A record of the flash partition names an image type (Table 15-2). -/
def flashRecordOk : FlashRecord → Bool
  | .counter t _ | .slot t _ => decide (1 ≤ t) && decide (t ≤ 4)
  | .log _ | .dump | .escalation | .service => true

/-- The command is well formed. -/
def Instr.wf : Instr → Bool
  | .epochPublish _ | .epochValidationEnd | .epochCancel _ => true
  | .scheduledWake i _ | .wakeComplete i _ | .agentStart i _ | .startLate i _ | .doneGateSignal i | .signalApply i _
  | .gateTimeout i _ | .boundaryFault i | .fenceComplete i => wfAgent i
  | .gateValue g _ | .gateSignal g _ => wfGate g
  | .nop a | .halt a | .fence a | .wake a | .gsig a | .gwait a | .tload a | .dload a | .ctxsave a | .ctxload a | .trdry a
  | .mm a | .mmc a | .mmx a | .conv a | .convf a | .attn a | .attnb a | .pscore a | .kvexp a | .vec a | .row a | .sfn a
  | .sort a | .rng a | .pool a | .resize a | .copy a | .trellisRowComplete a _ | .insnComplete a _ | .insnOpcode a
  | .arrayReset a _ => wfArray a
  | .tableSwap a t => wfArray a && decide (t < 16)
  | .moverCopy m | .promote m | .evict m | .alloc m | .xserve m | .moverGsig m | .moverGwait m | .moverFence m | .moverEnd m
  | .moverCopyComplete m | .promotionCopyDone m | .xserveTimeout m _ | .exportFrame m | .moverOpcode m
  | .moverReset m => wfMover m
  | .sessionOpen | .map | .commit | .truncate | .sessionClose => true
  | .coreAccess k op a => wfCore k && wfOp op && decide (a < 2 ^ 64)
  | .cboClean k a | .cboFlush k a | .cboInval k a | .cacheWriteback k a => wfCore k && wfAddr a
  | .coreGsig k _ | .coreWaitTarget k _ | .coreFence k _ | .coreEcall k | .coreClearWriteback k
  | .coreException k _ _ => wfCore k
  | .coreWaitStatus k rd | .coreFenceDone k rd => wfCore k && wfReg rd
  | .codecOpen c | .encFrame c | .decFrame c | .codecClose c | .codecGsig c | .codecGwait c | .codecFence c | .codecEnd c
  | .frameComplete c | .codecCtxBusy c _ | .codecOpcode c | .codecCoreReset c => wfCodec c
  | .stackTempReport k t => wfStack k && decide (t < 256)
  | .overtempStop k _ => wfStack k
  | .imbalanceSample k c _ _ _ => wfStack k && decide (c < 128)
  | .patrolScrub u _ => decide (u < 2 ^ 34)
  | .iceStripeRead r _ => decide (r < 2 ^ 27)
  | .iceChannelFailed c => decide (c < 72)
  | .objTableWrite i w _ => decide (i < 2 ^ 20) && decide (w < 4)
  | .trainingComplete p _ _ _ | .linkTrainRetry p _ | .neighbourTimeout p _ | .controlFlitTimer p _ | .lossOfSignal p
  | .linkPortConfig p _ | .portReset p | .partnerDetection p | .syncPeriod p _ _ => wfPort p
  | .trainReceive p _ _ ctrl _ _ => wfPort p && decide (ctrl.length ≤ 256)
  | .write p h d | .readResp p h d | .exportTxn p h d => wfPort p && wfHdr h && decide (d.length = 64 * bits h.w2 0 7)
  | .readReq p h | .ack p h | .nack p h | .gsigTransaction p h | .syncReq p h _ _ | .syncResp p h _ | .neighbour p h => wfPort p && wfHdr h
  | .linkTimeout t _ => decide (t < 65536)
  | .linkNodeId _ => true
  | .routeEntryWrite n _ => decide (n < 16384)
  | .ppsEdge _ | .powerProfile _ | .profileChange _ | .ppsEdgeLoss _ => true
  | .powerGate i _ | .progressTimeout i _ | .agentFaultClear i _ => wfAgent i
  | .envelopeSample _ g _ => decide (g.length = 8)
  | .inputPowerSample w _ => decide (w < 65536)
  | .inputSag mv _ | .powerFail mv _ => decide (mv < 65536)
  | .dieTempReport d t => decide (d < 17) && decide (t < 256)
  | .dieTrip _ | .mowWindowStart _ | .mowWindowEnd _ | .mowForced _ | .mowConfig _ | .mowPhase _ | .gatehouseRestart _
  | .gatehouseRestartComplete | .hostCoreClusterReset | .dumpCaptureComplete | .logMirror _ => true
  | .channelRetrain c => decide (c < 1024)
  | .deviceWarmReset c _ => [1, 3, 4].contains c
  | .deviceColdReset c => [1, 2, 5].contains c
  | .resetComplete d _ _ => decide (1 ≤ d ∧ d ≤ 8)
  | .partRead | .quote | .extend | .fwStage | .fwVerify | .fwActivate | .fwCommit | .debugUnlock | .dumpRead | .serviceClear
  | .iceProvision | .iceRelease | .mboxOpcode => true
  | .powerUp sc mv => decide (sc < 64) && decide (mv < 65536)
  | .softStart | .powerGood => true
  | .bootReady f => f.tags.all fun e => flashRecordOk e.1
  | .railGroupTimeout g => decide (g ≤ 7)
  | .resetN _ | .mateNBreak | .jtagReset | .smbAlertResponse | .status | .inputMv | .inputW | .dieTempMax | .stackTempMax
  | .slot | .serial => true
  | .registerWrite a _ => wfAddr a && decide (a % 8 = 0)

end Sys2Proof
end

