-- ==== Sys2Proof/Tests/Slice0.lean ====
section
/-! SUPPORT. Tests: the well-formedness checks on ill-formed commands, one step of each command on a small state, with the values
the rules give, and for each statement with hypotheses a state that meets them. -/
namespace Sys2Proof.Tests
open Sys2Proof Sys2Proof.Machine
set_option Elab.async false

/-! ## Small states -/

/-- The state after one command. -/
def after (c : Instr) (s : State) : Option State :=
  match exec c s with
  | .next t => some t
  | _ => none

/-- One command leads to a state with this property. -/
def gives (c : Instr) (s : State) (p : State → Bool) : Bool := (after c s).any p

/-- The module in service: power is good and boot is complete. -/
def up : State :=
  { State.reset with
    pins := { phase := .on, pgood := true, mated := true, rails := railOrder }, sundial := 1000000,
    gatehouse := { stage := 7, ready := true, identity := true, boots := 1 } }

/-- The address of test programs, in stack memory. -/
def codeAddr : Nat := 0x10000

/-- An epoch entry of agent `i`. -/
def entryAt (i : Nat) (start : Word64) : EpochEntry :=
  { start := start, program := codeAddr, epoch := 1, agent := i, lateFault := true, doneGate := 7, doneValid := true }

/-- Agent `i` runs a program whose next slots hold the `n` bytes of `w`. -/
def runs (i n w : Nat) : State :=
  (up.modAgent i fun g => { g with prog := .running, gating := .running, ip := codeAddr, running := some (entryAt i 0) }).wrNat codeAddr n w

/-- A driver's write of a whole register, and of its low half. -/
def reg (v : Nat) : RegVal := { half := .both, value := BitVec.ofNat 64 v }
def lowReg (v : Nat) : RegVal := { half := .low, value := BitVec.ofNat 64 v }

/-- A fault record of an agent. -/
def someRec (i : Nat) : FaultRec :=
  { info := { code := cInsnOpcode }, agent := i, opcode := 0, epoch := 1, sundial := 0, addr := 0, lastTile := 0, tileCount := 0,
    multi := false, seq := 1 }

/-- A check answers this value. -/
def okIs {ε α : Type} [DecidableEq α] (x : Except ε α) (v : α) : Bool :=
  match x with
  | .ok y => decide (y = v)
  | .error _ => false
theorem okIs_eq {ε α : Type} [DecidableEq α] {x : Except ε α} {v : α} (h : okIs x v = true) : x = .ok v := by
  cases x with
  | ok y => simpa [okIs] using h
  | error e => simp [okIs] at h

/-- The conditions of `moverStarts` and `codecStarts`, as checks. -/
theorem moverStarts_of {s : State} {m op w : Nat} (h : (s.moverReady m && okIs (s.fetchCmd (208 + m) cMoverFetch 64 mvBytes) w
    && decide (w % 256 = op) && decide (mvFault op w = none)) = true) : s.moverStarts m op w := by
  simp only [Bool.and_eq_true, decide_eq_true_eq] at h
  exact ⟨h.1.1.1, okIs_eq h.1.1.2, h.1.2, h.2⟩
theorem codecStarts_of {s : State} {c op w : Nat} (h : (s.codecReady c && okIs (s.fetchCmd (224 + c) cCodecFetch 64 cdBytes) w
    && decide (w % 256 = op) && cdKnown c op && !s.coreUnpowered c && decide (cdFault c op w = none)) = true) : s.codecStarts c op w := by
  simp only [Bool.and_eq_true, decide_eq_true_eq, Bool.not_eq_true'] at h
  exact ⟨h.1.1.1.1.1, okIs_eq h.1.1.1.1.2, h.1.1.1.2, h.1.1.2, h.1.2, h.2⟩
/-- The state after a command that answers. -/
def next (c : Instr) (s : State) : State := (after c s).getD s
/-- A place in array 0's local store, past the Trellis window as it is at reset (R197). -/
def ls (off : Nat) : Nat := lsAddr 0 off
/-- Session 0 is open, with no token yet; its latent is 64 BF16 elements. -/
def withSession (s : State) : State :=
  { s with sessions := { s.sessions with recs := [(0, {
      valid := true, gen := 1, pagesPerLayer := 1, layers := 1, latent := 64, fmt := 7, slotBytes := 128, pageBytes := 8192, belv := 5 })] } }
/-- Object 5, of one block, in this state. -/
def object5 (kind : Bool) (st : ObjState) (pins : Nat) : Obj := { valid := true, kind := kind, st := st, size := 65536, base := 32, pins := pins }
/-- No object is about to leave where none is named. -/
theorem settled_of {s : State} (h : s.objects.objs = []) : s.settled := by
  intro i; simp [State.obj, h, mapGet, mapFind]
/-- A power state and a recovery state in the module in service. -/
def powered (p : Power) : State := { up with power := p }
def recovering (r : Recovery) : State := { up with recovery := r }
/-- The conditions of `serves`, as checks. -/
theorem serves_of {s : State} {code : Nat} (c : MboxCmd) (h : (s.alwaysOn && !s.gatehouse.restarting && decide (s.gatehouse.cmd = some c)
    && decide (c.code = code) && (s.mbRefusal c).isNone) = true) : s.serves code := by
  simp only [Bool.and_eq_true, decide_eq_true_eq, Bool.not_eq_true', Option.isNone_iff_eq_none] at h
  exact ⟨h.1.1.1.1, h.1.1.1.2, c, h.1.1.2, h.1.2, h.2⟩

/-! ## The queue -/

theorem witness_step_empty : State.reset.pending = [] := by decide +kernel
theorem witness_commandsKeepQueue : ∃ t, exec .slot up = .next t := ⟨_, rfl⟩
theorem witness_soundStateKept : ({ up with pending := [.slot] } : State).sound = true ∧ ∃ t, step { up with pending := [.slot] } = .next t :=
  ⟨by decide +kernel, _, rfl⟩
theorem test_idle_ticks : (match step up with
    | .next t => decide (t = { up with sundial := 1000001 })
    | _ => false) = true := by decide +kernel

/-! ## Publication (R26 to R30) -/

/-- A record of one entry: array 3, to start at 2,000,000 (Tables 01-2 and 01-3). -/
def recordWord : Nat :=
  packed [(0, 0, 16, 2), (2, 0, 16, 1), (32, 0, 64, 2000000), (40, 0, 64, codeAddr), (48, 0, 32, 9), (52, 0, 8, 3), (56, 0, 17, 5), (56, 31, 1, 1)]

/-- The Sundial is locked and a record lies at 0x4000, in validation. -/
def publishing : State :=
  let s := up.wrNat 0x4000 64 recordWord
  { s with sun := { s.sun with st := .locked }, epoch := { s.epoch with busy := some 0x4000 } }

theorem witness_publish : up.alwaysOn = true ∧ (up.gatehouse.ready = true ∨ up.gatehouse.halted = true) ∧ up.warmResetting = false
    ∧ (reg 0x4000).half = .both ∧ ¬ (up.recovery.oos = true ∨ up.gatehouse.ready = false ∨ up.gatehouse.halted = true)
    ∧ up.epoch.busy = none ∧ up.gatehouse.restarting = false := by decide +kernel
theorem witness_publish_off : ({ up with recovery := { oos := true } } : State).alwaysOn = true
    ∧ ({ up with recovery := { oos := true } } : State).recovery.oos = true := by decide +kernel
theorem witness_publish_busy : publishing.alwaysOn = true ∧ publishing.warmResetting = false ∧ publishing.epoch.busy.isSome = true
    ∧ ¬ (publishing.recovery.oos = true ∨ publishing.gatehouse.ready = false ∨ publishing.gatehouse.halted = true) := by decide +kernel
/-- The Gatehouse restarts. -/
def restarting : State := { up with gatehouse := { up.gatehouse with restarting := true } }
theorem witness_publish_restart : restarting.alwaysOn = true ∧ restarting.warmResetting = false ∧ restarting.epoch.busy = none
    ∧ restarting.gatehouse.restarting = true
    ∧ ¬ (restarting.recovery.oos = true ∨ restarting.gatehouse.ready = false ∨ restarting.gatehouse.halted = true) := by decide +kernel
theorem witness_cancel : up.driverReaches = true ∧ (lowReg 3).half ≠ .high ∧ up.epoch.busy = none ∧ (lowReg 3).fld 0 8 < 230
    ∧ publishing.driverReaches = true ∧ publishing.epoch.busy.isSome = true := by decide +kernel
theorem witness_publication_accepts : publishing.epoch.busy = some 0x4000 ∧ publishing.epoch.cancels = [] ∧ publishing.alwaysOn = true
    ∧ publishing.warmResetting = false ∧ ∃ es, publishing.validate 0x4000 = .ok es ∧ es ≠ [] ∧ ∀ e ∈ es, e.tooLate publishing.sundial = false :=
  ⟨by decide +kernel, by decide +kernel, by decide +kernel, by decide +kernel, _, rfl, by decide +kernel, by decide +kernel⟩
theorem witness_publication_refuses : ∃ i c, ({ publishing with sun := { publishing.sun with st := .free } } : State).validate 0x4000 = .error (i, c) :=
  ⟨_, _, rfl⟩
theorem test_epochPublish : gives (.epochPublish (reg 0x4000)) up (fun t => decide (t.epoch.busy = some 0x4000)) = true := by decide +kernel
theorem test_epochValidationEnd : gives .epochValidationEnd publishing (fun t => decide (t.epoch.accepted = true
    ∧ (t.agent 3).pending.map (·.start) = some 2000000 ∧ (t.agent 3).curEpoch = some 9)) = true := by decide +kernel
theorem test_epochCancel : gives (.epochCancel (lowReg 3)) (up.modAgent 3 fun g => { g with pending := some (entryAt 3 5) })
    (fun t => decide ((t.agent 3).pending = none ∧ t.epoch.cancelResult = 1)) = true := by decide +kernel

/-! ## Wakes, starts and ends (R31 to R36, R405, R406) -/

/-- Array 3 has an entry for 1,000,100, and its power-gated block is due to wake. -/
def due : State := up.modAgent 3 fun g => { g with pending := some (entryAt 3 1000100), wakeAt := some 1000000 }
/-- Array 3's block has been clock-gated since 900,000. -/
def idle3 : State := up.modAgent 3 fun g => { g with gating := .clockGated 900000 }
/-- Array 3 can start its entry. -/
def ready3 : State := up.modAgent 3 fun g => { g with pending := some (entryAt 3 1000100), gating := .running }
/-- Array 3's program has ended. -/
def ended3 : State := up.modAgent 3 fun g => { g with prog := .ending, running := some (entryAt 3 0), gating := .running }

theorem witness_wake_scheduled : due.agentsRun = true ∧ due.sundial.toNat ≤ (1000000#64).toNat ∧ (due.agent 3).wakeAt = some 1000000#64
    ∧ (due.agent 3).pending.isSome = true ∧ due.dieTripped 3 = false ∧ (due.agent 3).gating = .powerGated := by decide +kernel
theorem witness_wake_complete : (up.modAgent 3 fun g => { g with gating := .waking 5 }).agentsRun = true
    ∧ ((up.modAgent 3 fun g => { g with gating := .waking 5 }).agent 3).gating = .waking 5 := by decide +kernel
theorem witness_power_gate : idle3.agentsRun = true ∧ idle3.sundial.toNat ≤ (1000000#64).toNat ∧ (idle3.agent 3).gating = .clockGated 900000
    ∧ (idle3.agent 3).awakeUntil = none ∧ (idle3.agent 3).prog ≠ .resetting
    ∧ usTicks idle3.power.idleHold ≤ (1000000#64).toNat - (900000#64).toNat := by decide +kernel
theorem witness_start : ready3.sundial.toNat ≤ (1000100#64).toNat ∧ (ready3.agent 3).pending = some (entryAt 3 1000100) ∧ isCore 3 = false
    ∧ ready3.agentsRun = true ∧ (ready3.agent 3).prog = .idle ∧ (ready3.agent 3).fault = none ∧ ready3.dieTripped 3 = false
    ∧ (ready3.agent 3).gating = .running ∧ (ready3.array 3).flights = [] := by decide +kernel
theorem witness_late : ready3.sundial.toNat ≤ (1004100#64).toNat ∧ (ready3.agent 3).pending = some (entryAt 3 1000100)
    ∧ (entryAt 3 1000100).lateFault = true ∧ (entryAt 3 1000100).start.toNat + 4000 ≤ (1004100#64).toNat := by decide +kernel
theorem witness_end : ended3.agentsRun = true ∧ (ended3.agent 3).prog = .ending ∧ (ended3.agent 3).running = some (entryAt 3 0)
    ∧ (ended3.agent 3).fences = [] ∧ (ended3.agent 3).signals = [] ∧ (ended3.agent 3).waits = [] ∧ (ended3.agent 3).boundary = []
    ∧ (ended3.agent 3).fault = none ∧ isCore 3 = false := by decide +kernel
theorem test_scheduledWake : gives (.scheduledWake 3 1000000) due (fun t => decide ((t.agent 3).gating = .waking 1000000)) = true := by decide +kernel
theorem test_wakeComplete : gives (.wakeComplete 3 1000010) (up.modAgent 3 fun g => { g with gating := .waking 5 })
    (fun t => decide ((t.agent 3).gating = .clockGated 1000010)) = true := by decide +kernel
theorem test_powerGate : gives (.powerGate 3 1000000) idle3 (fun t => decide ((t.agent 3).gating = .powerGated)) = true := by decide +kernel
theorem test_powerGate_early : gives (.powerGate 3 1000000) (up.modAgent 3 fun g => { g with gating := .clockGated 920001 })
    (fun t => decide ((t.agent 3).gating = .clockGated 920001)) = true := by decide +kernel
theorem test_agentStart : gives (.agentStart 3 1000100) ready3 (fun t => decide ((t.agent 3).prog = .running ∧ (t.agent 3).ip = codeAddr
    ∧ (t.agent 3).pending = none)) = true := by decide +kernel
theorem test_startLate : gives (.startLate 3 1004100) ready3 (fun t => decide ((t.agent 3).pending = none
    ∧ (t.agent 3).fault.map (fun r => (r.info.code, r.info.d1)) = some (0x1010, 4000))) = true := by decide +kernel
theorem test_doneGateSignal : gives (.doneGateSignal 3) ended3 (fun t => decide ((t.agent 3).prog = .idle ∧ (t.gate 7).value = 1)) = true := by
  decide +kernel

theorem witness_step_idle : up.pending = [] ∧ up.pins.phase = .on ∧ up.sun.slew = 0 ∧ 0 ≤ up.sun.slewPart ∧ up.sun.slewPart < secondTicks
    ∧ up.tick.writers.isEmpty = true ∧ State.reset.pending = [] ∧ State.reset.pins.phase ≠ .on := by decide +kernel
/-- The envelope stands at 2,800 W: nothing more may start (R410). -/
def full (s : State) : State := { s with power := { s.power with envelope := 28000000 } }
theorem witness_wake_room : due.power.envelope + due.power.added + 34000 ≤ 28000000
    ∧ (full due).agentsRun = true ∧ ((full due).agent 3).gating = .powerGated ∧ isArray 3 = true
    ∧ 28000000 < (full due).power.envelope + (full due).power.added + 34000 := by decide +kernel
/-- Array 3's block is clock-gated with its entry about to start, and with none. -/
def dozing : State := due.modAgent 3 fun g => { g with gating := .clockGated 900000 }
def kept3 : State := up.modAgent 3 fun g => { g with gating := .clockGated 900000, wakeAt := some 1000000, awakeUntil := some 1000000 }
theorem witness_wake_gated : (dozing.agent 3).gating = .clockGated 900000 ∧ (dozing.agent 3).pending = some (entryAt 3 1000100)
    ∧ (dozing.agent 3).fault = none ∧ (entryAt 3 1000100).start.toNat ≤ (1000000#64).toNat + wakeLatency 3
    ∧ (kept3.agent 3).wakeAt = some 1000000 ∧ (kept3.agent 3).awakeUntil = some 1000000#64 ∧ (kept3.agent 3).pending = none
    ∧ (kept3.agent 3).gating ≠ .powerGated ∧ kept3.dieTripped 3 = false := by decide +kernel
/-- Array 3 wakes for an entry about to start; core 0 has been clock-gated since 900,000. -/
def waking3 : State := due.modAgent 3 fun g => { g with gating := .waking 5 }
def idleCore : State := up.modAgent 192 fun g => { g with gating := .clockGated 900000 }
theorem witness_wake_ends : (waking3.agent 3).gating = .waking 5 ∧ (waking3.agent 3).pending = some (entryAt 3 1000100)
    ∧ ((up.modAgent 3 fun g => { g with gating := .waking 5 }).agent 3).pending = none
    ∧ ((up.modAgent 3 fun g => { g with gating := .waking 5 }).agent 3).prog = .idle := by decide +kernel
theorem witness_power_gate_core : idleCore.agentsRun = true ∧ (idleCore.agent 192).gating = .clockGated 900000 ∧ isCore 192 = true
    ∧ (idleCore.agent 192).awakeUntil = none ∧ (idleCore.agent 192).prog ≠ .resetting ∧ (idleCore.agent 192).fault = none
    ∧ (idleCore.core 0).clearing = false ∧ usTicks idleCore.power.idleHold ≤ (1000000#64).toNat - (900000#64).toNat
    ∧ (kept3.agent 3).awakeUntil = some 1000000#64 := by decide +kernel
/-- Core 0's entry is due: ENTRY 0x20000, STACK 0x30000 and ARG 9 stand in its launch block (Table 10-4). -/
def launching : State :=
  (up.modAgent 192 fun g => { g with pending := some (entryAt 192 1000100), gating := .running }).wrNat codeAddr 64
    (packed [(0, 0, 48, 0x20000), (8, 0, 48, 0x30000), (16, 0, 64, 9)])
theorem witness_launch : launching.agentsRun = true ∧ launching.sundial.toNat ≤ (1000100#64).toNat
    ∧ (launching.agent 192).pending = some (entryAt 192 1000100) ∧ (launching.agent 192).prog = .idle ∧ (launching.agent 192).fault = none
    ∧ launching.dieTripped 192 = false ∧ (launching.agent 192).gating = .running ∧ isArray 192 = false
    ∧ launching.power.envelope + launching.power.added + 39000 ≤ 28000000 ∧ launching.poisonIn codeAddr 64 = none
    ∧ launching.stoppedIn codeAddr 64 = none ∧ launchFault (launching.rdNat codeAddr 64) = none
    ∧ 28000000 < (full launching).power.envelope + (full launching).power.added + 39000 := by decide +kernel
/-- R340: a0 is ARG, a1 the core and a2 the epoch. -/
theorem test_agentStart_core : gives (.agentStart 192 1000100) launching (fun t => decide ((t.core 0).pc = 0x20000 ∧ (t.core 0).getX 2 = 0x30000
    ∧ (t.core 0).getX 10 = 9 ∧ (t.core 0).getX 12 = 1 ∧ (t.core 0).getX 5 = 0)) = true := by decide +kernel

/-! ## Gates, waits and fences (R37 to R53) -/

/-- Array 3 has a queued signal of 5 to gate 9. -/
def queued : State := up.modAgent 3 fun g => { g with
  prog := .running, signals := [{ gate := 9, inc := 5, release := true, node := none, place := 0 }] }
/-- A wait of mover 0 for gate 9 to reach 4, since 900,000 with a timeout of 25 µs. -/
def aWait : GateWait := { gate := 9, target := 4, issued := 900000, timeout := 25, acquire := false, place := 0, addr := codeAddr }
/-- Mover 0 waits. -/
def waiting : State := up.modAgent 208 fun g => { g with prog := .running, running := some (entryAt 208 0), ip := codeAddr, waits := [aWait] }
/-- A slot of a `GSIG`: gate 9, increment 5, and of a `GWAIT`: gate 9, target 4 (Table 03-7). -/
def gsigWord : Nat := packed [(0, 0, 8, 0x04), (2, 0, 16, 5), (4, 0, 17, 9)]
def gwaitWord : Nat := packed [(0, 0, 8, 0x05), (4, 0, 17, 9), (8, 0, 32, 4), (0xC, 0, 24, 25)]
/-- The same of a mover or codec core (Table 02-13). -/
def mvGsigWord : Nat := packed [(0, 0, 8, 0x08), (4, 0, 17, 9), (0xC, 0, 16, 5)]
def mvGwaitWord : Nat := packed [(0, 0, 8, 0x09), (4, 0, 17, 9), (8, 0, 32, 4), (0xC, 0, 24, 25)]

theorem witness_driver_gates : up.driverReaches = true ∧ 131071 < 131072 ∧ (lowReg 5).half = .low ∧ (lowReg 5).fld 0 16 ≠ 0 := by decide +kernel
theorem witness_signal_order : up.driverReaches = true ∧ 9 < 131072 ∧ ∀ n ∈ ([5#16, 0xFFFF#16] : List (BitVec 16)), n ≠ 0 := by
  refine ⟨by decide +kernel, by decide, fun n h => ?_⟩
  simp only [List.mem_cons, List.not_mem_nil, or_false] at h
  rcases h with rfl | rfl <;> decide
theorem witness_signal_queued : queued.agentsRun = true ∧ (queued.agent 3).signals[0]? = some { gate := 9, inc := 5, release := true, node := none, place := 0 }
    ∧ queued.signalReady 3 { gate := 9, inc := 5, release := true, node := none, place := 0 } = true := by decide +kernel
theorem witness_gsig_array : (runs 3 32 gsigWord).issues 3 opGsig gsigWord ∧ half16 gsigWord 2 ≠ 0 ∧ fieldAt gsigWord 8 0 14 = 0 := by
  refine ⟨⟨?_, ?_, ?_, ?_⟩, ?_, ?_⟩ <;> decide +kernel
theorem witness_gsig_mover : (runs 208 64 mvGsigWord).moverStarts 0 mvGsig mvGsigWord := moverStarts_of (by decide +kernel)
theorem witness_gsig_codec : (runs 224 64 mvGsigWord).codecStarts 0 mvGsig mvGsigWord := codecStarts_of (by decide +kernel)
theorem witness_gwait_array : (runs 3 32 gwaitWord).issues 3 opGwait gwaitWord := by refine ⟨?_, ?_, ?_, ?_⟩ <;> decide +kernel
theorem witness_gwait_mover : (runs 208 64 mvGwaitWord).moverStarts 0 mvGwait mvGwaitWord := moverStarts_of (by decide +kernel)
theorem witness_gwait_codec : (runs 224 64 mvGwaitWord).codecStarts 0 mvGwait mvGwaitWord := codecStarts_of (by decide +kernel)
theorem witness_fence : (runs 3 32 0x102).issues 3 opFence 0x102 ∧ (runs 208 64 0x10A).moverStarts 0 mvFence 0x10A
    ∧ (runs 224 64 0x10A).codecStarts 0 mvFence 0x10A := by
  refine ⟨⟨?_, ?_, ?_, ?_⟩, moverStarts_of ?_, codecStarts_of ?_⟩ <;> decide +kernel
/-- Array 3 has a fence of scope 3 in force. -/
def fenced : State := up.modAgent 3 fun g => { g with prog := .running, fences := [{ scope := 3, place := 0, addr := codeAddr }] }
theorem witness_fence_complete : fenced.agentsRun = true ∧ (fenced.agent 3).fences = [{ scope := 3, place := 0, addr := codeAddr }]
    ∧ fenced.fenceHolds 3 3 0 = true := by decide +kernel
theorem witness_ends : (runs 3 32 1).issues 3 opHalt 1 ∧ (runs 3 32 0).issues 3 opNop 0 ∧ (runs 208 64 0xF).moverStarts 0 mvEnd 0xF
    ∧ (runs 224 64 0xF).codecStarts 0 mvEnd 0xF := by
  refine ⟨⟨?_, ?_, ?_, ?_⟩, ⟨?_, ?_, ?_, ?_⟩, moverStarts_of ?_, codecStarts_of ?_⟩ <;> decide +kernel
theorem witness_gate_timeout : waiting.sundial.toNat ≤ (1000000#64).toNat ∧ waiting.agentsRun = true
    ∧ ((waiting.agent 208).waits.find? fun w => w.expired 1000000 && !reached (waiting.gate w.gate).value w.target) = some aWait := by decide +kernel
/-- Array 3 has a fault to take at its next boundary. -/
def atFault : State := (runs 3 32 0).modAgent 3 fun g => { g with boundary := [{ code := cLinkTimeout }] }
theorem witness_boundary : atFault.agentsRun = true ∧ atFault.atBoundary 3 = true ∧ (atFault.agent 3).boundary = [{ code := cLinkTimeout }]
    ∧ (atFault.agent 3).prog ≠ .faulted ∧ (atFault.agent 3).prog ≠ .resetting := by decide +kernel
/-- Mover 0 serves exports with no job, since 900,000 and for 25 µs. -/
def serving : State := (runs 208 64 6).modMover 0 fun x => { x with cmd := some (.xserve codeAddr 1 900000 25) }
theorem witness_xserve_timeout : serving.agentsRun = true ∧ (serving.mover 0).cmd = some (.xserve codeAddr 1 900000 25) ∧ (serving.mover 0).jobs = []
    ∧ usTicks 25 ≤ (1000000#64).toNat - (900000#64).toNat := by decide +kernel
/-- Encode core 0 waits for context 0, which another core uses. -/
def ctxWaits : State := ((runs 224 64 0x11).modCtx 0 fun x => { x with st := .active }).modCodecCore 0 fun k => { k with waitSince := some (900000, 24) }
theorem witness_ctx_busy : ctxWaits.codecReady 0 = true ∧ (ctxWaits.codecCore 0).waitSince = some (900000#64, 24)
    ∧ (ctxWaits.ctx (ctxOf (ctxWaits.rdNat (ctxWaits.agent 224).ip 64))).st = .active
    ∧ usTicks 24 < (1000000#64).toNat - (900000#64).toNat := by decide +kernel
theorem witness_unknown : (runs 3 32 0xFF).slotWord 3 = some 0xFF ∧ opKnown (opOf 0xFF) = false
    ∧ (runs 208 64 0xFF).moverReady 0 = true ∧ (runs 208 64 0xFF).fetchCmd 208 cMoverFetch 64 mvBytes = .ok 0xFF ∧ mvKnown 0xFF = false
    ∧ (runs 224 64 0xFF).codecReady 0 = true ∧ (runs 224 64 0xFF).fetchCmd 224 cCodecFetch 64 cdBytes = .ok 0xFF ∧ cdKnown 0 0xFF = false
    ∧ (runs 224 64 0xFF).coreUnpowered 0 = false := by
  refine ⟨?_, ?_, ?_, okIs_eq ?_, ?_, ?_, okIs_eq ?_, ?_, ?_⟩ <;> decide +kernel
theorem test_gateSignal : gives (.gateSignal 9 (lowReg 0xFFFF)) (up.modGate 9 fun g => { g with value := 0xFFFFFFFF })
    (fun t => decide ((t.gate 9).value = 0xFFFE)) = true := by decide +kernel
theorem test_gateValue_ends_wait : gives (.gateValue 9 (lowReg 4)) waiting (fun t => decide ((t.agent 208).waits = [])) = true := by decide +kernel
theorem test_signalApply : gives (.signalApply 3 0) queued (fun t => decide ((t.gate 9).value = 5 ∧ (t.agent 3).signals = [])) = true := by decide +kernel
theorem test_gsig : gives (.gsig 3) (runs 3 32 gsigWord) (fun t => decide ((t.gate 9).value = 5 ∧ (t.agent 3).ip = codeAddr + 32)) = true := by decide +kernel
theorem test_moverGsig : gives (.moverGsig 0) (runs 208 64 mvGsigWord) (fun t => decide ((t.gate 9).value = 5 ∧ (t.agent 208).ip = codeAddr + 64)) = true := by
  decide +kernel
theorem test_codecGsig : gives (.codecGsig 0) (runs 224 64 mvGsigWord) (fun t => decide ((t.gate 9).value = 5)) = true := by decide +kernel
theorem test_gwait : gives (.gwait 3) (runs 3 32 gwaitWord) (fun t => decide ((t.agent 3).waits.map (·.timeout) = [25])) = true := by decide +kernel
/-- 3 is more than 2^31 − 1 behind 4 modulo 2^32, and 0x80000003 is exactly 2^31 − 1 past it (R41). -/
theorem test_gwait_reached : gives (.gwait 3) ((runs 3 32 gwaitWord).modGate 9 fun g => { g with value := 0x80000003 })
    (fun t => decide ((t.agent 3).waits = [])) = true := by decide +kernel
theorem test_moverGwait : gives (.moverGwait 0) (runs 208 64 mvGwaitWord) (fun t => decide ((t.agent 208).waits.map (·.gate) = [9])) = true := by decide +kernel
theorem test_codecGwait : gives (.codecGwait 0) (runs 224 64 mvGwaitWord) (fun t => decide ((t.agent 224).waits.map (·.gate) = [9])) = true := by decide +kernel
theorem test_fence : gives (.fence 3) (runs 3 32 0x102) (fun t => decide ((t.agent 3).fences.map (·.scope) = [1])) = true := by decide +kernel
theorem test_moverFence : gives (.moverFence 0) (runs 208 64 0x10A) (fun t => decide ((t.agent 208).fences.map (·.scope) = [1])) = true := by decide +kernel
theorem test_codecFence : gives (.codecFence 0) (runs 224 64 0x10A) (fun t => decide ((t.agent 224).fences.map (·.scope) = [1])) = true := by decide +kernel
theorem test_fenceComplete : gives (.fenceComplete 3) fenced (fun t => decide ((t.agent 3).fences = [])) = true := by decide +kernel
theorem test_halt : gives (.halt 3) (runs 3 32 1) (fun t => decide ((t.agent 3).prog = .ending ∧ (t.agent 3).fences.map (·.scope) = [3])) = true := by decide +kernel
theorem test_nop : gives (.nop 3) (runs 3 32 0) (fun t => decide ((t.agent 3).ip = codeAddr + 32 ∧ (t.agent 3).prog = .running)) = true := by decide +kernel
theorem test_nop_reserved : gives (.nop 3) (runs 3 32 0x100) (fun t => decide ((t.agent 3).fault.map (·.info.code) = some 0x3002)) = true := by decide +kernel
theorem test_moverEnd : gives (.moverEnd 0) (runs 208 64 0xF) (fun t => decide ((t.agent 208).prog = .ending)) = true := by decide +kernel
theorem test_codecEnd : gives (.codecEnd 0) (runs 224 64 0xF) (fun t => decide ((t.agent 224).prog = .ending)) = true := by decide +kernel
theorem test_gateTimeout : gives (.gateTimeout 208 1000000) waiting (fun t => decide ((t.agent 208).prog = .faulted
    ∧ (t.agent 208).fault.map (fun r => (r.info.code, r.info.d0, r.info.d2)) = some (0x2003, 9, 25))) = true := by decide +kernel
theorem test_boundaryFault : gives (.boundaryFault 3) atFault (fun t => decide ((t.agent 3).prog = .faulted ∧ (t.agent 3).boundary = [])) = true := by
  decide +kernel
theorem test_xserveTimeout : gives (.xserveTimeout 0 1000000) serving (fun t => decide ((t.mover 0).cmd = none
    ∧ (t.agent 208).fault.map (·.info.code) = some cXserveTimeout)) = true := by decide +kernel
theorem test_codecCtxBusy : gives (.codecCtxBusy 0 1000000) ctxWaits (fun t => decide ((t.agent 224).fault.map (·.info.code) = some cCodecCtxBusy)) = true := by
  decide +kernel
theorem test_insnOpcode : gives (.insnOpcode 3) (runs 3 32 0xFF) (fun t => decide ((t.agent 3).fault.map (fun r => (r.info.code, r.opcode, r.addr))
    = some (0x3003, 0xFF, codeAddr))) = true := by decide +kernel
theorem test_moverOpcode : gives (.moverOpcode 0) (runs 208 64 0xFF) (fun t => decide ((t.agent 208).fault.map (·.info.code) = some cMoverOpcode)) = true := by
  decide +kernel
theorem test_codecOpcode : gives (.codecOpcode 0) (runs 224 64 0xFF) (fun t => decide ((t.agent 224).fault.map (·.info.code) = some cCodecOpcode)) = true := by
  decide +kernel

theorem witness_gate_unmet : aWait ∈ (waiting.agent 208).waits ∧ usTicks aWait.timeout ≤ (1000000#64).toNat - aWait.issued.toNat
    ∧ reached (waiting.gate aWait.gate).value aWait.target = false := by decide +kernel

/-! ## Arrays (ch 03 to 09) -/

/-- A dense tensor descriptor (Table 03-4): format, extents and the device address of its first element. -/
def tensor (fmt : Nat) (dims : List Nat) (addr : Nat) : Nat :=
  packed ([(0, 0, 4, 1), (1, 0, 4, fmt), (1, 4, 3, dims.length), (8, 0, 48, addr)]
    ++ ((dims ++ List.replicate (4 - dims.length) 1).zipIdx.map fun (e : Nat × Nat) => (0x10 + 4 * e.2, 0, 32, e.1))
    ++ ((dims.drop 1).zipIdx.map fun (e : Nat × Nat) => (0x20 + 8 * e.2, 0, 48, 0x40 * (e.2 + 1))))

/-- Array 0 runs a program whose next slot holds `w`, with these descriptors. -/
def array0 (w : Nat) (descs : List Nat) : State :=
  (runs 0 32 w).modArray 0 fun x => { x with descs := descs.zipIdx.map fun e => (e.2, { word := e.1 }) }

/-- A vector of four FP32 values, 1.5, 2.5, −3.5 and 300, and room for four INT8 values. -/
def vecState : State :=
  (array0 (packed [(0, 0, 8, 0x28), (8, 0, 16, 0x8000), (0xE, 0, 16, 0x8001)]) [tensor 8 [4] (ls 0x7A1000), tensor 4 [4] (ls 0x7A2000)]).wrNat
    (ls 0x7A1000) 16 (packed [(0, 0, 32, 0x3FC00000), (4, 0, 32, 0x40200000), (8, 0, 32, 0xC0600000), (12, 0, 32, 0x43960000)])
/-- The word of `vecState`'s program. -/
def vecWord : Nat := packed [(0, 0, 8, 0x28), (8, 0, 16, 0x8000), (0xE, 0, 16, 0x8001)]
/-- Keys 2.5, 1.5, −3.5 and 300, to be sorted. -/
def sortWord : Nat := packed [(0, 0, 8, 0x2B), (8, 0, 16, 0x8000), (0xC, 0, 16, 0x8001)]
def sortState : State :=
  (array0 sortWord [tensor 8 [4] (ls 0x7A1000), tensor 8 [4] (ls 0x7A2000)]).wrNat
    (ls 0x7A1000) 16 (packed [(0, 0, 32, 0x40200000), (4, 0, 32, 0x3FC00000), (8, 0, 32, 0xC0600000), (12, 0, 32, 0x43960000)])

/-- The word of an instruction: opcode, and the slots or fields of 16 bits at their offsets. -/
def insn (op : Nat) (l : List (Nat × Nat)) : Nat := packed ((0, 0, 8, op) :: l.map fun e => (e.1, 0, 16, e.2))
/-- The four values of `vecState`, at 0x7A1000 of the local store. -/
def data4 : Nat := packed [(0, 0, 32, 0x3FC00000), (4, 0, 32, 0x40200000), (8, 0, 32, 0xC0600000), (12, 0, 32, 0x43960000)]
def with4 (s : State) : State := s.wrNat (ls 0x7A1000) 16 data4
/-- The words that array 0 has issued are these alone. -/
def issued (c : Instr) (s : State) (w : Nat) : Bool := gives c s fun t => decide (((t.array 0).flights.map (·.word)) = [w])
/-- The command issues, the instruction ends, and 0x7A2000 of the local store holds `v` in `n` bytes. -/
def stores (c : Instr) (s : State) (n v : Nat) : Bool :=
  gives (.insnComplete 0 0) (next c s) fun t => decide (t.rdNat (ls 0x7A2000) n = v ∧ (t.array 0).flights = [])
/-- An image of 4 channels and 2 by 2 pixels; a matrix of 2 by 2. -/
def image (fmt off : Nat) : Nat := tensor fmt [4, 2, 2, 1] (ls off)
def matrix (fmt off : Nat) : Nat := tensor fmt [2, 2] (ls off)
/-- Three operands at offsets 8, 0xA and 0xC. -/
def abc (op : Nat) : Nat := insn op [(8, 0x8000), (0xA, 0x8001), (0xC, 0x8002)]
/-- Two operands at offsets 8 and 0xA, and further fields. -/
def xy (op : Nat) (l : List (Nat × Nat)) : Nat := insn op ((8, 0x8000) :: (0xA, 0x8001) :: l)
/-- An instruction in flight that has captured nothing. -/
def aFlight (w place : Nat) : Flight :=
  { place := place, addr := codeAddr, word := w, noop := false, ops := [], chains := [], layers := [], engine := 1, winBase := 0, winSize := 0x78,
    sr := 12, session := none, copyDone := 0, computeDone := 0, storeDone := 0, tile := 0, loaded := false, posted := false, rows := [],
    drawn := 0 }
/-- Array 0 has these flights. -/
def flying (l : List Flight) : State := (array0 0 []).modArray 0 fun x => { x with flights := l, place := 9 }

/-- WAKE of agents 3 to 5, at once; of agent 3, by 2,000,000. -/
def wakeWord : Nat := packed [(0, 0, 8, 3), (2, 0, 8, 3), (3, 0, 8, 5)]
def wakeByWord : Nat := packed [(0, 0, 8, 3), (2, 0, 8, 3), (3, 0, 8, 3), (8, 0, 64, 2000000)]
/-- DLOAD of two entries from entry 4095 − 1 on, from 0x20000; one is a tensor, one is empty. -/
def dloadWord : Nat := packed [(0, 0, 8, 7), (2, 0, 12, 4094), (4, 0, 13, 2), (0x10, 0, 48, 0x20000)]
def dloadState : State := (array0 dloadWord []).wrNat 0x20000 128 (tensor 8 [4] (ls 0))
/-- TLOAD of table 1 with SWAP; CTXSAVE to 0x100000. -/
def tloadWord : Nat := packed [(0, 0, 8, 6), (1, 0, 4, 9), (8, 0, 16, 0x8000)]
def tloadState : State := array0 tloadWord [tensor 8 [2048] (ls 0x7A1000)]
def ctxsaveWord : Nat := packed [(0, 0, 8, 8), (0x10, 0, 48, 0x100000)]
def ctxloadWord : Nat := packed [(0, 0, 8, 9), (0x10, 0, 48, 0x100000)]
/-- TRDRY of the instruction at 0x7C0000, here a `VEC` without descriptors, with room for a header and one row. -/
def trdryWord : Nat := packed [(0, 0, 8, 0xA), (8, 0, 23, 0x7C0000), (0xC, 0, 23, 0x7C1000), (0x10, 0, 32, 128)]
def trdryState : State := (array0 trdryWord []).wrNat (ls 0x7C0000) 32 vecWord
/-- MM of two BF16 matrices, both with first row 1, 2 and a row of zeros, into FP32; issued. -/
def mmIssue : State :=
  ((array0 (abc 0x10) [matrix 7 0x7A1000, matrix 7 0x7A3000, matrix 8 0x7A2000]).wrNat (ls 0x7A1000) 128 0x40003F80).wrNat (ls 0x7A3000) 128 0x40003F80
def mmIssued : State := next (.mm 0) mmIssue
def mmCopied : State := next (.trellisRowComplete 0 .copy) (next (.trellisRowComplete 0 .copy) mmIssued)
def mmComputed : State := next (.trellisRowComplete 0 .compute) mmCopied
/-- CONV of one kernel of 1 by 1, and the same as the only layer of a CONVF. -/
def convWord : Nat := insn 0x18 [(8, 0x8000), (0xA, 0x8001), (0xC, 0x8002), (0x16, 0x1111), (0x1A, 1)]
def convIssue : State := array0 convWord [image 7 0x7A1000, tensor 7 [4, 4, 1, 1] (ls 0x7A3000), image 8 0x7A2000]
def convIssued : State := next (.conv 0) convIssue
def convCopied : State := next (.trellisRowComplete 0 .copy) (next (.trellisRowComplete 0 .copy) convIssued)
def convfWord : Nat := packed [(0, 0, 8, 0x19), (8, 0, 16, 0x8000), (0xA, 0, 16, 0x8001), (0xC, 0, 32, 0x7A5000), (0x10, 0, 4, 1)]
def convfIssue : State :=
  (array0 convfWord [image 7 0x7A1000, image 8 0x7A2000, tensor 7 [4, 4, 1, 1] (ls 0x7A3000)]).wrNat (ls 0x7A5000) 64
    (packed [(0, 0, 16, 0x8002), (6, 0, 16, 0x1111), (0xA, 0, 16, 1), (0xD, 0, 4, 7)])
def attnWord : Nat := packed [(0, 0, 8, 0x20), (8, 0, 16, 0x8000), (0xA, 0, 16, 0x8001), (0x1A, 0, 8, 1), (0x1C, 0, 32, 0x3F800000)]
def attnIssue : State := withSession (array0 attnWord [tensor 7 [64, 1] (ls 0x7A1000), tensor 8 [64, 1] (ls 0x7A2000)])
def pscoreWord : Nat := xy 0x22 [(0xE, 1)]
def pscoreIssue : State := withSession (array0 pscoreWord [tensor 7 [64, 1] (ls 0x7A1000), tensor 8 [2, 1] (ls 0x7A2000)])
/-- A tensor of one bit per row: layout BITS, format 0. -/
def bits2 (off : Nat) : Nat := tensor 0 [2] (ls off) + 0x30
def attnbWord : Nat := packed ([(0, 0, 8, 0x21), (0x1C, 0, 32, 0x3F800000)] ++ (List.range 10).map fun i => (8 + 2 * i, 0, 16, 0x8000 + i))
def attnbIssue : State :=
  array0 attnbWord ((List.range 9).map (fun i => matrix (if i < 5 then 7 else 8) (0x7A0000 + 0x1000 * i)) ++ [bits2 0x7AF000])

theorem witness_wake : (runs 0 32 wakeWord).issues 0 opWake wakeWord ∧ fieldAt wakeWord 2 0 8 ≤ fieldAt wakeWord 3 0 8
    ∧ fieldAt wakeWord 3 0 8 ≤ 229 ∧ fieldAt wakeWord 8 0 64 = 0 := by
  refine ⟨⟨?_, ?_, ?_, ?_⟩, ?_, ?_, ?_⟩ <;> decide +kernel
theorem witness_dload : dloadState.issues 0 opDload dloadWord ∧ fieldAt dloadWord 2 0 12 + fieldAt dloadWord 4 0 13 ≤ 4096
    ∧ dloadState.checkAccess (fieldAt dloadWord 8 0 24) (fieldAt dloadWord 0x10 0 48) 128 false = .ok 0x20000
    ∧ dloadState.poisonIn 0x20000 128 = none ∧ dloadState.descsFault 4094 (dloadState.words64 0x20000 2) = none := by
  refine ⟨⟨?_, ?_, ?_, ?_⟩, ?_, okIs_eq ?_, ?_, ?_⟩ <;> decide +kernel
theorem witness_tload : tloadState.issues 0 opTload tloadWord ∧ modBit tloadWord 3 = true ∧ tloadState.tloadFault 0 tloadWord = none := by
  refine ⟨⟨?_, ?_, ?_, ?_⟩, ?_, ?_⟩ <;> decide +kernel
theorem witness_context : (runs 0 32 ctxsaveWord).issues 0 opCtxsave ctxsaveWord ∧ (runs 0 32 ctxloadWord).issues 0 opCtxload ctxloadWord := by
  refine ⟨⟨?_, ?_, ?_, ?_⟩, ?_, ?_, ?_, ?_⟩ <;> decide +kernel
theorem witness_trdry : trdryState.issues 0 opTrdry trdryWord ∧ (trdryState.agent 0).waits = []
    ∧ fieldAt trdryWord 0xC 0 23 + fieldAt trdryWord 0x10 0 32 ≤ lsBytes ∧ trdryState.lsPoison 0 (fieldAt trdryWord 8 0 23) 32 8 = none
    ∧ (match trdryState.trdryJudge 0 (trdryState.rdNat (lsAddr 0 (fieldAt trdryWord 8 0 23)) 32) with
      | .error e => decide (e.1.code ≠ cMemPoison)
      | .ok _ => true) = true := by
  refine ⟨⟨?_, ?_, ?_, ?_⟩, ?_, ?_, ?_, ?_⟩ <;> decide +kernel
theorem witness_compute_issues : (opVec, Instr.vec 0) ∈ computeCommands 0 ∧ vecState.slotWord 0 = some vecWord ∧ opOf vecWord = opVec
    ∧ ∃ f, vecState.checkIssue 0 (vecState.array 0).place (vecState.agent 0).ip vecWord = .ok f :=
  ⟨by decide, by decide +kernel, by decide +kernel, _, rfl⟩
theorem witness_issue_fault : (array0 vecWord []).slotWord 0 = some vecWord
    ∧ (∃ e, (array0 vecWord []).checkIssue 0 ((array0 vecWord []).array 0).place ((array0 vecWord []).agent 0).ip vecWord = .error e)
    ∧ ∀ f ∈ ((array0 vecWord []).array 0).flights, f.place < ((array0 vecWord []).array 0).place :=
  ⟨by decide +kernel, ⟨_, rfl⟩, by decide +kernel⟩
theorem witness_copy_row : (mmIssued.nextRow 0 .copy).isSome = true ∧ mmIssued.agentsRun = true := by decide +kernel
theorem witness_compute_row : (match convCopied.nextRow 0 .compute with
    | some (f, r) => decide (f.code = opConv ∧ r.kind ≠ 15) && (convCopied.rowFault f r).isNone
    | none => false) = true ∧ convCopied.agentsRun = true := by decide +kernel
theorem witness_store_row : (match mmComputed.nextRow 0 .store with
    | some (f, r) => (mmComputed.tileBytes 0 f r).all fun e => decide (regionOf e.1 ≠ .control)
    | none => false) = true ∧ mmComputed.agentsRun = true := by decide +kernel
/-- A no-op of `VEC` in flight, with the completion gate 9 and increment 5. -/
def noopState : State := flying [{ aFlight (packed [(0, 0, 8, 0x28), (2, 0, 16, 5), (4, 0, 17, 9), (4, 17, 1, 1)]) 3 with noop := true }]
theorem witness_noop_completes : noopState.agentsRun = true ∧ ((noopState.array 0).flights.map fun f => f.noop && !f.serial && opCompute f.code
    && !noopState.waitHolds 0 f.place && f.session.isNone) = [true] ∧ (noopState.array 0).oldPins = [] := by decide +kernel
theorem witness_sort_completes : (match ((next (.sort 0) sortState).array 0).flights with
    | [f] => let s := next (.sort 0) sortState
      !f.noop && decide (f.code = opSort) && s.computeTurn 0 f.place && s.bankReady 0 f && !(s.array 0).paused && (s.runFault f).isNone
        && !s.waitHolds 0 f.place && f.session.isNone && s.agentsRun
        && ((s.storeBytes (s.sortRes f).stores).all fun e => decide (regionOf e.1 ≠ .control))
    | _ => false) = true := by decide +kernel
/-- A TLOAD of table 1 has loaded entry 0 of the shadow bank. -/
def swapState : State :=
  (flying [{ aFlight tloadWord 3 with loaded := true }]).modArray 0 fun x => { x with banks := [(3, [0x3F800000])] }
theorem witness_tableSwap : swapState.agentsRun = true ∧ ((swapState.array 0).flights.find? fun f => f.code == opTload && fieldAt f.word 1 0 3 == 1)
    = some { aFlight tloadWord 3 with loaded := true } := by decide +kernel

theorem test_wake : gives (.wake 0) (runs 0 32 wakeWord) (fun t => decide ((t.agent 3).gating = .waking 1000000 ∧ (t.agent 5).gating = .waking 1000000
    ∧ (t.agent 6).gating = .powerGated)) = true := by decide +kernel
theorem test_wake_later : gives (.wake 0) (runs 0 32 wakeByWord) (fun t => (t.agent 3).wakeAt.isSome) = true := by decide +kernel
theorem test_dload : gives (.dload 0) dloadState (fun t => decide ((t.desc 0 4094).word = tensor 8 [4] (ls 0) ∧ (t.desc 0 4095).word = 0)) = true := by
  decide +kernel
theorem test_tload : issued (.tload 0) tloadState tloadWord = true := by decide +kernel
theorem test_tload_table : gives (.tload 0) (array0 (tloadWord + 0x200) []) (fun t => decide ((t.agent 0).fault.map (·.info.code) = some cInsnOperand)) = true := by
  decide +kernel
theorem test_ctxsave : issued (.ctxsave 0) (runs 0 32 ctxsaveWord) ctxsaveWord = true := by decide +kernel
theorem test_ctxload : issued (.ctxload 0) (runs 0 32 ctxloadWord) ctxloadWord = true := by decide +kernel
/-- The header names the fault that the checks of the expanded instruction find: DESC_EMPTY (Table 05-6). -/
theorem test_trdry : gives (.trdry 0) trdryState (fun t => decide ((t.agent 0).prog = .running ∧ (t.array 0).flights = [])) = true := by decide +kernel
theorem test_mm : issued (.mm 0) mmIssue (abc 0x10) = true := by decide +kernel
/-- 1 × 1 and 1 × 2 in FP32. -/
theorem test_mm_store : gives (.trellisRowComplete 0 .store) mmComputed (fun t => decide (t.rdNat (ls 0x7A2000) 8 = 0x400000003F800000)) = true := by
  decide +kernel
theorem test_mmx : issued (.mmx 0) (array0 (abc 0x12) [matrix 8 0x7A1000, matrix 8 0x7A3000, matrix 8 0x7A2000]) (abc 0x12) = true := by decide +kernel
/-- BF16 is no format of MMX's A (Table 03-12). -/
theorem test_mmx_format : gives (.mmx 0) (array0 (abc 0x12) [matrix 7 0x7A1000, matrix 8 0x7A3000, matrix 8 0x7A2000])
    (fun t => decide ((t.agent 0).fault.map (·.info.code) = some cInsnFormat)) = true := by decide +kernel
def mmcWord : Nat := xy 0x11 [(0xC, 0x8000), (0xE, 0x8001), (0x10, 0x8002), (0x12, 0x8003)]
theorem test_mmc : issued (.mmc 0) (array0 mmcWord [matrix 7 0x7A1000, matrix 7 0x7A3000, matrix 8 0x7A2000, matrix 8 0x7A4000]) mmcWord = true := by
  decide +kernel
theorem test_conv : issued (.conv 0) convIssue convWord = true := by decide +kernel
theorem test_convf : issued (.convf 0) convfIssue convfWord = true := by decide +kernel
theorem test_attn : gives (.attn 0) attnIssue (fun t => decide ((t.session 0).pins = 1 ∧ (t.array 0).place = 1)) = true := by decide +kernel
theorem test_attn_stale : gives (.attn 0) (attnIssue.modSession 0 fun r => { r with gen := 2 })
    (fun t => decide ((t.agent 0).fault.map (·.info.code) = some cSessionStale)) = true := by decide +kernel
theorem test_attnb : issued (.attnb 0) attnbIssue attnbWord = true := by decide +kernel
theorem test_pscore : issued (.pscore 0) pscoreIssue pscoreWord = true := by decide +kernel
/-- No candidate page: −infinity and ordinal 0xFFFFFFFF (R277). -/
theorem test_pscore_result : stores (.pscore 0) pscoreIssue 8 0xFFFFFFFFFF800000 = true := by decide +kernel
/-- PAGE_COUNT 0 exports nothing: a no-op. -/
theorem test_kvexp : gives (.kvexp 0) (array0 0x23 []) (fun t => decide ((t.array 0).flights.map (·.noop) = [true])) = true := by decide +kernel
theorem test_vec : issued (.vec 0) vecState vecWord = true := by decide +kernel
/-- Round to nearest even, saturated: 2, 2, −4, 127 (Tables 04-4 and 04-5). -/
theorem test_vec_result : stores (.vec 0) vecState 4 0x7FFC0202 = true := by decide +kernel
/-- ROW MAX. -/
theorem test_row_result : stores (.row 0) (with4 (array0 (xy 0x29 [(0x14, 5)]) [tensor 8 [4] (ls 0x7A1000), tensor 8 [1] (ls 0x7A2000)])) 4 0x43960000 = true := by
  decide +kernel
theorem test_row_func : gives (.row 0) (array0 (xy 0x29 [(0x14, 6)]) []) (fun t => decide ((t.agent 0).fault.map (·.info.code) = some cInsnOperand)) = true := by
  decide +kernel
/-- SFN 0 of +0 is 1. -/
theorem test_sfn_result : stores (.sfn 0) ((array0 (xy 0x2A []) [tensor 8 [1] (ls 0x7A1000), tensor 8 [1] (ls 0x7A2000)]).wrNat (ls 0x7A1000) 4 0) 4 0x3F800000 = true := by
  decide +kernel
theorem test_sort : issued (.sort 0) sortState sortWord = true := by decide +kernel
/-- Ascending keys (R237). -/
theorem test_sort_result : stores (.sort 0) sortState 16
    (packed [(0, 0, 32, 0xC0600000), (4, 0, 32, 0x3FC00000), (8, 0, 32, 0x40200000), (12, 0, 32, 0x43960000)]) = true := by decide +kernel
theorem test_rng : issued (.rng 0) (array0 (insn 0x2C [(8, 0x8000)]) [tensor 8 [4] (ls 0x7A1000)]) (insn 0x2C [(8, 0x8000)]) = true := by decide +kernel
/-- The maximum of each channel of a 2 by 2 image whose other pixels are 0: 1.5, 2.5, 0 and 300. -/
theorem test_pool_result : stores (.pool 0) ((array0 (xy 0x2D [(0xC, 0x2222)]) [image 8 0x7A1000, tensor 8 [4, 1, 1, 1] (ls 0x7A2000)]).wrNat
    (ls 0x7A1000) 256 data4) 16 (packed [(0, 0, 32, 0x3FC00000), (4, 0, 32, 0x40200000), (12, 0, 32, 0x43960000)]) = true := by decide +kernel
/-- One pixel spreads over all. -/
theorem test_resize_result : stores (.resize 0) (with4 (array0 (xy 0x2E []) [tensor 8 [4, 1, 1, 1] (ls 0x7A1000), image 8 0x7A2000])) 16 data4 = true := by
  decide +kernel
theorem test_copy_result : stores (.copy 0) (with4 (array0 (xy 0x30 []) [tensor 8 [4] (ls 0x7A1000), tensor 8 [4] (ls 0x7A2000)])) 16 data4 = true := by
  decide +kernel
theorem test_copy_shape : gives (.copy 0) (array0 (xy 0x30 []) [tensor 8 [4] (ls 0x7A1000), tensor 8 [3] (ls 0x7A2000)])
    (fun t => decide ((t.agent 0).fault.map (·.info.code) = some cShapeMismatch)) = true := by decide +kernel
theorem test_trellisRowComplete : gives (.trellisRowComplete 0 .copy) mmIssued (fun t => decide ((t.array 0).flights.map (·.copyDone) = [1])) = true := by
  decide +kernel
theorem test_insnComplete : gives (.insnComplete 0 0) noopState (fun t => decide ((t.array 0).flights = []
    ∧ (t.agent 0).signals.map (fun g => (g.gate, g.inc)) = [(9, 5)])) = true := by decide +kernel
theorem test_tableSwap : gives (.tableSwap 0 1) swapState (fun t => decide ((t.array 0).bankEntry 2 0 = 0x3F800000 ∧ (t.array 0).bankEntry 3 0 = 0)) = true := by
  decide +kernel

theorem witness_wake_times : (runs 0 32 wakeByWord).issues 0 opWake wakeByWord ∧ ((runs 0 32 wakeByWord).agent 3).gating ≠ .running
    ∧ (runs 0 32 wakeByWord).sundial.toNat + wakeLatency 3 ≤ fieldAt wakeByWord 8 0 64
    ∧ ((runs 0 32 wakeWord).agent 3).gating = .powerGated ∧ (runs 0 32 wakeWord).sundial.toNat < (runs 0 32 wakeWord).sundial.toNat + wakeLatency 3
    ∧ (runs 0 32 wakeWord).dieTripped 3 = false
    ∧ (runs 0 32 wakeWord).power.envelope + (runs 0 32 wakeWord).power.added + 34000 * (5 + 1 - 3) ≤ 28000000
    ∧ (full (runs 0 32 wakeWord)).issues 0 opWake wakeWord := by
  refine ⟨⟨?_, ?_, ?_, ?_⟩, ?_, ?_, ?_, ?_, ?_, ?_, ⟨?_, ?_, ?_, ?_⟩⟩ <;> decide +kernel
theorem test_wake_held : gives (.wake 0) (full (runs 0 32 wakeWord)) (fun t => decide ((t.agent 3).gating = .powerGated ∧ (t.agent 3).heldWake = true
    ∧ t.power.capHold = true)) = true := by decide +kernel
theorem witness_dload_bounds : 0 < fieldAt dloadWord 4 0 13 ∧ fieldAt dloadWord 0x10 0 48 % 64 = 0 := by decide +kernel
/-- TLOAD of table 1 without SWAP is in flight. -/
def tloading : State :=
  let w := packed [(0, 0, 8, 6), (1, 0, 4, 1), (8, 0, 16, 0x8000)]
  next (.tload 0) (array0 w [tensor 8 [2048] (ls 0x7A1000)])
theorem witness_tload_ends : tloading.agentsRun = true ∧ (match (tloading.array 0).flights with
    | [f] => decide (f.code = opTload ∧ f.loaded = false ∧ modBit f.word 3 = false ∧ tloading.poisonIn (f.op 8).base (4 * (f.op 8).e 0) = none)
    | _ => false) = true
    ∧ (match ((next (.tload 0) tloadState).array 0).flights with
    | [f] => decide (f.code = opTload ∧ f.loaded = false ∧ modBit f.word 3 = true)
    | _ => false) = true := by decide +kernel
/-- CTXSAVE is in flight, and CTXLOAD of the image that it wrote. -/
def saving : State := next (.ctxsave 0) (runs 0 32 ctxsaveWord)
theorem witness_ctxsave_ends : saving.agentsRun = true ∧ (match (saving.array 0).flights with
    | [f] => decide (f.code = opCtxsave) && !saving.waitHolds 0 f.place
        && okIs (saving.checkAccess (fieldAt f.word 8 0 24) (fieldAt f.word 0x10 0 48) (ctxBytes (modBit f.word 0)) true) 0x100000
    | _ => false) = true ∧ saving.objects.objs = [] := by decide +kernel
theorem witness_trdry_fields : fieldAt trdryWord 8 0 23 % 32 = 0 ∧ fieldAt trdryWord 0xC 0 23 % 64 = 0 ∧ fieldAt trdryWord 0x10 0 32 % 64 = 0
    ∧ 64 ≤ fieldAt trdryWord 0x10 0 32 := by decide +kernel
/-- The bytes of an image without local store: version 1, 128 lanes, and a lane block of version 1 and a grid of one by one. -/
def imageByte (i : Nat) : Byte := if i = 0 ∨ i = 0x51000 ∨ i = 0x51010 ∨ i = 0x51012 then 1 else if i = 4 then 128 else 0
/-- CTXLOAD of that image, at 0x100000, is in flight. -/
def ctxLoads : State :=
  let s := next (.ctxload 0) (runs 0 32 ctxloadWord)
  { s with mem := { s.mem with cells := (List.range' 0x100000 0x53000).map fun a => (a, imageByte (a - 0x100000)) } }
theorem mapFind_range' (f : Nat → Byte) (n k b : Nat) (h1 : b ≤ k) (h2 : k < b + n) :
    mapFind k ((List.range' b n).map fun a => (a, f a)) = some (f k) := by
  induction n generalizing b with
  | zero => omega
  | succ n ih =>
    rw [List.range'_succ, List.map_cons, mapFind]
    by_cases e : b = k
    · rw [if_pos e, e]
    · rw [if_neg e, ih (b + 1) (by omega) (by omega)]
theorem ctxLoads_byte (i : Nat) (h : i < 0x53000) : ctxLoads.rdByte (0x100000 + i) = imageByte i := by
  have hs : 0x153000 ≤ stackTop := by decide
  have hr : regionOf (0x100000 + i) = .stack := by simp only [regionOf]; rw [if_pos (by omega)]
  have hw : ctxLoads.windowed (0x100000 + i) = false := by simp [State.windowed, hr]
  rw [State.rdByte, hw]
  have := mapFind_range' (fun a => imageByte (a - 0x100000)) 0x53000 (0x100000 + i) 0x100000 (by omega) (by omega)
  simp only [Nat.add_sub_cancel_left] at this
  simp only [Mem.byte?, ctxLoads, this]; rfl
theorem leNat_zero (n : Nat) (f : Nat → Byte) (h : ∀ i, i < n → f i = 0) : leNat (tabulate n f) = 0 := by
  have : tabulate n f = List.replicate n 0 := by
    refine List.ext_getElem (by simp [tabulate]) fun i h1 h2 => ?_
    simp [tabulate] at h1 ⊢; exact h i h1
  rw [this]; clear this h
  induction n with
  | zero => rfl
  | succ n ih => rw [List.replicate_succ, leNat, ih]; rfl
theorem ctxLoads_nat (i n : Nat) (h : i + n ≤ 0x53000) : ctxLoads.rdNat (0x100000 + i) n = leNat (tabulate n fun j => imageByte (i + j)) := by
  unfold State.rdNat State.rdBytes
  congr 1
  refine List.ext_getElem (by simp [tabulate]) fun j h1 h2 => ?_
  simp [tabulate] at h1 ⊢
  rw [Nat.add_assoc]; exact ctxLoads_byte _ (by omega)
theorem ctxLoads_zero (i n : Nat) (h : i + n ≤ 0x53000)
    (hz : ∀ j, j < n → i + j ≠ 0 ∧ i + j ≠ 4 ∧ i + j ≠ 0x51000 ∧ i + j ≠ 0x51010 ∧ i + j ≠ 0x51012) : ctxLoads.rdNat (0x100000 + i) n = 0 := by
  rw [ctxLoads_nat i n h]
  refine leNat_zero _ _ fun j hj => ?_
  have := hz j hj
  rw [imageByte, if_neg (by omega), if_neg (by omega)]
theorem descsFault_zero (s : State) (i n : Nat) : s.descsFault i (List.replicate n 0) = none := by
  induction n generalizing i with
  | zero => rfl
  | succ n ih =>
    have hd : s.descFault i 0 = none := rfl
    rw [List.replicate_succ, State.descsFault, hd]; exact ih (i + 1)
theorem tabulate_zero (n : Nat) (f : Nat → Nat) (h : ∀ i, i < n → f i = 0) : tabulate n f = List.replicate n 0 := by
  refine List.ext_getElem (by simp [tabulate]) fun i h1 h2 => ?_
  simp only [tabulate, List.getElem_map, List.getElem_range, List.getElem_replicate]
  exact h i (by simpa [tabulate] using h1)
/-- A lane block of version 1 that has nothing else but a grid of one by one is whole; so is an image with such a block. -/
theorem laneFault_plain (s : State) (b : Nat) (h1 : s.rdNat (b + 0) 8 = 1) (h2 : s.rdNat (b + 0) 1 = 1) (h3 : s.rdNat (b + 0x10) 2 = 1)
    (h4 : s.rdNat (b + 0x12) 2 = 1) (h5 : s.rdNat (b + 0x14) 4 = 0) (h6 : s.rdNat (b + 0x18) 0xE8 = 0) (h7 : s.rdNat (b + 0x900) 0x1700 = 0)
    (st : (tabulate 256 fun l => s.rdNat (b + (0x100 + 8 * l)) 8) = List.replicate 256 0) : s.laneFault b 128 = none := by
  unfold State.laneFault
  have e : ((List.replicate 256 0).any fun x => decide (x ≠ 0)) = false := by decide +kernel
  have hb : bit 1 8 = false := by decide
  have hr : bits 1 10 6 = 0 ∧ bits 1 24 40 = 0 := by decide
  simp only [h1, h2, h3, h4, h5, h6, h7, st, e, hb, hr]
  rfl
theorem ctxFault_plain (s : State) (b : Nat) (h1 : s.rdNat (b + 0) 2 = 1) (h2 : s.rdNat (b + 2) 2 = 0) (h3 : s.rdNat (b + 4) 2 = 128)
    (h4 : s.rdNat (b + 6) 2 = 0) (h5 : s.rdNat (b + 9) 3 = 0) (h6 : s.rdNat (b + 0x18) 0xFE8 = 0)
    (w : s.words64 (b + 0x1000) 4096 = List.replicate 4096 0) (l : s.laneFault (b + 0x51000) 128 = none) : s.ctxFault b false = none := by
  unfold State.ctxFault
  simp only [h1, h2, h3, h4, h5, h6, w, l, descsFault_zero]
  rfl
theorem ctxLoads_read (i n v : Nat) (h : i + n ≤ 0x53000) (e : leNat (tabulate n fun j => imageByte (i + j)) = v) :
    ctxLoads.rdNat (0x100000 + i) n = v := (ctxLoads_nat i n h).trans e
theorem ctxLoads_lanes (i n v : Nat) (h : 0x51000 + i + n ≤ 0x53000) (e : leNat (tabulate n fun j => imageByte (0x51000 + i + j)) = v) :
    ctxLoads.rdNat (0x151000 + i) n = v := by
  have := ctxLoads_read (0x51000 + i) n v (by omega) e
  rwa [show 0x100000 + (0x51000 + i) = 0x151000 + i by omega] at this
theorem ctxLoads_image : ctxLoads.ctxFault 0x100000 false = none := by
  have z (i n : Nat) (h : i + n ≤ 0x53000)
      (hz : ∀ j, j < n → i + j ≠ 0 ∧ i + j ≠ 4 ∧ i + j ≠ 0x51000 ∧ i + j ≠ 0x51010 ∧ i + j ≠ 0x51012) :
      leNat (tabulate n fun j => imageByte (i + j)) = 0 := by
    refine leNat_zero _ _ fun j hj => ?_
    have := hz j hj
    rw [imageByte, if_neg (by omega), if_neg (by omega)]
  refine ctxFault_plain _ _ (ctxLoads_read _ _ _ (by decide) (by decide +kernel)) (ctxLoads_read _ _ _ (by decide) (by decide +kernel))
    (ctxLoads_read _ _ _ (by decide) (by decide +kernel)) (ctxLoads_read _ _ _ (by decide) (by decide +kernel))
    (ctxLoads_read _ _ _ (by decide) (by decide +kernel)) (ctxLoads_read _ _ _ (by decide) (z _ _ (by decide) fun j hj => by omega)) ?_ ?_
  · refine tabulate_zero _ _ fun j hj => ?_
    rw [Nat.add_assoc]
    exact ctxLoads_read _ _ _ (by omega) (z _ _ (by omega) fun i hi => by omega)
  · refine laneFault_plain _ _ ?_ ?_ ?_ ?_ ?_ ?_ ?_ (tabulate_zero _ _ fun j hj => ?_)
    · exact ctxLoads_lanes 0 8 1 (by decide) (by decide +kernel)
    · exact ctxLoads_lanes 0 1 1 (by decide) (by decide +kernel)
    · exact ctxLoads_lanes 0x10 2 1 (by decide) (by decide +kernel)
    · exact ctxLoads_lanes 0x12 2 1 (by decide) (by decide +kernel)
    · exact ctxLoads_lanes 0x14 4 0 (by decide) (by decide +kernel)
    · exact ctxLoads_lanes 0x18 0xE8 0 (by decide) (z _ _ (by decide) fun j hj => by omega)
    · exact ctxLoads_lanes 0x900 0x1700 0 (by decide) (z _ _ (by decide) fun j hj => by omega)
    · exact ctxLoads_lanes (0x100 + 8 * j) 8 0 (by omega) (z _ _ (by omega) fun i hi => by omega)
/-- The head of what CTXLOAD finds, apart from the image. -/
theorem witness_ctxload_ends : ctxLoads.agentsRun = true ∧ (match (ctxLoads.array 0).flights with
    | [f] => decide (f.code = opCtxload) && !ctxLoads.waitHolds 0 f.place && decide (modBit f.word 0 = false)
        && okIs (ctxLoads.checkAccess (fieldAt f.word 8 0 24) (fieldAt f.word 0x10 0 48) (ctxBytes (modBit f.word 0)) false) 0x100000
    | _ => false) = true ∧ ctxLoads.poisonIn 0x100000 (ctxBytes false) = none ∧ ctxLoads.ctxFault 0x100000 false = none :=
  ⟨by decide +kernel, by decide +kernel, by decide +kernel, ctxLoads_image⟩
/-- A product with five reduction tiles, in the smallest window, its first two copy rows done. -/
def longCopied : State :=
  let s := (array0 (abc 0x10) [tensor 7 [4096, 2] (ls 0x201000), tensor 7 [2, 4096] (ls 0x303000), matrix 8 0x7A2000]).modArray 0
    fun x => { x with winSize := 16 }
  next (.trellisRowComplete 0 .copy) (next (.trellisRowComplete 0 .copy) (next (.mm 0) s))
/-- The only layer of a CONVF, and a CONV on the vector engine, before their compute rows. -/
def convfCopied : State := next (.trellisRowComplete 0 .copy) (next (.trellisRowComplete 0 .copy) (next (.convf 0) convfIssue))
def vconvCopied : State :=
  let w := convWord + packed [(1, 2, 2, 2)]
  let s := (array0 w [image 7 0x7A1000, tensor 7 [4, 4, 1, 1] (ls 0x7A3000), image 8 0x7A2000])
  next (.trellisRowComplete 0 .copy) (next (.trellisRowComplete 0 .copy) (next (.conv 0) s))
/-- The next row of array 0's compute unit has this property. -/
def nextCompute (s : State) (p : Flight → TRow → Bool) : Bool := match s.nextRow 0 .compute with
  | some (f, r) => p f r
  | none => false
theorem witness_compute_rows : longCopied.agentsRun = true
    ∧ nextCompute longCopied (fun f r => decide (r.kind ≠ 15 ∧ r.kind ≠ 8 ∧ (f.grid.stepAt r.step).k2 + 1 < f.grid.nk) && (longCopied.rowFault f r).isNone) = true
    ∧ nextCompute mmCopied (fun f r => decide (r.kind ≠ 15 ∧ r.kind ≠ 8 ∧ f.grid.nk ≤ (f.grid.stepAt r.step).k2 + 1
        ∧ (f.grid.stepAt r.step).stores = true) && (mmCopied.rowFault f r).isNone) = true
    ∧ nextCompute convfCopied (fun f r => decide (r.kind = 8 ∧ r.part + 1 = f.layers.length) && (convfCopied.rowFault f r).isNone) = true
    ∧ nextCompute vconvCopied (fun f r => decide (r.kind = 15) && (vconvCopied.rowFault f r).isNone
        && (match ((vconvCopied.endTile 0 f r []).array 0).flights.find? (fun h => decide (h.place = f.place)) with
          | some g => ((vconvCopied.endTile 0 f r []).tileBytes 0 g r).all fun e => decide (regionOf e.1 ≠ .control)
          | none => false)) = true := by decide +kernel
/-- A unit of A is poisoned. -/
def mmPoisoned : State := { mmCopied with mem := { mmCopied.mem with poison := [ls 0x7A1000 / 64] } }
theorem witness_row_fault : mmPoisoned.agentsRun = true ∧ nextCompute mmPoisoned (fun f r => (mmPoisoned.rowFault f r).isSome) = true := by
  decide +kernel
/-- All rows of the product are complete. -/
def mmStored : State := next (.trellisRowComplete 0 .store) mmComputed
theorem witness_rows_complete : mmStored.agentsRun = true ∧ (match (mmStored.array 0).flights with
    | [f] => decide (f.noop = false ∧ f.hasRows = true ∧ opCompute f.code = true) && (f.next? .copy).isNone && (f.next? .compute).isNone
        && (f.next? .store).isNone && !mmStored.waitHolds 0 f.place
    | _ => false) = true := by decide +kernel
/-- Array 0 copies 16 words: within its store, to the session command port, and with REMOTE to node 7. -/
def copyInsn (remote : Nat) : Nat := packed [(0, 0, 8, 0x30), (1, 2, 1, remote), (8, 0, 16, 0x8000), (0xA, 0, 16, 0x8001), (0xC, 0, 14, 7 * remote)]
def copies (remote dst : Nat) : State :=
  next (.copy 0) ((array0 (copyInsn remote) [tensor 8 [16] (ls 0x7A1000), tensor 8 [16] dst]).wrNat (ls 0x7A1000) 64 closeWord)
where closeWord : Nat := 5
/-- The same on node 7 itself. -/
def atNode7 (s : State) : State := { s with link := { s.link with nodeValid := true, nodeId := 7 } }
/-- The flight of a state with one. -/
def flight1 (s : State) (p : Flight → Bool) : Bool := match (s.array 0).flights with
  | [f] => p f
  | _ => false
theorem witness_copies : (copies 0 (ls 0x7A2000)).agentsRun = true
    ∧ flight1 (copies 0 (ls 0x7A2000)) (fun f => decide (f.noop = false ∧ f.hasRows = false ∧ f.code = opCopy ∧ modBit f.word 2 = false)
        && !(copies 0 (ls 0x7A2000)).waitHolds 0 f.place
        && ((copies 0 (ls 0x7A2000)).storeBytes ((copies 0 (ls 0x7A2000)).copyStores f.copySpec)).all fun e => decide (regionOf e.1 ≠ .control)) = true
    ∧ (copies 0 sessionPortAddr).agentsRun = true ∧ (copies 0 sessionPortAddr).sessions.port.length < 64
    ∧ flight1 (copies 0 sessionPortAddr) (fun f => decide (f.noop = false ∧ f.hasRows = false ∧ f.code = opCopy ∧ modBit f.word 2 = false)
        && decide ((copies 0 sessionPortAddr).storeBytes ((copies 0 sessionPortAddr).copyStores f.copySpec) ≠ [])
        && ((copies 0 sessionPortAddr).storeBytes ((copies 0 sessionPortAddr).copyStores f.copySpec)).all fun e => decide (regionOf e.1 = .control)) = true
    ∧ (copies 1 0x40000).agentsRun = true ∧ (copies 1 0x40000).link.nodeValid = false
    ∧ flight1 (copies 1 0x40000) (fun f => decide (f.noop = false ∧ f.hasRows = false ∧ f.code = opCopy ∧ modBit f.word 2 = true)) = true
    ∧ (atNode7 (copies 1 0x40000)).link.nodeValid = true
    ∧ flight1 (atNode7 (copies 1 0x40000)) (fun f => decide (fieldAt f.word 0xC 0 14 = (atNode7 (copies 1 0x40000)).link.nodeId)) = true := by
  decide +kernel
/-- A full session command port. -/
def portFull (s : State) : State := { s with sessions := { s.sessions with port := List.replicate 64 5 } }
theorem witness_copy_waits : 64 ≤ (portFull (copies 0 sessionPortAddr)).sessions.port.length := by decide +kernel
theorem test_copy_port : gives (.insnComplete 0 0) (copies 0 sessionPortAddr) (fun t => decide (t.sessions.port = [5] ∧ (t.array 0).flights = [])) = true := by
  decide +kernel
theorem test_copy_remote : gives (.insnComplete 0 0) (atNode7 (copies 1 0x40000)) (fun t => decide (t.rdNat 0x40000 64 = 5 ∧ (t.array 0).flights = [])) = true := by
  decide +kernel

/-! ## Movers (ch 02) -/

/-- COPY of 16 bytes of format 5 from 0x40000 to the device address `dst`, or to an object (Table 02-11), with gate 9 and
increment 5. -/
def copyWord (handle off : Nat) : Nat :=
  packed [(0, 0, 8, 1), (1, 3, 1, 1), (2, 0, 8, 0x55), (8, 0, 24, handle), (0x10, 0, 48, 0x40000), (0x18, 0, 48, off), (0x20, 0, 32, 16),
    (0x24, 0, 32, 1), (0x28, 0, 32, 1), (0x2C, 0, 32, 1), (0x60, 16, 16, 1), (0x64, 0, 17, 9), (0x68, 0, 16, 5)]
def withObject (o : Obj) (s : State) : State :=
  let t := { s with objects := { s.objects with objs := [(5, o)], quotas := [(0, { stackLimit := 100, stackUsed := 1 })] } }
  if o.st = .absent then t else { t with mem := { t.mem with extents := [{ first := 32, count := 1, ro := false, salt := 0, object := 5 }] } }
/-- Mover 0 starts the command `w` with object 5 in this state. -/
def places (w : Nat) (kind : Bool) (st : ObjState) (pins : Nat) : State := withObject (object5 kind st pins) (runs 208 64 w)
/-- PROMOTE, EVICT and ALLOC of object 5, for domain 0, at block 32 (Table 02-12). -/
def promoteWord : Nat := packed [(0, 0, 8, 2), (4, 0, 24, 5), (8, 0, 24, 32)]
def evictWord : Nat := packed [(0, 0, 8, 3), (4, 0, 24, 5)]
def allocWord : Nat := packed [(0, 0, 8, 4), (1, 1, 1, 1), (4, 0, 24, 5), (8, 0, 24, 32)]
/-- A COPY into object 5. -/
def copyState : State := (withObject (object5 false .resident 0) (runs 208 128 (copyWord 5 0x80))).wrNat 0x40000 16 0x0F0E0D0C0B0A09080706050403020100
def copyRuns : State := next (.moverCopy 0) copyState

theorem witness_moverCopy : copyState.moverStarts 0 mvCopy (copyWord 5 0x80)
    ∧ (mvCopySpec (copyWord 5 0x80) 0x40000 0x80).count ≠ 0 ∧ copyState.pinFault [5] = none
    ∧ copyState.checkEnd 0 0x40000 ((mvCopySpec (copyWord 5 0x80) 0x40000 0x80).places true) false = .ok 0x40000
    ∧ copyState.checkEnd 5 0x80 ((mvCopySpec (copyWord 5 0x80) 0x40000 0x80).places false) true = .ok 0x200080 :=
  ⟨moverStarts_of (by decide +kernel), by decide +kernel, by decide +kernel, okIs_eq (by decide +kernel), okIs_eq (by decide +kernel)⟩
/-- A COPY with an extent of 0 and no signal. -/
def emptyCopy : Nat := packed [(0, 0, 8, 1), (2, 0, 8, 0x55), (0x60, 16, 16, 1)]
theorem witness_moverCopy_empty : (runs 208 128 emptyCopy).moverStarts 0 mvCopy emptyCopy ∧ modBit emptyCopy 3 = false
    ∧ (mvCopySpec emptyCopy 0 0).count = 0 := ⟨moverStarts_of (by decide +kernel), by decide +kernel, by decide +kernel⟩
theorem witness_moverCopyComplete : copyRuns.agentsRun = true
    ∧ (copyRuns.mover 0).cmd = some (.copy codeAddr (copyWord 5 0x80) 0x40000 0x200080 [5]) ∧ modBit (copyWord 5 0x80) 2 = false
    ∧ (copyRuns.obj 5).st = .resident
    ∧ ((copyRuns.storeBytes (copyRuns.copyStores (mvCopySpec (copyWord 5 0x80) 0x40000 0x200080))).all fun e =>
        decide (regionOf e.1 ≠ .control)) = true := by decide +kernel
theorem witness_promote : (places promoteWord true .absent 0).placeFault promoteWord = none
    ∧ (places promoteWord true .absent 0).moverStarts 0 mvPromote promoteWord ∧ ((places promoteWord true .absent 0).obj 5).kind = true
    ∧ (places promoteWord true .absent 0).extentFault 5 0 32 = none
    ∧ (places promoteWord true .evicting 1).moverStarts 0 mvPromote promoteWord ∧ ((places promoteWord true .evicting 1).obj 5).charge = 0
    ∧ (places promoteWord true .promoting 1).placeFault promoteWord = none := by
  refine ⟨?_, moverStarts_of ?_, ?_, ?_, moverStarts_of ?_, ?_, ?_⟩ <;> decide +kernel
theorem witness_evict : (places evictWord true .absent 0).placeFault evictWord = none ∧ (places evictWord true .resident 1).placeFault evictWord = none
    ∧ (places evictWord true .resident 0).moverStarts 0 mvEvict evictWord := by
  refine ⟨?_, ?_, moverStarts_of ?_⟩ <;> decide +kernel
theorem witness_alloc : (places allocWord false .absent 0).placeFault allocWord = none
    ∧ (places allocWord false .absent 0).moverStarts 0 mvAlloc allocWord ∧ (places allocWord false .absent 0).extentFault 5 0 32 = none := by
  refine ⟨?_, moverStarts_of ?_, ?_⟩ <;> decide +kernel
/-- Mover 0 copies object 5 into its stack copy; an eviction is held on it. -/
def promoting : State :=
  ((withObject { object5 true .promoting 1 with size := 64, held := [{ agent := 209, handle := 5, status := 0, signal := none }] }
    { runs 208 64 0 with mem := { (runs 208 64 0).mem with iceWritten := [0] } }).wrNat iceBase 64 0x1234).modMover 0 fun x => { x with cmd := some (.promote codeAddr { agent := 208, handle := 5, status := 0x60000, signal := none } 5) }
theorem witness_promotionCopyDone : promoting.agentsRun = true
    ∧ (promoting.mover 0).cmd = some (.promote codeAddr { agent := 208, handle := 5, status := 0x60000, signal := none } 5) := by decide +kernel
/-- XSERVE of two frames. -/
def xserveWord : Nat := packed [(0, 0, 8, 6), (4, 0, 32, 2), (8, 0, 24, 25)]
/-- A job of two frames for this module itself. -/
def job : ExportJob :=
  { array := 0, place := 0, session := 0, snap := {}, layer := 0, first := 0, count := 2, node := 7, stream := 1, last := true, sent := 0, port := none,
    under := false }
def exporting : State :=
  let s := (runs 208 64 6).modMover 0 fun x => { x with cmd := some (.xserve codeAddr 2 900000 25), jobs := [job] }
  { s with link := { s.link with nodeValid := true, nodeId := 7 } }
theorem witness_xserve : (runs 208 64 xserveWord).moverStarts 0 mvXserve xserveWord := moverStarts_of (by decide +kernel)
theorem witness_exportFrame : exporting.agentsRun = true ∧ (exporting.mover 0).cmd = some (.xserve codeAddr 2 900000 25)
    ∧ (exporting.mover 0).jobs = job :: [] ∧ exporting.frameRefused job = none ∧ job.under = false ∧ exporting.jobHeld job = false ∧ exporting.jobPort job = .ok none ∧ job.sent + 1 ≠ job.count :=
  ⟨by decide +kernel, by decide +kernel, by decide +kernel, by decide +kernel, rfl, by decide +kernel, rfl, by decide⟩

theorem test_moverCopy : gives (.moverCopy 0) copyState (fun t => decide ((t.obj 5).pins = 1 ∧ (t.agent 208).ip = codeAddr + 128)) = true := by decide +kernel
theorem test_moverCopyComplete : gives (.moverCopyComplete 0) copyRuns (fun t => decide (t.rdNat 0x200080 16 = 0x0F0E0D0C0B0A09080706050403020100
    ∧ (t.obj 5).pins = 0 ∧ (t.gate 9).value = 0 ∧ (t.agent 208).signals.map (·.gate) = [9])) = true := by decide +kernel
theorem test_promote : gives (.promote 0) (places promoteWord true .absent 0) (fun t => decide ((t.obj 5).st = .promoting ∧ (t.obj 5).base = 32
    ∧ (t.quota 0).stackUsed = 2)) = true := by decide +kernel
/-- ALLOC's kind (R105). -/
theorem test_promote_kind : gives (.promote 0) (places promoteWord false .absent 0) (fun t => decide ((t.agent 208).fault.map (·.info.code) = some cMoverOperand))
    = true := by decide +kernel
theorem test_evict : gives (.evict 0) (places evictWord true .resident 0) (fun t => decide ((t.obj 5).st = .absent ∧ (t.quota 0).stackUsed = 0)) = true := by
  decide +kernel
theorem test_evict_held : gives (.evict 0) (places evictWord true .resident 1) (fun t => decide ((t.obj 5).st = .evicting ∧ (t.obj 5).held.length = 1)) = true := by
  decide +kernel
theorem test_alloc : gives (.alloc 0) (places allocWord false .absent 0) (fun t => decide ((t.obj 5).st = .resident ∧ (t.mover 0).cmd ≠ none)) = true := by
  decide +kernel
theorem test_promotionCopyDone : gives (.promotionCopyDone 0) promoting (fun t => decide ((t.obj 5).st = .retaining ∧ t.rdNat 0x200000 8 = 0x1234
    ∧ t.rdNat 0x60000 8 = 0x501)) = true := by
  decide +kernel
theorem test_xserve : gives (.xserve 0) (runs 208 64 xserveWord) (fun t => decide ((t.mover 0).cmd = some (.xserve codeAddr 2 1000000 25))) = true := by
  decide +kernel
theorem test_exportFrame : gives (.exportFrame 0) exporting (fun t => decide ((t.mover 0).jobs.map (·.sent) = [1]
    ∧ (t.mover 0).cmd = some (.xserve codeAddr 1 1000000 25))) = true := by decide +kernel

/-- A KVEXP of page 0 of session 0 is in flight: one token, in frame 40 of the cache object 5. -/
def kvexpWord : Nat := packed [(0, 0, 8, 0x23), (0xA, 0, 8, 1), (0x14, 0, 32, 1)]
def exportIssue : State :=
  let s := (withSession (array0 kvexpWord [])).modSession 0 fun r => { r with len := 1, cache := 5, belv := 0 }
  { s with sessions := { s.sessions with pages := [(0, { frame := 40, valid := true })] },
           objects := { s.objects with objs := [(5, object5 false .resident 0)] } }
/-- Its mover's queue was full when it issued, and has a place now. -/
def exportWaits : State :=
  (next (.kvexp 0) (exportIssue.modMover 0 fun x => { x with jobs := List.replicate 8 job })).modMover 0 fun x => { x with jobs := x.jobs.drop 1 }
theorem witness_kvexp : exportWaits.agentsRun = true ∧ flight1 exportWaits (fun f => decide (f.noop = false ∧ f.code = opKvexp ∧ f.posted = false)
    && f.session.isSome && !exportWaits.waitHolds 0 f.place) = true ∧ (exportWaits.mover 0).jobs.length < 8
    ∧ flight1 (next (.insnComplete 0 0) exportWaits) (fun f => f.posted) = true := by decide +kernel
theorem test_kvexp_posts : gives (.insnComplete 0 0) exportWaits (fun t => decide ((t.mover 0).jobs.length = 8)) = true := by
  decide +kernel
theorem witness_mover_fields : (runs 208 128 0x550001).moverReady 0 = true
    ∧ okIs ((runs 208 128 0x550001).fetchCmd 208 cMoverFetch 64 mvBytes) 0x550001 = true ∧ (mvFault mvCopy 0x550001).isSome = true := by decide +kernel
/-- A COPY with SKEW_PERIOD 0 (R97, Table 02-11). -/
theorem test_moverCopy_period : gives (.moverCopy 0) (runs 208 128 0x550001) (fun t => decide ((t.agent 208).fault.map (·.info.code) = some cMoverOperand)) = true := by
  decide +kernel
theorem witness_moverCopy_power : copyState.power.envelope + copyState.power.added + 40000 ≤ 28000000
    ∧ 28000000 < (full copyState).power.envelope + (full copyState).power.added + 40000 := by decide +kernel
/-- COPY into an object that is not there, and past its end. -/
def copyAbsent : State := runs 208 128 (copyWord 5 0x80)
def copyPast : State := withObject (object5 false .resident 0) (runs 208 128 (copyWord 5 0x10000))
theorem witness_moverCopy_checks : copyAbsent.moverStarts 0 mvCopy (copyWord 5 0x80) ∧ (copyAbsent.pinFault [5]).isSome = true
    ∧ copyPast.moverStarts 0 mvCopy (copyWord 5 0x10000) ∧ copyPast.pinFault [5] = none
    ∧ (match copyPast.checkEnd 5 0x10000 ((mvCopySpec (copyWord 5 0x10000) 0x40000 0x10000).places false) true with
      | .error f => decide (f.code = cObjBound)
      | .ok _ => false) = true := by
  refine ⟨moverStarts_of ?_, ?_, moverStarts_of ?_, ?_, ?_⟩ <;> decide +kernel
/-- The copy in execution, with object 5 due to be evicted when its pin goes; to the session command port; and REMOTE, to node 7. -/
def copyEvicts : State := copyRuns.modObj 5 fun o => { o with st := .evicting }
def moving (w dst : Nat) : State := (runs 208 128 w).modMover 0 fun x => { x with cmd := some (.copy codeAddr w 0x40000 dst []) }
def portWord : Nat := copyWord 0 sessionPortAddr + packed [(0x20, 4, 3, 3)]
def remoteWord : Nat := copyWord 0 0x50000 + packed [(1, 2, 1, 1), (0xC, 0, 14, 7)]
def movingOut : State := (moving remoteWord 0x50000).wrNat 0x40000 16 0x99
theorem witness_copy_ends : (copyEvicts.mover 0).cmd = some (.copy codeAddr (copyWord 5 0x80) 0x40000 0x200080 [5])
    ∧ (copyEvicts.obj 5).pins = [5].count 5 ∧ (copyEvicts.obj 5).st = .evicting
    ∧ (moving portWord sessionPortAddr).agentsRun = true
    ∧ (moving portWord sessionPortAddr).storeBytes ((moving portWord sessionPortAddr).copyStores (mvCopySpec portWord 0x40000 sessionPortAddr)) ≠ []
    ∧ (((moving portWord sessionPortAddr).storeBytes ((moving portWord sessionPortAddr).copyStores (mvCopySpec portWord 0x40000 sessionPortAddr))).all
        fun e => decide (regionOf e.1 = .control)) = true
    ∧ (moving portWord sessionPortAddr).sessions.port.length < 64 ∧ modBit portWord 2 = false
    ∧ movingOut.agentsRun = true ∧ modBit remoteWord 2 = true ∧ movingOut.link.nodeValid = false
    ∧ fieldAt remoteWord 0xC 0 14 = (atNode7 movingOut).link.nodeId ∧ (atNode7 movingOut).link.nodeValid = true := by decide +kernel
theorem test_moverCopy_evicts : gives (.moverCopyComplete 0) copyEvicts (fun t => decide ((t.obj 5).st = .absent ∧ (t.obj 5).pins = 0)) = true := by decide +kernel
theorem test_moverCopy_here : gives (.moverCopyComplete 0) (atNode7 movingOut) (fun t => decide (t.rdNat 0x50000 16 = 0x99 ∧ (t.mover 0).cmd = none)) = true := by
  decide +kernel
/-- A read-only block at 4, that of an outcome record at 0x48000. -/
def sealed (s : State) : State := { s with mem := { s.mem with extents := { first := 4, count := 1, ro := true, salt := 0, object := 9 } :: s.mem.extents } }
/-- An ALLOC with ZERO of object 5 in execution, its record at 0x48000. -/
def zeroing : State :=
  next (.alloc 0) (places (allocWord + packed [(0x10, 0, 48, 0x48000)]) false .absent 0)
theorem witness_zero : zeroing.agentsRun = true ∧ (match (zeroing.mover 0).cmd with
    | some (.zero a r i) => decide (a = codeAddr ∧ i = 5 ∧ r.status = 0x48000 ∧ r.status + 8 ≤ stackTop) && (zeroing.reportFault r).isNone
        && ((sealed zeroing).reportFault r).isSome
    | _ => false) = true := by decide +kernel
/-- A domain that may hold nothing, and object 5 charged to domain 3. -/
def poor (s : State) : State := { s with objects := { s.objects with quotas := [(0, { stackLimit := 0, stackUsed := 0 })] } }
def other (s : State) : State := s.modObj 5 fun o => { o with charge := 3 }
theorem witness_promote_rows : (full (places promoteWord true .absent 0)).moverStarts 0 mvPromote promoteWord
    ∧ ((places promoteWord false .absent 0).obj 5).kind = false ∧ (places promoteWord false .absent 0).placeFault promoteWord = none
    ∧ (places promoteWord false .absent 0).moverStarts 0 mvPromote promoteWord
    ∧ (poor (places promoteWord true .absent 0)).moverStarts 0 mvPromote promoteWord
    ∧ ((poor (places promoteWord true .absent 0)).extentFault 5 0 32).isSome = true
    ∧ (places promoteWord true .promoting 1).moverStarts 0 mvPromote promoteWord
    ∧ (other (places promoteWord true .evicting 1)).moverStarts 0 mvPromote promoteWord
    ∧ ((other (places promoteWord true .evicting 1)).obj 5).charge ≠ 0 ∧ (other (places promoteWord true .evicting 1)).placeFault promoteWord = none
    ∧ ((other (places promoteWord true .evicting 1)).quota 0).stackUsed + 1 ≤ ((other (places promoteWord true .evicting 1)).quota 0).stackLimit
    ∧ ((poor (other (places promoteWord true .evicting 1))).quota 0).stackLimit < ((poor (other (places promoteWord true .evicting 1))).quota 0).stackUsed + 1
    ∧ (places promoteWord true .resident 0).placeFault promoteWord = none ∧ (places promoteWord true .retaining 1).placeFault promoteWord = none
    ∧ ((runs 208 64 promoteWord).placeFault promoteWord).isSome = true ∧ (runs 208 64 promoteWord).moverStarts 0 mvPromote promoteWord := by
  refine ⟨moverStarts_of ?_, ?_, ?_, moverStarts_of ?_, moverStarts_of ?_, ?_, moverStarts_of ?_, moverStarts_of ?_, ?_, ?_, ?_, ?_, ?_, ?_, ?_,
    moverStarts_of ?_⟩ <;> decide +kernel
theorem witness_evict_rows : (places evictWord true .absent 0).moverStarts 0 mvEvict evictWord ∧ (places evictWord true .resident 1).moverStarts 0 mvEvict evictWord
    ∧ (places evictWord true .promoting 1).placeFault evictWord = none ∧ (places evictWord true .retaining 1).placeFault evictWord = none
    ∧ ((runs 208 64 evictWord).placeFault evictWord).isSome = true ∧ (runs 208 64 evictWord).moverStarts 0 mvEvict evictWord := by
  refine ⟨moverStarts_of ?_, moverStarts_of ?_, ?_, ?_, ?_, moverStarts_of ?_⟩ <;> decide +kernel
theorem witness_alloc_rows : modBit allocWord 1 = true ∧ (full (places allocWord false .absent 0)).moverStarts 0 mvAlloc allocWord
    ∧ modBit (allocWord - 0x200) 1 = false ∧ (places (allocWord - 0x200) false .absent 0).moverStarts 0 mvAlloc (allocWord - 0x200)
    ∧ (places (allocWord - 0x200) false .absent 0).placeFault (allocWord - 0x200) = none
    ∧ ((poor (places allocWord false .absent 0)).extentFault 5 0 32).isSome = true
    ∧ (poor (places allocWord false .absent 0)).moverStarts 0 mvAlloc allocWord
    ∧ (places allocWord true .absent 0).placeFault allocWord = none ∧ ((places allocWord true .absent 0).obj 5).kind = true
    ∧ (places allocWord true .absent 0).moverStarts 0 mvAlloc allocWord
    ∧ (places allocWord false .evicting 1).placeFault allocWord = none ∧ (places allocWord false .resident 1).placeFault allocWord = none
    ∧ (places allocWord false .evicting 1).moverStarts 0 mvAlloc allocWord ∧ (places allocWord false .resident 1).moverStarts 0 mvAlloc allocWord := by
  refine ⟨?_, moverStarts_of ?_, ?_, moverStarts_of ?_, ?_, ?_, moverStarts_of ?_, ?_, ?_, moverStarts_of ?_, ?_, ?_, moverStarts_of ?_,
    moverStarts_of ?_⟩ <;> decide +kernel
theorem test_promote_quota : gives (.promote 0) (poor (other (places promoteWord true .evicting 1))) (fun t =>
    decide ((t.agent 208).fault.map (·.info.code) = some cQuotaExceeded)) = true := by decide +kernel
/-- The held eviction stays while a pin remains, and is superseded with none; a sealed record stops the mover. -/
def promotingFree : State := promoting.modObj 5 fun o => { o with pins := 0 }
theorem witness_promotion_ends : (promoting.obj 5).held ≠ [] ∧ 0 < (promoting.obj 5).pins ∧ (promotingFree.obj 5).pins = 0
    ∧ promoting.reportFault { agent := 208, handle := 5, status := 0x60000, signal := none } = none ∧ promoting.mem.wf = true
    ∧ ({ promoting with mem := { promoting.mem with extents := [{ first := 6, count := 1, ro := true, salt := 0, object := 9 }] } } : State).reportFault
        { agent := 208, handle := 5, status := 0x60000, signal := none } ≠ none := by decide +kernel
theorem witness_xserve_power : (runs 208 64 xserveWord).power.envelope + (runs 208 64 xserveWord).power.added + 40000 ≤ 28000000
    ∧ (full (runs 208 64 xserveWord)).moverStarts 0 mvXserve xserveWord := ⟨by decide +kernel, moverStarts_of (by decide +kernel)⟩
theorem test_xserve_held : gives (.xserve 0) (full (runs 208 64 xserveWord)) (fun t => decide ((t.mover 0).cmd = none ∧ (t.agent 208).heldWake = true)) = true := by
  decide +kernel

/-! ## Sessions (ch 07) -/

/-- A command of session 0 at the head of the port; its outcome goes to 0x60000. -/
def sessionWord (cmd : Nat) (l : List (Nat × Nat × Nat × Nat)) : Nat := packed ([(0, 0, 8, cmd), (4, 0, 8, 1), (8, 0, 48, 0x60000)] ++ l)
def openWord : Nat :=
  sessionWord 1 [(0x18, 0, 22, 100), (0x1C, 0, 23, 4), (0x20, 0, 8, 2), (0x24, 0, 24, 5), (0x2C, 0, 16, 64), (0x2C, 24, 4, 7)]
def mapWord : Nat := sessionWord 2 [(0x18, 0, 8, 1), (0x1C, 0, 23, 2), (0x20, 0, 23, 2), (0x24, 0, 22, 40)]
def commitWord : Nat := sessionWord 3 [(0x18, 0, 32, 0)]
def truncateWord : Nat := sessionWord 4 [(0x18, 0, 32, 0)]
def closeWord : Nat := sessionWord 5 []
def commanded (w : Nat) (s : State) : State := { s with sessions := { s.sessions with port := [w] } }
/-- Session 0 is open: two layers of four pages from page-map entry 100 on. -/
def opened : State := (withSession up).modSession 0 fun r => { r with pmBase := 100, pagesPerLayer := 4, layers := 2 }
theorem witness_session_open : (commanded openWord up).sessions.port = [openWord] ∧ (commanded openWord up).agentsRun = true
    ∧ (commanded openWord up).sessions.waiting = [] ∧ (commanded openWord up).sessionCheck openWord = seDone := by decide +kernel
theorem witness_session_refused : (commanded openWord opened).agentsRun = true ∧ (commanded openWord opened).sessionCheck openWord ≠ seDone := by decide +kernel
theorem witness_session_done : (commanded mapWord opened).sessionCheck mapWord = seDone ∧ (commanded commitWord opened).sessionCheck commitWord = seDone
    ∧ (commanded truncateWord opened).sessionCheck truncateWord = seDone ∧ (commanded closeWord opened).sessionCheck closeWord = seDone := by decide +kernel
theorem test_sessionOpen : gives .sessionOpen (commanded openWord up) (fun t => decide ((t.session 0).valid = true ∧ (t.session 0).gen = 1
    ∧ (t.session 0).pagesPerLayer = 4 ∧ t.rdNat 0x60000 1 = seDone)) = true := by decide +kernel
/-- Pages 2 and 3 of layer 1 are entries 106 and 107. -/
theorem test_map : gives .map (commanded mapWord opened) (fun t => decide ((t.page 106) = { frame := 40, valid := true }
    ∧ (t.page 107) = { frame := 41, valid := true } ∧ (t.page 105).valid = false)) = true := by decide +kernel
theorem test_commit_unmapped : gives .commit (commanded (sessionWord 3 [(0x18, 0, 32, 65)]) opened) (fun t => decide ((t.session 0).len = 0
    ∧ t.rdNat 0x60000 1 = seUnmapped)) = true := by decide +kernel
theorem test_truncate : gives .truncate (commanded truncateWord (opened.modSession 0 fun r => { r with len := 70 }))
    (fun t => decide ((t.session 0).len = 0)) = true := by decide +kernel
theorem test_sessionClose : gives .sessionClose (commanded closeWord opened) (fun t => decide ((t.session 0).valid = false)) = true := by decide +kernel
theorem test_sessionClose_pinned : gives .sessionClose (commanded closeWord (opened.modSession 0 fun r => { r with pins := 1 }))
    (fun t => decide ((t.session 0).valid = true)) = true := by decide +kernel

theorem witness_session_unknown : (commanded (sessionWord 9 []) opened).sessions.port = [sessionWord 9 []] ∧ sessionWord 9 [] % 256 = 9
    ∧ (commanded (sessionWord 9 []) opened).sessionCheck (sessionWord 9 []) ≠ seDone := by decide +kernel
theorem test_session_unknown : gives .sessionOpen (commanded (sessionWord 9 []) opened) (fun t => decide (t.rdNat 0x60000 1 = seFormat ∧ t.sessions.port = [])) = true := by
  decide +kernel

/-! ## Host-class cores (ch 10) -/

/-- Core 0 runs. -/
def coreUp : State := (up.modAgent 192 fun g => { g with prog := .running, gating := .running }).wrNat (ls 0x7A1000) 8 0xFFEEDDCCBBAA9988
/-- Core 0 holds line 0x40000 dirty, and its block is owned; core 1 has a reservation on it. -/
def dirty : State :=
  let x : Line := { data := List.replicate 64 7, dirty := true, owned := true }
  let s := (coreUp.modCore 0 fun c => { c with lines := [(0x1000, x)] }).modCore 1 fun c => { c with reservation := some 0x1000 }
  { s with mem := { s.mem with extents := [{ first := 4, count := 1, ro := false, salt := 0, object := 0 }] } }
theorem witness_core_local : coreUp.coreRuns 0 = true ∧ regionOf (ls 0x7A1000) = .local_ ∧ checkMapped (ls 0x7A1000) 8 false = none
    ∧ coreUp.poisonIn (ls 0x7A1000) 8 = none := by decide +kernel
theorem witness_core_unmapped : regionOf 0xF00000000000 = .unmapped := by decide +kernel
theorem witness_core_stack : dirty.coreRuns 0 = true ∧ regionOf 0x40038 = .stack ∧ 0x40038 % 64 + 8 ≤ 64 ∧ checkMapped 0x40038 8 false = none
    ∧ dirty.stoppedIn 0x40038 8 = none ∧ dirty.roIn 0x40038 8 = none := by decide +kernel
theorem witness_cache : dirty.coreRuns 0 = true ∧ (mapFind 0x1000 (dirty.core 0).lines).map (fun x => (x.dirty, x.poisoned, x.data.length)) = some (true, false, 64)
    ∧ (dirty.mem.extentAt (64 * 0x1000 / 65536)).map (·.ro) = some false ∧ dirty.stoppedIn (64 * 0x1000) 64 = none := by decide +kernel
theorem witness_core_port : coreUp.coreRuns 0 = true ∧ bits 0x500000009 19 13 = 0 ∧ bits 0x500000009 62 2 = 0 ∧ bits 0x500000009 32 16 ≠ 0
    ∧ bit 0x500000009 18 = false ∧ bits 0x500000009 48 14 = 0 ∧ (coreUp.core 0).waitState ≠ 1 ∧ (coreUp.agent 192).fences = [] := by decide +kernel
/-- Core 0 has the exit code in a7. -/
def exiting : State := coreUp.modCore 0 fun c => { c with x := [(17, 0x4558)] }
/-- Core 0's record has been cleared. -/
def clearing : State := (up.modAgent 192 fun g => { g with prog := .faulted }).modCore 0 fun c => { c with clearing := true }
/-- Core 0's program handles its exceptions. -/
def handling : State := coreUp.modCore 0 fun c => { c with stvec := 0x30001 }
theorem witness_ecall : exiting.coreRuns 0 = true ∧ (exiting.core 0).getX 17 = 0x4558#64 ∧ exiting.dirtyLines 0 = [] ∧ (coreUp.core 0).getX 17 ≠ 0x4558#64 := by
  decide +kernel
theorem witness_clear_writeback : clearing.agentsRun = true ∧ (clearing.core 0).clearing = true ∧ clearing.dirtyLines 0 = []
    ∧ (clearing.agent 192).fault = none := by decide +kernel
theorem witness_exception : (coreUp.core 0).stvec = 0#64 ∧ handling.coreRuns 0 = true ∧ (handling.core 0).stvec ≠ 0#64 := by decide +kernel
theorem test_coreAccess_load : gives (.coreAccess 0 (.load 1 true (.x 5)) (ls 0x7A1000)) coreUp (fun t => decide ((t.core 0).getX 5 = 0xFFFFFFFFFFFFFF88))
    = true := by decide +kernel
theorem test_coreAccess_store : gives (.coreAccess 0 (.store 2 0x1234) 0x40002) dirty (fun t => decide (t.cachedNat 0 0x40000 8 = 0x0707070712340707
    ∧ (t.core 1).reservation = none)) = true := by decide +kernel
theorem test_cboClean : gives (.cboClean 0 0x40000) dirty (fun t => decide (t.rdNat 0x40000 2 = 0x707 ∧ ((t.core 0).lines.map (·.2.dirty)) = [false])) = true := by
  decide +kernel
theorem test_cboFlush : gives (.cboFlush 0 0x40000) dirty (fun t => decide (t.rdNat 0x40000 2 = 0x707 ∧ (t.core 0).lines = [])) = true := by decide +kernel
theorem test_cboInval : gives (.cboInval 0 0x40000) dirty (fun t => decide (t.mem.byte? 0x40000 = none ∧ (t.core 0).lines = [])) = true := by decide +kernel
theorem test_cacheWriteback : gives (.cacheWriteback 0 0x40000) dirty (fun t => decide (t.rdNat 0x40000 2 = 0x707)) = true := by decide +kernel
theorem test_coreGsig : gives (.coreGsig 0 0x500000009) coreUp (fun t => decide ((t.gate 9).value = 5)) = true := by decide +kernel
theorem test_coreWaitTarget : gives (.coreWaitTarget 0 4) coreUp (fun t => decide ((t.core 0).waitState = 1 ∧ (t.agent 192).waits.length = 1)) = true := by
  decide +kernel
theorem test_coreWaitStatus : gives (.coreWaitStatus 0 (.x 5)) (coreUp.modCore 0 fun c => { c with waitState := 2, interrupt := true })
    (fun t => decide ((t.core 0).getX 5 = 2 ∧ (t.core 0).waitState = 0 ∧ (t.core 0).interrupt = false)) = true := by decide +kernel
theorem test_coreFence : gives (.coreFence 0 2) coreUp (fun t => decide ((t.agent 192).fences.map (·.scope) = [2])) = true := by decide +kernel
theorem test_coreFenceDone : gives (.coreFenceDone 0 (.x 5)) (coreUp.modCore 0 fun c => { c with fenceDone := 3 }) (fun t => decide ((t.core 0).getX 5 = 3))
    = true := by decide +kernel
theorem test_coreEcall : gives (.coreEcall 0) exiting (fun t => decide ((t.agent 192).prog = .ending)) = true := by decide +kernel
theorem test_coreEcall_trap : gives (.coreEcall 0) coreUp (fun t => decide ((t.agent 192).fault.map (fun r => (r.info.code, r.info.d0)) = some (cHostTrap, 9)))
    = true := by decide +kernel
theorem test_coreClearWriteback : gives (.coreClearWriteback 0) clearing (fun t => decide ((t.agent 192).prog = .idle)) = true := by decide +kernel
theorem test_coreException : gives (.coreException 0 2 0x99) coreUp (fun t => decide ((t.agent 192).fault.map (fun r => (r.info.code, r.info.d0, r.info.d1))
    = some (cHostTrap, 2, 0x99))) = true := by decide +kernel
theorem test_coreException_handled : gives (.coreException 0 2 0x99) handling (fun t => decide ((t.core 0).pc = 0x30000)) = true := by decide +kernel

/-- A core's access that is not a load of bytes: what stops it. -/
def hotLine : State := dirty.modStack (stackOf 0x40000) fun k => { k with stopped := true }
def badLine : State := dirty.modCore 0 fun c => { c with lines := [(0x1000, { data := List.replicate 64 7, poisoned := true })] }
def sealedLine : State := { coreUp with mem := { coreUp.mem with extents := [{ first := 4, count := 1, ro := true, salt := 0, object := 0 }] } }
theorem witness_core_stops : dirty.coreRuns 0 = true ∧ accessStart .zero 0x40000 = 0x40000 ∧ (checkMapped 0x40001 8 false).isSome = false
    ∧ (checkMapped (lsTop - 4) 8 false).isSome = true ∧ regionOf (lsTop - 4) = .local_
    ∧ hotLine.coreRuns 0 = true ∧ (hotLine.stoppedIn 0x40000 8).isSome = true
    ∧ badLine.coreRuns 0 = true ∧ (badLine.poisonSeen 0 0x40000 8).isSome = true ∧ badLine.stoppedIn 0x40000 8 = none
    ∧ sealedLine.coreRuns 0 = true ∧ (sealedLine.takeRefused 0 0x40000 8).isSome = true ∧ sealedLine.stoppedIn 0x40000 8 = none
    ∧ sealedLine.poisonSeen 0 0x40000 8 = none ∧ dirty.takeRefused 0 0x40000 8 = none ∧ dirty.poisonSeen 0 0x40000 8 = none := by decide +kernel
/-- A unit of array 0's local store is poisoned. -/
def badStore : State := { coreUp with mem := { coreUp.mem with poison := [ls 0x7A1000 / 64] } }
theorem witness_core_regions : badStore.coreRuns 0 = true ∧ (badStore.poisonIn (ls 0x7A1000) 8).isSome = true ∧ ls 0x7A1000 % 64 = 0
    ∧ regionOf iceBase = .ice ∧ checkMapped iceBase 8 false = none ∧ coreUp.stoppedIn iceBase 8 = none ∧ coreUp.poisonSeen 0 0x40000 8 = none
    ∧ (dirty.core 1).reservation = some (0x40000 / 64) ∧ (dirty.core 0).reservation ≠ some (0x40000 / 64)
    ∧ checkMapped 0x40000 4 false = none := by decide +kernel
/-- Core 1 has the reservation, and runs. -/
def reserving : State := dirty.modAgent 193 fun g => { g with prog := .running, gating := .running }
theorem witness_core_sc : reserving.coreRuns 1 = true ∧ (reserving.core 1).reservation = some (0x40000 / 64) ∧ reserving.takeRefused 1 0x40000 8 = none
    ∧ reserving.poisonSeen 1 0x40000 8 = none ∧ reserving.stoppedIn 0x40000 8 = none := by decide +kernel
/-- A full session command port, and an access to control space outside it and the core's own port. -/
def portsFull : State := { coreUp with sessions := { coreUp.sessions with port := List.replicate 64 5 } }
theorem witness_core_control : (coreUp.core 0).stores = [] ∧ coreUp.sessions.port.length < 64 ∧ portsFull.coreRuns 0 = true ∧ 64 ≤ portsFull.sessions.port.length
    ∧ regionOf sessionPortAddr = .control ∧ regionOf (portBase 1) = .control ∧ portBase 0 + 0x1000 ≤ portBase 1 ∧ portBase 1 ≠ sessionPortAddr
    ∧ accessStart .fetch (portBase 0) = portBase 0 := by decide +kernel
theorem test_core_sc : gives (.coreAccess 1 (.sc 8 0x55 (.x 5)) 0x40000) reserving (fun t => decide ((t.core 1).getX 5 = 0 ∧ t.cachedNat 1 0x40000 8 = 0x55)) = true := by
  decide +kernel
theorem test_core_port_waits : gives (.coreAccess 0 (.store 64 9) sessionPortAddr) portsFull (fun t => decide ((t.core 0).stores.map (·.2) = [.session 9] ∧ t.sessions.port.length = 64)) = true := by
  decide +kernel
/-- Core 0's dirty line, with its block unowned; the same in a stopped stack. -/
def lostLine : State := { dirty with mem := { dirty.mem with extents := [] } }
theorem witness_writeback : (dirty.dirtyAnywhere 0 0x1000).map (fun x => dirty.lineLost 0x1000 x) = some false
    ∧ (lostLine.dirtyAnywhere 0 0x1000).map (fun x => lostLine.lineLost 0x1000 x) = some true ∧ lostLine.coreRuns 0 = true
    ∧ (hotLine.stoppedIn 0x40000 64).isSome = true ∧ (hotLine.dirtyAnywhere 0 0x1000).isSome = true ∧ coreUp.dirtyAnywhere 0 0x1000 = none
    ∧ dirty.agentsRun = true ∧ (dirty.dirtyOf 0 0x1000).isSome = true := by decide +kernel
theorem test_writeback_lost : gives (.cboClean 0 0x40000) lostLine (fun t => decide ((t.agent 192).fault.map (fun r => (r.info.code, r.info.d1))
    = some (cHostWritebackLost, 0x40000) ∧ (t.core 0).lines = [])) = true := by decide +kernel
/-- Core 0's wait is in force; a fence of it runs. -/
def armed : State := coreUp.modCore 0 fun c => { c with waitState := 1 }
def coreFenced : State := coreUp.modAgent 192 fun g => { g with fences := [{ scope := 2, place := 0, addr := 0 }] }
theorem witness_core_port_stops : (bits 0x80009 19 13 ≠ 0) ∧ bits (0x100000004 : Nat) 32 32 ≠ 0 ∧ armed.coreRuns 0 = true ∧ (armed.core 0).waitState = 1
    ∧ bits (8 : Nat) 2 62 ≠ 0 ∧ bits (4 : Nat) 32 32 = 0 ∧ bits (2 : Nat) 2 62 = 0 ∧ coreFenced.coreRuns 0 = true ∧ (coreFenced.agent 192).fences ≠ []
    ∧ bits (0x1900000009 : Nat) 17 15 = 0 ∧ bits (0x1900000009 : Nat) 56 8 = 0 ∧ bits (0x20000 : Nat) 17 15 ≠ 0 := by decide +kernel
/-- An exit and a clear that lose a line on the way. -/
def exitLost : State := lostLine.modCore 0 fun c => { c with x := [(17, 0x4558)] }
def clearLost : State := (lostLine.modAgent 192 fun g => { g with prog := .faulted }).modCore 0 fun c => { c with clearing := true }
theorem witness_core_ends : (exiting.cleanAll 0 |>.agent 192).prog = .running ∧ exitLost.coreRuns 0 = true ∧ (exitLost.core 0).getX 17 = 0x4558#64
    ∧ ((exitLost.cleanAll 0).agent 192).prog ≠ .running ∧ ((clearing.cleanAll 0).agent 192).fault = none ∧ clearLost.agentsRun = true
    ∧ (clearLost.core 0).clearing = true ∧ ((clearLost.cleanAll 0).agent 192).fault.isSome = true := by decide +kernel

/-! ## Codec (ch 11) -/

/-- A decode core opens context 2: 128 by 64 luma samples, 30 frames a second, with a pool at 0x100000 (Table 11-4). -/
def cdOpenWord : Nat :=
  packed [(0, 0, 8, 0x10), (1, 0, 1, 1), (2, 0, 6, 2), (4, 0, 16, 128), (6, 0, 16, 64), (8, 0, 32, 30), (0xC, 0, 32, 1), (0x28, 0, 48, 0x100000),
    (0x38, 0, 17, 9), (0x3C, 0, 16, 5)]
/-- The same on an encode core, with reordering and mini-GOPs of two frames. -/
def encOpenWord : Nat :=
  packed [(0, 0, 8, 0x10), (1, 3, 2, 1), (2, 0, 6, 2), (4, 0, 16, 128), (6, 0, 16, 64), (8, 0, 32, 30), (0xC, 0, 32, 1), (0x10, 0, 8, 1),
    (0x11, 0, 8, 9), (0x12, 0, 8, 5), (0x14, 0, 8, 1), (0x28, 0, 48, 0x100000)]
/-- Frame 0 of context 2 (Table 11-5): semi-planar, at 0x200000, with 4,096 bytes of output at 0x300000 and a report at 0x400000. -/
def encWord : Nat :=
  packed [(0, 0, 8, 0x11), (2, 0, 6, 2), (0x10, 0, 48, 0x200000), (0x18, 0, 48, 0x300000), (0x20, 0, 32, 4096), (0x24, 0, 16, 128),
    (0x28, 0, 32, 0x4000), (0x38, 0, 48, 0x400000)]
/-- Frame 0 of decode context 2, with no input. -/
def decWord : Nat := packed [(0, 0, 8, 0x12), (2, 0, 6, 2), (0x18, 0, 48, 0x300000), (0x24, 0, 16, 128), (0x28, 0, 32, 0x4000)]
def closeCtxWord : Nat := packed [(0, 0, 8, 0x13), (2, 0, 6, 2)]
/-- Context 2 is in state `st`, opened by `w`. -/
def context (w : Nat) (decode started : Bool) (st : CtxState) (s : State) : State :=
  s.modCtx 2 fun x => { x with st := st, decode := decode, opened := [0, w], started := started }
/-- Encode core 0 executes frame 0, the first of a mini-GOP. -/
def encoding : State :=
  ((context encOpenWord false true .active (runs 224 64 0)).modAgent 224 fun g => { g with ip := codeAddr + 64 }).modCodecCore 0
    fun k => { k with cmd := some (encWord, 2) }
theorem witness_codecOpen : (runs 228 128 cdOpenWord).codecStarts 4 cdOpen cdOpenWord ∧ ((runs 228 128 cdOpenWord).ctx 2).st = .free
    ∧ (runs 228 128 cdOpenWord).pinFault [] = none ∧ decodes 4 = true := by
  refine ⟨codecStarts_of ?_, ?_, ?_, ?_⟩ <;> decide +kernel
def closing : State := context cdOpenWord true false .open_ (runs 228 64 closeCtxWord)
theorem witness_codecClose : closing.codecStarts 4 cdClose closeCtxWord ∧ (closing.ctx 2).st = .open_ ∧ (closing.ctx 2).decode = decodes 4
    ∧ (closing.ctx 2).held = [] ∧ closing.settled :=
  ⟨codecStarts_of (by decide +kernel), by decide +kernel, by decide +kernel, by decide +kernel, settled_of (by decide +kernel)⟩
def encStart : State := context encOpenWord false false .open_ (runs 224 64 encWord)
def decStart : State := context cdOpenWord true false .open_ (runs 228 64 decWord)
theorem witness_encFrame : encStart.codecStarts 0 cdEnc encWord ∧ ctxFault 0 (encStart.ctx 2) encWord = none ∧ (encStart.ctx 2).st ≠ .active
    ∧ encStart.leanRefuses 2 = false ∧ encStart.encFault (encStart.ctx 2) encWord = none := by
  refine ⟨codecStarts_of ?_, ?_, ?_, ?_, ?_⟩ <;> decide +kernel
theorem witness_decFrame : decStart.codecStarts 4 cdDec decWord ∧ ctxFault 4 (decStart.ctx 2) decWord = none ∧ (decStart.ctx 2).st ≠ .active
    ∧ decStart.decFault (decStart.ctx 2) decWord = none := by
  refine ⟨codecStarts_of ?_, ?_, ?_, ?_⟩ <;> decide +kernel
def frameWaits : State := context encOpenWord false false .active (runs 224 64 encWord)
theorem witness_frame_waits : frameWaits.codecStarts 0 cdEnc encWord ∧ ctxFault 0 (frameWaits.ctx 2) encWord = none ∧ (frameWaits.ctx 2).st = .active := by
  refine ⟨codecStarts_of ?_, ?_, ?_⟩ <;> decide +kernel
theorem witness_frameComplete : encoding.agentsRun = true ∧ (encoding.codecCore 0).cmd = some (encWord, ctxOf encWord) ∧ encoding.settled
    ∧ holds (encoding.ctx 2) encWord = true := ⟨by decide +kernel, by decide +kernel, settled_of (by decide +kernel), by decide +kernel⟩
/-- The first frame of the stream codes alone. -/
def encodingFirst : State := encoding.modCtx 2 fun x => { x with started := false }
theorem witness_frame_codes : encodingFirst.agentsRun = true ∧ (encodingFirst.codecCore 0).cmd = some (encWord, ctxOf encWord) ∧ encodingFirst.settled
    ∧ holds (encodingFirst.ctx 2) encWord = false
    ∧ encodingFirst.rowsPoison (((encodingFirst.ctx 2).held.map (·.cmd) ++ [encWord]).flatMap fun v =>
        encodingFirst.rowAddrs (fieldAt v 8 0 24) (srcRows (encodingFirst.ctx 2).openWord v)) = none :=
  ⟨by decide +kernel, by decide +kernel, settled_of (by decide +kernel), by decide +kernel, by decide +kernel⟩
theorem test_codecOpen : gives (.codecOpen 4) (runs 228 128 cdOpenWord) (fun t => decide ((t.ctx 2).st = .open_ ∧ (t.ctx 2).needRap = true
    ∧ (t.agent 228).signals.map (fun g => (g.gate, g.inc)) = [(9, 5)])) = true := by decide +kernel
theorem test_codecOpen_state : gives (.codecOpen 4) (context cdOpenWord true false .open_ (runs 228 128 cdOpenWord))
    (fun t => decide ((t.agent 228).fault.map (·.info.code) = some cCodecCtxState)) = true := by decide +kernel
theorem test_encFrame : gives (.encFrame 0) encStart (fun t => decide ((t.ctx 2).st = .active ∧ (t.agent 224).ip = codeAddr + 64)) = true := by decide +kernel
theorem test_encFrame_order : gives (.encFrame 0) (encStart.modCtx 2 fun x => { x with nextFrame := 1 })
    (fun t => decide ((t.agent 224).fault.map (·.info.code) = some cCodecFrameOrder)) = true := by decide +kernel
theorem test_decFrame : gives (.decFrame 4) decStart (fun t => decide ((t.ctx 2).st = .active)) = true := by decide +kernel
theorem test_codecClose : gives (.codecClose 4) closing (fun t => decide (t.ctx 2 = {})) = true := by decide +kernel
/-- A held frame reports TYPE 0 and emits nothing (R363). -/
theorem test_frameComplete : gives (.frameComplete 0) encoding (fun t => decide ((t.ctx 2).held.length = 1 ∧ (t.ctx 2).nextFrame = 1
    ∧ t.rdNat 0x400000 5 = 0)) = true := by decide +kernel

/-- Opening with a pool in object 5, which is not there; on an encode core, with reordering and a refresh period (R354). -/
def openPool : Nat := cdOpenWord + packed [(0x24, 0, 24, 5)]
def openQ : Nat := encOpenWord + packed [(0x13, 0, 8, 4)]
theorem witness_codecOpen_stops : (runs 228 128 openPool).codecStarts 4 cdOpen openPool ∧ ((runs 228 128 openPool).ctx (ctxOf openPool)).st = .free
    ∧ ((runs 228 128 openPool).pinFault [oPool openPool]).isSome = true
    ∧ (runs 224 128 openQ).codecStarts 0 cdOpen openQ ∧ decodes 0 = false ∧ (runs 224 128 openQ).openBad openQ = true
    ∧ (context cdOpenWord true false .open_ (runs 228 128 cdOpenWord)).codecStarts 4 cdOpen cdOpenWord
    ∧ ((context cdOpenWord true false .open_ (runs 228 128 cdOpenWord)).ctx 2).st ≠ .free := by
  refine ⟨codecStarts_of ?_, ?_, ?_, codecStarts_of ?_, ?_, ?_, codecStarts_of ?_, ?_⟩ <;> decide +kernel
theorem witness_codecClose_waits : (context cdOpenWord true false .active (runs 228 64 closeCtxWord)).codecStarts 4 cdClose closeCtxWord
    ∧ ((context cdOpenWord true false .active (runs 228 64 closeCtxWord)).ctx 2).decode = decodes 4
    ∧ (runs 228 64 closeCtxWord).codecStarts 4 cdClose closeCtxWord ∧ ((runs 228 64 closeCtxWord).ctx 2).st = .free := by
  refine ⟨codecStarts_of ?_, ?_, codecStarts_of ?_, ?_⟩ <;> decide +kernel
theorem test_codecClose_waits : gives (.codecClose 4) (context cdOpenWord true false .active (runs 228 64 closeCtxWord))
    (fun t => decide ((t.codecCore 4).waitSince.isSome = true ∧ (t.agent 228).ip = codeAddr)) = true := by decide +kernel
/-- Frame 0 where frame 1 is due; under Lean, another context is bound; 10-bit source of an 8-bit context. -/
def outOfOrder : State := encStart.modCtx 2 fun x => { x with nextFrame := 1 }
def leanFull : State := { (encStart.modCtx 3 fun x => { x with leanBound := true }) with power := { encStart.power with leanActive := true } }
def deepWord : Nat := encWord + packed [(1, 4, 2, 1)]
def deepStart : State := context encOpenWord false false .open_ (runs 224 64 deepWord)
theorem witness_frame_stops : outOfOrder.codecStarts 0 cdEnc encWord ∧ (ctxFault 0 (outOfOrder.ctx 2) encWord).isSome = true
    ∧ leanFull.codecStarts 0 cdEnc encWord ∧ leanFull.leanRefuses 2 = true ∧ ctxFault 0 (leanFull.ctx 2) encWord = none ∧ (leanFull.ctx 2).st ≠ .active
    ∧ deepStart.codecStarts 0 cdEnc deepWord ∧ (deepStart.encFault (deepStart.ctx 2) deepWord).isSome = true
    ∧ encStart.power.envelope + encStart.power.added + 59000 ≤ 28000000
    ∧ (full encStart).codecStarts 0 cdEnc encWord ∧ (full encStart).encFault (encStart.ctx 2) encWord = none
    ∧ 28000000 < (full encStart).power.envelope + (full encStart).power.added + 59000 := by
  refine ⟨codecStarts_of ?_, ?_, codecStarts_of ?_, ?_, ?_, ?_, codecStarts_of ?_, ?_, ?_, codecStarts_of ?_, ?_, ?_⟩ <;> decide +kernel
/-- A codec core that the Lean profile leaves unpowered (R407), and a command with a reserved bit. -/
def leanCore (s : State) : State := { s with power := { s.power with leanActive := true } }
theorem witness_codec_fields : (leanCore (runs 225 64 closeCtxWord)).codecReady 1 = true
    ∧ okIs ((leanCore (runs 225 64 closeCtxWord)).fetchCmd 225 cCodecFetch 64 cdBytes) closeCtxWord = true ∧ closeCtxWord % 256 = cdClose
    ∧ cdKnown 1 cdClose = true ∧ (leanCore (runs 225 64 closeCtxWord)).coreUnpowered 1 = true
    ∧ (runs 228 64 (closeCtxWord + 2 ^ 400)).codecReady 4 = true ∧ (runs 228 64 (closeCtxWord + 2 ^ 400)).coreUnpowered 4 = false
    ∧ okIs ((runs 228 64 (closeCtxWord + 2 ^ 400)).fetchCmd 228 cCodecFetch 64 cdBytes) (closeCtxWord + 2 ^ 400) = true
    ∧ (cdFault 4 cdClose (closeCtxWord + 2 ^ 400)).isSome = true := by decide +kernel
theorem test_frame_lean : gives (.encFrame 0) leanFull (fun t => decide ((t.agent 224).fault.map (·.info.code) = some cCodecProfile)) = true := by decide +kernel
theorem test_frame_held : gives (.encFrame 0) (full encStart) (fun t => decide ((t.ctx 2).st = .open_ ∧ t.power.capHold = true)) = true := by decide +kernel
/-- A poisoned source, and a decode core with no input and one that shows nothing. -/
def encPoisoned : State := { encodingFirst with mem := { encodingFirst.mem with poison := [0x200000 / 64] } }
def decoding : State := (decStart.modCtx 2 fun x => { x with st := .active }).modCodecCore 4 fun k => { k with cmd := some (decWord, 2) }
theorem witness_frame_ends : (encPoisoned.codecCore 0).cmd = some (encWord, ctxOf encWord) ∧ holds (encPoisoned.ctx 2) encWord = false
    ∧ (encPoisoned.rowsPoison (encPoisoned.rowAddrs 0 (srcRows (encPoisoned.ctx 2).openWord encWord))).isSome = true
    ∧ decodes 4 = true ∧ (decoding.codecCore 4).cmd = some (decWord, ctxOf decWord) ∧ decoding.agentsRun = true ∧ fieldAt decWord 0x20 0 32 = 0
    ∧ (decoding.ctx 2).shown = 0 ∧ (decoding.ctx 2).pictures = [] := by decide +kernel
theorem test_frameComplete_poison : gives (.frameComplete 0) encPoisoned (fun t => decide ((t.agent 224).fault.map (·.info.code) = some cMemPoison
    ∧ (t.ctx 2).nextFrame = 0 ∧ (t.ctx 2).st = .open_)) = true := by decide +kernel
theorem test_frameComplete_none : gives (.frameComplete 4) decoding (fun t => decide ((t.ctx 2).nextFrame = 1 ∧ (t.ctx 2).needRap = false)) = true := by
  decide +kernel

/-! ## Memory tiers (ch 02) -/

/-- Stack 3 is stopped at 94 °C. -/
def stopped3 : State := up.modStack 3 fun k => { k with stopped := true, overtemp := true, step := 3, temp := 94 }
/-- Stack 3 has 999 imbalanced samples. -/
def imbalanced3 : State := up.modStack 3 fun k => { k with unbalanced := 999 }
theorem witness_stackTemp : up.agentsRun = true ∧ (up.stack 3).stopped = false ∧ (up.stack 3).step < stepOf 105 ∧ up.recovery.dumpValid = false
    ∧ (up.stack 3).step < stepOf 100 ∧ stopped3.driverReachesFast = true ∧ (lowReg 0x400).hasLow = true ∧ (stopped3.stack 3).temp < 95 := by decide +kernel
theorem witness_imbalance : imbalanced 10000000 300000000 = true ∧ imbalanced 1 1000 = false ∧ (imbalanced3.stack 3).unbalanced = 999
    ∧ (imbalanced3.stack 3).armed = true := by decide +kernel
theorem witness_patrol : up.agentsRun = true ∧ 64 * 5 < stackTop ∧ (up.stack (stackOf (64 * 5))).stopped = false := by decide +kernel
/-- Object 5 is placed on stripe 0, and its promotion has ended. -/
def striped : State := { up with objects := { objs := [(5, object5 true .absent 0)] } }
theorem witness_stripe : up.badChunks 7 [] = [] ∧ (up.badChunks 7 [1, 2]).length = 2 ∧ 2 < (striped.badChunks 0 [1, 2, 3]).length
    ∧ 0 ∉ striped.mem.lostStripes ∧ (∀ m i, striped.promoterOf i ≠ some m) ∧ 5 ∉ up.mem.iceFailed := by
  refine ⟨by decide +kernel, by decide +kernel, by decide +kernel, by decide +kernel, ?_, by decide +kernel⟩
  intro m i
  have h : striped.movers = [] := rfl
  simp [State.promoterOf, State.mover, mapGet, mapFind, h, List.findSome?_eq_some_iff]
theorem test_stackTempReport : gives (.stackTempReport 3 105) up (fun t => decide ((t.stack 3).stopped = true ∧ (t.stack 2).stopped = false)) = true := by decide +kernel
theorem test_overtempStop : gives (.overtempStop 3 (lowReg 0x400)) stopped3 (fun t => decide ((t.stack 3).stopped = false ∧ (t.stack 3).step = 0)) = true := by
  decide +kernel
theorem test_imbalanceSample : gives (.imbalanceSample 3 5 10000000 300000000 77) imbalanced3 (fun t => decide ((t.stack 3).imbalance = true ∧ (t.stack 3).hotChannel = 389
    ∧ (t.stack 3).hotBlock = 77)) = true := by decide +kernel
theorem test_patrolScrub : gives (.patrolScrub 5 .uncorrectable) up (fun t => decide (t.mem.poison = [5])) = true := by decide +kernel
theorem test_iceStripeRead : gives (.iceStripeRead 0 [1, 2, 3]) striped (fun t => decide (t.mem.lostStripes = [0] ∧ (t.obj 5).damaged = true)) = true := by
  decide +kernel
theorem test_iceChannelFailed : gives (.iceChannelFailed 5) up (fun t => decide (t.mem.iceFailed = [5])) = true := by decide +kernel

/-- Stack 3 at step 2, and ready to take one step back; the dump slot full, with an event that reaches the limit. -/
def cooling : State := up.modStack 3 fun k => { k with step := 1, coolReports := 9 }
def dumpFull : State := recovering { dumpValid := true, limit := 1 }
theorem witness_stack_steps : (cooling.stack 3).stopped = false ∧ (cooling.stack 3).step < 3 ∧ stepOf 80 ≤ (cooling.stack 3).step ∧ 0 < (cooling.stack 3).step
    ∧ 80 + 3 < stepThreshold (cooling.stack 3).step ∧ ¬ (cooling.stack 3).coolReports + 1 < 10 ∧ (cooling.stack 3).step < stepOf 104
    ∧ dumpFull.agentsRun = true ∧ dumpFull.recovery.dumpValid = true ∧ dumpFull.stampEvent.atLimit = true ∧ (dumpFull.stack 3).stopped = false
    ∧ stopped3.driverReachesFast = true ∧ (stopped3.stack 3).stopped = true ∧ up.stampEvent.atLimit = false := by decide +kernel
theorem test_stackTemp_cools : gives (.stackTempReport 3 80) cooling (fun t => decide ((t.stack 3).step = 0 ∧ (t.stack 3).coolReports = 0)) = true := by decide +kernel
theorem witness_scrub_stopped : hotLine.agentsRun = true ∧ (hotLine.stack (stackOf (64 * 0x1000))).stopped = true ∧ 64 * 0x1000 < stackTop := by decide +kernel
/-- Mover 0 promotes object 5, on stripe 0; and the stripe was lost before. -/
def promotes5 : State := { striped with objects := { objs := [(5, object5 true .promoting 1)] } }.modMover 0 fun x => { x with cmd := some (.promote codeAddr { agent := 208, handle := 5, status := 0x60000, signal := none } 5) }
def lostBefore : State := { striped with mem := { striped.mem with lostStripes := [0], iceFailed := [9] } }
theorem witness_stripe_promoter : 5 ∈ promotes5.stripeObjects 0 ∧ promotes5.promoterOf 5 = some (0, codeAddr) ∧ 0 ∉ promotes5.mem.lostStripes
    ∧ 2 < (promotes5.badChunks 0 [1, 2, 3]).length ∧ 0 ∈ lostBefore.mem.lostStripes ∧ 2 < (lostBefore.badChunks 0 [1, 2, 3]).length
    ∧ 9 ∈ lostBefore.mem.iceFailed := by decide +kernel
theorem test_stripe_promoter : gives (.iceStripeRead 0 [1, 2, 3]) promotes5 (fun t => decide ((t.obj 5).st = ObjState.absent ∧ (t.obj 5).damaged = true
    ∧ (t.mover 0).cmd = none ∧ (t.agent 208).prog = .faulted)) = true := by decide +kernel

/-! ## Ports and the link (ch 12) -/

/-- A header that names this module, node 7, and comes from node 9 (Table 12-4). -/
def hdr (w1 w2 : Nat) : Hdr :=
  { kind := 0, directed := false, host := false, hostPort := false, hops := 31, dst := 7, src := 9, tag := 0x44, w1 := w1, w2 := w2, w3 := 0 }
/-- Node 7, with port 1 up and the route of node 9 on it. -/
def joined : State :=
  let s := up.modPort 1 fun q => { q with st := .up, gen := 2, credits := [9, 9, 9, 9] }
  { s with link := { s.link with nodeValid := true, nodeId := 7, routes := [(9, { port := 1, valid := true })] } }
/-- Port 1 trains. -/
def training : State := up.modPort 1 fun q => { q with st := .training, limit := 3 }
/-- The same after two failed attempts at generation 3. -/
def thirdTry : State := up.modPort 1 fun q => { q with st := .training, limit := 3, tryGen := 3, fails := 2 }
/-- Port 1 failed to train at 0. -/
def untrained : State := { up with sundial := 3999999999 }.modPort 1 fun q => { q with fails := 3 }
theorem witness_partnerDetection : up.portPowered 1 = true ∧ (up.port 1).st = .down := by decide +kernel
theorem witness_trainRetry : untrained.portPowered 1 = true ∧ untrained.sundial.toNat ≤ (4000000000#64).toNat ∧ (untrained.port 1).st = .down
    ∧ 0 < (untrained.port 1).fails ∧ 4000000000 ≤ (4000000000#64).toNat - (untrained.port 1).downSince.toNat := by decide +kernel
theorem witness_training : training.portPowered 1 = true ∧ (training.port 1).st = .training ∧ (training.port 1).tryGen = 0 ∧ (training.port 1).fails < 2
    ∧ highest ((portGens 1).filter fun g => [2, 3].contains g && decide (g ≤ (training.port 1).limit))
      ∈ (portGens 1).filter fun g => [2, 3].contains g && decide (g ≤ (training.port 1).limit) := by decide +kernel
theorem witness_third_try : thirdTry.portPowered 1 = true ∧ (thirdTry.port 1).st = .training ∧ 2 ≤ (thirdTry.port 1).fails := by decide +kernel
theorem witness_portConfig : up.driverReaches = true ∧ (lowReg 0x30002).hasLow = true ∧ (up.port 1).st = .down ∧ (lowReg 0x30002).fld 0 2 ≠ 0
    ∧ (lowReg 0x30002).fld 0 2 ∈ portGens 1 := by decide +kernel
theorem witness_lossOfSignal : joined.alwaysOn = true ∧ (joined.port 1).st ≠ .down ∧ (joined.port 1).out = [] ∧ (∀ e ∈ joined.link.pending, e.2.port ≠ 1)
    ∧ ∀ m j, j ∈ (joined.mover m).jobs → j.port ≠ some 1 := by
  refine ⟨by decide +kernel, by decide +kernel, by decide +kernel, by decide +kernel, ?_⟩
  intro m j hj
  have h : joined.movers = [] := rfl
  simp [State.mover, h, mapGet, mapFind] at hj
theorem witness_neighbour : joined.linked 1 = true ∧ (joined.port 1).met = false ∧ joined.sundial.toNat ≤ (1000000#64).toNat
    ∧ 400000 ≤ (1000000#64).toNat - (joined.port 1).upSince.toNat := by decide +kernel
/-- A control flit with sequence number 0, no data, and a credit of 3 for class 1. -/
def ctrlFlit : List Byte :=
  let c := packed [(0xA, 0, 16, 3)]
  leBytes 256 (c + crc32c (leBytes 28 c ++ leBytes 224 0) * 2 ^ (8 * 0x1C))
theorem witness_train_sent : joined.linked 1 = true ∧ (joined.port 1).equalising = false := by decide +kernel
theorem witness_train_taken : ctrlFlit.length = 256 ∧ bits (leNat ctrlFlit) 0 8 = 0 ∧ fieldAt (leNat ctrlFlit) 0x18 0 32 = 0
    ∧ fieldAt (leNat ctrlFlit) 0x1C 0 32 = crc32c (ctrlFlit.take 0x1C ++ ctrlFlit.drop 0x20)
    ∧ half16 (leNat ctrlFlit) 2 = (joined.port 1).rxSeq := by decide +kernel
/-- Two units to or from 0x40000; gate 9 with increment 5. -/
def wrHdr : Hdr := hdr 0x40000 2
def gsigHdr : Hdr := hdr 9 5
def remoteOk : State := (joined.modGate 9 fun g => { g with remote := true }).wrNat 0x40000 128 0x1234
theorem witness_requests : joined.linked 1 = true ∧ joined.inService = true ∧ joined.link.nodeValid = true ∧ (hdr 0 0).directed = false
    ∧ (hdr 0 0).dst = joined.link.nodeId ∧ joined.routePort 9 = .ok 1 ∧ joined.targetAccess 0x40000 2 128 true = .ok 0x40000
    ∧ remoteOk.targetAccess 0x40000 2 128 false = .ok 0x40000 ∧ remoteOk.poisonIn 0x40000 128 = none ∧ bits 5 0 16 ≠ 0
    ∧ (remoteOk.gate 9).remote = true ∧ (joined.gate 9).remote = false := by
  refine ⟨?_, ?_, ?_, ?_, ?_, okIs_eq ?_, okIs_eq ?_, okIs_eq ?_, ?_, ?_, ?_, ?_⟩ <;> decide +kernel
/-- A WRITE of array 3 with tag 0x44 awaits its answer since 1,000 for 500 µs. -/
def sent : Pending :=
  { agent := 3, kind := tWrite, port := 1, node := 9, gate := 0, inc := 0, handle := 0, off := 0, len := 64, issued := 1000, sentAt := 1000,
    limit := 500, place := 0 }
def awaiting : State := { joined with link := { joined.link with pending := [(0x44, sent)] } }
theorem witness_responses : awaiting.linked 1 = true ∧ awaiting.recovery.oos = false ∧ awaiting.link.nodeValid = true
    ∧ mapFind 0x44 awaiting.link.pending = some sent ∧ mapRising awaiting.link.pending = true ∧ awaiting.link.waiting = []
    ∧ bits 0 16 16 = 0 ∧ awaiting.alwaysOn = true ∧ awaiting.sundial.toNat ≤ (3000000#64).toNat
    ∧ usTicks sent.limit ≤ (3000000#64).toNat - sent.sentAt.toNat ∧ ∀ r, (awaiting.port r).starved = none := by
  refine ⟨by decide +kernel, by decide +kernel, by decide +kernel, by decide +kernel, by decide +kernel, by decide +kernel, by decide,
    by decide +kernel, by decide +kernel, by decide +kernel, ?_⟩
  intro r
  have h : awaiting.link.ports = [(1, { st := .up, gen := 2, credits := [9, 9, 9, 9] })] := by decide +kernel
  by_cases e : r = 1 <;> simp [State.port, h, mapGet, mapFind, e, Ne.symm, portInitial]
/-- An agent has an entry. -/
def entered : State := up.modAgent 3 fun g => { g with pending := some (entryAt 3 5) }
theorem witness_driver_tables : up.driverReaches = true ∧ (lowReg 0x4007).hasLow = true ∧ entered.driverReaches = true ∧ entered.anyEntry = true
    ∧ up.anyEntry = false := by decide +kernel
def pinned : State := { up with objects := { objs := [(5, object5 true .absent 1)] } }
theorem witness_object_write : up.driverReachesFast = true
    ∧ ((up.obj 5).driverWord 0 (mergeHalf (bits (up.obj 5).word 0 64) (reg 1))).salt / 128 < 21 ∧ (up.obj 5).valid = false
    ∧ (pinned.obj 5).valid = true ∧ (pinned.obj 5).pins ≠ 0
    ∧ (pinned.obj 5).driverWord 0 (mergeHalf (bits (pinned.obj 5).word 0 64) (reg 0)) ≠ pinned.obj 5 := by decide +kernel
/-- Port 1 has sent its time 0x100 in a SYNC_REQ; PPS_IN is enabled and its last edge came at 1,000,000. -/
def syncing : State := { joined.modPort 1 fun q => { q with t1 := some 0x100 } with sun := { ppsEn := true, lastPps := some 1000000, ppsGood := 2, parent := 2 } }
theorem witness_sundial : syncing.linked 1 = true ∧ syncing.usable 1 = true ∧ (syncing.port 1).equalising = false ∧ (syncing.port 1).t1 = some 0x100
    ∧ 1 ≠ syncing.sun.parent ∧ syncing.alwaysOn = true ∧ syncing.sun.ppsEn = true ∧ syncing.sun.lastPps = some 1000000
    ∧ ppsOnTime 1000000 4001000000 = true ∧ ppsOnTime 1000000 4001005000 = false ∧ 2 ≤ syncing.sun.ppsGood
    ∧ 4000004000 < (4001004001#64).toNat - (1000000#64).toNat := by decide +kernel

theorem test_partnerDetection : gives (.partnerDetection 1) up (fun t => decide ((t.port 1).st = .training)) = true := by decide +kernel
theorem test_linkTrainRetry : gives (.linkTrainRetry 1 4000000000) untrained (fun t => decide ((t.port 1).st = .training ∧ (t.port 1).fails = 0)) = true := by
  decide +kernel
/-- What a port's lanes find: the partner's lane `f i` on lane `i`, some pairs inverted (R460). -/
def lanes (n : Nat) (f : Nat → Nat) : List LaneFinding := (List.range n).map fun i => { partner := some (f i), inverted := decide (i % 2 = 1) }
theorem test_trainingComplete : gives (.trainingComplete 1 (lanes 4 id) [2, 1] 1000000) training (fun t => decide ((t.port 1).st = .up ∧ (t.port 1).gen = 2)) = true := by
  decide +kernel
theorem test_trainingComplete_next : gives (.trainingComplete 1 [] [2, 3] 1000000) thirdTry
    (fun t => decide ((t.port 1).st = .training ∧ (t.port 1).tryGen = 2 ∧ (t.port 1).fails = 0)) = true := by decide +kernel
/-- Lanes in the reverse order train; a permutation that is neither does not (R460). -/
theorem test_trainingComplete_lanes : gives (.trainingComplete 1 (lanes 4 (3 - ·)) [2] 1000000) training (fun t => decide ((t.port 1).st = .up)) = true
    ∧ gives (.trainingComplete 1 (lanes 4 fun i => (i + 1) % 4) [2] 1000000) training (fun t => decide ((t.port 1).st = .training ∧ (t.port 1).fails = 1))
      = true := by decide +kernel
theorem test_linkPortConfig : gives (.linkPortConfig 1 (lowReg 0x30002)) up (fun t => decide ((t.port 1).maxGen = 2 ∧ (t.port 1).asymTrim = 3)) = true := by
  decide +kernel
theorem test_lossOfSignal : gives (.lossOfSignal 1) joined (fun t => decide ((t.port 1).st = .down ∧ (t.port 1).los = true)) = true := by decide +kernel
theorem test_neighbour : gives (.neighbour 1 (hdr 0x55 0x34009)) joined (fun t => decide ((t.port 1).pSerial = 0x55 ∧ (t.port 1).pNode = 9
    ∧ (t.port 1).pNodeValid = true ∧ (t.port 1).pPort = 3)) = true := by decide +kernel
theorem test_neighbourTimeout : gives (.neighbourTimeout 1 1000000) joined (fun t => decide ((t.port 1).met = true ∧ (t.port 1).pSerial = 0)) = true := by
  decide +kernel
theorem test_controlFlitTimer : gives (.controlFlitTimer 1 1000000) joined (fun t => decide ((t.port 1).txSeq = 1 ∧ (t.port 1).unacked.map (·.seq) = [0])) = true := by
  decide +kernel
theorem test_trainReceive : gives (.trainReceive 1 true 0 ctrlFlit [] 1000000) joined (fun t => decide ((t.port 1).rxSeq = 1
    ∧ (t.port 1).credits = [9, 12, 9, 9])) = true := by decide +kernel
theorem test_trainReceive_damaged : gives (.trainReceive 1 false 0 ctrlFlit [] 1000000) joined (fun t => decide ((t.port 1).nak = true ∧ (t.port 1).rxSeq = 0))
    = true := by decide +kernel
theorem test_write : gives (.write 1 wrHdr (leBytes 128 0x99)) joined (fun t => decide (t.rdNat 0x40000 8 = 0x99
    ∧ (t.port 1).out.map (fun x => (x.hdr.kind, x.hdr.dst, x.hdr.tag)) = [(tAck, 9, 0x44)])) = true := by decide +kernel
theorem test_readReq : gives (.readReq 1 wrHdr) remoteOk (fun t => decide ((t.port 1).out.map (fun x => (x.hdr.kind, x.data.head?.map (·.2)))
    = [(tReadResp, some 0x34)])) = true := by decide +kernel
theorem test_gsigTransaction : gives (.gsigTransaction 1 gsigHdr) remoteOk (fun t => decide ((t.gate 9).value = 5)) = true := by decide +kernel
theorem test_gsigTransaction_denied : gives (.gsigTransaction 1 gsigHdr) joined (fun t => decide ((t.gate 9).value = 0
    ∧ (t.port 1).out.map (fun x => (x.hdr.kind, x.hdr.w2)) = [(tNack, cGateRemoteDenied)])) = true := by decide +kernel
theorem test_exportTxn : gives (.exportTxn 1 (hdr 0 0) []) joined (fun t => decide ((t.port 1).discards = 1)) = true := by decide +kernel
theorem test_ack : gives (.ack 1 (hdr 0 0)) awaiting (fun t => decide (t.link.pending = [])) = true := by decide +kernel
theorem test_readResp : gives (.readResp 1 (hdr 0 0) []) awaiting (fun t => decide (t.link.pending = [])) = true := by decide +kernel
theorem test_nack : gives (.nack 1 (hdr 0 cObjStale)) awaiting (fun t => decide ((t.agent 3).boundary.map (·.code) = [cObjStale])) = true := by decide +kernel
theorem test_linkTimeout : gives (.linkTimeout 0x44 3000000) awaiting (fun t => decide ((t.agent 3).boundary.map (·.code) = [cLinkTimeout])) = true := by
  decide +kernel
theorem test_linkNodeId : gives (.linkNodeId (lowReg 0x4009)) up (fun t => decide (t.link.nodeId = 9 ∧ t.link.nodeValid = true)) = true := by decide +kernel
theorem test_routeEntryWrite : gives (.routeEntryWrite 9 0x13) up (fun t => decide (t.route 9 = { port := 3, valid := true })) = true := by decide +kernel
theorem test_objTableWrite : gives (.objTableWrite 5 0 (reg 1)) up (fun t => decide ((t.obj 5).valid = true)) = true := by decide +kernel
theorem test_objTableWrite_pinned : gives (.objTableWrite 5 0 (reg 0)) pinned (fun t => decide ((t.obj 5).valid = true ∧ t.objects.rejected = true
    ∧ t.objects.lastIndex = 5)) = true := by decide +kernel

/-- Port 1 is UP at generation 3, above the driver's new limit of 2. -/
def withPort (f : Port → Port) : State := joined.modPort 1 f
def fast : State := withPort fun q => { q with gen := 3 }
theorem witness_portConfig_anew : fast.driverReaches = true ∧ fast.linked 1 = true ∧ (lowReg 2).fld 0 2 = 2 ∧ 2 ∈ portGens 1 ∧ 2 < (fast.port 1).gen
    ∧ (lowReg 2).hasLow = true ∧ (fast.port 1).st ≠ .down := by decide +kernel
theorem test_portConfig_anew : gives (.linkPortConfig 1 (lowReg 2)) fast (fun t => decide ((t.port 1).st = .training ∧ (t.port 1).limit = 2)) = true := by
  decide +kernel
/-- Port 1 carries a WRITE of array 3, and mover 0's job. -/
def carrying : State := awaiting.modMover 0 fun x => { x with jobs := [{ job with port := some 1 }] }
theorem witness_port_falls : carrying.alwaysOn = true ∧ (carrying.port 1).st ≠ .down ∧ carrying.link.waiting = []
    ∧ (0x44, sent) ∈ carrying.link.pending ∧ sent.port = 1 ∧ mapFind 0x44 carrying.link.pending = some sent
    ∧ (carrying.mover 0).jobs.map (·.port) = [some 1] ∧ (joined.port 1).met = false
    ∧ 400000 ≤ (1400000#64).toNat - (joined.port 1).upSince.toNat := by decide +kernel
theorem test_port_falls : gives (.lossOfSignal 1) carrying (fun t => decide ((t.agent 3).boundary.map (·.code) = [cLinkLost]
    ∧ (t.mover 0).jobs = [] ∧ t.link.pending = [])) = true := by decide +kernel
/-- Port 1 re-equalises; has a train to send again; has a full replay buffer; and the same data in flight. -/
def equal : State := withPort fun q => { q with equalising := true }
def again : State := withPort fun q => { q with resend := [{ seq := 4, bytes := [1, 2, 3] }], unacked := [{ seq := 4, bytes := [1, 2, 3] }] }
theorem witness_trains : equal.linked 1 = true ∧ (equal.port 1).equalising = true ∧ again.linked 1 = true ∧ (again.port 1).equalising = false
    ∧ (again.port 1).resend = [{ seq := 4, bytes := [1, 2, 3] }]
    ∧ ¬ (1000000#64).toNat < ((withPort fun q => { q with windowStart := 0, upSince := 0 }).port 1).windowStart.toNat ∧ ctrlFlit.length ≠ 0 := by decide +kernel
theorem test_train_again : gives (.controlFlitTimer 1 1000000) again (fun t => decide ((t.port 1).sent = [1, 2, 3] ∧ (t.port 1).replays = 1
    ∧ (t.port 1).txSeq = (again.port 1).txSeq)) = true := by decide +kernel
/-- R373: 2 MiB of trains wait for their acknowledgement. -/
def heavy (b : List Byte) : Port := { st := .up, gen := 2, unacked := [{ seq := 4, bytes := b }] }
def crowded (b : List Byte) : State := { joined with link := { joined.link with ports := [(1, heavy b)] } }
theorem heavy_heldBytes (b : List Byte) : (heavy b).heldBytes = b.length := by simp [heavy, Port.heldBytes]
theorem witness_replay_full : ∃ b, ((crowded b).port 1).equalising = false ∧ ((crowded b).port 1).resend = [] ∧ (crowded b).linked 1 = true
    ∧ replayBytes < ((crowded b).port 1).heldBytes + 256 := by
  obtain ⟨b, h⟩ : ∃ b : List Byte, b.length = replayBytes := ⟨_, List.length_replicate (a := 0)⟩
  refine ⟨b, rfl, rfl, rfl, ?_⟩
  have e : (crowded b).port 1 = heavy b := rfl
  rw [e, heavy_heldBytes, h]
  decide
/-- Out of service; a request for node 9 from node 7's host port; one that no hop is left for. -/
def outOf : State := { joined with recovery := { joined.recovery with oos := true } }
def far (hops : Nat) : Hdr := { hdr 0x40000 2 with dst := 9, hops := hops }
def noId : State := { joined with link := { joined.link with nodeValid := false } }
theorem witness_requests_refused : outOf.serviceRefuses 1 { wrHdr with kind := tWrite } = true ∧ joined.serviceRefuses 1 { wrHdr with kind := tWrite } = false
    ∧ noId.linked 1 = true ∧ noId.link.nodeValid = false ∧ (far 0).hops = 0 ∧ (far 3).hops ≠ 0 ∧ (far 3).dst ≠ joined.link.nodeId := by
  decide +kernel
theorem witness_requests_routed : joined.routePort (far 3).dst = .ok 1 ∧ joined.routePort 8 = .error cRouteNone := by
  refine ⟨okIs_eq ?_, ?_⟩
  · decide +kernel
  · rfl
theorem test_request_forwarded : gives (.write 1 (far 3) []) joined (fun t => decide ((t.port 1).out.map (fun x => (x.hdr.hops, x.hdr.dst)) = [(2, 9)])) = true := by
  decide +kernel
theorem test_request_ttl : gives (.write 1 (far 0) []) joined (fun t => decide ((t.port 1).out.map (fun x => (x.hdr.kind, x.hdr.w2)) = [(tNack, cRouteTtl)])) = true := by
  decide +kernel
/-- Directed requests by path: to a register of the mailbox, delivered here; through port 2, which is DOWN; through port 1; and to
a port the module does not have. A host port's request; a full session command port. -/
def boxed (hops len path : Nat) : Hdr :=
  { hdr 0xFF0000100010 0x801 with directed := true, hops := hops, w3 := path + len * 2 ^ 60 }
def hostUp : State := joined.modPort 12 fun q => { q with st := .up, gen := 2, credits := [9, 9, 9, 9] }
def sessionHdr : Hdr := hdr sessionPortAddr 0x4001
def hostFull : State := { hostUp with sessions := { hostUp.sessions with port := List.replicate 64 5 } }
theorem witness_directed : (boxed 31 0 0).hops + pathLength (boxed 31 0 0) ≤ 31 ∧ 31 < (boxed 31 1 2).hops + pathLength (boxed 31 1 2)
    ∧ pathPort (boxed 31 1 2) = 2 ∧ joined.linked 2 = false ∧ pathPort (boxed 31 1 1) = 1 ∧ 14 ≤ pathPort (boxed 31 1 15)
    ∧ joined.controlRefused true false 0xFF0000100010 1 8 = none ∧ (joined.controlReadEffect 0xFF0000100010 8).linked 1 = true
    ∧ (joined.controlRefused true false 0xFF0000000000 1 8).isSome = true := by decide +kernel
theorem witness_host_request : hostUp.linked 12 = true ∧ hostUp.inService = true ∧ regionOf sessionPortAddr = .control
    ∧ hostUp.controlRefused false true sessionPortAddr 1 64 = none ∧ hostUp.sessions.port.length < 64 ∧ hostUp.agentsRun = true
    ∧ 64 ≤ hostFull.sessions.port.length ∧ hostFull.sessions.waiting = [] ∧ hostUp.controlRefused false true 0xFF00000A0000 1 8 = none
    ∧ (hostUp.controlWrite 0xFF00000A0000 8 []).linked 12 = true := by decide +kernel
theorem test_directed_read : gives (.readReq 1 (boxed 31 0 0)) joined (fun t => decide ((t.port 1).out.map (·.hdr.kind) = [tReadResp])) = true := by decide +kernel
theorem test_directed_on : gives (.readReq 1 (boxed 31 1 1)) joined (fun t => decide ((t.port 1).out.map (·.hdr.hops) = [30]
    ∧ (t.port 1).ingress = [(pathKey (boxed 31 1 1) 9, 1)])) = true := by decide +kernel
theorem test_session_waits : gives (.write 12 sessionHdr (leBytes 64 7)) hostFull (fun t => decide (t.sessions.waiting.length = 1
    ∧ (t.port 12).out = [])) = true := by decide +kernel
theorem test_gsigTransaction_zero : gives (.gsigTransaction 1 (hdr 9 0)) remoteOk (fun t => decide ((t.gate 9).value = 0
    ∧ (t.port 1).out.map (fun x => (x.hdr.kind, x.hdr.w2)) = [(tNack, cGateOperand)])) = true := by decide +kernel
/-- Responses: to a directed request that port 2 brought, to node 9's, to a host's, and to no tag; a port without class-2 credit. -/
def cameBy : State := withPort fun q => { q with ingress := [([1, 2], 3), (pathKey (boxed 31 0 0) 9, 2)] }
def starving : State := (withPort fun q => { q with starved := some (1000, 500) }).modMover 0 fun x => { x with jobs := [{ job with port := some 1 }] }
theorem witness_responses_other : (cameBy.port 1).ingress.find? (fun e => decide (e.1 = pathKey (boxed 31 0 0) 9)) = some (pathKey (boxed 31 0 0) 9, 2) ∧ cameBy.linked 1 = true
    ∧ (joined.port 1).ingress.find? (fun e => decide (e.1 = pathKey (boxed 31 0 0) 9)) = none ∧ outOf.linked 1 = true ∧ outOf.recovery.oos = true
    ∧ { hdr 0 0 with host := true }.host = true ∧ hostUp.linked (12 + ({ hdr 0 0 with host := true } : Hdr).hostPort.toNat) = true
    ∧ joined.linked (12 + ({ hdr 0 0 with host := true } : Hdr).hostPort.toNat) = false ∧ mapFind 0x44 joined.link.pending = none
    ∧ (starving.port 1).starved = some (1000, 500) ∧ usTicks 500 ≤ (9000000000#64).toNat - (1000#64).toNat := by decide +kernel
theorem test_response_relayed : gives (.ack 1 { hdr 0 0 with host := true }) hostUp (fun t => decide ((t.port 12).out.map (·.hdr.kind) = [tAck])) = true := by
  decide +kernel
theorem test_linkTimeout_starved : gives (.linkTimeout 0 9000000000) starving (fun t => decide ((t.port 1).starved = none ∧ (t.mover 0).jobs = [])) = true := by
  decide +kernel
/-- Array 3 has a signal queued for gate 8 of node 9 (R46). -/
def remoteSignal : Signal := { gate := 8, inc := 3, release := false, node := some 9, place := 0, issued := 0 }
def signalling : State := joined.modAgent 3 fun g => { g with signals := [remoteSignal] }
theorem witness_remote_signal : signalling.agentsRun = true ∧ (signalling.agent 3).signals[0]? = some remoteSignal ∧ signalling.link.nodeValid = true
    ∧ 9 ≠ signalling.link.nodeId ∧ signalling.signalReady 3 remoteSignal = true ∧ signalling.mustWait 9 = false
    ∧ okIs (signalling.routePort 9) 1 = true := by decide +kernel
theorem test_remote_signal : gives (.signalApply 3 0) signalling (fun t => decide ((t.agent 3).signals = []
    ∧ (t.port 1).out.map (fun x => (x.hdr.kind, x.hdr.dst, x.hdr.w1, x.hdr.w2)) = [(tGsig, 9, 8, 3)] ∧ t.link.pending.length = 1)) = true := by decide +kernel
/-- Mover 0's job for node 9, not begun; under way on port 1; for a node with no route; held by a change of its route; of an object
that is not there. -/
def exportsTo (j : ExportJob) : State := joined.modMover 0 fun x => { x with cmd := some (.xserve codeAddr 2 900000 25), jobs := [j] }
def job9 : ExportJob := { job with node := 9 }
def holding : State := { exportsTo job9 with link := { joined.link with holds := [(9, [1])] } }
def jobLost : ExportJob := { job9 with snap := { cache := 5, slotBytes := 128 } }
theorem witness_export_ports : (exportsTo job9).frameRefused job9 = none ∧ okIs ((exportsTo job9).jobPort job9) (some 1) = true
    ∧ (exportsTo job9).jobHeld job9 = false ∧ (match (exportsTo { job with node := 8 }).jobPort { job with node := 8 } with
      | .error c => decide (c = cRouteNone)
      | .ok _ => false) = true
    ∧ holding.jobHeld job9 = true ∧ ((exportsTo jobLost).frameRefused jobLost).isSome = true ∧ (exportsTo job9).agentsRun = true := by decide +kernel
/-- The frame's last part leaves: its job goes on to the next one. -/
def leaving : State := exportsTo { job9 with under := true, port := some 1 }
theorem witness_export_leaves : leaving.linked 1 = true ∧ (leaving.port 1).resend = [] ∧ (leaving.port 1).out = [] ∧ (leaving.port 1).equalising = false
    ∧ ((({ leaving with sundial := 1000000 } : State).rollWindow 1).port 1).heldBytes
      + ((({ leaving with sundial := 1000000 } : State).rollWindow 1).trainBytes ((({ leaving with sundial := 1000000 } : State).rollWindow 1).port 1)
          ((({ leaving with sundial := 1000000 } : State).rollWindow 1).port 1).train).length ≤ replayBytes := by decide +kernel
theorem test_export_begins : gives (.exportFrame 0) (exportsTo job9) (fun t => decide ((t.mover 0).jobs.map (fun j => (j.under, j.sent)) = [(true, 0)]
    ∧ ((t.port 1).out.map (·.hdr.kind)).eraseDups = [tExport])) = true := by decide +kernel
theorem test_export_leaves : gives (.controlFlitTimer 1 1000000) leaving (fun t => decide ((t.mover 0).jobs.map (fun j => (j.under, j.sent)) = [(false, 1)])) = true := by
  decide +kernel

/-! ## The Sundial (ch 12) -/

theorem test_syncReq : gives (.syncReq 1 (hdr 0x55 0x23) 0x200 0x300) joined (fun t => decide ((t.port 1).adv.map (fun a => (a.serial, a.distance, a.locked))
    = some (0x55, 3, true) ∧ (t.port 1).out.map (fun x => (x.hdr.w1, x.hdr.w2)) = [(0x200, 0x300)])) = true := by decide +kernel
/-- t1 = 0x100, t2 = 0x120, t3 = 0x130, t4 = 0x140: the delay is ((t4 − t1) − (t3 − t2)) / 2 in units of 1/16 tick. -/
theorem test_syncResp : gives (.syncResp 1 (hdr 0x120 0x130) 0x140) syncing (fun t => decide ((t.port 1).pathDelay = syncDelay 0x100 0x120 0x130 0x140
    ∧ (t.port 1).t1 = none)) = true := by decide +kernel
theorem test_syncPeriod : gives (.syncPeriod 1 0x200 false) joined (fun t => decide ((t.port 1).t1 = some 0x200 ∧ (t.port 1).out.map (·.hdr.kind) = [tSyncReq])) = true := by
  decide +kernel
theorem test_ppsEdge : gives (.ppsEdge 4001000000) syncing (fun t => decide (t.sun.ppsValid = true ∧ t.sun.lastPps = some 4001000000)) = true := by decide +kernel
theorem test_ppsEdgeLoss : gives (.ppsEdgeLoss 4001004001) syncing (fun t => decide (t.sun.ppsValid = false ∧ t.sun.lastPps = none)) = true := by decide +kernel

/-- A LOCKED module takes its time from port 1, whose partner advertises; a window open at both ends. -/
def following : State :=
  { joined.modPort 1 fun q => { q with t1 := some 0x100, adv := some { serial := 1, distance := 0, locked := true, pps := false, age := 3 } } with
    sun := { st := .locked, parent := 1, best := some 1 } }
def bothWindows : State := { joined.modPort 1 fun q => { q with pWindow := true } with power := { joined.power with inWindow := true } }
theorem witness_sundial_more : equal.linked 1 = true ∧ (equal.port 1).equalising = true ∧ up.linked 1 = false ∧ following.usable 1 = true
    ∧ (following.port 1).t1 = some 0x100 ∧ following.sun.parent = 1 ∧ following.sun.best.isSome = true ∧ (following.port 1).adv.isSome = true
    ∧ following.sun.st = .locked ∧ (following.port 1).equalising = false ∧ bothWindows.power.inWindow = true ∧ bothWindows.usable 1 = true
    ∧ (bothWindows.port 1).pWindow = true ∧ bothWindows.alwaysOn = true ∧ ¬ (3 + 1 < 4) := by decide +kernel
theorem test_sync_steers : gives (.syncResp 1 (hdr 0x120 0x130) 0x140) following (fun t => decide ((t.port 1).t1 = none ∧ t.syncError.2 ≠ 0
    ∧ t.sun.slew = 625 * max (-1280) (min 1280 (t.syncError.1.tdiv (2 * t.syncError.2))))) = true := by decide +kernel
theorem test_sync_equalises : gives (.syncPeriod 1 0x200 true) bothWindows (fun t => decide ((t.port 1).equalising = true ∧ (t.port 1).out = [])) = true := by
  decide +kernel
theorem test_sync_alone : gives (.syncPeriod 1 0x200 true) { joined with power := { joined.power with inWindow := true } }
    (fun t => decide ((t.port 1).equalising = false)) = true := by decide +kernel

/-! ## Power (ch 13) -/

theorem witness_profile : up.driverReaches = true ∧ (reg 1).half = .both ∧ up.anyEntry = false
    ∧ (up.modAgent 3 fun g => { g with pending := some (entryAt 3 5) }).anyEntry = true
    ∧ (up.modAgent 3 fun g => { g with pending := some (entryAt 3 5) }).driverReaches = true := by decide +kernel
theorem witness_profileChange : (powered { lean := true }).alwaysOn = true ∧ (powered { lean := true }).power.lean ≠ (powered { lean := true }).power.leanActive := by
  decide +kernel
theorem witness_mowStart : up.power.mowEn = true ∧ up.power.inWindow = false ∧ up.power.mowPhase.toNat ≤ (40000000#64).toNat ∧ up.power.lastWindow = none
    ∧ up.sundial.toNat ≤ (40000000#64).toNat
    ∧ (40000000#64).toNat < up.power.windowAt (40000000#64).toNat + 4000 * up.power.mowLength := by decide +kernel
theorem witness_mowEnd : (powered { inWindow := true, windowEnd := 1000000 }).power.inWindow = true
    ∧ (powered { inWindow := true, windowEnd := 1000000 }).power.windowEnd.toNat ≤ (1000000#64).toNat := by decide +kernel
theorem witness_mowForced : (powered { lastWindow := some 1000000 }).power.inWindow = false ∧ (powered { lastWindow := some 1000000 }).alwaysOn = true
    ∧ 800000000 ≤ (801000000#64).toNat - (1000000#64).toNat := by decide +kernel
theorem witness_envelope : up.alwaysOn = true ∧ up.agentsRun = true ∧ up.sundial.toNat ≤ (1000000#64).toNat
    ∧ (up.envelopeOf (List.replicate 8 0) 0) ≤ 24000000 ∧ meanPasses (1000000#64).toNat up.power.history = false := by decide +kernel
theorem witness_overload : (powered { overload := some 1000000 }).alwaysOn = true
    ∧ 400000 < (1400001#64).toNat - (1000000#64).toNat := by decide +kernel
theorem witness_input : up.power.sagRaised = false ∧ (powered { sagRaised := true }).power.sagRaised = true
    ∧ inputBand (powered { inputMv := 38000, sagSince := some 1000000 }).power.inputMv = inputBand 37000 ∧ inputBand 37000 ≠ 0
    ∧ bandLimit (inputBand 37000) < (5000001#64).toNat - (1000000#64).toNat := by decide +kernel
theorem witness_dieTemp : up.agentsRun = true ∧ 7 ∉ up.power.tripped ∧ up.recovery.dumpValid = false
    ∧ (powered { trip := [2], tripped := [2] }).driverReaches = true ∧ (lowReg 4).hasLow = true := by decide +kernel
theorem test_powerProfile : gives (.powerProfile (reg 1)) up (fun t => decide (t.power.lean = true ∧ t.power.leanActive = false)) = true := by decide +kernel
theorem test_profileChange : gives (.profileChange 1000000) (powered { lean := true }) (fun t => decide (t.power.leanActive = true)) = true := by decide +kernel
theorem test_mowConfig : gives (.mowConfig (reg 0x7D01E00)) up (fun t => decide (t.power.mowLength = 30 ∧ t.power.mowPeriod = 2000 ∧ t.power.mowEn = false)) = true := by
  decide +kernel
theorem test_mowPhase : gives (.mowPhase (reg 77)) up (fun t => decide (t.power.mowPhase = 77)) = true := by decide +kernel
theorem test_mowWindowStart : gives (.mowWindowStart 40000000) up (fun t => decide (t.power.inWindow = true ∧ t.power.windowEnd = 40080000)) = true := by
  decide +kernel
theorem test_mowWindowEnd : gives (.mowWindowEnd 1000000) (powered { inWindow := true, windowEnd := 1000000 }) (fun t => decide (t.power.inWindow = false)) = true := by
  decide +kernel
theorem test_mowForced : gives (.mowForced 801000000) (powered { lastWindow := some 1000000 }) (fun t => decide (t.power.inWindow = true ∧ t.power.forced = true
    ∧ t.power.lateness = 800000000)) = true := by decide +kernel
theorem test_envelopeSample : gives (.envelopeSample 1000000 (List.replicate 8 0) 0) up (fun t => decide (t.power.envelope = up.envelopeOf (List.replicate 8 0) 0)) = true := by
  decide +kernel
theorem test_inputPowerSample : gives (.inputPowerSample 3001 1400001) (powered { overload := some 1000000 }) (fun t => decide (t.pins.phase = .off)) = true := by
  decide +kernel
theorem test_inputSag : gives (.inputSag 39999 1000000) up (fun t => decide (t.power.sagFlag = true ∧ t.pins.phase = .on)) = true := by decide +kernel
theorem test_powerFail : gives (.powerFail 37000 5000001) (powered { inputMv := 38000, sagSince := some 1000000 })
    (fun t => decide (t.pins.phase = .off ∧ t.pins.pendingCause = 5)) = true := by decide +kernel
theorem test_dieTempReport : gives (.dieTempReport 2 110) up (fun t => decide (t.power.tripped = [2] ∧ (t.agent 48).fault.map (·.info.code) = some cDieOvertemp)) = true := by
  decide +kernel
theorem test_dieTrip : gives (.dieTrip (lowReg 4)) (powered { trip := [2], tripped := [2], temps := [(2, 94)] }) (fun t => decide (t.power.tripped = [])) = true := by
  decide +kernel

/-- A window began before this one was due. -/
def again2 : State := powered { lastWindow := some 900000 }
theorem witness_windows_more : again2.power.lastWindow = some 900000 ∧ (900000#64).toNat < again2.power.windowAt (40000000#64).toNat
    ∧ up.power.lastWindow = none ∧ 800000000 ≤ (801000000#64).toNat ∧ up.power.lean = up.power.leanActive ∧ up.alwaysOn = true := by decide +kernel
/-- The input's power has been too high since 1,000,000; 70 V; 62 V. -/
theorem witness_input_more : ¬ 3001 ≤ 3000 ∧ (powered { overload := some 1000000 }).power.overload.getD 1400000 = 1000000
    ∧ ¬ 400000 < (1400000#64).toNat - (1000000#64).toNat ∧ inputBand 62000 ≠ 0 ∧ 66000 < 70000 := by decide +kernel
theorem test_overload_within : gives (.inputPowerSample 3001 1400000) (powered { overload := some 1000000 }) (fun t => decide (t.pins.phase = .on
    ∧ t.power.overload = some 1000000)) = true := by decide +kernel
theorem test_inputSag_high : gives (.inputSag 70000 1000000) up (fun t => decide (t.pins.phase = .off ∧ t.pins.pendingCause = 5)) = true := by decide +kernel
theorem test_inputSag_band : gives (.inputSag 62000 1000000) up (fun t => decide (t.power.sagSince = some 1000000 ∧ t.pins.phase = .on)) = true := by decide +kernel
theorem test_die_hot : gives (.dieTempReport 2 105) up (fun t => decide (t.power.hot = [2] ∧ t.power.tripped = [])) = true := by decide +kernel
theorem test_die_memory : gives (.dieTempReport 9 110) up (fun t => decide (t.recovery.dumping.isSome = true ∧ t.power.tripped = [])) = true := by decide +kernel

/-! ## Resets and recovery (ch 14) -/

theorem witness_resets : up.agentsRun = true ∧ up.absorbs 1 3 = false ∧ up.absorbs 2 208 = false ∧ up.absorbs 3 224 = false ∧ up.absorbs 4 0 = false
    ∧ up.absorbs 5 1 = false ∧ up.absorbs 6 9 = false ∧ (recovering { resets := [{ domain := 1, target := 3 }] }).agentsRun = true
    ∧ (recovering { resets := [{ domain := 1, target := 3 }] }).absorbs 1 3 = true := by decide +kernel
/-- Array 3 has run without progress since 0. -/
def stuck : State := { runs 3 32 0 with sundial := 40000000 }
theorem witness_progressTimeout : stuck.agentsRun = true ∧ stuck.sundial.toNat ≤ (40000000#64).toNat ∧ (stuck.agent 3).prog = .running
    ∧ (stuck.agent 3).running.isSome = true ∧ stuck.watchPaused 3 = false
    ∧ 4000 * (stuck.agent 3).watchLimit ≤ (40000000#64).toNat - (stuck.agent 3).lastProgress.toNat ∧ (stuck.array 3).flights = [] := by decide +kernel
/-- Array 3, port 1 and channel 9 are in reset; array 3 holds a record. -/
def inReset : State :=
  let s := (recovering { resets := [{ domain := 1, target := 3 }, { domain := 5, target := 1 }, { domain := 6, target := 9 }] }).modAgent 3
    fun g => { g with prog := .resetting, fault := some (someRec 3) }
  { s with mem := { s.mem with retraining := [9] } }
theorem witness_resetComplete : inReset.alwaysOn = true ∧ inReset.recovery.dumping = none ∧ { domain := 1, target := 3 } ∈ inReset.recovery.resets
    ∧ { domain := 5, target := 1 } ∈ inReset.recovery.resets ∧ { domain := 6, target := 9 } ∈ inReset.recovery.resets
    ∧ (inReset.agent 3).clearWanted = false := by decide +kernel
def held3 : State := up.modAgent 3 fun g => { g with prog := .faulted, fault := some (someRec 3) }
theorem witness_faultClear : held3.driverReachesFast = true ∧ (lowReg 1).hasLow = true ∧ bit (lowReg 1).value.toNat 0 = true
    ∧ (held3.agent 3).fault.isSome = true ∧ (held3.agent 3).prog = .faulted ∧ isCore 3 = false
    ∧ inReset.driverReachesFast = true ∧ (inReset.agent 3).prog = .resetting ∧ (inReset.agent 3).fault.isSome = true := by decide +kernel
theorem witness_warmReset : up.inService = true ∧ up.warmResetting = false ∧ up.stampEvent.atLimit = false ∧ up.recovery.dumpValid = false
    ∧ (recovering { dumping := some (1, false) }).alwaysOn = true ∧ (recovering { dumping := some (1, false) }).recovery.dumping = some (1, false) := by
  decide +kernel
/-- The Gatehouse restarts, and its own image still has the digest recorded at the cold boot. -/
def gatehouseDown : State :=
  { up with gatehouse := { up.gatehouse with restarting := true, booted := [(1, { slotB := false, trial := false, digest := (fwFactory 1).a.digest })] } }
theorem witness_gatehouseRestart : up.inService = true ∧ up.gatehouse.restarting = false ∧ up.sundial.toNat ≤ (1000000#64).toNat
    ∧ ({ up with sundial := 1000000 } : State).stampEvent.atLimit = false := by decide +kernel
theorem witness_gatehouseRestart_ends : gatehouseDown.alwaysOn = true ∧ gatehouseDown.gatehouse.restarting = true ∧ gatehouseDown.imageChanged [1] = false := by
  refine ⟨by decide +kernel, by decide +kernel, ?_⟩
  simp [State.imageChanged, State.fwType, FwType.slot, gatehouseDown, up, State.reset, mapGet, mapFind]
theorem test_arrayReset : gives (.arrayReset 3 false) (runs 3 32 0) (fun t => decide ((t.agent 3).prog = .resetting ∧ (t.agent 3).running = none
    ∧ (t.agent 3).fault.map (·.info.code) = some cAgentReset)) = true := by decide +kernel
theorem test_moverReset : gives (.moverReset 0) ((runs 208 64 6).modMover 0 fun x => { x with cmd := some (.xserve codeAddr 1 900000 25) }) (fun t => decide ((t.mover 0).cmd = none ∧ (t.agent 208).prog = .resetting)) = true := by decide +kernel
theorem test_codecCoreReset : gives (.codecCoreReset 0) (runs 224 64 0) (fun t => decide ((t.agent 224).prog = .resetting)) = true := by decide +kernel
theorem test_hostCoreClusterReset : gives .hostCoreClusterReset (runs 192 4 0) (fun t => decide ((t.agent 192).prog = .resetting
    ∧ (t.agent 192).fault.map (·.info.code) = some cAgentReset)) = true := by decide +kernel
theorem test_portReset : gives (.portReset 1) (up.modPort 1 fun q => { q with st := .up }) (fun t => decide ((t.port 1).st = .down
    ∧ t.recovery.resets = [{ domain := 5, target := 1 }])) = true := by decide +kernel
theorem test_channelRetrain : gives (.channelRetrain 9) up (fun t => decide (t.mem.retraining = [9])) = true := by decide +kernel
theorem test_progressTimeout : gives (.progressTimeout 3 40000000) stuck (fun t => decide ((t.agent 3).prog = .resetting
    ∧ (t.agent 3).fault.map (fun r => (r.info.code, r.info.d0)) = some (cProgressTimeout, 10000))) = true := by decide +kernel
theorem test_resetComplete : gives (.resetComplete 1 3 true) inReset (fun t => decide ((t.agent 3).prog = .faulted ∧ t.recovery.resets.length = 2)) = true := by
  decide +kernel
theorem test_resetComplete_channel : gives (.resetComplete 6 9 true) inReset (fun t => decide (t.mem.retraining = [])) = true := by decide +kernel
theorem test_agentFaultClear : gives (.agentFaultClear 3 (lowReg 1)) held3 (fun t => decide ((t.agent 3).fault = none ∧ (t.agent 3).prog = .idle)) = true := by
  decide +kernel
theorem test_deviceWarmReset : gives (.deviceWarmReset 1 false) (runs 3 32 0) (fun t => decide ((t.agent 3).prog = .idle ∧ t.gatehouse.warms = 1
    ∧ t.recovery.resets = [{ domain := 7, target := 0 }])) = true := by decide +kernel
theorem test_deviceColdReset : gives (.deviceColdReset 2) up (fun t => decide (t.pins.phase = .off ∧ t.pins.pendingCause = 2 ∧ t.gatehouse.boots = 1)) = true := by
  decide +kernel
theorem test_dumpCaptureComplete : gives .dumpCaptureComplete (recovering { dumping := some (1, false) }) (fun t => decide (t.recovery.dumpValid = true
    ∧ t.recovery.dumpKib = 135168)) = true := by decide +kernel
theorem test_gatehouseRestart : gives (.gatehouseRestart 1000000) up (fun t => decide (t.gatehouse.restarting = true ∧ t.recovery.nextSeq = 1)) = true := by
  decide +kernel
theorem test_logMirror : gives (.logMirror 0) (next (.gatehouseRestart 1000000) up) (fun t => decide (t.recovery.log.map (·.mirrored) = [true])) = true := by
  decide +kernel

/-- Every reset of the table is in progress; core 1 runs when the cluster is reset. -/
def resetting : State :=
  recovering { resets := [{ domain := 2, target := 208 }, { domain := 3, target := 224 }, { domain := 4, target := 0 }, { domain := 5, target := 1 },
    { domain := 6, target := 9 }] }
def warmed : State := recovering { resets := [{ domain := 7, target := 0 }] }
theorem witness_resets_absorbed : resetting.agentsRun = true ∧ resetting.absorbs 2 208 = true ∧ resetting.absorbs 3 224 = true ∧ resetting.absorbs 4 0 = true
    ∧ resetting.absorbs 5 1 = true ∧ resetting.absorbs 6 9 = true ∧ resetting.alwaysOn = true ∧ resetting.recovery.dumping = none
    ∧ { domain := 4, target := 0 } ∈ resetting.recovery.resets ∧ { domain := 7, target := 0 } ∈ warmed.recovery.resets ∧ warmed.alwaysOn = true
    ∧ (mapFind 9 resetting.mem.retrainFails).getD 0 < 2 ∧ (∀ j, j < 16 → (resetting.agent (192 + j)).clearWanted = false) := by decide +kernel
/-- The images of the fast domains have not changed since the boot, and the core cluster's has. -/
def booted (l : List Nat) : State :=
  { resetting with gatehouse := { up.gatehouse with booted := l.map fun t => (t, { slotB := false, trial := false, digest := (fwFactory t).a.digest }) } }
def changed4 (l : List Nat) : State :=
  { resetting with gatehouse := { up.gatehouse with
      booted := l.map fun t => (t, { slotB := false, trial := false, digest := (fwFactory t).a.digest ++ [0] }) } }
theorem witness_images : (booted [2, 3, 4]).imageChanged [4] = false ∧ (booted [2, 3, 4]).imageChanged [2, 3, 4] = false
    ∧ (changed4 [4]).imageChanged [4] = true := by
  refine ⟨?_, ?_, ?_⟩ <;> simp [State.imageChanged, State.fwType, FwType.slot, booted, changed4, resetting, recovering, up, State.reset, mapGet, mapFind]
/-- Array 3's clear was asked for while it was reset; core 0 is faulted. -/
def wanted : State := inReset.modAgent 3 fun g => { g with clearWanted := true }
def coreFaulted : State := up.modAgent 192 fun g => { g with prog := .faulted, fault := some (someRec 192) }
theorem witness_clears : (wanted.agent 3).clearWanted = true ∧ isCore 3 = false ∧ { domain := 1, target := 3 } ∈ wanted.recovery.resets
    ∧ wanted.alwaysOn = true ∧ wanted.recovery.dumping = none ∧ coreFaulted.driverReachesFast = true ∧ (coreFaulted.agent 192).prog = .faulted
    ∧ (coreFaulted.agent 192).fault.isSome = true ∧ isCore 192 = true := by decide +kernel
theorem test_resetComplete_wanted : gives (.resetComplete 1 3 true) wanted (fun t => decide ((t.agent 3).prog = .idle ∧ (t.agent 3).fault = none)) = true := by
  decide +kernel
theorem test_resetComplete_again : gives (.resetComplete 6 9 false) inReset (fun t => decide (t.mem.retraining = [9])) = true := by decide +kernel
theorem test_clear_core : gives (.agentFaultClear 192 (lowReg 1)) coreFaulted (fun t => decide ((t.agent 192).fault = none ∧ (t.core 0).clearing = true)) = true := by
  decide +kernel

/-! ## The mailbox (ch 15, ch 17) -/

/-- Command `code` is in service with these argument bytes. -/
def asked (code args : Nat) (request : List (Nat × Byte)) (s : State) : State :=
  { s with gatehouse := { s.gatehouse with cmd := some { code := code, tag := 1, args := args }, request := request } }
/-- The command in service. -/
def inService (s : State) : MboxCmd := s.gatehouse.cmd.getD { code := 0, tag := 0, args := 0 }
/-- FW_STAGE of one byte at offset 5 of type 2. -/
def staging : State := asked 0x23 0x41 [(0, 2), (8, 5), (0xC, 1), (0x40, 0x77)] up
theorem witness_security : (asked 0x20 0 [] up).serves 0x20 ∧ (asked 0x21 0x32 [] up).serves 0x21 ∧ (asked 0x22 0x38 [(0, 9)] up).serves 0x22
    ∧ (asked 0x27 0x70 [] up).serves 0x27 :=
  ⟨serves_of { code := 0x20, tag := 1, args := 0 } (by decide +kernel), serves_of { code := 0x21, tag := 1, args := 0x32 } (by decide +kernel),
   serves_of { code := 0x22, tag := 1, args := 0x38 } (by decide +kernel), serves_of { code := 0x27, tag := 1, args := 0x70 } (by decide +kernel)⟩
/-- Slot B of type 2 waits for its trial boot. -/
def inTrial : State := staging.modFw 2 fun x => { x with trialB := some true }
theorem witness_fwStage : staging.serves 0x23 ∧ fwTypeOk (staging.gatehouse.arg 0 1) = true ∧ (staging.fwType 2).waiting = false
    ∧ 0 < staging.gatehouse.arg 0xC 4 ∧ staging.gatehouse.arg 0xC 4 ≤ 65536 ∧ staging.gatehouse.arg 8 4 + staging.gatehouse.arg 0xC 4 ≤ 256 + bodyLimit 2
    ∧ inTrial.serves 0x23 ∧ (inTrial.fwType 2).waiting = true := by
  refine ⟨serves_of (inService staging) ?_, ?_, ?_, ?_, ?_, ?_, serves_of (inService inTrial) ?_, ?_⟩ <;> decide +kernel
theorem witness_firmware : (asked 0x24 1 [(0, 2)] up).serves 0x24 ∧ ((asked 0x24 1 [(0, 2)] up).fwType 2).waiting = false ∧ (asked 0x25 1 [(0, 2)] up).serves 0x25
    ∧ (asked 0x26 1 [(0, 2)] up).serves 0x26 := by
  refine ⟨serves_of { code := 0x24, tag := 1, args := 1 } ?_, ?_, serves_of { code := 0x25, tag := 1, args := 1 } ?_,
    serves_of { code := 0x26, tag := 1, args := 1 } ?_⟩ <;> decide +kernel
def dumped : State := asked 0x10 8 [(0, 16), (4, 32)] { up with recovery := { dumpValid := true, dumpKib := 135168 } }
def outOfService : State := asked 0x11 0 [] { up with recovery := { oos := true, cycled := true, events := [5] } }
/-- Object 5, one stripe long, belongs to domain 0, which may hold 100 units; its image lies at 0x40000. -/
def provision : State :=
  asked 0x30 0x18 [(0, 5), (0xA, 4), (0x14, 1)]
    { up with objects := { objs := [(5, { object5 true .absent 0 with size := 262144 })], quotas := [(0, { iceLimit := 100 })] } }
theorem witness_dumpRead : dumped.serves 0x10 ∧ dumped.recovery.dumpValid = true ∧ 0 < dumped.gatehouse.arg 4 4 ∧ dumped.gatehouse.arg 4 4 ≤ 65536
    ∧ dumped.gatehouse.arg 0 4 + dumped.gatehouse.arg 4 4 ≤ dumped.recovery.dumpKib * 1024 := by
  refine ⟨serves_of (inService dumped) ?_, ?_, ?_, ?_, ?_⟩ <;> decide +kernel
theorem witness_serviceClear : outOfService.serves 0x11 ∧ outOfService.recovery.oos = true ∧ outOfService.recovery.cycled = true
    ∧ (asked 0x11 0 [] up).serves 0x11 ∧ (asked 0x11 0 [] up).recovery.oos = false := by
  refine ⟨serves_of (inService outOfService) ?_, ?_, ?_, serves_of { code := 0x11, tag := 1, args := 0 } ?_, ?_⟩ <;> decide +kernel
theorem witness_iceProvision : provision.serves 0x30 ∧ provision.iceObject = .ok 5 ∧ 0 < provision.gatehouse.arg 0x14 4
    ∧ provision.gatehouse.arg 0x10 4 + provision.gatehouse.arg 0x14 4 ≤ (provision.obj 5).stripes ∧ provision.gatehouse.arg 8 6 = 0x40000
    ∧ 0x40000 + 1 * 262144 ≤ stackTop ∧ provision.mem.wf = true ∧ (∀ j, j < 1 → provision.stoppedIn (0x40000 + j * 262144) 262144 = none)
    ∧ (provision.quota 0).iceUsed + 4 * (provision.obj 5).stripes ≤ (provision.quota 0).iceLimit := by
  refine ⟨serves_of (inService provision) ?_, okIs_eq ?_, ?_, ?_, ?_, ?_, ?_, ?_, ?_⟩ <;> decide +kernel
theorem witness_iceRelease : (asked 0x31 3 [(0, 5)] provision).serves 0x31 ∧ (asked 0x31 3 [(0, 5)] provision).iceObject = .ok 5 :=
  ⟨serves_of { code := 0x31, tag := 1, args := 3 } (by decide +kernel), okIs_eq (by decide +kernel)⟩
theorem witness_mboxOpcode : (asked 0x55 0 [] up).alwaysOn = true ∧ (asked 0x55 0 [] up).gatehouse.restarting = false
    ∧ (asked 0x55 0 [] up).gatehouse.cmd = some { code := 0x55, tag := 1, args := 0 } ∧ mbKnown.contains 0x55 = false := by decide +kernel

/-- The status and the bytes that a command answers. -/
def answers (c : Instr) (s : State) (status bytes : Nat) : Bool :=
  gives c s fun t => decide (t.gatehouse.status = status ∧ t.gatehouse.resultBytes = bytes ∧ t.gatehouse.cmd = none)
theorem test_partRead : answers .partRead (asked 0x20 0 [] up) mbDone 8192 = true := by decide +kernel
theorem test_quote_none : answers .quote (asked 0x21 0x32 [] { up with gatehouse := { up.gatehouse with identity := false } }) secNoIdentity 0 = true := by decide +kernel
theorem test_extend : answers .extend (asked 0x22 0x38 [(0, 9)] up) mbDone 0 = true := by decide +kernel
theorem test_extend_state : answers .extend (asked 0x22 0x38 [(0, 7)] up) secState 0 = true := by decide +kernel
theorem test_fwStage : gives .fwStage staging (fun t => decide (((t.fwType 2).slot true).byte 5 = 0x77 ∧ t.gatehouse.status = mbDone)) = true := by decide +kernel
theorem test_fwStage_busy : answers .fwStage inTrial secBusy 0 = true := by decide +kernel
/-- No magic number. -/
theorem test_fwVerify : answers .fwVerify (asked 0x24 1 [(0, 2)] (up.modFw 2 fun x => { x with b := { bytes := placed 0 (leBytes 256 0) } })) secFormat 0 = true := by
  decide +kernel
theorem test_fwActivate : answers .fwActivate (asked 0x25 1 [(0, 2)] up) secState 0 = true := by decide +kernel
theorem test_fwActivate_valid : gives .fwActivate (asked 0x25 1 [(0, 2)] (up.modFw 2 fun x => { x with b := { valid := true, svn := 3 } }))
    (fun t => decide ((t.fwType 2).trialB = some true ∧ t.gatehouse.status = mbDone)) = true := by decide +kernel
/-- Type 2 booted its slot B on trial. -/
def trialRuns : State :=
  let s := asked 0x26 1 [(0, 2)] (up.modFw 2 fun x => { x with b := { valid := true, svn := 3 }, trialB := some true, trialBooted := true })
  { s with gatehouse := { s.gatehouse with booted := [(2, { slotB := true, trial := true, digest := [] })] } }
theorem test_fwCommit : gives .fwCommit trialRuns (fun t => decide ((t.fwType 2).activeB = true ∧ (t.fwType 2).counter = 3
    ∧ (t.fwType 2).first = some { value := 3, seq := 3 } ∧ (t.fwType 2).second = some { value := 3, seq := 2 } ∧ t.inTrial = false)) = true := by decide +kernel
theorem test_fwCommit_none : answers .fwCommit (asked 0x26 1 [(0, 2)] up) secState 0 = true := by decide +kernel
theorem test_debugUnlock_args : answers .debugUnlock (asked 0x27 0x6F [] up) secFormat 0 = true := by decide +kernel
theorem test_dumpRead : answers .dumpRead dumped mbDone 32 = true := by decide +kernel
theorem test_serviceClear : gives .serviceClear outOfService (fun t => decide (t.recovery.oos = false ∧ t.recovery.events = [])) = true := by decide +kernel
theorem test_iceProvision : answers .iceProvision provision mbDone 8 = true := by decide +kernel
theorem test_iceProvision_object : answers .iceProvision (provision.modObj 5 fun o => { o with kind := false }) mbObject 0 = true := by decide +kernel
theorem test_iceRelease : gives .iceRelease (asked 0x31 3 [(0, 5)] { provision with mem := { charged := [(5, 0, 4)] } }) (fun t => decide (t.mem.charged = [])) = true := by
  decide +kernel
theorem test_mboxOpcode : answers .mboxOpcode (asked 0x55 0 [] up) mbOpcode 0 = true := by decide +kernel

/-! ## Connectors and sideband (ch 16) -/

/-- Power is good and boot has not begun. -/
def booting : State := { State.reset with pins := { phase := .on, pgood := true, mated := true } }
def sound : BootFinding := { partOk := true, pufOk := true, tags := [] }
theorem witness_powerUp : State.reset.pins.phase = .off ∧ State.reset.pins.resetLow = false
    ∧ ({ State.reset with pins := { phase := .slotDelay } } : State).pins.phase = .slotDelay
    ∧ ({ State.reset with pins := { phase := .softStart } } : State).pins.phase = .softStart := by decide +kernel
theorem witness_boot : booting.alwaysOn = true ∧ booting.gatehouse.stage = 0 ∧ booting.gatehouse.halted = false ∧ booting.recovery.oos = false
    ∧ booting.pins.pendingCause = 0 ∧ ∀ k, 1 ≤ k → k ≤ 4 → (booting.fwType k).choose.1.isSome = true := by
  refine ⟨by decide +kernel, by decide +kernel, by decide +kernel, by decide +kernel, by decide +kernel, fun k h1 h4 => ?_⟩
  obtain rfl | rfl | rfl | rfl : k = 1 ∨ k = 2 ∨ k = 3 ∨ k = 4 := by omega
  all_goals decide +kernel
theorem test_powerUp : gives (.powerUp 5 48000) State.reset (fun t => decide (t.pins.phase = .slotDelay ∧ t.pins.slotCode = 5)) = true := by decide +kernel
theorem test_softStart : gives .softStart { State.reset with pins := { phase := .slotDelay } } (fun t => decide (t.pins.phase = .softStart)) = true := by decide +kernel
theorem test_powerGood : gives .powerGood { State.reset with pins := { phase := .softStart } } (fun t => decide (t.pins.phase = .on ∧ t.pins.pgood = true
    ∧ t.gatehouse.boots = 1)) = true := by decide +kernel
theorem test_bootReady_part : gives (.bootReady { sound with partOk := false }) booting (fun t => decide (t.gatehouse.halted = true ∧ t.gatehouse.reason = 1
    ∧ t.pins.rails.contains .vio = true ∧ t.pins.rails.contains .vcore = false)) = true := by decide +kernel
theorem test_railGroupTimeout : gives (.railGroupTimeout 3) up (fun t => decide (t.pins.phase = .failed ∧ t.pins.pgood = false)) = true := by decide +kernel
theorem test_resetN : gives (.resetN 200) up (fun t => decide (t.pins.phase = .off ∧ t.pins.pendingCause = 2)) = true := by decide +kernel
theorem test_resetN_glitch : gives (.resetN 199) up (fun t => decide (t.pins.phase = .on)) = true := by decide +kernel
theorem test_mateNBreak : gives .mateNBreak up (fun t => decide (t.pins.phase = .off ∧ t.pins.mated = false)) = true := by decide +kernel
theorem test_jtagReset : gives .jtagReset { up with pins := { up.pins with tap := .pauseIr } } (fun t => decide (t.pins.tap = .testLogicReset)) = true := by decide +kernel
/-- Group 3 is not up and boot has been halted: nothing can fail there (R450). -/
theorem test_railGroup_off : gives (.railGroupTimeout 3)
    { up with gatehouse := { up.gatehouse with halted := true }, pins := { up.pins with rails := railOrder.take 1 } } (fun t => decide (t.pins.phase = .on)) = true := by
  decide +kernel
/-- The values of an SMBus answer before its error code. -/
def smb (c : Instr) (s : State) (l : List Nat) : Bool :=
  gives c s fun t => decide ((t.pins.smbReply.map fun r => (r.take (r.length - 1)).map (·.toNat)) = some l)
/-- POWERED, stage 7. -/
theorem test_status : smb .status up [0x0F] = true := by decide +kernel
theorem test_inputMv : smb .inputMv (powered { inputMv := 48000 }) [0x80, 0xBB] = true := by decide +kernel
theorem test_inputW : smb .inputW (powered { inputW := 2400 }) [0x60, 9] = true := by decide +kernel
theorem test_dieTempMax : smb .dieTempMax (powered { temps := [(3, 80), (9, 91)] }) [91] = true := by decide +kernel
theorem test_stackTempMax : smb .stackTempMax (up.modStack 3 fun k => { k with temp := 85 }) [85] = true := by decide +kernel
theorem test_slot : smb .slot { up with pins := { up.pins with slotCode := 33 } } [33] = true := by decide +kernel
theorem test_slot_early : gives .slot booting (fun t => decide (t.pins.smbReply = none)) = true := by decide +kernel
theorem test_serial : gives .serial up (fun t => decide (t.pins.smbReply.map (·.length) = some 10)) = true := by decide +kernel
theorem test_smbAlertResponse : smb .smbAlertResponse { up with gatehouse := { up.gatehouse with halted := true } } [0xD4] = true := by decide +kernel

/-! ## Registers (ch 17) -/

/-- The address of a register of a block. -/
def addrOf (b : Block) (off : Nat) : Nat := ((blockTable.find? fun e => decide (e.1 = b)).map fun e => e.2.1 + off).getD 0
theorem witness_registerWrite : up.driverReaches = true ∧ (reg 5).half = .both ∧ blockOf (addrOf .power 8) = some (.power, 8) ∧ addrOf .power 8 % 8 = 0
    ∧ blockOf (addrOf .recovery (8 * 229)) = some (.recovery, 8 * 229) ∧ blockOf (addrOf .gatehouse 0x10) = some (.gatehouse, 0x10)
    ∧ up.gatehouse.cmd = none ∧ up.gatehouse.restarting = false ∧ (asked 0x20 0 [] up).gatehouse.cmd.isSome = true ∧ blockOf 0 = none := by decide +kernel
/-- The host reads IDLE_HOLD on port 12. -/
def hosted : State :=
  let s := up.modPort 12 fun q => { q with st := .up, gen := 2 }
  { s with link := { s.link with nodeValid := true, nodeId := 7 } }
def readHdr : Hdr :=
  { kind := 1, directed := false, host := true, hostPort := false, hops := 31, dst := 7, src := 9, tag := 3, w1 := addrOf .power 8, w2 := 1 + 8 * 256, w3 := 0 }
theorem witness_registerRead : hosted.linked 12 = true ∧ hosted.recovery.oos = false ∧ hosted.link.nodeValid = true ∧ readHdr.directed = false
    ∧ readHdr.dst = hosted.link.nodeId ∧ readHdr.w2 = 1 + 8 * 256 ∧ readHdr.w1 % 8 = 0 ∧ regionOf readHdr.w1 = .control
    ∧ blockOf readHdr.w1 = some (.power, 8) ∧ hosted.blockReached .power = true ∧ ∀ x ∈ hosted.sessions.waiting, x.port ≠ 12 := by decide +kernel
theorem test_registerWrite : gives (.registerWrite (addrOf .power 8) (reg 5)) up (fun t => decide (t.power.idleHold = 5)) = true := by decide +kernel
theorem test_registerWrite_go : gives (.registerWrite (addrOf .gatehouse 0x10) (reg 0x20)) up (fun t => decide (t.gatehouse.cmd = some { code := 0x20, tag := 0, args := 0 })) = true := by
  decide +kernel
theorem test_register_read : gives (.readReq 12 readHdr) hosted (fun t => decide ((t.port 12).out.map (fun x => (x.hdr.kind, (x.data.take 8).map (·.2.toNat)))
    = [(tReadResp, [20, 0, 0, 0, 0, 0, 0, 0])])) = true := by decide +kernel

/-! ## Channels that hold their requests (R414, R426) -/

/-- Every channel of the stacks retrains. -/
def blocked (s : State) : State := { s with mem := { s.mem with retraining := List.range 1024 } }
theorem witness_held_start : publishing.recordHeld 0x4000 = false ∧ (blocked publishing).recordHeld 0x4000 = true
    ∧ dloadState.heldIn (dloadState.addrOf 0 0x20000) 128 = false
    ∧ tloading.heldIn (ls 0x7A1000) (4 * 2048) = false ∧ saving.heldIn 0x100000 (ctxBytes false) = false ∧ ctxLoads.heldIn 0x100000 (ctxBytes false) = false
    ∧ (commanded openWord up).heldIn 0x60000 8 = false ∧ (blocked up).heldIn 0x60000 8 = true ∧ (blocked up).heldIn (ls 0x7A1000) 8 = false := by
  decide +kernel
/-- The product's next rows with their operands in stack memory: the copy row, the compute row of kind 15 and the store row that
wait. -/
def stackMm : State := next (.mm 0) (array0 (abc 0x10) [tensor 7 [2, 2] 0x40000, tensor 7 [2, 2] 0x41000, tensor 8 [2, 2] 0x42000])
def stackMmComputed : State := next (.trellisRowComplete 0 .compute) (next (.trellisRowComplete 0 .copy) (next (.trellisRowComplete 0 .copy) stackMm))
def heldRow (s : State) (u : TUnit) (p : State → Flight → TRow → Bool) : Bool := match s.nextRow 0 u with
  | some (f, r) => p s f r
  | none => false
theorem witness_held_rows : heldRow stackMm .copy (fun s f r => !s.heldRuns (f.copyRuns r)) = true
    ∧ heldRow (blocked stackMm) .copy (fun s f r => s.heldRuns (f.copyRuns r)) = true
    ∧ heldRow stackMmComputed .store (fun s f r => !s.heldRuns ((s.tileBytes 0 f r).map fun e => (e.1, 1))) = true
    ∧ heldRow (blocked stackMmComputed) .store (fun s f r => s.heldRuns ((s.tileBytes 0 f r).map fun e => (e.1, 1))) = true
    ∧ heldRow mmCopied .compute (fun s f r => decide (0 < (s.lastWeights f r).cells.length)) = true := by decide +kernel
theorem test_held_row : gives (.trellisRowComplete 0 .copy) (blocked stackMm) (fun t => decide (t = blocked stackMm)) = true := by decide +kernel
/-- A sort and a copy of stack memory. -/
def stackSort : State := next (.sort 0) (array0 sortWord [tensor 8 [4] 0x40000, tensor 8 [4] 0x41000])
def stackCopy : State := next (.copy 0) (array0 (copyInsn 0) [tensor 8 [16] 0x40000, tensor 8 [16] 0x41000])
theorem witness_held_insns : flight1 stackSort (fun f => !stackSort.heldRuns (stackSort.readRuns f)) = true
    ∧ flight1 (blocked stackSort) (fun f => (blocked stackSort).heldRuns ((blocked stackSort).readRuns f)) = true
    ∧ flight1 stackCopy (fun f => !stackCopy.heldRuns f.copySpec.runs.1) = true
    ∧ flight1 (blocked stackCopy) (fun f => (blocked stackCopy).heldRuns f.copySpec.runs.1) = true := by decide +kernel
theorem witness_held_movers : copyRuns.moverHeld 0 = false ∧ (blocked copyRuns).moverHeld 0 = true ∧ zeroing.moverHeld 0 = false
    ∧ promoting.moverHeld 0 = false ∧ (blocked promoting).moverHeld 0 = true ∧ (blocked copyRuns).agentsRun = true
    ∧ exporting.pageHeld job = false ∧ copyRuns.copyRefused (copyWord 5 0x80) 0x40000 0x200080 = none := by decide +kernel
/-- A raw destination that has become read-only. -/
def sealedCopy : State := { moving (copyWord 0 0x50000) 0x50000 with mem := { (moving (copyWord 0 0x50000) 0x50000).mem with
  extents := [{ first := 5, count := 1, ro := true, salt := 0, object := 9 }] } }
theorem witness_copy_refused : sealedCopy.moverHeld 0 = false ∧ (sealedCopy.copyRefused (copyWord 0 0x50000) 0x40000 0x50000).isSome = true
    ∧ (moving (copyWord 0 0x50000) 0x50000).copyRefused (copyWord 0 0x50000) 0x40000 0x50000 = none
    ∧ ((moving (copyWord 0 0x50000) 0x50000).storeBytes ((moving (copyWord 0 0x50000) 0x50000).copyStores
        (mvCopySpec (copyWord 0 0x50000) 0x40000 0x50000))).all (fun e => decide (regionOf e.1 ≠ .control)) = true := by decide +kernel
theorem test_copy_refused : gives (.moverCopyComplete 0) sealedCopy (fun t => decide ((t.agent 208).fault.map (·.info.code) = some cObjReadOnly
    ∧ t.mem = sealedCopy.mem)) = true := by decide +kernel
theorem witness_held_frames : encoding.frameHeld 0 = false ∧ (blocked encoding).frameHeld 0 = true ∧ encoding.reportRefused encWord = none
    ∧ encodingFirst.outRefused encWord = none ∧ encodingFirst.frameHeld 0 = false ∧ decoding.frameHeld 4 = false
    ∧ decoding.reportRefused decWord = none ∧ decoding.markedInUse 4 0 = none
    ∧ ({ encoding with mem := { encoding.mem with extents := [{ first := 0x40, count := 1, ro := true, salt := 0, object := 9 }] } } : State).reportRefused
        encWord ≠ none
    ∧ ({ encodingFirst with mem := { encodingFirst.mem with extents := [{ first := 0x30, count := 1, ro := true, salt := 0, object := 9 }] } } : State).outRefused
        encWord ≠ none := by decide +kernel
theorem witness_held_cores : (dirty.fillHeld 0 0x40000 8) = false ∧ ((blocked coreUp).fillHeld 0 0x40000 8) = true ∧ (blocked coreUp).coreRuns 0 = true
    ∧ dirty.heldIn (64 * 0x1000) 64 = false ∧ (blocked dirty).heldIn (64 * 0x1000) 64 = true
    ∧ (((blocked dirty).dirtyAnywhere 0 0x1000).isSome) = true ∧ exiting.linesHeld 0 = false ∧ (blocked exitLost).linesHeld 0 = true
    ∧ (blocked exitLost).coreRuns 0 = true ∧ clearing.linesHeld 0 = false ∧ (blocked clearLost).linesHeld 0 = true := by decide +kernel
theorem test_held_access : gives (.coreAccess 0 (.load 8 false (.x 5)) 0x40000) (blocked coreUp) (fun t => decide (t = blocked coreUp)) = true := by decide +kernel
theorem witness_held_requests : remoteOk.heldIn 0x40000 128 = false ∧ (blocked joined).heldIn 0x40000 128 = true ∧ (blocked joined).inService = true
    ∧ joined.behind 1 wrHdr = false ∧ hostFull.behind 12 sessionHdr = false ∧ (next (.write 12 sessionHdr (leBytes 64 7)) hostFull).behind 12 wrHdr = true
    ∧ okIs ((blocked joined).targetAccess 0x40000 2 128 true) 0x40000 = true := by decide +kernel
/-- The channel of 0x40000 retrains. -/
def heldOnce : State := { joined with
  mem := { joined.mem with retraining := [joined.mem.channelOf 0x40000] },
  recovery := { joined.recovery with resets := [{ domain := 6, target := joined.mem.channelOf 0x40000 }] } }
/-- A write that a retraining channel holds is made once the channel works (R426), and one behind a waiting session write follows
it (R480). -/
theorem test_held_write : gives (.write 1 wrHdr (leBytes 128 0x99)) heldOnce (fun t => decide (t.sessions.waiting.length = 1 ∧ t.mem = heldOnce.mem)) = true
    ∧ gives (.resetComplete 6 (joined.mem.channelOf 0x40000) true) (next (.write 1 wrHdr (leBytes 128 0x99)) heldOnce)
      (fun t => decide (t.sessions.waiting = [] ∧ t.rdNat 0x40000 1 = 0x99)) = true
    ∧ gives .sessionClose (next (.write 12 wrHdr (leBytes 128 0x99)) (next (.write 12 sessionHdr (leBytes 64 7)) hostFull))
      (fun t => decide (t.sessions.waiting = [] ∧ t.rdNat 0x40000 1 = 0x99)) = true := by decide +kernel
theorem witness_held_provision : provision.heldIn 0x40000 262144 = false ∧ (blocked provision).heldIn 0x40000 262144 = true
    ∧ (blocked provision).serves 0x30 := ⟨by decide +kernel, by decide +kernel, serves_of (inService (blocked provision)) (by decide +kernel)⟩

/-! ## Further boundaries -/

/-- One write in progress, a mover's copy (R494). -/
theorem witness_lands : copyRuns.tick.writers.length = 2 ∧ (chosen copyRuns.tick.writers copyRuns.free).isSome = true
    ∧ (match execMoverCopyComplete 0 copyRuns.tick.fresh.fresh with
      | .next n => decide (copyRuns.mem.newUnits n.mem ≠ [])
      | _ => false) = true ∧ copyRuns.mem.wf = true := by
  have h : copyRuns.tick.writers.length = 2 := by decide +kernel
  refine ⟨h, ?_, by decide +kernel, by decide +kernel⟩
  rw [chosen, Option.isSome_iff_exists]
  exact ⟨_, List.getElem?_eq_getElem (by rw [h]; exact Nat.mod_lt _ (by decide))⟩
/-- Array 3's entry starts in this cycle (R483). -/
def startsNow : State := ready3.modAgent 3 fun g => { g with pending := some (entryAt 3 1000000) }
theorem witness_cancel_start : startsNow.starting 3 = true ∧ startsNow.epoch.busy = none ∧ startsNow.driverReaches = true ∧ ready3.starting 3 = false := by
  decide +kernel
theorem test_cancel_start : gives (.epochCancel (lowReg 3)) startsNow (fun t => decide ((t.agent 3).pending.isSome = true ∧ t.epoch.cancelResult = 2)) = true := by
  decide +kernel
/-- In Lean a wake adds 2.9 W (R408). -/
def leanDue : State := { due with power := { due.power with leanActive := true, envelope := 28000000 - 29000 } }
theorem witness_lean_wake : leanDue.agentsRun = true ∧ leanDue.power.envelope + leanDue.power.added + 29000 ≤ 28000000
    ∧ 28000000 < leanDue.power.envelope + leanDue.power.added + 34000 ∧ (leanDue.agent 3).gating = .powerGated := by decide +kernel
theorem test_lean_wake : gives (.scheduledWake 3 1000000) leanDue (fun t => decide ((t.agent 3).gating = .waking 1000000)) = true := by decide +kernel
/-- The first core adds the L3 and core cluster's 6.0 W (Table 13-5). -/
theorem witness_core_start : ¬ (List.range 16).any launching.coreBusy = true
    ∧ launching.power.envelope + launching.power.added + 99000 ≤ 28000000 ∧ 28000000 < (full launching).power.envelope + (full launching).power.added + 39000
    ∧ (List.range 16).any (launching.modAgent 200 fun g => { g with prog := .running, gating := .running }).coreBusy = true := by decide +kernel
/-- R34: 100 ticks late. -/
theorem test_start_late : gives (.agentStart 3 1000200) ready3 (fun t => decide ((t.agent 3).prog = .running
    ∧ t.recovery.log.map (fun r => (r.code, r.source, r.kind, r.d1)) = [(cStartLate, 3, 3, 100)])) = true := by decide +kernel
/-- Four copies are outstanding. -/
def fourCopies : State := (stackCopy.modArray 0 fun x => { x with flights := x.flights ++ (List.range 3).map fun i => aFlight (copyInsn 0) (x.place + i), place := x.place + 3 })
def fifthCopy : State := (fourCopies.modAgent 0 fun g => { g with ip := codeAddr }).wrNat codeAddr 32 (copyInsn 0)
theorem witness_fifth_copy : fifthCopy.slotWord 0 = some (copyInsn 0) ∧ opOf (copyInsn 0) = opCopy
    ∧ 4 ≤ ((fifthCopy.array 0).flights.filter fun g => g.code == opCopy).length := by decide +kernel
/-- Core 0's page table: one gigabyte page, readable and not writable, over the stacks' first gigabyte (Sv39). -/
def translating : State := (coreUp.modCore 0 fun c => { c with satp := BitVec.ofNat 64 (8 * 2 ^ 60 + 0x50), stvec := 0x30001 }).wrNat 0x50000 16 0x43
theorem witness_translation : okIs (translating.physical 0 (.load 8 false (.x 5)) 0x40000) 0x40000 = true
    ∧ (match translating.physical 0 (.store 8 1) 0x40000 with
      | .error .page => true
      | _ => false) = true
    ∧ okIs (coreUp.physical 0 (.store 8 1) 0x40000) 0x40000 = true ∧ translating.coreRuns 0 = true ∧ (translating.core 0).stvec ≠ 0#64 := by decide +kernel
/-- A store that the page does not permit continues at the handler, cause 15 (R332). -/
theorem test_page_fault : gives (.coreAccess 0 (.store 8 1) 0x40000) translating (fun t => decide ((t.core 0).pc = 0x30000 ∧ (t.core 0).scause = 15
    ∧ (t.core 0).stval = 0x40000)) = true := by decide +kernel
def inUser : State := handling.modCore 0 fun c => { c with user := true, sepc := 0x123 }
theorem witness_user : inUser.coreRuns 0 = true ∧ (inUser.core 0).user = true ∧ (inUser.core 0).stvec ≠ 0#64 ∧ (inUser.core 0).csr? 0x100 ≠ none
    ∧ bits 0x100 8 2 = 1 ∧ (coreUp.core 0).user = false ∧ (coreUp.core 0).csr? 0x105 = some 0 ∧ (coreUp.csrRead 0 0xC00).isSome = true
    ∧ inUser.csrRead 0 0xC00 = none ∧ bits 0xC00 10 2 = 3 ∧ coreUp.csrRead 0 0x7FF = none ∧ (coreUp.csrRead 0 0x105).isSome = true := by decide +kernel
theorem test_user_ecall : gives (.coreEcall 0) inUser (fun t => decide ((t.core 0).scause = 8 ∧ (t.core 0).user = false ∧ (t.core 0).pc = 0x30000)) = true := by
  decide +kernel
theorem test_csr : gives (.coreAccess 0 (.csr .write 0x105 0x30000 (.x 5)) 0) coreUp (fun t => decide ((t.core 0).stvec = 0x30000 ∧ (t.core 0).getX 5 = 0)) = true := by
  decide +kernel
theorem test_sret : gives (.coreAccess 0 .sret 0) (handling.modCore 0 fun c => { c with sepc := 0x123 }) (fun t => decide ((t.core 0).user = true
    ∧ (t.core 0).pc = 0x123)) = true := by decide +kernel
/-- A load across the end of stack memory (R333), and its atomic, which traps. -/
theorem witness_core_across : regionOf (stackTop - 4) = .stack ∧ stackTop < stackTop - 4 + 8 ∧ checkMapped (stackTop - 4) 8 false = none
    ∧ coreUp.stoppedIn (stackTop - 4) 4 = none ∧ coreUp.fillHeld 0 (stackTop - 4) 8 = false ∧ coreUp.poisonIn stackTop 4 = none
    ∧ coreUp.poisonSeen 0 (stackTop - 4) 4 = none
    ∧ coreUp.cluster.l3.length + 2 * (unitsOf (stackTop - 4) 8).length ≤ l3Lines := by decide +kernel
theorem test_core_across : gives (.coreAccess 0 (.store 8 0x1122334455667788) (stackTop - 4))
    { coreUp with mem := { coreUp.mem with extents := [{ first := (stackTop - 4) / 65536, count := 1, ro := false, salt := 0, object := 0 }] } }
    (fun t => decide (t.rdNat stackTop 4 = 0x11223344 ∧ t.cachedNat 0 (stackTop - 4) 4 = 0x55667788)) = true := by decide +kernel
/-- A store to the session port waits, and one to the core's own port behind it. -/
def coreQueued : State := next (.coreAccess 0 (.store 64 9) sessionPortAddr) portsFull
theorem witness_core_queued : (coreQueued.core 0).stores ≠ [] ∧ coreQueued.coreRuns 0 = true ∧ (coreQueued.core 0).portHeld = false
    ∧ ((next (.coreGsig 0 0x500000009) coreQueued).core 0).portHeld = true ∧ (next (.coreGsig 0 0x500000009) coreQueued).coreRuns 0 = true
    ∧ (coreUp.core 0).levels = 0 := by decide +kernel
theorem test_core_queued : gives (.coreGsig 0 0x500000009) coreQueued (fun t => decide ((t.gate 9).value = 0 ∧ (t.core 0).stores.map (·.2)
    = [.session 9, .port 0 0x500000009])) = true := by decide +kernel
/-- Only the master follows the pulse; a module out of service is none (R386). -/
theorem witness_masters : syncing.masters = true ∧ following.masters = false ∧ outOf.masters = false ∧ outOf.alwaysOn = true := by decide +kernel
theorem witness_progress : stuck.progressUnseen 3 = false ∧ stuck.lastEvent 3 40000000 = 0 ∧ (stuck.agent 3).watchHeld = 0
    ∧ 4000 * (stuck.agent 3).watchLimit + (stuck.agent 3).watchHeld ≤ 40000000 - 0 := by decide +kernel
theorem witness_cold_dump : (recovering { dumping := some (1, false) }).alwaysOn = true ∧ up.alwaysOn = true ∧ up.recovery.dumping = none
    ∧ gatehouseDown.alwaysOn = true ∧ (up.atTime 1000000).stampEvent.atLimit = false := by decide +kernel
theorem test_cold_dump : gives (.deviceColdReset 2) (recovering { dumping := some (1, false) }) (fun t => decide (t.recovery.dumpValid = true
    ∧ t.recovery.dumping = none)) = true := by decide +kernel
theorem witness_commit : trialRuns.serves 0x26 ∧ (mapFind 2 trialRuns.gatehouse.booted).any (fun y => y.trial) = true
    ∧ (trialRuns.fwType 2).counter < ((trialRuns.fwType 2).slot true).svn ∧ ((asked 0x24 1 [(0, 2)] up).fwType 2 |>.slot true).holdsNone = true
    ∧ (asked 0x24 1 [(0, 2)] inTrial).serves 0x24 ∧ ((asked 0x24 1 [(0, 2)] inTrial).fwType 2).waiting = true := by
  refine ⟨serves_of (inService trialRuns) ?_, ?_, ?_, ?_, serves_of { code := 0x24, tag := 1, args := 1 } ?_, ?_⟩ <;> decide +kernel
/-- An empty slot (SEC_FORMAT). -/
theorem test_fwVerify_empty : answers .fwVerify (asked 0x24 1 [(0, 2)] up) secFormat 0 = true := by decide +kernel
theorem test_fwVerify_busy : answers .fwVerify (asked 0x24 1 [(0, 2)] inTrial) secBusy 0 = true := by decide +kernel
/-- The charge of object 5 ends, and its stripe holds nothing (R82). -/
theorem test_release : gives .iceRelease (asked 0x31 3 [(0, 5)] (next .iceProvision (provision.wrNat 0x40000 8 7)))
    (fun t => decide ((t.quota 0).iceUsed = 0 ∧ t.mem.byte? (iceBase + 0) = none ∧ t.gatehouse.status = mbDone)) = true := by decide +kernel
/-- VSER's group is not up while boot is halted; VIN may fail at any time (R470). -/
def haltedRails : State := { up with gatehouse := { up.gatehouse with halted := true }, pins := { up.pins with rails := railOrder.take 3 } }
theorem witness_rails : haltedRails.alwaysOn = true ∧ (∀ r ∈ haltedRails.pins.rails, r.group ≠ 3) ∧ haltedRails.gatehouse.halted = true
    ∧ (∃ r ∈ up.pins.rails, r.group = 3) := by decide +kernel
theorem test_rail_vin : gives (.railGroupTimeout 0) haltedRails (fun t => decide (t.pins.phase = .failed)) = true := by decide +kernel
/-- FIPS 180-4: SHA-384 of "abc". -/
theorem test_sha384 : leNat (sha384 [0x61, 0x62, 0x63]).reverse = 0xcb00753f45a35e8bb5a03d699ac65007272c32ab0eded1631a8b605a43ff5bed8086072ba1e7cc2358baeca134c825a7 := by
  decide +kernel

/-! ## Numbers (ch 04, ch 09), well-formedness, words -/

/-- Reset values (Table 13-7, R468). -/
theorem test_register_reset : State.reset.sound = true ∧ State.reset.pins.phase = .off ∧ State.reset.power.idleHold = 20 := by decide +kernel

theorem witness_conversions : fBF16 ∈ [fE4M3, fE5M2, fFP16, fBF16, fFP32, fER24, fER40] ∧ (-128 : Int) ≤ 0 ∧ (0 : Int) ≤ 127
    ∧ ∀ n u, Rnd.sr 8 255 = .sr n u → u < 2 ^ n := by
  refine ⟨by decide +kernel, by decide, by decide, fun n u h => ?_⟩
  injection h with h1 h2; subst h1; subst h2; decide
theorem witness_jumps : 5 < 2 ^ 64 ∧ 5 ≠ 0 := by decide
/-- 2.5 and 3.5 to even, and −3.5 toward zero. -/
theorem test_convInt : [(convInt (-128) 127 .rne (.fin false 5 2 0)).1, (convInt (-128) 127 .rne (.fin false 7 2 0)).1,
    (convInt (-128) 127 .rtz (.fin true 7 2 0)).1, (convInt (-128) 127 .rne (.fin true 999 1 0)).1] = [2, 4, -3, -128] := by decide +kernel
/-- 448 is the largest finite E4M3 (Table 04-2): 0x7E. -/
theorem test_convFloat : (convFloat fE4M3 .rne (.fin false 1000 1 0)).pat = 0x7E := by decide +kernel

/-- Each check of `wf` refuses a term. -/
theorem test_wf_agents : [Instr.agentStart 230 0, .wakeComplete 229 0, .gateSignal 131072 (lowReg 1), .gateValue 131071 (lowReg 1), .nop 192, .mm 191,
    .tableSwap 3 16, .moverCopy 16, .promote 15].map Instr.wf = [false, true, false, true, false, true, false, false, true] := by decide +kernel
theorem test_wf_cores : [Instr.coreAccess 16 .fetch 0, .coreAccess 0 (.load 3 true .none) 0, .coreAccess 0 (.load 4 true (.x 32)) 0, .coreAccess 0 .fetch (2 ^ 64),
    .coreAccess 0 (.store 1 256) 0, .coreAccess 0 (.amo .add 2 0 .none) 0, .coreAccess 0 (.lr 8 (.f 32)) 0, .coreAccess 0 (.sc 8 0 (.v 32)) 0,
    .coreAccess 15 (.store 1 255) 0, .cboClean 16 0, .coreWaitStatus 0 (.x 32), .encFrame 6].map Instr.wf
      = [false, false, false, false, false, false, false, false, true, false, false, false] := by decide +kernel
theorem test_wf_memory : [Instr.stackTempReport 8 0, .stackTempReport 0 256, .overtempStop 8 (lowReg 0), .imbalanceSample 0 128 0 0 0, .patrolScrub (2 ^ 34) .clean,
    .iceStripeRead (2 ^ 27) [], .iceChannelFailed 72, .objTableWrite (2 ^ 20) 0 (reg 0), .objTableWrite 0 4 (reg 0)].map Instr.wf
      = [false, false, false, false, false, false, false, false, false] := by decide +kernel
/-- A header of type `k` whose other fields are 0. -/
def hdr0 (k : Nat) : Hdr :=
  { kind := k, directed := false, host := false, hostPort := false, hops := 0, dst := 0, src := 0, tag := 0, w1 := 0, w2 := 0, w3 := 0 }
theorem test_wf_link : [Instr.lossOfSignal 14, .trainReceive 0 true 0 (List.replicate 257 0) [] 0, .write 0 (hdr0 16) [], .write 0 (hdr0 2) [0],
    .ack 0 { hdr0 2 with hops := 32 }, .ack 0 { hdr0 2 with dst := 16384 }, .ack 0 { hdr0 2 with tag := 65536 }, .ack 0 { hdr0 2 with w1 := 2 ^ 64 },
    .linkTimeout 65536 0, .routeEntryWrite 16384 0, .ack 13 (hdr0 2)].map Instr.wf
      = [false, false, false, false, false, false, false, false, false, false, true] := by decide +kernel
theorem test_wf_power : [Instr.envelopeSample 0 [] 0, .inputPowerSample 65536 0, .inputSag 65536 0, .dieTempReport 17 0, .dieTempReport 0 256, .channelRetrain 1024,
    .deviceWarmReset 2 false, .deviceColdReset 3, .resetComplete 0 0 true, .resetComplete 9 0 true, .powerUp 64 0, .powerUp 0 65536, .railGroupTimeout 8,
    .registerWrite (2 ^ 48) (reg 0), .registerWrite 4 (reg 0), .powerUp 63 65535].map Instr.wf
      = [false, false, false, false, false, false, false, false, false, false, false, false, false, false, false, true] := by decide +kernel
/-- The table gives no row bits. -/
theorem test_decodeTableWord : decodeTableWord 64 0x20 = none ∧ up.withFetchWord 64 0x20 = up := by decide +kernel

end Sys2Proof.Tests
end

/-! What every step keeps (O4): the canonical form of memory, the bound of the log (R434) and the ports of the routing table (R379). -/
namespace Sys2Proof.Machine

/-- Every command keeps what its own operation keeps. -/
theorem exec_keeps {s₀ : State} (c : Instr) (s : State) (hk : Keeps s₀ s) : OutKeeps s₀ (exec c s) :=
  match c with
  | .epochPublish w => execEpochPublish_keeps w s hk
  | .epochValidationEnd => execEpochValidationEnd_keeps s hk
  | .epochCancel w => execEpochCancel_keeps w s hk
  | .scheduledWake agent now => execScheduledWake_keeps agent now s hk
  | .wakeComplete agent now => execWakeComplete_keeps agent now s hk
  | .agentStart agent now => execAgentStart_keeps agent now s hk
  | .startLate agent now => execStartLate_keeps agent now s hk
  | .doneGateSignal agent => execDoneGateSignal_keeps agent s hk
  | .signalApply agent k => execSignalApply_keeps agent k s hk
  | .gateTimeout agent now => execGateTimeout_keeps agent now s hk
  | .boundaryFault agent => execBoundaryFault_keeps agent s hk
  | .fenceComplete agent => execFenceComplete_keeps agent s hk
  | .gateValue gate w => execGateValue_keeps gate w s hk
  | .gateSignal gate w => execGateSignal_keeps gate w s hk
  | .nop a => execNop_keeps a s hk
  | .halt a => execHalt_keeps a s hk
  | .fence a => execFence_keeps a s hk
  | .wake a => execWake_keeps a s hk
  | .gsig a => execGsig_keeps a s hk
  | .gwait a => execGwait_keeps a s hk
  | .tload a => execTload_keeps a s hk
  | .tableSwap a table => execTableSwap_keeps a table s hk
  | .dload a => execDload_keeps a s hk
  | .ctxsave a => execCtxsave_keeps a s hk
  | .ctxload a => execCtxload_keeps a s hk
  | .trdry a => execTrdry_keeps a s hk
  | .mm a => execMm_keeps a s hk
  | .mmc a => execMmc_keeps a s hk
  | .mmx a => execMmx_keeps a s hk
  | .conv a => execConv_keeps a s hk
  | .convf a => execConvf_keeps a s hk
  | .attn a => execAttn_keeps a s hk
  | .attnb a => execAttnb_keeps a s hk
  | .pscore a => execPscore_keeps a s hk
  | .kvexp a => execKvexp_keeps a s hk
  | .vec a => execVec_keeps a s hk
  | .row a => execRow_keeps a s hk
  | .sfn a => execSfn_keeps a s hk
  | .sort a => execSort_keeps a s hk
  | .rng a => execRng_keeps a s hk
  | .pool a => execPool_keeps a s hk
  | .resize a => execResize_keeps a s hk
  | .copy a => execCopy_keeps a s hk
  | .trellisRowComplete a unit => execTrellisRowComplete_keeps a unit s hk
  | .insnComplete a k => execInsnComplete_keeps a k s hk
  | .moverCopy m => execMoverCopy_keeps m s hk
  | .promote m => execPromote_keeps m s hk
  | .evict m => execEvict_keeps m s hk
  | .alloc m => execAlloc_keeps m s hk
  | .xserve m => execXserve_keeps m s hk
  | .moverGsig m => execMoverGsig_keeps m s hk
  | .moverGwait m => execMoverGwait_keeps m s hk
  | .moverFence m => execMoverFence_keeps m s hk
  | .moverEnd m => execMoverEnd_keeps m s hk
  | .moverCopyComplete m => execMoverCopyComplete_keeps m s hk
  | .promotionCopyDone m => execPromotionCopyDone_keeps m s hk
  | .xserveTimeout m now => execXserveTimeout_keeps m now s hk
  | .exportFrame m => execExportFrame_keeps m s hk
  | .sessionOpen => execSessionOpen_keeps s hk
  | .map => execMap_keeps s hk
  | .commit => execCommit_keeps s hk
  | .truncate => execTruncate_keeps s hk
  | .sessionClose => execSessionClose_keeps s hk
  | .coreAccess core op addr => execCoreAccess_keeps core op addr s hk
  | .cboClean core addr => execCboClean_keeps core addr s hk
  | .cboFlush core addr => execCboFlush_keeps core addr s hk
  | .cboInval core addr => execCboInval_keeps core addr s hk
  | .cacheWriteback core addr => execCacheWriteback_keeps core addr s hk
  | .coreGsig core value => execCoreGsig_keeps core value s hk
  | .coreWaitTarget core value => execCoreWaitTarget_keeps core value s hk
  | .coreWaitStatus core rd => execCoreWaitStatus_keeps core rd s hk
  | .coreFence core value => execCoreFence_keeps core value s hk
  | .coreFenceDone core rd => execCoreFenceDone_keeps core rd s hk
  | .coreEcall core => execCoreEcall_keeps core s hk
  | .coreClearWriteback core => execCoreClearWriteback_keeps core s hk
  | .codecOpen c => execCodecOpen_keeps c s hk
  | .encFrame c => execEncFrame_keeps c s hk
  | .decFrame c => execDecFrame_keeps c s hk
  | .codecClose c => execCodecClose_keeps c s hk
  | .codecGsig c => execCodecGsig_keeps c s hk
  | .codecGwait c => execCodecGwait_keeps c s hk
  | .codecFence c => execCodecFence_keeps c s hk
  | .codecEnd c => execCodecEnd_keeps c s hk
  | .frameComplete c => execFrameComplete_keeps c s hk
  | .codecCtxBusy c now => execCodecCtxBusy_keeps c now s hk
  | .stackTempReport stack temp => execStackTempReport_keeps stack temp s hk
  | .overtempStop stack w => execOvertempStop_keeps stack w s hk
  | .imbalanceSample stack channel busiest total block => execImbalanceSample_keeps stack channel busiest total block s hk
  | .patrolScrub unit found => execPatrolScrub_keeps unit found s hk
  | .iceStripeRead stripe bad => execIceStripeRead_keeps stripe bad s hk
  | .iceChannelFailed channel => execIceChannelFailed_keeps channel s hk
  | .objTableWrite index word w => execObjTableWrite_keeps index word w s hk
  | .trainingComplete p lanes partnerGens now => execTrainingComplete_keeps p lanes partnerGens now s hk
  | .linkTrainRetry p now => execLinkTrainRetry_keeps p now s hk
  | .neighbourTimeout p now => execNeighbourTimeout_keeps p now s hk
  | .controlFlitTimer p now => execControlFlitTimer_keeps p now s hk
  | .trainReceive p fecOk corrected ctrl data now => execTrainReceive_keeps p fecOk corrected ctrl data now s hk
  | .write p h data => execWrite_keeps p h data s hk
  | .readReq p h => execReadReq_keeps p h s hk
  | .readResp p h data => execReadResp_keeps p h data s hk
  | .ack p h => execAck_keeps p h s hk
  | .nack p h => execNack_keeps p h s hk
  | .gsigTransaction p h => execGsigTransaction_keeps p h s hk
  | .exportTxn p h data => execExportTxn_keeps p h data s hk
  | .syncReq p h t2 t3 => execSyncReq_keeps p h t2 t3 s hk
  | .syncResp p h t4 => execSyncResp_keeps p h t4 s hk
  | .neighbour p h => execNeighbour_keeps p h s hk
  | .syncPeriod p t1 equalising => execSyncPeriod_keeps p t1 equalising s hk
  | .linkTimeout tag now => execLinkTimeout_keeps tag now s hk
  | .lossOfSignal p => execLossOfSignal_keeps p s hk
  | .linkNodeId w => execLinkNodeId_keeps w s hk
  | .routeEntryWrite node value => execRouteEntryWrite_keeps node value s hk
  | .linkPortConfig p w => execLinkPortConfig_keeps p w s hk
  | .ppsEdge now => execPpsEdge_keeps now s hk
  | .powerProfile w => execPowerProfile_keeps w s hk
  | .profileChange now => execProfileChange_keeps now s hk
  | .powerGate agent now => execPowerGate_keeps agent now s hk
  | .envelopeSample now stackGBs iceGBs => execEnvelopeSample_keeps now stackGBs iceGBs s hk
  | .inputPowerSample watts now => execInputPowerSample_keeps watts now s hk
  | .inputSag mv now => execInputSag_keeps mv now s hk
  | .powerFail mv now => execPowerFail_keeps mv now s hk
  | .dieTempReport die temp => execDieTempReport_keeps die temp s hk
  | .dieTrip w => execDieTrip_keeps w s hk
  | .mowWindowStart now => execMowWindowStart_keeps now s hk
  | .mowWindowEnd now => execMowWindowEnd_keeps now s hk
  | .mowForced now => execMowForced_keeps now s hk
  | .mowConfig w => execMowConfig_keeps w s hk
  | .mowPhase w => execMowPhase_keeps w s hk
  | .progressTimeout agent now => execProgressTimeout_keeps agent now s hk
  | .gatehouseRestart now => execGatehouseRestart_keeps now s hk
  | .arrayReset a storeDone => execArrayReset_keeps a storeDone s hk
  | .moverReset m => execMoverReset_keeps m s hk
  | .codecCoreReset c => execCodecCoreReset_keeps c s hk
  | .hostCoreClusterReset => execHostCoreClusterReset_keeps s hk
  | .portReset p => execPortReset_keeps p s hk
  | .channelRetrain channel => execChannelRetrain_keeps channel s hk
  | .deviceWarmReset cause dump => execDeviceWarmReset_keeps cause dump s hk
  | .deviceColdReset cause => execDeviceColdReset_keeps cause s hk
  | .resetComplete domain target ok => execResetComplete_keeps domain target ok s hk
  | .dumpCaptureComplete => execDumpCaptureComplete_keeps s hk
  | .logMirror seq => execLogMirror_keeps seq s hk
  | .agentFaultClear agent w => execAgentFaultClear_keeps agent w s hk
  | .partRead => execPartRead_keeps s hk
  | .quote => execQuote_keeps s hk
  | .extend => execExtend_keeps s hk
  | .fwStage => execFwStage_keeps s hk
  | .fwVerify => execFwVerify_keeps s hk
  | .fwActivate => execFwActivate_keeps s hk
  | .fwCommit => execFwCommit_keeps s hk
  | .debugUnlock => execDebugUnlock_keeps s hk
  | .dumpRead => execDumpRead_keeps s hk
  | .serviceClear => execServiceClear_keeps s hk
  | .iceProvision => execIceProvision_keeps s hk
  | .iceRelease => execIceRelease_keeps s hk
  | .powerUp slot mv => execPowerUp_keeps slot mv s hk
  | .softStart => execSoftStart_keeps s hk
  | .powerGood => execPowerGood_keeps s hk
  | .bootReady found => execBootReady_keeps found s hk
  | .railGroupTimeout group => execRailGroupTimeout_keeps group s hk
  | .resetN lowSamples => execResetN_keeps lowSamples s hk
  | .mateNBreak => execMateNBreak_keeps s hk
  | .jtagReset => execJtagReset_keeps s hk
  | .smbAlertResponse => execSmbAlertResponse_keeps s hk
  | .status => execStatus_keeps s hk
  | .inputMv => execInputMv_keeps s hk
  | .inputW => execInputW_keeps s hk
  | .dieTempMax => execDieTempMax_keeps s hk
  | .stackTempMax => execStackTempMax_keeps s hk
  | .slot => execSlot_keeps s hk
  | .serial => execSerial_keeps s hk
  | .registerWrite addr w => execRegisterWrite_keeps addr w s hk
  | .partnerDetection p => execPartnerDetection_keeps p s hk
  | .ppsEdgeLoss now => execPpsEdgeLoss_keeps now s hk
  | .gatehouseRestartComplete => execGatehouseRestartComplete_keeps s hk
  | .coreException core cause tval => execCoreException_keeps core cause tval s hk
  | .insnOpcode a => execInsnOpcode_keeps a s hk
  | .moverOpcode m => execMoverOpcode_keeps m s hk
  | .codecOpcode c => execCodecOpcode_keeps c s hk
  | .mboxOpcode => execMboxOpcode_keeps s hk

/-- What a sound state is does not depend on the queue. -/
theorem State.sound_pending (s : State) (l : List Instr) : ({ s with pending := l } : State).sound = s.sound := rfl

/-- An idle step keeps: the Sundial's tick does, and the landing of a unit. -/
theorem State.tick_land_keeps (s : State) : Keeps s s.tick.land :=
  State.land_keeps _ (State.tick_keeps _ (.refl s))

/-- Settles O4: an idle step keeps, and a command keeps from the state with the queue's rest on, which is as sound. -/
theorem soundStateKept : Obligations.SoundStateKept := by
  intro s t hs hstep
  cases hq : s.pending with
  | nil =>
    have ht : t = s.tick.land := by
      simp only [step, hq] at hstep
      cases hstep; rfl
    exact ht ▸ s.tick_land_keeps.sound hs
  | cons c rest =>
    have he : exec c { s with pending := rest } = .next t := by
      simpa only [step, hq] using hstep
    exact (exec_keeps c _ (.refl _) t he).sound (by rw [s.sound_pending]; exact hs)

end Sys2Proof.Machine

/-! The driver's writes and reads of control space (O58; R19, R478 to R480). -/
namespace Sys2Proof.Machine

/-! Writes of a whole register -/

theorem RegVal.hasLow_of_both {w : RegVal} (h : w.half = .both) : w.hasLow = true := by simp [RegVal.hasLow, h]

/-- A write of both halves leaves nothing of the old value. -/
theorem mergeHalf_both {w : RegVal} (h : w.half = .both) (old : Nat) : mergeHalf old w = w.value.toNat := by simp [mergeHalf, h]

/-- The driver that reaches the always-on domain reaches every block, and its aligned write is the block's (R478, R480). -/
theorem execRegisterWrite_of_block {s : State} {a off : Nat} {b : Block} (hr : s.driverReaches = true) (ha : a % 8 = 0)
    (hb : blockOf a = some (b, off)) (w : RegVal) : execRegisterWrite a w s = .next (s.writeBlock b off w) := by
  simp [execRegisterWrite, State.driverWrite, State.blockReached, ha, hb, hr]

/-- A write where no block lies changes nothing. -/
theorem execRegisterWrite_of_no_block {a : Nat} (h : blockOf a = none) (w : RegVal) (s : State) : execRegisterWrite a w s = .next s := by
  simp [execRegisterWrite, State.driverWrite, h]

/-- `POWER_IDLE_HOLD` takes its field (Table 13-7). -/
theorem State.writeBlock_idleHold {w : RegVal} (h : w.hasLow = true) (s : State) :
    s.writeBlock .power 8 w = { s with power := { s.power with idleHold := w.fld 0 16 } } := by
  simp [State.writeBlock, State.writePower, h]

/-- The first 230 words of the recovery block are the agents' timers (Table 14-9). -/
theorem State.writeBlock_timers {i : Nat} (h : i < 230) (s : State) (w : RegVal) :
    s.writeBlock .recovery (8 * i) w = s.modAgent i fun a => a.setTimers w := by
  have hoff : 8 * i < 8 * 230 := by omega
  have hdiv : 8 * i / 8 = i := by omega
  simp only [State.writeBlock, State.writeRecovery, if_pos hoff, hdiv]

theorem Agent.setTimers_of_both {w : RegVal} (h : w.half = .both) (a : Agent) :
    (a.setTimers w).gateTimeout = (if w.fld 0 24 = 0 then a.gateTimeout else w.fld 0 24)
    ∧ (a.setTimers w).progressLimit = (if 100 ≤ w.fld 24 24 ∧ w.fld 24 24 ≤ 1000000 then w.fld 24 24 else a.progressLimit) := by
  simp only [Agent.setTimers, mergeHalf_both h, RegVal.fld]
  exact ⟨rfl, rfl⟩

theorem State.onlyAgent_modAgent (s : State) (i : Nat) (f : Agent → Agent) : s.onlyAgent (s.modAgent i f) i :=
  ⟨fun _ hj => s.modAgent_agent_ne hj f, rfl⟩

/-- `GATEHOUSE_MBOX_GO` takes a write of both halves (log 44). -/
theorem State.writeBlock_mboxGo {w : RegVal} (h : w.half = .both) (s : State) : s.writeBlock .gatehouse 0x10 w = s.mboxGo w := by
  simp [State.writeBlock, State.writeGatehouse, h]

/-- While a command is in service or the Gatehouse restarts, a GO is only noted as rejected (R489, log 111). -/
theorem State.mboxGo_of_busy {s : State} (h : s.gatehouse.cmd.isSome = true ∨ s.gatehouse.restarting = true) (w : RegVal) :
    s.mboxGo w = { s with gatehouse := { s.gatehouse with rejected := true } } := by
  simp [State.mboxGo, h]

/-- Otherwise the command comes into service with its tag, and the last answer is gone (R489). -/
theorem State.mboxGo_of_idle {s : State} (hc : s.gatehouse.cmd = none) (hr : s.gatehouse.restarting = false) (w : RegVal) :
    s.mboxGo w = { s with gatehouse := { s.gatehouse with
      cmd := some { code := w.fld 0 8, tag := w.fld 8 16, args := w.fld 24 32 },
      tag := w.fld 8 16, status := 0, resultBytes := 0, response := [] } } := by
  simp [State.mboxGo, hc, hr]

/-! A read that arrives at a host port -/

/-- The other regions of the map end before control space begins, and it ends with the 48 bits (Table 02-2). -/
theorem lt_of_control {a : Nat} (h : regionOf a = .control) : a < 2 ^ 48 := by
  unfold regionOf at h
  repeat (split at h; · cases h)
  split at h
  · next htop => exact htop
  · cases h

theorem bits_of_lt {a n : Nat} (h : a < 2 ^ n) : bits a 0 n = a := by simp [bits, Nat.mod_eq_of_lt h]

/-- A request for this module that is no `GSIG` and no `EXPORT` is tried at once (R379). -/
theorem State.request_own {s : State} {h : Hdr} (hoos : s.recovery.oos = false) (hn : s.link.nodeValid = true) (hd : h.directed = false)
    (ht : h.dst = s.link.nodeId) (hg : h.kind ≠ tGsig) (hx : h.kind ≠ tExport) (p : Nat) (data : List Byte) :
    s.request p h data = s.attempt p h data := by
  simp [State.request, State.serviceRefuses, State.arrives, hoos, hn, hd, ht, hg, hx]

/-- Nothing waits on the port, so nothing holds an access that has an answer. -/
theorem State.attempt_of_free {s t : State} {p : Nat} {h : Hdr} {data : List Byte} (hw : ∀ x ∈ s.sessions.waiting, x.port ≠ p)
    (ha : s.access p h data = some t) : s.attempt p h data = t := by
  have hb : s.behind p h = false := by
    simp only [State.behind, List.any_eq_false, Bool.and_eq_true, decide_eq_true_eq]
    exact fun x hx h' => hw x hx h'.1.1
  simp [State.attempt, hb, ha]

/-- A host port's access to control space is the driver's. -/
theorem State.access_of_driver {h : Hdr} {p : Nat} (hp : 12 ≤ p) (hc : atControl h = true) (s : State) (data : List Byte) :
    s.access p h data = s.driverAccess p h data := by
  simp [State.access, hc, hp]

/-- An aligned read of 8 bytes of a block that the driver reaches is not refused (R478, R480). -/
theorem State.controlRefused_of_word_read {s : State} {a : Nat} {e : Block × Nat} (ha : a % 8 = 0) (hb : blockOf a = some e)
    (hr : s.blockReached e.1 = true) : s.controlRefused false false a 1 8 = none := by
  simp [State.controlRefused, hb, hr, ha]

theorem State.controlReadEffect_of_word (s : State) (a : Nat) : s.controlReadEffect a 8 = s.afterRead a := by
  simp [State.controlReadEffect]

/-- The data unit that answers a read of the 8 bytes at `a`, its bytes at their offsets (R479). -/
def State.wordUnit (s : State) (a : Nat) : List (Nat × Byte) := (s.controlRead a 8).zipIdx.map fun x => (x.2, x.1)

/-- The driver's aligned read of 8 bytes has the read's own effect and is answered with one unit (R479). -/
theorem State.driverAccess_of_word_read {s : State} {h : Hdr} {a : Nat} {e : Block × Nat} (hk : h.kind = tReadReq)
    (hd : h.directed = false) (h1 : bits h.w1 0 48 = a) (h2 : h.w2 = 1 + 8 * 256) (ha : a % 8 = 0) (hb : blockOf a = some e)
    (hr : s.blockReached e.1 = true) (p : Nat) (data : List Byte) :
    s.driverAccess p h data =
      some ((s.afterRead a).respond p h tReadResp 1 (s.wordUnit a)) := by
  have hwrite : decide (h.kind = tWrite) = false := by rw [hk]; rfl
  have hunits : bits h.w2 0 7 = 1 := by rw [h2]; rfl
  have hsize : bits h.w2 8 8 = 8 := by rw [h2]; rfl
  simp [State.driverAccess, hwrite, hunits, hsize, h1, hd, State.controlRefused_of_word_read ha hb hr,
    State.controlReadEffect_of_word, State.wordUnit]

/-- A read changes free values and core ports only. -/
theorem State.afterRead_frame (s : State) (a : Nat) :
    s.afterRead a = { s with free := (s.afterRead a).free, cluster := (s.afterRead a).cluster } := by
  unfold State.afterRead
  repeat' split
  all_goals rfl

/-- The unit holds the register's 8 bytes and then zeroes. -/
theorem State.controlRead_word {a k : Nat} (ha : a % 8 = 0) (hk : k < 64) (s : State) :
    (s.controlRead a 8)[k]? = some (if k < 8 then (leBytes 8 ((s.regWord a).getD 0)).getD k 0 else 0) := by
  have halign : a / 8 * 8 = a := by omega
  simp only [State.controlRead, tabulate, List.getElem?_map, List.getElem?_range hk, Option.map_some, ha, halign, List.drop_zero]
  split
  · next h8 =>
    have hlen : k < (leBytes 8 ((s.regWord a).getD 0)).length := by simpa [leBytes, tabulate] using h8
    rw [show List.range 8 = 0 :: (List.range 7).map (· + 1) from rfl, List.flatMap_cons, Nat.mul_zero, Nat.add_zero,
      List.getD_eq_getElem?_getD, List.getElem?_append_left hlen, ← List.getD_eq_getElem?_getD]
  · rfl

theorem State.wordUnit_getElem? {a k : Nat} (ha : a % 8 = 0) (hk : k < 64) (s : State) :
    (s.wordUnit a)[k]? = some (k, if k < 8 then (leBytes 8 ((s.regWord a).getD 0)).getD k 0 else 0) := by
  simp [State.wordUnit, State.controlRead_word ha hk]

/-- A response leaves by the host port on which its request came (R379). -/
theorem State.respond_at_host {s : State} {p : Nat} (hp : 12 ≤ p) (hl : s.linked p = true) (h : Hdr) (kind w2 : Nat)
    (data : List (Nat × Byte)) :
    s.respond p h kind w2 data = s.send p {
      hdr := { kind := kind, directed := h.directed, host := h.host, hostPort := h.hostPort, hops := 31, dst := h.src,
               src := s.link.nodeId, tag := h.tag, w1 := 0, w2 := w2, w3 := if h.directed then h.w3 else 0 },
      data := data } := by
  simp [State.respond, hp, hl]

theorem State.answered_respond {s : State} {p : Nat} (hp : 12 ≤ p) (hl : s.linked p = true) (h : Hdr) (kind w2 : Nat)
    (data : List (Nat × Byte)) : s.answered (s.respond p h kind w2 data) p h kind w2 data := by
  rw [State.respond_at_host hp hl, State.send]
  exact ⟨by rw [State.modPort_port], fun r hr => s.modPort_port_ne hr _⟩

/-- Whether a port has answered depends on the link before alone. -/
theorem State.answered_of_link {s s' t : State} {q kind w2 : Nat} {h : Hdr} {data : List (Nat × Byte)} (hl : s'.link = s.link)
    (ha : s'.answered t q h kind w2 data) : s.answered t q h kind w2 data := by
  simpa only [State.answered, State.port, hl] using ha

theorem State.linked_of_link {s s' : State} (hl : s'.link = s.link) (p : Nat) : s'.linked p = s.linked p := by
  rw [State.linked, State.linked, State.port, State.port, hl]

/-- `READ_REQ` for 8 bytes of control space at a host port of this module: the read's effect, and its answer (R376, R479). -/
theorem execReadReq_of_word_read {s : State} {p a : Nat} {h : Hdr} {e : Block × Nat} (hp : p = 12 ∨ p = 13) (hl : s.linked p = true)
    (hoos : s.recovery.oos = false) (hn : s.link.nodeValid = true) (hd : h.directed = false) (ht : h.dst = s.link.nodeId)
    (h1 : h.w1 = a) (h2 : h.w2 = 1 + 8 * 256) (ha : a % 8 = 0) (hc : regionOf a = .control) (hb : blockOf a = some e)
    (hr : s.blockReached e.1 = true) (hw : ∀ x ∈ s.sessions.waiting, x.port ≠ p) (hq : (s.port p).equalising = false) :
    execReadReq p h s = .next ((s.afterRead a).respond p (asKind tReadReq h) tReadResp 1 (s.wordUnit a)) := by
  have hp12 : 12 ≤ p := by omega
  have hrec : s.receives p = true := by
    have hp14 : p < 14 := by omega
    simp [State.receives, hp14, hl, hq]
  have haddr : bits h.w1 0 48 = a := h1 ▸ bits_of_lt (h1 ▸ lt_of_control hc)
  have hctrl : atControl (asKind tReadReq h) = true := by
    have hplain : bits h.w2 40 24 = 0 := by rw [h2]; rfl
    simp [atControl, asKind, hplain, haddr, hc]
  have hacc := (State.access_of_driver hp12 hctrl s []).trans
    (State.driverAccess_of_word_read (h := asKind tReadReq h) rfl hd haddr h2 ha hb hr p [])
  rw [execReadReq, if_pos hrec, State.request_own (h := asKind tReadReq h) hoos hn hd ht
      (show tReadReq ≠ tGsig by decide) (show tReadReq ≠ tExport by decide),
    State.attempt_of_free hw hacc]

/-- The answer that such a read brings, and what stays (R479). -/
theorem readReq_answers_word {s t : State} {p a : Nat} {h : Hdr} (hp : 12 ≤ p) (hl : s.linked p = true)
    (ht : t = (s.afterRead a).respond p (asKind tReadReq h) tReadResp 1 (s.wordUnit a)) :
    s.answered t p h tReadResp 1 (s.wordUnit a) ∧ t.mem = s.mem ∧ t.gates = s.gates := by
  have hlink : (s.afterRead a).link = s.link := by rw [s.afterRead_frame a]
  have hlinked : (s.afterRead a).linked p = true := (State.linked_of_link hlink p).trans hl
  refine ⟨?_, ?_, ?_⟩
  · rw [ht]
    exact State.answered_of_link hlink (State.answered_respond hp hlinked (asKind tReadReq h) tReadResp 1 _)
  · rw [ht, State.respond_at_host hp hlinked, State.send, State.modPort_mem, s.afterRead_frame a]
  · rw [ht, State.respond_at_host hp hlinked, State.send, State.modPort_gates, s.afterRead_frame a]

/-- Settles O58: a write by the effect of its register, a read by the answer that it brings. -/
theorem registersAreWrittenAndRead : Obligations.RegistersAreWrittenAndRead := by
  refine ⟨fun s w hr hw => ⟨fun a b ha hb hv => ?_, fun a i ha hb hi => ?_, fun a ha hb => ?_,
    fun a hb => execRegisterWrite_of_no_block hb w s⟩, ?_⟩
  · show execRegisterWrite a w s = _
    rw [execRegisterWrite_of_block hr ha hb, State.writeBlock_idleHold (RegVal.hasLow_of_both hw), hv]
  · obtain ⟨htimeout, hlimit⟩ := Agent.setTimers_of_both hw (s.agent i)
    refine ⟨s.modAgent i fun x => x.setTimers w, ?_, ?_, ?_, s.onlyAgent_modAgent i _⟩
    · show execRegisterWrite a w s = _
      rw [execRegisterWrite_of_block hr ha hb, State.writeBlock_timers hi]
    · rw [State.modAgent_agent, htimeout]
    · rw [State.modAgent_agent, hlimit]
  · have hgo : exec (.registerWrite a w) s = .next (s.mboxGo w) := by
      show execRegisterWrite a w s = _
      rw [execRegisterWrite_of_block hr ha hb, State.writeBlock_mboxGo hw]
    refine ⟨fun hbusy => ?_, fun hc hre => ⟨s.mboxGo w, hgo, ?_⟩⟩
    · rw [hgo, State.mboxGo_of_busy hbusy]
    · rw [State.mboxGo_of_idle hc hre]
      exact ⟨rfl, rfl, rfl, rfl, rfl, rfl⟩
  · intro s p a h e hp hl hoos hn hd ht h1 h2 ha hc hb hr hw hq
    obtain ⟨hanswer, hmem, hgates⟩ := readReq_answers_word (a := a) (h := h) (by omega) hl rfl
    refine ⟨_, s.wordUnit a, execReadReq_of_word_read hp hl hoos hn hd ht h1 h2 ha hc hb hr hw hq, hanswer, fun k hk => ?_,
      fun k h8 hk => ?_, hmem, hgates⟩
    · rw [State.wordUnit_getElem? ha (by omega), if_pos hk]
    · rw [State.wordUnit_getElem? ha hk, if_neg (by omega)]

end Sys2Proof.Machine

/-! Numbers: the conversions into floating and into integer formats (R155, R164, R165, Table 04-4). -/
namespace Sys2Proof.Machine

/-- A magnitude put under a sign reads back as that sign and the magnitude's two fields (R155). -/
theorem fields_withSign {f : FloatFmt} {pat : Nat} (h : pat < 2 ^ (f.w + f.p)) (neg : Bool) :
    bit (withSign f neg pat) (f.w + f.p) = neg ∧ bits (withSign f neg pat) f.p f.w = pat / 2 ^ f.p
      ∧ bits (withSign f neg pat) 0 f.p = pat % 2 ^ f.p := by
  have he : pat / 2 ^ f.p < 2 ^ f.w := Nat.div_lt_of_lt_mul (by rwa [← Nat.pow_add, Nat.add_comm])
  cases neg with
  | false =>
    have hpat : withSign f false pat = pat := rfl
    refine ⟨?_, ?_, ?_⟩
    · rw [hpat, bit, Nat.shiftRight_eq_div_pow, Nat.div_eq_of_lt h]
      rfl
    · rw [hpat, bits, Nat.shiftRight_eq_div_pow, Nat.mod_eq_of_lt he]
    · rw [hpat, bits, Nat.shiftRight_zero]
  | true =>
    have hpat : withSign f true pat = 2 ^ (f.w + f.p) + pat := rfl
    refine ⟨?_, ?_, ?_⟩
    · rw [hpat, bit, Nat.shiftRight_eq_div_pow, Nat.add_div_left pat (Nat.two_pow_pos _), Nat.div_eq_of_lt h]
      rfl
    · rw [hpat, bits, Nat.shiftRight_eq_div_pow, Nat.pow_add, Nat.mul_comm, Nat.mul_add_div (Nat.two_pow_pos f.p), Nat.add_mod_left,
        Nat.mod_eq_of_lt he]
    · rw [hpat, bits, Nat.shiftRight_zero, Nat.pow_add, Nat.mul_add_mod_self_right]

/-- The largest finite magnitude leaves the sign bit free (Table 04-3). -/
theorem FloatFmt.maxPat_lt (f : FloatFmt) : f.maxPat < 2 ^ (f.w + f.p) := by
  have hpos : 0 < 2 ^ (f.w + f.p) := Nat.two_pow_pos _
  have hle : (2 ^ f.w - 1) * 2 ^ f.p ≤ 2 ^ (f.w + f.p) := Nat.pow_add 2 f.w f.p ▸ Nat.mul_le_mul_right _ (Nat.sub_le _ _)
  unfold FloatFmt.maxPat
  split <;> omega

/-- Up to the largest finite magnitude, a top exponent field is E4M3's, and its mantissa is not all ones (Table 04-2). -/
theorem top_field_of_le_maxPat {f : FloatFmt} (hw : 0 < f.w) {pat : Nat} (h : pat ≤ f.maxPat) (he : pat / 2 ^ f.p = 2 ^ f.w - 1) :
    f.topFinite = true ∧ pat % 2 ^ f.p ≠ 2 ^ f.p - 1 := by
  have hsplit : (2 ^ f.w - 1) * 2 ^ f.p + pat % 2 ^ f.p = pat := he ▸ Nat.div_add_mod' pat (2 ^ f.p)
  have hp : 0 < 2 ^ f.p := Nat.two_pow_pos _
  have hw2 : 2 ≤ 2 ^ f.w := Nat.le_self_pow (Nat.ne_of_gt hw) 2
  have hbase : 2 ^ f.p ≤ (2 ^ f.w - 1) * 2 ^ f.p := Nat.le_mul_of_pos_left _ (by omega)
  have hall : 2 ^ (f.w + f.p) = (2 ^ f.w - 1) * 2 ^ f.p + 2 ^ f.p := by
    rw [Nat.pow_add, Nat.sub_mul, Nat.one_mul, Nat.sub_add_cancel (Nat.le_mul_of_pos_left _ (by omega))]
  unfold FloatFmt.maxPat at h
  split at h
  · rename_i ht
    exact ⟨ht, by omega⟩
  · omega

/-- A pattern whose magnitude is at most the largest finite one denotes a finite value of its sign (R155, Table 04-3). -/
theorem decodeFloat_withSign_finite {f : FloatFmt} (hw : 0 < f.w) {pat : Nat} (h : pat ≤ f.maxPat) (neg : Bool) :
    ∃ num e, decodeFloat f (withSign f neg pat) = .fin neg num 1 e := by
  obtain ⟨hsign, hexp, hman⟩ := fields_withSign (Nat.lt_of_le_of_lt h f.maxPat_lt) neg
  have htop := top_field_of_le_maxPat hw h
  simp only [decodeFloat, hsign, hexp, hman]
  split
  · rename_i hspecial
    exact absurd (htop hspecial.1).1 hspecial.2
  split
  · rename_i hnan
    exact absurd hnan.2.2 (htop hnan.2.1).2
  split <;> exact ⟨_, _, rfl⟩

/-- What `packMag` packs is at most the largest finite magnitude. -/
theorem packMag_le {f : FloatFmt} {t pat : Nat} {q : Int} (h : packMag f t q = some pat) : pat ≤ f.maxPat := by
  simp only [packMag, Option.ite_none_right_eq_some, Option.some.injEq] at h
  exact h.2 ▸ h.1

/-- The conversion of a finite value: a magnitude no larger than the largest finite one under the value's sign, and that largest one
where it saturates (R165). -/
theorem convFloat_fin (f : FloatFmt) (mode : Rnd) (neg : Bool) (num den : Nat) (e : Int) :
    ∃ pat ≤ f.maxPat, ∃ sat, convFloat f mode (.fin neg num den e) = ⟨withSign f neg pat, sat⟩ ∧ (sat = true → pat = f.maxPat) := by
  simp only [convFloat]
  split
  · exact ⟨0, Nat.zero_le _, false, rfl, nofun⟩
  split
  · rename_i hpack
    exact ⟨_, packMag_le hpack, false, rfl, nofun⟩
  · exact ⟨_, Nat.le_refl _, true, rfl, fun _ => rfl⟩

/-- Saturation of an integer to a range, and the report that it lay outside (R165, Table 04-4). -/
theorem saturate_eq_clamp {lo hi : Int} (h : lo ≤ hi) (i : Int) :
    (if i < lo then (lo, true) else if hi < i then (hi, true) else (i, false)) = (max lo (min hi i), decide (i < lo ∨ hi < i)) := by
  split
  · rename_i hlo
    exact Prod.ext (by simp only; omega) (decide_eq_true (.inl hlo)).symm
  · rename_i hlo
    split
    · rename_i hhi
      exact Prod.ext (by simp only; omega) (decide_eq_true (.inr hhi)).symm
    · rename_i hhi
      exact Prod.ext (by simp only; omega) (decide_eq_false (not_or.mpr ⟨hlo, hhi⟩)).symm

/-- The conversion of a finite value into an integer format saturates some integer, the rounded value. -/
theorem convInt_fin {lo hi : Int} (h : lo ≤ hi) (mode : Rnd) (neg : Bool) (num den : Nat) (e : Int) :
    ∃ i, convInt lo hi mode (.fin neg num den e) = (max lo (min hi i), decide (i < lo ∨ hi < i)) :=
  ⟨_, saturate_eq_clamp h _⟩

/-- A whole value has no remainder in units of 1. -/
theorem scaleTo_whole (n : Nat) : scaleTo n 1 0 0 = (n, 0, 1) := by simp [scaleTo, Nat.mod_one]

/-- No mode moves a value without a remainder, a stochastic one's draw being of its own width (Table 04-5, R170). -/
theorem roundsUp_exact {mode : Rnd} (hdraw : ∀ n u, mode = .sr n u → u < 2 ^ n) (neg : Bool) (t : Nat) :
    roundsUp mode neg t 0 1 = false := by
  cases mode with
  | sr n u => simpa [roundsUp] using hdraw n u rfl
  | rne => simp [roundsUp]
  | rna => simp [roundsUp]
  | rtz => rfl
  | rup => simp [roundsUp]
  | rdn => simp [roundsUp]

/-- An integer is converted exactly, then saturated (R164 step 2, R165). -/
theorem convInt_ofInt {lo hi : Int} (h : lo ≤ hi) {mode : Rnd} (hdraw : ∀ n u, mode = .sr n u → u < 2 ^ n) (i : Int) :
    convInt lo hi mode (.ofInt i) = (max lo (min hi i), decide (i < lo ∨ hi < i)) := by
  have hsigned : (if i < 0 then -(i.natAbs : Int) else i.natAbs) = i := by split <;> omega
  simp only [convInt, Val.ofInt, scaleTo_whole, roundsUp_exact hdraw, Bool.false_eq_true, if_false, decide_eq_true_eq, hsigned]
  exact saturate_eq_clamp h i

/-- A conversion into an integer format stays in its range, and reports saturation at an end of it only (Table 04-4). -/
theorem convInt_range {lo hi : Int} (hlo : lo ≤ 0) (hhi : 0 ≤ hi) (mode : Rnd) (v : Val) :
    lo ≤ (convInt lo hi mode v).1 ∧ (convInt lo hi mode v).1 ≤ hi
      ∧ ((convInt lo hi mode v).2 = true → (convInt lo hi mode v).1 = lo ∨ (convInt lo hi mode v).1 = hi) := by
  cases v with
  | nan => exact ⟨hlo, hhi, nofun⟩
  | inf neg =>
    have hle : lo ≤ hi := Int.le_trans hlo hhi
    cases neg with
    | false => exact ⟨hle, Int.le_refl hi, nofun⟩
    | true => exact ⟨Int.le_refl lo, hle, nofun⟩
  | fin neg num den e =>
    obtain ⟨i, hconv⟩ := convInt_fin (Int.le_trans hlo hhi) mode neg num den e
    rw [hconv, decide_eq_true_eq]
    omega

/-- Settles O59: a converted finite value is a magnitude up to the largest finite one under its sign, and a rounded integer is clamped
to its range. -/
theorem conversionsSaturate : Obligations.ConversionsSaturate := by
  refine ⟨fun f hf mode => ⟨fun neg num den e => ?_, rfl, fun neg => rfl⟩, fun lo hi mode hlo hhi =>
    ⟨convInt_range hlo hhi mode, fun i hdraw => convInt_ofInt (Int.le_trans hlo hhi) hdraw i, rfl⟩⟩
  have hw : 0 < f.w := (by decide : ∀ f ∈ [fE4M3, fE5M2, fFP16, fBF16, fFP32, fER24, fER40], 0 < f.w) f hf
  obtain ⟨pat, hle, sat, hconv, hsat⟩ := convFloat_fin f mode neg num den e
  rw [hconv]
  exact ⟨decodeFloat_withSign_finite hw hle neg, fun h => by rw [hsat h]⟩

end Sys2Proof.Machine

/-! An array's fault (O24; R149, R152): what stops it outlives the end of its instructions. -/
namespace Sys2Proof.Machine

/-- What a fault leaves in an agent: its program's state, its fences in force, its fault record. -/
def Agent.stopRecord (a : Agent) : Prog × List FenceRun × Option FaultRec := (a.prog, a.fences, a.fault)

/-- Every agent of `t` has stopped, or not, as in `s`. -/
def State.sameStops (s t : State) : Prop := ∀ i, (t.agent i).stopRecord = (s.agent i).stopRecord

theorem State.sameStops.refl (s : State) : s.sameStops s := fun _ => rfl

theorem State.sameStops.trans {s t u : State} (h : s.sameStops t) (h' : t.sameStops u) : s.sameStops u :=
  fun i => (h' i).trans (h i)

theorem State.sameStops_of_agents {s t : State} (h : t.agents = s.agents) : s.sameStops t :=
  fun i => by rw [State.agent, State.agent, h]

theorem State.sameStops_foldl {α : Type} {f : State → α → State} (hf : ∀ (s : State) (e : α), s.sameStops (f s e)) (l : List α) (s : State) :
    s.sameStops (l.foldl f s) := by
  induction l generalizing s with
  | nil => exact .refl s
  | cons e l ih => exact (hf s e).trans (ih _)

theorem State.modAgent_sameStops {f : Agent → Agent} (hf : ∀ g, (f g).stopRecord = g.stopRecord) (s : State) (i : Nat) :
    s.sameStops (s.modAgent i f) := by
  intro j
  by_cases hj : j = i
  · rw [hj, State.modAgent_agent, hf]
  · rw [State.modAgent_agent_ne s hj]

theorem Agent.judge_stopRecord (now : Word64) (g : Nat) (old v : BitVec 32) (a : Agent) :
    (a.judge now g old v).stopRecord = a.stopRecord := by
  simp only [Agent.judge]
  split <;> rfl

theorem State.signalGate_sameStops (s : State) (g inc : Nat) : s.sameStops (s.signalGate g inc) := fun i => by
  rw [State.signalGate, State.setGateValue_agent, Agent.judge_stopRecord]

theorem State.queueSignal_sameStops (s : State) (i : Nat) (g : Signal) : s.sameStops (s.queueSignal i g) := by
  exact State.modAgent_sameStops (fun _ => by rfl) s i

theorem State.report_sameStops (s : State) (r : Report) (outcome : Nat) (queued : Bool) :
    s.sameStops (s.report r outcome queued) := by
  have hwritten : s.sameStops (if r.status = 0 ∨ (s.reportFault r).isSome then s
      else s.wrNat r.status 8 (outcome + r.handle * 256)) := by
    split <;> exact State.sameStops_of_agents rfl
  simp only [State.report]
  generalize (if r.status = 0 ∨ (s.reportFault r).isSome then s
    else s.wrNat r.status 8 (outcome + r.handle * 256)) = s1 at hwritten ⊢
  split
  · exact hwritten
  split
  · exact hwritten
  split
  · exact hwritten.trans (s1.queueSignal_sameStops _ _)
  · exact hwritten.trans (s1.signalGate_sameStops _ _)

theorem State.reports_sameStops (s : State) (outcome : Nat) (l : List Report) : s.sameStops (s.reports outcome l) :=
  State.sameStops_foldl (fun s r => s.report_sameStops r outcome false) l s

theorem State.pinsGone_sameStops (s : State) (i : Nat) : s.sameStops (s.pinsGone i) := by
  simp only [State.pinsGone]
  split
  · exact .refl s
  split
  · exact (State.sameStops_of_agents rfl).trans (State.reports_sameStops _ _ _)
  · exact (State.sameStops_of_agents rfl).trans (State.reports_sameStops _ _ _)
  · exact .refl s

theorem State.releasePins_sameStops (s : State) (l : List Nat) : s.sameStops (s.releasePins l) :=
  State.sameStops_foldl (fun s i => (State.sameStops_of_agents (State.modObj_agents s i _)).trans (State.pinsGone_sameStops _ _)) l s

theorem State.endFlight_agents (s : State) (f : Flight) : (s.endFlight f).agents = s.agents := by
  unfold State.endFlight
  split <;> rfl

theorem State.settlePins_sameStops (s : State) (a : Nat) : s.sameStops (s.settlePins a) :=
  (State.sameStops_of_agents (State.modArray_agents s a _)).trans (State.releasePins_sameStops _ _)

theorem State.abandonFlight_sameStops (a : Nat) (s : State) (f : Flight) : s.sameStops (s.abandonFlight a f) := by
  have hends (t : State) (l : List Nat) (h : s.sameStops t) : s.sameStops ((t.releasePins l).endFlight f) :=
    (h.trans (t.releasePins_sameStops l)).trans (State.sameStops_of_agents (State.endFlight_agents ..))
  unfold State.abandonFlight
  dsimp only
  split
  · split
    · exact .refl s
    · exact hends s _ (.refl s)
  · split
    · exact hends _ _ (State.sameStops_of_agents (State.modMover_agents ..))
    · exact .refl s

theorem State.dropFlights_sameStops (s : State) (a place : Nat) : s.sameStops (s.dropFlights a place) :=
  ((State.sameStops_of_agents (State.modArray_agents s a _)).trans
    (State.sameStops_foldl (State.abandonFlight_sameStops a) _ _)).trans (State.settlePins_sameStops _ _)

theorem State.dropWindow_agents (s : State) (a : Nat) : (s.dropWindow a).agents = s.agents := by
  unfold State.dropWindow
  split <;> rfl

theorem State.settleArray_sameStops (s : State) (a : Nat) : s.sameStops (s.settleArray a) := by
  unfold State.settleArray
  split
  · exact .refl s
  split
  · exact State.modAgent_sameStops (fun _ => by rfl) s a
  · exact (State.sameStops_of_agents (s.dropWindow_agents a)).trans (State.modAgent_sameStops (fun _ => by rfl) _ a)

/-- An agent that has stopped with a fault stays so while no agent's record changes. -/
theorem State.faulted.of_sameStops {s t u : State} {i : Nat} {e : FaultInfo} (h : s.faulted t i e) (hu : t.sameStops u) :
    s.faulted u i e := by
  obtain ⟨hprog, hfences, hfault⟩ := Prod.ext_iff.mp (hu i) |>.imp id Prod.ext_iff.mp
  simp only [Agent.stopRecord] at hprog hfences hfault
  simpa only [State.faulted, hprog, hfences, hfault] using h

/-- The fault is recorded and the agent stops (R149, R152). -/
theorem State.faulted_stop (s : State) (i : Nat) (e : FaultInfo) (op addr lastTile tileCount place : Nat) :
    s.faulted ((s.recordFault i e op addr lastTile tileCount).modAgent i (Agent.stop s.sundial place)) i e := by
  have hlogged (code source kind d0 d1 d2 : Nat) (multi : Bool) :
      (s.logRecord code source kind multi addr lastTile d0 d1 d2).agent i = s.agent i := rfl
  simp only [State.faulted, State.modAgent_agent, State.recordFault, Agent.stop, hlogged, true_and]
  cases (s.agent i).fault with
  | some r => rfl
  | none => exact ⟨_, rfl, rfl, rfl, rfl, rfl, rfl⟩

theorem State.faulted_faultArray (s : State) (a : Nat) (e : FaultInfo) (op addr place lastTile tileCount : Nat) :
    s.faulted (s.faultArray a e op addr place lastTile tileCount) a e :=
  ((s.faulted_stop a e op addr lastTile tileCount place).of_sameStops (State.dropFlights_sameStops _ _ _)).of_sameStops
    (State.settleArray_sameStops _ _)

end Sys2Proof.Machine

/-! The next row of a unit of an array completes (O24; R203, R209, R184 to R192). -/
namespace Sys2Proof.Machine

/-! What a row's step does within its array -/

/-- A flight's place with the rows that each unit has completed. -/
def Flight.tally (f : Flight) : Nat × (TUnit → Nat) := (f.place, f.done)

/-- `t` is `s` but for array `a`, which has the same Trellis window and whose flights have completed the same rows. -/
def State.withinArray (s t : State) (a : Nat) : Prop :=
  (t.array a).flights.map (·.tally) = (s.array a).flights.map (·.tally) ∧ (t.array a).window = (s.array a).window
    ∧ (∀ b, b ≠ a → t.array b = s.array b) ∧ t = { s with arrays := t.arrays }

theorem State.withinArray.refl (s : State) (a : Nat) : s.withinArray s a := ⟨rfl, rfl, fun _ _ => rfl, rfl⟩

theorem State.withinArray.trans {s t u : State} {a : Nat} (h : s.withinArray t a) (h' : t.withinArray u a) : s.withinArray u a := by
  obtain ⟨hflights, hwindow, hother, hframe⟩ := h
  obtain ⟨hflights', hwindow', hother', hframe'⟩ := h'
  exact ⟨hflights'.trans hflights, hwindow'.trans hwindow, fun b hb => (hother' b hb).trans (hother b hb),
    hframe'.trans (by rw [hframe])⟩

theorem State.withinArray.fields {s t : State} {a : Nat} (h : s.withinArray t a) :
    t.mem = s.mem ∧ t.free = s.free ∧ t.agents = s.agents ∧ t.sundial = s.sundial := by
  obtain ⟨-, -, -, hframe⟩ := h
  rw [hframe]
  exact ⟨rfl, rfl, rfl, rfl⟩

theorem State.withinArray.mem {s t : State} {a : Nat} (h : s.withinArray t a) : t.mem = s.mem := h.fields.1

/-- It holds as well with one other memory, and other free values, in both states. -/
theorem State.withinArray.with_mem {s t : State} {a : Nat} (h : s.withinArray t a) (m : Mem) (n : Nat) :
    ({ s with mem := m, free := n } : State).withinArray { t with mem := m, free := n } a := by
  obtain ⟨hflights, hwindow, hother, hframe⟩ := h
  refine ⟨hflights, hwindow, hother, ?_⟩
  rw [hframe]

theorem State.modArray_withinArray {s : State} {a : Nat} {φ : ArrayState → ArrayState}
    (h : (φ (s.array a)).flights = (s.array a).flights) (hw : (φ (s.array a)).window = (s.array a).window) :
    s.withinArray (s.modArray a φ) a :=
  ⟨by rw [State.modArray_array, h], by rw [State.modArray_array, hw], fun _ hb => s.modArray_array_ne hb φ, rfl⟩

theorem State.modFlight_array (s : State) (a place : Nat) (g : Flight → Flight) : (s.modFlight a place g).array a =
    { s.array a with flights := (s.array a).flights.map fun f => if f.place = place then g f else f } :=
  State.modArray_array ..

theorem State.modFlight_withinArray {g : Flight → Flight} (h : ∀ f, (g f).tally = f.tally) (s : State) (a place : Nat) :
    s.withinArray (s.modFlight a place g) a := by
  refine ⟨?_, by rw [State.modFlight_array], fun _ hb => s.modArray_array_ne hb _, rfl⟩
  rw [State.modFlight_array, List.map_map]
  refine List.map_congr_left fun f _ => ?_
  simp only [Function.comp_apply]
  split
  · exact h f
  · rfl

/-! The count of a completed row, and what follows it -/

/-- One more row of unit `u` of a flight is complete. -/
def Flight.countRow (u : TUnit) (f : Flight) : Flight :=
  match u with
  | .copy => { f with copyDone := f.copyDone + 1 }
  | .compute => { f with computeDone := f.computeDone + 1 }
  | .store => { f with storeDone := f.storeDone + 1 }

theorem Flight.done_countRow (u : TUnit) (f : Flight) : (f.countRow u).done u = f.done u + 1 := by
  cases u <;> rfl

/-- A row of unit `u` of the flight at `place` counts, which is progress of array `a` (R419). -/
def State.countRow (s : State) (a place : Nat) (u : TUnit) : State := (s.modFlight a place (Flight.countRow u)).progress a

theorem State.countRow_array (s : State) (a place : Nat) (u : TUnit) : (s.countRow a place u).array a =
    { s.array a with flights := (s.array a).flights.map fun f => if f.place = place then f.countRow u else f } :=
  s.modFlight_array a place _

/-- From `s` to `t` a row of unit `u` of the flight at `place` has counted; else only array `a`, memory and free values have
changed. -/
def State.rowCounted (s t : State) (a place : Nat) (u : TUnit) : Prop :=
  (t.array a).flights.map (·.done u) = (s.array a).flights.map (fun f => f.done u + if f.place = place then 1 else 0)
    ∧ (t.agent a).lastProgress = s.sundial ∧ (∀ b, b ≠ a → t.array b = s.array b) ∧ (∀ i, i ≠ a → t.agent i = s.agent i)
    ∧ t = { s with agents := t.agents, arrays := t.arrays, mem := t.mem, free := t.free }

theorem Flight.map_done_countRow (l : List Flight) (place : Nat) (u : TUnit) :
    (l.map fun f => if f.place = place then f.countRow u else f).map (·.done u)
      = l.map fun f => f.done u + if f.place = place then 1 else 0 := by
  rw [List.map_map]
  refine List.map_congr_left fun f _ => ?_
  simp only [Function.comp_apply]
  split
  · exact f.done_countRow u
  · rfl

/-- Flights that have completed the same rows have them counted alike. -/
theorem Flight.map_of_tally {α : Type} {l l' : List Flight} (h : l'.map (·.tally) = l.map (·.tally)) (φ : Nat × (TUnit → Nat) → α) :
    (l'.map fun f => φ f.tally) = l.map fun f => φ f.tally := by
  simpa only [List.map_map, Function.comp_def] using congrArg (List.map φ) h

/-- The row counts, whatever is done in the array before and after that leaves its flights' counts alone. -/
theorem State.rowCounted_of_withinArray {s s' t : State} {a place : Nat} {u : TUnit} (hbefore : s.withinArray s' a)
    (hafter : (s'.countRow a place u).withinArray t a) : s.rowCounted t a place u := by
  obtain ⟨-, -, hagents, hsundial⟩ := hbefore.fields
  obtain ⟨-, -, hagents', -⟩ := hafter.fields
  obtain ⟨htally, -, hother, hframe⟩ := hbefore
  obtain ⟨htally', -, hother', hframe'⟩ := hafter
  have hagent (i : Nat) : t.agent i = ((s'.modFlight a place (Flight.countRow u)).progress a).agent i := by
    rw [State.agent, hagents']; rfl
  have hsame (i : Nat) : (s'.modFlight a place (Flight.countRow u)).agent i = s.agent i := by
    rw [State.agent, State.modFlight, State.modArray_agents, hagents]; rfl
  refine ⟨?_, ?_, fun b hb => ?_, fun i hi => ?_, ?_⟩
  · calc (t.array a).flights.map (·.done u)
        = ((s'.countRow a place u).array a).flights.map (·.done u) := Flight.map_of_tally htally' (·.2 u)
      _ = (s'.array a).flights.map (fun f => f.done u + if f.place = place then 1 else 0) := by
          rw [State.countRow_array]
          exact Flight.map_done_countRow ..
      _ = (s.array a).flights.map (fun f => f.done u + if f.place = place then 1 else 0) :=
          Flight.map_of_tally htally fun q => q.2 u + if q.1 = place then 1 else 0
  · rw [hagent, State.progress, State.modAgent_agent]
    exact hsundial
  · rw [hother' b hb, ← hother b hb]
    exact s'.modArray_array_ne hb fun x =>
      { x with flights := x.flights.map fun f => if f.place = place then f.countRow u else f }
  · rw [hagent, State.progress, State.modAgent_agent_ne _ hi, hsame]
  · rw [hframe', State.countRow, State.progress, State.modFlight, hframe]
    rfl

/-- Memory and free values may have changed before. -/
theorem State.rowCounted_of_mem {s t : State} {m : Mem} {n a place : Nat} {u : TUnit}
    (h : State.rowCounted { s with mem := m, free := n } t a place u) : s.rowCounted t a place u := h

/-- The next row's weights go into the shadow registers only (R186). -/
theorem State.loadShadow_array (s : State) (a : Nat) : ∃ w, (s.loadShadow a).array a = { s.array a with shadow := w } := by
  unfold State.loadShadow
  split
  · split
    · split
      · exact ⟨_, State.modArray_array ..⟩
      · exact ⟨_, rfl⟩
    · exact ⟨_, rfl⟩
  · exact ⟨_, rfl⟩

theorem State.loadShadow_withinArray (s : State) (a : Nat) : s.withinArray (s.loadShadow a) a := by
  unfold State.loadShadow
  split
  · split
    · split
      · exact State.modArray_withinArray rfl rfl
      · exact .refl s a
    · exact .refl s a
  · exact .refl s a

/-- A pause that begins at a row boundary changes the pause only (R410). -/
theorem State.rowBoundary_array (s : State) (a : Nat) :
    ∃ p q t, (s.rowBoundary a).array a = { s.array a with pausing := p, paused := q, pausedAt := t } := by
  rw [State.rowBoundary, State.modArray_array]
  split
  · exact ⟨_, _, _, rfl⟩
  · exact ⟨_, _, _, rfl⟩

theorem State.rowBoundary_withinArray (s : State) (a : Nat) : s.withinArray (s.rowBoundary a) a :=
  State.modArray_withinArray (by split <;> rfl) (by split <;> rfl)

/-- What a compute row's end leaves of its array's tile: the accumulators, the store buffer and the active weights. -/
theorem State.computeRowEnd_array (s : State) (a place : Nat) :
    let t := ((s.countRow a place .compute).loadShadow a).rowBoundary a
    (t.array a).accs = (s.array a).accs ∧ (t.array a).buffer = (s.array a).buffer ∧ (t.array a).active = (s.array a).active := by
  obtain ⟨w, hshadow⟩ := (s.countRow a place .compute).loadShadow_array a
  obtain ⟨p, q, n, hpause⟩ := ((s.countRow a place .compute).loadShadow a).rowBoundary_array a
  simp only [hpause, hshadow, State.countRow_array, and_self]

/-! The output path -/

/-- `y` is `x` but for its streams of random words (R313 to R317). -/
def ArrayState.sameButStreams (x y : ArrayState) : Prop :=
  y = { x with lanes := y.lanes, lkLive := y.lkLive, lkPoly := y.lkPoly, keyBase := y.keyBase, unseeded := y.unseeded,
               zeroReplaced := y.zeroReplaced }

theorem ArrayState.sameButStreams.trans {x y z : ArrayState} (h : x.sameButStreams y) (h' : y.sameButStreams z) :
    x.sameButStreams z := Eq.trans h' (by rw [h])

theorem ArrayState.sameButStreams.fields {x y : ArrayState} (h : x.sameButStreams y) :
    y.flights = x.flights ∧ y.window = x.window ∧ y.buffer = x.buffer := by
  rw [h]
  exact ⟨rfl, rfl, rfl⟩

theorem ArrayState.useStream_sameButStreams (x : ArrayState) (a : Nat) (lk : Bool) : x.sameButStreams (x.useStream a lk) := by
  unfold ArrayState.useStream
  repeat' split
  all_goals rfl

/-- Seeding changes streams only (R313, R317). -/
theorem Flight.seedStreams_sameButStreams (f : Flight) (a : Nat) (x : ArrayState) : x.sameButStreams (f.seedStreams a x) := by
  have hlanes : x.sameButStreams (if f.usesCode 5 then x.useStream a true else x) := by
    split
    · exact x.useStream_sameButStreams a true
    · rfl
  simp only [Flight.seedStreams]
  split
  · exact hlanes.trans (ArrayState.useStream_sameButStreams _ a false)
  · exact hlanes

theorem State.lanesAfter_sameButStreams (s : State) (f : Flight) (x : ArrayState) (n d : Nat) :
    x.sameButStreams (s.lanesAfter f x n d) := by
  unfold State.lanesAfter ArrayState.advance
  repeat' split
  all_goals rfl

theorem State.convfLanes_sameButStreams (s : State) (f : Flight) (x : ArrayState) (tile : Nat) :
    x.sameButStreams (s.convfLanes f x tile) := by
  unfold State.convfLanes
  repeat' split
  all_goals rfl

/-- A tile's draws change streams only (R315, R316). -/
theorem State.tileDraws_sameButStreams (s : State) (f : Flight) (x : ArrayState) (r : TRow) :
    x.sameButStreams (s.tileDraws f x r).1 := by
  simp only [State.tileDraws]
  split
  · exact s.convfLanes_sameButStreams f x r.tile
  · exact s.lanesAfter_sameButStreams f x _ _

theorem State.endTile_withinArray (s : State) (a : Nat) (f : Flight) (r : TRow) (accs : TileAccs) :
    s.withinArray (s.endTile a f r accs) a := by
  obtain ⟨hflights, hwindow, -⟩ := ((f.seedStreams_sameButStreams a (s.array a)).trans
    (s.tileDraws_sameButStreams (f.atLanes (f.seedStreams a (s.array a))) _ r)).fields
  exact (State.modArray_withinArray hflights hwindow).trans (State.modFlight_withinArray (fun _ => by rfl) _ a f.place)

/-- The tile enters the store buffer, and the accumulators are free for the next (R184, R191). -/
theorem State.endTile_buffer (s : State) (a : Nat) (f : Flight) (r : TRow) (accs : TileAccs) :
    ((s.endTile a f r accs).array a).accs = [] ∧
      ∃ b, ((s.endTile a f r accs).array a).buffer = (s.array a).buffer ++ [b] ∧ b.place = f.place ∧ b.tile = r.tile := by
  obtain ⟨-, -, hbuffer⟩ := (f.seedStreams_sameButStreams a (s.array a)).fields
  rw [State.endTile, State.modFlight_array, State.modArray_array]
  exact ⟨rfl, _, congrArg (· ++ _) hbuffer, rfl, rfl⟩

/-! What bytes and weights read as -/

section
variable {s t : State}

theorem State.rdElem_of_rdByte (h : t.rdByte = s.rdByte) : t.rdElem = s.rdElem := by
  funext o i0 i1 i2 i3
  simp only [State.rdElem, State.rdNat, State.rdBytes, h]

theorem State.convWeights_of_rdByte (h : t.rdByte = s.rdByte) : t.convWeights = s.convWeights := by
  funext w p k ns
  simp only [State.convWeights, State.weightAt, State.rdElem_of_rdByte h]

theorem State.feedB_of_rdByte (h : t.rdByte = s.rdByte) : t.feedB = s.feedB := by
  funext f ks n
  simp only [State.feedB, State.intParts, State.bParts, State.rdElem_of_rdByte h]

/-- A row's weight tiles come from what bytes read as alone (log 6). -/
theorem State.lastWeights_of_rdByte (h : t.rdByte = s.rdByte) : t.lastWeights = s.lastWeights := by
  funext f r
  simp only [State.lastWeights, State.layerWeights, State.weightTile, State.convWeights_of_rdByte h, State.feedB_of_rdByte h]

/-- A row's step in its array leaves what every byte reads as. -/
theorem State.withinArray.rdByte {a : Nat} (h : s.withinArray t a) : t.rdByte = s.rdByte := by
  obtain ⟨hmem, hfree, -⟩ := h.fields
  obtain ⟨-, hwindow, hother, -⟩ := h
  have hwindows (b : Nat) : (t.array b).window = (s.array b).window := by
    by_cases hb : b = a
    · rw [hb, hwindow]
    · rw [hother b hb]
  funext b
  have hwindowed : t.windowed b = s.windowed b := by simp only [State.windowed, hwindows]
  rw [State.rdByte, State.rdByte, hwindowed, hmem, hfree]

end

/-! A compute row on the cells -/

theorem State.turnWeights_withinArray (s : State) (a : Nat) (f : Flight) (r : TRow) : s.withinArray (s.turnWeights a f r) a :=
  State.modArray_withinArray rfl rfl

/-- Joining row values to a flight, within its array. -/
theorem State.joinRows_withinArray (s : State) (a place : Nat) (l : List (Nat × RowAcc)) :
    s.withinArray (s.modFlight a place fun g => { g with rows := joinRows g.rows l }) a :=
  State.modFlight_withinArray (fun _ => by rfl) s a place

/-- The sums of compute row `r` as it completes, by its opcode. -/
def State.rowSum (s : State) (a : Nat) (f : Flight) (r : TRow) : TileAccs × List (Nat × RowAcc) :=
  let x := f.seedStreams a (s.array a)
  if f.code = opConv then s.convSum x f r else s.matSum x f r

/-- The state with the row's sums in the accumulators and its status values with its flight. -/
def State.summed (s : State) (a : Nat) (f : Flight) (r : TRow) : State :=
  (s.modArray a fun _ => { f.seedStreams a (s.array a) with accs := (s.rowSum a f r).1 }).modFlight a f.place
    fun g => { g with rows := joinRows g.rows (s.rowSum a f r).2 }

theorem State.summed_withinArray (s : State) (a : Nat) (f : Flight) (r : TRow) : s.withinArray (s.summed a f r) a := by
  obtain ⟨hflights, hwindow, -⟩ := (f.seedStreams_sameButStreams a (s.array a)).fields
  refine State.withinArray.trans (State.modArray_withinArray ?_ ?_) (State.joinRows_withinArray _ a f.place _)
  · exact hflights
  · exact hwindow

theorem State.summed_array (s : State) (a : Nat) (f : Flight) (r : TRow) :
    ((s.summed a f r).array a).accs = (s.rowSum a f r).1 ∧ ((s.summed a f r).array a).buffer = (s.array a).buffer := by
  obtain ⟨-, -, hbuffer⟩ := (f.seedStreams_sameButStreams a (s.array a)).fields
  rw [State.summed, State.modFlight_array, State.modArray_array]
  exact ⟨rfl, hbuffer⟩

/-- A row that is not of the last reduction tile leaves its sums (R191). -/
theorem State.computeTile_of_more {f : Flight} {r : TRow} (h : (f.grid.stepAt r.step).k2 + 1 < f.grid.nk) (s : State) (a : Nat) :
    s.computeTile a f r = s.summed a f r := if_pos h

/-- One of the last reduction tile, of a pass that stores, gives its tile (R184, R192). -/
theorem State.computeTile_of_last {f : Flight} {r : TRow} (h : f.grid.nk ≤ (f.grid.stepAt r.step).k2 + 1)
    (hs : (f.grid.stepAt r.step).stores = true) (s : State) (a : Nat) :
    s.computeTile a f r = (s.summed a f r).endTile a { f with rows := joinRows f.rows (s.rowSum a f r).2 } r (s.rowSum a f r).1 :=
  (if_neg (Nat.not_lt.mpr h)).trans (if_pos hs)

theorem State.computeTile_withinArray (s : State) (a : Nat) (f : Flight) (r : TRow) : s.withinArray (s.computeTile a f r) a := by
  have hsummed := s.summed_withinArray a f r
  show s.withinArray (if _ then s.summed a f r else if _ then (s.summed a f r).endTile a _ r _ else (s.summed a f r).modFlight a _ _) a
  split
  · exact hsummed
  split
  · exact hsummed.trans (State.endTile_withinArray ..)
  · exact hsummed.trans (State.joinRows_withinArray ..)

/-- What a compute row but of kind 15 does before it counts: a layer of a CONVF gives its tile with the last (R304), any other row
sums. -/
def State.rowTile (s : State) (a : Nat) (f : Flight) (r : TRow) : State :=
  if r.kind = 8 then if r.part + 1 = f.layers.length then s.endTile a f r [] else s else s.computeTile a f r

theorem State.rowTile_withinArray (s : State) (a : Nat) (f : Flight) (r : TRow) : s.withinArray (s.rowTile a f r) a := by
  unfold State.rowTile
  split
  · split
    · exact s.endTile_withinArray a f r []
    · exact .refl s a
  · exact s.computeTile_withinArray a f r

theorem State.rowTile_sums {f : Flight} {r : TRow} (h8 : r.kind ≠ 8) (h : (f.grid.stepAt r.step).k2 + 1 < f.grid.nk) (s : State)
    (a : Nat) : ((s.rowTile a f r).array a).accs = (s.rowSum a f r).1 ∧ ((s.rowTile a f r).array a).buffer = (s.array a).buffer := by
  rw [State.rowTile, if_neg h8, State.computeTile_of_more h]
  exact s.summed_array a f r

/-- The row ends its output tile: the last layer of a CONVF, or the last reduction tile of a pass that stores. -/
def Flight.endsTile (f : Flight) (r : TRow) : Prop :=
  if r.kind = 8 then r.part + 1 = f.layers.length
  else f.grid.nk ≤ (f.grid.stepAt r.step).k2 + 1 ∧ (f.grid.stepAt r.step).stores = true

theorem State.rowTile_buffer {f : Flight} {r : TRow} (h : f.endsTile r) (s : State) (a : Nat) :
    ((s.rowTile a f r).array a).accs = [] ∧
      ∃ b, ((s.rowTile a f r).array a).buffer = (s.array a).buffer ++ [b] ∧ b.place = f.place ∧ b.tile = r.tile := by
  unfold State.rowTile
  by_cases h8 : r.kind = 8
  · rw [Flight.endsTile, if_pos h8] at h
    rw [if_pos h8, if_pos h]
    exact s.endTile_buffer a f r []
  · rw [Flight.endsTile, if_neg h8] at h
    obtain ⟨hlast, hstores⟩ := h
    obtain ⟨-, hbuffer⟩ := s.summed_array a f r
    rw [if_neg h8, State.computeTile_of_last hlast hstores, ← hbuffer]
    exact (s.summed a f r).endTile_buffer a { f with rows := joinRows f.rows (s.rowSum a f r).2 } r (s.rowSum a f r).1

/-! A store row -/

theorem State.putBytes_of_held {s : State} {w : List (Nat × Byte)} (h : s.heldRuns (w.map fun e => (e.1, 1)) = true)
    (marks : List Nat) : s.putBytes w marks = none := by simp [State.putBytes, h]

/-- Bytes off the session command port are written (R258). -/
theorem State.putBytes_of_free {s : State} {w : List (Nat × Byte)} (h : s.heldRuns (w.map fun e => (e.1, 1)) = false)
    (hw : ∀ e ∈ w, regionOf e.1 ≠ .control) : s.putBytes w [] = some (s.wr w) := by
  have hport : (w.filter fun e => decide (regionOf e.1 = .control)) = [] := by
    simpa only [List.filter_eq_nil_iff, decide_eq_true_eq] using hw
  simp only [State.putBytes, h, hport, Bool.false_eq_true, if_false, if_true]
  rfl

theorem ArrayState.formRows_keeps (x : ArrayState) (l : List Nat) :
    (x.formRows l).flights = x.flights ∧ (x.formRows l).window = x.window := by
  unfold ArrayState.formRows
  induction l generalizing x with
  | nil => exact ⟨rfl, rfl⟩
  | cons w l ih =>
    obtain ⟨hflights, hwindow⟩ := ih (x.formRow w)
    rw [List.foldl_cons, hflights, hwindow, ArrayState.formRow]
    split <;> exact ⟨rfl, rfl⟩

/-- The state with the bytes of the row's tile written. -/
def State.tileWritten (s : State) (a : Nat) (f : Flight) (r : TRow) : State :=
  { s with mem := s.mem.write (s.tileBytes a f r), free := s.free + 1 }

theorem State.storeTile_of_held {s : State} {a : Nat} {f : Flight} {r : TRow}
    (h : s.heldRuns ((s.tileBytes a f r).map fun e => (e.1, 1)) = true) : s.storeTile a f r = none := by
  simp only [State.storeTile, State.putBytes_of_held h, Option.map_none]

/-- The tile leaves the store buffer, and the rows that it completes have their status words formed (R198, R231). -/
def State.closeTile (s : State) (a : Nat) (f : Flight) (r : TRow) : State :=
  let c := f.closeRows r f.rows
  (s.modArray a fun y => { (y.formRows c.2.1) with buffer := y.buffer.filter fun b => !TileBuf.holds f r b }).modFlight a f.place
    fun g => { g with tile := r.tile + 1, rows := c.2.2 }

theorem State.storeTile_of_free {s : State} {a : Nat} {f : Flight} {r : TRow}
    (h : s.heldRuns ((s.tileBytes a f r).map fun e => (e.1, 1)) = false) (hw : ∀ e ∈ s.tileBytes a f r, regionOf e.1 ≠ .control) :
    s.storeTile a f r = some ((s.tileWritten a f r).closeTile a f r) := by
  rw [State.storeTile, State.putBytes_of_free h hw]
  rfl

theorem State.closeTile_withinArray (s : State) (a : Nat) (f : Flight) (r : TRow) : s.withinArray (s.closeTile a f r) a := by
  obtain ⟨hflights, hwindow⟩ := (s.array a).formRows_keeps (f.closeRows r f.rows).2.1
  refine State.withinArray.trans (State.modArray_withinArray ?_ ?_) (State.modFlight_withinArray (fun _ => by rfl) _ a f.place)
  · exact hflights
  · exact hwindow

theorem State.closeTile_buffer (s : State) (a : Nat) (f : Flight) (r : TRow) :
    ((s.closeTile a f r).array a).buffer = (s.array a).buffer.filter fun b => !TileBuf.holds f r b := by
  rw [State.closeTile, State.modFlight_array, State.modArray_array]

/-! The row's completion -/

section
variable {s : State} {a : Nat} {f : Flight} {r : TRow}

theorem exec_trellisRow_of_some {u : TUnit} {t : State} (hrun : s.agentsRun = true) (ha : a < 192) (hn : s.nextRow a u = some (f, r))
    (hc : s.completeRow a u f r = some t) :
    exec (.trellisRowComplete a u) s = .next (if u = .compute then t.rowBoundary a else t) := by
  show execTrellisRowComplete a u s = _
  simp [execTrellisRowComplete, hrun, ha, hn, hc]

theorem exec_trellisRow_of_none {u : TUnit} (hrun : s.agentsRun = true) (ha : a < 192) (hn : s.nextRow a u = some (f, r))
    (hc : s.completeRow a u f r = none) : exec (.trellisRowComplete a u) s = .next s := by
  show execTrellisRowComplete a u s = _
  simp [execTrellisRowComplete, hrun, ha, hn, hc]

theorem State.completeRow_copy : s.completeRow a .copy f r =
    if s.heldRuns (f.copyRuns r) then none else some ((s.countRow a f.place .copy).loadShadow a) := rfl

theorem State.completeRow_store : s.completeRow a .store f r = (s.storeTile a f r).map (·.countRow a f.place .store) := rfl

theorem State.completeRow_of_fault {e : FaultInfo} (h : s.rowFault f r = some e) :
    s.completeRow a .compute f r = some (s.faultFlight a f e) := by
  simp only [State.completeRow, h]

theorem State.completeRow_of_cells (h : s.rowFault f r = none) (h15 : r.kind ≠ 15) : s.completeRow a .compute f r =
    some ((((s.rowTile a f r).turnWeights a f r).countRow a f.place .compute).loadShadow a) := by
  simp only [State.completeRow, h, if_neg h15, State.rowTile]
  split <;> rfl

theorem State.completeRow_of_vector (h : s.rowFault f r = none) (h15 : r.kind = 15) : s.completeRow a .compute f r =
    ((((s.endTile a f r []).array a).flights.find? fun g => decide (g.place = f.place)).bind fun g =>
      (s.endTile a f r []).storeTile a g r).map (·.countRow a f.place .compute) := by
  simp only [State.completeRow, h, if_pos h15]
  rfl

/-- A copy row counts (R203). -/
theorem copyRow_counts (hrun : s.agentsRun = true) (ha : a < 192) (hn : s.nextRow a .copy = some (f, r))
    (hfree : s.heldRuns (f.copyRuns r) = false) :
    ∃ t, exec (.trellisRowComplete a .copy) s = .next t ∧ s.rowCounted t a f.place .copy ∧ t.mem = s.mem := by
  have hafter := (s.countRow a f.place .copy).loadShadow_withinArray a
  have hc : s.completeRow a .copy f r = some ((s.countRow a f.place .copy).loadShadow a) := by
    rw [State.completeRow_copy, hfree]
    rfl
  exact ⟨_, exec_trellisRow_of_some hrun ha hn hc, State.rowCounted_of_withinArray (.refl s a) hafter, hafter.mem⟩

/-- A compute row's fault stops the array (R149). -/
theorem computeRow_faults {e : FaultInfo} (hrun : s.agentsRun = true) (ha : a < 192) (hn : s.nextRow a .compute = some (f, r))
    (he : s.rowFault f r = some e) : ∃ t, exec (.trellisRowComplete a .compute) s = .next t ∧ s.faulted t a e :=
  ⟨_, exec_trellisRow_of_some hrun ha hn (State.completeRow_of_fault he),
    (s.faulted_faultArray a e f.code f.addr f.place f.lastTile f.tileCount).of_sameStops
      (State.sameStops_of_agents (State.modArray_agents _ a _))⟩

/-- The state after a compute row but of kind 15. -/
def State.cellsRowDone (s : State) (a : Nat) (f : Flight) (r : TRow) : State :=
  ((((s.rowTile a f r).turnWeights a f r).countRow a f.place .compute).loadShadow a).rowBoundary a

theorem exec_cellsRow (hrun : s.agentsRun = true) (ha : a < 192) (hn : s.nextRow a .compute = some (f, r))
    (hfault : s.rowFault f r = none) (h15 : r.kind ≠ 15) :
    exec (.trellisRowComplete a .compute) s = .next (s.cellsRowDone a f r) :=
  exec_trellisRow_of_some hrun ha hn (State.completeRow_of_cells hfault h15)

theorem State.cellsRowDone_counted (s : State) (a : Nat) (f : Flight) (r : TRow) :
    s.rowCounted (s.cellsRowDone a f r) a f.place .compute ∧ (s.cellsRowDone a f r).mem = s.mem := by
  have hbefore := (s.rowTile_withinArray a f r).trans (State.turnWeights_withinArray _ a f r)
  have hafter := (State.loadShadow_withinArray (((s.rowTile a f r).turnWeights a f r).countRow a f.place .compute) a).trans
    (State.rowBoundary_withinArray _ a)
  exact ⟨State.rowCounted_of_withinArray hbefore hafter, hafter.mem.trans hbefore.mem⟩

/-- The row's tile stays as it was left, with the row's last weights active (R186). -/
theorem State.cellsRowDone_array (s : State) (a : Nat) (f : Flight) (r : TRow) :
    ((s.cellsRowDone a f r).array a).accs = ((s.rowTile a f r).array a).accs
      ∧ ((s.cellsRowDone a f r).array a).buffer = ((s.rowTile a f r).array a).buffer
      ∧ ((s.cellsRowDone a f r).array a).active = s.lastWeights f r := by
  obtain ⟨haccs, hbuffer, hactive⟩ := ((s.rowTile a f r).turnWeights a f r).computeRowEnd_array a f.place
  have hturn : ((s.rowTile a f r).turnWeights a f r).array a = { (s.rowTile a f r).array a with
      active := (s.rowTile a f r).lastWeights f r, shadow := ((s.rowTile a f r).array a).active } := State.modArray_array ..
  rw [State.lastWeights_of_rdByte (s.rowTile_withinArray a f r).rdByte] at hturn
  rw [hturn] at haccs hbuffer hactive
  exact ⟨haccs, hbuffer, hactive⟩

/-- A row of a CONV on the vector engine counts, and stores its tile as it computes (kind 15). -/
theorem vectorRow_stores {g : Flight} (hrun : s.agentsRun = true) (ha : a < 192) (hn : s.nextRow a .compute = some (f, r))
    (hfault : s.rowFault f r = none) (h15 : r.kind = 15)
    (hg : ((s.endTile a f r []).array a).flights.find? (fun h => decide (h.place = f.place)) = some g)
    (hfree : s.heldRuns (((s.endTile a f r []).tileBytes a g r).map fun e => (e.1, 1)) = false)
    (hw : ∀ e ∈ (s.endTile a f r []).tileBytes a g r, regionOf e.1 ≠ .control) :
    ∃ t, exec (.trellisRowComplete a .compute) s = .next t ∧ s.rowCounted t a f.place .compute
      ∧ t.mem = s.mem.write ((s.endTile a f r []).tileBytes a g r) := by
  have hend := s.endTile_withinArray a f r []
  have hclose := ((s.endTile a f r []).tileWritten a g r).closeTile_withinArray a g r
  have hheld : (s.endTile a f r []).heldRuns (((s.endTile a f r []).tileBytes a g r).map fun e => (e.1, 1)) = false := hfree
  have hc : s.completeRow a .compute f r = some
      ((((s.endTile a f r []).tileWritten a g r).closeTile a g r).countRow a f.place .compute) := by
    rw [State.completeRow_of_vector hfault h15, hg, Option.bind_some, State.storeTile_of_free hheld hw]
    rfl
  refine ⟨_, exec_trellisRow_of_some hrun ha hn hc, State.rowCounted_of_mem
    (State.rowCounted_of_withinArray ((hend.with_mem _ _).trans hclose) (State.rowBoundary_withinArray _ a)), ?_⟩
  exact (State.rowBoundary_withinArray _ a).mem.trans (hclose.mem.trans (congrArg (Mem.write · _) hend.mem))

/-- A store row counts, and writes its tile's bytes out of the store buffer (R198, R225 to R231). -/
theorem storeRow_stores (hrun : s.agentsRun = true) (ha : a < 192) (hn : s.nextRow a .store = some (f, r))
    (hfree : s.heldRuns ((s.tileBytes a f r).map fun e => (e.1, 1)) = false)
    (hw : ∀ e ∈ s.tileBytes a f r, regionOf e.1 ≠ .control) :
    ∃ t, exec (.trellisRowComplete a .store) s = .next t ∧ s.rowCounted t a f.place .store
      ∧ t.mem = s.mem.write (s.tileBytes a f r) ∧ (t.array a).buffer = (s.array a).buffer.filter fun b => !TileBuf.holds f r b := by
  have hclose := (s.tileWritten a f r).closeTile_withinArray a f r
  have hc : s.completeRow a .store f r = some (((s.tileWritten a f r).closeTile a f r).countRow a f.place .store) := by
    rw [State.completeRow_store, State.storeTile_of_free hfree hw]
    rfl
  refine ⟨_, exec_trellisRow_of_some hrun ha hn hc, State.rowCounted_of_mem (State.rowCounted_of_withinArray hclose (.refl _ a)),
    hclose.mem, ?_⟩
  simp only [reduceCtorEq, if_false, State.countRow_array]
  exact State.closeTile_buffer ..

end

/-- Settles O24: a copy row counts, a compute row leaves its sums or its tile, a store row writes its tile's bytes. -/
theorem trellisRowsComplete : Obligations.TrellisRowsComplete := by
  intro s a f r hrun ha
  refine ⟨fun hn => ⟨fun hheld => ?_, copyRow_counts hrun ha hn⟩,
    fun hn => ⟨fun e he => computeRow_faults hrun ha hn he, fun hfault h15 => ?_, fun hfault h15 g hg hfree hw => ?_⟩,
    fun hn hheld => ?_, fun hn hfree hw => ?_⟩
  · refine exec_trellisRow_of_none hrun ha hn ?_
    rw [State.completeRow_copy, if_pos hheld]
  · obtain ⟨hcounted, hmem⟩ := s.cellsRowDone_counted a f r
    obtain ⟨haccs, hbuffer, hactive⟩ := s.cellsRowDone_array a f r
    refine ⟨_, exec_cellsRow hrun ha hn hfault h15, hcounted, hmem, hactive, fun h8 hmore => ?_, fun hends => ?_⟩
    · rw [haccs, hbuffer]
      exact State.rowTile_sums h8 hmore s a
    · rw [haccs, hbuffer]
      exact State.rowTile_buffer hends s a
  · obtain ⟨t, hexec, hcounted, hmem⟩ := vectorRow_stores hrun ha hn hfault h15 hg hfree hw
    exact ⟨t, hexec, hcounted, fun b => by rw [hmem]⟩
  · refine exec_trellisRow_of_none hrun ha hn ?_
    rw [State.completeRow_store, State.storeTile_of_held hheld]
    rfl
  · obtain ⟨t, hexec, hcounted, hmem, hbuffer⟩ := storeRow_stores hrun ha hn hfree hw
    exact ⟨t, hexec, hcounted, fun b => by rw [hmem], fun b hb => by rw [hmem, Mem.write_byte hb], hbuffer⟩

end Sys2Proof.Machine

/-! An instruction of an array ends (O26; R113, R123, R197): what the end changes of the arrays, of memory and of the gates. -/
namespace Sys2Proof.Machine

/-! Tables under filters -/

/-- An index all of whose entries a filter keeps reads as before. -/
theorem mapFind_filter {α : Type} {k : Nat} {p : Nat × α → Bool} (h : ∀ v, p (k, v) = true) (m : List (Nat × α)) :
    mapFind k (m.filter p) = mapFind k m := by
  induction m with
  | nil => rfl
  | cons e m ih =>
    obtain ⟨j, v⟩ := e
    by_cases hj : j = k
    · subst hj
      rw [List.filter_cons_of_pos (h v)]
      simp only [mapFind, if_true]
    · have hskip : mapFind k ((j, v) :: m) = mapFind k m := if_neg hj
      rw [List.filter_cons, hskip, ← ih]
      split
      · exact if_neg hj
      · rfl

theorem Mem.undefine_byte {m : Mem} {a n b : Nat} (h : ¬ (a ≤ b ∧ b < a + n)) : (m.undefine a n).byte? b = m.byte? b :=
  mapFind_filter (fun _ => by simp only [Bool.or_eq_true, decide_eq_true_eq]; omega) _

/-! The release of pins -/

theorem State.report_arrays (s : State) (r : Report) (outcome : Nat) (queued : Bool) :
    (s.report r outcome queued).arrays = s.arrays := by
  have hwritten : (if r.status = 0 ∨ (s.reportFault r).isSome then s
      else s.wrNat r.status 8 (outcome + r.handle * 256)).arrays = s.arrays := by
    split <;> rfl
  simp only [State.report]
  generalize (if r.status = 0 ∨ (s.reportFault r).isSome then s
    else s.wrNat r.status 8 (outcome + r.handle * 256)) = s1 at hwritten ⊢
  split
  · exact hwritten
  split
  · exact hwritten
  · split <;> exact hwritten

theorem State.reports_arrays (s : State) (outcome : Nat) (l : List Report) : (s.reports outcome l).arrays = s.arrays := by
  unfold State.reports
  induction l generalizing s with
  | nil => rfl
  | cons r l ih => exact (ih _).trans (s.report_arrays r outcome false)

theorem State.pinsGone_arrays (s : State) (i : Nat) : (s.pinsGone i).arrays = s.arrays := by
  simp only [State.pinsGone]
  split
  · rfl
  split
  · exact State.reports_arrays ..
  · exact State.reports_arrays ..
  · rfl

theorem State.releasePins_arrays (s : State) (l : List Nat) : (s.releasePins l).arrays = s.arrays := by
  unfold State.releasePins
  induction l generalizing s with
  | nil => rfl
  | cons i l ih => exact (ih _).trans (State.pinsGone_arrays ..)

/-- No transition waits for the pins of an object that is neither EVICTING nor RETAINING (Table 02-9). -/
theorem State.pinsGone_of_quiet {s : State} {i : Nat} (h : (s.obj i).st ≠ .evicting ∧ (s.obj i).st ≠ .retaining) :
    s.pinsGone i = s := by
  obtain ⟨hevicting, hretaining⟩ := h
  simp only [State.pinsGone]
  split
  · rfl
  · cases hst : (s.obj i).st with
    | evicting => exact absurd hst hevicting
    | retaining => exact absurd hst hretaining
    | absent | promoting | resident => rfl

theorem State.releasePin_of_quiet {s : State} {i : Nat} (h : (s.obj i).st ≠ .evicting ∧ (s.obj i).st ≠ .retaining) :
    s.releasePin i = s.modObj i fun o => { o with pins := o.pins - 1 } :=
  State.pinsGone_of_quiet (by simpa only [State.modObj_obj] using h)

theorem State.releasePin_obj_st {s : State} {i : Nat} (h : (s.obj i).st ≠ .evicting ∧ (s.obj i).st ≠ .retaining) (j : Nat) :
    ((s.releasePin i).obj j).st = (s.obj j).st := by
  rw [State.releasePin_of_quiet h]
  by_cases hj : j = i
  · rw [hj, State.modObj_obj]
  · rw [State.modObj_obj_ne s hj]

/-- The pins of objects that wait for none are released in the objects' table alone. -/
theorem State.releasePins_of_quiet {l : List Nat} {s : State}
    (h : ∀ i ∈ l, (s.obj i).st ≠ .evicting ∧ (s.obj i).st ≠ .retaining) :
    s.releasePins l = { s with objects := (s.releasePins l).objects } := by
  induction l generalizing s with
  | nil => rfl
  | cons i l ih =>
    obtain ⟨hi, hl⟩ := List.forall_mem_cons.mp h
    have hrest : ∀ j ∈ l, ((s.releasePin i).obj j).st ≠ .evicting ∧ ((s.releasePin i).obj j).st ≠ .retaining := by
      simpa only [State.releasePin_obj_st hi] using hl
    calc (s.releasePin i).releasePins l
        = { s.releasePin i with objects := ((s.releasePin i).releasePins l).objects } := ih hrest
      _ = { s with objects := ((s.releasePin i).releasePins l).objects } := by rw [State.releasePin_of_quiet hi]; rfl

/-! The arrays as an instruction ends -/

/-- From `s` to `t` array `a` has changed in the pins of replaced descriptors and in its window at most, and no other array has. -/
def State.onlyPinsAndWindow (s t : State) (a : Nat) : Prop :=
  (∃ pins w, t.array a = { s.array a with oldPins := pins, window := w }) ∧ ∀ b, b ≠ a → t.array b = s.array b

theorem State.onlyPinsAndWindow_of_arrays {s t : State} (h : t.arrays = s.arrays) (a : Nat) : s.onlyPinsAndWindow t a := by
  have hsame (b : Nat) : t.array b = s.array b := by rw [State.array, State.array, h]
  exact ⟨⟨_, _, hsame a⟩, fun b _ => hsame b⟩

theorem State.onlyPinsAndWindow.trans {s t u : State} {a : Nat} (h : s.onlyPinsAndWindow t a) (h' : t.onlyPinsAndWindow u a) :
    s.onlyPinsAndWindow u a := by
  obtain ⟨⟨_, _, harray⟩, hother⟩ := h
  obtain ⟨⟨pins, w, harray'⟩, hother'⟩ := h'
  exact ⟨⟨pins, w, by rw [harray', harray]⟩, fun b hb => (hother' b hb).trans (hother b hb)⟩

theorem State.endFlight_eq (s : State) (f : Flight) : s.endFlight f = { s with sessions := (s.endFlight f).sessions } := by
  unfold State.endFlight
  split <;> rfl

/-- The replaced descriptors' pins of array `a` whose readers have all ended. -/
def State.settledPins (s : State) (a : Nat) : List OldPin :=
  let live := (s.array a).flights.map (·.place)
  (s.array a).oldPins.filter fun p => p.readers.all fun r => !live.contains r

/-- Array `a` holds no pins but those that instructions in flight still read through. -/
def State.dropSettled (s : State) (a : Nat) : State :=
  let live := (s.array a).flights.map (·.place)
  s.modArray a fun x => { x with oldPins := x.oldPins.filter fun p => !(p.readers.all fun r => !live.contains r) }

theorem State.settlePins_eq (s : State) (a : Nat) :
    s.settlePins a = (s.dropSettled a).releasePins ((s.settledPins a).map (·.object)) := rfl

theorem State.settlePins_onlyPinsAndWindow (s : State) (a : Nat) : s.onlyPinsAndWindow (s.settlePins a) a :=
  State.onlyPinsAndWindow.trans ⟨⟨_, _, State.modArray_array ..⟩, fun _ hb => s.modArray_array_ne hb _⟩
    (State.onlyPinsAndWindow_of_arrays (State.releasePins_arrays ..) a)

theorem State.dropWindow_onlyPinsAndWindow (s : State) (a : Nat) : s.onlyPinsAndWindow (s.dropWindow a) a := by
  unfold State.dropWindow
  split
  · exact ⟨⟨_, _, State.modArray_array ..⟩, fun _ hb => State.modArray_array_ne _ hb _⟩
  · exact State.onlyPinsAndWindow_of_arrays rfl a

theorem State.settleArray_onlyPinsAndWindow (s : State) (a : Nat) : s.onlyPinsAndWindow (s.settleArray a) a := by
  unfold State.settleArray
  split
  · exact State.onlyPinsAndWindow_of_arrays rfl a
  split
  · exact State.onlyPinsAndWindow_of_arrays rfl a
  · exact (s.dropWindow_onlyPinsAndWindow a).trans (State.onlyPinsAndWindow_of_arrays rfl a)

/-! Memory and gates as an instruction ends -/

/-- Array `a` holds pins that no object waits for, in the same table of objects. -/
theorem State.quietPins.of_eq {s t : State} {a : Nat} (h : s.quietPins a) (hpins : (t.array a).oldPins = (s.array a).oldPins)
    (hobjects : t.objects = s.objects) : t.quietPins a := by
  intro p hp
  rw [State.obj, hobjects]
  exact h p (hpins ▸ hp)

theorem State.sameButWindow.of_eq {s t u : State} {a : Nat} (h : t.sameButWindow u a) (hmem : t.mem = s.mem)
    (hwindow : (t.array a).window = (s.array a).window) : s.sameButWindow u a := by
  intro b hb
  rw [h b (by rwa [State.inWindowOf, hwindow]), hmem]

/-- Pins that no object waits for are released with no other effect on memory, the gates or the array's window. -/
theorem State.settlePins_of_quiet {s : State} {a : Nat} (h : s.quietPins a) :
    (s.settlePins a).mem = s.mem ∧ (s.settlePins a).gates = s.gates
      ∧ ((s.settlePins a).array a).window = (s.array a).window := by
  have hquiet : ∀ i ∈ (s.settledPins a).map (·.object),
      ((s.dropSettled a).obj i).st ≠ .evicting ∧ ((s.dropSettled a).obj i).st ≠ .retaining :=
    List.forall_mem_map.mpr fun p hp => h p (List.mem_filter.mp hp).1
  have hdropped : ((s.dropSettled a).array a).window = (s.array a).window := by
    rw [State.dropSettled, State.modArray_array]
  rw [State.settlePins_eq, State.releasePins_of_quiet hquiet]
  exact ⟨rfl, rfl, hdropped⟩

theorem State.dropWindow_sameButWindow (s : State) (a : Nat) : s.sameButWindow (s.dropWindow a) a := by
  intro b hb
  unfold State.dropWindow
  split
  · next w hw => exact Mem.undefine_byte fun hin => hb ⟨w, hw, hin⟩
  · rfl

theorem State.settleArray_sameButWindow (s : State) (a : Nat) : s.sameButWindow (s.settleArray a) a := by
  intro b hb
  unfold State.settleArray
  split
  · rfl
  split
  · rfl
  · exact s.dropWindow_sameButWindow a b hb

theorem State.settleArray_gates (s : State) (a : Nat) : (s.settleArray a).gates = s.gates := by
  unfold State.settleArray State.dropWindow
  split
  · rfl
  split
  · rfl
  split <;> rfl

/-! A flight that ends normally -/

/-- A signal with release joins the agent's queue (R39). -/
theorem State.issueSignal_of_release {g : Signal} (h : g.release = true) (s : State) (i : Nat) :
    s.issueSignal i g = s.queueSignal i g := by
  simp [State.issueSignal, h]

/-- The flight at `place` leaves array `a`. -/
def State.withoutFlight (s : State) (a place : Nat) : State :=
  s.modArray a fun x => { x with flights := x.flights.filter fun g => decide (g.place ≠ place) }

/-- A flight that takes no window ends as its array settles; what follows changes agents only. -/
theorem State.finish_eq {f : Flight} (h : opTakesWindow f.code = false) (s : State) (a : Nat) :
    s.finish a f = { ((((s.withoutFlight a f.place).endFlight f).settlePins a).settleArray a) with
      agents := (s.finish a f).agents } := by
  simp only [State.finish, h, Bool.false_and, Bool.false_eq_true, if_false]
  split
  · rw [State.issueSignal_of_release rfl]
    rfl
  · rfl

/-- The flight that ends is the only one to leave its array (R113). -/
theorem State.finish_onlyPinsAndWindow {f : Flight} (h : opTakesWindow f.code = false) (s : State) (a : Nat) :
    (s.withoutFlight a f.place).onlyPinsAndWindow (s.finish a f) a := by
  rw [State.finish_eq h]
  have hend : (s.withoutFlight a f.place).onlyPinsAndWindow ((s.withoutFlight a f.place).endFlight f) a :=
    State.onlyPinsAndWindow_of_arrays (by rw [State.endFlight_eq]) a
  exact ((hend.trans (State.settlePins_onlyPinsAndWindow ..)).trans (State.settleArray_onlyPinsAndWindow ..)).trans
    (State.onlyPinsAndWindow_of_arrays rfl a)

/-- Where no object waits for the array's pins, the end of a flight leaves memory outside the array's window, and every gate. -/
theorem State.finish_of_quiet {s : State} {a : Nat} {f : Flight} (h : opTakesWindow f.code = false) (hq : s.quietPins a) :
    s.sameButWindow (s.finish a f) a ∧ (s.finish a f).gates = s.gates := by
  let s1 := (s.withoutFlight a f.place).endFlight f
  have hs1 : s1 = { s.withoutFlight a f.place with sessions := s1.sessions } := State.endFlight_eq ..
  have hleft : s1.array a = (s.withoutFlight a f.place).array a := by rw [hs1]; rfl
  rw [State.withoutFlight, State.modArray_array] at hleft
  have hquiet : s1.quietPins a := hq.of_eq (by rw [hleft]) (by rw [hs1]; rfl)
  obtain ⟨hmem, hgates, hwindow⟩ := State.settlePins_of_quiet hquiet
  rw [State.finish_eq h]
  refine ⟨fun b hb => ?_, ?_⟩
  · exact ((s1.settlePins a).settleArray_sameButWindow a).of_eq (hmem.trans (by rw [hs1]; rfl)) (hwindow.trans (by rw [hleft])) b hb
  · exact ((s1.settlePins a).settleArray_gates a).trans (hgates.trans (by rw [hs1]; rfl))

end Sys2Proof.Machine

/-! The banks of a table switch (O26; R240). -/
namespace Sys2Proof.Machine

/-- A bank that is listed reads as its list. -/
theorem ArrayState.bankEntry_of_find {x : ArrayState} {b : Nat} {l : List Nat} (h : mapFind b x.banks = some l) (i : Nat) :
    x.bankEntry b i = l.getD i 0 := by
  simp only [ArrayState.bankEntry, h]

theorem ArrayState.bankAll_getD {x : ArrayState} {b i : Nat} (h : i < tableLen (b / 2)) : (x.bankAll b).getD i 0 = x.bankEntry b i := by
  simp [ArrayState.bankAll, tabulate, h]

/-- After the switch the active bank reads as the shadow bank did. -/
theorem ArrayState.swapBanks_active (x : ArrayState) {t i : Nat} (h : i < tableLen t) :
    (x.swapBanks t).bankEntry (2 * t) i = x.bankEntry (2 * t + 1) i := by
  have hfind : mapFind (2 * t) (x.swapBanks t).banks = some (x.bankAll (2 * t + 1)) := by
    rw [ArrayState.swapBanks, mapFind_put_ne (by omega), mapFind_put_same]
  rw [ArrayState.bankEntry_of_find hfind, ArrayState.bankAll_getD]
  rwa [show (2 * t + 1) / 2 = t by omega]

/-- After the switch the shadow bank reads as the active bank did. -/
theorem ArrayState.swapBanks_shadow (x : ArrayState) {t i : Nat} (h : i < tableLen t) :
    (x.swapBanks t).bankEntry (2 * t + 1) i = x.bankEntry (2 * t) i := by
  have hfind : mapFind (2 * t + 1) (x.swapBanks t).banks = some (x.bankAll (2 * t)) := mapFind_put_same ..
  rw [ArrayState.bankEntry_of_find hfind, ArrayState.bankAll_getD]
  rwa [show 2 * t / 2 = t by omega]

/-- Table `t`'s banks of array `a` have switched; the `TLOAD` is still in flight. -/
def State.swapped (s : State) (a t : Nat) : State := s.modArray a fun x => x.swapBanks t

theorem State.swapped_array (s : State) (a t : Nat) : (s.swapped a t).array a = (s.array a).swapBanks t := State.modArray_array ..

theorem exec_tableSwap {s : State} {a table : Nat} {f : Flight} (hrun : s.agentsRun = true) (ha : a < 192)
    (hf : ((s.array a).flights.find? fun f => f.code == opTload && fieldAt f.word 1 0 3 == table) = some f)
    (hloaded : f.loaded = true) (hearlier : ∀ g ∈ (s.array a).flights, g.place < f.place → g.usesTable table = false) :
    exec (.tableSwap a table) s = .next ((s.swapped a table).finish a f) := by
  have hfree : ((s.array a).flights.any fun g => decide (g.place < f.place) && g.usesTable table) = false := by
    simpa using hearlier
  show execTableSwap a table s = _
  simp only [execTableSwap, hf, hrun, ha, hloaded, hfree, decide_true, Bool.not_false, Bool.and_self, if_true]
  rfl

/-- Settles O26: the banks exchange in the array's table of banks, and the end of the `TLOAD` leaves that table alone. -/
theorem tableSwapExchangesBanks : Obligations.TableSwapExchangesBanks := by
  intro s a table f hrun ha hf hloaded hearlier
  have hcode : f.code = opTload := by
    have hfound := List.find?_some hf
    simp only [Bool.and_eq_true, beq_iff_eq] at hfound
    exact hfound.1
  have hwindow : opTakesWindow f.code = false := by rw [hcode]; decide
  obtain ⟨⟨pins, w, harray⟩, hothers⟩ := (s.swapped a table).finish_onlyPinsAndWindow hwindow a
  rw [State.withoutFlight, State.modArray_array, State.swapped_array] at harray
  refine ⟨_, exec_tableSwap hrun ha hf hloaded hearlier, fun i hi => ?_, ?_, fun b hb => ?_, fun hq => ?_⟩
  · rw [harray]
    exact ⟨(s.array a).swapBanks_active hi, (s.array a).swapBanks_shadow hi⟩
  · rw [harray]
    rfl
  · rw [hothers b hb, State.withoutFlight, State.modArray_array_ne _ hb, State.swapped, State.modArray_array_ne _ hb]
  · have hquiet : (s.swapped a table).quietPins a := hq.of_eq (by rw [State.swapped_array]; rfl) rfl
    obtain ⟨hmem, hgates⟩ := State.finish_of_quiet hwindow hquiet
    exact ⟨hmem.of_eq rfl (by rw [State.swapped_array]; rfl), hgates⟩

end Sys2Proof.Machine

/-! What goes on as the session command port takes the cores' stores that waited (R334, R339). -/
namespace Sys2Proof.Machine

/-- From `s` to `t` the gates, the agents, the host-class cores and the log have changed at most. -/
def State.onlyCoreEffects (s t : State) : Prop :=
  t = { s with gates := t.gates, agents := t.agents, cluster := t.cluster, recovery := t.recovery }

theorem State.onlyCoreEffects.trans {s t u : State} (h : s.onlyCoreEffects t) (h' : t.onlyCoreEffects u) : s.onlyCoreEffects u :=
  Eq.trans h' (by rw [h])

theorem State.faultCore_onlyCoreEffects (s : State) (k : Nat) (f : FaultInfo) : s.onlyCoreEffects (s.faultCore k f) := rfl

theorem State.issueSignal_onlyCoreEffects (s : State) (i : Nat) (g : Signal) : s.onlyCoreEffects (s.issueSignal i g) := by
  unfold State.issueSignal
  split <;> rfl

theorem State.issueWait_onlyCoreEffects (s : State) (i gate : Nat) (target : BitVec 32) (timeout : Nat) (acquire : Bool)
    (place addr : Nat) : s.onlyCoreEffects (s.issueWait i gate target timeout acquire place addr) := by
  unfold State.issueWait
  split <;> rfl

theorem State.coreGsig_onlyCoreEffects (s : State) (k place v : Nat) : s.onlyCoreEffects (s.coreGsig k place v) := by
  simp only [State.coreGsig]
  split
  · exact s.faultCore_onlyCoreEffects k _
  · exact s.issueSignal_onlyCoreEffects _ _

theorem State.coreWait_onlyCoreEffects (s : State) (k v : Nat) : s.onlyCoreEffects (s.coreWait k v) := by
  unfold State.coreWait
  split
  · exact s.faultCore_onlyCoreEffects k _
  · rfl

theorem State.coreWaitTarget_onlyCoreEffects (s : State) (k place v : Nat) : s.onlyCoreEffects (s.coreWaitTarget k place v) := by
  simp only [State.coreWaitTarget]
  split
  · exact s.faultCore_onlyCoreEffects k _
  split
  · exact s.faultCore_onlyCoreEffects k _
  split
  · rfl
  · exact State.onlyCoreEffects.trans (t := s.modCore k fun c => { c with waitState := 1 }) rfl
      (State.issueWait_onlyCoreEffects ..)

theorem State.coreFence_onlyCoreEffects (s : State) (k place v : Nat) : s.onlyCoreEffects (s.coreFence k place v) := by
  unfold State.coreFence
  split
  · exact s.faultCore_onlyCoreEffects k _
  · rfl

/-- A store to a core's own port signals, waits, fences or stops the core (Table 10-3). -/
theorem State.portStore_onlyCoreEffects (s : State) (k place off v : Nat) : s.onlyCoreEffects (s.portStore k place off v) := by
  unfold State.portStore
  split
  iterate 2
    split
    · exact s.faultCore_onlyCoreEffects k _
    · rfl
  · exact s.coreGsig_onlyCoreEffects k place v
  · exact s.coreWait_onlyCoreEffects k v
  · exact s.coreWaitTarget_onlyCoreEffects k place v
  · exact s.coreFence_onlyCoreEffects k place v
  · rfl

/-- From `s` to `t` commands have joined the session command port, and the stores behind them have had their effects. -/
def State.drained (s t : State) : Prop :=
  ∃ l, t = { s with sessions := { s.sessions with port := s.sessions.port ++ l }, gates := t.gates, agents := t.agents,
                    cluster := t.cluster, recovery := t.recovery }

theorem State.onlyCoreEffects.drained {s t : State} (h : s.onlyCoreEffects t) : s.drained t :=
  ⟨[], Eq.trans h (by rw [List.append_nil])⟩

theorem State.drained.refl (s : State) : s.drained s := State.onlyCoreEffects.drained rfl

theorem State.drained.trans {s t u : State} (h : s.drained t) (h' : t.drained u) : s.drained u := by
  obtain ⟨l, h⟩ := h
  obtain ⟨l', h'⟩ := h'
  exact ⟨l ++ l', h'.trans (by rw [h, ← List.append_assoc])⟩

/-- A command that the port accepts joins it at its end (R258). -/
theorem State.portWrite_eq {s t : State} {w : Nat} (h : s.portWrite w = some t) :
    t = { s with sessions := { s.sessions with port := s.sessions.port ++ [w] } } := by
  unfold State.portWrite at h
  split at h
  · exact (Option.some.inj h).symm
  · cases h

theorem State.portWrite_drained {s t : State} {w : Nat} (h : s.portWrite w = some t) : s.drained t :=
  ⟨[w], by rw [State.portWrite_eq h]⟩

/-- Core `k` has `l` as the stores that have not performed. -/
def State.withStores (s : State) (k : Nat) (l : List (Nat × CoreStore)) : State := s.modCore k fun c => { c with stores := l }

theorem State.drainStores_session (s : State) (k place w : Nat) (l : List (Nat × CoreStore)) :
    s.drainStores k ((place, .session w) :: l) = (((s.withStores k l).portWrite w).map fun t => t.drainStores k l).getD s := by
  simp only [State.drainStores, State.withStores]
  split
  · next t ht => rw [ht]; rfl
  · next hfull => rw [hfull]; rfl

theorem State.drainStores_port (s : State) (k place off w : Nat) (l : List (Nat × CoreStore)) :
    s.drainStores k ((place, .port off w) :: l) =
      (if (s.withStores k l).coreRuns k then (s.withStores k l).portStore k place off w else s.withStores k l).drainStores k l := rfl

theorem State.drainStores_drained (s : State) (k : Nat) (l : List (Nat × CoreStore)) : s.drained (s.drainStores k l) := by
  induction l generalizing s with
  | nil => exact .refl s
  | cons e l ih =>
    obtain ⟨place, v⟩ := e
    have hleft : s.drained (s.withStores k l) := State.onlyCoreEffects.drained rfl
    cases v with
    | session w =>
      rw [State.drainStores_session]
      cases hw : (s.withStores k l).portWrite w with
      | none => exact .refl s
      | some t => exact (hleft.trans (State.portWrite_drained hw)).trans (ih t)
    | port off w =>
      rw [State.drainStores_port]
      refine hleft.trans (.trans ?_ (ih _))
      split
      · exact (State.portStore_onlyCoreEffects ..).drained
      · exact .refl _

theorem State.releaseStores_drained (s : State) : s.drained s.releaseStores :=
  List.foldlRecOn (motive := s.drained) _ _ (.refl s) fun t ht k _ => ht.trans (t.drainStores_drained k _)

/-- With no store waiting, nothing goes on. -/
theorem State.releaseStores_of_empty {s : State} (h : ∀ k, (s.core k).stores = []) : s.releaseStores = s := by
  refine List.foldlRecOn (motive := (· = s)) _ _ rfl fun t ht k _ => ?_
  rw [ht, h k]
  rfl

/-! Where only session commands wait -/

theorem HostCore.portHeld_eq_false_iff (c : HostCore) : c.portHeld = false ↔ ∀ e ∈ c.stores, ∃ w, e.2 = .session w := by
  unfold HostCore.portHeld
  rw [List.any_eq_false]
  refine forall₂_congr fun e _ => ?_
  cases e.2 <;> simp

/-- No core holds a store to its own port, and from `s` to `t` no gate and no record has changed. -/
def State.drainedQuietly (s t : State) : Prop := (∀ k, (t.core k).portHeld = false) ∧ t.gates = s.gates ∧ t.recovery = s.recovery

theorem State.drainedQuietly.trans {s t u : State} (h : s.drainedQuietly t) (h' : t.drainedQuietly u) : s.drainedQuietly u :=
  ⟨h'.1, h'.2.1.trans h.2.1, h'.2.2.trans h.2.2⟩

theorem State.withStores_drainedQuietly {s : State} (hs : ∀ k, (s.core k).portHeld = false) {l : List (Nat × CoreStore)}
    (hl : ∀ e ∈ l, ∃ w, e.2 = .session w) (k : Nat) : s.drainedQuietly (s.withStores k l) := by
  refine ⟨fun j => ?_, rfl, rfl⟩
  by_cases hj : j = k
  · rw [hj, State.withStores, State.modCore_core]
    exact (HostCore.portHeld_eq_false_iff _).mpr hl
  · rw [State.withStores, State.modCore_core_ne s hj]
    exact hs j

theorem State.drainStores_drainedQuietly {s : State} (hs : ∀ k, (s.core k).portHeld = false) {l : List (Nat × CoreStore)}
    (hl : ∀ e ∈ l, ∃ w, e.2 = .session w) (k : Nat) : s.drainedQuietly (s.drainStores k l) := by
  induction l generalizing s with
  | nil => exact ⟨hs, rfl, rfl⟩
  | cons e l ih =>
    obtain ⟨place, v⟩ := e
    obtain ⟨⟨w, rfl⟩, hrest⟩ := List.forall_mem_cons.mp hl
    have hleft := State.withStores_drainedQuietly hs hrest k
    rw [State.drainStores_session]
    cases hw : (s.withStores k l).portWrite w with
    | none => exact ⟨hs, rfl, rfl⟩
    | some t =>
      have hjoin : (s.withStores k l).drainedQuietly t := by
        rw [State.portWrite_eq hw]
        exact ⟨hleft.1, rfl, rfl⟩
      exact (hleft.trans hjoin).trans (ih hjoin.1 hrest)

theorem State.releaseStores_drainedQuietly {s : State} (hs : ∀ k, (s.core k).portHeld = false) : s.drainedQuietly s.releaseStores :=
  List.foldlRecOn (motive := s.drainedQuietly) _ _ ⟨hs, rfl, rfl⟩ fun _ ht k _ =>
    ht.trans (State.drainStores_drainedQuietly ht.1 ((HostCore.portHeld_eq_false_iff _).mp (ht.1 k)) k)

end Sys2Proof.Machine

/-! A number written to stack memory reads back (R14, R63). -/
namespace Sys2Proof.Machine

theorem leBytes_succ (n v : Nat) : leBytes (n + 1) v = BitVec.ofNat 8 v :: leBytes n (v / 256) := by
  simp only [leBytes, tabulate, List.range_succ_eq_map, List.map_cons, List.map_map]
  congr 1
  refine List.map_congr_left fun i _ => ?_
  show BitVec.ofNat 8 (v >>> (8 * (i + 1))) = BitVec.ofNat 8 ((v / 256) >>> (8 * i))
  rw [Nat.mul_succ, Nat.add_comm, Nat.shiftRight_add, Nat.shiftRight_eq_div_pow v 8]

theorem leBytes_length (n v : Nat) : (leBytes n v).length = n := by simp [leBytes, tabulate]

/-- The bytes of a number are the number, as far as they hold it. -/
theorem leNat_leBytes (n v : Nat) : leNat (leBytes n v) = v % 256 ^ n := by
  induction n generalizing v with
  | zero => exact (Nat.mod_one v).symm
  | succ n ih => rw [leBytes_succ, leNat, ih, Nat.pow_succ', Nat.mod_mul]; rfl

/-- Bytes lie at the addresses from the first on. -/
theorem mem_placed {a : Nat} {bs : List Byte} {e : Nat × Byte} (h : e ∈ placed a bs) : a ≤ e.1 ∧ e.1 < a + bs.length := by
  induction bs generalizing a with
  | nil => cases h
  | cons b bs ih =>
    rw [List.length_cons]
    rcases List.mem_cons.mp h with rfl | h
    · exact ⟨Nat.le_refl a, by omega⟩
    · have := ih h
      omega

theorem Mem.write_placed_byte_ne {m : Mem} {a b : Nat} {bs : List Byte} (h : b < a ∨ a + bs.length ≤ b) :
    (m.write (placed a bs)).byte? b = m.byte? b :=
  Mem.write_byte fun e he => by have := mem_placed he; omega

theorem Mem.write_placed_byte {m : Mem} {a i : Nat} {bs : List Byte} (h : i < bs.length) :
    (m.write (placed a bs)).byte? (a + i) = some bs[i] := by
  induction bs generalizing m a i with
  | nil => cases h
  | cons b bs ih =>
    have hstep : (m.write (placed a (b :: bs))).byte? (a + i) =
        (Mem.write { m with cells := mapPut a b m.cells } (placed (a + 1) bs)).byte? (a + i) := rfl
    cases i with
    | zero =>
      rw [hstep, Nat.add_zero, Mem.write_placed_byte_ne (by omega)]
      exact mapFind_put_same a b m.cells
    | succ i =>
      rw [hstep, show a + (i + 1) = a + 1 + i by omega, ih (Nat.lt_of_succ_lt_succ h)]
      rfl

/-- Stack memory lies in no Trellis window, so that its bytes read as they were written. -/
theorem State.rdByte_of_stack {s : State} {a : Nat} {b : Byte} (h : a < stackTop) (hb : s.mem.byte? a = some b) : s.rdByte a = b := by
  have hstack : regionOf a = .stack := if_pos h
  simp [State.rdByte, State.windowed, hstack, hb]

theorem State.rdNat_of_write {t : State} {m : Mem} {a n v : Nat} (ht : t.mem = m.write (placed a (leBytes n v))) (ha : a + n ≤ stackTop) :
    t.rdNat a n = v % 256 ^ n := by
  have hbytes : t.rdBytes a n = leBytes n v := by
    refine List.ext_getElem (by simp [State.rdBytes, tabulate, leBytes_length]) fun i hi hi' => ?_
    have hin : i < n := by rwa [leBytes_length] at hi'
    simp only [State.rdBytes, tabulate, List.getElem_map, List.getElem_range]
    exact State.rdByte_of_stack (by omega) (by rw [ht, Mem.write_placed_byte hi'])
  rw [State.rdNat, hbytes, leNat_leBytes]

end Sys2Proof.Machine

/-! Session commands (O30; R255 to R260): the effect on the record and the page map, then the report, then the port. -/
namespace Sys2Proof.Machine

/-! Tables under many changes -/

/-- A change of every listed entry by its index reads as that index's change. -/
theorem mapFind_map_of_key {α : Type} {f : Nat × α → Nat × α} {g : Nat → α → α} (h : ∀ e, f e = (e.1, g e.1 e.2)) (k : Nat)
    (m : List (Nat × α)) : mapFind k (m.map f) = (mapFind k m).map (g k) := by
  induction m with
  | nil => rfl
  | cons e m ih =>
    rw [List.map_cons, h, mapFind, mapFind, ih]
    split
    · next he => rw [he]; rfl
    · rfl

/-- A change of `n` indices from `base` on reads as the change at each of them, and nowhere else. -/
theorem mapGet_foldl_mod {α : Type} (d : Nat → α) (base : Nat) (g : Nat → α → α) (m : List (Nat × α)) (n e : Nat) :
    mapGet d e ((List.range n).foldl (fun m i => mapMod d (base + i) (g i) m) m) =
      if base ≤ e ∧ e < base + n then g (e - base) (mapGet d e m) else mapGet d e m := by
  induction n with
  | zero => rw [if_neg (by omega)]; rfl
  | succ n ih =>
    rw [List.range_succ, List.foldl_append, List.foldl_cons, List.foldl_nil]
    by_cases he : e = base + n
    · rw [he] at ih ⊢
      rw [mapGet_mod_same, ih, if_neg (by omega), if_pos (by omega), Nat.add_sub_cancel_left]
    · rw [mapGet_mod_ne d he, ih]
      by_cases hin : base ≤ e ∧ e < base + n
      · rw [if_pos hin, if_pos (by omega)]
      · rw [if_neg hin, if_neg (by omega)]

/-! The effect of each command (Table 07-5) -/

/-- From `s` to `t` session `i`'s record and the page map have changed at most, besides free values. -/
def State.onlySession (s t : State) (i : Nat) : Prop :=
  (∀ j, j ≠ i → t.session j = s.session j)
    ∧ t = { s with sessions := { s.sessions with recs := t.sessions.recs, pages := t.sessions.pages }, free := t.free }

theorem State.onlySession.refl (s : State) (i : Nat) : s.onlySession s i := ⟨fun _ _ => rfl, rfl⟩

theorem State.modSession_onlySession (s : State) (i : Nat) (f : Session → Session) : s.onlySession (s.modSession i f) i :=
  ⟨fun _ hj => s.modSession_session_ne hj f, rfl⟩

theorem State.sessionOpened_onlySession (s : State) (w : Nat) : s.onlySession (s.sessionOpened w) (fieldAt w 2 0 14) :=
  ⟨fun _ hj => s.modSession_session_ne hj _, rfl⟩

theorem State.sessionMapped_onlySession (s : State) (w : Nat) : s.onlySession (s.sessionMapped w) (fieldAt w 2 0 14) :=
  ⟨fun _ _ => rfl, rfl⟩

theorem State.sessionOpened_session (s : State) (w : Nat) :
    (s.sessionOpened w).session (fieldAt w 2 0 14) = openRecord w (s.session (fieldAt w 2 0 14)) := s.modSession_session _ _

/-- The page-map entry `p` at index `e` once session `n` is open: unmapped if it lies in the session's range (Table 07-5). -/
def Session.unmapped (n : Session) (e : Nat) (p : PageEntry) : PageEntry :=
  if n.pmBase ≤ e ∧ e < n.pmEnd then { p with valid := false } else p

theorem Session.unmapped_valid {n : Session} {e : Nat} (h : n.pmBase ≤ e ∧ e < n.pmEnd) (p : PageEntry) :
    (n.unmapped e p).valid = false := by
  rw [Session.unmapped, if_pos h]

theorem Session.unmapped_of_outside {n : Session} {e : Nat} (h : e < n.pmBase ∨ n.pmEnd ≤ e) (p : PageEntry) :
    n.unmapped e p = p :=
  if_neg (by omega)

theorem State.sessionOpened_page (s : State) (w e : Nat) :
    (s.sessionOpened w).page e = (openRecord w (s.session (fieldAt w 2 0 14))).unmapped e (s.page e) := by
  let n := openRecord w (s.session (fieldAt w 2 0 14))
  have hfind : (s.sessionOpened w).page e = ((mapFind e s.sessions.pages).map (n.unmapped e)).getD {} :=
    congrArg (·.getD {}) (mapFind_map_of_key (g := n.unmapped) (fun x => by unfold Session.unmapped; split <;> rfl) e _)
  rw [hfind, State.page, mapGet]
  cases mapFind e s.sessions.pages with
  | some p => rfl
  | none => exact (ite_self _).symm

/-- `MAP` changes the entries of the pages it names (Table 07-5). -/
theorem State.sessionMapped_page (s : State) (w e : Nat) :
    let r := s.session (fieldAt w 2 0 14)
    let first := r.pmBase + fieldAt w 0x18 0 8 * r.pagesPerLayer + fieldAt w 0x1C 0 23
    (s.sessionMapped w).page e = if first ≤ e ∧ e < first + fieldAt w 0x20 0 23 then
        if bit (fieldAt w 0x28 0 1) 0 then { s.page e with valid := false }
        else { frame := s.mapFrame (fieldAt w 0x24 0 22) (e - first), valid := true }
      else s.page e := by
  intro r first
  exact mapGet_foldl_mod (fun _ => {}) first (fun i p => if bit (fieldAt w 0x28 0 1) 0 then { p with valid := false }
    else { frame := s.mapFrame (fieldAt w 0x24 0 22) i, valid := true }) s.sessions.pages _ e

/-! The report (R259) -/

/-- The outcome record: the outcome, the session, and its generation or length. -/
def State.outcomeRecord (s : State) (w outcome : Nat) : Nat :=
  let r := s.session (fieldAt w 2 0 14)
  outcome + fieldAt w 2 0 14 * 256 + (if w % 256 = 1 then r.gen else r.len) * 2 ^ 32

/-- The outcome record is written where its address admits it. -/
def State.recordWritten (s : State) (w outcome : Nat) : State :=
  let status := fieldAt w 8 0 48
  if status = 0 ∨ stackTop < status + 8 ∨ (s.checkBlocks 0 status 8 true).isSome then s
  else s.wrNat status 8 (s.outcomeRecord w outcome)

theorem State.sessionReport_eq (s : State) (w outcome : Nat) : s.sessionReport w outcome =
    if modBit w 0 then (s.recordWritten w outcome).signalGate (fieldAt w 0x10 0 17) (half16 w 0x14)
    else s.recordWritten w outcome := rfl

theorem State.recordWritten_frame (s : State) (w outcome : Nat) :
    s.recordWritten w outcome = { s with mem := (s.recordWritten w outcome).mem } := by
  simp only [State.recordWritten]
  split <;> rfl

theorem State.recordWritten_mem {s : State} {w : Nat} (h0 : fieldAt w 8 0 48 ≠ 0) (htop : fieldAt w 8 0 48 + 8 ≤ stackTop)
    (hc : s.checkBlocks 0 (fieldAt w 8 0 48) 8 true = none) (outcome : Nat) : (s.recordWritten w outcome).mem =
      s.mem.write (placed (fieldAt w 8 0 48) (leBytes 8 (s.outcomeRecord w outcome))) := by
  have hwrite : ¬ (fieldAt w 8 0 48 = 0 ∨ stackTop < fieldAt w 8 0 48 + 8 ∨ (s.checkBlocks 0 (fieldAt w 8 0 48) 8 true).isSome) := by
    simp only [hc, Option.isSome_none, Bool.false_eq_true, or_false]
    omega
  rw [State.recordWritten, if_neg hwrite]
  rfl

/-- No byte outside the record changes. -/
theorem State.recordWritten_byte {w b : Nat} (h : fieldAt w 8 0 48 = 0 ∨ b < fieldAt w 8 0 48 ∨ fieldAt w 8 0 48 + 8 ≤ b) (s : State)
    (outcome : Nat) : (s.recordWritten w outcome).mem.byte? b = s.mem.byte? b := by
  simp only [State.recordWritten]
  split
  · rfl
  · next hwrite => exact Mem.write_placed_byte_ne (by rw [leBytes_length]; omega)

/-- The signal leaves the memory as the record made it. -/
theorem State.sessionReport_frame (s : State) (w outcome : Nat) : s.sessionReport w outcome =
    { s with mem := (s.recordWritten w outcome).mem, gates := (s.sessionReport w outcome).gates,
             agents := (s.sessionReport w outcome).agents, cluster := (s.sessionReport w outcome).cluster } := by
  rw [State.sessionReport_eq, State.recordWritten_frame]
  split <;> rfl

theorem State.signalGate_value (s : State) (g inc h : Nat) :
    ((s.signalGate g inc).gate h).value = (s.gate h).value + BitVec.ofNat 32 (if h = g then inc else 0) := by
  by_cases hg : h = g
  · rw [hg, State.signalGate_gate, if_pos rfl]
  · rw [State.signalGate_gate_ne s hg, if_neg hg]
    exact (BitVec.add_zero _).symm

/-- The report signals the command's gate, if it names one, and no other. -/
theorem State.sessionReport_gate (s : State) (w outcome g : Nat) : ((s.sessionReport w outcome).gate g).value =
    (s.gate g).value + BitVec.ofNat 32 (if modBit w 0 ∧ g = fieldAt w 0x10 0 17 then half16 w 0x14 else 0) := by
  have hwritten : (s.recordWritten w outcome).gate g = s.gate g := by rw [State.recordWritten_frame]; rfl
  rw [State.sessionReport_eq]
  split
  · next hsig => rw [State.signalGate_value, hwritten]; simp only [hsig, true_and]
  · next hsig => rw [hwritten, if_neg (fun h => hsig h.1)]; exact (BitVec.add_zero _).symm

/-- Core `k` as `c` once gate `g` has the value `v`: a wait of its port may end (R339). -/
def State.judgedCore (g : Nat) (v : BitVec 32) (s : State) (k : Nat) (c : HostCore) : HostCore :=
  if (s.agent (192 + k)).waits.any (fun w => w.ended s.sundial g v) then { c with waitState := 2, interrupt := true } else c

/-- The core's stores wait on. -/
theorem State.judgeCores_core_stores (g : Nat) (v : BitVec 32) (s : State) (k : Nat) :
    ((s.judgeCores g v).core k).stores = (s.core k).stores := by
  have hfind : (s.judgeCores g v).core k = ((mapFind k s.cluster.cores).map (s.judgedCore g v k)).getD {} :=
    congrArg (·.getD {}) (mapFind_map_of_key (g := s.judgedCore g v) (fun e => by unfold State.judgedCore; split <;> rfl) k _)
  have hstores (c : HostCore) : (s.judgedCore g v k c).stores = c.stores := by unfold State.judgedCore; split <;> rfl
  rw [hfind, State.core, mapGet]
  cases mapFind k s.cluster.cores with
  | some c => exact hstores c
  | none => rfl

theorem State.sessionReport_core_stores (s : State) (w outcome k : Nat) :
    ((s.sessionReport w outcome).core k).stores = (s.core k).stores := by
  rw [State.sessionReport_eq, State.recordWritten_frame]
  split
  · exact State.judgeCores_core_stores ..
  · rfl

/-! The end of a command -/

/-- The command `w` at the head of the port is reported and leaves the port. -/
def State.reported (s : State) (w outcome : Nat) : State :=
  { s.sessionReport w outcome with sessions :=
    { (s.sessionReport w outcome).sessions with port := (s.sessionReport w outcome).sessions.port.drop 1 } }

theorem State.reported_frame (s : State) (w outcome : Nat) : s.reported w outcome =
    { s with sessions := { s.sessions with port := s.sessions.port.drop 1 }, mem := (s.recordWritten w outcome).mem,
             gates := (s.reported w outcome).gates, agents := (s.reported w outcome).agents,
             cluster := (s.reported w outcome).cluster } := by
  rw [State.reported, State.sessionReport_frame]

/-- With no host transaction waiting, the cores' stores alone go on as the command leaves the port (R258, R334). -/
theorem State.popPort_sessionReport {s : State} (h : s.sessions.waiting = []) (w outcome : Nat) :
    (s.sessionReport w outcome).popPort = (s.reported w outcome).releaseStores := by
  have hwait : (s.reported w outcome).sessions.waiting = [] := by rw [State.reported_frame]; exact h
  have hnone : (s.reported w outcome).releaseHeld = s.reported w outcome := by
    rw [State.releaseHeld, hwait, List.foldl_nil, ← hwait]
  exact congrArg State.releaseStores hnone

/-- How the command `w` at the head of the port ends, whatever its effect was: it leaves the port with `rest`, where stores that
waited may join, its outcome record stands where its address admits one, and its gate is signalled (R258, R259). -/
def State.commandEnds (s t : State) (w : Nat) (rest : List Nat) (outcome : Nat) : Prop :=
  let i := fieldAt w 2 0 14
  let status := fieldAt w 8 0 48
  (∃ l, t.sessions.port = rest ++ l)
    ∧ ((∀ k, (s.core k).stores = []) → t.sessions.port = rest)
    ∧ (∀ j, j ≠ i → t.session j = s.session j)
    ∧ (status ≠ 0 → status + 8 ≤ stackTop → s.checkBlocks 0 status 8 true = none → t.rdNat status 8 =
        (outcome + i * 256 + (if w % 256 = 1 then (t.session i).gen else (t.session i).len) * 2 ^ 32) % 2 ^ 64)
    ∧ (∀ b, (status = 0 ∨ b < status ∨ status + 8 ≤ b) → t.mem.byte? b = s.mem.byte? b)
    ∧ ((∀ k, (s.core k).portHeld = false) → t.recovery = s.recovery ∧ ∀ g, (t.gate g).value = (s.gate g).value + BitVec.ofNat 32
        (if modBit w 0 ∧ g = fieldAt w 0x10 0 17 then half16 w 0x14 else 0))
    ∧ t = { s with sessions := t.sessions, mem := t.mem, gates := t.gates, agents := t.agents, cluster := t.cluster,
                   recovery := t.recovery, free := t.free }

/-- A command whose effect is confined to its session ends so, with its record and the page map as its effect left them. -/
theorem State.onlySession.commandEnds {s u : State} {w : Nat} {rest : List Nat} (hport : s.sessions.port = w :: rest)
    (hwait : s.sessions.waiting = []) (h : s.onlySession u (fieldAt w 2 0 14)) (outcome : Nat) :
    let t := (u.sessionReport w outcome).popPort
    s.commandEnds t w rest outcome ∧ (∀ j, t.session j = u.session j) ∧ t.sessions.pages = u.sessions.pages := by
  obtain ⟨hother, hframe⟩ := h
  have hrest : u.sessions.port.drop 1 = rest := by rw [hframe, hport]; rfl
  have hcore (k : Nat) : u.core k = s.core k := by rw [hframe]; rfl
  have hstores (k : Nat) : ((u.reported w outcome).core k).stores = (s.core k).stores :=
    (u.sessionReport_core_stores w outcome k).trans (by rw [hcore])
  have hcheck : u.checkBlocks 0 (fieldAt w 8 0 48) 8 true = s.checkBlocks 0 (fieldAt w 8 0 48) 8 true := by rw [hframe]; rfl
  rw [State.popPort_sessionReport (by rw [hframe]; exact hwait)]
  intro t
  obtain ⟨l, ht⟩ : (u.reported w outcome).drained t := State.releaseStores_drained _
  rw [State.reported_frame, hrest] at ht
  have hsessions : t.sessions = { u.sessions with port := rest ++ l } := by rw [ht]
  have hmem : t.mem = (u.recordWritten w outcome).mem := by rw [ht]
  have hrecords (j : Nat) : t.session j = u.session j := by rw [State.session, State.session, hsessions]
  refine ⟨⟨⟨l, by rw [hsessions]⟩, fun hempty => ?_, fun j hj => (hrecords j).trans (hother j hj), fun h0 htop hc => ?_,
    fun b hb => ?_, fun hheld => ?_, by rw [ht, hframe]⟩, hrecords, by rw [hsessions]⟩
  · have hnone : t = u.reported w outcome := State.releaseStores_of_empty fun k => (hstores k).trans (hempty k)
    rw [hnone, State.reported_frame, hrest]
  · rw [State.rdNat_of_write (hmem.trans (State.recordWritten_mem h0 htop (hcheck.trans hc) outcome)) htop, hrecords]
    rfl
  · rw [hmem, State.recordWritten_byte hb, hframe]
  · have hquiet (k : Nat) : ((u.reported w outcome).core k).portHeld = false := by
      rw [HostCore.portHeld, hstores]
      exact hheld k
    obtain ⟨-, hgates, hrecovery⟩ : (u.reported w outcome).drainedQuietly t := State.releaseStores_drainedQuietly hquiet
    refine ⟨by rw [hrecovery, State.reported_frame, hframe], fun g => ?_⟩
    calc (t.gate g).value = ((u.sessionReport w outcome).gate g).value := by rw [State.gate, hgates]; rfl
      _ = _ := by rw [State.sessionReport_gate, hframe]; rfl

/-! The five commands -/

/-- The session commands by their codes (Table 07-3). -/
def sessionCommands : List (Nat × Instr) := [(1, .sessionOpen), (2, .map), (3, .commit), (4, .truncate), (5, .sessionClose)]

/-- The effect of the accepted session command of a code (Table 07-5). -/
def State.sessionEffect (cmd w : Nat) (s : State) : State :=
  match cmd with
  | 1 => s.sessionOpened w
  | 2 => s.sessionMapped w
  | 3 | 4 => s.sessionLength w
  | _ => s.sessionClosed w

theorem exec_sessionCommand {cmd : Nat} {c : Instr} (h : (cmd, c) ∈ sessionCommands) (s : State) :
    exec c s = s.sessionRun cmd (State.sessionEffect cmd) := by
  simp only [sessionCommands, List.mem_cons, Prod.mk.injEq, List.not_mem_nil, or_false] at h
  rcases h with ⟨rfl, rfl⟩ | ⟨rfl, rfl⟩ | ⟨rfl, rfl⟩ | ⟨rfl, rfl⟩ | ⟨rfl, rfl⟩ <;> rfl

theorem State.sessionEffect_onlySession (cmd w : Nat) (s : State) : s.onlySession (s.sessionEffect cmd w) (fieldAt w 2 0 14) := by
  unfold State.sessionEffect
  split
  · exact s.sessionOpened_onlySession w
  · exact s.sessionMapped_onlySession w
  iterate 3 exact s.modSession_onlySession _ _

/-- A code that Table 07-3 does not list fails the first check (Table 07-5). -/
theorem State.sessionCheck_of_unlisted {w : Nat} (h : w % 256 = 0 ∨ 5 < w % 256) (s : State) : s.sessionCheck w = seFormat :=
  if_pos (h.imp_right .inl)

theorem State.page_of_pages {s t : State} (h : t.sessions.pages = s.sessions.pages) (e : Nat) : t.page e = s.page e := by
  rw [State.page, State.page, h]

section
variable {s : State} {w : Nat} {rest : List Nat} (hport : s.sessions.port = w :: rest) (hrun : s.agentsRun = true)
  (hwait : s.sessions.waiting = []) (hheld : s.heldIn (fieldAt w 8 0 48) (if fieldAt w 8 0 48 = 0 then 0 else 8) = false)
  {cmd : Nat} {c : Instr} (hc : (cmd, c) ∈ sessionCommands)
include hport hrun hheld hc

/-- The command at the head of the port is checked, applied and reported, and leaves the port (R258 to R260). -/
theorem exec_sessionCommand_at_head (hcode : w % 256 = cmd ∨ w % 256 = 0 ∨ 5 < w % 256) : exec c s =
    .next ((if s.sessionCheck w = seDone then s.sessionEffect cmd w else s).sessionReport w (s.sessionCheck w)).popPort := by
  rw [exec_sessionCommand hc]
  simp only [State.sessionRun, hport, hrun, hheld, Bool.true_and, Bool.not_false, Bool.and_true, Bool.or_eq_true,
    decide_eq_true_eq, if_pos hcode]

include hwait

theorem exec_sessionCommand_refused (hcode : w % 256 = cmd ∨ w % 256 = 0 ∨ 5 < w % 256) (hcheck : s.sessionCheck w ≠ seDone) :
    ∃ t, exec c s = .next t ∧ s.commandEnds t w rest (s.sessionCheck w) ∧ (∀ j, t.session j = s.session j)
      ∧ t.sessions.pages = s.sessions.pages := by
  rw [exec_sessionCommand_at_head hport hrun hheld hc hcode, if_neg hcheck]
  exact ⟨_, rfl, (State.onlySession.refl s _).commandEnds hport hwait _⟩

theorem exec_sessionCommand_accepted (hcode : w % 256 = cmd) (hcheck : s.sessionCheck w = seDone) :
    ∃ t, exec c s = .next t ∧ s.commandEnds t w rest seDone ∧ (∀ j, t.session j = (s.sessionEffect cmd w).session j)
      ∧ t.sessions.pages = (s.sessionEffect cmd w).sessions.pages := by
  rw [exec_sessionCommand_at_head hport hrun hheld hc (.inl hcode), if_pos hcheck, hcheck]
  exact ⟨_, rfl, (s.sessionEffect_onlySession cmd w).commandEnds hport hwait _⟩

/-- A command that changes its session's record alone. -/
theorem exec_sessionCommand_of_modSession {f : Session → Session} (hcode : w % 256 = cmd) (hcheck : s.sessionCheck w = seDone)
    (hf : s.sessionEffect cmd w = s.modSession (fieldAt w 2 0 14) f) :
    ∃ t, exec c s = .next t ∧ s.commandEnds t w rest seDone ∧ t.session (fieldAt w 2 0 14) = f (s.session (fieldAt w 2 0 14))
      ∧ t.sessions.pages = s.sessions.pages := by
  obtain ⟨t, ht, hends, hrecords, hpages⟩ := exec_sessionCommand_accepted hport hrun hwait hheld hc hcode hcheck
  rw [hf] at hrecords hpages
  exact ⟨t, ht, hends, (hrecords _).trans (s.modSession_session _ f), hpages⟩

end

/-- Settles O30: a command's effect is confined to its session, and the report and the port follow it in one way. -/
theorem sessionCommandsTakeEffect : Obligations.SessionCommandsTakeEffect := by
  intro s w rest hport hrun hwait hheld i r status ends
  refine ⟨fun c cmd hc hcode hcheck => ?_, fun h => s.sessionCheck_of_unlisted h, fun hcheck =>
    ⟨fun hcode => ?_, fun hcode => ?_, fun hcode => ?_, fun hcode => ?_, fun hcode => ?_⟩⟩
  · obtain ⟨t, ht, hends, hrecords, hpages⟩ := exec_sessionCommand_refused hport hrun hwait hheld hc hcode hcheck
    exact ⟨t, ht, hends, hrecords i, hpages⟩
  · obtain ⟨t, ht, hends, hrecords, hpages⟩ :=
      exec_sessionCommand_accepted hport hrun hwait hheld (c := .sessionOpen) (by simp [sessionCommands]) hcode hcheck
    have hrecord : t.session i = openRecord w r := (hrecords i).trans (s.sessionOpened_session w)
    have hpage (e : Nat) : t.page e = (openRecord w r).unmapped e (s.page e) :=
      (State.page_of_pages hpages e).trans (s.sessionOpened_page w e)
    refine ⟨t, ht, hends, hrecord, fun e => ?_⟩
    rw [hrecord, hpage]
    exact ⟨fun hin => Session.unmapped_valid hin _, fun hout => Session.unmapped_of_outside hout _⟩
  · obtain ⟨t, ht, hends, hrecords, hpages⟩ :=
      exec_sessionCommand_accepted hport hrun hwait hheld (c := .map) (by simp [sessionCommands]) hcode hcheck
    have hpage (e : Nat) : t.page e = _ := (State.page_of_pages hpages e).trans (s.sessionMapped_page w e)
    refine ⟨t, ht, hends, hrecords i, fun k hk => ?_, fun e hout =>
      (hpage e).trans (if_neg fun hin => hout.elim (Nat.not_lt.mpr hin.1) (Nat.not_le.mpr hin.2))⟩
    rw [hpage, if_pos ⟨Nat.le_add_right _ _, Nat.add_lt_add_left hk _⟩, Nat.add_sub_cancel_left]
    cases hunmap : bit (fieldAt w 0x28 0 1) 0 with
    | true => exact ⟨rfl, fun h => absurd h (by decide)⟩
    | false => exact ⟨rfl, fun _ hframe => if_pos hframe⟩
  · exact exec_sessionCommand_of_modSession hport hrun hwait hheld (c := .commit) (by simp [sessionCommands]) hcode hcheck rfl
  · exact exec_sessionCommand_of_modSession hport hrun hwait hheld (c := .truncate) (by simp [sessionCommands]) hcode hcheck rfl
  · exact exec_sessionCommand_of_modSession hport hrun hwait hheld (c := .sessionClose) (by simp [sessionCommands]) hcode hcheck rfl

end Sys2Proof.Machine

/-! The random-number lanes (O60; R309, R310, R312): a jump is a repeated step. What is additive on the 64-bit states and commutes
with the step is determined by its value at the state 1, so a product with the state x^n is n steps. -/
namespace Sys2Proof.Machine

variable {taps : Nat} {f g : Nat → Nat}

/-! Repetition -/

theorem repeat_succ (n s : Nat) : Nat.repeat f (n + 1) s = f (Nat.repeat f n s) := rfl

theorem repeat_add (m n s : Nat) : Nat.repeat f (m + n) s = Nat.repeat f m (Nat.repeat f n s) := by
  induction m with
  | zero => rw [Nat.zero_add]; rfl
  | succ m ih => rw [Nat.succ_add, repeat_succ, ih, repeat_succ]

theorem repeat_of_fixed {s : Nat} (h : f s = s) (n : Nat) : Nat.repeat f n s = s := by
  induction n with
  | zero => rfl
  | succ n ih => rw [repeat_succ, ih, h]

theorem repeat_mul_of_period {m s : Nat} (h : Nat.repeat f m s = s) (k : Nat) : Nat.repeat f (m * k) s = s := by
  induction k with
  | zero => rfl
  | succ k ih => rw [Nat.mul_succ, repeat_add, h, ih]

theorem repeat_mod_of_period {m s : Nat} (h : Nat.repeat f m s = s) (n : Nat) : Nat.repeat f (n % m) s = Nat.repeat f n s := by
  conv => rhs; rw [← Nat.mod_add_div n m, repeat_add, repeat_mul_of_period h]

/-! Sums without carry, and one step -/

theorem two_pow_mul_add_eq_xor {i b : Nat} (hb : b < 2 ^ i) (a : Nat) : 2 ^ i * a + b = 2 ^ i * a ^^^ b := by
  refine Nat.eq_of_testBit_eq fun j => ?_
  rw [Nat.testBit_two_pow_mul_add a hb, Nat.testBit_xor, Nat.testBit_two_pow_mul]
  split
  next h => rw [decide_eq_false (Nat.not_le.mpr h), Bool.false_and, Bool.false_xor]
  next h =>
    have hij : i ≤ j := Nat.not_lt.mp h
    have hbit : b.testBit j = false := Nat.testBit_lt_two_pow (Nat.lt_of_lt_of_le hb (Nat.pow_le_pow_right Nat.two_pos hij))
    rw [hbit, decide_eq_true hij, Bool.true_and, Bool.xor_false]

theorem mod_two_pow_succ_eq_xor (e j : Nat) :
    e % 2 ^ (j + 1) = if e / 2 ^ j % 2 = 1 then e % 2 ^ j ^^^ 2 ^ j else e % 2 ^ j := by
  have hlow : e % 2 ^ j < 2 ^ j := Nat.mod_lt e (Nat.two_pow_pos j)
  rw [Nat.mod_pow_succ]
  split
  next h => rw [h, Nat.add_comm, two_pow_mul_add_eq_xor hlow, Nat.mul_one, Nat.xor_comm]
  next h => rw [Nat.mod_two_ne_one.mp h, Nat.mul_zero, Nat.add_zero]

theorem two_pow_63_le_iff_testBit {s : Nat} (hs : s < 2 ^ 64) : 2 ^ 63 ≤ s ↔ s.testBit 63 = true := by
  rw [Nat.testBit_eq_decide_div_mod_eq, decide_eq_true_eq]
  omega

theorem lfsrStep_lt (ht : taps < 2 ^ 64) (s : Nat) : lfsrStep taps s < 2 ^ 64 := by
  have hdouble : 2 * s % 2 ^ 64 < 2 ^ 64 := Nat.mod_lt _ (Nat.two_pow_pos 64)
  unfold lfsrStep
  split
  · exact Nat.xor_lt_two_pow hdouble ht
  · exact hdouble

theorem testBit_double (s : Nat) {i : Nat} (hi : i < 64) :
    (2 * s % 2 ^ 64).testBit i = (decide (0 < i) && s.testBit (i - 1)) := by
  rw [Nat.testBit_mod_two_pow, decide_eq_true hi, Bool.true_and]
  exact Nat.testBit_two_pow_mul (i := 1)

/-- R309: bit i takes bit i − 1, and the coefficient i where the state had its highest bit. -/
theorem testBit_lfsrStep {s i : Nat} (hs : s < 2 ^ 64) (hi : i < 64) :
    (lfsrStep taps s).testBit i = ((decide (0 < i) && s.testBit (i - 1)) ^^ (s.testBit 63 && taps.testBit i)) := by
  unfold lfsrStep
  split
  next h =>
    rw [(two_pow_63_le_iff_testBit hs).mp h, Bool.true_and, ← testBit_double s hi]
    exact Nat.testBit_xor _ _ i
  next h =>
    rw [Bool.eq_false_iff.mpr fun hbit => h ((two_pow_63_le_iff_testBit hs).mpr hbit), Bool.false_and, Bool.xor_false]
    exact testBit_double s hi

theorem lfsrStep_xor (ht : taps < 2 ^ 64) {s u : Nat} (hs : s < 2 ^ 64) (hu : u < 2 ^ 64) :
    lfsrStep taps (s ^^^ u) = lfsrStep taps s ^^^ lfsrStep taps u := by
  have hsu := Nat.xor_lt_two_pow hs hu
  have hxor := Nat.xor_lt_two_pow (lfsrStep_lt ht s) (lfsrStep_lt ht u)
  refine Nat.eq_of_testBit_eq fun i => ?_
  by_cases hi : i < 64
  · rw [Nat.testBit_xor, testBit_lfsrStep hsu hi, testBit_lfsrStep hs hi, testBit_lfsrStep hu hi]
    simp only [Nat.testBit_xor, Bool.and_xor_distrib_left, Bool.and_xor_distrib_right, Bool.xor_assoc, Bool.xor_left_comm]
  · have hpow : 2 ^ 64 ≤ 2 ^ i := Nat.pow_le_pow_right (by decide) (Nat.not_lt.mp hi)
    rw [Nat.testBit_lt_two_pow (Nat.lt_of_lt_of_le (lfsrStep_lt ht _) hpow), Nat.testBit_lt_two_pow (Nat.lt_of_lt_of_le hxor hpow)]

theorem lfsrStep_of_lt {s : Nat} (hs : s < 2 ^ 63) : lfsrStep taps s = 2 * s := by
  rw [lfsrStep, if_neg (Nat.not_le.mpr hs)]
  exact Nat.mod_eq_of_lt (by omega)

/-- A state is x times its upper 63 bits plus its lowest bit. -/
theorem lfsrStep_half_xor (taps : Nat) {s : Nat} (hs : s < 2 ^ 64) : lfsrStep taps (s / 2) ^^^ s % 2 = s := by
  rw [lfsrStep_of_lt (by omega)]
  exact (two_pow_mul_add_eq_xor (i := 1) (Nat.mod_lt s Nat.two_pos) (s / 2)).symm.trans (Nat.div_add_mod s 2)

theorem lfsrStep_zero : lfsrStep taps 0 = 0 := lfsrStep_of_lt (by decide)

theorem lfsrStep_one : lfsrStep taps 1 = 2 := lfsrStep_of_lt (by decide)

theorem lfsrStep_repeat_lt (ht : taps < 2 ^ 64) {s : Nat} (hs : s < 2 ^ 64) (n : Nat) :
    Nat.repeat (lfsrStep taps) n s < 2 ^ 64 := by
  cases n with
  | zero => exact hs
  | succ n => rw [repeat_succ]; exact lfsrStep_lt ht _

/-- The powers x^j below the degree of the polynomial. -/
theorem lfsrStep_repeat_one {j : Nat} (hj : j < 64) : Nat.repeat (lfsrStep taps) j 1 = 2 ^ j := by
  induction j with
  | zero => rfl
  | succ j ih =>
    have hpow : 2 ^ j < 2 ^ 63 := Nat.pow_lt_pow_right (by decide) (by omega)
    rw [repeat_succ, ih (by omega), lfsrStep_of_lt hpow, Nat.pow_succ']

/-! What is additive and commutes with the step -/

/-- `f` keeps the 64-bit states, is additive over GF(2) on them and commutes with the step. -/
structure StepLinear (taps : Nat) (f : Nat → Nat) : Prop where
  lt : ∀ {s}, s < 2 ^ 64 → f s < 2 ^ 64
  xor : ∀ {s u}, s < 2 ^ 64 → u < 2 ^ 64 → f (s ^^^ u) = f s ^^^ f u
  step : ∀ {s}, s < 2 ^ 64 → f (lfsrStep taps s) = lfsrStep taps (f s)

namespace StepLinear

theorem zero : StepLinear taps fun _ => 0 := ⟨fun _ => by decide, fun _ _ => rfl, fun _ => lfsrStep_zero.symm⟩

theorem id : StepLinear taps fun s => s := ⟨fun h => h, fun _ _ => rfl, fun _ => rfl⟩

theorem lfsrStep_comp (ht : taps < 2 ^ 64) (hf : StepLinear taps f) : StepLinear taps fun s => lfsrStep taps (f s) where
  lt _ := lfsrStep_lt ht _
  xor hs hu := by rw [hf.xor hs hu, lfsrStep_xor ht (hf.lt hs) (hf.lt hu)]
  step hs := by rw [hf.step hs]

theorem add (ht : taps < 2 ^ 64) (hf : StepLinear taps f) (hg : StepLinear taps g) : StepLinear taps fun s => f s ^^^ g s where
  lt hs := Nat.xor_lt_two_pow (hf.lt hs) (hg.lt hs)
  xor hs hu := by rw [hf.xor hs hu, hg.xor hs hu]; ac_rfl
  step hs := by rw [hf.step hs, hg.step hs, lfsrStep_xor ht (hf.lt hs) (hg.lt hs)]

theorem steps (ht : taps < 2 ^ 64) (n : Nat) : StepLinear taps fun s => Nat.repeat (lfsrStep taps) n s := by
  induction n with
  | zero => exact id
  | succ n ih => exact ih.lfsrStep_comp ht

theorem gfMulAux (ht : taps < 2 ^ 64) (hf : StepLinear taps f) (hg : StepLinear taps g) (n b : Nat) :
    StepLinear taps fun s => gfMulAux taps n (f s) b (g s) := by
  induction n generalizing f g b with
  | zero => exact hg
  | succ n ih =>
    simp only [Machine.gfMulAux]
    split
    · exact ih (hf.lfsrStep_comp ht) (hg.add ht hf) (b / 2)
    · exact ih (hf.lfsrStep_comp ht) hg (b / 2)

theorem gfMul (ht : taps < 2 ^ 64) (b : Nat) : StepLinear taps fun s => gfMul taps s b := gfMulAux ht id zero 64 b

theorem map_zero (hf : StepLinear taps f) : f 0 = 0 := by
  have h : f 0 = f 0 ^^^ f 0 := hf.xor (s := 0) (u := 0) (by decide) (by decide)
  rwa [Nat.xor_self] at h

/-- Induction on the bits of the state. -/
theorem eq_of_apply_one_eq (hf : StepLinear taps f) (hg : StepLinear taps g) (hone : f 1 = g 1) {s : Nat} (hs : s < 2 ^ 64) :
    f s = g s := by
  have hzero : f 0 = g 0 := hf.map_zero.trans hg.map_zero.symm
  induction s using Nat.strongRecOn with
  | ind s ih =>
    rcases Nat.eq_zero_or_pos s with rfl | hpos
    · exact hzero
    have hhalf : f (s / 2) = g (s / 2) := ih (s / 2) (by omega) (by omega)
    have hlow : f (s % 2) = g (s % 2) := by
      rcases Nat.mod_two_eq_zero_or_one s with h | h <;> rw [h]
      · exact hzero
      · exact hone
    have hlt : lfsrStep taps (s / 2) < 2 ^ 64 := by rw [lfsrStep_of_lt (by omega)]; omega
    rw [← lfsrStep_half_xor taps hs, hf.xor hlt (by omega), hg.xor hlt (by omega), hf.step (by omega), hg.step (by omega), hhalf,
      hlow]

end StepLinear

/-! The product of two states -/

/-- With the lower j bits of e in the sum and x^j as the next summand, the remaining rounds add the upper bits. -/
theorem gfMulAux_of_bits {n j e : Nat} (hj : j + n = 64) (he : e < 2 ^ 64) :
    gfMulAux taps n (Nat.repeat (lfsrStep taps) j 1) (e / 2 ^ j) (e % 2 ^ j) = e := by
  induction n generalizing j with
  | zero =>
    obtain rfl : j = 64 := hj
    exact Nat.mod_eq_of_lt he
  | succ n ih =>
    have hbit : (if e / 2 ^ j % 2 = 1 then Nat.xor (e % 2 ^ j) (Nat.repeat (lfsrStep taps) j 1) else e % 2 ^ j)
        = e % 2 ^ (j + 1) := by
      rw [lfsrStep_repeat_one (by omega), mod_two_pow_succ_eq_xor]
      rfl
    rw [gfMulAux, hbit, Nat.div_div_eq_div_mul, ← Nat.pow_succ, ← repeat_succ (f := lfsrStep taps)]
    exact ih (by omega)

theorem gfMul_one {e : Nat} (he : e < 2 ^ 64) : gfMul taps 1 e = e := by
  have h := gfMulAux_of_bits (taps := taps) (j := 0) (Nat.zero_add 64) he
  rwa [Nat.pow_zero, Nat.div_one, Nat.mod_one] at h

theorem gfMul_repeat (ht : taps < 2 ^ 64) {s : Nat} (hs : s < 2 ^ 64) (n : Nat) :
    gfMul taps s (Nat.repeat (lfsrStep taps) n 1) = Nat.repeat (lfsrStep taps) n s :=
  (StepLinear.gfMul ht _).eq_of_apply_one_eq (.steps ht n) (gfMul_one (lfsrStep_repeat_lt ht (by decide) n)) hs

/-! The powers of x, and the jump -/

theorem gfMul_powers (ht : taps < 2 ^ 64) (a b : Nat) :
    gfMul taps (Nat.repeat (lfsrStep taps) a 1) (Nat.repeat (lfsrStep taps) b 1) = Nat.repeat (lfsrStep taps) (a + b) 1 := by
  rw [gfMul_repeat ht (lfsrStep_repeat_lt ht (by decide) a), Nat.add_comm, repeat_add]

theorem gfPowAux_repeat (ht : taps < 2 ^ 64) {k n : Nat} (hn : n < 2 ^ k) (m a : Nat) :
    gfPowAux taps k (Nat.repeat (lfsrStep taps) m 1) n (Nat.repeat (lfsrStep taps) a 1)
      = Nat.repeat (lfsrStep taps) (a + m * n) 1 := by
  induction k generalizing n m a with
  | zero =>
    obtain rfl : n = 0 := by omega
    rfl
  | succ k ih =>
    have hhalf : n / 2 < 2 ^ k := by omega
    have hdouble : (m + m) * (n / 2) = m * (2 * (n / 2)) := by rw [← Nat.two_mul, Nat.mul_comm 2, Nat.mul_assoc]
    rw [gfPowAux, gfMul_powers ht]
    split
    next hodd =>
      have hn : n = 2 * (n / 2) + 1 := by omega
      rw [gfMul_powers ht, ih hhalf, hdouble, Nat.add_assoc, Nat.add_comm m, ← Nat.mul_add_one, ← hn]
    next heven =>
      have hn : n = 2 * (n / 2) := by omega
      rw [ih hhalf, hdouble, ← hn]

/-- Each power of x is n steps from the state 1. -/
theorem gfPowAux_eq_repeat (ht : taps < 2 ^ 64) {n : Nat} (hn : n < 2 ^ 64) :
    gfPowAux taps 64 2 n 1 = Nat.repeat (lfsrStep taps) n 1 := by
  have h := gfPowAux_repeat ht hn 1 0
  rw [Nat.zero_add, Nat.one_mul] at h
  rwa [show Nat.repeat (lfsrStep taps) 1 1 = 2 from lfsrStep_one] at h

theorem gfJump_eq_repeat_mod (ht : taps < 2 ^ 64) {s : Nat} (hs : s < 2 ^ 64) (n : Nat) :
    gfJump taps s n = Nat.repeat (lfsrStep taps) (n % (2 ^ 64 - 1)) s := by
  have hlt : n % (2 ^ 64 - 1) < 2 ^ 64 := by omega
  rw [gfJump, gfPowX, gfPowAux_eq_repeat ht hlt, gfMul_repeat ht hs]

/-- Where x^(n+1) is x and x has the inverse y, every state repeats after n steps. -/
theorem repeat_eq_self_of_inverse (ht : taps < 2 ^ 64) {n y : Nat} (hx : Nat.repeat (lfsrStep taps) (n + 1) 1 = lfsrStep taps 1)
    (hy : y < 2 ^ 64) (hinv : lfsrStep taps y = 1) {s : Nat} (hs : s < 2 ^ 64) :
    Nat.repeat (lfsrStep taps) n s = s := by
  have hone : Nat.repeat (lfsrStep taps) n 1 = 1 := calc
    _ = Nat.repeat (lfsrStep taps) (n + 1) y := by rw [repeat_add, show Nat.repeat (lfsrStep taps) 1 y = 1 from hinv]
    _ = lfsrStep taps y := (StepLinear.steps ht (n + 1)).eq_of_apply_one_eq (StepLinear.id.lfsrStep_comp ht) hx hy
    _ = 1 := hinv
  exact (StepLinear.steps ht n).eq_of_apply_one_eq .id hone hs

/-! The polynomial ROM -/

theorem romTaps_lt : ∀ taps ∈ romTaps, taps < 2 ^ 64 := by decide

def gfSquare (taps s : Nat) : Nat := gfMul taps s s

theorem gfSquare_repeat (ht : taps < 2 ^ 64) (k : Nat) : Nat.repeat (gfSquare taps) k 2 = Nat.repeat (lfsrStep taps) (2 ^ k) 1 := by
  induction k with
  | zero => exact (lfsrStep_one (taps := taps)).symm
  | succ k ih => rw [repeat_succ, ih, gfSquare, gfMul_powers ht, ← Nat.two_mul, Nat.pow_succ']

/-- R310, R311: x^(2^64) is x for every entry, by 64 squarings. -/
theorem romTaps_gfSquare_repeat : ∀ taps ∈ romTaps, Nat.repeat (gfSquare taps) 64 2 = 2 := by decide +kernel

/-- Every entry has the coefficient c_0, so x has an inverse. -/
theorem romTaps_lfsrStep_inverse : ∀ taps ∈ romTaps, lfsrStep taps (2 ^ 63 + taps / 2) = 1 := by decide

theorem tapsOf_mem_romTaps (i : Nat) : tapsOf i ∈ romTaps := by
  have hi : i % 16 < romTaps.length := Nat.mod_lt i (by decide)
  rw [tapsOf, List.getD_eq_getElem?_getD, List.getElem?_eq_getElem hi, Option.getD_some]
  exact List.getElem_mem hi

theorem tapsOf_lt (i : Nat) : tapsOf i < 2 ^ 64 := romTaps_lt _ (tapsOf_mem_romTaps i)

/-- Every state repeats after 2^64 − 1 steps (R310). -/
theorem lfsrStep_period (i : Nat) {s : Nat} (hs : s < 2 ^ 64) :
    Nat.repeat (lfsrStep (tapsOf i)) (2 ^ 64 - 1) s = s := by
  have ht := tapsOf_lt i
  have hx : Nat.repeat (lfsrStep (tapsOf i)) (2 ^ 64 - 1 + 1) 1 = lfsrStep (tapsOf i) 1 := by
    rw [Nat.sub_add_cancel (Nat.two_pow_pos 64), ← gfSquare_repeat ht, romTaps_gfSquare_repeat _ (tapsOf_mem_romTaps i),
      lfsrStep_one]
  exact repeat_eq_self_of_inverse ht hx (by omega) (romTaps_lfsrStep_inverse _ (tapsOf_mem_romTaps i)) hs

theorem gfJump_eq_repeat (i : Nat) {s : Nat} (hs : s < 2 ^ 64) (n : Nat) :
    gfJump (tapsOf i) s n = Nat.repeat (lfsrStep (tapsOf i)) n s := by
  rw [gfJump_eq_repeat_mod (tapsOf_lt i) hs, repeat_mod_of_period (lfsrStep_period i hs)]

/-- R310: the steps that complete the period would keep the state at zero. -/
theorem lfsrStep_repeat_ne_zero (i : Nat) {s : Nat} (hs : s < 2 ^ 64) (hne : s ≠ 0) (n : Nat) :
    Nat.repeat (lfsrStep (tapsOf i)) n s ≠ 0 := by
  intro hzero
  have hback := repeat_mul_of_period (lfsrStep_period i hs) n
  have hle : n ≤ (2 ^ 64 - 1) * n := Nat.le_mul_of_pos_left n (by decide)
  rw [← Nat.sub_add_cancel hle, repeat_add, hzero, repeat_of_fixed lfsrStep_zero] at hback
  exact hne hback.symm

/-- Settles O60: a jump is a repeated step, and the rest of the period undoes the steps taken. -/
theorem jumpsEqualSteps : Obligations.JumpsEqualSteps := by
  refine ⟨fun taps x i ht hx hi => ⟨lfsrStep_lt ht x, testBit_lfsrStep hx hi⟩, fun i n x hx => ?_⟩
  have hjump := gfJump_eq_repeat i hx
  refine ⟨hjump n, ?_, ?_, fun hne => ?_⟩
  · rw [gfJump, gfJump, gfPowX, gfPowX, Nat.mod_mod]
  · rw [hjump]; exact lfsrStep_repeat_lt (tapsOf_lt i) hx n
  · rw [hjump]; exact lfsrStep_repeat_ne_zero i hx hne n

end Sys2Proof.Machine
